-- ==== Sys2Proof/Word.lean ====
section
/-! DEFINITION. The words the spec treats as bits (11_formats.md, opening paragraph). -/

namespace Sys2Proof

/-- One byte of a notice, a frame or the configuration image. -/
abbrev Byte := BitVec 8

/-- A port set: 16 bits, port n in bit n (11_formats.md). -/
abbrev PortSet := BitVec 16

/-- A station set: 24 bits, station n in bit n - 1 (11_formats.md). -/
abbrev StationSet := BitVec 24

end Sys2Proof
end

