-- ==== Sys2Proof/Config.lean ====
section
/-! DEFINITION. Capacities and intervals fixed by the design, and the free values the manual leaves open. -/

namespace Sys2Proof.Config

/-- Hop entries of the Circuit Table (R1). -/
def hopCapacity : Nat := 256
/-- Probe slots (R47). -/
def slotCount : Nat := 4
/-- Records of the sighting pool (R56). -/
def poolSize : Nat := 128
/-- Watch list entries (R30). -/
def watchCapacity : Nat := 16
/-- Items of the sighting backlog (R37). -/
def backlogCapacity : Nat := 32
/-- Strays of the pending stray list (R42). -/
def strayCapacity : Nat := 8
/-- Entries of the window list (R89). -/
def windowCapacity : Nat := 8
/-- Entries of the suspension stack (R124). -/
def stackCapacity : Nat := 4
/-- Spans a run records as merged (R125). -/
def mergedCapacity : Nat := 8
/-- Notices in each of the four collections of the Loop Port (chapter 7). -/
def noticeCapacity : Nat := 8
/-- Records of the report queue (R180). -/
def reportCapacity : Nat := 32
/-- Tags a dwell result lists (R26). -/
def tagCapacity : Nat := 64
/-- Attempts of a notice (R150, R151). -/
def maxAttempts : Nat := 4
/-- Return timeout and linger limit in ms (R150, R152). -/
def returnMs : Nat := 20
/-- Silence timer in ms (R153). -/
def silenceMs : Nat := 50
/-- Watch grace in ms (R32). -/
def watchGraceMs : Nat := 1000
/-- Forwarded notices in a row before an insertion goes first (R146). -/
def fairnessLimit : Nat := 4
/-- Bytes of the configuration image (section 11.5). -/
def imageBytes : Nat := 140

/-- FREE VALUE (log 2). The manual gives no order for own steps that are ready together.
The n-th such choice takes the step at this index, modulo the number of ready steps. -/
opaque ownStepOrder : Nat → Nat

/-- FREE VALUE (log 6). R198 names times in response data and gives them no width or unit. -/
opaque timeBytes : Nat → List Byte

/-- FREE VALUE (log 6). R198 does not say what announces the length of a list in response data. -/
opaque listHeader : Nat → List Byte

/-- FREE VALUE (log 6). R198 gives no layout for a set of names (the load finding's sets, R192). -/
opaque nameSetBytes : List Nat → List Byte

/-- FREE VALUE (log 6). R198 gives no layout for the warning set, names with configured values (R191, R192). -/
opaque warningSetBytes : List (Nat × Nat) → List Byte

/-- FREE VALUE (log 6). R198 gives no byte for a yes or no that no list of names covers. -/
opaque flagByte : Bool → Byte

/-- FREE VALUE (log 6). The window states stand in a table with rows for two kinds of station (R89),
so the position of CLOSED in it is open. -/
opaque closedWindowCode : Byte

/-- FREE VALUE (log 6). OPEN stands in two rows of that table; this is its byte at a station other than
the opener. -/
opaque otherOpenWindowCode : Byte

end Sys2Proof.Config
end

