-- ==== Sys2Proof/Syntax.lean ====
section
/-! DEFINITION. The commands of the block: one constructor per row of spec/opcode_table.json. -/

namespace Sys2Proof

/-- One marking found by the detector during a dwell: circuit, epoch, level class (R26). -/
structure Tag where
  circuit : Nat
  epoch   : Nat
  level   : Nat
  deriving DecidableEq, Repr

inductive Instr where
  /-- Power is applied (R195). -/
  | powerOn
  /-- The last byte of the image has been read; the bytes the memory supplied (R188). -/
  | loadEnd (image : List Byte)
  -- Commands of the control port (section 9.2).
  | status
  | clearAlerts (flags : Byte)
  | clearFaults (flags : Byte)
  | setAlertMask (flags : Byte)
  | openWindow (scope : PortSet)
  | closeWindow (sequence settleCode : Byte)
  | cancelWindow (sequence : Byte)
  | audit (circuit : BitVec 16)
  | census (circuit : BitVec 16)
  | holdAudits
  | releaseAudits
  | sweep (station port : Byte)
  | readReport
  | readCircuit (circuit : BitVec 16)
  | readWindows
  | readRoster
  | readPort (port : Byte)
  | loopReset
  | restart
  /-- A write transaction whose frame fails the check of R172. -/
  | invalidCommandFrame (frame : List Byte)
  /-- A read transaction that clocks this many bytes (R173). -/
  | readTransaction (clocked : Nat)
  -- The audit loop (chapter 7).
  /-- A notice arrives from upstream, as the bytes on the link (R139). -/
  | noticeReceived (bytes : List Byte)
  | idleFillReceived
  | transmitComplete
  | insertionPlaceGrant
  /-- The return timeout of the outstanding notice of this number expires (R150). -/
  | returnTimeout (number : Nat)
  /-- The 20 ms of the lingering entry of this number have passed (R152). -/
  | lingerEnd (number : Nat)
  | silenceTimeout
  -- Dispatch of the oldest notice of the receive queue (R143).
  | joinDispatch
  | presentDispatch
  | windowOpenDispatch
  | windowCancelDispatch
  | windowCloseDispatch
  | tallyDispatch
  | probeStartDispatch
  | sightingDispatch
  | probeEndDispatch
  | strayDispatch
  | spanAlarmDispatch
  | spanAlarmRestoreDispatch
  | loopResetDispatch
  -- Scanning and loss inputs (chapter 2).
  /-- The dwell in progress ends; every marking the detector found during it (R26, R27). -/
  | dwellEnd (found : List Tag)
  | watchExpiry (circuit : Nat)
  | lossInputAsserted (port : Nat)
  | lossInputReleased (port : Nat)
  | holdOffExpiry (port : Nat)
  -- Timers and launches.
  | deadlineExpiry (slot : Nat)
  | settleTimerExpiry (sequence : Nat)
  | coalescingTimerExpiry
  | baseLaunch
  | sweepLaunch
  deriving DecidableEq, Repr

end Sys2Proof
end

