-- ==== Sys2Proof/Decode.lean ====
section
/-! DEFINITION. Control port command frames (R172, R198) to and from commands, and the table's words. -/

namespace Sys2Proof

/-- Two bytes, most significant first (11_formats.md). -/
def word16 (hi lo : Byte) : BitVec 16 := BitVec.ofNat 16 (hi.toNat * 256 + lo.toNat)

/-- The high byte of a 16-bit field. -/
def highByte (w : BitVec 16) : Byte := BitVec.ofNat 8 (w.toNat / 256)

/-- The low byte of a 16-bit field. -/
def lowByte (w : BitVec 16) : Byte := BitVec.ofNat 8 (w.toNat % 256)

/-- The command a code and its parameters spell (section 11.3); `none` for an unknown code or a
parameter length that the code does not require (R172). -/
def decodeCommand (code : Nat) (params : List Byte) : Option Instr :=
  match code, params with
  | 0x01, [] => some .status
  | 0x02, [a] => some (.clearAlerts a)
  | 0x03, [a] => some (.clearFaults a)
  | 0x04, [a] => some (.setAlertMask a)
  | 0x10, [a, b] => some (.openWindow (word16 a b))
  | 0x11, [a, b] => some (.closeWindow a b)
  | 0x12, [a] => some (.cancelWindow a)
  | 0x20, [a, b] => some (.audit (word16 a b))
  | 0x21, [a, b] => some (.census (word16 a b))
  | 0x22, [] => some .holdAudits
  | 0x23, [] => some .releaseAudits
  | 0x24, [a, b] => some (.sweep a b)
  | 0x30, [] => some .readReport
  | 0x31, [a, b] => some (.readCircuit (word16 a b))
  | 0x32, [] => some .readWindows
  | 0x33, [] => some .readRoster
  | 0x34, [a] => some (.readPort a)
  | 0x40, [] => some .loopReset
  | 0x41, [] => some .restart
  | _, _ => none

/-- The command of a frame that passes the check of R172. Bytes past the announced parameters are
clocked beyond the frame and are not part of it; a frame that ends before its length byte does not pass
(log 31). -/
def validFrame : List Byte → Option Instr
  | code :: len :: rest =>
    if len.toNat ≤ rest.length then decodeCommand code.toNat (rest.take len.toNat) else none
  | _ => none

/-- A write transaction as a command of the queue: a transaction without a byte is no command, and a
frame that fails the check is an INVALID_COMMAND_FRAME (R172). -/
def commandOfFrame (frame : List Byte) : Option Instr :=
  if frame = [] then none
  else match validFrame frame with
    | some c => some c
    | none => some (.invalidCommandFrame frame)

/-- The frame of a control port command (R198); `none` for the other rows. -/
def frameOfCommand : Instr → Option (List Byte)
  | .status => some [0x01, 0]
  | .clearAlerts a => some [0x02, 1, a]
  | .clearFaults a => some [0x03, 1, a]
  | .setAlertMask a => some [0x04, 1, a]
  | .openWindow w => some [0x10, 2, highByte w, lowByte w]
  | .closeWindow a b => some [0x11, 2, a, b]
  | .cancelWindow a => some [0x12, 1, a]
  | .audit w => some [0x20, 2, highByte w, lowByte w]
  | .census w => some [0x21, 2, highByte w, lowByte w]
  | .holdAudits => some [0x22, 0]
  | .releaseAudits => some [0x23, 0]
  | .sweep a b => some [0x24, 2, a, b]
  | .readReport => some [0x30, 0]
  | .readCircuit w => some [0x31, 2, highByte w, lowByte w]
  | .readWindows => some [0x32, 0]
  | .readRoster => some [0x33, 0]
  | .readPort a => some [0x34, 1, a]
  | .loopReset => some [0x40, 0]
  | .restart => some [0x41, 0]
  | .invalidCommandFrame f => some f
  | .powerOn | .loadEnd _ | .readTransaction _ | .noticeReceived _ | .idleFillReceived
  | .transmitComplete | .insertionPlaceGrant | .returnTimeout _ | .lingerEnd _ | .silenceTimeout
  | .joinDispatch | .presentDispatch | .windowOpenDispatch | .windowCancelDispatch
  | .windowCloseDispatch | .tallyDispatch | .probeStartDispatch | .sightingDispatch
  | .probeEndDispatch | .strayDispatch | .spanAlarmDispatch | .spanAlarmRestoreDispatch
  | .loopResetDispatch | .dwellEnd _ | .watchExpiry _ | .lossInputAsserted _ | .lossInputReleased _
  | .holdOffExpiry _ | .deadlineExpiry _ | .settleTimerExpiry _ | .coalescingTimerExpiry
  | .baseLaunch | .sweepLaunch => none

/-- No row of spec/opcode_table.json gives bits, so no word spells a command. -/
def decodeTableWord (_nbits _w : Nat) : Option Instr := none

end Sys2Proof
end

