-- ==== Sys2Proof/Machine/State.lean ====
section
/-! DEFINITION. The state of one H820, block by block (00_scope.md section 3), as plain data. -/

namespace Sys2Proof.Machine

/-! ### Names and identifiers -/

/-- Run states (section 10.5). -/
inductive RunState where
  | starting | running | passive
  deriving DecidableEq, Repr

/-- Port classes (R187). -/
inductive PortClass where
  | lineIn | lineOut | add | drop | unused
  deriving DecidableEq, Repr

/-- Probe modes (R30, R47) and queued modes (R9). -/
inductive Mode where
  | census | routine | sweep
  deriving DecidableEq, Repr

/-- A serial: opening station and window sequence (00_scope.md section 7). -/
structure Serial where
  opener : Nat
  seq    : Nat
  deriving DecidableEq, Repr

/-- A span: station and LINE-IN port (00_scope.md section 7). -/
structure Span where
  station : Nat
  port    : Nat
  deriving DecidableEq, Repr

/-- Why an audit was requested (R13); absent is `none` where an origin is optional. -/
inductive Origin where
  | start | command | window (serial : Serial) | stray | restore | rejoin | reset | sweep (span : Span)
  deriving DecidableEq, Repr

/-- A hop with its optional levels (R10). -/
structure Hop where
  station      : Nat
  ingress      : Nat
  egress       : Nat
  ingressLevel : Option Nat
  egressLevel  : Option Nat
  deriving DecidableEq, Repr

/-! ### Configuration Loader (chapter 10) -/

/-- One port table entry (R187). -/
structure PortEntry where
  cls        : PortClass
  farStation : Nat
  farPort    : Nat
  deriving DecidableEq, Repr

/-- One originated entry (R187). -/
structure Originated where
  circuit : Nat
  line    : Nat
  addPort : Nat
  deriving DecidableEq, Repr

/-- The configuration image as loaded, defaults taken (R187, R191). -/
structure Image where
  signature       : Byte
  integrity       : Byte
  station         : Nat
  ports           : List PortEntry
  positions       : List (Option Originated)
  dwellCode       : Nat
  deadlineCode    : Nat
  holdOffCode     : Nat
  settleCode      : Nat
  degradeMargin   : Nat
  batchLimit      : Nat
  reportThreshold : Nat
  coalescingCode  : Nat
  autoCensus      : Bool
  startHeld       : Bool
  gradeLimit      : Nat
  deriving DecidableEq, Repr

/-- Reasons of a fatal fault, in the order of R192. -/
inductive LoadFault where
  | signature | integrity | station | farEnd | duplicateCircuit | duplicateLine | addPort
  deriving DecidableEq, Repr

/-- Fields replaced under R191, in the order of its table. -/
inductive LoadWarning where
  | dwellCode | batchLimit | reportThreshold | degradeMargin | settleCode | portClass
  deriving DecidableEq, Repr

inductive LoadOutcome where
  | loading | running | passive
  deriving DecidableEq, Repr

/-- A field replaced by its default, with its configured value: for the port class the encoding at the lowest
port of an unassigned class (R191, log 32). -/
structure Replaced where
  field : LoadWarning
  value : Nat
  deriving DecidableEq, Repr

/-- The load finding (R192). Its warning set holds the fields replaced with their configured values (R191). -/
structure LoadFinding where
  outcome     : LoadOutcome
  reason      : Option LoadFault
  position    : Option Nat
  fatal       : List LoadFault
  warnings    : List Replaced
  warningPort : Option Nat
  deriving DecidableEq, Repr

/-! ### Circuit Table (section 1.1) -/

inductive Role where
  | head | transit | tail | localCircuit
  deriving DecidableEq, Repr

/-- A hop entry (R1). -/
structure HopEntry where
  circuit     : Nat
  role        : Role
  ingress     : Nat
  egress      : Option Nat
  headStation : Nat
  latch       : Bool
  missing     : Nat
  deriving DecidableEq, Repr

/-! ### Verdicts (chapter 4) -/

/-- Verdicts in the order of their codes (section 11.2). -/
inductive Verdict where
  | conflict | misrouted | pass | degraded | rerouted | incomplete | broken | baselined
  deriving DecidableEq, Repr

/-- The four flags a verdict carries (R84). -/
structure VerdictFlags where
  leak      : Bool
  overlap   : Bool
  poolShort : Bool
  lowGrade  : Bool
  deriving DecidableEq, Repr

/-- Reasons of INCOMPLETE (R80). -/
inductive IncompleteReason where
  | blind | absent | pool | loop
  deriving DecidableEq, Repr

/-- The content of a CIRCUIT VERDICT record (R85), which is also a record's last verdict (R86). -/
structure VerdictRecord where
  circuit     : Nat
  mode        : Mode
  verdict     : Verdict
  flags       : VerdictFlags
  epoch       : Nat
  origin      : Option Origin
  hopCount    : Nat
  mismatches  : Nat
  landing     : Option (Nat × Nat)
  loopStation : Option Nat
  lastGood    : Option (Nat × Nat)
  hopsShort   : Option Nat
  stubPoint   : Option (Nat × Nat)
  reason      : Option IncompleteReason
  blind       : StationSet
  leaks       : List (Nat × Nat)
  deriving DecidableEq, Repr

/-! ### Path Store (section 1.2) -/

/-- State of a path record; the queued mode is present only while QUEUED (R9). -/
inductive RecordState where
  | idle | held | queued (mode : Mode) | probing
  deriving DecidableEq, Repr

/-- A path record (R9). -/
structure PathRecord where
  circuit     : Nat
  line        : Nat
  addPort     : Nat
  state       : RecordState
  origin      : Option Origin
  lastEpoch   : Nat
  baseline    : Option (List Hop)
  lastChain   : Option (List Hop)
  lastVerdict : Option VerdictRecord
  hold        : List Serial
  owed        : List Serial
  deriving DecidableEq, Repr

/-! ### Probe Unit (chapter 3) and sighting items -/

/-- Kinds of a sighting item (R35), in the order of their codes (section 11.2). -/
inductive ItemKind where
  | census | expected | unexpected | untracked
  deriving DecidableEq, Repr

/-- A pool record (R56): one sighting item without its circuit and epoch. -/
structure PoolRecord where
  station : Nat
  port    : Nat
  cls     : PortClass
  kind    : ItemKind
  level   : Nat
  far     : Option (Nat × Nat)
  deriving DecidableEq, Repr

/-- A sighting item (R34). -/
structure Item where
  circuit : Nat
  epoch   : Nat
  record  : PoolRecord
  deriving DecidableEq, Repr

/-- The states of a slot outside IDLE (R47). -/
inductive Phase where
  | claiming | driving | closing
  deriving DecidableEq, Repr

/-- The run a verdict is credited to (R47); a sweep run is named by its identity (log 8). -/
inductive Owner where
  | base | run (id : Nat)
  deriving DecidableEq, Repr

/-- What a slot outside IDLE holds (R47). `deadline` is the time the running timer expires. -/
structure Probe where
  phase      : Phase
  circuit    : Nat
  epoch      : Nat
  mode       : Mode
  owner      : Owner
  blind      : StationSet
  joiners    : StationSet
  absent     : StationSet
  overlap    : Bool
  poolShort  : Bool
  loopLost   : Bool
  absentLost : Bool
  lowGrade   : Bool
  conflict   : Bool
  deadline   : Option Nat
  pool       : List PoolRecord
  deriving DecidableEq, Repr

/-! ### Notices (chapter 7, sections 11.1 and 11.2) -/

/-- The counts of a TALLY (section 11.2). -/
structure Tally where
  held         : Nat
  passed       : Nat
  changed      : Nat
  failed       : Nat
  incomplete   : Nat
  firstFailing : Option Nat
  deriving DecidableEq, Repr

/-- Span alarm kinds (section 11.2). -/
inductive AlarmKind where
  | loss | restore | test
  deriving DecidableEq, Repr

/-- The twelve kinds of notice with their payloads (section 11.2). -/
inductive Payload where
  | join (grade : Nat) (batch : Bool)
  | present (grade : Nat) (batch : Bool)
  | windowOpen (serial : Serial) (scope : PortSet)
  | windowCancel (serial : Serial)
  | windowClose (serial : Serial)
  | tally (serial : Serial) (counts : Tally)
  | probeStart (circuit epoch : Nat) (mode : Mode) (deadlineCode : Nat)
  | sighting (items : List Item)
  | probeEnd (circuit epoch : Nat) (verdict : Verdict) (flags : VerdictFlags)
  | stray (circuit head kind port : Nat)
  | spanAlarm (kind : AlarmKind) (span : Span)
  | loopReset
  deriving DecidableEq, Repr

/-- What a request was made for, beyond its payload (R152): the block's own announcement,
a re-announcement (R112), or a TALLY for a serial that is not listed (R103). -/
inductive Purpose where
  | own | reannounce | unlisted
  deriving DecidableEq, Repr

/-- A request for a place, and the notice that answers it (R147). -/
structure Request where
  payload : Payload
  purpose : Purpose
  deriving DecidableEq, Repr

/-- A copy of a notice on the link (R137). The mark of station n stands in bits 2(n-1)+1..2(n-1)
of `accept`, which lists the six bytes of the accept field with the first one lowest. -/
structure Copy where
  kind       : Byte
  originator : Byte
  number     : Byte
  hops       : Byte
  accept     : BitVec 48
  payload    : List Byte
  deriving DecidableEq, Repr

/-- Best marks (R150): TAKEN over REFUSED over none. -/
structure BestMarks where
  taken   : StationSet
  refused : StationSet
  deriving DecidableEq, Repr

/-- Standing of an outstanding entry (R150). -/
inductive Standing where
  | inFlight | retryWaiting | lingering
  deriving DecidableEq, Repr

/-- An outstanding entry (R150). -/
structure Outstanding where
  request     : Request
  number      : Nat
  attempts    : Nat
  standing    : Standing
  best        : BestMarks
  transmitted : Nat
  returned    : Nat
  lastSent    : Nat
  deriving DecidableEq, Repr

/-- A notice taken and waiting for dispatch (R143), with its time of receipt (R31). -/
structure Received where
  originator : Nat
  number     : Nat
  payload    : Payload
  receivedAt : Nat
  deriving DecidableEq, Repr

/-- The item on the transmitter (R144, R145). -/
inductive OnLink where
  | idleFill
  | copy (c : Copy)
  | passed (bytes : List Byte)
  deriving DecidableEq, Repr

/-- The Loop Port (chapter 7). `retries` lists the numbers of the outstanding notices whose retry
copies wait ahead of the new notices. `silence` is the time the running silence timer expires. -/
structure LoopPort where
  forward     : List Copy
  newNotices  : List Request
  retries     : List Nat
  outstanding : List Outstanding
  receive     : List Received
  number      : Nat
  up          : Bool
  silence     : Option Nat
  fairness    : Nat
  quarantine  : Bool
  sending     : OnLink
  deriving DecidableEq, Repr

/-! ### Roster Unit (chapter 8) -/

/-- An advertisement as recorded (R161). -/
structure Advertisement where
  grade : Nat
  batch : Bool
  deriving DecidableEq, Repr

/-- An acceptance record (R141). Bit d of `taken`, 1..31, says that the number d before `last`
(modulo 256) is in the taken set; bit 0 is clear. -/
structure Acceptance where
  last    : Nat
  wasJoin : Bool
  taken   : BitVec 32
  deriving DecidableEq, Repr

/-- A roster entry (R160). -/
structure RosterEntry where
  present    : Bool
  advert     : Option Advertisement
  acceptance : Option Acceptance
  missRun    : Nat
  deriving DecidableEq, Repr

/-- The Roster Unit; entry n of the roster stands at index n - 1 (R160). -/
structure RosterUnit where
  entries        : List RosterEntry
  joined         : Bool
  grade          : Nat
  batching       : Bool
  joinRequest    : Bool
  presentRequest : Bool
  deriving DecidableEq, Repr

/-! ### Tag Scanner (chapter 2) -/

/-- A dwell in progress (R25, R28). `wanted`: its result becomes the response to READ PORT (R29).
`ends` is the time its dwell time runs out. -/
structure Dwell where
  port      : Nat
  outOfTurn : Bool
  wanted    : Bool
  ends      : Nat
  deriving DecidableEq, Repr

/-- A watch entry (R30). -/
structure WatchEntry where
  circuit  : Nat
  epoch    : Nat
  head     : Nat
  mode     : Mode
  expiry   : Nat
  reported : PortSet
  deriving DecidableEq, Repr

/-- Kinds of stray, in the order of their codes (section 11.2). -/
inductive StrayKind where
  | misplaced | missing
  deriving DecidableEq, Repr

/-- A stray waiting in the pending stray list (R42). -/
structure Stray where
  circuit : Nat
  head    : Nat
  kind    : StrayKind
  port    : Nat
  deriving DecidableEq, Repr

/-- An alarm waiting in the pending alarm list (R45). -/
structure Alarm where
  kind : AlarmKind
  span : Span
  deriving DecidableEq, Repr

/-- A loss monitor (R43); a PENDING state holds the time its hold-off expires. -/
inductive LossMonitor where
  | clear | lossPending (due : Nat) | loss | clearPending (due : Nat)
  deriving DecidableEq, Repr

/-- The Tag Scanner. `walkPort` is the port of the latest dwell of the walk. -/
structure TagScanner where
  walkPort : Option Nat
  dwell    : Option Dwell
  request  : Option Nat
  watch    : List WatchEntry
  backlog  : List Item
  strays   : List Stray
  alarms   : List Alarm
  monitors : List LossMonitor
  deriving DecidableEq, Repr

/-- The Probe Unit: the slots (an IDLE slot is `none`) and its requests, oldest first (R147). -/
structure ProbeUnit where
  slots    : List (Option Probe)
  requests : List Request
  deriving DecidableEq, Repr

/-! ### Window Unit (chapter 5) -/

/-- Window states: OPEN, SETTLING, CLOSING, COLLECTING at the opener; OPEN, CLOSED elsewhere. -/
inductive WindowState where
  | opened | settling | closing | collecting | closed
  deriving DecidableEq, Repr

/-- Tally states at stations other than the opener (R89). -/
inductive TallyState where
  | notDue | pending | sent | unsent
  deriving DecidableEq, Repr

/-- Entries of the tally table (R89). -/
inductive TallyEntry where
  | notExpected | awaited | received (counts : Tally) | missing | unreached
  deriving DecidableEq, Repr

/-- The settle timer (R89, R101): stopped, running until a time, or run out. -/
inductive SettleTimer where
  | stopped | running (due : Nat) | expired
  deriving DecidableEq, Repr

/-- A window list entry (R89). `openReceived`, `announced`, `settle` and `table` are used at the
opener, `tally` elsewhere; `announced`: a WINDOW OPEN of it has been granted (R98, log 8). -/
structure Window where
  serial       : Serial
  scope        : PortSet
  state        : WindowState
  counts       : Tally
  tally        : TallyState
  openReceived : Bool
  announced    : Bool
  settle       : SettleTimer
  table        : List TallyEntry
  deriving DecidableEq, Repr

/-- The Window Unit: window list, own sequence number, pending notice list (R89 to R91). -/
structure WindowUnit where
  list     : List Window
  seq      : Nat
  requests : List Request
  deriving DecidableEq, Repr

/-! ### Audit Scheduler (chapter 6) -/

/-- Cause of a sweep run (R122). -/
inductive Cause where
  | loss | test
  deriving DecidableEq, Repr

/-- Standing of a run's entry (section 6.3). -/
inductive RunStanding where
  | waiting | launched | credited (verdict : Verdict) | handedOn | deferred
  deriving DecidableEq, Repr

structure RunEntry where
  circuit  : Nat
  standing : RunStanding
  deriving DecidableEq, Repr

/-- A sweep run (R122), with the model's identity for it (log 8). -/
structure Run where
  id       : Nat
  span     : Span
  cause    : Cause
  entries  : List RunEntry
  merged   : List Span
  overflow : Nat
  deriving DecidableEq, Repr

/-- An entry of the suspension stack (R124). -/
inductive StackEntry where
  | base | sweep (run : Run)
  deriving DecidableEq, Repr

/-- The Audit Scheduler. `current` is `none` for BASE; the top of the stack is its first entry. -/
structure Scheduler where
  census    : List Nat
  routine   : List Nat
  current   : Option Run
  stack     : List StackEntry
  admission : Bool
  shadow    : Bool
  nextRun   : Nat
  deriving DecidableEq, Repr

/-! ### Control Port (chapter 9) -/

/-- A SWEEP SUMMARY record (R132). -/
structure SweepSummary where
  span            : Span
  cause           : Cause
  merged          : List Span
  overflow        : Nat
  circuits        : Nat
  survived        : Nat
  broken          : Nat
  incomplete      : Nat
  handedOn        : Nat
  deferred        : Nat
  firstBroken     : Option Nat
  firstIncomplete : Option Nat
  deriving DecidableEq, Repr

/-- A WINDOW REPORT SUMMARY (R110). `totals.firstFailing` is not used. -/
structure WindowSummary where
  serial    : Serial
  totals    : Tally
  received  : Nat
  failures  : List (Nat × Nat)
  missing   : StationSet
  unreached : StationSet
  deriving DecidableEq, Repr

/-- Report records (section 9.4). -/
inductive Report where
  | verdict (v : VerdictRecord)
  | sweepSummary (v : SweepSummary)
  | openConfirmed (serial : Serial) (unreached : StationSet)
  | openRefused (serial : Serial) (refusing : StationSet)
  | windowSummary (v : WindowSummary)
  deriving DecidableEq, Repr

/-- Result codes of a response (R173, R198). -/
inductive ResultCode where
  | done | refusedState | refusedFull | refusedUnknown | refusedParam
  deriving DecidableEq, Repr

/-- A slot as STATUS shows it (R71). -/
structure SlotView where
  phase      : Phase
  circuit    : Nat
  epoch      : Nat
  mode       : Mode
  records    : Nat
  overlap    : Bool
  poolShort  : Bool
  loopLost   : Bool
  absentLost : Bool
  lowGrade   : Bool
  deriving DecidableEq, Repr

/-- A sweep run as STATUS shows it (R134). -/
structure RunView where
  span       : Span
  entries    : Nat
  waiting    : Nat
  launched   : Nat
  survived   : Nat
  broken     : Nat
  incomplete : Nat
  handedOn   : Nat
  deferred   : Nat
  deriving DecidableEq, Repr

/-- An outstanding entry as STATUS shows it (R158). -/
structure OutstandingView where
  kind     : Nat
  number   : Nat
  standing : Standing
  attempts : Nat
  deriving DecidableEq, Repr

/-- The STATUS response (R175, R71, R134, R158). -/
structure StatusData where
  station     : Nat
  runState    : RunState
  finding     : LoadFinding
  joined      : Bool
  alerts      : BitVec 7
  masks       : BitVec 7
  faults      : BitVec 6
  reports     : Nat
  nextReport  : Nat
  coalescing  : Bool
  watches     : Nat
  backlog     : Nat
  strays      : Nat
  alarms      : Nat
  slots       : List (Option SlotView)
  freeRecords : Nat
  current     : Option (Span × Cause)
  stackDepth  : Nat
  admission   : Bool
  shadow      : Bool
  censusCount : Nat
  routineCount : Nat
  runs        : List RunView
  loopUp      : Bool
  quarantine  : Bool
  nextNumber  : Nat
  forward     : Nat
  receive     : Nat
  newNotices  : Nat
  retries     : Nat
  outstanding : List OutstandingView
  deriving DecidableEq, Repr

/-- The READ ROSTER response (R170); its entries show state, advertisement, miss run and last number. -/
structure RosterData where
  station  : Nat
  joined   : Bool
  grade    : Nat
  batching : Bool
  entries  : List (Bool × Option Advertisement × Nat × Option Nat)
  deriving DecidableEq, Repr

/-- What a SWEEP command did to the runs (R178). -/
inductive SweepResult where
  | newRun | merged | nothing
  deriving DecidableEq, Repr

/-- States of a loss monitor as READ PORT reports them (R26). -/
inductive LossState where
  | clear | lossPending | loss | clearPending
  deriving DecidableEq, Repr

/-- The data of a response, named field by field as the command's rule names them (R198). -/
inductive ResponseData where
  | empty
  | status (d : StatusData)
  | alerts (flags : BitVec 7)
  | faults (faults : BitVec 6) (fault : Bool)
  | masks (masks : BitVec 7)
  | opened (sequence : Nat)
  | settle (ms : Nat)
  | cancelled (cancelRequested : Bool)
  | request (state : RecordState) (origin : Option Origin)
  | queuedCount (n : Nat)
  | admission (flag shadow base : Bool)
  | swept (selected : Nat) (result : SweepResult) (replaced : Bool)
  | report (number : Nat) (record : Report)
  | noReport (next : Nat)
  | circuit (entry : Option HopEntry) (record : Option PathRecord)
  | windows (list : List (Window × Nat))
  | roster (d : RosterData)
  | dwell (port : Nat) (tags : List Tag) (overflow : Bool) (monitor : Option LossState)
  | restarted (state : RunState)
  deriving DecidableEq, Repr

/-- A response (R173). `code` is the echoed command code. -/
structure Response where
  result : ResultCode
  code   : Byte
  data   : ResponseData
  deriving DecidableEq, Repr

/-- The Control Port. `reportHeld`: the response is a READ REPORT record that still has to leave the
queue (R181). `postedSinceRead`: R183. `portOut`: the bytes of the last read transaction (log 13).
Bits of `alerts`, `masks` and `faults` as section 11.3 gives them. -/
structure ControlPort where
  command         : Option Instr
  response        : Option Response
  reportHeld      : Bool
  queue           : List (Nat × Report)
  reportNumber    : Nat
  alerts          : BitVec 7
  masks           : BitVec 7
  faults          : BitVec 6
  coalescing      : Option Nat
  postedSinceRead : Bool
  portOut         : List Byte
  deriving DecidableEq, Repr

/-! ### The station -/

/-- Everything the manual gives one station, the clock (log 1), the count of free choices (log 2)
and the queue of waiting commands. -/
structure State where
  pending    : List Instr
  now        : Nat
  choices    : Nat
  runState   : RunState
  image      : Image
  finding    : LoadFinding
  lossInputs : PortSet
  hops       : List HopEntry
  paths      : List PathRecord
  lines      : List (Option (Nat × Nat))
  scanner    : TagScanner
  probes     : ProbeUnit
  windows    : WindowUnit
  sched      : Scheduler
  loop       : LoopPort
  roster     : RosterUnit
  ctl        : ControlPort
  deriving DecidableEq, Repr

/-- Reasons the machine stops with a fault. There is none: the manual reports every error in state. -/
inductive Fault where
  deriving DecidableEq, Repr

/-- Reasons a command has no meaning. -/
inductive Refusal where
  /-- Raised by exec alone, for a row that has no meaning yet; safe. No arm raises it. -/
  | notModelled (mnemonic : String)
  deriving DecidableEq, Repr

/-! ### Power-on values -/

/-- An UNUSED port. -/
def unusedPort : PortEntry := ⟨.unused, 0, 0⟩

/-- No image: station number 0, every port UNUSED, no originated circuit (R189). The codes are the
defaults of R191 and of the rules that name one; no rule uses them (log 7). -/
def blankImage : Image :=
  { signature := 0, integrity := 0, station := 0
    ports := List.replicate 16 unusedPort, positions := List.replicate 32 none
    dwellCode := 1, deadlineCode := 2, holdOffCode := 2, settleCode := 30, degradeMargin := 2
    batchLimit := 1, reportThreshold := 4, coalescingCode := 10
    autoCensus := false, startHeld := false, gradeLimit := 1 }

/-- The load finding from the start of a load to its end (R192). -/
def loadingFinding : LoadFinding := ⟨.loading, none, none, [], [], none⟩

/-- R46. -/
def scannerReset : TagScanner :=
  { walkPort := none, dwell := none, request := none, watch := [], backlog := [], strays := []
    alarms := [], monitors := List.replicate 16 .clear }

/-- R69. -/
def probesReset : ProbeUnit := { slots := List.replicate Config.slotCount none, requests := [] }

/-- R114. -/
def windowsReset : WindowUnit := { list := [], seq := 0, requests := [] }

/-- R136; the flag and the shadow take the image's value at entry to RUNNING and are clear until then,
in PASSIVE too (log 7). -/
def schedReset : Scheduler :=
  { census := [], routine := [], current := none, stack := [], admission := false, shadow := false
    nextRun := 0 }

/-- R144, R159. -/
def loopPortReset : LoopPort :=
  { forward := [], newNotices := [], retries := [], outstanding := [], receive := [], number := 0
    up := false, silence := none, fairness := 0, quarantine := false, sending := .passed [] }

/-- An entry never heard of (R160). -/
def blankEntry : RosterEntry := ⟨false, none, none, 0⟩

/-- R171. -/
def rosterReset : RosterUnit :=
  { entries := List.replicate 24 blankEntry, joined := false, grade := 1, batching := false
    joinRequest := false, presentRequest := false }

/-- R186. -/
def ctlReset : ControlPort :=
  { command := none, response := none, reportHeld := false, queue := [], reportNumber := 0
    alerts := 0, masks := 127, faults := 0, coalescing := none, postedSinceRead := false, portOut := [] }

/-- The station at power-on (R195): STARTING, with the power-on values of every block. -/
def State.reset : State :=
  { pending := [], now := 0, choices := 0, runState := .starting, image := blankImage
    finding := loadingFinding, lossInputs := 0, hops := [], paths := []
    lines := List.replicate 32 none, scanner := scannerReset, probes := probesReset
    windows := windowsReset, sched := schedReset, loop := loopPortReset, roster := rosterReset
    ctl := ctlReset }

end Sys2Proof.Machine
end

