-- ==== Sys2Proof/Machine/Ops.lean ====
section
/-! DEFINITION. Named operations over sets, tables and the fields of State. -/

namespace Sys2Proof.Machine

/-! ### Fields of State -/

def State.setPending (s : State) (x : List Instr) : State := { s with pending := x }
def State.setNow (s : State) (x : Nat) : State := { s with now := x }
def State.setChoices (s : State) (x : Nat) : State := { s with choices := x }
def State.setRunState (s : State) (x : RunState) : State := { s with runState := x }
def State.setImage (s : State) (x : Image) : State := { s with image := x }
def State.setFinding (s : State) (x : LoadFinding) : State := { s with finding := x }
def State.setLossInputs (s : State) (x : PortSet) : State := { s with lossInputs := x }
def State.setHops (s : State) (x : List HopEntry) : State := { s with hops := x }
def State.setPaths (s : State) (x : List PathRecord) : State := { s with paths := x }
def State.setLines (s : State) (x : List (Option (Nat × Nat))) : State := { s with lines := x }
def State.setScanner (s : State) (x : TagScanner) : State := { s with scanner := x }
def State.setProbes (s : State) (x : ProbeUnit) : State := { s with probes := x }
def State.setWindows (s : State) (x : WindowUnit) : State := { s with windows := x }
def State.setSched (s : State) (x : Scheduler) : State := { s with sched := x }
def State.setLoop (s : State) (x : LoopPort) : State := { s with loop := x }
def State.setRoster (s : State) (x : RosterUnit) : State := { s with roster := x }
def State.setCtl (s : State) (x : ControlPort) : State := { s with ctl := x }

/-! ### Station sets and port sets -/

/-- The station numbers 1..24. -/
def stationNumbers : List Nat := (List.range 24).map (· + 1)

/-- Station n is in the set (11_formats.md). -/
def stationIn (x : StationSet) (n : Nat) : Bool := 1 ≤ n && x.getLsbD (n - 1)

/-- The set with station n; a number outside 1..24 adds nothing. -/
def addStation (x : StationSet) (n : Nat) : StationSet :=
  if 1 ≤ n then x ||| BitVec.twoPow 24 (n - 1) else x

/-- The station numbers of 1..24 with a property, as a set. -/
def stationsWith (p : Nat → Bool) : StationSet :=
  stationNumbers.foldl (fun x n => if p n then addStation x n else x) 0

/-- Port p is in the set. -/
def portIn (x : PortSet) (p : Nat) : Bool := x.getLsbD p

/-- The set with port p; a number outside 0..15 adds nothing. -/
def addPort (x : PortSet) (p : Nat) : PortSet := x ||| BitVec.twoPow 16 p

/-- The set without port p. -/
def removePort (x : PortSet) (p : Nat) : PortSet := x &&& ~~~(BitVec.twoPow 16 p)

/-- The ports of a set in ascending order. -/
def portsOf (x : PortSet) : List Nat := (List.range 16).filter (portIn x)

/-! ### The image -/

/-- A port's table entry; a number above 15 names no port (log 16). -/
def Image.portAt (im : Image) (p : Nat) : PortEntry := im.ports.getD p unusedPort

/-- A port's class (R187). -/
def Image.classAt (im : Image) (p : Nat) : PortClass := (im.portAt p).cls

/-- The originated list: the non-empty positions in position order (R187). -/
def Image.originated (im : Image) : List Originated := im.positions.filterMap id

/-- The ports that are dwelled on, in ascending order (R25). -/
def Image.dwelled (im : Image) : List Nat := (List.range 16).filter (fun p => im.classAt p != .unused)

/-- LINE-IN and ADD are the in-class ports (00_scope.md section 6). -/
def PortClass.isIn (c : PortClass) : Bool := c == .lineIn || c == .add

/-- LINE-OUT and DROP are the out-class ports (00_scope.md section 6). -/
def PortClass.isOut (c : PortClass) : Bool := c == .lineOut || c == .drop

/-- The station's own number. -/
def State.own (s : State) : Nat := s.image.station

/-! ### Circuit Table: entries in ascending circuit number, one per number (R1) -/

/-- The hop entry of a circuit. -/
def findHop (hops : List HopEntry) (c : Nat) : Option HopEntry := hops.find? (·.circuit == c)

/-- The table without the entry of a circuit. -/
def removeHop (hops : List HopEntry) (c : Nat) : List HopEntry := hops.filter (·.circuit != c)

/-- The table with an entry put at its place, any entry of its circuit replaced. -/
def putHop (hops : List HopEntry) (e : HopEntry) : List HopEntry :=
  match hops with
  | [] => [e]
  | h :: rest =>
    if h.circuit < e.circuit then h :: putHop rest e
    else if h.circuit = e.circuit then e :: rest
    else e :: h :: rest

/-- One entry of the table changed in place. -/
def modifyHop (c : Nat) (f : HopEntry → HopEntry) (s : State) : State :=
  s.setHops (s.hops.map fun e => if e.circuit = c then f e else e)

/-! ### Path Store -/

/-- The path record of a circuit; it exists for the originated circuits (R9). -/
def findPath (s : State) (c : Nat) : Option PathRecord := s.paths.find? (·.circuit == c)

/-- One record changed in place. -/
def modifyPath (c : Nat) (f : PathRecord → PathRecord) (s : State) : State :=
  s.setPaths (s.paths.map fun r => if r.circuit = c then f r else r)

/-- The circuits in path-record order (R9). -/
def pathOrder (s : State) : List Nat := s.paths.map (·.circuit)

/-- The baseline has a hop at station x. -/
def PathRecord.crosses (r : PathRecord) (x : Nat) : Bool :=
  (r.baseline.getD []).any (·.station == x)

/-- The baseline has a hop at station x with ingress port p. -/
def PathRecord.entersAt (r : PathRecord) (x p : Nat) : Bool :=
  (r.baseline.getD []).any fun h => h.station == x && h.ingress == p

/-! ### Probe slots -/

/-- The slot that holds a circuit (R47). -/
def slotOf (s : State) (c : Nat) : Option Nat :=
  s.probes.slots.findIdx? fun o => o.any (·.circuit == c)

/-- The probe in a slot. -/
def probeAt (s : State) (i : Nat) : Option Probe := (s.probes.slots.getD i none)

/-- The probe that holds a circuit. -/
def probeOf (s : State) (c : Nat) : Option Probe := (slotOf s c).bind (probeAt s)

def setSlots (x : List (Option Probe)) (s : State) : State :=
  s.setProbes { s.probes with slots := x }

/-- One slot's probe changed in place. -/
def modifySlot (i : Nat) (f : Probe → Probe) (s : State) : State :=
  setSlots (s.probes.slots.modify i (Option.map f)) s

/-- A slot set to hold a probe or to IDLE. -/
def putSlot (i : Nat) (p : Option Probe) (s : State) : State := setSlots (s.probes.slots.set i p) s

/-- Every probe in DRIVING changed in place. -/
def modifyDriving (f : Probe → Probe) (s : State) : State :=
  setSlots (s.probes.slots.map (Option.map fun p => if p.phase = .driving then f p else p)) s

/-- The lowest-numbered IDLE slot (R48). -/
def idleSlot (s : State) : Option Nat := s.probes.slots.findIdx? (·.isNone)

/-- Pool records held by the slots; the others are free (R56). -/
def recordsHeld (s : State) : Nat :=
  (s.probes.slots.map fun o => match o with | some p => p.pool.length | none => 0).sum

/-- Free records of the sighting pool (R56). -/
def freeRecords (s : State) : Nat := Config.poolSize - recordsHeld s

/-! ### Marker lines (R24) -/

/-- A marker line driven with a tag. -/
def drive (line circuit epoch : Nat) (s : State) : State :=
  s.setLines (s.lines.set line (some (circuit, epoch)))

/-- The marker line of a circuit returns to idle marking. -/
def idleMarking (c : Nat) (s : State) : State :=
  match findPath s c with
  | some r => drive r.line c 0 s
  | none => s

/-! ### Roster -/

/-- The roster entry of station n (R160). -/
def rosterAt (s : State) (n : Nat) : RosterEntry :=
  if 1 ≤ n then s.roster.entries.getD (n - 1) blankEntry else blankEntry

/-- Station n is PRESENT. -/
def isPresent (s : State) (n : Nat) : Bool := (rosterAt s n).present

/-- One roster entry changed in place; a number outside 1..24 changes nothing. -/
def modifyRoster (n : Nat) (f : RosterEntry → RosterEntry) (s : State) : State :=
  if 1 ≤ n then s.setRoster { s.roster with entries := s.roster.entries.modify (n - 1) f } else s

/-! ### The head of the insertion queue (R145, R146, R148) -/

/-- The outstanding list has room for a notice with the next number (R148). -/
def LoopPort.numberFree (l : LoopPort) : Bool :=
  l.outstanding.length < Config.noticeCapacity &&
    match l.outstanding with
    | [] => true
    | o :: _ => (l.number + 256 - o.number) % 256 ≤ 31

/-- A notice that may be sent stands at the head of the insertion queue: a retry copy, or a new notice
when R148 allows; nothing while the loop is DOWN (R145). -/
def LoopPort.headSendable (l : LoopPort) : Bool :=
  l.up && (l.retries != [] || (l.newNotices != [] && l.numberFree))

/-- The fairness count is 0 while no notice that may be sent stands at the head (R146). -/
def LoopPort.fair (l : LoopPort) : LoopPort := if l.headSendable then l else { l with fairness := 0 }

/-- The Loop Port rewritten, its fairness count following R146. -/
def changeLoop (f : LoopPort → LoopPort) (s : State) : State := s.setLoop (f s.loop).fair

/-! ### Windows -/

/-- The window list entry of a serial. -/
def findWindow (s : State) (ser : Serial) : Option Window := s.windows.list.find? (·.serial == ser)

/-- One window changed in place. -/
def modifyWindow (ser : Serial) (f : Window → Window) (s : State) : State :=
  s.setWindows { s.windows with list := s.windows.list.map fun w => if w.serial = ser then f w else w }

/-- A window leaves the list. -/
def dropWindow (ser : Serial) (s : State) : State :=
  s.setWindows { s.windows with list := s.windows.list.filter (·.serial != ser) }

/-- The port is in the scope of a window of this station in OPEN or SETTLING (R39, R41, R44). -/
def inOwnWindow (s : State) (p : Nat) : Bool :=
  s.windows.list.any fun w =>
    w.serial.opener == s.own && (w.state == .opened || w.state == .settling) && portIn w.scope p

/-! ### The clock (log 1, log 4) -/

/-- The clock moved to a time, if it has not passed it. -/
def advanceTo (t : Nat) (s : State) : State := s.setNow (max s.now t)

/-! ### Watch list: entries in ascending circuit number (R30) -/

/-- The watch entry of a circuit. -/
def findWatch (s : State) (c : Nat) : Option WatchEntry := s.scanner.watch.find? (·.circuit == c)

/-- The list with an entry put at its place, any entry of its circuit replaced. -/
def putWatch (l : List WatchEntry) (e : WatchEntry) : List WatchEntry :=
  match l with
  | [] => [e]
  | w :: rest =>
    if w.circuit < e.circuit then w :: putWatch rest e
    else if w.circuit = e.circuit then e :: rest
    else e :: w :: rest

/-- The watch entry of a circuit removed. -/
def dropWatch (c : Nat) (s : State) : State :=
  s.setScanner { s.scanner with watch := s.scanner.watch.filter (·.circuit != c) }

end Sys2Proof.Machine
end

