-- ==== Sys2Proof/Machine/Operands.lean ====
section
/-! DEFINITION. Byte layouts of notices and of the configuration image (11_formats.md). -/

namespace Sys2Proof.Machine

/-- A byte from a number. -/
def byte (n : Nat) : Byte := BitVec.ofNat 8 n

/-- A two-byte field, most significant byte first. -/
def bytes2 (n : Nat) : List Byte := [byte (n / 256), byte (n % 256)]

/-- The number in a two-byte field. -/
def field2 (hi lo : Byte) : Nat := hi.toNat * 256 + lo.toNat

/-- A circuit field: circuit in bits 9..0, epoch in bits 15..12 (11_formats.md). -/
def circuitField (circuit epoch : Nat) : List Byte := bytes2 (epoch * 4096 + circuit)

/-- The circuit number of a circuit field; the bits above it are not part of it (log 11). -/
def circuitOf (f : Nat) : Nat := f % 1024

/-- The epoch of a circuit field. -/
def epochOf (f : Nat) : Nat := f / 4096

/-! ### The check (R196) -/

/-- One bit of the CRC-16 register with generator x^16 + x^12 + x^5 + 1. -/
def crcBit (c : BitVec 16) : BitVec 16 :=
  if c.msb then (c <<< 1) ^^^ 0x1021#16 else c <<< 1

/-- One byte entering the register, most significant bit first. -/
def crcByte (c : BitVec 16) (b : Byte) : BitVec 16 :=
  let x := c ^^^ (b.setWidth 16 <<< 8)
  crcBit (crcBit (crcBit (crcBit (crcBit (crcBit (crcBit (crcBit x)))))))

/-- The check of a notice: initial value FFFFh, no reflection, no final XOR. -/
def crc16 (bs : List Byte) : BitVec 16 := bs.foldl crcByte 0xFFFF#16

/-! ### Codes (section 11.2) -/

def Mode.code : Mode → Nat
  | .census => 0 | .routine => 1 | .sweep => 2

def decodeMode : Nat → Option Mode
  | 0 => some .census | 1 => some .routine | 2 => some .sweep | _ => none

def Verdict.code : Verdict → Nat
  | .conflict => 0 | .misrouted => 1 | .pass => 2 | .degraded => 3 | .rerouted => 4
  | .incomplete => 5 | .broken => 6 | .baselined => 7

def decodeVerdict : Nat → Option Verdict
  | 0 => some .conflict | 1 => some .misrouted | 2 => some .pass | 3 => some .degraded
  | 4 => some .rerouted | 5 => some .incomplete | 6 => some .broken | 7 => some .baselined
  | _ => none

def ItemKind.code : ItemKind → Nat
  | .census => 0 | .expected => 1 | .unexpected => 2 | .untracked => 3

def decodeItemKind : Nat → ItemKind
  | 0 => .census | 1 => .expected | 2 => .unexpected | _ => .untracked

def AlarmKind.code : AlarmKind → Nat
  | .loss => 0 | .restore => 1 | .test => 2

def decodeAlarmKind : Nat → Option AlarmKind
  | 0 => some .loss | 1 => some .restore | 2 => some .test | _ => none

def StrayKind.code : StrayKind → Nat
  | .misplaced => 0 | .missing => 1

/-- Class codes of items and of the port table: 0 UNUSED, 1 LINE-IN, 2 LINE-OUT, 3 ADD, 4 DROP. -/
def PortClass.code : PortClass → Nat
  | .unused => 0 | .lineIn => 1 | .lineOut => 2 | .add => 3 | .drop => 4

/-- The class of a code; 5..7 are unassigned (section 11.5). -/
def decodeClass : Nat → Option PortClass
  | 0 => some .unused | 1 => some .lineIn | 2 => some .lineOut | 3 => some .add | 4 => some .drop
  | _ => none

def boolNat (b : Bool) : Nat := if b then 1 else 0

/-- The flags byte: LEAK 0, OVERLAP 1, POOL-SHORT 2, LOW-GRADE 3. -/
def VerdictFlags.code (f : VerdictFlags) : Nat :=
  boolNat f.leak + 2 * boolNat f.overlap + 4 * boolNat f.poolShort + 8 * boolNat f.lowGrade

def decodeFlags (b : Nat) : VerdictFlags :=
  ⟨b % 2 == 1, b / 2 % 2 == 1, b / 4 % 2 == 1, b / 8 % 2 == 1⟩

/-- The advertisement byte: grade in bits 1..0, BATCH in bit 7. -/
def advertByte (grade : Nat) (batch : Bool) : Byte := byte (grade + 128 * boolNat batch)

/-- A station field in range. -/
def stationOk (n : Nat) : Bool := 1 ≤ n && n ≤ 24

/-- Two bytes, most significant first, as a port set. -/
def portSetOf (hi lo : Byte) : PortSet := BitVec.ofNat 16 (field2 hi lo)

/-! ### Payloads (section 11.2) -/

/-- The kind byte (section 11.1). -/
def Payload.kind : Payload → Nat
  | .join _ _ => 1 | .present _ _ => 2 | .windowOpen _ _ => 3 | .windowCancel _ => 4
  | .windowClose _ => 5 | .tally _ _ => 6 | .probeStart _ _ _ _ => 7 | .sighting _ => 8
  | .probeEnd _ _ _ _ => 9 | .stray _ _ _ _ => 10 | .spanAlarm _ _ => 11 | .loopReset => 12

/-- The seven bytes of a sighting item. -/
def Item.bytes (i : Item) : List Byte :=
  circuitField i.circuit i.epoch ++
    [byte i.record.station, byte (i.record.port + 16 * i.record.cls.code),
     byte (i.record.kind.code + 16 * i.record.level)] ++
    (match i.record.far with
     | some (st, p) => [byte st, byte p]
     | none => [0, 0])

def Serial.bytes (s : Serial) : List Byte := [byte s.opener, byte s.seq]

/-- The payload bytes of a notice. -/
def Payload.bytes : Payload → List Byte
  | .join g b => [advertByte g b]
  | .present g b => [advertByte g b]
  | .windowOpen ser scope => ser.bytes ++ bytes2 scope.toNat
  | .windowCancel ser => ser.bytes
  | .windowClose ser => ser.bytes
  | .tally ser t =>
    ser.bytes ++ [byte t.held, byte t.passed, byte t.changed, byte t.failed, byte t.incomplete] ++
      circuitField (t.firstFailing.getD 0) 0
  | .probeStart c e m d => circuitField c e ++ [byte (m.code + 16 * d)]
  | .sighting items => byte items.length :: (items.map Item.bytes).flatten
  | .probeEnd c e v f => circuitField c e ++ [byte v.code, byte f.code]
  | .stray c h k p => circuitField c 0 ++ [byte h, byte k, byte p]
  | .spanAlarm k sp => [byte k.code, byte sp.station, byte sp.port]
  | .loopReset => []

/-- The far end of an item; a LINE-OUT item has one, any other item has none (R197). -/
def decodeFar (cls : PortClass) (st p : Nat) : Option (Option (Nat × Nat)) :=
  if cls = .lineOut then (if stationOk st then some (some (st, p)) else none)
  else if st = 0 ∧ p = 0 then some none else none

/-- One sighting item, with the range checks of R197. -/
def decodeItem (a b c d e f g : Byte) : Option Item :=
  let w := field2 a b
  match decodeClass (d.toNat / 16 % 8) with
  | none => none
  | some cls =>
    if cls = .unused ∨ circuitOf w = 0 ∨ epochOf w = 0 ∨ !stationOk c.toNat then none
    else match decodeFar cls f.toNat g.toNat with
      | none => none
      | some far =>
        some ⟨circuitOf w, epochOf w,
          ⟨c.toNat, d.toNat % 16, cls, decodeItemKind (e.toNat % 4), e.toNat / 16 % 8, far⟩⟩

/-- The items of a SIGHTING payload after its count. -/
def decodeItems : List Byte → Option (List Item)
  | [] => some []
  | a :: b :: c :: d :: e :: f :: g :: rest =>
    match decodeItem a b c d e f g, decodeItems rest with
    | some i, some is => some (i :: is)
    | _, _ => none
  | _ => none

/-- A TALLY count is at most 32 (R197). -/
def countOk (b : Byte) : Bool := b.toNat ≤ 32

/-- The payload of a well-formed notice (R197); `none` for a kind outside the twelve, a length the
kind does not require, or a field outside the ranges R197 lists (log 11). -/
def decodePayload (kind : Nat) (bs : List Byte) : Option Payload :=
  match kind, bs with
  | 1, [a] => some (.join (a.toNat % 4) (128 ≤ a.toNat))
  | 2, [a] => some (.present (a.toNat % 4) (128 ≤ a.toNat))
  | 3, [o, q, hi, lo] =>
    if stationOk o.toNat then some (.windowOpen ⟨o.toNat, q.toNat⟩ (portSetOf hi lo)) else none
  | 4, [o, q] => if stationOk o.toNat then some (.windowCancel ⟨o.toNat, q.toNat⟩) else none
  | 5, [o, q] => if stationOk o.toNat then some (.windowClose ⟨o.toNat, q.toNat⟩) else none
  | 6, [o, q, h, p, c, f, i, hi, lo] =>
    if stationOk o.toNat && countOk h && countOk p && countOk c && countOk f && countOk i then
      let ff := circuitOf (field2 hi lo)
      some (.tally ⟨o.toNat, q.toNat⟩
        ⟨h.toNat, p.toNat, c.toNat, f.toNat, i.toNat, if ff = 0 then none else some ff⟩)
    else none
  | 7, [hi, lo, m] =>
    let w := field2 hi lo
    match decodeMode (m.toNat % 4) with
    | none => none
    | some mode =>
      if circuitOf w = 0 ∨ epochOf w = 0 then none
      else some (.probeStart (circuitOf w) (epochOf w) mode (m.toNat / 16 % 8))
  | 8, n :: rest =>
    if 1 ≤ n.toNat ∧ n.toNat ≤ 8 ∧ rest.length = 7 * n.toNat then
      (decodeItems rest).map .sighting
    else none
  | 9, [hi, lo, v, f] =>
    let w := field2 hi lo
    match decodeVerdict v.toNat with
    | none => none
    | some verdict =>
      if circuitOf w = 0 ∨ epochOf w = 0 then none
      else some (.probeEnd (circuitOf w) (epochOf w) verdict (decodeFlags f.toNat))
  | 10, [hi, lo, h, k, p] =>
    if circuitOf (field2 hi lo) ≠ 0 ∧ stationOk h.toNat ∧ k.toNat < 3 then
      some (.stray (circuitOf (field2 hi lo)) h.toNat k.toNat p.toNat)
    else none
  | 11, [k, st, p] =>
    match decodeAlarmKind k.toNat with
    | none => none
    | some kind => if stationOk st.toNat then some (.spanAlarm kind ⟨st.toNat, p.toNat⟩) else none
  | 12, [] => some .loopReset
  | _, _ => none

/-! ### Copies on the link (section 11.1) -/

/-- The mark field of station n: 0 none, 1 TAKEN, 2 REFUSED, 3 none. -/
def markOf (accept : BitVec 48) (n : Nat) : Nat := accept.toNat / 4 ^ (n - 1) % 4

/-- A mark written at the position of station n, 1..24; no other position changes (R137). -/
def writeMark (accept : BitVec 48) (n m : Nat) : BitVec 48 :=
  (accept &&& ~~~(BitVec.ofNat 48 3 <<< (2 * (n - 1)))) ||| (BitVec.ofNat 48 m <<< (2 * (n - 1)))

/-- Byte j of the accept field. -/
def acceptByte (accept : BitVec 48) (j : Nat) : Byte := BitVec.ofNat 8 (accept.toNat / 256 ^ j)

/-- The accept field from its six bytes, the first one lowest. -/
def acceptOf (bs : List Byte) : BitVec 48 :=
  BitVec.ofNat 48 (bs.foldr (fun b n => b.toNat + 256 * n) 0)

/-- The bytes of a copy that its check covers. -/
def Copy.body (c : Copy) : List Byte :=
  [c.kind, c.originator, c.number, c.hops, byte c.payload.length] ++
    (List.range 6).map (acceptByte c.accept) ++ c.payload

/-- The bytes of a copy on the link, its check computed anew (R196). -/
def Copy.bytes (c : Copy) : List Byte := c.body ++ bytes2 (crc16 c.body).toNat

/-- A received copy that passes the check (R138, R196): 13 + L bytes and a matching CRC. -/
def parseCopy (bs : List Byte) : Option Copy :=
  let len := (bs.getD 4 0).toNat
  if bs.length = 13 + len ∧
      crc16 (bs.take (11 + len)) =
        BitVec.ofNat 16 (field2 (bs.getD (11 + len) 0) (bs.getD (12 + len) 0)) then
    some ⟨bs.getD 0 0, bs.getD 1 0, bs.getD 2 0, bs.getD 3 0, acceptOf ((bs.drop 5).take 6),
      (bs.drop 11).take len⟩
  else none

/-- The copy an originator sends: hop count 0, every mark none (R137). -/
def originalCopy (own number : Nat) (p : Payload) : Copy :=
  ⟨byte p.kind, byte own, byte number, 0, 0, p.bytes⟩

/-- The bytes of the item on the transmitter. -/
def OnLink.bytes : OnLink → List Byte
  | .idleFill => [0]
  | .copy c => c.bytes
  | .passed bs => bs

/-! ### The configuration image (section 11.5) -/

/-- The 140 bytes as read: a byte the memory fails to supply reads as FFh (R188). -/
def readImage (bs : List Byte) : List Byte :=
  (List.range Config.imageBytes).map fun i => bs.getD i 0xFF

/-- The sum of the image's bytes modulo 256 (R189). -/
def imageSum (bs : List Byte) : Nat := (bs.map BitVec.toNat).sum % 256

/-- Byte i of the image as a number. -/
def imageByte (bs : List Byte) (i : Nat) : Nat := (bs.getD i 0).toNat

/-- The class field of a port as encoded. -/
def classBits (bs : List Byte) (p : Nat) : Nat := imageByte bs (2 + 2 * p) % 8

/-- The class of a port as encoded; `none` for an unassigned encoding. -/
def rawClass (bs : List Byte) (p : Nat) : Option PortClass := decodeClass (classBits bs p)

/-- A port table entry, an unassigned class read as UNUSED (R187). -/
def imagePort (bs : List Byte) (p : Nat) : PortEntry :=
  ⟨(rawClass bs p).getD .unused, imageByte bs (2 + 2 * p) / 8, imageByte bs (3 + 2 * p) % 16⟩

/-- A position of the originated list; circuit bits of 0 mark it empty. -/
def imagePosition (bs : List Byte) (i : Nat) : Option Originated :=
  let f := imageByte bs (34 + 3 * i) * 256 + imageByte bs (35 + 3 * i)
  if circuitOf f = 0 then none
  else some ⟨circuitOf f, imageByte bs (36 + 3 * i) % 32, f / 4096⟩

/-- The image field by field, before the checks of R191. -/
def rawImage (bs : List Byte) : Image :=
  { signature := bs.getD 0 0, integrity := bs.getD 139 0
    station := imageByte bs 1 % 32
    ports := (List.range 16).map (imagePort bs)
    positions := (List.range 32).map (imagePosition bs)
    dwellCode := imageByte bs 130
    deadlineCode := imageByte bs 131 % 8
    holdOffCode := imageByte bs 132 % 8
    settleCode := imageByte bs 133
    degradeMargin := imageByte bs 134
    batchLimit := imageByte bs 135
    reportThreshold := imageByte bs 136
    coalescingCode := imageByte bs 137
    autoCensus := imageByte bs 138 % 2 == 1
    startHeld := imageByte bs 138 / 2 % 2 == 1
    gradeLimit := if imageByte bs 138 / 4 % 2 = 1 then 2 else 1 }

/-! ### Times of the image's codes -/

/-- Dwell time in ms (section 2.2). -/
def dwellMs (code : Nat) : Nat :=
  match code with
  | 0 => 10 | 1 => 20 | 2 => 50 | _ => 100

/-- Probe deadline in ms (section 3.1). -/
def deadlineMs (code : Nat) : Nat :=
  match code with
  | 0 => 500 | 1 => 1000 | 2 => 2000 | 3 => 3000 | 4 => 5000 | 5 => 8000 | 6 => 12000 | _ => 20000

/-- Settle time in ms of a code 0..254 (R100). -/
def settleCodeMs (code : Nat) : Nat :=
  if code ≤ 120 then code * 1000
  else if code ≤ 180 then 120000 + (code - 120) * 10000
  else 720000 + (code - 180) * 60000

/-- Settle time in ms, code 255 resolved to the configured default (R100). -/
def settleMs (im : Image) (code : Nat) : Nat :=
  if code = 255 then settleCodeMs im.settleCode else settleCodeMs code

end Sys2Proof.Machine
end

