-- ==== Sys2Proof/Machine/Flags.lean ====
section
/-! DEFINITION. Alert flags, fault flags, the alert line and the report queue (sections 9.4, 9.5). -/

namespace Sys2Proof.Machine

/-- The seven alert flags (R182). -/
inductive Alert where
  | report | fault | loop | roster | grade | reset | configWarn
  deriving DecidableEq, Repr

/-- The six fault flags (R184). -/
inductive FaultFlag where
  | config | dupHead | idClash | ctFull | pool | reportOverrun
  deriving DecidableEq, Repr

/-- Bit positions of the alert flags (section 11.3). -/
def Alert.bit : Alert → Nat
  | .report => 0 | .fault => 1 | .loop => 2 | .roster => 3 | .grade => 4 | .reset => 5 | .configWarn => 6

/-- Bit positions of the fault flags (section 11.3). -/
def FaultFlag.bit : FaultFlag → Nat
  | .config => 0 | .dupHead => 1 | .idClash => 2 | .ctFull => 3 | .pool => 4 | .reportOverrun => 5

/-- An alert flag is set. -/
def ControlPort.alertSet (c : ControlPort) (a : Alert) : Bool := c.alerts.getLsbD a.bit

/-- A fault flag is set. -/
def ControlPort.faultSet (c : ControlPort) (f : FaultFlag) : Bool := c.faults.getLsbD f.bit

/-- Setting an alert flag (R182). -/
def raiseAlert (a : Alert) (s : State) : State :=
  s.setCtl { s.ctl with alerts := s.ctl.alerts ||| BitVec.twoPow 7 a.bit }

/-- Setting a fault flag, which sets FAULT each time (R184). -/
def setFault (f : FaultFlag) (s : State) : State :=
  raiseAlert .fault (s.setCtl { s.ctl with faults := s.ctl.faults ||| BitVec.twoPow 6 f.bit })

/-- The alert line: some set flag has its mask enabled (R185). -/
def ControlPort.alertLine (c : ControlPort) : Bool := (c.alerts &&& c.masks) != 0

/-- The queue holds at least the report threshold (R182, R183). -/
def atThreshold (s : State) : Bool := s.image.reportThreshold ≤ s.ctl.queue.length

/-- The coalescing timer after a record joined the queue (R183). -/
def coalesceAfterPost (s : State) : Option Nat :=
  if s.ctl.coalescing = none ∧ s.ctl.postedSinceRead = false ∧ 0 < s.image.coalescingCode
  then some (s.now + s.image.coalescingCode * 10) else s.ctl.coalescing

/-- A post that finds room: the record joins the tail with its number, and the timer and REPORT act
(R180, R183). -/
def keepReport (r : Report) (s : State) : State :=
  let s1 := s.setCtl { s.ctl with
    queue := s.ctl.queue ++ [(s.ctl.reportNumber, r)]
    reportNumber := (s.ctl.reportNumber + 1) % 256
    coalescing := coalesceAfterPost s
    postedSinceRead := true }
  if atThreshold s1 then raiseAlert .report s1 else s1

/-- A post that finds 32 records: the number advances, the record is lost (R180). It counts as a
post for the coalescing timer (log 12). -/
def discardReport (s : State) : State :=
  setFault .reportOverrun (s.setCtl { s.ctl with
    reportNumber := (s.ctl.reportNumber + 1) % 256
    postedSinceRead := true })

/-- A post to the report queue (R180). -/
def postReport (r : Report) (s : State) : State :=
  if s.ctl.queue.length < Config.reportCapacity then keepReport r s else discardReport s

end Sys2Proof.Machine
end

