-- ==== Sys2Proof/Machine/Paths.lean ====
section
/-! DEFINITION. The Path Store's state changes and the Audit Scheduler's two base lists
(section 1.3, section 6.1), and the completion of sweep runs, which a hold can cause (R128, R131). -/

namespace Sys2Proof.Machine

/-! ### Base lists (R115) -/

/-- A circuit joins the tail of the list of its queued mode; a SWEEP circuit stands in a run. -/
def joinList (m : Mode) (c : Nat) (s : State) : State :=
  match m with
  | .census => s.setSched { s.sched with census := s.sched.census ++ [c] }
  | .routine => s.setSched { s.sched with routine := s.sched.routine ++ [c] }
  | .sweep => s

/-- A circuit leaves the list of its queued mode; the others keep their order. -/
def leaveList (m : Mode) (c : Nat) (s : State) : State :=
  match m with
  | .census => s.setSched { s.sched with census := s.sched.census.erase c }
  | .routine => s.setSched { s.sched with routine := s.sched.routine.erase c }
  | .sweep => s

/-- The state of a record set. -/
def setRecordState (c : Nat) (x : RecordState) (s : State) : State :=
  modifyPath c (fun r => { r with state := x }) s

/-- A record enters QUEUED with a mode and the origin of its request (R13), and joins its list. -/
def enqueue (c : Nat) (m : Mode) (o : Origin) (s : State) : State :=
  joinList m c (modifyPath c (fun r => { r with state := .queued m, origin := some o }) s)

/-- The mode a request queues with: a ROUTINE request for an UNBASED record is taken as CENSUS (R17). -/
def requestMode (r : PathRecord) (m : Mode) : Mode :=
  if m = .routine ∧ r.baseline = none then .census else m

/-- An audit request (R17, R116): an IDLE record is queued, any other is left as it stands. -/
def requestAudit (c : Nat) (m : Mode) (o : Origin) (s : State) : State :=
  match findPath s c with
  | none => s
  | some r => if r.state = .idle then enqueue c (requestMode r m) o s else s

/-- Audit requests for a list of circuits, in its order (R116). -/
def requestAudits (cs : List Nat) (m : Mode) (o : Origin) (s : State) : State :=
  cs.foldl (fun t c => requestAudit c m o t) s

/-! ### Sweep runs (R122) -/

/-- A standing is closed (section 6.3). -/
def RunStanding.closed : RunStanding → Bool
  | .credited _ | .handedOn | .deferred => true
  | .waiting | .launched => false

/-- Every entry of the run is closed (R131). -/
def Run.complete (r : Run) : Bool := r.entries.all (·.standing.closed)

/-- The standing of a circuit's entry. -/
def Run.standingOf (r : Run) (c : Nat) : Option RunStanding :=
  (r.entries.find? (·.circuit == c)).map (·.standing)

/-- A circuit's entry takes a standing and keeps its place. -/
def Run.setStanding (r : Run) (c : Nat) (x : RunStanding) : Run :=
  { r with entries := r.entries.map fun e => if e.circuit = c then { e with standing := x } else e }

/-- A verdict counts as survived, broken or incomplete (R122). -/
def Verdict.survived : Verdict → Bool
  | .pass | .degraded | .rerouted => true
  | .conflict | .misrouted | .incomplete | .broken | .baselined => false

def Verdict.countsBroken : Verdict → Bool
  | .broken | .misrouted | .conflict => true
  | .pass | .degraded | .rerouted | .incomplete | .baselined => false

def RunStanding.verdict : RunStanding → Option Verdict
  | .credited v => some v
  | .waiting | .launched | .handedOn | .deferred => none

def Run.countVerdicts (r : Run) (p : Verdict → Bool) : Nat :=
  r.entries.countP fun e => e.standing.verdict.any p

def Run.countStanding (r : Run) (x : RunStanding) : Nat := r.entries.countP (·.standing == x)

def Run.firstWith (r : Run) (p : Verdict → Bool) : Option Nat :=
  (r.entries.find? fun e => e.standing.verdict.any p).map (·.circuit)

/-- The SWEEP SUMMARY of a run (R132). -/
def Run.summary (r : Run) : SweepSummary :=
  { span := r.span, cause := r.cause, merged := r.merged, overflow := r.overflow
    circuits := r.entries.length
    survived := r.countVerdicts Verdict.survived
    broken := r.countVerdicts Verdict.countsBroken
    incomplete := r.countVerdicts (· == .incomplete)
    handedOn := r.countStanding .handedOn
    deferred := r.countStanding .deferred
    firstBroken := r.firstWith Verdict.countsBroken
    firstIncomplete := r.firstWith (· == .incomplete) }

/-- The run of a SWEEP entry of the stack. -/
def StackEntry.run : StackEntry → Option Run
  | .base => none
  | .sweep r => some r

/-- The suspended runs, from the top of the stack down. -/
def suspended (s : State) : List Run := s.sched.stack.filterMap StackEntry.run

/-- The current run, if it is a sweep run, and the suspended ones. -/
def allRuns (s : State) : List Run := s.sched.current.toList ++ suspended s

def StackEntry.modify (id : Nat) (f : Run → Run) : StackEntry → StackEntry
  | .base => .base
  | .sweep r => .sweep (if r.id = id then f r else r)

/-- A run changed in place, current or suspended. -/
def modifyRun (id : Nat) (f : Run → Run) (s : State) : State :=
  s.setSched { s.sched with
    current := s.sched.current.map fun r => if r.id = id then f r else r
    stack := s.sched.stack.map (StackEntry.modify id f) }

/-- Steps 2 and 3 of R131: the current run is discarded and the stack is popped. -/
def popRun (s : State) : State :=
  match s.sched.stack with
  | .sweep r :: rest => s.setSched { s.sched with current := some r, stack := rest }
  | .base :: rest =>
    s.setSched { s.sched with current := none, stack := rest, admission := s.sched.shadow }
  | [] => s.setSched { s.sched with current := none }

/-- A stack entry that holds the run of this identity. -/
def StackEntry.isRun (id : Nat) (e : StackEntry) : Bool := e.run.any (·.id == id)

/-- A suspended run leaves the stack. -/
def dropSuspended (id : Nat) (s : State) : State :=
  s.setSched { s.sched with stack := s.sched.stack.filter fun e => !e.isRun id }

/-- The completion test of R131 for one run, made after each change that touches it. -/
def completeRun (id : Nat) (s : State) : State :=
  match (allRuns s).find? (·.id == id) with
  | none => s
  | some r =>
    if !r.complete then s
    else
      let s1 := postReport (.sweepSummary r.summary) s
      if s.sched.current.any (·.id == id) then popRun s1 else dropSuspended id s1

/-- A run's entry for a circuit takes a standing, and the run is tested for completion. -/
def touchRun (id c : Nat) (x : RunStanding) (s : State) : State :=
  completeRun id (modifyRun id (·.setStanding c x) s)

/-- The run in which a circuit is WAITING. -/
def waitingRun (s : State) (c : Nat) : Option Run :=
  (allRuns s).find? fun r => r.standingOf c == some .waiting

/-- A hold takes a circuit out of a launch list: its entry becomes DEFERRED (R128). -/
def deferEntry (c : Nat) (s : State) : State :=
  match waitingRun s c with
  | some r => touchRun r.id c .deferred s
  | none => s

/-! ### Holds (R14 to R16) -/

/-- A serial added at the end of a list that does not hold it yet. -/
def addSerial (ser : Serial) (l : List Serial) : List Serial := if ser ∈ l then l else l ++ [ser]

/-- OVERLAP set on the slot whose record is PROBING (R60). -/
def setOverlap (c : Nat) (s : State) : State :=
  setSlots (s.probes.slots.map (Option.map fun p =>
    if p.circuit = c ∧ p.phase ≠ .closing then { p with overlap := true } else p)) s

/-- The record's move when a hold is added (R15). -/
def moveForHold (c : Nat) (st : RecordState) (s : State) : State :=
  match st with
  | .idle => setRecordState c .held s
  | .queued .sweep => deferEntry c (setRecordState c .held s)
  | .queued m => leaveList m c (setRecordState c .held s)
  | .held => s
  | .probing => setOverlap c s

/-- A hold for a serial added to a record (R14, R15). A serial already held changes nothing. -/
def addHold (ser : Serial) (c : Nat) (s : State) : State :=
  match findPath s c with
  | none => s
  | some r =>
    if ser ∈ r.hold then s
    else moveForHold c r.state
      (modifyPath c (fun r => { r with hold := r.hold ++ [ser], owed := addSerial ser r.owed }) s)

/-- A serial removed from a record's hold list (R16). -/
def removeHold (ser : Serial) (c : Nat) (s : State) : State :=
  match findPath s c with
  | none => s
  | some r =>
    if ser ∉ r.hold then s
    else
      let s1 := modifyPath c (fun r => { r with hold := r.hold.erase ser }) s
      if r.state = .held ∧ r.hold.erase ser = [] then enqueue c .routine (.window ser) s1 else s1

/-- A serial removed from the hold list of every record, in path-record order (R16). -/
def releaseHolds (ser : Serial) (s : State) : State :=
  (pathOrder s).foldl (fun t c => removeHold ser c t) s

/-- A serial removed from every owed list (R14). -/
def dropOwed (ser : Serial) (s : State) : State :=
  s.setPaths (s.paths.map fun r => { r with owed := r.owed.erase ser })

/-- Some record still owes the serial a verdict (R106). -/
def owesSerial (s : State) (ser : Serial) : Bool := s.paths.any fun r => r.owed.contains ser

end Sys2Proof.Machine
end

