-- ==== Sys2Proof/Machine/Scheduling.lean ====
section
/-! DEFINITION. The Audit Scheduler: sweep selection, new runs, merges, launches, admission (chapter 6). -/

namespace Sys2Proof.Machine

/-! ### Selection (R123) -/

/-- A record that crosses the span and is not dropped from the selection. -/
def selectable (s : State) (sp : Span) (r : PathRecord) : Bool :=
  r.entersAt sp.station sp.port &&
    match r.state with
    | .held => false
    | .queued .census => false
    | .probing => (probeOf s r.circuit).all (·.mode != .census)
    | .idle | .queued .routine | .queued .sweep => true

/-- The circuits an alarm selects, in path-record order. -/
def selection (s : State) (sp : Span) : List Nat :=
  (s.paths.filter (selectable s sp)).map (·.circuit)

/-! ### Entries of a run (R18, R61, R124, R125, R130) -/

/-- The record's origin names the newest alarm that claimed it (R18). -/
def setOrigin (c : Nat) (o : Origin) (s : State) : State :=
  modifyPath c (fun r => { r with origin := some o }) s

/-- An older run's entry for a circuit becomes HANDED-ON (R130); completion is tested later. -/
def handOn (id c : Nat) (s : State) : State := modifyRun id (·.setStanding c .handedOn) s

/-- The slot of a PROBING record is adopted by a run (R61). -/
def adoptSlot (id c : Nat) (s : State) : State :=
  setSlots (s.probes.slots.map (Option.map fun p =>
    if p.circuit = c ∧ p.phase ≠ .closing then { p with mode := .sweep, owner := .run id } else p)) s

/-- The older run of an adopted slot hands its circuit on. -/
def handOnOwner (c : Nat) (s : State) : State :=
  match probeOf s c with
  | some p =>
    match p.owner with
    | .run old => handOn old c s
    | .base => s
  | none => s

/-- A selected record is moved into a run (R18, step 3 of R124); a HELD one is never selected. -/
def moveIntoRun (id c : Nat) (st : RecordState) (s : State) : State :=
  match st with
  | .queued .sweep =>
    match waitingRun s c with
    | some r => handOn r.id c s
    | none => s
  | .probing => adoptSlot id c (handOnOwner c s)
  | .queued m => setRecordState c (.queued .sweep) (leaveList m c s)
  | .idle => setRecordState c (.queued .sweep) s
  | .held => s

/-- The standing a selected record's entry takes: LAUNCHED where a slot is probing, else WAITING. -/
def standingFor (st : RecordState) : RunStanding := if st = .probing then .launched else .waiting

/-- A run's entry for a circuit is appended, or reopened in its place (R125). -/
def Run.openEntry (r : Run) (c : Nat) (x : RunStanding) : Run :=
  match r.standingOf c with
  | none => { r with entries := r.entries ++ [⟨c, x⟩] }
  | some _ => r.setStanding c x

/-- One selected record taken into the current run (step 3 of R124; R125). A WAITING or LAUNCHED entry
stays as it is; in every case the record's origin becomes SWEEP with the span. -/
def takeSelected (id : Nat) (sp : Span) (s : State) (c : Nat) : State :=
  match findPath s c, s.sched.current with
  | some r, some run =>
    let s1 := setOrigin c (.sweep sp) s
    if (run.standingOf c).any (!·.closed) then s1
    else modifyRun id (·.openEntry c (standingFor r.state)) (moveIntoRun id c r.state s1)
  | _, _ => s

/-- Step 4 of R124: suspended runs whose entries are all closed complete, from the top downward. -/
def completeSuspended (s : State) : State :=
  (suspended s).foldl (fun t r => completeRun r.id t) s

/-- Step 1 of R124: the current run is suspended. -/
def suspendCurrent (s : State) : State :=
  match s.sched.current with
  | none =>
    s.setSched { s.sched with
      stack := .base :: s.sched.stack, shadow := s.sched.admission, admission := false }
  | some r => s.setSched { s.sched with stack := .sweep r :: s.sched.stack }

/-- Step 2 of R124: a run without entries becomes current. -/
def startRun (sp : Span) (cause : Cause) (s : State) : State :=
  s.setSched { s.sched with
    current := some { id := s.sched.nextRun, span := sp, cause := cause, entries := [], merged := []
                      overflow := 0 }
    nextRun := s.sched.nextRun + 1 }

/-- A non-empty selection taken as a new run (R124). -/
def newRun (sp : Span) (cause : Cause) (sel : List Nat) (s : State) : State :=
  let s2 := startRun sp cause (suspendCurrent s)
  completeSuspended (sel.foldl (takeSelected s.sched.nextRun sp) s2)

/-- The merged span is recorded, unless it is known already; a ninth raises the overflow (R125). -/
def Run.addMerged (r : Run) (sp : Span) : Run :=
  if sp = r.span ∨ sp ∈ r.merged then r
  else if r.merged.length < Config.mergedCapacity then { r with merged := r.merged ++ [sp] }
  else { r with overflow := min 255 (r.overflow + 1) }

/-- A non-empty selection merged into the current run (R125). -/
def mergeRun (sp : Span) (sel : List Nat) (s : State) : State :=
  match s.sched.current with
  | none => s
  | some run =>
    completeSuspended (modifyRun run.id (·.addMerged sp) (sel.foldl (takeSelected run.id sp) s))

/-- What a selection does to the runs (R123). -/
def sweepResult (s : State) (sel : List Nat) : SweepResult :=
  if sel = [] then .nothing
  else if s.sched.stack.length < Config.stackCapacity then .newRun else .merged

/-- A SPAN ALARM LOSS or TEST acts on the station's own records (R123). -/
def applyAlarm (sp : Span) (cause : Cause) (s : State) : State :=
  let sel := selection s sp
  match sweepResult s sel with
  | .nothing => s
  | .newRun => newRun sp cause sel s
  | .merged => mergeRun sp sel s

/-! ### Launches (R19, R48, R120, R127) -/

/-- The epoch after a record's last epoch (R12). -/
def nextEpoch (last : Nat) : Nat := if last = 0 ∨ 15 ≤ last then 1 else last + 1

/-- A slot as it enters CLAIMING (R48). -/
def claimedProbe (c epoch : Nat) (m : Mode) (o : Owner) : Probe :=
  { phase := .claiming, circuit := c, epoch := epoch, mode := m, owner := o, blind := 0, joiners := 0
    absent := 0, overlap := false, poolShort := false, loopLost := false, absentLost := false
    lowGrade := false, conflict := false, deadline := none, pool := [] }

/-- A request of the Probe Unit joins its pending requests (R49, R55). -/
def requestProbe (p : Payload) (s : State) : State :=
  s.setProbes { s.probes with requests := s.probes.requests ++ [⟨p, .own⟩] }

/-- A QUEUED record is given a slot: the record becomes PROBING, the slot CLAIMING, and a PROBE START
is requested (R19, R48, R49). -/
def claimSlot (slot c : Nat) (m : Mode) (o : Owner) (s : State) : State :=
  match findPath s c with
  | none => s
  | some r =>
    let e := nextEpoch r.lastEpoch
    requestProbe (.probeStart c e m s.image.deadlineCode)
      (putSlot slot (some (claimedProbe c e m o))
        (modifyPath c (fun r => { r with state := .probing, lastEpoch := e }) s))

/-- The state is QUEUED, with any mode. -/
def RecordState.isQueued : RecordState → Bool
  | .queued _ => true
  | .idle | .held | .probing => false

/-- A circuit can be launched: its record is QUEUED and no slot holds it (R120). -/
def launchable (s : State) (c : Nat) : Bool :=
  (findPath s c).any (·.state.isQueued) && (slotOf s c).isNone

/-- The station may launch at all: RUNNING and JOINED (R120, R127). -/
def mayLaunch (s : State) : Bool := s.runState == .running && s.roster.joined

/-- The circuit a base launch takes: the routine list first, then the census list (R120). -/
def baseChoice (s : State) : Option (Mode × Nat) :=
  match s.sched.routine.find? (launchable s) with
  | some c => some (.routine, c)
  | none => (s.sched.census.find? (launchable s)).map fun c => (.census, c)

/-- The launch of base work, when its conditions hold: slot, list and circuit (R120). -/
def baseLaunchChoice (s : State) : Option (Nat × Mode × Nat) :=
  if mayLaunch s && s.loop.up && s.sched.admission && s.sched.current.isNone then
    match idleSlot s, baseChoice s with
    | some i, some (m, c) => some (i, m, c)
    | _, _ => none
  else none

/-- The record of a WAITING entry is QUEUED with mode SWEEP (section 6.3). -/
def queuedSweep (s : State) (c : Nat) : Bool := (findPath s c).any (·.state == .queued .sweep)

/-- The circuit a sweep launch takes: the first WAITING entry whose circuit no slot holds (R127). -/
def sweepChoice (s : State) (r : Run) : Option Nat :=
  (r.entries.find? fun e =>
    e.standing == .waiting && queuedSweep s e.circuit && (slotOf s e.circuit).isNone).map (·.circuit)

/-- The launch of the current sweep run, when its conditions hold: slot, run and circuit (R127). -/
def sweepLaunchChoice (s : State) : Option (Nat × Nat × Nat) :=
  if mayLaunch s then
    match s.sched.current with
    | none => none
    | some r =>
      match idleSlot s, sweepChoice s r with
      | some i, some c => some (i, r.id, c)
      | _, _ => none
  else none

/-- BASE_LAUNCH: one launch of base work, if the conditions of R120 hold. -/
def execBaseLaunch (s : State) : Host.Outcome State Fault Refusal :=
  match baseLaunchChoice s with
  | some (i, m, c) => .next (claimSlot i c m .base (leaveList m c s))
  | none => .next s

/-- SWEEP_LAUNCH: one launch of the current sweep run, if the conditions of R127 hold. -/
def execSweepLaunch (s : State) : Host.Outcome State Fault Refusal :=
  match sweepLaunchChoice s with
  | some (i, id, c) => .next (modifyRun id (·.setStanding c .launched) (claimSlot i c .sweep (.run id) s))
  | none => .next s

/-! ### Admission (R121) -/

/-- The admission flag while BASE is current, the shadow while a sweep is (R121). -/
def setAdmission (x : Bool) (s : State) : State :=
  if s.sched.current = none then s.setSched { s.sched with admission := x }
  else s.setSched { s.sched with shadow := x }

/-! ### Reset (R135) -/

/-- The Audit Scheduler at a LOOP RESET. -/
def resetScheduler (s : State) : State :=
  s.setSched { s.sched with
    census := [], routine := [], current := none, stack := []
    admission := if s.sched.current = none then s.sched.admission else s.sched.shadow }

/-- The Path Store at a LOOP RESET: every record IDLE with empty lists, then every based record
requeued in path-record order (R21). -/
def resetPaths (s : State) : State :=
  let s1 := s.setPaths (s.paths.map fun r => { r with state := .idle, hold := [], owed := [] })
  let based := (s.paths.filter (·.baseline.isSome)).map (·.circuit)
  requestAudits based .routine .reset s1

end Sys2Proof.Machine
end

