-- ==== Sys2Proof/Machine/Verdicts.lean ====
section
/-! DEFINITION. The verdict logic: from the records of a slot to a chain and a verdict (chapter 4). -/

namespace Sys2Proof.Machine

/-! ### Hops at one station (R73) -/

/-- What the records of one station form. -/
inductive Formed where
  | whole (ingress egress : PoolRecord) | stub (ingress : PoolRecord) | nothing
  deriving DecidableEq, Repr

/-- What the pool's records form at station x: at most one hop (R73). -/
def formAt (pool : List PoolRecord) (x : Nat) : Formed :=
  let here := pool.filter (·.station == x)
  match here.filter (·.cls.isIn), here.filter (·.cls.isOut) with
  | [i], [e] => .whole i e
  | [i], [] => .stub i
  | _, _ => .nothing

/-- A level class 0 gives an absent level (R73). -/
def levelOf (n : Nat) : Option Nat := if n = 0 then none else some n

/-- A whole hop on the chain, with the records that formed it. -/
structure Link where
  ingress : PoolRecord
  egress  : PoolRecord
  deriving DecidableEq, Repr

/-- The hop of a link, with the levels of its records. -/
def Link.hop (l : Link) : Hop :=
  ⟨l.ingress.station, l.ingress.port, l.egress.port, levelOf l.ingress.level, levelOf l.egress.level⟩

/-! ### The chain (R74, R75) -/

/-- How a chain ends. -/
inductive ChainEnd where
  | landing (station port : Nat)
  | looped (station : Nat)
  | stub (record : PoolRecord)
  | stopped
  deriving DecidableEq, Repr

structure Chain where
  links  : List Link
  ending : ChainEnd
  deriving DecidableEq, Repr

/-- The chain grown from its links, the last of them `last` (R75). Each station stands on the chain at
most once, so 24 steps end it. -/
def follow (pool : List PoolRecord) : Nat → List Link → Link → Chain
  | 0, links, _ => ⟨links, .stopped⟩
  | fuel + 1, links, last =>
    if last.egress.cls = .drop then ⟨links, .landing last.egress.station last.egress.port⟩
    else match last.egress.far with
      | none => ⟨links, .stopped⟩
      | some (x, q) =>
        if links.any (·.ingress.station == x) then ⟨links, .looped x⟩
        else match formAt pool x with
          | .whole i e =>
            if i.port = q then follow pool fuel (links ++ [⟨i, e⟩]) ⟨i, e⟩ else ⟨links, .stopped⟩
          | .stub i => if i.port = q then ⟨links, .stub i⟩ else ⟨links, .stopped⟩
          | .nothing => ⟨links, .stopped⟩

/-- The chain of a pool at its head (R74). -/
def assemble (head : Nat) (pool : List PoolRecord) : Chain :=
  match formAt pool head with
  | .whole i e => if i.cls = .add then follow pool 24 [⟨i, e⟩] ⟨i, e⟩ else ⟨[], .stopped⟩
  | .stub _ | .nothing => ⟨[], .stopped⟩

def Chain.hops (c : Chain) : List Hop := c.links.map Link.hop

/-- The record stands on the chain or is its stub. -/
def Chain.uses (c : Chain) (r : PoolRecord) : Bool :=
  c.links.any (fun l => l.ingress == r || l.egress == r) || c.ending == .stub r

/-- The leaks, in intake order (R76). -/
def leaksOf (c : Chain) (pool : List PoolRecord) : List PoolRecord := pool.filter (!c.uses ·)

/-! ### Classification (R77 to R83) -/

/-- The part of a hop that equality of hop lists compares (R78). -/
def Hop.route (h : Hop) : Nat × Nat × Nat := (h.station, h.ingress, h.egress)

/-- Two hop lists are equal in station, ingress port and egress port (R78). -/
def sameRoute (a b : List Hop) : Bool := a.map Hop.route == b.map Hop.route

/-- The baseline tail (R10). -/
def tailOf (base : List Hop) : Option (Nat × Nat) := base.getLast?.map fun h => (h.station, h.egress)

/-- The chain ends at the baseline tail (R78). -/
def Chain.landsAt (c : Chain) (tail : Option (Nat × Nat)) : Bool :=
  match c.ending with
  | .landing x p => tail == some (x, p)
  | .looped _ | .stub _ | .stopped => false

/-- One hop has lost level against its baseline hop (R79). -/
def lostLevel (margin : Nat) (b o : Hop) : Bool :=
  match b.ingressLevel, o.ingressLevel with
  | some x, some y => y + margin ≤ x
  | _, _ => false

/-- Some hop has lost level; a margin of 0 never says so (R79). -/
def degraded (margin : Nat) (base hops : List Hop) : Bool :=
  1 ≤ margin && (base.zip hops).any fun x => lostLevel margin x.1 x.2

/-- The station a chain without a DROP was next expected at (R80). -/
def nextExpected (c : Chain) (base : List Hop) : Option Nat :=
  match c.links.getLast? with
  | some l => l.egress.far.map (·.1)
  | none => base.head?.map (·.station)

/-- The first reason of R80 that holds. -/
def incompleteReason (p : Probe) (next : Option Nat) : Option IncompleteReason :=
  if next.any (stationIn p.blind) then some .blind
  else if next.any (stationIn p.absent) then some .absent
  else if p.poolShort then some .pool
  else if p.loopLost then some .loop
  else none

/-- The verdict on a chain without a DROP (rows 6 and 7 of R77). -/
def shortVerdict (p : Probe) (base : List Hop) (c : Chain) : Verdict × Option IncompleteReason :=
  match incompleteReason p (nextExpected c base) with
  | some r => (.incomplete, some r)
  | none => (.broken, none)

/-- The verdict on a chain that lands at the baseline tail (rows 3 to 5 of R77). -/
def tailVerdict (margin : Nat) (base hops : List Hop) : Verdict :=
  if sameRoute base hops then (if degraded margin base hops then .degraded else .pass) else .rerouted

/-- Rows 2 to 7 of R77, for ROUTINE and SWEEP probes. -/
def routineVerdict (margin : Nat) (p : Probe) (base : List Hop) (c : Chain) :
    Verdict × Option IncompleteReason :=
  match c.ending with
  | .landing _ _ =>
    if c.landsAt (tailOf base) then (tailVerdict margin base c.hops, none) else (.misrouted, none)
  | .looped _ => (.misrouted, none)
  | .stub _ | .stopped => shortVerdict p base c

/-- The verdict of a census (R83). -/
def censusVerdict (c : Chain) : Verdict :=
  match c.ending with
  | .landing _ _ => .baselined
  | .looped _ | .stub _ | .stopped => .broken

/-- The verdict on an assembled chain, with the reason of INCOMPLETE. -/
def classify (margin : Nat) (p : Probe) (base : List Hop) (c : Chain) :
    Verdict × Option IncompleteReason :=
  if p.mode = .census then (censusVerdict c, none) else routineVerdict margin p base c

/-- PASS, DEGRADED, REROUTED and BASELINED are positive (R77). -/
def Verdict.positive : Verdict → Bool
  | .pass | .degraded | .rerouted | .baselined => true
  | .conflict | .misrouted | .incomplete | .broken => false

/-! ### The record of a verdict (R81, R82, R84, R85) -/

/-- The verdict is INCOMPLETE or BROKEN. -/
def Verdict.short : Verdict → Bool
  | .incomplete | .broken => true
  | .conflict | .misrouted | .pass | .degraded | .rerouted | .baselined => false

/-- A part that only some verdicts carry. -/
def onlyIf {α : Type} (b : Bool) (x : Option α) : Option α := if b then x else none

/-- The foreign landing of MISROUTED. -/
def Chain.landing (c : Chain) : Option (Nat × Nat) :=
  match c.ending with
  | .landing x p => some (x, p)
  | .looped _ | .stub _ | .stopped => none

/-- The loop station of a LOOPED chain. -/
def Chain.loopStation (c : Chain) : Option Nat :=
  match c.ending with
  | .looped x => some x
  | .landing _ _ | .stub _ | .stopped => none

/-- The stub point of a chain that ends at a stub. -/
def Chain.stubPoint (c : Chain) : Option (Nat × Nat) :=
  match c.ending with
  | .stub r => some (r.station, r.port)
  | .landing _ _ | .looped _ | .stopped => none

/-- Station and egress port of the chain's last hop (R81). -/
def Chain.lastGood (c : Chain) : Option (Nat × Nat) :=
  c.links.getLast?.map fun l => (l.egress.station, l.egress.port)

/-- Baseline hops whose station has no hop on the chain (R81). -/
def hopsShort (c : Chain) (base : List Hop) : Nat :=
  base.countP fun h => !c.links.any (·.ingress.station == h.station)

/-- Kinds UNEXPECTED and UNTRACKED count as table mismatches (R85). -/
def PoolRecord.mismatched (r : PoolRecord) : Bool := r.kind == .unexpected || r.kind == .untracked

/-- Records on the chain hops that disagree with a Circuit Table (R85). -/
def Chain.mismatches (c : Chain) : Nat :=
  (c.links.map fun l => l.ingress.mismatched.toNat + l.egress.mismatched.toNat).sum

/-- A judgement: the record of the verdict, and the chain's hops. -/
structure Judgement where
  record : VerdictRecord
  hops   : List Hop
  deriving DecidableEq, Repr

/-- CONFLICT (R82): no chain is assembled. -/
def judgeConflict (p : Probe) (origin : Option Origin) : Judgement :=
  { hops := []
    record :=
      { circuit := p.circuit, mode := p.mode, verdict := .conflict
        flags := ⟨false, p.overlap, p.poolShort, p.lowGrade⟩
        epoch := p.epoch, origin := origin, hopCount := 0, mismatches := 0, landing := none
        loopStation := none, lastGood := none, hopsShort := none, stubPoint := none, reason := none
        blind := p.blind, leaks := [] } }

/-- The judgement of an assembled chain. -/
def judgeChain (margin : Nat) (p : Probe) (base : Option (List Hop)) (origin : Option Origin)
    (c : Chain) : Judgement :=
  let v := classify margin p (base.getD []) c
  let leaks := leaksOf c p.pool
  { hops := c.hops
    record :=
      { circuit := p.circuit, mode := p.mode, verdict := v.1
        flags := ⟨leaks != [], p.overlap, p.poolShort, p.lowGrade⟩
        epoch := p.epoch, origin := origin, hopCount := c.links.length, mismatches := c.mismatches
        landing := onlyIf (v.1 == .misrouted) c.landing
        loopStation := onlyIf (v.1 == .misrouted) c.loopStation
        lastGood := onlyIf v.1.short c.lastGood
        hopsShort := onlyIf v.1.short (base.map (hopsShort c))
        stubPoint := onlyIf v.1.short c.stubPoint
        reason := v.2, blind := p.blind
        leaks := (leaks.map fun r => (r.station, r.port)).take 8 } }

/-- The verdict logic (R72): what an evaluation makes of a slot, at head station `head`. -/
def judge (head margin : Nat) (p : Probe) (base : Option (List Hop)) (origin : Option Origin) :
    Judgement :=
  if p.conflict then judgeConflict p origin
  else judgeChain margin p base origin (assemble head p.pool)

/-- The early completion test (R53). -/
def completesEarly (head : Nat) (p : Probe) (base : Option (List Hop)) : Bool :=
  match base with
  | none => false
  | some b =>
    let c := assemble head p.pool
    p.mode != .census && sameRoute b c.hops && c.landsAt (tailOf b) &&
      b.all fun h => !stationIn p.blind h.station

end Sys2Proof.Machine
end

