-- ==== Sys2Proof/Machine/Windows.lean ====
section
/-! DEFINITION. The Window Unit: window list, holds, cancel, close, tallies and summaries (chapter 5). -/

namespace Sys2Proof.Machine

/-! ### Requests for window notices (R91) -/

/-- The serial a window notice carries. -/
def Payload.windowSerial : Payload → Option Serial
  | .windowOpen ser _ => some ser
  | .windowCancel ser => some ser
  | .windowClose ser => some ser
  | .tally ser _ => some ser
  | .join _ _ | .present _ _ | .probeStart _ _ _ _ | .sighting _ | .probeEnd _ _ _ _
  | .stray _ _ _ _ | .spanAlarm _ _ | .loopReset => none

/-- Two requests are of the same kind for the same serial. -/
def Request.sameNotice (a b : Request) : Bool :=
  a.payload.kind == b.payload.kind && a.payload.windowSerial == b.payload.windowSerial

/-- The purpose a pending request keeps when it is requested again: the block's own one if either is. -/
def Purpose.join (old new : Purpose) : Purpose := if new = .own then .own else old

/-- A request joins the pending notice list, unless one of its kind and serial is pending (R91). The
pending one then keeps its payload, and counts as the block's own if either is (log 29). -/
def requestWindow (r : Request) (s : State) : State :=
  s.setWindows { s.windows with
    requests :=
      if s.windows.requests.any (r.sameNotice ·) then
        s.windows.requests.map fun q =>
          if r.sameNotice q then { q with purpose := q.purpose.join r.purpose } else q
      else s.windows.requests ++ [r] }

/-- Step 2 of R97: pending WINDOW OPEN, WINDOW CLOSE and TALLY requests of a serial are dropped. -/
def dropWindowRequests (ser : Serial) (s : State) : State :=
  s.setWindows { s.windows with
    requests := s.windows.requests.filter fun r =>
      !(r.payload.windowSerial == some ser && r.payload.kind != 4) }

/-! ### Opening (R90, R92, R93, R95) -/

/-- WINDOW OPENs taken and waiting for dispatch (R92, R94). -/
def waitingOpens (s : State) : Nat := s.loop.receive.countP (·.payload.kind == 3)

/-- The window list has no place left for a new serial (R92, R94). -/
def windowsFull (s : State) : Bool :=
  Config.windowCapacity ≤ s.windows.list.length + waitingOpens s

/-- The sequence number a new window takes: advanced past the listed ones of this opener (R90). -/
def freeSequence (s : State) : Nat → Nat → Nat
  | 0, n => n
  | fuel + 1, n =>
    if (findWindow s ⟨s.own, n⟩).isSome then freeSequence s fuel ((n + 1) % 256) else n

/-- The sequence of the next window opened here; the list holds at most 8 entries. -/
def nextSequence (s : State) : Nat := freeSequence s Config.windowCapacity s.windows.seq

def zeroTally : Tally := ⟨0, 0, 0, 0, 0, none⟩

/-- A window entry as it is created (R89, R92, R95). -/
def newWindow (ser : Serial) (scope : PortSet) : Window :=
  { serial := ser, scope := scope, state := .opened, counts := zeroTally, tally := .notDue
    openReceived := false, announced := false, settle := .stopped
    table := List.replicate 24 .notExpected }

/-- The baseline crosses the scope of a window of this opener (R93). -/
def PathRecord.crossesScope (r : PathRecord) (opener : Nat) (scope : PortSet) : Bool :=
  (r.baseline.getD []).any fun h =>
    h.station == opener && (portIn scope h.ingress || portIn scope h.egress)

/-- The records that take a hold for a window, in path-record order (R93). -/
def holdSelection (s : State) (ser : Serial) (scope : PortSet) : List Nat :=
  (s.paths.filter fun r => r.crossesScope ser.opener scope && !r.hold.contains ser).map (·.circuit)

/-- Holds for a window are placed on this station's records (R93). -/
def placeHolds (ser : Serial) (scope : PortSet) (s : State) : State :=
  let sel := holdSelection s ser scope
  modifyWindow ser (fun w => { w with counts := { w.counts with held := sel.length } })
    (sel.foldl (fun t c => addHold ser c t) s)

/-- A window enters the list and its holds are placed. -/
def listWindow (ser : Serial) (scope : PortSet) (s : State) : State :=
  placeHolds ser scope
    (s.setWindows { s.windows with list := s.windows.list ++ [newWindow ser scope] })

/-! ### Cancel (R97) -/

def cancelWindowEntry (ser : Serial) (s : State) : State :=
  dropWindow ser (dropWindowRequests ser (dropOwed ser (releaseHolds ser s)))

/-! ### The tally table and the summary (R101, R108 to R110) -/

/-- Entry of station n in the tally table. -/
def Window.tableAt (w : Window) (n : Nat) : TallyEntry :=
  if 1 ≤ n then w.table.getD (n - 1) .notExpected else .notExpected

/-- One entry of the tally table written. -/
def Window.setTable (w : Window) (n : Nat) (x : TallyEntry) : Window :=
  if 1 ≤ n then { w with table := w.table.set (n - 1) x } else w

/-- The counts of the RECEIVED entries with their stations, in ascending number. -/
def Window.receivedCounts (w : Window) : List (Nat × Tally) :=
  stationNumbers.filterMap fun n =>
    match w.tableAt n with
    | .received t => some (n, t)
    | .notExpected | .awaited | .missing | .unreached => none

/-- The sum of one count over the RECEIVED entries. -/
def Window.total (w : Window) (f : Tally → Nat) : Nat := (w.receivedCounts.map (f ·.2)).sum

/-- The content of WINDOW REPORT SUMMARY (R110). -/
def Window.summary (w : Window) : WindowSummary :=
  { serial := w.serial
    totals := ⟨w.total (·.held), w.total (·.passed), w.total (·.changed), w.total (·.failed),
      w.total (·.incomplete), none⟩
    received := w.receivedCounts.length
    failures := (w.receivedCounts.filter (0 < ·.2.failed)).map fun x =>
      (x.1, x.2.firstFailing.getD 0)
    missing := stationsWith fun n => w.tableAt n == .missing
    unreached := stationsWith fun n => w.tableAt n == .unreached }

/-- No entry of the tally table is AWAITED. -/
def Window.noneAwaited (w : Window) : Bool := w.table.all (· != .awaited)

/-- The summary test (R110). -/
def summaryTest (ser : Serial) (s : State) : State :=
  match findWindow s ser with
  | none => s
  | some w =>
    if w.state = .collecting ∧ w.noneAwaited then
      dropWindow ser (postReport (.windowSummary w.summary) s)
    else s

/-- The window collects tallies at its opener (R106, R108, R109). -/
def Window.collects (w : Window) : Bool := w.state == .closing || w.state == .collecting

/-- A tally entry that still takes counts (R108). -/
def TallyEntry.takesCounts : TallyEntry → Bool
  | .awaited | .unreached | .missing => true
  | .notExpected | .received _ => false

/-- Station y's counts recorded at the opener (R108). -/
def recordTally (ser : Serial) (y : Nat) (t : Tally) (s : State) : State :=
  match findWindow s ser with
  | none => s
  | some w =>
    if w.collects ∧ (w.tableAt y).takesCounts then
      summaryTest ser (modifyWindow ser (·.setTable y (.received t)) s)
    else s

/-- Station x becomes MISSING where it is AWAITED, in one window of this station (R109). -/
def missingInTable (x : Nat) (s : State) (ser : Serial) : State :=
  match findWindow s ser with
  | none => s
  | some w =>
    if w.collects ∧ w.tableAt x = .awaited then
      summaryTest ser (modifyWindow ser (·.setTable x .missing) s)
    else s

/-- The serials of the listed windows that meet a condition, in list order. -/
def serialsWhere (s : State) (p : Window → Bool) : List Serial :=
  (s.windows.list.filter p).map (·.serial)

/-- R109 for every window opened here, in list order (log 27). -/
def missingInTables (x : Nat) (s : State) : State :=
  (serialsWhere s (·.serial.opener == s.own)).foldl (missingInTable x) s

/-! ### Tallies of this station (R105 to R107) -/

/-- A TALLY with a window's counts. -/
def tallyRequest (w : Window) : Request := ⟨.tally w.serial w.counts, .own⟩

/-- The tally state becomes PENDING and the TALLY is requested (R106, R107). -/
def requestTally (ser : Serial) (s : State) : State :=
  match findWindow s ser with
  | none => s
  | some w => requestWindow (tallyRequest w) (modifyWindow ser (fun w => { w with tally := .pending }) s)

/-- The tally test (R106). -/
def tallyTest (ser : Serial) (s : State) : State :=
  match findWindow s ser with
  | none => s
  | some w =>
    if owesSerial s ser then s
    else if ser.opener = s.own then
      if w.collects then recordTally ser s.own w.counts s else s
    else if w.state = .closed ∧ w.tally = .notDue then requestTally ser s
    else s

/-- The counter a verdict enters (R105). -/
def Tally.count (t : Tally) (c : Nat) : Verdict → Tally
  | .pass | .baselined => { t with passed := t.passed + 1 }
  | .rerouted | .degraded => { t with changed := t.changed + 1 }
  | .incomplete => { t with incomplete := t.incomplete + 1 }
  | .broken | .misrouted | .conflict =>
    { t with failed := t.failed + 1, firstFailing := t.firstFailing <|> some c }

/-- A verdict credited to a window, then its tally test (R105, R106). -/
def creditWindow (c : Nat) (v : Verdict) (s : State) (ser : Serial) : State :=
  tallyTest ser (modifyWindow ser (fun w => { w with counts := w.counts.count c v }) s)

/-! ### Closing (R101, R103) -/

/-- The expected set (step 1 of R101). -/
def expectedTable (s : State) : List TallyEntry :=
  stationNumbers.map fun n => if isPresent s n then .awaited else .notExpected

/-- Steps 1 to 5 of R101. -/
def closeOwn (ser : Serial) (s : State) : State :=
  let s1 := modifyWindow ser (fun w => { w with table := expectedTable s }) s
  let s2 := requestWindow ⟨.windowClose ser, .own⟩ s1
  let s3 := modifyWindow ser (fun w => { w with state := .closing, settle := .stopped }) s2
  tallyTest ser (releaseHolds ser s3)

/-- A window leaves SETTLING when its settle time has run out and its open outcome is received (R101). -/
def leaveSettling (ser : Serial) (s : State) : State :=
  match findWindow s ser with
  | none => s
  | some w =>
    if w.state = .settling ∧ w.settle = .expired ∧ w.openReceived then closeOwn ser s else s

/-- A listed OPEN window of another opener closes (R103). -/
def closeListed (ser : Serial) (s : State) : State :=
  tallyTest ser (releaseHolds ser (modifyWindow ser (fun w => { w with state := .closed }) s))

/-! ### Outcomes of window notices (R96, R102, R107) -/

/-- Stations whose best mark is REFUSED. -/
def BestMarks.refusing (b : BestMarks) : StationSet := b.refused &&& ~~~b.taken

/-- Station n has a best mark other than none. -/
def BestMarks.marked (b : BestMarks) (n : Nat) : Bool := stationIn b.taken n || stationIn b.refused n

/-- PRESENT stations other than this one whose best mark is none. -/
def unmarkedPresent (s : State) (b : BestMarks) : StationSet :=
  stationsWith fun n => n != s.own && isPresent s n && !b.marked n

/-- A refused window is cancelled and reported (R96). -/
def refuseOpen (ser : Serial) (b : BestMarks) (s : State) : State :=
  postReport (.openRefused ser b.refusing)
    (requestWindow ⟨.windowCancel ser, .own⟩ (cancelWindowEntry ser s))

/-- A window no station refused is confirmed, and may leave SETTLING (R96, R101). -/
def confirmOpen (ser : Serial) (b : BestMarks) (s : State) : State :=
  leaveSettling ser (postReport (.openConfirmed ser (unmarkedPresent s b)) s)

/-- The outcome of the first WINDOW OPEN of a window (R96). -/
def openOutcome (ser : Serial) (b : BestMarks) (s : State) : State :=
  if (findWindow s ser).isNone then s
  else
    let s1 := modifyWindow ser (fun w => { w with openReceived := true }) s
    if b.refusing = 0 then confirmOpen ser b s1 else refuseOpen ser b s1

/-- AWAITED stations without a TAKEN mark become UNREACHED, the opener aside (R102). -/
def Window.markUnreached (w : Window) (own : Nat) (b : BestMarks) : Window :=
  { w with
    state := .collecting
    table := stationNumbers.map fun n =>
      if w.tableAt n = .awaited ∧ n ≠ own ∧ !stationIn b.taken n then .unreached else w.tableAt n }

/-- The outcome of WINDOW CLOSE (R102). -/
def closeOutcome (ser : Serial) (b : BestMarks) (s : State) : State :=
  match findWindow s ser with
  | none => s
  | some w =>
    if w.state = .closing then summaryTest ser (modifyWindow ser (·.markUnreached s.own b) s) else s

/-- The outcome of this station's TALLY (R107). -/
def tallyOutcome (ser : Serial) (b : BestMarks) (s : State) : State :=
  match findWindow s ser with
  | none => s
  | some w =>
    if w.state = .closed ∧ w.tally = .sent then
      if stationIn b.taken ser.opener then dropWindow ser s
      else if isPresent s ser.opener then requestTally ser s
      else modifyWindow ser (fun w => { w with tally := .unsent }) s
    else s

/-! ### Roster changes and joiners (R107, R111, R112) -/

/-- The opener became PRESENT: its UNSENT windows return to PENDING, in list order (R107, R167, log 27). -/
def retryUnsent (x : Nat) (s : State) : State :=
  (serialsWhere s fun w => w.serial.opener == x && w.tally == .unsent).foldl
    (fun t ser => requestTally ser t) s

/-- Every window opened by the joining station is cancelled, in list order (R111, log 27). -/
def removeJoinerWindows (x : Nat) (s : State) : State :=
  (serialsWhere s (·.serial.opener == x)).foldl (fun t ser => cancelWindowEntry ser t) s

/-- The window is in OPEN or SETTLING. -/
def Window.inForce (w : Window) : Bool := w.state == .opened || w.state == .settling

/-- The re-announcement of this station's windows (R112). -/
def reannounce (s : State) : State :=
  (s.windows.list.filter fun w => w.serial.opener == s.own && w.inForce).foldl
    (fun t w => requestWindow ⟨.windowOpen w.serial w.scope, .reannounce⟩ t) s

/-- What the Window Unit does at a JOIN of station x (R163). -/
def joinWindows (x : Nat) (s : State) : State := reannounce (missingInTables x (removeJoinerWindows x s))

/-! ### Reset (R114) -/

def resetWindows (s : State) : State := s.setWindows { s.windows with list := [], requests := [] }

/-! ### Grants (R91) -/

/-- A WINDOW OPEN of the serial is between its grant and its outcome (R91). -/
def openInFlight (s : State) (ser : Serial) : Bool :=
  let isOpen := fun (r : Request) => r.payload.kind == 3 && r.payload.windowSerial == some ser
  s.loop.newNotices.any isOpen ||
    s.loop.outstanding.any fun o => o.standing != .lingering && isOpen o.request

/-- The request may be granted (R91). -/
def eligible (s : State) (r : Request) : Bool :=
  match r.payload with
  | .windowCancel ser => !openInFlight s ser
  | _ => true

/-- The oldest eligible request. -/
def eligibleRequest (s : State) : Option Request := s.windows.requests.find? (eligible s)

/-- What a grant does to the window of the notice: a WINDOW OPEN is announced (R98), a PENDING tally
is SENT (R106). -/
def noteGrant (r : Request) (s : State) : State :=
  match r.payload with
  | .windowOpen ser _ => modifyWindow ser (fun w => { w with announced := true }) s
  | .tally ser _ =>
    modifyWindow ser (fun w => if w.tally = .pending then { w with tally := .sent } else w) s
  | _ => s

/-- A window request leaves the pending list and is noted. -/
def takeWindowRequest (r : Request) (s : State) : State :=
  noteGrant r (s.setWindows { s.windows with requests := s.windows.requests.erase r })

/-! ### Commands (R92, R98, R100) -/

/-- What a served command answers, and the state it leaves. -/
structure Reply where
  result : ResultCode
  data   : ResponseData
  state  : State
  deriving DecidableEq, Repr

/-- A refusal changes nothing. -/
def refuse (r : ResultCode) (s : State) : Reply := ⟨r, .empty, s⟩

/-- The scope names a port of class UNUSED. -/
def namesUnused (im : Image) (scope : PortSet) : Bool :=
  (portsOf scope).any fun p => im.classAt p == .unused

/-- A window is opened with a serial (R92). -/
def openWindow (ser : Serial) (scope : PortSet) (s : State) : State :=
  let s1 := s.setWindows { s.windows with seq := (ser.seq + 1) % 256 }
  requestWindow ⟨.windowOpen ser scope, .own⟩ (listWindow ser scope s1)

/-- OPEN WINDOW (R92). -/
def serveOpenWindow (scope : PortSet) (s : State) : Reply :=
  if s.runState ≠ .running ∨ !s.roster.joined then refuse .refusedState s
  else if scope = 0 ∨ namesUnused s.image scope then refuse .refusedParam s
  else if windowsFull s then refuse .refusedFull s
  else
    let n := nextSequence s
    ⟨.done, .opened n, openWindow ⟨s.own, n⟩ scope s⟩

/-- CLOSE WINDOW (R100). Code 0 leaves a timer that expires at once. -/
def serveCloseWindow (seq code : Nat) (s : State) : Reply :=
  match findWindow s ⟨s.own, seq⟩ with
  | none => refuse .refusedUnknown s
  | some w =>
    if w.state ≠ .opened then refuse .refusedState s
    else
      let ms := settleMs s.image code
      ⟨.done, .settle ms, modifyWindow ⟨s.own, seq⟩
        (fun w => { w with state := .settling, settle := .running (s.now + ms) }) s⟩

/-- CANCEL WINDOW (R98). -/
def serveCancelWindow (seq : Nat) (s : State) : Reply :=
  match findWindow s ⟨s.own, seq⟩ with
  | none => refuse .refusedUnknown s
  | some w =>
    if !w.inForce then refuse .refusedState s
    else
      let s1 := cancelWindowEntry ⟨s.own, seq⟩ s
      ⟨.done, .cancelled w.announced,
        if w.announced then requestWindow ⟨.windowCancel ⟨s.own, seq⟩, .own⟩ s1 else s1⟩

/-- The settle time of a window of this station has run out (R101). -/
def settleExpires (seq due : Nat) (s : State) : State :=
  leaveSettling ⟨s.own, seq⟩
    (modifyWindow ⟨s.own, seq⟩ (fun w => { w with settle := .expired }) (advanceTo due s))

/-- SETTLE_TIMER_EXPIRY (R101). A timer that does not run has no expiry (log 3). -/
def execSettleTimerExpiry (seq : Nat) (s : State) : Host.Outcome State Fault Refusal :=
  match findWindow s ⟨s.own, seq⟩ with
  | none => .next s
  | some w =>
    match w.settle with
    | .running due => .next (settleExpires seq due s)
    | .stopped | .expired => .next s

end Sys2Proof.Machine
end

