-- ==== Sys2Proof/Machine/Probes.lean ====
section
/-! DEFINITION. The Probe Unit and the Circuit Table's rewrites: driving, intake, evaluation, events
during a probe (chapter 3, section 1.1, R86 to R88). -/

namespace Sys2Proof.Machine

/-! ### The Circuit Table (R3, R5, R6, R7) -/

/-- A head entry rewritten from the chain's first hop (R5). -/
def rewriteHead (c : Nat) (h : Hop) (s : State) : State :=
  modifyHop c (fun e => { e with
    ingress := h.ingress, egress := some h.egress, latch := false, missing := 0 }) s

/-- The role that two port classes give (R2). -/
def roleOf (ingress egress : PortClass) : Role :=
  match ingress, egress with
  | .add, .drop => .localCircuit
  | .add, _ => .head
  | _, .drop => .tail
  | _, _ => .transit

/-- An entry written from a probe: created or replaced, or CT FULL (R6, R7). -/
def writeHop (e : HopEntry) (s : State) : State :=
  if (findHop s.hops e.circuit).isSome ∨ s.hops.length < Config.hopCapacity then
    s.setHops (putHop s.hops e)
  else setFault .ctFull s

/-- The entry that two reported ports of opposite sides give (R6). -/
def learnedHop (im : Image) (w : WatchEntry) (i e : Nat) : HopEntry :=
  { circuit := w.circuit, role := roleOf (im.classAt i) (im.classAt e), ingress := i, egress := some e
    headStation := w.head, latch := false, missing := 0 }

/-- The reported ports are exactly two, one in-class and one out-class, in that order of the result. -/
def reportedPair (im : Image) (reported : PortSet) : Option (Nat × Nat) :=
  match portsOf reported with
  | [a, b] =>
    if (im.classAt a).isIn && (im.classAt b).isOut then some (a, b)
    else if (im.classAt a).isOut && (im.classAt b).isIn then some (b, a)
    else none
  | _ => none

/-- The update from a watch entry at a positive PROBE END (R6). -/
def learnHop (w : WatchEntry) (s : State) : State :=
  if (findPath s w.circuit).isSome then s
  else match reportedPair s.image w.reported with
    | some (i, e) => writeHop (learnedHop s.image w i e) s
    | none => s.setHops (removeHop s.hops w.circuit)

/-! ### What an evaluation writes (R54, R86) -/

/-- The chain as a record keeps it: absent when no hop was formed (R11). -/
def keptChain (hops : List Hop) : Option (List Hop) := if hops = [] then none else some hops

/-- Last chain, last verdict and, for BASELINED, the baseline (R86). -/
def takeVerdict (j : Judgement) (r : PathRecord) : PathRecord :=
  { r with
    lastChain := keptChain j.hops
    lastVerdict := some j.record
    baseline := if j.record.verdict = .baselined then some j.hops else r.baseline }

/-- The head entry after a verdict (R5). -/
def followHead (j : Judgement) (s : State) : State :=
  match j.hops with
  | h :: _ => if j.record.verdict.positive then rewriteHead j.record.circuit h s else s
  | [] => s

/-- The credit to the owed windows; the owed list is emptied first, so that the tally test of each
credit finds it empty (R20, R88, R105, log 21). -/
def creditOwed (j : Judgement) (owed : List Serial) (s : State) : State :=
  owed.foldl (creditWindow j.record.circuit j.record.verdict)
    (modifyPath j.record.circuit (fun r => { r with owed := [] }) s)

/-- The record's move at an evaluation (R20). -/
def moveForVerdict (j : Judgement) (r : PathRecord) (s : State) : State :=
  let c := j.record.circuit
  if r.hold ≠ [] then setRecordState c .held s
  else if !j.record.flags.overlap then creditOwed j r.owed (setRecordState c .idle s)
  else match r.owed with
    | ser :: _ => enqueue c .routine (.window ser) s
    | [] => setRecordState c .idle s

/-- The credit to the owning sweep run (R88, R129). -/
def creditRun (p : Probe) (v : Verdict) (s : State) : State :=
  match p.owner with
  | .base => s
  | .run id =>
    if (allRuns s).any fun r => r.id == id && r.standingOf p.circuit == some .launched then
      touchRun id p.circuit (.credited v) s
    else s

/-- The judgement of a probe of this station. -/
def judgeProbe (s : State) (p : Probe) (r : PathRecord) : Judgement :=
  judge s.own s.image.degradeMargin p r.baseline r.origin

/-- Steps 3 to 5 of R54. -/
def recordVerdict (j : Judgement) (p : Probe) (r : PathRecord) (s : State) : State :=
  creditRun p j.record.verdict
    (postReport (.verdict j.record)
      (moveForVerdict j r (followHead j (modifyPath j.record.circuit (takeVerdict j) s))))

/-- Steps 1 and 6 of R54, and the slot's entry to CLOSING (R55). -/
def closeSlot (i : Nat) (s : State) : State :=
  modifySlot i (fun p => { p with phase := .closing, deadline := none, pool := [] }) s

/-- An evaluation of a DRIVING slot, or of a CLAIMING one whose START went out (R54). -/
def evaluate (i : Nat) (s : State) : State :=
  match probeAt s i with
  | none => s
  | some p =>
    match findPath s p.circuit with
    | none => s
    | some r =>
      let j := judgeProbe s p r
      requestProbe (.probeEnd p.circuit p.epoch j.record.verdict j.record.flags)
        (idleMarking p.circuit (closeSlot i (recordVerdict j p r s)))

/-- The evaluation at the withdrawal of a PROBE START: no PROBE END, and the slot goes IDLE (R62). -/
def evaluateWithdrawn (i : Nat) (s : State) : State :=
  match probeAt s i with
  | none => s
  | some p =>
    match findPath s p.circuit with
    | none => s
    | some r => putSlot i none (recordVerdict (judgeProbe s p r) p r s)

/-! ### Intake (R53, R57, R58) -/

/-- The slot that is DRIVING with a circuit and epoch. -/
def drivingSlot (s : State) (c e : Nat) : Option Nat :=
  s.probes.slots.findIdx? fun o => o.any fun p => p.phase == .driving && p.circuit == c && p.epoch == e

/-- The early completion test, and the evaluation it may bring (R53). -/
def testEarly (i : Nat) (s : State) : State :=
  match probeAt s i with
  | none => s
  | some p =>
    if completesEarly s.own p ((findPath s p.circuit).bind (·.baseline)) then evaluate i s else s

/-- An item for a slot: a repeat, a drop for want of a record, or an intake (steps 2 to 4 of R57). -/
def intake (i : Nat) (p : Probe) (x : PoolRecord) (s : State) : State :=
  if p.pool.any fun r => r.station == x.station && r.port == x.port then s
  else if freeRecords s = 0 then
    setFault .pool (modifySlot i (fun p => { p with poolShort := true }) s)
  else testEarly i (modifySlot i (fun p => { p with pool := p.pool ++ [x] }) s)

/-- A sighting item offered to the Probe Unit (R57). -/
def offerItem (x : Item) (s : State) : State :=
  match drivingSlot s x.circuit x.epoch with
  | none => s
  | some i =>
    match probeAt s i with
    | none => s
    | some p => intake i p x.record s

/-! ### Delivery outcomes (R50, R51, R55) -/

/-- The blind set at entry to DRIVING (R50). -/
def blindAt (s : State) (p : Probe) (b : BestMarks) : StationSet :=
  stationsWith fun n =>
    n != s.own && ((isPresent s n && !stationIn b.taken n) || stationIn p.joiners n)

/-- The absent list at entry to DRIVING (R50). -/
def absentAt (s : State) (r : PathRecord) : StationSet :=
  stationsWith fun n => n != s.own && r.crosses n && !isPresent s n

/-- The slot as it enters DRIVING (R50, R52). -/
def drivingProbe (s : State) (p : Probe) (r : PathRecord) (b : BestMarks) (failed : Bool) : Probe :=
  { p with
    phase := .driving
    blind := blindAt s p b
    absent := absentAt s r
    absentLost := absentAt s r != 0
    loopLost := failed || !s.loop.up
    deadline := some (s.now + deadlineMs s.image.deadlineCode) }

/-- The outcome of a slot's PROBE START (R50). -/
def enterDriving (i : Nat) (b : BestMarks) (failed : Bool) (s : State) : State :=
  match probeAt s i with
  | none => s
  | some p =>
    match findPath s p.circuit with
    | none => s
    | some r => drive r.line p.circuit p.epoch (putSlot i (some (drivingProbe s p r b failed)) s)

/-- The slot in a phase with a circuit and epoch (R51). -/
def slotIn (s : State) (ph : Phase) (c e : Nat) : Option Nat :=
  s.probes.slots.findIdx? fun o => o.any fun p => p.phase == ph && p.circuit == c && p.epoch == e

/-- The outcome of a PROBE START applies to its CLAIMING slot (R51). -/
def startOutcome (c e : Nat) (b : BestMarks) (failed : Bool) (s : State) : State :=
  match slotIn s .claiming c e with
  | some i => enterDriving i b failed s
  | none => s

/-- The outcome of a PROBE END frees its CLOSING slot (R51, R55). -/
def endOutcome (c e : Nat) (s : State) : State :=
  match slotIn s .closing c e with
  | some i => putSlot i none s
  | none => s

/-! ### Duplicate head (R62, R63) -/

/-- The request or notice is the PROBE START of a circuit and epoch. -/
def Request.isStartOf (r : Request) (c e : Nat) : Bool :=
  match r.payload with
  | .probeStart c' e' _ _ => c' == c && e' == e
  | _ => false

/-- The PROBE START still waits, as a request or in the insertion queue. -/
def startWaits (s : State) (c e : Nat) : Bool :=
  s.probes.requests.any (·.isStartOf c e) || s.loop.newNotices.any (·.isStartOf c e)

/-- The PROBE START is withdrawn (R49, R149). -/
def withdrawStart (c e : Nat) (s : State) : State :=
  changeLoop (fun l => { l with newNotices := l.newNotices.filter (!·.isStartOf c e) })
    (s.setProbes { s.probes with requests := s.probes.requests.filter (!·.isStartOf c e) })

/-- The conflict mark set on a slot. -/
def markConflict (i : Nat) (s : State) : State := modifySlot i (fun p => { p with conflict := true }) s

/-- What a duplicate head does to the slot that holds the circuit (R62, R63). -/
def conflictSlot (i : Nat) (p : Probe) (s : State) : State :=
  match p.phase with
  | .closing => s
  | .driving => evaluate i (markConflict i s)
  | .claiming =>
    if startWaits s p.circuit p.epoch then
      evaluateWithdrawn i (markConflict i (withdrawStart p.circuit p.epoch s))
    else evaluate i (markConflict i s)

/-- A PROBE START of another station for a circuit of this one (R62, R63, R184). -/
def duplicateHead (c : Nat) (s : State) : State :=
  if (findPath s c).isNone then s
  else
    let s1 := setFault .dupHead s
    match slotOf s1 c with
    | none => s1
    | some i =>
      match probeAt s1 i with
      | none => s1
      | some p => conflictSlot i p s1

/-! ### Absence, rejoin, grade and loop (R64 to R67) -/

/-- The slot's record has a baseline with a hop at station x. -/
def baselineCrosses (s : State) (p : Probe) (x : Nat) : Bool :=
  (findPath s p.circuit).any (·.crosses x)

/-- A station was set ABSENT (R64). -/
def absentStation (x : Nat) (s : State) : State :=
  modifyDriving (fun p =>
    if baselineCrosses s p x then { p with absent := addStation p.absent x, absentLost := true }
    else p) s

/-- What a JOIN of station x does to a slot (R65). -/
def joinSlot (s : State) (x : Nat) (p : Probe) : Probe :=
  match p.phase with
  | .driving => { p with blind := addStation p.blind x }
  | .claiming =>
    if startWaits s p.circuit p.epoch then p else { p with joiners := addStation p.joiners x }
  | .closing => p

/-- A JOIN of station x (R65). -/
def joinProbes (x : Nat) (s : State) : State :=
  setSlots (s.probes.slots.map (Option.map (joinSlot s x))) s

/-- The loop grade fell from 2 to 1 (R66). -/
def lowGrade (s : State) : State := modifyDriving (fun p => { p with lowGrade := true }) s

/-- The loop went DOWN (R67). -/
def loseLoop (s : State) : State := modifyDriving (fun p => { p with loopLost := true }) s

/-! ### LOOP RESET (R68) -/

/-- Marker lines return to idle marking for the circuits that slots hold. -/
def idleSlotLines (s : State) : State :=
  s.probes.slots.foldl (fun t o =>
    match o with
    | some p => idleMarking p.circuit t
    | none => t) s

/-- The kind is PROBE START or PROBE END. -/
def Payload.ofProbe (p : Payload) : Bool := p.kind == 7 || p.kind == 9

/-- Every slot cleared without evaluation, its requests and notices withdrawn (R68). -/
def clearSlots (s : State) : State :=
  changeLoop (fun l => { l with newNotices := l.newNotices.filter (!·.payload.ofProbe) })
    ((idleSlotLines s).setProbes probesReset)

/-! ### The deadline (R52) -/

/-- DEADLINE_EXPIRY: a DRIVING slot whose timer runs evaluates (R52, R54; log 3, log 4). -/
def execDeadlineExpiry (i : Nat) (s : State) : Host.Outcome State Fault Refusal :=
  match probeAt s i with
  | none => .next s
  | some p =>
    match p.phase, p.deadline with
    | .driving, some due => .next (evaluate i (advanceTo due s))
    | _, _ => .next s

end Sys2Proof.Machine
end

