-- ==== Sys2Proof/Machine/Roster.lean ====
section
/-! DEFINITION. The Roster Unit: presence, advertisements, miss runs, loop grade, joining (chapter 8). -/

namespace Sys2Proof.Machine

/-! ### Advertisements (R161) -/

/-- The station's own advertisement. -/
def ownAdvert (im : Image) : Advertisement :=
  if im.gradeLimit = 2 then ⟨2, true⟩ else ⟨1, false⟩

/-- An advertisement as it is recorded: a grade other than 2 counts as 1. -/
def recordedAdvert (grade : Nat) (batch : Bool) : Advertisement :=
  ⟨if grade = 2 then 2 else 1, batch⟩

/-! ### Loop grade and batching (R168, R169) -/

/-- The advertisements of the PRESENT entries. -/
def presentAdverts (es : List RosterEntry) : List (Option Advertisement) :=
  (es.filter (·.present)).map (·.advert)

/-- The grade an entry counts with: none recorded counts as 1. -/
def gradeOf (a : Option Advertisement) : Nat :=
  match a with
  | some x => x.grade
  | none => 1

/-- The loop grade of a roster (R168). -/
def loopGradeOf (es : List RosterEntry) : Nat :=
  match presentAdverts es with
  | [] => 1
  | a :: rest => rest.foldl (fun g x => min g (gradeOf x)) (gradeOf a)

/-- The batching permission of a roster (R168). -/
def batchingOf (es : List RosterEntry) : Bool :=
  presentAdverts es != [] && (presentAdverts es).all fun a => a.any (·.batch)

/-- A grade written, with its effects when it changes (R169). -/
def applyGrade (g : Nat) (s : State) : State :=
  if g = s.roster.grade then s
  else
    let s1 := raiseAlert .grade (s.setRoster { s.roster with grade := g })
    if g < s.roster.grade then lowGrade s1 else s1

/-- The loop grade and the batching permission recomputed (R168). -/
def recompute (s : State) : State :=
  applyGrade (loopGradeOf s.roster.entries)
    (s.setRoster { s.roster with batching := batchingOf s.roster.entries })

/-! ### Changes of presence (R165 to R167) -/

/-- An entry of another station changed to PRESENT (R165, R167). -/
def becomePresent (x : Nat) (s : State) : State :=
  retryUnsent x (raiseAlert .roster (recompute (modifyRoster x (fun e => { e with present := true }) s)))

/-- The miss run of a station returns to 0. -/
def clearMisses (x : Nat) (s : State) : State := modifyRoster x (fun e => { e with missRun := 0 }) s

/-- A received notice of another station is reported (R165). -/
def reportReceipt (x : Nat) (s : State) : State :=
  let s1 := clearMisses x s
  if isPresent s x then s1 else becomePresent x s1

/-- A miss run reached 3: the entry becomes ABSENT (R166, R167). -/
def becomeAbsent (x : Nat) (s : State) : State :=
  missingInTables x (absentStation x (raiseAlert .roster (recompute
    (modifyRoster x (fun e => { e with present := false }) s))))

/-- An incomplete delivery at station x (R166). -/
def raiseMisses (x : Nat) (s : State) : State :=
  let s1 := modifyRoster x (fun e => { e with missRun := e.missRun + 1 }) s
  if 3 ≤ (rosterAt s1 x).missRun then becomeAbsent x s1 else s1

/-- What one outcome does to the miss run of station x (R166). -/
def feedMiss (b : BestMarks) (attempts : Nat) (s : State) (x : Nat) : State :=
  if x = s.own ∨ !isPresent s x then s
  else if b.marked x then clearMisses x s
  else if attempts = Config.maxAttempts then raiseMisses x s
  else s

/-- The miss runs read an outcome that a delivery gave, in ascending station number (R152, R166, log 27). -/
def feedMisses (b : BestMarks) (attempts : Nat) (s : State) : State :=
  stationNumbers.foldl (feedMiss b attempts) s

/-! ### JOIN and PRESENT (R162 to R164) -/

/-- The advertisement of a dispatched JOIN or PRESENT recorded, with its presence (R163, R164). -/
def recordAdvert (x : Nat) (a : Advertisement) (s : State) : State :=
  modifyRoster x (fun e => { e with present := true, advert := some a, missRun := 0 }) s

/-- A PRESENT waits in the insertion queue, as a new notice or as a retry copy (R147, log 15). -/
def presentQueued (s : State) : Bool :=
  s.loop.newNotices.any (·.payload.kind == 2) ||
    s.loop.outstanding.any fun o => o.standing == .retryWaiting && o.request.payload.kind == 2

/-- A PRESENT waits, as a request or in the insertion queue (R163). -/
def presentWaits (s : State) : Bool := s.roster.presentRequest || presentQueued s

/-- A JOIN is answered by one PRESENT (R163). -/
def answerJoin (s : State) : State :=
  if s.roster.joined && !presentWaits s then s.setRoster { s.roster with presentRequest := true } else s

/-- The Roster Unit's part of a dispatched JOIN (R163, R167). -/
def joinRoster (x : Nat) (a : Advertisement) (s : State) : State :=
  let s1 := answerJoin (raiseAlert .roster (recompute (recordAdvert x a s)))
  if isPresent s x then s1 else retryUnsent x s1

/-- A dispatched PRESENT (R164, R167). -/
def takePresent (x : Nat) (a : Advertisement) (s : State) : State :=
  let s1 := recompute (recordAdvert x a s)
  if isPresent s x then s1 else retryUnsent x (raiseAlert .roster s1)

/-- REJOIN audits for the records whose baseline crosses station x (R119). -/
def rejoinAudits (x : Nat) (s : State) : State :=
  requestAudits ((s.paths.filter (·.crosses x)).map (·.circuit)) .routine .rejoin s

/-- A dispatched JOIN of station x, block by block (R163). -/
def takeJoin (x : Nat) (a : Advertisement) (s : State) : State :=
  rejoinAudits x (joinProbes x (joinWindows x (joinRoster x a s)))

/-- The outcome of the station's JOIN: JOINED, and its own entry PRESENT, its miss run 0 as ever (R160,
R162; log 10). -/
def joinOutcome (s : State) : State :=
  let s1 := modifyRoster s.own
    (fun e => { e with present := true, advert := some (ownAdvert s.image), missRun := 0 })
    (s.setRoster { s.roster with joined := true })
  let s2 := recompute s1
  if isPresent s s.own then s2 else raiseAlert .roster s2

/-! ### LOOP RESET (R171; log 15) -/

/-- No JOIN request stands after a LOOP RESET; the roster's other values are kept. -/
def resetRoster (s : State) : State := s.setRoster { s.roster with joinRequest := false }

/-- A PRESENT removed from the insertion queue by the own command is requested again. -/
def keepPresent (s : State) : State :=
  if presentQueued s then s.setRoster { s.roster with presentRequest := true } else s

end Sys2Proof.Machine
end

