-- ==== Sys2Proof/Machine/Scanner.lean ====
section
/-! DEFINITION. The Tag Scanner: dwells, sighting items, strays, loss monitors and span alarms
(chapter 2). -/

namespace Sys2Proof.Machine

def changeScanner (f : TagScanner → TagScanner) (s : State) : State := s.setScanner (f s.scanner)

/-! ### Dwell results (R26) -/

/-- Ascending circuit, then ascending epoch. -/
def tagBefore (a b : Tag) : Bool :=
  a.circuit < b.circuit || (a.circuit == b.circuit && a.epoch < b.epoch)

/-- A marking taken into the ordered list; one tag keeps the strongest level measured for it. -/
def insertTag (t : Tag) : List Tag → List Tag
  | [] => [t]
  | x :: rest =>
    if tagBefore t x then t :: x :: rest
    else if tagBefore x t then x :: insertTag t rest
    else { x with level := max x.level t.level } :: rest

/-- The markings found, without circuit 0, in the order of R26. -/
def orderedTags (found : List Tag) : List Tag :=
  (found.filter (·.circuit != 0)).foldl (fun l t => insertTag t l) []

/-- A dwell result (R26). -/
structure DwellResult where
  port     : Nat
  tags     : List Tag
  overflow : Bool
  deriving DecidableEq, Repr

/-- The result of a dwell on a port: the first 64 tags, and whether there were more. -/
def dwellResult (port : Nat) (found : List Tag) : DwellResult :=
  ⟨port, (orderedTags found).take Config.tagCapacity,
    Config.tagCapacity < (orderedTags found).length⟩

/-! ### Strays (R39 to R42) -/

/-- A port is in loss while its monitor is in any state other than CLEAR (R41). -/
def inLoss (s : State) (p : Nat) : Bool := s.scanner.monitors.getD p .clear != .clear

/-- The stray checks are suspended on a port (R41). -/
def straysSuspended (s : State) (p : Nat) : Bool := inLoss s p || inOwnWindow s p

/-- The stray latch of an entry set. -/
def setLatch (c : Nat) (s : State) : State := modifyHop c (fun e => { e with latch := true }) s

/-- A stray raised for an entry (R42). -/
def raiseStray (e : HopEntry) (k : StrayKind) (p : Nat) (s : State) : State :=
  if e.headStation = s.own then requestAudit e.circuit .routine .stray (setLatch e.circuit s)
  else if s.scanner.strays.length < Config.strayCapacity then
    setLatch e.circuit
      (changeScanner (fun x => { x with strays := x.strays ++ [⟨e.circuit, e.headStation, k, p⟩] }) s)
  else s

/-- An entry says that idle marking of its circuit does not belong on the port (R39). -/
def misplacedAt (im : Image) (e : HopEntry) (p : Nat) : Bool :=
  p != e.ingress && e.egress != some p &&
    !(e.role == .head && e.egress.isNone && (im.classAt p).isOut)

/-- A tag of epoch 0 on a port (R39). -/
def checkIdle (p : Nat) (t : Tag) (s : State) : State :=
  match findHop s.hops t.circuit with
  | none => s
  | some e =>
    if (findWatch s t.circuit).isNone && !straysSuspended s p && misplacedAt s.image e p && !e.latch then
      raiseStray e .misplaced p s
    else s

/-- The missing run after a dwell without the circuit (R40). -/
def raisedRun (n : Nat) : Nat := min 3 (n + 1)

/-- A missing run written. -/
def setMissing (c n : Nat) (s : State) : State := modifyHop c (fun e => { e with missing := n }) s

/-- A circuit that an overflowed list may hide: above the highest listed one (R40). -/
def maybeHidden (r : DwellResult) (c : Nat) : Bool := r.overflow && r.tags.all (·.circuit < c)

/-- The circuit was not seen on its ingress port (R40). -/
def countMissing (e : HopEntry) (p : Nat) (s : State) : State :=
  let s1 := setMissing e.circuit (raisedRun e.missing) s
  if raisedRun e.missing = 3 ∧ !e.latch then raiseStray e .missing p s1 else s1

/-- The missing run of the entry of a circuit after a dwell on its ingress port (R40, R41). -/
def updateMissing (r : DwellResult) (s : State) (c : Nat) : State :=
  match findHop s.hops c with
  | none => s
  | some e =>
    if straysSuspended s r.port then s
    else if r.tags.any (·.circuit == c) then setMissing c 0 s
    else if maybeHidden r c then s
    else countMissing e r.port s

/-! ### Sighting items (R34 to R36) -/

/-- The kind of an item (R35). -/
def itemKind (s : State) (m : Mode) (c p : Nat) : ItemKind :=
  if m = .census then .census
  else match findHop s.hops c with
    | none => .untracked
    | some e => if misplacedAt s.image e p then .unexpected else .expected

/-- The level class an item carries (R34). -/
def itemLevel (s : State) (level : Nat) : Nat := if s.roster.grade = 2 then level else 0

/-- The far end an item carries: the port table's, for LINE-OUT only (R34). -/
def itemFar (im : Image) (p : Nat) : Option (Nat × Nat) :=
  if im.classAt p = .lineOut then some ((im.portAt p).farStation, (im.portAt p).farPort) else none

/-- The item a tag forms on a port, for a probe of a mode (R34). -/
def formItem (s : State) (m : Mode) (p : Nat) (t : Tag) : Item :=
  ⟨t.circuit, t.epoch,
    ⟨s.own, p, s.image.classAt p, itemKind s m t.circuit p, itemLevel s t.level, itemFar s.image p⟩⟩

/-- A watch entry reports a port. -/
def reportPort (w : WatchEntry) (p : Nat) (s : State) : State :=
  changeScanner (fun x =>
    { x with watch := putWatch x.watch { w with reported := addPort w.reported p } }) s

/-- An item for a watch entry goes to the backlog, or is dropped when it is full (R36). -/
def backlogItem (w : WatchEntry) (p : Nat) (t : Tag) (s : State) : State :=
  if s.scanner.backlog.length < Config.backlogCapacity then
    reportPort w p
      (changeScanner (fun x => { x with backlog := x.backlog ++ [formItem s w.mode p t] }) s)
  else s

/-- A tag of a probe epoch that no own slot drives (step 2 of R35). -/
def watchTag (p : Nat) (t : Tag) (s : State) : State :=
  match findWatch s t.circuit with
  | none => s
  | some w => if w.epoch = t.epoch ∧ !portIn w.reported p then backlogItem w p t s else s

/-- A tag of a probe epoch (R35, R36). -/
def classifyProbe (p : Nat) (t : Tag) (s : State) : State :=
  match (drivingSlot s t.circuit t.epoch).bind (probeAt s) with
  | some pr => offerItem (formItem s pr.mode p t) s
  | none => watchTag p t s

/-- One listed tag (pass 1 of R27). -/
def classifyTag (p : Nat) (s : State) (t : Tag) : State :=
  if t.epoch = 0 then checkIdle p t s else classifyProbe p t s

/-- The circuits of the entries whose ingress port is p, in ascending number. -/
def enteringAt (s : State) (p : Nat) : List Nat := (s.hops.filter (·.ingress == p)).map (·.circuit)

/-- The two passes of R27. -/
def handleDwell (r : DwellResult) (s : State) : State :=
  let s1 := r.tags.foldl (classifyTag r.port) s
  (enteringAt s1 r.port).foldl (updateMissing r) s1

/-! ### The walk (R25, R28) -/

/-- The port after the latest walk port, ascending and round. -/
def nextWalkPort (im : Image) (last : Option Nat) : Option Nat :=
  match last with
  | none => im.dwelled.head?
  | some p => (im.dwelled.find? (p < ·)) <|> im.dwelled.head?

/-- A dwell begun on a port, out of turn or by the walk. -/
def startDwell (p : Nat) (outOfTurn : Bool) (s : State) : State :=
  changeScanner (fun x => { x with
    walkPort := if outOfTurn then x.walkPort else some p
    dwell := some ⟨p, outOfTurn, outOfTurn, s.now + dwellMs s.image.dwellCode⟩ }) s

/-- The next dwell: on the requested port, or by the walk (R25, R28). -/
def beginDwell (s : State) : State :=
  match s.scanner.request with
  | some p => startDwell p true (changeScanner (fun x => { x with request := none }) s)
  | none =>
    match nextWalkPort s.image s.scanner.walkPort with
    | some p => startDwell p false s
    | none => s

/-- The state of a port's monitor, for a LINE-IN port (R26). -/
def monitorState (s : State) (p : Nat) : Option LossState :=
  if s.image.classAt p = .lineIn then
    match s.scanner.monitors.getD p .clear with
    | .clear => some .clear
    | .lossPending _ => some .lossPending
    | .loss => some .loss
    | .clearPending _ => some .clearPending
  else none

/-- The result of an out-of-turn dwell becomes the response to READ PORT (R28). -/
def answerDwell (d : Dwell) (r : DwellResult) (s : State) : State :=
  if d.wanted then
    s.setCtl { s.ctl with
      response := some ⟨.done, 0x34, .dwell r.port r.tags r.overflow (monitorState s r.port)⟩ }
  else s

/-- The watch entries whose expiry time is reached are removed (R33). -/
def dropExpired (s : State) : State :=
  changeScanner (fun x => { x with watch := x.watch.filter fun w => decide (s.now < w.expiry) }) s

/-- A dwell ends: its result is handled and answered, and the next dwell begins (R27, R28). An entry that
expired during the dwell applies to none of its tags, whether its WATCH_EXPIRY was taken before or not. -/
def endDwell (d : Dwell) (found : List Tag) (s : State) : State :=
  let r := dwellResult d.port found
  beginDwell (answerDwell d r (handleDwell r (dropExpired (advanceTo d.ends s))))

/-- DWELL_END (R27). -/
def execDwellEnd (found : List Tag) (s : State) : Host.Outcome State Fault Refusal :=
  match s.scanner.dwell with
  | some d => .next (endDwell d found s)
  | none => .next s

/-! ### Loss monitors and span alarms (R43 to R45) -/

/-- An alarm of the pending list that a new one replaces (R45). -/
def Alarm.replacedBy (old new : Alarm) : Bool :=
  if new.kind = .test then old.kind == .test
  else old.kind != .test && old.span.port == new.span.port

/-- An alarm joins the pending alarm list, or replaces one in its place (R45). -/
def pendAlarm (a : Alarm) (s : State) : State :=
  changeScanner (fun x => { x with
    alarms :=
      if x.alarms.any (·.replacedBy a) then
        x.alarms.map fun b => if b.replacedBy a then a else b
      else x.alarms ++ [a] }) s

/-- A span alarm of a LINE-IN port, suppressed inside a window of this station (R44). -/
def raiseSpanAlarm (k : AlarmKind) (p : Nat) (s : State) : State :=
  if inOwnWindow s p then s else pendAlarm ⟨k, ⟨s.own, p⟩⟩ s

def setMonitor (p : Nat) (m : LossMonitor) (s : State) : State :=
  changeScanner (fun x => { x with monitors := x.monitors.set p m }) s

/-- The hold-off in ms (section 2.6). -/
def holdOffMs (im : Image) : Nat := im.holdOffCode * 50

/-- A monitor enters LOSS (R44). -/
def enterLoss (p : Nat) (s : State) : State := raiseSpanAlarm .loss p (setMonitor p .loss s)

/-- A monitor enters CLEAR from CLEAR-PENDING (R44). -/
def enterClear (p : Nat) (s : State) : State := raiseSpanAlarm .restore p (setMonitor p .clear s)

/-- A monitor takes its input asserted (R43). -/
def monitorAsserted (p : Nat) (s : State) : State :=
  match s.scanner.monitors.getD p .clear with
  | .clear =>
    if holdOffMs s.image = 0 then enterLoss p s
    else setMonitor p (.lossPending (s.now + holdOffMs s.image)) s
  | .clearPending _ => setMonitor p .loss s
  | .lossPending _ | .loss => s

/-- A monitor takes its input released (R43). -/
def monitorReleased (p : Nat) (s : State) : State :=
  match s.scanner.monitors.getD p .clear with
  | .loss =>
    if holdOffMs s.image = 0 then enterClear p s
    else setMonitor p (.clearPending (s.now + holdOffMs s.image)) s
  | .lossPending _ => setMonitor p .clear s
  | .clear | .clearPending _ => s

/-- The port has a loss monitor that runs (R43). -/
def monitorRuns (s : State) (p : Nat) : Bool :=
  s.runState == .running && s.image.classAt p == .lineIn

/-- LOSS_INPUT_ASSERTED: the pin, and its monitor where one runs (R43). -/
def execLossInputAsserted (p : Nat) (s : State) : Host.Outcome State Fault Refusal :=
  let s1 := s.setLossInputs (addPort s.lossInputs p)
  .next (if monitorRuns s p then monitorAsserted p s1 else s1)

/-- LOSS_INPUT_RELEASED: the pin, and its monitor where one runs (R43). -/
def execLossInputReleased (p : Nat) (s : State) : Host.Outcome State Fault Refusal :=
  let s1 := s.setLossInputs (removePort s.lossInputs p)
  .next (if monitorRuns s p then monitorReleased p s1 else s1)

/-- HOLD_OFF_EXPIRY: a PENDING monitor moves on (R43; log 3, log 4). -/
def execHoldOffExpiry (p : Nat) (s : State) : Host.Outcome State Fault Refusal :=
  match s.scanner.monitors.getD p .clear with
  | .lossPending due => .next (enterLoss p (advanceTo due s))
  | .clearPending due => .next (enterClear p (advanceTo due s))
  | .clear | .loss => .next s

/-! ### The watch list (R31 to R33) -/

/-- A PROBE START can be taken (R31). -/
def canWatch (s : State) : Bool :=
  s.scanner.watch.length + s.loop.receive.countP (·.payload.kind == 7) < Config.watchCapacity

/-- The watch entry a dispatched PROBE START writes (R32). -/
def watchOf (c e head : Nat) (m : Mode) (deadlineCode receivedAt : Nat) : WatchEntry :=
  { circuit := c, epoch := e, head := head, mode := m
    expiry := receivedAt + deadlineMs deadlineCode + Config.watchGraceMs, reported := 0 }

/-- The watch entry written, any entry of the circuit replaced (R32). -/
def writeWatch (w : WatchEntry) (s : State) : State :=
  changeScanner (fun x => { x with watch := putWatch x.watch w }) s

/-- WATCH_EXPIRY: the entry is removed and nothing is reported (R33; log 3, log 4). -/
def execWatchExpiry (c : Nat) (s : State) : Host.Outcome State Fault Refusal :=
  match findWatch s c with
  | some w => .next (dropWatch c (advanceTo w.expiry s))
  | none => .next s

/-! ### LOOP RESET (R46) -/

def resetScanner (s : State) : State := changeScanner (fun x => { x with watch := [], backlog := [] }) s

end Sys2Proof.Machine
end

