-- ==== Sys2Proof/Machine/Delivery.lean ====
section
/-! DEFINITION. Delivery of the station's own notices: attempts, outcomes, loop state (sections 7.5, 7.6). -/

namespace Sys2Proof.Machine

/-! ### The outstanding list (R150) -/

/-- The outstanding entry of a notice number. -/
def findEntry (s : State) (n : Nat) : Option Outstanding := s.loop.outstanding.find? (·.number == n)

/-- One entry changed in place. -/
def modifyEntry (n : Nat) (f : Outstanding → Outstanding) (s : State) : State :=
  changeLoop (fun l => { l with
    outstanding := l.outstanding.map fun o => if o.number = n then f o else o }) s

/-- The entry becomes LINGERING and its retry copy leaves the insertion queue (R150, R152). -/
def linger (n : Nat) (s : State) : State :=
  changeLoop (fun l => { l with
    retries := l.retries.erase n
    outstanding := l.outstanding.map fun o =>
      if o.number = n then { o with standing := .lingering } else o }) s

/-- A lingering entry is over: every copy returned, or 20 ms passed (R152). -/
def Outstanding.over (o : Outstanding) (now : Nat) : Bool :=
  o.standing == .lingering && (o.transmitted ≤ o.returned || o.lastSent + Config.returnMs ≤ now)

/-- The entries of a number that are over leave the list (R152). -/
def leaveOutstanding (n : Nat) (s : State) : State :=
  changeLoop (fun l => { l with
    outstanding := l.outstanding.filter fun o => !(o.number == n && o.over s.now) }) s

/-! ### Outcomes (R152) -/

/-- How the attempts on a notice ended. -/
inductive Ending where
  | delivered | failed | reset
  deriving DecidableEq, Repr

/-- No best mark. -/
def noMarks : BestMarks := ⟨0, 0⟩

/-- The best marks an outcome carries: none for FAILED (R153). -/
def Ending.marks (e : Ending) (b : BestMarks) : BestMarks := if e = .failed then noMarks else b

/-- The requesting block takes the outcome of its notice (R152). -/
def handOutcome (r : Request) (e : Ending) (b : BestMarks) (s : State) : State :=
  match r.payload with
  | .probeStart c ep _ _ => startOutcome c ep b (e == .failed) s
  | .probeEnd c ep _ _ => endOutcome c ep s
  | .windowOpen ser _ => if r.purpose = .own then openOutcome ser b s else s
  | .windowClose ser => closeOutcome ser b s
  | .tally ser _ => if r.purpose = .own then tallyOutcome ser b s else s
  | .join _ _ => joinOutcome s
  | .loopReset => s.setLoop { s.loop with quarantine := false }
  | .windowCancel _ | .present _ _ | .sighting _ | .stray _ _ _ _ | .spanAlarm _ _ => s

/-- The miss runs read the outcome of a delivery, and no other outcome (R166). -/
def feedOutcome (e : Ending) (b : BestMarks) (attempts : Nat) (s : State) : State :=
  if e = .delivered then feedMisses b attempts s else s

/-- The outcome of an entry is given: the block first, then the miss runs (R152; log 9). -/
def giveOutcome (o : Outstanding) (e : Ending) (s : State) : State :=
  let b := e.marks o.best
  leaveOutstanding o.number
    (feedOutcome e b o.attempts (handOutcome o.request e b (linger o.number s)))

/-! ### Attempts (R150, R151) -/

/-- The entry waits for its retry, and its retry copy stands behind the earlier ones (R151). -/
def waitRetry (n : Nat) (s : State) : State :=
  changeLoop (fun l => { l with
    retries := l.retries ++ [n]
    outstanding := l.outstanding.map fun o =>
      if o.number = n then { o with standing := .retryWaiting } else o }) s

/-- An attempt ends (R151). -/
def endAttempt (o : Outstanding) (s : State) : State :=
  if unmarkedPresent s o.best = 0 ∨ Config.maxAttempts ≤ o.attempts then giveOutcome o .delivered s
  else waitRetry o.number s

/-- The marks a returning copy carries; the own position counts as none (R137, R150). -/
def copyMarks (own : Nat) (accept : BitVec 48) : BestMarks :=
  ⟨stationsWith fun n => n != own && markOf accept n == 1,
   stationsWith fun n => n != own && markOf accept n == 2⟩

/-- Marks merged: TAKEN over REFUSED over none. -/
def BestMarks.merge (a b : BestMarks) : BestMarks := ⟨a.taken ||| b.taken, a.refused ||| b.refused⟩

/-- An entry with a returned copy (R150). -/
def Outstanding.returning (o : Outstanding) (m : BestMarks) : Outstanding :=
  { o with best := o.best.merge m, returned := o.returned + 1 }

/-- What a return brings, by the standing of the entry (R150). -/
def afterReturn (o : Outstanding) (s : State) : State :=
  match o.standing with
  | .inFlight => endAttempt o s
  | .retryWaiting => if unmarkedPresent s o.best = 0 then giveOutcome o .delivered s else s
  | .lingering => leaveOutstanding o.number s

/-- A copy of an outstanding notice returns (R150). -/
def returnCopy (o : Outstanding) (m : BestMarks) (s : State) : State :=
  afterReturn (o.returning m) (modifyEntry o.number (·.returning m) s)

/-- RETURN_TIMEOUT: an IN FLIGHT attempt ends without its copy (R150; log 3, log 4). -/
def execReturnTimeout (n : Nat) (s : State) : Host.Outcome State Fault Refusal :=
  match findEntry s n with
  | none => .next s
  | some o =>
    if o.standing = .inFlight then
      .next (endAttempt o (advanceTo (o.lastSent + Config.returnMs) s))
    else .next s

/-- LINGER_END: a lingering entry leaves the list (R152; log 3, log 4). -/
def execLingerEnd (n : Nat) (s : State) : Host.Outcome State Fault Refusal :=
  match findEntry s n with
  | none => .next s
  | some o =>
    if o.standing = .lingering then .next (leaveOutstanding n (advanceTo (o.lastSent + Config.returnMs) s))
    else .next s

/-! ### Loop state (R153, R154) -/

/-- The entry's outcome is still open. -/
def Outstanding.active (o : Outstanding) : Bool := o.standing != .lingering

/-- The active entries that meet a condition end, oldest first (R153, R155, R157, log 27). -/
def endEntries (e : Ending) (p : Outstanding → Bool) (s : State) : State :=
  (s.loop.outstanding.filter fun o => o.active && p o).foldl (fun t o => giveOutcome o e t) s

/-- The loop becomes DOWN (R153, R67). -/
def loopDown (s : State) : State :=
  endEntries .failed (fun _ => true)
    (raiseAlert .loop (loseLoop (changeLoop (fun l => { l with up := false, silence := none }) s)))

/-- SILENCE_TIMEOUT: the silence timer runs out while the loop is UP (R153; log 3, log 4). -/
def execSilenceTimeout (s : State) : Host.Outcome State Fault Refusal :=
  match s.loop.silence with
  | some due => if s.loop.up then .next (loopDown (advanceTo due s)) else .next s
  | none => .next s

/-- A reception: the timer restarts, and a DOWN loop becomes UP (R153, R154). -/
def takeReception (s : State) : State :=
  let s1 := changeLoop (fun l => { l with up := true, silence := some (s.now + Config.silenceMs) }) s
  if s.loop.up then s1 else raiseAlert .loop s1

end Sys2Proof.Machine
end

