-- ==== Sys2Proof/Machine/Loop.lean ====
section
/-! DEFINITION. The Loop Port: receipt, marks, acceptance records, transmitter, grants, LOOP RESET
(sections 7.1 to 7.4, 7.7). -/

namespace Sys2Proof.Machine

/-! ### Acceptance records (R141) -/

/-- How many numbers m lies before n, modulo 256. -/
def distanceBefore (n m : Nat) : Nat := (n + 256 - m) % 256

/-- The notice repeats one that was taken here (R141). -/
def isRepeat (rec : Option Acceptance) (m : Nat) (isJoin : Bool) : Bool :=
  match rec with
  | none => false
  | some a =>
    let d := distanceBefore a.last m
    if isJoin then d == 0 && a.wasJoin
    else d == 0 || (d ≤ 31 && a.taken.getLsbD d)

/-- The record after a notice other than a JOIN is taken (R141). -/
def takeNumber (rec : Option Acceptance) (m : Nat) : Acceptance :=
  match rec with
  | none => ⟨m, false, 0⟩
  | some a =>
    let d := distanceBefore a.last m
    if 1 ≤ d ∧ d ≤ 31 then { a with taken := a.taken ||| BitVec.twoPow 32 d }
    else ⟨m, false, (a.taken ||| 1#32) <<< distanceBefore m a.last⟩

/-- The record after a new notice is taken (R141). -/
def recordTaken (rec : Option Acceptance) (m : Nat) (isJoin : Bool) : Acceptance :=
  if isJoin then ⟨m, true, 0⟩ else takeNumber rec m

def setAcceptance (x : Nat) (a : Option Acceptance) (s : State) : State :=
  modifyRoster x (fun e => { e with acceptance := a }) s

/-! ### Marks (R142) -/

/-- The answers of R142, in its order. -/
inductive Answer where
  | repeated | refused | noRoom | taken
  deriving DecidableEq, Repr

/-- The mark of an answer: 1 TAKEN, 2 REFUSED, 0 none. -/
def Answer.mark : Answer → Nat
  | .repeated | .taken => 1
  | .refused => 2
  | .noRoom => 0

/-- The notice is a JOIN. -/
def Payload.isJoin (p : Payload) : Bool := p.kind == 1

/-- A capacity answer of REFUSED (R31, R94). -/
def refusesCapacity (s : State) (p : Payload) : Bool :=
  match p with
  | .probeStart _ _ _ _ => !canWatch s
  | .windowOpen ser _ => (findWindow s ser).isNone && windowsFull s
  | _ => false

/-- The answer to a notice of station x (R142). -/
def answerTo (s : State) (x m : Nat) (p : Payload) : Answer :=
  if isRepeat (rosterAt s x).acceptance m p.isJoin then .repeated
  else if refusesCapacity s p then .refused
  else if Config.noticeCapacity ≤ s.loop.receive.length then .noRoom
  else .taken

/-- The notice joins the tail of the receive queue (R143). -/
def enqueueReceived (x m : Nat) (p : Payload) (s : State) : State :=
  s.setLoop { s.loop with receive := s.loop.receive ++ [⟨x, m, p, s.now⟩] }

/-- What an answer changes: the acceptance record and the receive queue (R141, R142). -/
def applyAnswer (x m : Nat) (p : Payload) (a : Answer) (s : State) : State :=
  match a with
  | .repeated | .refused => s
  | .noRoom => if p.isJoin then setAcceptance x none s else s
  | .taken =>
    enqueueReceived x m p
      (setAcceptance x (some (recordTaken (rosterAt s x).acceptance m p.isJoin)) s)

/-! ### Forwarding (R139) -/

/-- The copy as it is passed on without a mark: hop count raised (R139, R144, R197). -/
def Copy.passOn (c : Copy) : Copy := { c with hops := c.hops + 1 }

/-- The copy as it is passed on with the mark of station `own`, none among them, which overwrites the
position whatever it held (R139, R142, R197). -/
def Copy.passMarked (c : Copy) (own mark : Nat) : Copy :=
  { c.passOn with accept := writeMark c.accept own mark }

/-- A copy joins the tail of the forward buffer. -/
def forwardCopy (c : Copy) (s : State) : State :=
  s.setLoop { s.loop with forward := s.loop.forward ++ [c] }

/-- The forward buffer holds 8 notices. -/
def forwardFull (s : State) : Bool := Config.noticeCapacity ≤ s.loop.forward.length

/-- The copy carries one of the twelve kinds, well formed (R197). -/
def Copy.notice (c : Copy) : Option Payload := decodePayload c.kind.toNat c.payload

/-- Step 6 of R139. -/
def acceptNotice (c : Copy) (s : State) : State :=
  match c.notice with
  | none => forwardCopy c.passOn s
  | some p =>
    let x := c.originator.toNat
    let a := answerTo s x c.number.toNat p
    reportReceipt x (forwardCopy (c.passMarked s.own a.mark) (applyAnswer x c.number.toNat p a s))

/-- A LOOP RESET of another station in quarantine: marked TAKEN, recorded, not dispatched (R156). -/
def passReset (c : Copy) (s : State) : State :=
  let x := c.originator.toNat
  let m := c.number.toNat
  let s1 :=
    if isRepeat (rosterAt s x).acceptance m false then s
    else setAcceptance x (some (takeNumber (rosterAt s x).acceptance m)) s
  reportReceipt x (forwardCopy (c.passMarked s.own 1) s1)

/-- Step 4 of R139 (R156). A copy of kind 0Ch that is not well formed is no LOOP RESET here (log 30). -/
def quarantined (c : Copy) (s : State) : State :=
  match c.notice with
  | some .loopReset => if forwardFull s then s else passReset c s
  | _ => s

/-- The copy carries a payload: its kind, and its bytes but for the bits that no layout assigns (R140,
R197). -/
def Copy.carries (c : Copy) (p : Payload) : Bool :=
  (c.kind == byte p.kind && c.payload == p.bytes) || c.notice == some p

/-- A returning notice of the station's own is stripped (R140). -/
def stripOwn (c : Copy) (s : State) : State :=
  match findEntry s c.number.toNat with
  | none => setFault .idClash s
  | some o =>
    if c.carries o.request.payload then returnCopy o (copyMarks s.own c.accept) s
    else setFault .idClash s

/-- The steps of R139. -/
def takeCopy (c : Copy) (s : State) : State :=
  if c.originator.toNat = s.own then stripOwn c s
  else if !stationOk c.originator.toNat then s
  else if 23 ≤ c.hops.toNat then s
  else if s.loop.quarantine then quarantined c s
  else if forwardFull s then s
  else acceptNotice c s

/-- Forwarding in PASSIVE: hop count raised, unmarked and undispatched (R144). -/
def passiveCopy (c : Copy) (s : State) : State :=
  if 23 ≤ c.hops.toNat ∨ forwardFull s then s else forwardCopy c.passOn s

/-- A copy that passed the check is a reception, then handled under the run state (R139, R144, R153). -/
def receiveCopy (c : Copy) (s : State) : State :=
  if s.runState = .running then takeCopy c (takeReception s) else passiveCopy c (takeReception s)

/-- The stream passed on unchanged (R144). -/
def bypass (bytes : List Byte) (s : State) : State := s.setLoop { s.loop with sending := .passed bytes }

/-- NOTICE_RECEIVED (R138, R139, R144). A byte 00h in the kind position is idle fill (R196, log 14). -/
def execNoticeReceived (bytes : List Byte) (s : State) : Host.Outcome State Fault Refusal :=
  if s.runState = .starting then .next (bypass bytes s)
  else if bytes.head? = some 0 then .next (takeReception s)
  else match parseCopy bytes with
    | some c => .next (receiveCopy c s)
    | none => .next s

/-- IDLE_FILL_RECEIVED (R138, R144, R153, R154). -/
def execIdleFillReceived (s : State) : Host.Outcome State Fault Refusal :=
  if s.runState = .starting then .next (bypass [0] s) else .next (takeReception s)

/-! ### The transmitter (R145, R146, R148) -/

/-- The head of the insertion queue may go out: it may be sent and the forward buffer has room (R145). -/
def mayInsert (l : LoopPort) : Bool := l.headSendable && l.forward.length < Config.noticeCapacity

/-- An insertion goes before the forward buffer (R146). -/
def insertionDue (l : LoopPort) : Bool := mayInsert l && Config.fairnessLimit ≤ l.fairness

/-- The oldest forwarded notice is sent; the count rises while a sendable insertion waits (R146). -/
def sendForward (c : Copy) (rest : List Copy) (l : LoopPort) : LoopPort :=
  { l with forward := rest, sending := .copy c, fairness := if l.headSendable then l.fairness + 1 else 0 }

/-- An entry transmitted once more (R151). -/
def Outstanding.resent (o : Outstanding) (now : Nat) : Outstanding :=
  { o with
    attempts := o.attempts + 1, standing := .inFlight, transmitted := o.transmitted + 1, lastSent := now }

/-- A retry copy is sent: the notice as the originator sends every copy (R137, R151). -/
def sendRetry (own now : Nat) (o : Outstanding) (l : LoopPort) : LoopPort :=
  { l with
    retries := l.retries.tail
    outstanding := l.outstanding.map fun x => if x.number = o.number then x.resent now else x
    sending := .copy (originalCopy own o.number o.request.payload)
    fairness := 0 }

/-- The entry of a first transmission (R150). -/
def firstSent (r : Request) (number now : Nat) : Outstanding :=
  { request := r, number := number, attempts := 1, standing := .inFlight, best := noMarks
    transmitted := 1, returned := 0, lastSent := now }

/-- A new notice is sent: it takes its number and its outstanding entry (R148, R150). -/
def sendNew (own now : Nat) (r : Request) (rest : List Request) (l : LoopPort) : LoopPort :=
  { l with
    newNotices := rest
    outstanding := l.outstanding ++ [firstSent r l.number now]
    number := (l.number + 1) % 256
    sending := .copy (originalCopy own l.number r.payload)
    fairness := 0 }

/-- Nothing to send. -/
def sendIdle (l : LoopPort) : LoopPort := { l with sending := .idleFill }

/-- The head of the insertion queue is sent. -/
def sendInsertion (own now : Nat) (l : LoopPort) : LoopPort :=
  match l.retries with
  | n :: _ =>
    match l.outstanding.find? (·.number == n) with
    | some o => sendRetry own now o l
    | none => sendIdle { l with retries := l.retries.tail }
  | [] =>
    match l.newNotices with
    | r :: rest => sendNew own now r rest l
    | [] => sendIdle l

/-- The transmitter's choice in RUNNING (R145, R146). -/
def chooseNext (own now : Nat) (l : LoopPort) : LoopPort :=
  match l.forward with
  | c :: rest => if insertionDue l then sendInsertion own now l else sendForward c rest l
  | [] => if mayInsert l then sendInsertion own now l else sendIdle l

/-- The transmitter's choice in PASSIVE: the forward buffer and idle fill (R144). -/
def choosePassive (l : LoopPort) : LoopPort :=
  match l.forward with
  | c :: rest => { l with forward := rest, sending := .copy c }
  | [] => sendIdle l

/-- TRANSMIT_COMPLETE (R145). In bypass the station transmits nothing of its own (R144). -/
def execTransmitComplete (s : State) : Host.Outcome State Fault Refusal :=
  match s.runState with
  | .starting => .next s
  | .passive => .next (s.setLoop (choosePassive s.loop))
  | .running => .next (changeLoop (chooseNext s.own s.now) s)

/-! ### Grants (R147) -/

/-- A claimant of a place. -/
inductive Claim where
  | alarm (a : Alarm)
  | probe (r : Request)
  | sighting (items : List Item)
  | window (r : Request)
  | stray (x : Stray)
  | join
  | present
  deriving DecidableEq, Repr

/-- The items the next SIGHTING carries (R37, R38). -/
def sightingItems (s : State) : List Item :=
  s.scanner.backlog.take (if s.roster.batching then s.image.batchLimit else 1)

/-- The Roster Unit's claim. -/
def rosterClaim (s : State) : Option Claim :=
  if s.roster.joinRequest then some .join
  else if s.roster.presentRequest then some .present
  else none

/-- The oldest PROBE END request, else the oldest PROBE START request. -/
def probeClaim (s : State) : Option Claim :=
  ((s.probes.requests.find? (·.payload.kind == 9)) <|>
    (s.probes.requests.find? (·.payload.kind == 7))).map .probe

/-- The reporter's claim (R37). -/
def sightingClaim (s : State) : Option Claim :=
  if s.scanner.backlog = [] then none else some (.sighting (sightingItems s))

/-- The first waiting claimant in the order of R147; while JOINING only JOIN and PRESENT. A LOOP RESET
does not wait (R147). -/
def nextClaim (s : State) : Option Claim :=
  if s.roster.joined then
    s.scanner.alarms.head?.map .alarm <|> probeClaim s <|> sightingClaim s <|>
      (eligibleRequest s).map .window <|> s.scanner.strays.head?.map .stray <|> rosterClaim s
  else rosterClaim s

/-- The notice of a claim. -/
def claimNotice (s : State) : Claim → Request
  | .alarm a => ⟨.spanAlarm a.kind a.span, .own⟩
  | .probe r => r
  | .sighting items => ⟨.sighting items, .own⟩
  | .window r => r
  | .stray x => ⟨.stray x.circuit x.head x.kind.code x.port, .own⟩
  | .join => ⟨.join (ownAdvert s.image).grade (ownAdvert s.image).batch, .own⟩
  | .present => ⟨.present (ownAdvert s.image).grade (ownAdvert s.image).batch, .own⟩

/-- The claim leaves its block. -/
def takeClaim (c : Claim) (s : State) : State :=
  match c with
  | .alarm _ => changeScanner (fun x => { x with alarms := x.alarms.tail }) s
  | .probe r => s.setProbes { s.probes with requests := s.probes.requests.erase r }
  | .sighting items => changeScanner (fun x => { x with backlog := x.backlog.drop items.length }) s
  | .window r => takeWindowRequest r s
  | .stray _ => changeScanner (fun x => { x with strays := x.strays.tail }) s
  | .join => s.setRoster { s.roster with joinRequest := false }
  | .present => s.setRoster { s.roster with presentRequest := false }

/-- A place of the insertion queue is free in a RUNNING station. -/
def placeFree (s : State) : Bool :=
  s.runState == .running && s.loop.newNotices.length < Config.noticeCapacity

/-- A place is granted to a claim. -/
def grant (c : Claim) (s : State) : State :=
  changeLoop (fun l => { l with newNotices := l.newNotices ++ [claimNotice s c] }) (takeClaim c s)

/-- INSERTION_PLACE_GRANT (R147). -/
def execInsertionPlaceGrant (s : State) : Host.Outcome State Fault Refusal :=
  if placeFree s then
    match nextClaim s with
    | some c => .next (grant c s)
    | none => .next s
  else .next s

/-! ### LOOP RESET (R155, R157) -/

/-- The effects of a LOOP RESET on the blocks other than the Loop Port (R21, R46, R68, R114, R135, R171,
R182). -/
def resetBlocks (s : State) : State :=
  raiseAlert .reset (resetRoster
    (resetWindows (resetScanner (resetPaths (clearSlots (resetScheduler s))))))

/-- WINDOW OPEN, CANCEL, CLOSE, TALLY, PROBE START, SIGHTING and PROBE END (R155, R157). -/
def Payload.cleared (p : Payload) : Bool := 3 ≤ p.kind && p.kind ≤ 9

/-- The Loop Port at the station's own LOOP RESET command (R155). -/
def resetLoopOwn (s : State) : State :=
  let s1 := s.setLoop { s.loop with newNotices := [], retries := [] }
  let s2 := endEntries .reset (fun _ => true) s1
  s2.setLoop { s2.loop with
    receive := s2.loop.receive.filter fun r => !(r.payload.cleared || r.payload.kind == 12)
    newNotices := [⟨.loopReset, .own⟩]
    fairness := 0
    quarantine := true }

/-- A LOOP RESET command that is taken (R155). -/
def ownLoopReset (s : State) : State := resetLoopOwn (resetBlocks (keepPresent s))

/-- The Loop Port at a dispatched LOOP RESET (R157). -/
def resetLoopDispatched (s : State) : State :=
  endEntries .reset (·.request.payload.cleared)
    (changeLoop (fun l => { l with newNotices := l.newNotices.filter (!·.payload.cleared) }) s)

/-- A dispatched LOOP RESET (R157). -/
def takeLoopReset (s : State) : State := resetLoopDispatched (resetBlocks s)

end Sys2Proof.Machine
end

