-- ==== Sys2Proof/Machine/Responses.lean ====
section
/-! DEFINITION. What the reading commands return, and the bytes of responses and report records
(R71, R113, R134, R158, R170, R175, R198, section 11.4). -/

namespace Sys2Proof.Machine

/-! ### Response data from the state (R71, R134, R158, R170, R175) -/

/-- A slot as STATUS shows it (R71). -/
def slotView (p : Probe) : SlotView :=
  { phase := p.phase, circuit := p.circuit, epoch := p.epoch, mode := p.mode
    records := p.pool.length, overlap := p.overlap, poolShort := p.poolShort
    loopLost := p.loopLost, absentLost := p.absentLost, lowGrade := p.lowGrade }

/-- A run as STATUS shows it (R134). -/
def runView (r : Run) : RunView :=
  { span := r.span, entries := r.entries.length
    waiting := r.countStanding .waiting, launched := r.countStanding .launched
    survived := r.countVerdicts Verdict.survived, broken := r.countVerdicts Verdict.countsBroken
    incomplete := r.countVerdicts (· == .incomplete)
    handedOn := r.countStanding .handedOn, deferred := r.countStanding .deferred }

/-- An outstanding entry as STATUS shows it (R158). -/
def outstandingView (o : Outstanding) : OutstandingView :=
  ⟨o.request.payload.kind, o.number, o.standing, o.attempts⟩

/-- The STATUS response (R175). -/
def statusData (s : State) : StatusData :=
  { station := s.own, runState := s.runState, finding := s.finding, joined := s.roster.joined
    alerts := s.ctl.alerts, masks := s.ctl.masks, faults := s.ctl.faults
    reports := s.ctl.queue.length, nextReport := s.ctl.reportNumber
    coalescing := s.ctl.coalescing.isSome
    watches := s.scanner.watch.length, backlog := s.scanner.backlog.length
    strays := s.scanner.strays.length, alarms := s.scanner.alarms.length
    slots := s.probes.slots.map (Option.map slotView), freeRecords := freeRecords s
    current := s.sched.current.map fun r => (r.span, r.cause)
    stackDepth := s.sched.stack.length, admission := s.sched.admission, shadow := s.sched.shadow
    censusCount := s.sched.census.length, routineCount := s.sched.routine.length
    runs := (allRuns s).map runView
    loopUp := s.loop.up, quarantine := s.loop.quarantine, nextNumber := s.loop.number
    forward := s.loop.forward.length, receive := s.loop.receive.length
    newNotices := s.loop.newNotices.length, retries := s.loop.retries.length
    outstanding := s.loop.outstanding.map outstandingView }

/-- The READ ROSTER response (R170). -/
def rosterData (s : State) : RosterData :=
  { station := s.own, joined := s.roster.joined, grade := s.roster.grade, batching := s.roster.batching
    entries := s.roster.entries.map fun e =>
      (e.present, e.advert, e.missRun, e.acceptance.map (·.last)) }

/-- Settle time left (R113). -/
def settleLeft (now : Nat) (w : Window) : Nat :=
  match w.settle with
  | .running due => due - now
  | .stopped | .expired => 0

/-- The READ WINDOWS response (R113). -/
def windowsData (s : State) : List (Window × Nat) := s.windows.list.map fun w => (w, settleLeft s.now w)

/-! ### Codes of named values: positions in the lists that specify them (R198) -/

def RunState.code : RunState → Nat
  | .starting => 0 | .running => 1 | .passive => 2

def LoadOutcome.code : LoadOutcome → Nat
  | .loading => 0 | .running => 1 | .passive => 2

def LoadFault.code : LoadFault → Nat
  | .signature => 0 | .integrity => 1 | .station => 2 | .farEnd => 3 | .duplicateCircuit => 4
  | .duplicateLine => 5 | .addPort => 6

def LoadWarning.code : LoadWarning → Nat
  | .dwellCode => 0 | .batchLimit => 1 | .reportThreshold => 2 | .degradeMargin => 3
  | .settleCode => 4 | .portClass => 5

def Role.code : Role → Nat
  | .head => 0 | .transit => 1 | .tail => 2 | .localCircuit => 3

/-- IDLE, HELD, QUEUED, PROBING. -/
def RecordState.code : RecordState → Nat
  | .idle => 0 | .held => 1 | .queued _ => 2 | .probing => 3

/-- IDLE is 0; the states outside IDLE follow. -/
def Phase.code : Phase → Nat
  | .claiming => 1 | .driving => 2 | .closing => 3

def Cause.code : Cause → Nat
  | .loss => 0 | .test => 2

def IncompleteReason.code : IncompleteReason → Nat
  | .blind => 0 | .absent => 1 | .pool => 2 | .loop => 3

def Standing.code : Standing → Nat
  | .inFlight => 0 | .retryWaiting => 1 | .lingering => 2

def TallyState.code : TallyState → Nat
  | .notDue => 0 | .pending => 1 | .sent => 2 | .unsent => 3

def TallyEntry.code : TallyEntry → Nat
  | .notExpected => 0 | .awaited => 1 | .received _ => 2 | .missing => 3 | .unreached => 4

def LossState.code : LossState → Nat
  | .clear => 0 | .lossPending => 1 | .loss => 2 | .clearPending => 3

/-- A window state's byte, `mine` at the opener; the positions of the states elsewhere are open (log 6). -/
def WindowState.codeByte (mine : Bool) : WindowState → Byte
  | .opened => if mine then 0 else Config.otherOpenWindowCode
  | .settling => 1 | .closing => 2 | .collecting => 3 | .closed => Config.closedWindowCode

def ResultCode.code : ResultCode → Byte
  | .done => 0 | .refusedState => 1 | .refusedFull => 2 | .refusedUnknown => 3 | .refusedParam => 4

/-! ### Bytes of fields (R198) -/

/-- The second of two names in a list is the value 1, the first is 0. -/
def second (b : Bool) : Byte := byte (boolNat b)

/-- An advertised grade: none recorded, 1, 2 (R160). -/
def gradeByte (a : Option Advertisement) : Byte :=
  match a with
  | none => 0
  | some x => byte x.grade

/-- A BATCH ability: none recorded, set, clear (R160). -/
def batchByte (a : Option Advertisement) : Byte :=
  match a with
  | none => 0
  | some x => if x.batch then 1 else 2

/-- An optional part: a presence byte, then the part (R198); one byte a part, 0 or 1 (log 28). -/
def optBytes {α : Type} (f : α → List Byte) : Option α → List Byte
  | none => [0]
  | some x => 1 :: f x

/-- A list: the header that announces its length (log 6), then its parts. -/
def listBytes {α : Type} (f : α → List Byte) (l : List α) : List Byte :=
  Config.listHeader l.length ++ l.flatMap f

/-- A station set: 24 bits, most significant byte first. -/
def stationSetBytes (x : StationSet) : List Byte :=
  [byte (x.toNat / 65536), byte (x.toNat / 256), byte x.toNat]

def spanBytes (sp : Span) : List Byte := [byte sp.station, byte sp.port]

def pairBytes (x : Nat × Nat) : List Byte := [byte x.1, byte x.2]

/-- An origin: code byte and two qualifier bytes (section 11.4). -/
def originBytes : Option Origin → List Byte
  | none => [0, 0, 0]
  | some .start => [1, 0, 0]
  | some .command => [2, 0, 0]
  | some (.window ser) => 3 :: ser.bytes
  | some .stray => [4, 0, 0]
  | some .restore => [5, 0, 0]
  | some .rejoin => [6, 0, 0]
  | some .reset => [7, 0, 0]
  | some (.sweep sp) => 8 :: spanBytes sp

/-! ### Report records (section 11.4) -/

/-- The presence byte of a CIRCUIT VERDICT. -/
def VerdictRecord.presence (v : VerdictRecord) : Byte :=
  byte (boolNat v.landing.isSome + 2 * boolNat v.loopStation.isSome + 4 * boolNat v.lastGood.isSome +
    8 * boolNat v.hopsShort.isSome + 16 * boolNat v.stubPoint.isSome + 32 * boolNat v.reason.isSome +
    64 * boolNat (v.blind != 0) + 128 * boolNat (v.leaks != []))

/-- The bytes of a part that is present, none where it is absent. -/
def partBytes {α : Type} (f : α → List Byte) : Option α → List Byte
  | none => []
  | some x => f x

/-- The leak list of a CIRCUIT VERDICT. -/
def leakBytes (l : List (Nat × Nat)) : List Byte :=
  if l = [] then [] else byte l.length :: l.flatMap pairBytes

/-- The body of CIRCUIT VERDICT. -/
def VerdictRecord.body (v : VerdictRecord) : List Byte :=
  circuitField v.circuit v.epoch ++ [byte v.mode.code, byte v.verdict.code, byte v.flags.code] ++
    originBytes v.origin ++ [byte v.hopCount, byte v.mismatches, v.presence] ++
    partBytes pairBytes v.landing ++ partBytes (fun x => [byte x]) v.loopStation ++
    partBytes pairBytes v.lastGood ++ partBytes (fun x => [byte x]) v.hopsShort ++
    partBytes pairBytes v.stubPoint ++ partBytes (fun x => [byte x.code]) v.reason ++
    (if v.blind = 0 then [] else stationSetBytes v.blind) ++ leakBytes v.leaks

/-- The body of SWEEP SUMMARY. -/
def SweepSummary.body (v : SweepSummary) : List Byte :=
  spanBytes v.span ++
    [byte v.cause.code, byte v.circuits, byte v.survived, byte v.broken, byte v.incomplete,
     byte v.handedOn, byte v.deferred] ++
    bytes2 (v.firstBroken.getD 0) ++ bytes2 (v.firstIncomplete.getD 0) ++
    [byte v.overflow, byte v.merged.length] ++ v.merged.flatMap spanBytes

/-- The body of WINDOW REPORT SUMMARY after its serial. -/
def WindowSummary.body (v : WindowSummary) : List Byte :=
  bytes2 v.totals.held ++ bytes2 v.totals.passed ++ bytes2 v.totals.changed ++
    bytes2 v.totals.failed ++ bytes2 v.totals.incomplete ++ [byte v.received] ++
    stationSetBytes v.missing ++ stationSetBytes v.unreached ++
    byte v.failures.length :: v.failures.flatMap fun x => byte x.1 :: bytes2 x.2

/-- The kind byte of a record. -/
def Report.kind : Report → Byte
  | .verdict _ => 1
  | .sweepSummary _ => 2
  | .openConfirmed _ _ | .openRefused _ _ | .windowSummary _ => 3

def Report.body : Report → List Byte
  | .verdict v => v.body
  | .sweepSummary v => v.body
  | .openConfirmed ser u => 0 :: ser.bytes ++ stationSetBytes u
  | .openRefused ser r => 1 :: ser.bytes ++ stationSetBytes r
  | .windowSummary v => 2 :: v.serial.bytes ++ v.body

/-- A record as READ REPORT returns it: kind, report number, body length, body. -/
def reportBytes (number : Nat) (r : Report) : List Byte :=
  [r.kind, byte number, byte r.body.length] ++ r.body

/-! ### The data of responses (R198; log 6) -/

def findingBytes (f : LoadFinding) : List Byte :=
  byte f.outcome.code :: optBytes (fun x => [byte x.code]) f.reason ++
    optBytes (fun x => [byte x]) f.position ++
    Config.nameSetBytes (f.fatal.map LoadFault.code) ++
    Config.warningSetBytes (f.warnings.map fun w => (w.field.code, w.value)) ++
    optBytes (fun x => [byte x]) f.warningPort

/-- The flags of a slot set so far, by their positions in R47. -/
def SlotView.flagsSet (v : SlotView) : List Nat :=
  ([v.overlap, v.poolShort, v.loopLost, v.absentLost, v.lowGrade].zipIdx.filter (·.1)).map (·.2)

/-- The fields of a slot not IDLE (R71). Circuit and epoch share one circuit field (log 28). -/
def slotFieldBytes (v : SlotView) : List Byte :=
  circuitField v.circuit v.epoch ++ [byte v.mode.code, byte v.records] ++ Config.nameSetBytes v.flagsSet

/-- A slot: its state, and the part of R71 that a slot not IDLE has. -/
def slotBytes (o : Option SlotView) : List Byte :=
  byte ((o.map (·.phase.code)).getD 0) :: optBytes slotFieldBytes o

def runViewBytes (v : RunView) : List Byte :=
  spanBytes v.span ++
    [v.entries, v.waiting, v.launched, v.survived, v.broken, v.incomplete, v.handedOn, v.deferred].map byte

def outstandingBytes (v : OutstandingView) : List Byte :=
  [byte v.kind, byte v.number, byte v.standing.code, byte v.attempts]

/-- BASE, or the span and cause of the current sweep run (R134). -/
def currentBytes (c : Option (Span × Cause)) : List Byte :=
  optBytes (fun x => spanBytes x.1 ++ [byte x.2.code]) c

/-- STATUS, in the order of R175, R71, R134 and R158. A count takes one byte (log 28). -/
def statusBytes (d : StatusData) : List Byte :=
  [byte d.station, byte d.runState.code] ++ findingBytes d.finding ++
    [second d.joined, byte d.alerts.toNat, byte d.masks.toNat, byte d.faults.toNat,
     byte d.reports, byte d.nextReport, second d.coalescing,
     byte d.watches, byte d.backlog, byte d.strays, byte d.alarms] ++
    d.slots.flatMap slotBytes ++ [byte d.freeRecords] ++ currentBytes d.current ++
    [byte d.stackDepth, Config.flagByte d.admission, Config.flagByte d.shadow, byte d.censusCount,
     byte d.routineCount] ++ listBytes runViewBytes d.runs ++
    [second (!d.loopUp), Config.flagByte d.quarantine, byte d.nextNumber, byte d.forward, byte d.receive,
     byte d.newNotices, byte d.retries] ++ listBytes outstandingBytes d.outstanding

def hopEntryBytes (e : HopEntry) : List Byte :=
  bytes2 e.circuit ++ [byte e.role.code, byte e.ingress] ++ optBytes (fun x => [byte x]) e.egress ++
    [byte e.headStation, second (!e.latch), byte e.missing]

def hopBytes (h : Hop) : List Byte :=
  [byte h.station, byte h.ingress, byte h.egress] ++ optBytes (fun x => [byte x]) h.ingressLevel ++
    optBytes (fun x => [byte x]) h.egressLevel

/-- The queued mode, present only while QUEUED (R9). -/
def RecordState.mode : RecordState → Option Mode
  | .queued m => some m
  | .idle | .held | .probing => none

def recordStateBytes (x : RecordState) : List Byte :=
  byte x.code :: optBytes (fun m => [byte m.code]) x.mode

/-- The path record's fields in the order of R9; the last verdict as the body of its CIRCUIT VERDICT
(log 28). -/
def pathBytes (r : PathRecord) : List Byte :=
  bytes2 r.circuit ++ [byte r.line, byte r.addPort] ++ recordStateBytes r.state ++
    originBytes r.origin ++ [byte r.lastEpoch] ++ optBytes (listBytes hopBytes) r.baseline ++
    optBytes (listBytes hopBytes) r.lastChain ++ optBytes VerdictRecord.body r.lastVerdict ++
    listBytes Serial.bytes r.hold ++ listBytes Serial.bytes r.owed

/-- Counts and first failing circuit, a circuit field that is 0 when absent (section 11.2). -/
def tallyCountBytes (t : Tally) : List Byte :=
  [byte t.held, byte t.passed, byte t.changed, byte t.failed, byte t.incomplete] ++
    circuitField (t.firstFailing.getD 0) 0

/-- The counts of a RECEIVED entry, its first failing circuit among them (log 28). -/
def TallyEntry.counts : TallyEntry → Option Tally
  | .received t => some t
  | .notExpected | .awaited | .missing | .unreached => none

def tallyEntryBytes (x : TallyEntry) : List Byte := byte x.code :: optBytes tallyCountBytes x.counts

/-- What only the opener's entry gives; the settle time is there while SETTLING (R113). -/
def openerBytes (x : Window × Nat) : List Byte :=
  second x.1.openReceived ::
    optBytes Config.timeBytes (if x.1.state = .settling then some x.2 else none) ++
    x.1.table.flatMap tallyEntryBytes

/-- One window entry at station `own`: the opener's part, then the tally state elsewhere (R113). -/
def windowBytes (own : Nat) (x : Window × Nat) : List Byte :=
  let mine := x.1.serial.opener == own
  x.1.serial.bytes ++ bytes2 x.1.scope.toNat ++ [x.1.state.codeByte mine] ++ tallyCountBytes x.1.counts ++
    optBytes openerBytes (if mine then some x else none) ++
    optBytes (fun y => [byte y.code]) (if mine then none else some x.1.tally)

def rosterEntryBytes (e : Bool × Option Advertisement × Nat × Option Nat) : List Byte :=
  [second e.1, gradeByte e.2.1, batchByte e.2.1, byte e.2.2.1] ++ optBytes (fun n => [byte n]) e.2.2.2

def rosterBytes (d : RosterData) : List Byte :=
  [byte d.station, second d.joined, byte d.grade, Config.flagByte d.batching] ++
    d.entries.flatMap rosterEntryBytes

/-- A tag of a dwell result: circuit field with epoch (log 28), level class (R26). -/
def tagBytes (t : Tag) : List Byte := circuitField t.circuit t.epoch ++ [byte t.level]

def SweepResult.code : SweepResult → Nat
  | .newRun => 0 | .merged => 1 | .nothing => 2

/-- The data of a response, at station `own`, with its fields in the order their rule names them. The lone
FAULT flag of CLEAR FAULTS is a byte with its bit of section 11.3 (R184, log 28). -/
def ResponseData.bytes (own : Nat) : ResponseData → List Byte
  | .empty => []
  | .status d => statusBytes d
  | .alerts a => [byte a.toNat]
  | .faults f fault => [byte f.toNat, if fault then BitVec.twoPow 8 Alert.fault.bit else 0]
  | .masks m => [byte m.toNat]
  | .opened n => [byte n]
  | .settle ms => Config.timeBytes ms
  | .cancelled x => [Config.flagByte x]
  | .request x o => recordStateBytes x ++ originBytes o
  | .queuedCount n => [byte n]
  | .admission f sh b => [Config.flagByte f, Config.flagByte sh, Config.flagByte b]
  | .swept n r x => [byte n, byte r.code, Config.flagByte x]
  | .report n r => reportBytes n r
  | .noReport n => [0, byte n]
  | .circuit e r => optBytes hopEntryBytes e ++ optBytes pathBytes r
  | .windows l => listBytes (windowBytes own) l
  | .roster d => rosterBytes d
  | .dwell p tags o m =>
    byte p :: listBytes tagBytes tags ++ [Config.flagByte o] ++ optBytes (fun x => [byte x.code]) m
  | .restarted x => [byte x.code]

/-- A response frame (R198). -/
def Response.frame (own : Nat) (r : Response) : List Byte :=
  let data := r.data.bytes own
  [r.result.code, r.code] ++ bytes2 data.length ++ data

end Sys2Proof.Machine
end

