-- ==== Sys2Proof/Machine/Load.lean ====
section
/-! DEFINITION. Power-on, the configuration load and the entry to RUNNING or PASSIVE (chapter 10). -/

namespace Sys2Proof.Machine

/-! ### Field checks (R190) -/

/-- The far end of a LINE-OUT port is fatal (row 2 of R190). -/
def farEndFault (im : Image) (p : Nat) : Bool :=
  let e := im.portAt p
  e.cls == .lineOut && (e.farStation == 0 || e.farStation == im.station || 24 < e.farStation)

/-- The entry at a position of the originated list. -/
def Image.positionAt (im : Image) (i : Nat) : Option Originated := im.positions.getD i none

/-- The entry at a position holds a value that an earlier position holds. -/
def repeatsEarlier (im : Image) (key : Originated → Nat) (i : Nat) : Bool :=
  (im.positionAt i).any fun e => (im.positions.take i).any fun o => o.any fun x => key x == key e

/-- The entry at a position names an add port that is not of class ADD (row 5 of R190). -/
def addPortFault (im : Image) (i : Nat) : Bool :=
  (im.positionAt i).any fun e => im.classAt e.addPort != .add

/-- The lowest originated position with a fault (log 17). -/
def firstPosition (f : Nat → Bool) : Option Nat := (List.range 32).find? f

/-- Where a fault of R190 stands: `none` when the image does not have it; the inner value is the
finding's position. -/
def faultAt (im : Image) : LoadFault → Option (Option Nat)
  | .signature | .integrity => none
  | .station => if stationOk im.station then none else some none
  | .farEnd => ((List.range 16).find? (farEndFault im)).map some
  | .duplicateCircuit => (firstPosition (repeatsEarlier im (·.circuit))).map some
  | .duplicateLine => (firstPosition (repeatsEarlier im (·.line))).map some
  | .addPort => (firstPosition (addPortFault im)).map some

/-- The faults of R190 in the order of its table. -/
def fieldFaults : List LoadFault := [.station, .farEnd, .duplicateCircuit, .duplicateLine, .addPort]

/-- The fatal set of an image (R192). -/
def fatalSet (im : Image) : List LoadFault := fieldFaults.filter fun f => (faultAt im f).isSome

/-! ### Defaults (R191) -/

/-- The field of a raw image lies outside its valid range. -/
def warned (bs : List Byte) (im : Image) : LoadWarning → Bool
  | .dwellCode => 3 < im.dwellCode
  | .batchLimit => !(im.batchLimit == 1 || im.batchLimit == 2 || im.batchLimit == 4 || im.batchLimit == 8)
  | .reportThreshold => im.reportThreshold == 0 || 16 < im.reportThreshold
  | .degradeMargin => 3 < im.degradeMargin
  | .settleCode => im.settleCode == 255
  | .portClass => (List.range 16).any fun p => (rawClass bs p).isNone

/-- The fields of R191 in the order of its table. -/
def warningOrder : List LoadWarning :=
  [.dwellCode, .batchLimit, .reportThreshold, .degradeMargin, .settleCode, .portClass]

/-- The fields of a raw image outside their ranges (R191). -/
def warnedFields (bs : List Byte) (im : Image) : List LoadWarning := warningOrder.filter (warned bs im)

/-- One field at its default where it is in the warning set; port classes are read so already (R187). -/
def takeDefault (im : Image) : LoadWarning → Image
  | .dwellCode => { im with dwellCode := 1 }
  | .batchLimit => { im with batchLimit := 1 }
  | .reportThreshold => { im with reportThreshold := 4 }
  | .degradeMargin => { im with degradeMargin := 2 }
  | .settleCode => { im with settleCode := 30 }
  | .portClass => im

/-- The lowest port of an unassigned class. -/
def unassignedPort (bs : List Byte) : Option Nat := (List.range 16).find? fun p => (rawClass bs p).isNone

/-- The value of a field as configured; of the port classes, the encoding at the lowest unassigned one
(log 32). -/
def configuredValue (bs : List Byte) (im : Image) : LoadWarning → Nat
  | .dwellCode => im.dwellCode
  | .batchLimit => im.batchLimit
  | .reportThreshold => im.reportThreshold
  | .degradeMargin => im.degradeMargin
  | .settleCode => im.settleCode
  | .portClass => ((unassignedPort bs).map (classBits bs)).getD 0

/-- The warning set of an image: the fields replaced, with their configured values (R191, R192). -/
def warningSet (bs : List Byte) (im : Image) : List Replaced :=
  (warnedFields bs im).map fun f => ⟨f, configuredValue bs im f⟩

/-! ### The load finding (R189, R192) -/
/-- A whole-image fault (R189): the finding, with no field used. -/
def wholeFinding (f : LoadFault) : LoadFinding := ⟨.passive, some f, none, [], [], none⟩

/-- The finding of an image that passed R189. Its position is that of its reason (R192, log 17). -/
def fieldFinding (bs : List Byte) (im : Image) : LoadFinding :=
  let fatal := fatalSet im
  { outcome := if fatal = [] then .running else .passive
    reason := fatal.head?
    position := fatal.head?.bind fun f => (faultAt im f).getD none
    fatal := fatal
    warnings := warningSet bs im
    warningPort := unassignedPort bs }

/-- The image as loaded and its finding (R189 to R192), from the 140 bytes read. -/
def checkImage (bs : List Byte) : Image × LoadFinding :=
  if bs.getD 0 0 ≠ 0x3C then (blankImage, wholeFinding .signature)
  else if imageSum bs ≠ 0 then (blankImage, wholeFinding .integrity)
  else
    let raw := rawImage bs
    ((warnedFields bs raw).foldl takeDefault raw, fieldFinding bs raw)

/-! ### Power-on values (R195) -/

/-- The power-on values of every block; what is outside the station stays: waiting commands, clock,
count of choices, loss inputs (log 13). -/
def powerOn (s : State) : State :=
  (((State.reset.setPending s.pending).setNow s.now).setChoices s.choices).setLossInputs s.lossInputs

/-- POWER_ON (R195): no pending command. -/
def execPowerOn (s : State) : Host.Outcome State Fault Refusal := .next (powerOn s)

/-- A RESTART that is taken: power-on values, the RESTART pending (R179, R195). -/
def restartStation (s : State) : State :=
  let s1 := powerOn s
  s1.setCtl { s1.ctl with command := some .restart }

/-! ### Entry to RUNNING (R193) -/

/-- The head entry of an originated circuit (R4). -/
def headEntry (own : Nat) (o : Originated) : HopEntry :=
  { circuit := o.circuit, role := .head, ingress := o.addPort, egress := none, headStation := own
    latch := false, missing := 0 }

/-- The path record of an originated circuit as it is created (R9, R22). -/
def newRecord (o : Originated) : PathRecord :=
  { circuit := o.circuit, line := o.line, addPort := o.addPort, state := .idle, origin := none
    lastEpoch := 0, baseline := none, lastChain := none, lastVerdict := none, hold := [], owed := [] }

/-- Head entries and path records (R4, R9). -/
def loadTables (s : State) : State :=
  let os := s.image.originated
  (s.setHops (os.foldl (fun t o => putHop t (headEntry s.own o)) [])).setPaths (os.map newRecord)

/-- Idle marking on every originated line (R23). -/
def markLines (s : State) : State :=
  s.setLines (s.image.originated.foldl (fun l o => l.set o.line (some (o.circuit, 0)))
    (List.replicate 32 none))

/-- CENSUS requests with origin START when auto-census is set (R22). -/
def autoCensus (s : State) : State :=
  if s.image.autoCensus then requestAudits (pathOrder s) .census .start s else s

/-- The LINE-IN ports whose input is asserted take it, in ascending number (R43, log 27). -/
def takeInputs (s : State) : State :=
  ((List.range 16).filter fun p => s.image.classAt p == .lineIn && portIn s.lossInputs p).foldl
    (fun t p => monitorAsserted p t) s

/-- Admission from the start-held flag, the JOIN request, and the end of bypass (R136, R161, R144; log 13). -/
def startServices (s : State) : State :=
  let s1 := s.setSched { s.sched with admission := !s.image.startHeld, shadow := !s.image.startHeld }
  (s1.setRoster { s1.roster with joinRequest := true }).setLoop { s1.loop with sending := .idleFill }

/-- The station enters RUNNING (R193). -/
def enterRunning (s : State) : State :=
  takeInputs (beginDwell (startServices (autoCensus (markLines (loadTables (s.setRunState .running))))))

/-- The station enters PASSIVE (R194): the bypass ends. Admission flag and shadow, which STATUS shows,
stay clear (log 7). -/
def enterPassive (s : State) : State :=
  (s.setRunState .passive).setLoop { s.loop with sending := .idleFill }

/-- The flags that follow the finding, set before the run state changes (R188, R192). -/
def loadFlags (f : LoadFinding) (s : State) : State :=
  let s1 := if f.outcome = .passive then setFault .config s else s
  if f.warnings = [] then s1 else raiseAlert .configWarn s1

/-- The end of a load, up to the run state (R188 to R194). -/
def endLoad (bytes : List Byte) (s : State) : State :=
  let r := checkImage (readImage bytes)
  let s1 := loadFlags r.2 ((s.setImage r.1).setFinding r.2)
  if r.2.outcome = .running then enterRunning s1 else enterPassive s1

end Sys2Proof.Machine
end

