-- ==== Sys2Proof/Machine/Control.lean ====
section
/-! DEFINITION. The Control Port: transactions, the run-state gate, the commands, and the end of a load
for a held command (chapter 9, R188). -/

namespace Sys2Proof.Machine

/-! ### Taking a command (R172, R29) -/

/-- The code a response echoes: the first byte of the command's frame. -/
def echoCode (c : Instr) : Byte := ((frameOfCommand c).getD []).headD 0

/-- An out-of-turn dwell whose result is no longer wanted (R29). -/
def Dwell.unwanted (d : Dwell) : Dwell := { d with wanted := false }

/-- The frame becomes the pending command: the previous response is discarded and an out-of-turn
request ends (R172, R29, R181). -/
def intakeCommand (c : Instr) (s : State) : State :=
  (changeScanner (fun x => { x with request := none, dwell := x.dwell.map Dwell.unwanted }) s).setCtl
    { s.ctl with command := some c, response := none, reportHeld := false }

/-- A response formed for a command. -/
def answer (c : Instr) (r : Reply) : State :=
  r.state.setCtl { r.state.ctl with response := some ⟨r.result, echoCode c, r.data⟩ }

/-- The run-state gate (R174): held while STARTING, refused in PASSIVE unless served there. -/
def gate (c : Instr) (inPassive : Bool) (serve : State → State) (s : State) : State :=
  match s.runState with
  | .starting => s
  | .running => serve s
  | .passive => if inPassive then serve s else answer c (refuse .refusedState s)

/-! ### Serving (R175 to R185) -/

def serveStatus (s : State) : Reply := ⟨.done, .status (statusData s), s⟩

/-- The named flags that CLEAR ALERTS clears: not FAULT while a fault flag is set, not REPORT while the
queue is at the threshold (R182). -/
def clearable (s : State) (named : BitVec 7) : BitVec 7 :=
  named &&& ~~~(if s.ctl.faults = 0 then 0 else BitVec.twoPow 7 Alert.fault.bit) &&&
    ~~~(if atThreshold s then BitVec.twoPow 7 Alert.report.bit else 0)

/-- CLEAR ALERTS (R182). -/
def serveClearAlerts (flags : Byte) (s : State) : Reply :=
  let a := s.ctl.alerts &&& ~~~(clearable s (flags.setWidth 7))
  ⟨.done, .alerts a, s.setCtl { s.ctl with alerts := a }⟩

/-- CLEAR FAULTS (R184). -/
def serveClearFaults (flags : Byte) (s : State) : Reply :=
  let f := s.ctl.faults &&& ~~~(flags.setWidth 6)
  ⟨.done, .faults f (s.ctl.alertSet .fault), s.setCtl { s.ctl with faults := f }⟩

/-- SET ALERT MASK (R185). -/
def serveSetAlertMask (flags : Byte) (s : State) : Reply :=
  ⟨.done, .masks (flags.setWidth 7), s.setCtl { s.ctl with masks := flags.setWidth 7 }⟩

/-- A circuit value of a command, 1..1023 (R175, R177). -/
def circuitOk (w : BitVec 16) : Bool := 1 ≤ w.toNat && w.toNat ≤ 1023

/-- The IDLE records, each of which an audit request for all queues (R117, R177). -/
def idleRecords (s : State) : Nat := s.paths.countP (·.state == .idle)

/-- The record's state and origin as AUDIT and CENSUS return them (R177). -/
def requestData (s : State) (c : Nat) : ResponseData :=
  match findPath s c with
  | some r => .request r.state r.origin
  | none => .empty

/-- AUDIT and CENSUS (R117, R177). -/
def serveRequest (m : Mode) (w : BitVec 16) (s : State) : Reply :=
  if w = 0xFFFF then
    ⟨.done, .queuedCount (idleRecords s), requestAudits (pathOrder s) m .command s⟩
  else if !circuitOk w then refuse .refusedParam s
  else if (findPath s w.toNat).isNone then refuse .refusedUnknown s
  else
    let s1 := requestAudit w.toNat m .command s
    ⟨.done, requestData s1 w.toNat, s1⟩

/-- HOLD AUDITS and RELEASE AUDITS (R121, R178). -/
def serveAdmission (x : Bool) (s : State) : Reply :=
  let s1 := setAdmission x s
  ⟨.done, .admission s1.sched.admission s1.sched.shadow s1.sched.current.isNone, s1⟩

/-- The span of a SWEEP is refused (R178). -/
def badSpan (s : State) (sp : Span) : Bool :=
  !stationOk sp.station || 16 ≤ sp.port ||
    (sp.station == s.own && s.image.classAt sp.port != .lineIn)

/-- SWEEP (R126, R178). -/
def serveSweep (sp : Span) (s : State) : Reply :=
  if badSpan s sp then refuse .refusedParam s
  else
    let sel := selection s sp
    ⟨.done, .swept sel.length (sweepResult s sel) (s.scanner.alarms.any (·.kind == .test)),
      applyAlarm sp .test (pendAlarm ⟨.test, sp⟩ s)⟩

/-- READ REPORT (R181, R183). -/
def serveReadReport (s : State) : Reply :=
  let ctl := { s.ctl with coalescing := none, postedSinceRead := false }
  match s.ctl.queue with
  | [] => ⟨.done, .noReport s.ctl.reportNumber, s.setCtl ctl⟩
  | (n, r) :: _ => ⟨.done, .report n r, s.setCtl { ctl with reportHeld := true }⟩

/-- READ CIRCUIT (R175). -/
def serveReadCircuit (w : BitVec 16) (s : State) : Reply :=
  if !circuitOk w then refuse .refusedParam s
  else ⟨.done, .circuit (findHop s.hops w.toNat) (findPath s w.toNat), s⟩

def serveReadWindows (s : State) : Reply := ⟨.done, .windows (windowsData s), s⟩

def serveReadRoster (s : State) : Reply := ⟨.done, .roster (rosterData s), s⟩

/-- READ PORT: a request for an out-of-turn dwell; the response stays NOT-READY (R28). A number above
15 names no port and is refused (log 16). -/
def serveReadPort (port : Nat) (s : State) : State :=
  if s.image.classAt port = .unused then answer (.readPort (byte port)) (refuse .refusedParam s)
  else changeScanner (fun x => { x with request := some port }) s

/-- The LOOP RESET command is taken (R155). -/
def mayReset (s : State) : Bool :=
  s.runState == .running && s.roster.joined && s.loop.up && !s.loop.quarantine

/-- LOOP RESET (R155, R179). -/
def serveLoopReset (s : State) : Reply :=
  if mayReset s then ⟨.done, .empty, ownLoopReset s⟩ else refuse .refusedState s

/-! ### Each command under the gate -/

def gateStatus (s : State) : State := gate .status true (fun s => answer .status (serveStatus s)) s

def gateClearAlerts (f : Byte) (s : State) : State :=
  gate (.clearAlerts f) true (fun s => answer (.clearAlerts f) (serveClearAlerts f s)) s

def gateClearFaults (f : Byte) (s : State) : State :=
  gate (.clearFaults f) true (fun s => answer (.clearFaults f) (serveClearFaults f s)) s

def gateSetAlertMask (f : Byte) (s : State) : State :=
  gate (.setAlertMask f) false (fun s => answer (.setAlertMask f) (serveSetAlertMask f s)) s

def gateOpenWindow (scope : PortSet) (s : State) : State :=
  gate (.openWindow scope) false (fun s => answer (.openWindow scope) (serveOpenWindow scope s)) s

def gateCloseWindow (q code : Byte) (s : State) : State :=
  gate (.closeWindow q code) false
    (fun s => answer (.closeWindow q code) (serveCloseWindow q.toNat code.toNat s)) s

def gateCancelWindow (q : Byte) (s : State) : State :=
  gate (.cancelWindow q) false (fun s => answer (.cancelWindow q) (serveCancelWindow q.toNat s)) s

def gateAudit (w : BitVec 16) (s : State) : State :=
  gate (.audit w) false (fun s => answer (.audit w) (serveRequest .routine w s)) s

def gateCensus (w : BitVec 16) (s : State) : State :=
  gate (.census w) false (fun s => answer (.census w) (serveRequest .census w s)) s

def gateHoldAudits (s : State) : State :=
  gate .holdAudits false (fun s => answer .holdAudits (serveAdmission false s)) s

def gateReleaseAudits (s : State) : State :=
  gate .releaseAudits false (fun s => answer .releaseAudits (serveAdmission true s)) s

def gateSweep (st p : Byte) (s : State) : State :=
  gate (.sweep st p) false (fun s => answer (.sweep st p) (serveSweep ⟨st.toNat, p.toNat⟩ s)) s

def gateReadReport (s : State) : State :=
  gate .readReport false (fun s => answer .readReport (serveReadReport s)) s

def gateReadCircuit (w : BitVec 16) (s : State) : State :=
  gate (.readCircuit w) false (fun s => answer (.readCircuit w) (serveReadCircuit w s)) s

def gateReadWindows (s : State) : State :=
  gate .readWindows false (fun s => answer .readWindows (serveReadWindows s)) s

def gateReadRoster (s : State) : State :=
  gate .readRoster true (fun s => answer .readRoster (serveReadRoster s)) s

def gateReadPort (p : Byte) (s : State) : State := gate (.readPort p) false (serveReadPort p.toNat) s

def gateLoopReset (s : State) : State :=
  gate .loopReset false (fun s => answer .loopReset (serveLoopReset s)) s

/-! ### The rows -/

def execStatus (s : State) : Host.Outcome State Fault Refusal :=
  .next (gateStatus (intakeCommand .status s))

def execClearAlerts (f : Byte) (s : State) : Host.Outcome State Fault Refusal :=
  .next (gateClearAlerts f (intakeCommand (.clearAlerts f) s))

def execClearFaults (f : Byte) (s : State) : Host.Outcome State Fault Refusal :=
  .next (gateClearFaults f (intakeCommand (.clearFaults f) s))

def execSetAlertMask (f : Byte) (s : State) : Host.Outcome State Fault Refusal :=
  .next (gateSetAlertMask f (intakeCommand (.setAlertMask f) s))

def execOpenWindow (scope : PortSet) (s : State) : Host.Outcome State Fault Refusal :=
  .next (gateOpenWindow scope (intakeCommand (.openWindow scope) s))

def execCloseWindow (q code : Byte) (s : State) : Host.Outcome State Fault Refusal :=
  .next (gateCloseWindow q code (intakeCommand (.closeWindow q code) s))

def execCancelWindow (q : Byte) (s : State) : Host.Outcome State Fault Refusal :=
  .next (gateCancelWindow q (intakeCommand (.cancelWindow q) s))

def execAudit (w : BitVec 16) (s : State) : Host.Outcome State Fault Refusal :=
  .next (gateAudit w (intakeCommand (.audit w) s))

def execCensus (w : BitVec 16) (s : State) : Host.Outcome State Fault Refusal :=
  .next (gateCensus w (intakeCommand (.census w) s))

def execHoldAudits (s : State) : Host.Outcome State Fault Refusal :=
  .next (gateHoldAudits (intakeCommand .holdAudits s))

def execReleaseAudits (s : State) : Host.Outcome State Fault Refusal :=
  .next (gateReleaseAudits (intakeCommand .releaseAudits s))

def execSweep (st p : Byte) (s : State) : Host.Outcome State Fault Refusal :=
  .next (gateSweep st p (intakeCommand (.sweep st p) s))

def execReadReport (s : State) : Host.Outcome State Fault Refusal :=
  .next (gateReadReport (intakeCommand .readReport s))

def execReadCircuit (w : BitVec 16) (s : State) : Host.Outcome State Fault Refusal :=
  .next (gateReadCircuit w (intakeCommand (.readCircuit w) s))

def execReadWindows (s : State) : Host.Outcome State Fault Refusal :=
  .next (gateReadWindows (intakeCommand .readWindows s))

def execReadRoster (s : State) : Host.Outcome State Fault Refusal :=
  .next (gateReadRoster (intakeCommand .readRoster s))

def execReadPort (p : Byte) (s : State) : Host.Outcome State Fault Refusal :=
  .next (gateReadPort p (intakeCommand (.readPort p) s))

def execLoopReset (s : State) : Host.Outcome State Fault Refusal :=
  .next (gateLoopReset (intakeCommand .loopReset s))

/-- RESTART is taken in every run state (R179, R195). -/
def execRestart (s : State) : Host.Outcome State Fault Refusal := .next (restartStation s)

/-- INVALID_COMMAND_FRAME: refused with REFUSED-PARAM before the gate, and no other effect (R172). An
empty transaction is no command, and a frame that passes the check is another row (log 3). -/
def execInvalidCommandFrame (frame : List Byte) (s : State) : Host.Outcome State Fault Refusal :=
  if frame = [] ∨ (validFrame frame).isSome then .next s
  else
    .next (answer (.invalidCommandFrame frame)
      (refuse .refusedParam (intakeCommand (.invalidCommandFrame frame) s)))

/-! ### Read transactions (R173, R181, R198) -/

/-- The bytes that n clocked bytes return. -/
def readBytes (s : State) (n : Nat) : List Byte :=
  match s.ctl.response with
  | none => List.replicate n 0x80
  | some r => (List.range n).map fun i => (r.frame s.own).getD i 0

/-- The transaction returns the whole frame. -/
def readsWhole (s : State) (n : Nat) : Bool := s.ctl.response.any fun r => (r.frame s.own).length ≤ n

/-- READ_TRANSACTION: a record leaves the queue at the first read of its whole frame (R181). -/
def execReadTransaction (n : Nat) (s : State) : Host.Outcome State Fault Refusal :=
  let ctl := { s.ctl with portOut := readBytes s n }
  .next (s.setCtl (
    if s.ctl.reportHeld && readsWhole s n then
      { ctl with queue := s.ctl.queue.tail, reportHeld := false }
    else ctl))

/-! ### The coalescing timer (R183) -/

/-- COALESCING_TIMER_EXPIRY: REPORT is set and the timer stops (R183; log 3, log 4). -/
def execCoalescingTimerExpiry (s : State) : Host.Outcome State Fault Refusal :=
  match s.ctl.coalescing with
  | some due =>
    let s1 := advanceTo due s
    .next (raiseAlert .report (s1.setCtl { s1.ctl with coalescing := none }))
  | none => .next s

/-! ### The end of a load (R174, R179, R188) -/

/-- A held command served under the gate of the run state reached (R174), or the response of the
RESTART (R179). -/
def serveHeld (c : Instr) (s : State) : State :=
  match c with
  | .status => gateStatus s
  | .clearAlerts f => gateClearAlerts f s
  | .clearFaults f => gateClearFaults f s
  | .setAlertMask f => gateSetAlertMask f s
  | .openWindow scope => gateOpenWindow scope s
  | .closeWindow q code => gateCloseWindow q code s
  | .cancelWindow q => gateCancelWindow q s
  | .audit w => gateAudit w s
  | .census w => gateCensus w s
  | .holdAudits => gateHoldAudits s
  | .releaseAudits => gateReleaseAudits s
  | .sweep st p => gateSweep st p s
  | .readReport => gateReadReport s
  | .readCircuit w => gateReadCircuit w s
  | .readWindows => gateReadWindows s
  | .readRoster => gateReadRoster s
  | .readPort p => gateReadPort p s
  | .loopReset => gateLoopReset s
  | .restart => answer .restart ⟨.done, .restarted s.runState, s⟩
  | _ => s

/-- The pending command without a response is served. -/
def servePending (s : State) : State :=
  match s.ctl.command, s.ctl.response with
  | some c, none => serveHeld c s
  | _, _ => s

/-- LOAD_END: the load ends, then a held command is served (R188). Outside STARTING no load is in
progress (log 3). -/
def execLoadEnd (bytes : List Byte) (s : State) : Host.Outcome State Fault Refusal :=
  match s.runState with
  | .starting => .next (servePending (endLoad bytes s))
  | .running | .passive => .next s

end Sys2Proof.Machine
end

