-- ==== Sys2Proof/Machine/Received.lean ====
section
/-! DEFINITION. Dispatch of the oldest notice of the receive queue, one meaning per row (R143). -/

namespace Sys2Proof.Machine

/-- The oldest notice leaves the receive queue (R143). -/
def popOldest (s : State) : State := s.setLoop { s.loop with receive := s.loop.receive.tail }

/-- The oldest notice is dispatched to the blocks `act` names for it; a notice that `act` does not
name is of another row, and nothing changes (log 3). -/
def dispatchOldest (act : Received → Option (State → State)) (s : State) : State :=
  match s.loop.receive with
  | [] => s
  | r :: _ =>
    match act r with
    | some f => f (popOldest s)
    | none => s

/-- JOIN_DISPATCH (R163). -/
def execJoinDispatch (s : State) : Host.Outcome State Fault Refusal :=
  .next (dispatchOldest (fun r =>
    match r.payload with
    | .join g b => some (takeJoin r.originator (recordedAdvert g b))
    | _ => none) s)

/-- PRESENT_DISPATCH (R164). -/
def execPresentDispatch (s : State) : Host.Outcome State Fault Refusal :=
  .next (dispatchOldest (fun r =>
    match r.payload with
    | .present g b => some (takePresent r.originator (recordedAdvert g b))
    | _ => none) s)

/-- A WINDOW OPEN: an unlisted serial becomes an OPEN window with its holds (R95). -/
def takeWindowOpen (ser : Serial) (scope : PortSet) (s : State) : State :=
  if (findWindow s ser).isSome then s else listWindow ser scope s

/-- WINDOW_OPEN_DISPATCH (R95). -/
def execWindowOpenDispatch (s : State) : Host.Outcome State Fault Refusal :=
  .next (dispatchOldest (fun r =>
    match r.payload with
    | .windowOpen ser scope => some (takeWindowOpen ser scope)
    | _ => none) s)

/-- A WINDOW CANCEL: a listed window is cancelled whatever its state (R99). -/
def takeWindowCancel (ser : Serial) (s : State) : State :=
  if (findWindow s ser).isSome then cancelWindowEntry ser s else s

/-- WINDOW_CANCEL_DISPATCH (R99). -/
def execWindowCancelDispatch (s : State) : Host.Outcome State Fault Refusal :=
  .next (dispatchOldest (fun r =>
    match r.payload with
    | .windowCancel ser => some (takeWindowCancel ser)
    | _ => none) s)

/-- The answer to a WINDOW CLOSE for an unlisted serial: a zero TALLY (R103). -/
def answerUnlisted (ser : Serial) (s : State) : State :=
  requestWindow ⟨.tally ser zeroTally, .unlisted⟩ s

/-- A WINDOW CLOSE (R103). -/
def takeWindowClose (ser : Serial) (s : State) : State :=
  match findWindow s ser with
  | none => answerUnlisted ser s
  | some w => if w.state = .opened then closeListed ser s else s

/-- WINDOW_CLOSE_DISPATCH (R103). -/
def execWindowCloseDispatch (s : State) : Host.Outcome State Fault Refusal :=
  .next (dispatchOldest (fun r =>
    match r.payload with
    | .windowClose ser => some (takeWindowClose ser)
    | _ => none) s)

/-- A TALLY at a station that is not its opener: the close it missed (R104). -/
def takePassingTally (ser : Serial) (s : State) : State :=
  match findWindow s ser with
  | none => s
  | some w => if w.state = .opened then closeListed ser s else s

/-- A TALLY of station y (R104, R108). -/
def takeTally (y : Nat) (ser : Serial) (t : Tally) (s : State) : State :=
  if ser.opener = s.own then recordTally ser y t s else takePassingTally ser s

/-- TALLY_DISPATCH (R104, R108). -/
def execTallyDispatch (s : State) : Host.Outcome State Fault Refusal :=
  .next (dispatchOldest (fun r =>
    match r.payload with
    | .tally ser t => some (takeTally r.originator ser t)
    | _ => none) s)

/-- A PROBE START: the watch entry, and the duplicate head it may show (R32, R62, R63). -/
def takeProbeStart (c e head : Nat) (m : Mode) (code receivedAt : Nat) (s : State) : State :=
  duplicateHead c (writeWatch (watchOf c e head m code receivedAt) s)

/-- PROBE_START_DISPATCH (R32). -/
def execProbeStartDispatch (s : State) : Host.Outcome State Fault Refusal :=
  .next (dispatchOldest (fun r =>
    match r.payload with
    | .probeStart c e m d => some (takeProbeStart c e r.originator m d r.receivedAt)
    | _ => none) s)

/-- The items of a SIGHTING, offered one by one (R58). -/
def takeSighting (items : List Item) (s : State) : State := items.foldl (fun t x => offerItem x t) s

/-- SIGHTING_DISPATCH (R58). -/
def execSightingDispatch (s : State) : Host.Outcome State Fault Refusal :=
  .next (dispatchOldest (fun r =>
    match r.payload with
    | .sighting items => some (takeSighting items)
    | _ => none) s)

/-- A PROBE END: the Circuit Table follows a positive verdict, then the matching watch entry goes
(R6, R33, R70). -/
def takeProbeEnd (c e : Nat) (v : Verdict) (s : State) : State :=
  match findWatch s c with
  | none => s
  | some w =>
    if w.epoch = e then dropWatch c (if v.positive then learnHop w s else s) else s

/-- PROBE_END_DISPATCH (R70). -/
def execProbeEndDispatch (s : State) : Host.Outcome State Fault Refusal :=
  .next (dispatchOldest (fun r =>
    match r.payload with
    | .probeEnd c e v _ => some (takeProbeEnd c e v)
    | _ => none) s)

/-- A STRAY: an audit request at the named head, nothing elsewhere (R118). -/
def takeStray (c head : Nat) (s : State) : State :=
  if head = s.own then requestAudit c .routine .stray s else s

/-- STRAY_DISPATCH (R118). -/
def execStrayDispatch (s : State) : Host.Outcome State Fault Refusal :=
  .next (dispatchOldest (fun r =>
    match r.payload with
    | .stray c head _ _ => some (takeStray c head)
    | _ => none) s)

/-- SPAN_ALARM_DISPATCH: LOSS or TEST (R123). -/
def execSpanAlarmDispatch (s : State) : Host.Outcome State Fault Refusal :=
  .next (dispatchOldest (fun r =>
    match r.payload with
    | .spanAlarm .loss sp => some (applyAlarm sp .loss)
    | .spanAlarm .test sp => some (applyAlarm sp .test)
    | _ => none) s)

/-- A SPAN ALARM RESTORE (R133). -/
def takeRestore (sp : Span) (s : State) : State :=
  requestAudits ((s.paths.filter (·.entersAt sp.station sp.port)).map (·.circuit)) .routine .restore s

/-- SPAN_ALARM_RESTORE_DISPATCH (R133). -/
def execSpanAlarmRestoreDispatch (s : State) : Host.Outcome State Fault Refusal :=
  .next (dispatchOldest (fun r =>
    match r.payload with
    | .spanAlarm .restore sp => some (takeRestore sp)
    | _ => none) s)

/-- LOOP_RESET_DISPATCH (R157). -/
def execLoopResetDispatch (s : State) : Host.Outcome State Fault Refusal :=
  .next (dispatchOldest (fun r =>
    match r.payload with
    | .loopReset => some takeLoopReset
    | _ => none) s)

end Sys2Proof.Machine
end

