-- ==== Sys2Proof/Machine/Dispatch.lean ====
section
/-! DEFINITION. One arm per row of spec/opcode_table.json. -/

namespace Sys2Proof.Machine

def exec (i : Instr) (s : State) : Host.Outcome State Fault Refusal :=
  match i with
  | .powerOn => Sys2Proof.Machine.execPowerOn s
  | .loadEnd image => Sys2Proof.Machine.execLoadEnd image s
  | .status => Sys2Proof.Machine.execStatus s
  | .clearAlerts flags => Sys2Proof.Machine.execClearAlerts flags s
  | .clearFaults flags => Sys2Proof.Machine.execClearFaults flags s
  | .setAlertMask flags => Sys2Proof.Machine.execSetAlertMask flags s
  | .openWindow scope => Sys2Proof.Machine.execOpenWindow scope s
  | .closeWindow sequence settleCode => Sys2Proof.Machine.execCloseWindow sequence settleCode s
  | .cancelWindow sequence => Sys2Proof.Machine.execCancelWindow sequence s
  | .audit circuit => Sys2Proof.Machine.execAudit circuit s
  | .census circuit => Sys2Proof.Machine.execCensus circuit s
  | .holdAudits => Sys2Proof.Machine.execHoldAudits s
  | .releaseAudits => Sys2Proof.Machine.execReleaseAudits s
  | .sweep station port => Sys2Proof.Machine.execSweep station port s
  | .readReport => Sys2Proof.Machine.execReadReport s
  | .readCircuit circuit => Sys2Proof.Machine.execReadCircuit circuit s
  | .readWindows => Sys2Proof.Machine.execReadWindows s
  | .readRoster => Sys2Proof.Machine.execReadRoster s
  | .readPort port => Sys2Proof.Machine.execReadPort port s
  | .loopReset => Sys2Proof.Machine.execLoopReset s
  | .restart => Sys2Proof.Machine.execRestart s
  | .invalidCommandFrame frame => Sys2Proof.Machine.execInvalidCommandFrame frame s
  | .readTransaction clocked => Sys2Proof.Machine.execReadTransaction clocked s
  | .noticeReceived bytes => Sys2Proof.Machine.execNoticeReceived bytes s
  | .idleFillReceived => Sys2Proof.Machine.execIdleFillReceived s
  | .transmitComplete => Sys2Proof.Machine.execTransmitComplete s
  | .insertionPlaceGrant => Sys2Proof.Machine.execInsertionPlaceGrant s
  | .returnTimeout number => Sys2Proof.Machine.execReturnTimeout number s
  | .lingerEnd number => Sys2Proof.Machine.execLingerEnd number s
  | .silenceTimeout => Sys2Proof.Machine.execSilenceTimeout s
  | .joinDispatch => Sys2Proof.Machine.execJoinDispatch s
  | .presentDispatch => Sys2Proof.Machine.execPresentDispatch s
  | .windowOpenDispatch => Sys2Proof.Machine.execWindowOpenDispatch s
  | .windowCancelDispatch => Sys2Proof.Machine.execWindowCancelDispatch s
  | .windowCloseDispatch => Sys2Proof.Machine.execWindowCloseDispatch s
  | .tallyDispatch => Sys2Proof.Machine.execTallyDispatch s
  | .probeStartDispatch => Sys2Proof.Machine.execProbeStartDispatch s
  | .sightingDispatch => Sys2Proof.Machine.execSightingDispatch s
  | .probeEndDispatch => Sys2Proof.Machine.execProbeEndDispatch s
  | .strayDispatch => Sys2Proof.Machine.execStrayDispatch s
  | .spanAlarmDispatch => Sys2Proof.Machine.execSpanAlarmDispatch s
  | .spanAlarmRestoreDispatch => Sys2Proof.Machine.execSpanAlarmRestoreDispatch s
  | .loopResetDispatch => Sys2Proof.Machine.execLoopResetDispatch s
  | .dwellEnd found => Sys2Proof.Machine.execDwellEnd found s
  | .watchExpiry circuit => Sys2Proof.Machine.execWatchExpiry circuit s
  | .lossInputAsserted port => Sys2Proof.Machine.execLossInputAsserted port s
  | .lossInputReleased port => Sys2Proof.Machine.execLossInputReleased port s
  | .holdOffExpiry port => Sys2Proof.Machine.execHoldOffExpiry port s
  | .deadlineExpiry slot => Sys2Proof.Machine.execDeadlineExpiry slot s
  | .settleTimerExpiry sequence => Sys2Proof.Machine.execSettleTimerExpiry sequence s
  | .coalescingTimerExpiry => Sys2Proof.Machine.execCoalescingTimerExpiry s
  | .baseLaunch => Sys2Proof.Machine.execBaseLaunch s
  | .sweepLaunch => Sys2Proof.Machine.execSweepLaunch s

end Sys2Proof.Machine
end

