-- ==== Sys2Proof/Machine/Idle.lean ====
section
/-! DEFINITION. The steps a station takes on its own when no command waits (log 1, log 2). -/

namespace Sys2Proof.Machine

/-- The row that dispatches a notice (R143). -/
def dispatchRow : Payload → Instr
  | .join _ _ => .joinDispatch
  | .present _ _ => .presentDispatch
  | .windowOpen _ _ => .windowOpenDispatch
  | .windowCancel _ => .windowCancelDispatch
  | .windowClose _ => .windowCloseDispatch
  | .tally _ _ => .tallyDispatch
  | .probeStart _ _ _ _ => .probeStartDispatch
  | .sighting _ => .sightingDispatch
  | .probeEnd _ _ _ _ => .probeEndDispatch
  | .stray _ _ _ _ => .strayDispatch
  | .spanAlarm .restore _ => .spanAlarmRestoreDispatch
  | .spanAlarm _ _ => .spanAlarmDispatch
  | .loopReset => .loopResetDispatch

/-- A command when a condition holds. -/
def readyIf (b : Bool) (c : Instr) : List Instr := if b then [c] else []

/-- The dispatch of the oldest received notice. -/
def readyDispatch (s : State) : List Instr := (s.loop.receive.head?.map fun r => dispatchRow r.payload).toList

/-- Launches and grants that are ready (R120, R127, R147). -/
def readyWork (s : State) : List Instr :=
  readyIf (placeFree s && (nextClaim s).isSome) .insertionPlaceGrant ++
    readyIf (baseLaunchChoice s).isSome .baseLaunch ++
    readyIf (sweepLaunchChoice s).isSome .sweepLaunch

/-- A time has come. -/
def due (s : State) (t : Option Nat) : Bool := t.any (· ≤ s.now)

/-- The time a monitor's hold-off expires. -/
def LossMonitor.timer : LossMonitor → Option Nat
  | .lossPending t | .clearPending t => some t
  | .clear | .loss => none

/-- The time a settle timer expires. -/
def SettleTimer.timer : SettleTimer → Option Nat
  | .running t => some t
  | .stopped | .expired => none

/-- The step that the 20 ms after the last transmission of a notice bring (R150, R152). -/
def Outstanding.step (o : Outstanding) : List Instr :=
  match o.standing with
  | .inFlight => [.returnTimeout o.number]
  | .lingering => [.lingerEnd o.number]
  | .retryWaiting => []

/-- Expiries of the Loop Port and the Control Port that are due. -/
def readyPortTimers (s : State) : List Instr :=
  readyIf (due s s.ctl.coalescing) .coalescingTimerExpiry ++
    readyIf (s.loop.up && due s s.loop.silence) .silenceTimeout ++
    s.loop.outstanding.flatMap fun o =>
      if o.lastSent + Config.returnMs ≤ s.now then o.step else []

/-- Deadlines that are due. -/
def readyDeadlines (s : State) : List Instr :=
  (List.range Config.slotCount).flatMap fun i =>
    readyIf ((probeAt s i).any fun p => p.phase == .driving && due s p.deadline) (.deadlineExpiry i)

/-- Hold-offs that are due. -/
def readyHoldOffs (s : State) : List Instr :=
  (List.range 16).flatMap fun p =>
    readyIf (due s (s.scanner.monitors.getD p .clear).timer) (.holdOffExpiry p)

/-- Settle timers of this station's windows that are due. -/
def readySettles (s : State) : List Instr :=
  s.windows.list.flatMap fun w =>
    readyIf (w.serial.opener == s.own && due s w.settle.timer) (.settleTimerExpiry w.serial.seq)

/-- Watch entries whose expiry has come. -/
def readyWatches (s : State) : List Instr :=
  s.scanner.watch.flatMap fun w => readyIf (w.expiry ≤ s.now) (.watchExpiry w.circuit)

/-- The station's own steps that are ready. -/
def ownSteps (s : State) : List Instr :=
  readyDispatch s ++ readyWork s ++ readyPortTimers s ++ readyDeadlines s ++ readyHoldOffs s ++
    readySettles s ++ readyWatches s

/-- One ms passes. -/
def tick (s : State) : State := s.setNow (s.now + 1)

/-- The ready step taken, when there are several: a free choice (log 2). -/
def chosenStep (s : State) (ready : List Instr) : Option Instr :=
  ready[Config.ownStepOrder s.choices % ready.length]?

/-- What the block does on an empty queue: it queues one of its own steps that are ready, or else one
ms passes (log 1, log 2). -/
def idle (s : State) : State :=
  match ownSteps s with
  | [] => tick s
  | [c] => s.setPending [c]
  | ready => (s.setPending (chosenStep s ready).toList).setChoices (s.choices + 1)

end Sys2Proof.Machine
end

