-- ==== Sys2Proof/Safety.lean ====
section
/-! DEFINITION. Invariants of the blocks: what the rules say of every state, as properties that each step
keeps. Each is about one block and the few others it is tied to. -/

namespace Sys2Proof.Machine

/-! ### Control Port (R180, R181) -/

/-- The response is the record at the head of the report queue. -/
def ControlPort.headAnswered (c : ControlPort) : Bool :=
  match c.queue, c.response with
  | (n, r) :: _, some a => a.data == .report n r
  | _, _ => false

/-- No READ PORT waits for its dwell. -/
abbrev TagScanner.noneWanted (x : TagScanner) : Prop :=
  x.request = none ∧ x.dwell.all (!·.wanted) = true

/-- The report queue and its number, and the record that a READ REPORT response holds (R180, R181): while
a record waits to leave, it is the head of the queue and the response shows it. -/
abbrev ReportsOk (s : State) : Prop :=
  s.ctl.queue.length ≤ Config.reportCapacity ∧ s.ctl.reportNumber < 256 ∧
    (s.ctl.reportHeld = true → s.ctl.headAnswered = true ∧ s.scanner.noneWanted) ∧
    (s.runState = .starting → s.scanner.noneWanted)

/-! ### Loop Port (chapter 7) -/

/-- How many numbers an outstanding notice lies before the own notice number. -/
def LoopPort.age (l : LoopPort) (o : Outstanding) : Nat := (l.number + 256 - o.number) % 256

/-- The Loop Port in bypass (R144). -/
abbrev LoopPort.bypassed (l : LoopPort) : Prop :=
  l.forward = [] ∧ l.newNotices = [] ∧ l.retries = [] ∧ l.outstanding = [] ∧ l.receive = [] ∧
    l.up = false

/-- The four collections hold 8 notices at most; the silence timer runs exactly while the loop is UP;
everything is empty in bypass, and nothing is received outside RUNNING (R144, R150, R153). -/
abbrev CollectionsOk (s : State) : Prop :=
  s.loop.forward.length ≤ 8 ∧ s.loop.newNotices.length ≤ 8 ∧ s.loop.receive.length ≤ 8 ∧
    s.loop.outstanding.length ≤ 8 ∧ s.loop.up = s.loop.silence.isSome ∧
    (s.runState = .starting → s.loop.bypassed) ∧ (s.runState ≠ .running → s.loop.receive = [])

/-- The outstanding notices carry different numbers, in the order sent, the oldest at most 32 before the
own notice number, and the retry copies are those of the RETRY WAITING entries, each once (R148, R151). -/
abbrev NumbersOk (s : State) : Prop :=
  s.loop.number < 256 ∧
    (s.loop.outstanding.map s.loop.age).Pairwise (· > ·) ∧
    (∀ o ∈ s.loop.outstanding, o.number < 256 ∧ 1 ≤ s.loop.age o ∧ s.loop.age o ≤ 32) ∧
    s.loop.retries.Nodup ∧
    (∀ n ∈ s.loop.retries, ∃ o ∈ s.loop.outstanding, o.number = n ∧ o.standing = .retryWaiting) ∧
    ∀ o ∈ s.loop.outstanding, o.standing = .retryWaiting → o.number ∈ s.loop.retries

/-! ### Probe Unit (R47, R56) -/

/-- The probes of the slots outside IDLE. -/
def probesOf (s : State) : List Probe := s.probes.slots.filterMap id

/-- The deadline timer runs exactly in DRIVING, records are held in DRIVING only, and no (station, port)
is held twice (R47, R56). -/
abbrev Probe.ok (p : Probe) : Prop :=
  p.deadline.isSome = (p.phase == .driving) ∧ (p.phase ≠ .driving → p.pool = []) ∧
    (p.pool.map fun r => (r.station, r.port)).Nodup

/-- Four slots hold different circuits and share 128 records (R47, R56). -/
abbrev SlotsOk (s : State) : Prop :=
  s.probes.slots.length = Config.slotCount ∧ ((probesOf s).map (·.circuit)).Nodup ∧
    recordsHeld s ≤ Config.poolSize ∧ ∀ p ∈ probesOf s, p.ok

/-! ### Audit Scheduler (R122, R124) -/

/-- A stack entry is BASE. -/
def StackEntry.isBase (e : StackEntry) : Bool := e.run.isNone

/-- A run's circuits are different; 8 merged spans and an overflow of 255 at most (R122). -/
abbrev Run.ok (r : Run) : Prop :=
  (r.entries.map (·.circuit)).Nodup ∧ r.merged.length ≤ Config.mergedCapacity ∧ r.overflow ≤ 255

/-- The run that a slot's verdict is credited to is an older one than the next (log 8). -/
def Probe.ownedBefore (n : Nat) (p : Probe) : Bool :=
  match p.owner with
  | .base => true
  | .run id => id < n

/-- The stack holds 4 entries at most and is empty exactly while BASE is current; the BASE entry is at
its bottom and nowhere else; while it is not empty, the admission flag is clear; the runs have different
identities, and those the slots name are not those of runs to come (R124, log 8). -/
abbrev SchedulerOk (s : State) : Prop :=
  s.sched.stack.length ≤ Config.stackCapacity ∧ (s.sched.current = none ↔ s.sched.stack = []) ∧
    (s.sched.stack ≠ [] → s.sched.admission = false) ∧
    s.sched.stack.map StackEntry.isBase =
      List.replicate (s.sched.stack.length - 1) false ++ (if s.sched.stack = [] then [] else [true]) ∧
    (∀ r ∈ allRuns s, r.ok ∧ r.id < s.sched.nextRun) ∧ ((allRuns s).map (·.id)).Nodup ∧
    (∀ p ∈ probesOf s, p.ownedBefore s.sched.nextRun = true) ∧
    (s.runState ≠ .running → s.sched.stack = [] ∧ s.loop.receive = [])

/-! ### Window Unit (R89, R90, R94) -/

/-- The serials of the WINDOW OPENs taken and waiting for dispatch. -/
def waitingSerials (s : State) : List Serial :=
  s.loop.receive.filterMap fun r =>
    match r.payload with
    | .windowOpen ser _ => some ser
    | _ => none

/-- The listed serials are different, and with the WINDOW OPENs waiting for dispatch there are 8 at most,
so each of those finds its place (R89, R94). -/
abbrev WindowsOk (s : State) : Prop :=
  (s.windows.list.map (·.serial)).Nodup ∧
    (s.windows.list.map (·.serial) ++ waitingSerials s).toFinset.card ≤ Config.windowCapacity ∧
    s.windows.seq < 256

/-! ### Tag Scanner (R30, R31, R37, R42, R43) -/

/-- The circuits of the PROBE STARTs taken and waiting for dispatch. -/
def waitingStarts (s : State) : List Nat :=
  s.loop.receive.filterMap fun r =>
    match r.payload with
    | .probeStart c _ _ _ => some c
    | _ => none

/-- The watch list stands in circuit order, one entry a circuit, and with the PROBE STARTs waiting for
dispatch it has 16 at most; the other lists keep their capacities (R30, R31, R37, R42). -/
abbrev ScannerOk (s : State) : Prop :=
  (s.scanner.watch.map (·.circuit)).Pairwise (· < ·) ∧
    (s.scanner.watch.map (·.circuit) ++ waitingStarts s).toFinset.card ≤ Config.watchCapacity ∧
    s.scanner.backlog.length ≤ Config.backlogCapacity ∧
    s.scanner.strays.length ≤ Config.strayCapacity ∧ s.scanner.monitors.length = 16

/-! ### Circuit Table (R1, R4) -/

/-- One entry a circuit in circuit order, 256 at most, and a HEAD entry for every originated circuit. -/
abbrev CircuitTableOk (s : State) : Prop :=
  (s.hops.map (·.circuit)).Pairwise (· < ·) ∧ s.hops.length ≤ Config.hopCapacity ∧
    (∀ r ∈ s.paths, ∃ e ∈ s.hops, e.circuit = r.circuit ∧ e.role = .head) ∧
    (s.runState ≠ .running → s.hops = [] ∧ s.paths = [] ∧ s.loop.receive = [])

/-! ### Path Store (R14, R15, R17, R77) -/

/-- HELD only with a hold; held serials only in HELD and PROBING; holds, owed serials and queued routine
or sweep work only with a baseline; no serial twice in a list. -/
abbrev PathRecord.ok (r : PathRecord) : Prop :=
  (r.state = .held → r.hold ≠ []) ∧ (r.hold ≠ [] → r.state = .held ∨ r.state = .probing) ∧
    (r.hold ≠ [] ∨ r.owed ≠ [] → r.baseline.isSome = true) ∧
    (r.state = .queued .routine ∨ r.state = .queued .sweep → r.baseline.isSome = true) ∧
    r.hold.Nodup ∧ r.owed.Nodup

/-- The records are of different circuits, and each is as R14, R15 and R77 say. -/
abbrev RecordsOk (s : State) : Prop := (pathOrder s).Nodup ∧ ∀ r ∈ s.paths, r.ok

/-! ### Roster Unit (R160, R161, R168) -/

/-- Recorded grades are 1 or 2; a miss run is 3 at most, and below 3 while PRESENT (R160, R166). -/
abbrev RosterEntry.ok (e : RosterEntry) : Prop :=
  e.missRun ≤ 3 ∧ (e.present = true → e.missRun ≤ 2) ∧ ∀ a ∈ e.advert, a.grade = 1 ∨ a.grade = 2

/-- 24 entries; the loop grade and the batching permission are those of the roster (R160, R168). -/
abbrev RosterOk (s : State) : Prop :=
  s.roster.entries.length = 24 ∧ s.roster.grade = loopGradeOf s.roster.entries ∧
    s.roster.batching = batchingOf s.roster.entries ∧ ∀ e ∈ s.roster.entries, e.ok

/-! ### Marker Unit (R23, R24, R69) -/

/-- The epoch a circuit's marker line carries: its probe's while DRIVING, else 0 (R24). -/
def markedEpoch (s : State) (c : Nat) : Nat :=
  match (probesOf s).find? (fun p => p.circuit == c && p.phase == .driving) with
  | some p => p.epoch
  | none => 0

/-- Each originated circuit's line carries its tag; outside RUNNING no line is marked and every slot is
IDLE (R23, R24, R69). -/
abbrev MarkersOk (s : State) : Prop :=
  s.lines.length = 32 ∧ (pathOrder s).Nodup ∧ (s.paths.map (·.line)).Nodup ∧
    (∀ r ∈ s.paths, r.line < 32 ∧ s.lines.getD r.line none = some (r.circuit, markedEpoch s r.circuit)) ∧
    ((probesOf s).map (·.circuit)).Nodup ∧
    (s.runState ≠ .running → s.lines = List.replicate 32 none ∧ probesOf s = [] ∧ s.paths = [])

/-! ### The work of a circuit (R19, R47, R115) -/

/-- The state of a circuit's record. -/
def stateOf (s : State) (c : Nat) : Option RecordState := (findPath s c).map (·.state)

/-- The census list holds exactly the circuits QUEUED for a census and the routine list those QUEUED for
a routine audit, each once; a slot in CLAIMING or DRIVING holds a circuit that is PROBING, and no two
slots one circuit; outside RUNNING there is no work (R19, R47, R69, R115). -/
abbrev WorkOk (s : State) : Prop :=
  (pathOrder s).Nodup ∧ s.sched.census.Nodup ∧ s.sched.routine.Nodup ∧
    (∀ c ∈ s.sched.census, stateOf s c = some (.queued .census)) ∧
    (∀ c ∈ s.sched.routine, stateOf s c = some (.queued .routine)) ∧
    (∀ r ∈ s.paths, r.state = .queued .census → r.circuit ∈ s.sched.census) ∧
    (∀ r ∈ s.paths, r.state = .queued .routine → r.circuit ∈ s.sched.routine) ∧
    ((probesOf s).map (·.circuit)).Nodup ∧
    (∀ p ∈ probesOf s, p.phase ≠ .closing → stateOf s p.circuit = some .probing) ∧
    (s.runState ≠ .running →
      s.sched.census = [] ∧ s.sched.routine = [] ∧ probesOf s = [] ∧ s.paths = [])

/-! ### Joining (R147, R161, R162) -/

/-- The JOINs of the station that have no outcome yet: requested, waiting to be sent, or sent. -/
def openJoins (s : State) : Nat :=
  s.roster.joinRequest.toNat + s.loop.newNotices.countP (·.payload.kind == 1) +
    s.loop.outstanding.countP fun o => o.standing != .lingering && o.request.payload.kind == 1

/-- One JOIN at most is under way, and only while JOINING; no slot is taken before the station is JOINED,
and it is JOINED only while RUNNING (R48, R147, R162). -/
abbrev JoiningOk (s : State) : Prop :=
  openJoins s ≤ (if s.runState = .running ∧ s.roster.joined = false then 1 else 0) ∧
    (s.runState ≠ .running → s.roster.joined = false) ∧
    (s.roster.joined = false → probesOf s = []) ∧ ∀ r ∈ s.windows.requests, r.payload.kind ≠ 1

/-! ### Station numbers (R139, R190, R197) -/

/-- The station numbers that a received notice brings to the pool. -/
def Received.stationsOk (a : Received) : Bool :=
  stationOk a.originator &&
    match a.payload with
    | .sighting items => items.all fun x => stationOk x.record.station
    | _ => true

/-- A RUNNING station, the notices it has taken and its pool records name stations 1 to 24; outside RUNNING
there are no slots (R139, R190, R197). -/
abbrev StationsOk (s : State) : Prop :=
  (s.runState = .running → stationOk s.image.station = true) ∧ (s.runState ≠ .running → probesOf s = []) ∧
    (∀ p ∈ probesOf s, ∀ r ∈ p.pool, stationOk r.station = true) ∧
    ∀ a ∈ s.loop.receive, a.stationsOk = true

/-! ## Words of the statements -/

/-! ### Commands -/

/-- A command of section 9.3: a row with a frame of its own, which passes the check of R172. -/
def controlCommand (c : Instr) : Bool :=
  match c with
  | .invalidCommandFrame _ => false
  | _ => (frameOfCommand c).isSome

/-- The commands served in PASSIVE (R174). -/
def servedInPassive (c : Instr) : Bool :=
  match c with
  | .status | .clearAlerts _ | .clearFaults _ | .readRoster | .restart => true
  | _ => false

/-- Power-on, RESTART and the end of a load: the rows that write image, finding and run state. -/
def loads (c : Instr) : Bool :=
  match c with
  | .powerOn | .restart | .loadEnd _ => true
  | _ => false

/-- The rows that move a loss-of-signal pin. -/
def movesPin (c : Instr) : Bool :=
  match c with
  | .lossInputAsserted _ | .lossInputReleased _ => true
  | _ => false

/-- What every frame taken does first: an out-of-turn dwell request ends (R29). -/
def requestEnded (s : State) : State :=
  s.setScanner { s.scanner with
    request := none, dwell := s.scanner.dwell.map fun d => { d with wanted := false } }

/-- The frame of a command is pending, without a response (R172, R174). -/
def heldCommand (c : Instr) (s : State) : State :=
  (requestEnded s).setCtl { s.ctl with command := some c, response := none, reportHeld := false }

/-- A command answered: the state its effect left, and the response (R172, R173). -/
def answered (c : Instr) (code : Byte) (r : ResultCode) (d : ResponseData) (s : State) : State :=
  (requestEnded s).setCtl
    { s.ctl with command := some c, response := some ⟨r, code, d⟩, reportHeld := false }

/-- The power-on state of the blocks, under what stands outside the station (R195, log 13). -/
def poweredOn (s : State) : State :=
  { State.reset with
    pending := s.pending, now := s.now, choices := s.choices, lossInputs := s.lossInputs }

/-! ### Flags -/

/-- The alert flags and the fault flags in the order of their bits (section 11.3). -/
def alertFlags : List Alert := [.report, .fault, .loop, .roster, .grade, .reset, .configWarn]
def faultFlags : List FaultFlag := [.config, .dupHead, .idClash, .ctFull, .pool, .reportOverrun]

/-! ### Audit requests (R17, R116) -/

/-- The state after audit requests for the records that a selection holds, in path-record order: the IDLE
ones are QUEUED and join their lists, a ROUTINE request for an UNBASED one as CENSUS. -/
def afterRequests (sel : PathRecord → Bool) (m : Mode) (o : Origin) (s : State) : State :=
  (s.setPaths (s.paths.map fun r =>
    if sel r && r.state == .idle then
      { r with
        state := .queued (if m = .routine ∧ r.baseline = none then .census else m), origin := some o }
    else r)).setSched { s.sched with
      census := s.sched.census ++ (s.paths.filter fun r =>
        sel r && r.state == .idle && (m == .census || m == .routine && r.baseline.isNone)).map (·.circuit)
      routine := s.sched.routine ++ (s.paths.filter fun r =>
        sel r && r.state == .idle && (m == .routine && r.baseline.isSome)).map (·.circuit) }

/-! ### Sweep runs (R122, R125, R130) -/

/-- The sweep run that a circuit's audit stands in: the owner of its slot, or the run in which it is
WAITING. -/
def holderOf (s : State) (c : Nat) : Option Nat :=
  match stateOf s c with
  | some .probing =>
    (probeOf s c).bind fun p =>
      match p.owner with
      | .run id => some id
      | .base => none
  | some (.queued .sweep) => (waitingRun s c).map (·.id)
  | _ => none

/-- A run after a newer alarm took circuits: those that stood in it are HANDED-ON (R130). -/
def overtaken (s : State) (taken : List Nat) (r : Run) : Run :=
  { r with entries := r.entries.map fun e =>
      if taken.contains e.circuit = true ∧ holderOf s e.circuit = some r.id then
        { e with standing := .handedOn }
      else e }

/-- A stack entry after a newer alarm took circuits. -/
def StackEntry.overtaken (s : State) (taken : List Nat) : StackEntry → StackEntry
  | .base => .base
  | .sweep r => .sweep (Machine.overtaken s taken r)

/-- The standing of a circuit's entry when an alarm takes it: LAUNCHED where a slot is probing (R124). -/
def takenStanding (s : State) (c : Nat) : RunStanding :=
  if stateOf s c = some .probing then .launched else .waiting

/-- The path records after an alarm for a span selected circuits and a run took some of them (R18). -/
def pathsTaken (s : State) (sp : Span) (selected taken : List Nat) : List PathRecord :=
  s.paths.map fun r =>
    { r with
      origin := if selected.contains r.circuit then some (.sweep sp) else r.origin
      state := if taken.contains r.circuit = true ∧ r.state ≠ .probing then .queued .sweep else r.state }

/-- The slots after a run took circuits (R61). -/
def slotsTaken (s : State) (id : Nat) (taken : List Nat) : List (Option Probe) :=
  s.probes.slots.map fun o => o.map fun p =>
    if p.phase ≠ .closing ∧ taken.contains p.circuit = true ∧ stateOf s p.circuit = some .probing then
      { p with mode := .sweep, owner := .run id }
    else p

/-- The routine list after a run took circuits (R18). -/
def routineTaken (s : State) (taken : List Nat) : List Nat :=
  s.sched.routine.filter fun c => !(taken.contains c && stateOf s c == some (.queued .routine))

/-- The runs of a stack whose entries are all closed, from the top (R124). -/
def completeIn (stack : List StackEntry) : List Run :=
  stack.filterMap fun e => e.run.filter (·.complete)

/-- The stack without those runs. -/
def openIn (stack : List StackEntry) : List StackEntry :=
  stack.filter fun e => !e.run.any (·.complete)

/-- The Control Port after the summaries of runs were posted (R131, R180). -/
def summariesPosted (runs : List Run) (s : State) : ControlPort :=
  (runs.foldl (fun u r => postReport (.sweepSummary r.summary) u) s).ctl

/-! ### Holds on queued circuits (R15, R128, R131) -/

/-- A hold on a circuit makes its entry in a run DEFERRED: it is QUEUED SWEEP, and WAITING there. -/
def defers (s : State) (c : Nat) (r : Run) : Bool :=
  stateOf s c == some (.queued .sweep) && (waitingRun s c).any (·.id == r.id)

/-- A run after circuits were held. -/
def deferredIn (s : State) (held : List Nat) (r : Run) : Run :=
  { r with entries := r.entries.map fun e =>
      if held.contains e.circuit = true ∧ defers s e.circuit r = true then { e with standing := .deferred }
      else e }

/-- The last hold on a circuit of a run closed its last open entry. -/
def holdsComplete (s : State) (held : List Nat) (r : Run) : Bool :=
  (held.any fun c => defers s c r) && (deferredIn s held r).complete

/-- The current run and the stack after circuits were held, without the runs that completed. -/
def stackHeld (s : State) (held : List Nat) : List StackEntry :=
  ((s.sched.current.toList.map StackEntry.sweep ++ s.sched.stack).filter fun e =>
    !e.run.any (holdsComplete s held)).map fun e =>
      match e with
      | .base => .base
      | .sweep r => .sweep (deferredIn s held r)

/-- The Audit Scheduler after circuits were held: they leave its lists, and a pop to BASE brings the shadow. -/
def schedHeld (s : State) (held : List Nat) : Scheduler :=
  { s.sched with
    census := s.sched.census.filter fun c => !(held.contains c && stateOf s c == some (.queued .census))
    routine := s.sched.routine.filter fun c => !(held.contains c && stateOf s c == some (.queued .routine))
    current := (stackHeld s held).head?.bind (·.run)
    stack := (stackHeld s held).tail
    admission := if s.sched.current ≠ none ∧ stackHeld s held = [.base] then s.sched.shadow
      else s.sched.admission }

/-- The runs that holds on circuits completed, in the order of their last hold. -/
def runsHeldOut (s : State) (held : List Nat) : List Run :=
  held.filterMap fun c => ((allRuns s).find? fun r =>
    holdsComplete s held r && (held.filter fun d => defers s d r).getLast? == some c).map (deferredIn s held)

/-! ### Acceptance records (R141) -/

/-- Number n lies 1 to 31 before number m, modulo 256. -/
def liesBefore (m n : Nat) : Bool := 1 ≤ (m + 256 - n) % 256 && (m + 256 - n) % 256 ≤ 31

/-- Number n is in the taken set, the set of the 31 numbers before the last accepted one. -/
def Acceptance.inTakenSet (a : Acceptance) (n : Nat) : Bool :=
  (List.range 31).any fun k => a.taken.getLsbD (k + 1) && n == (a.last + 255 - k) % 256

/-- The class of a notice against a record: a repeat, or new (R141). -/
def classedRepeat (old : Option Acceptance) (m : Nat) (isJoin : Bool) : Bool :=
  match old with
  | none => false
  | some a => if isJoin then m == a.last && a.wasJoin else m == a.last || a.inTakenSet m

/-- A record after a new notice of number m was taken: a JOIN, a first notice, a late copy, or a newer one,
whose taken set keeps what now lies 1 to 31 before it (R141). -/
abbrev TakenInto (m : Nat) (isJoin : Bool) (old new : Option Acceptance) : Prop :=
  (isJoin = true → new = some ⟨m, true, 0⟩) ∧
  (isJoin = false → old = none → new = some ⟨m, false, 0⟩) ∧
  (isJoin = false → ∀ a, old = some a → a.last < 256 → ∃ b, new = some b ∧
    (liesBefore a.last m = true → b.last = a.last ∧ b.wasJoin = a.wasJoin ∧
      ∀ n ∈ List.range 256, b.inTakenSet n = (a.inTakenSet n || n == m)) ∧
    (liesBefore a.last m = false → b.last = m ∧ b.wasJoin = false ∧
      ∀ n ∈ List.range 256, b.inTakenSet n = (liesBefore m n && (n == a.last || a.inTakenSet n))))

/-! ### Pool records (R73) -/

/-- The in-class and the out-class records of a station. -/
def inRecords (pool : List PoolRecord) (x : Nat) : List PoolRecord :=
  pool.filter fun r => r.station == x && (r.cls == .lineIn || r.cls == .add)
def outRecords (pool : List PoolRecord) (x : Nat) : List PoolRecord :=
  pool.filter fun r => r.station == x && (r.cls == .lineOut || r.cls == .drop)

/-! ### Dwells (R39 to R42) -/

/-- The station at the end of a dwell, when its result is handled: the watch entries whose expiry time is
reached then are gone (R27, R33). -/
def atDwellEnd (d : Dwell) (s : State) : State :=
  (s.setNow (max s.now d.ends)).setScanner { s.scanner with
    watch := s.scanner.watch.filter fun w => decide (max s.now d.ends < w.expiry) }

/-- The stray checks stand on a port: its monitor is CLEAR, and no window of this station holds it (R41). -/
def straysChecked (s : State) (p : Nat) : Bool :=
  s.scanner.monitors.getD p .clear == .clear && !inOwnWindow s p

/-- Idle marking on a port shows the entry of its circuit MISPLACED (R39, R41). -/
def showsMisplaced (s : State) (p : Nat) (e : HopEntry) : Bool :=
  straysChecked s p && (findWatch s e.circuit).isNone && !e.latch && e.ingress != p &&
    e.egress != some p && !(e.role == .head && e.egress.isNone && (s.image.classAt p).isOut)

/-- A dwell on its ingress port counts a circuit as missing: it is not listed, and an overflowed list does
not hide it (R40). -/
def notSeen (r : DwellResult) (c : Nat) : Bool :=
  !r.tags.any (·.circuit == c) && !(r.overflow && r.tags.all (·.circuit < c))

/-- An entry's missing run after a dwell on its ingress port (R40). -/
def missingAfter (r : DwellResult) (e : HopEntry) : Nat :=
  if r.tags.any (·.circuit == e.circuit) then 0
  else if notSeen r e.circuit then min 3 (e.missing + 1) else e.missing

/-- The strays that a dwell of idle markings shows, in the order of R27. -/
def straysShown (s : State) (r : DwellResult) : List (HopEntry × StrayKind) :=
  ((r.tags.filterMap fun g => findHop s.hops g.circuit).filter (showsMisplaced s r.port)).map (·, .misplaced) ++
    (s.hops.filter fun e => e.ingress == r.port && straysChecked s r.port && !e.latch &&
      notSeen r e.circuit && decide (2 ≤ e.missing)).map (·, .missing)

/-- Those of them that join the pending stray list: of circuits of other heads, while it has room (R42). -/
def straysListed (s : State) (r : DwellResult) : List (HopEntry × StrayKind) :=
  ((straysShown s r).filter fun x => x.1.headStation != s.image.station).take (8 - s.scanner.strays.length)

/-- The circuits of this station among them, which are audited instead (R42). -/
def straysOwn (s : State) (r : DwellResult) : List Nat :=
  ((straysShown s r).filter fun x => x.1.headStation == s.image.station).map (·.1.circuit)

/-! ### Span alarms (R44, R45) -/

/-- The pending alarm list after an alarm of a port of this station: it replaces one of the port that
waits, in its place (R45). -/
def alarmsWith (a : Alarm) (l : List Alarm) : List Alarm :=
  if l.any fun b => b.kind != .test && b.span.port == a.span.port then
    l.map fun b => if b.kind ≠ .test ∧ b.span.port = a.span.port then a else b
  else l ++ [a]

/-- The pending alarm list after a port's monitor changed: nothing inside an own window (R44). -/
def alarmsRaised (k : AlarmKind) (p : Nat) (s : State) : List Alarm :=
  if inOwnWindow s p then s.scanner.alarms else alarmsWith ⟨k, ⟨s.image.station, p⟩⟩ s.scanner.alarms

/-! ### Delivery outcomes (R50, R152, R166) -/

/-- The miss runs after a delivery: back to 0 at a marked station; one more at a PRESENT station without a
mark, which is ABSENT at 3; an ABSENT one stays (R166). -/
abbrev MissesFed (b : BestMarks) (s t : State) : Prop :=
  ∀ x ∈ stationNumbers, x ≠ s.image.station →
    (isPresent s x = false → rosterAt t x = rosterAt s x) ∧
    (isPresent s x = true → stationIn b.taken x = true ∨ stationIn b.refused x = true →
      rosterAt t x = { rosterAt s x with missRun := 0 }) ∧
    (isPresent s x = true → stationIn b.taken x = false → stationIn b.refused x = false →
      rosterAt t x = { rosterAt s x with
        missRun := (rosterAt s x).missRun + 1, present := decide ((rosterAt s x).missRun + 1 < 3) } ∧
      (3 ≤ (rosterAt s x).missRun + 1 → t.ctl.alertSet .roster = true))

/-- A slot that a PROBE START's outcome took to DRIVING, with the blind set and the absent list of R50;
stations that this delivery turned ABSENT stand in the absent list as well (R64). -/
abbrev Driven (b : BestMarks) (loopLost : Bool) (p q : Probe) (r : PathRecord) (s t : State) : Prop :=
  q = { p with
    phase := .driving, blind := q.blind, absent := q.absent, absentLost := q.absent != 0
    loopLost := loopLost, lowGrade := q.lowGrade
    deadline := some (t.now + deadlineMs s.image.deadlineCode) } ∧
  (∀ n ∈ stationNumbers, stationIn q.blind n = (n != s.image.station &&
    ((isPresent s n && !stationIn b.taken n) || stationIn p.joiners n))) ∧
  (∀ n ∈ stationNumbers, stationIn q.absent n = (n != s.image.station && !isPresent t n &&
    (r.baseline.getD []).any fun h => h.station == n)) ∧
  (RosterOk s → isPresent s s.image.station = true → q.lowGrade = p.lowGrade)

/-! ### Holds (R15, R16) -/

/-- The removal of a serial empties the hold list of a HELD record. -/
def freed (ser : Serial) (r : PathRecord) : Bool :=
  r.state == .held && r.hold.contains ser && r.hold.erase ser == []

/-- A record after a serial left its hold list (R16). -/
def released (ser : Serial) (r : PathRecord) : PathRecord :=
  { r with
    hold := r.hold.erase ser
    state := if freed ser r then .queued .routine else r.state
    origin := if freed ser r then some (.window ser) else r.origin }

/-- The state after a serial left the hold list of every record (R16). -/
def afterRelease (ser : Serial) (s : State) : State :=
  (s.setPaths (s.paths.map (released ser))).setSched { s.sched with
    routine := s.sched.routine ++ (s.paths.filter (freed ser)).map (·.circuit) }

/-- A record after a serial joined its hold and owed lists (R14, R15). -/
def heldFor (ser : Serial) (r : PathRecord) : PathRecord :=
  { r with
    hold := r.hold ++ [ser]
    owed := if r.owed.contains ser then r.owed else r.owed ++ [ser]
    state := if r.state = .probing then .probing else .held }

/-- A record whose baseline crosses the scope of a window, and that it does not hold yet (R93). -/
def takesHold (ser : Serial) (scope : PortSet) (r : PathRecord) : Bool :=
  ((r.baseline.getD []).any fun h =>
    h.station == ser.opener && (portIn scope h.ingress || portIn scope h.egress)) && !r.hold.contains ser

/-! ### Windows -/

/-- The settle time of a code in ms (the table of R100). -/
def settleTimeMs (default code : Nat) : Nat :=
  let c := if code = 255 then default else code
  if c ≤ 120 then c * 1000
  else if c ≤ 180 then (120 + (c - 120) * 10) * 1000
  else (720 + (c - 180) * 60) * 1000

/-- The window list with one window rewritten. -/
def rewritten (ser : Serial) (f : Window → Window) (s : State) : List Window :=
  s.windows.list.map fun w => if w.serial = ser then f w else w

/-! ### Credits and tallies (R105 to R108) -/

/-- The counts of a window after a verdict on circuit c was credited to it (R105). -/
def countedIn (c : Nat) (v : Verdict) (n : Tally) : Tally :=
  { held := n.held
    passed := if v = .pass ∨ v = .baselined then n.passed + 1 else n.passed
    changed := if v = .rerouted ∨ v = .degraded then n.changed + 1 else n.changed
    failed := if v = .broken ∨ v = .misrouted ∨ v = .conflict then n.failed + 1 else n.failed
    incomplete := if v = .incomplete then n.incomplete + 1 else n.incomplete
    firstFailing := if n.firstFailing = none ∧ (v = .broken ∨ v = .misrouted ∨ v = .conflict) then some c
      else n.firstFailing }

/-- The pending notices after a window notice was requested (R91). One of its kind and serial that waits already
keeps its payload, and its outcome counts for the Window Unit (log 29). -/
def noticeAsked (p : Payload) (l : List Request) : List Request :=
  if l.any fun q => q.payload.kind == p.kind && q.payload.windowSerial == p.windowSerial then
    l.map fun q =>
      if q.payload.kind = p.kind ∧ q.payload.windowSerial = p.windowSerial then { q with purpose := .own }
      else q
  else l ++ [⟨p, .own⟩]

/-- The pending notices after a TALLY with counts n was requested (R91, R106). -/
def tallyAsked (ser : Serial) (n : Tally) (l : List Request) : List Request := noticeAsked (.tally ser n) l

/-- A due tally of the opener is recorded in its own table (R106, R108). -/
def Window.talliesHere (w : Window) (own : Nat) : Bool :=
  w.serial.opener == own && (w.state == .closing || w.state == .collecting) &&
    (w.tableAt own == .awaited || w.tableAt own == .unreached || w.tableAt own == .missing)

/-- A due tally of another station is sent to the opener (R106). -/
def Window.talliesAway (w : Window) (own : Nat) : Bool :=
  w.serial.opener != own && w.state == .closed && w.tally == .notDue

/-- A window at station `own` after a credit of verdict v on circuit c, and the tally that this may make due
(R105, R106). -/
def Window.credited (own c : Nat) (v : Verdict) (due : Bool) (w : Window) : Window :=
  { w with
    counts := countedIn c v w.counts
    tally := if due && w.talliesAway own then .pending else w.tally
    table := if due && w.talliesHere own then w.table.set (own - 1) (.received (countedIn c v w.counts))
      else w.table }

/-- The serials that an evaluation credits: those that its record owes, unless it is held or the probe
overlapped a hold (R20, R105). -/
def creditedSerials (p : Probe) (r : PathRecord) : List Serial :=
  if r.hold = [] ∧ p.overlap = false then r.owed else []

/-- No record owes the serial once that of circuit c owes nothing (R106). -/
def owedByNone (s : State) (c : Nat) (ser : Serial) : Bool :=
  s.paths.all fun x => x.circuit == c || !x.owed.contains ser

/-- A listed window after its credit by an evaluation with verdict v. -/
def afterCredit (p : Probe) (v : Verdict) (s : State) (w : Window) : Window :=
  w.credited s.image.station p.circuit v (owedByNone s p.circuit w.serial)

/-- The credit brings the last tally that its opener awaits (R106, R108, R110). -/
def summedUp (p : Probe) (v : Verdict) (s : State) (w : Window) : Bool :=
  owedByNone s p.circuit w.serial && w.talliesHere s.image.station && w.state == .collecting &&
    (afterCredit p v s w).table.all (· != .awaited)

/-- The listed windows that an evaluation credits, in the order of the owed list. -/
def creditedWindows (p : Probe) (r : PathRecord) (s : State) : List Window :=
  (creditedSerials p r).filterMap (findWindow s)

/-- The Window Unit after the credits of an evaluation with verdict v (R105, R106, R110). -/
def windowsCredited (p : Probe) (r : PathRecord) (v : Verdict) (s : State) : WindowUnit :=
  { list := (s.windows.list.filter fun w =>
      !((creditedSerials p r).contains w.serial && summedUp p v s w)).map fun w =>
        if (creditedSerials p r).contains w.serial then afterCredit p v s w else w
    seq := s.windows.seq
    requests := ((creditedWindows p r s).filter fun w =>
      owedByNone s p.circuit w.serial && w.talliesAway s.image.station).foldl
        (fun l w => tallyAsked w.serial (countedIn p.circuit v w.counts) l) s.windows.requests }

/-- The reports of an evaluation: the summaries its credits bring, then its verdict (R54, R110). -/
def evaluationReports (p : Probe) (r : PathRecord) (v : VerdictRecord) (s : State) : List Report :=
  (((creditedWindows p r s).filter (summedUp p v.verdict s)).map fun w =>
    .windowSummary (afterCredit p v.verdict s w).summary) ++ [.verdict v]

/-- The Control Port after several posts, one after the other (R180). -/
def postedAll (l : List Report) (s : State) : ControlPort :=
  (l.foldl (fun u x => postReport x u) s).ctl

/-- A record after an evaluation: HELD stays; an overlapped probe is audited again for the first window it
owes; any other owes nothing now (R20). -/
abbrev MovedByVerdict (p : Probe) (r x : PathRecord) : Prop :=
  x.hold = r.hold ∧
  (r.hold ≠ [] → x.state = .held ∧ x.owed = r.owed) ∧
  (r.hold = [] → p.overlap = false → x.state = .idle ∧ x.owed = []) ∧
  (r.hold = [] → p.overlap = true → r.owed = [] → x.state = .idle) ∧
  (∀ (ser : Serial) (rest : List Serial), r.owed = ser :: rest → r.hold = [] → p.overlap = true →
    x.state = .queued .routine ∧ x.origin = some (.window ser) ∧ x.owed = r.owed)

/-- The state after a cancel of a serial in the Path Store and its list (step 1 of R97). -/
def afterCancel (ser : Serial) (s : State) : State :=
  (afterRelease ser s).setPaths ((afterRelease ser s).paths.map fun r => { r with owed := r.owed.erase ser })

/-! ### Stations that leave a tally table (R109, R110) -/

/-- A window of this station in CLOSING or COLLECTING awaits none of the lost stations any more (R109). -/
def Window.losing (own : Nat) (lost : Nat → Bool) (w : Window) : Window :=
  { w with table := w.table.mapIdx fun k x =>
      if w.serial.opener = own ∧ (w.state = .closing ∨ w.state = .collecting) ∧ x = .awaited ∧
        lost (k + 1) = true then .missing else x }

/-- That brings the summary of a COLLECTING window: a station was lost, and none is awaited (R110). -/
def Window.lostLast (own : Nat) (lost : Nat → Bool) (w : Window) : Bool :=
  w.serial.opener == own && w.state == .collecting && w.losing own lost != w &&
    (w.losing own lost).table.all (· != .awaited)

/-- The listed windows after stations were lost. -/
def windowsLosing (own : Nat) (lost : Nat → Bool) (l : List Window) : List Window :=
  (l.filter fun w => !w.lostLast own lost).map (·.losing own lost)

/-- The summaries that lost stations bring, in the order of the list. -/
def summariesLosing (own : Nat) (lost : Nat → Bool) (l : List Window) : List Report :=
  (l.filter (·.lostLast own lost)).map fun w => .windowSummary (w.losing own lost).summary

/-- A station was PRESENT and is ABSENT after a delivery (R166). -/
def turnedAbsent (s t : State) (n : Nat) : Bool :=
  n != s.image.station && isPresent s n && !isPresent t n

/-- What a delivery does to a slot in DRIVING: the absences (R64), and LOW-GRADE at a fall of the grade (R66), which
the block's own outcome alone can bring once this station is PRESENT in `mid`. -/
abbrev LosesStations (p q : Probe) (r : PathRecord) (mid s t : State) : Prop :=
  q = { p with
    absent := q.absent, lowGrade := q.lowGrade
    absentLost := p.absentLost || stationNumbers.any fun n =>
      turnedAbsent s t n && (r.baseline.getD []).any fun h => h.station == n } ∧
  (∀ n ∈ stationNumbers, stationIn q.absent n = (stationIn p.absent n ||
    (turnedAbsent s t n && (r.baseline.getD []).any fun h => h.station == n))) ∧
  (RosterOk s → isPresent mid s.image.station = true →
    q.lowGrade = (p.lowGrade || decide (mid.roster.grade < s.roster.grade)))

/-- What the absences of a delivery do to the slots in DRIVING, to the windows as the outcome left them in `mid`, and
to the reports after those of the outcome (R64, R109, R110). -/
abbrev AbsencesTold (mid : State) (first : List Report) (s t : State) : Prop :=
  (SlotsOk s → ∀ i ∈ List.range 4, ∀ p, probeAt s i = some p → p.phase = .driving →
    ∀ r, findPath s p.circuit = some r → ∃ q, probeAt t i = some q ∧ LosesStations p q r mid s t) ∧
  (WindowsOk s →
    t.windows = { mid.windows with
      list := windowsLosing s.image.station (turnedAbsent s t) mid.windows.list } ∧
    (s.ctl.queue.length ≤ 20 →
      (t.ctl.queue.map (·.2)).take (s.ctl.queue.length + first.length) = s.ctl.queue.map (·.2) ++ first ∧
      ((t.ctl.queue.map (·.2)).drop (s.ctl.queue.length + first.length)).Perm
        (summariesLosing s.image.station (turnedAbsent s t) mid.windows.list)) ∧
    (∀ w ∈ t.windows.list, w.serial.opener = s.image.station → w.state = .closing ∨ w.state = .collecting →
      ∀ n ∈ stationNumbers, turnedAbsent s t n = true → w.tableAt n ≠ .awaited))

/-! ### Grants (R147) -/

/-- A free place of the insertion queue was granted to a notice. -/
abbrev Granted (q : Request) (s t : State) : Prop :=
  t.loop = { s.loop with newNotices := s.loop.newNotices ++ [q], fairness := t.loop.fairness }

/-! ### Outcomes of notices (R96, R101, R102, R107, R162) -/

/-- A window that leaves SETTLING: the expected set, and the opener's own tally if no record owes it (R101, R106). -/
def Window.leaving (s : State) (w : Window) : Window :=
  { w with
    state := .closing, settle := .stopped
    table := stationNumbers.map fun n =>
      if isPresent s n = false then .notExpected
      else if n = s.image.station ∧ w.serial.opener = n ∧
          s.paths.all (fun r => !r.owed.contains w.serial) = true then
        .received w.counts
      else .awaited }

/-- A CLOSING window after its WINDOW CLOSE was delivered with best marks b: COLLECTING, the AWAITED stations without
a TAKEN mark UNREACHED, its opener aside (R102). -/
def Window.delivered (own : Nat) (b : BestMarks) (w : Window) : Window :=
  { w with
    state := .collecting
    table := stationNumbers.map fun n =>
      if n ≠ own ∧ w.tableAt n = .awaited ∧ stationIn b.taken n = false then .unreached else w.tableAt n }

/-- The outcome of the first WINDOW OPEN: a refusal cancels the window and requests its WINDOW CANCEL; else it is
received, and a window whose settle timer has run out leaves SETTLING (R96, R97, R101). -/
def afterOpenOutcome (ser : Serial) (b : BestMarks) (s : State) : State :=
  match findWindow s ser with
  | none => s
  | some w =>
    if b.refused &&& ~~~b.taken ≠ 0 then
      (afterCancel ser s).setWindows { s.windows with
        list := s.windows.list.filter fun x => x.serial != ser
        requests := noticeAsked (.windowCancel ser) (s.windows.requests.filter fun q =>
          q.payload.windowSerial != some ser || q.payload.kind == 4) }
    else if w.state = .settling ∧ w.settle = .expired then
      (afterRelease ser s).setWindows { s.windows with
        list := rewritten ser (fun _ => { w.leaving s with openReceived := true }) s
        requests := noticeAsked (.windowClose ser) s.windows.requests }
    else s.setWindows { s.windows with list := rewritten ser (fun _ => { w with openReceived := true }) s }

/-- The outcome of a WINDOW CLOSE: the CLOSING window is COLLECTING, and leaves the list with no station AWAITED (R102,
R110). -/
def afterCloseOutcome (ser : Serial) (b : BestMarks) (s : State) : State :=
  match findWindow s ser with
  | none => s
  | some w =>
    if w.state ≠ .closing then s
    else s.setWindows { s.windows with
      list := if (w.delivered s.image.station b).table.all (· != .awaited) then
          s.windows.list.filter fun x => x.serial != ser
        else rewritten ser (fun _ => w.delivered s.image.station b) s }

/-- The outcome of this station's TALLY: the window leaves the list, or its tally is PENDING again or UNSENT (R107). -/
def afterTallyOutcome (ser : Serial) (b : BestMarks) (s : State) : State :=
  match findWindow s ser with
  | none => s
  | some w =>
    if w.state ≠ .closed ∨ w.tally ≠ .sent then s
    else if stationIn b.taken ser.opener = true then
      s.setWindows { s.windows with list := s.windows.list.filter fun x => x.serial != ser }
    else if isPresent s ser.opener = true then
      s.setWindows { s.windows with
        list := rewritten ser (fun _ => { w with tally := .pending }) s
        requests := tallyAsked ser w.counts s.windows.requests }
    else s.setWindows { s.windows with list := rewritten ser (fun _ => { w with tally := .unsent }) s }

/-- The outcome of the JOIN: JOINED, the own entry PRESENT with the station's advertisement, and the grade and the
batching permission recomputed (R161, R162, R168). -/
def afterJoinOutcome (s : State) : State :=
  let es := s.roster.entries.mapIdx fun k e =>
    if k + 1 = s.image.station then
      { e with
        present := true, missRun := 0
        advert := some (if s.image.gradeLimit = 2 then ⟨2, true⟩ else ⟨1, false⟩) }
    else e
  s.setRoster { s.roster with
    joined := true, entries := es, grade := loopGradeOf es, batching := batchingOf es }

/-- The Window Unit, the Path Store with its list and the Roster Unit once they have read the outcome of a notice; a
re-announcement, and the zero TALLY of an unlisted window, tell them nothing (R96, R103, R152). -/
def afterOutcome (r : Request) (b : BestMarks) (s : State) : State :=
  match r.payload with
  | .windowOpen ser _ => if r.purpose = .own then afterOpenOutcome ser b s else s
  | .windowClose ser => afterCloseOutcome ser b s
  | .tally ser _ => if r.purpose = .own then afterTallyOutcome ser b s else s
  | .join _ _ => afterJoinOutcome s
  | _ => s

/-- The report that the outcome of a notice brings (R96, R110). -/
def outcomeReports (r : Request) (b : BestMarks) (s : State) : List Report :=
  match r.payload with
  | .windowOpen ser _ =>
    if r.purpose = .own ∧ (findWindow s ser).isSome = true then
      if b.refused &&& ~~~b.taken ≠ 0 then [.openRefused ser (b.refused &&& ~~~b.taken)]
      else [.openConfirmed ser (unmarkedPresent s b)]
    else []
  | .windowClose ser =>
    match findWindow s ser with
    | none => []
    | some w =>
      if w.state = .closing ∧ (w.delivered s.image.station b).table.all (· != .awaited) = true then
        [.windowSummary (w.delivered s.image.station b).summary]
      else []
  | _ => []

/-- What the outcome of a delivery does, for the entry o and its best marks b: the requesting block reads it, then the
miss runs do (R50, R51, R55, R64, R96, R101, R102, R107, R109, R110, R152, R156, R162, R166; log 9). -/
abbrev OutcomeTaken (o : Outstanding) (b : BestMarks) (s t : State) : Prop :=
  MissesFed b s t ∧
  (unmarkedPresent s b = 0 → ∀ x ∈ stationNumbers, x ≠ s.image.station →
    rosterAt t x = if isPresent s x then { rosterAt s x with missRun := 0 } else rosterAt s x) ∧
  AbsencesTold (afterOutcome o.request b s) (outcomeReports o.request b s) s t ∧
  (WindowsOk s → (pathOrder s).Nodup → t.paths = (afterOutcome o.request b s).paths ∧
    t.sched = (afterOutcome o.request b s).sched) ∧
  t.roster = { (afterOutcome o.request b s).roster with
    entries := t.roster.entries, grade := t.roster.grade, batching := t.roster.batching } ∧
  (RosterOk s → t.roster.grade = loopGradeOf t.roster.entries ∧
    t.roster.batching = batchingOf t.roster.entries) ∧
  (t.roster.grade ≠ s.roster.grade → t.ctl.alertSet .grade = true) ∧
  (o.request.payload.kind ≠ 7 → o.request.payload.kind ≠ 9 → ∀ i ∈ List.range 4, ∀ p,
    probeAt s i = some p → p.phase ≠ .driving → probeAt t i = some p) ∧
  (o.request.payload.kind ≠ 1 → rosterAt t s.image.station = rosterAt s s.image.station) ∧
  t.loop.newNotices = s.loop.newNotices ∧ t.loop.forward = s.loop.forward ∧
  t.loop.receive = s.loop.receive ∧ t.hops = s.hops ∧ t.scanner = s.scanner ∧
  (o.request.payload.kind ≠ 3 → t.paths = s.paths ∧ t.sched = s.sched) ∧
  (o.request.payload.kind ≠ 7 → t.lines = s.lines) ∧
  (o.request.payload.kind ≠ 12 → t.loop.quarantine = s.loop.quarantine) ∧
  (o.request.payload.kind = 12 → t.loop.quarantine = false) ∧
  (o.request.payload.kind ≠ 1 → t.roster.joined = s.roster.joined) ∧
  (o.request.payload.kind = 1 → t.roster.joined = true ∧
    (stationOk s.image.station = true → rosterAt t s.image.station =
      { rosterAt s s.image.station with
        present := true, missRun := 0
        advert := some (if s.image.gradeLimit = 2 then ⟨2, true⟩ else ⟨1, false⟩) })) ∧
  (∀ (c e d : Nat) (m : Mode), o.request.payload = .probeStart c e m d → SlotsOk s →
    ∀ i ∈ List.range 4, ∀ p, probeAt s i = some p → p.circuit = c → p.epoch = e →
      p.phase = .claiming → ∀ r, findPath s c = some r →
      (∃ q, probeAt t i = some q ∧ Driven b (!s.loop.up) p q r s t) ∧
      t.lines = s.lines.set r.line (some (c, e))) ∧
  (∀ (c e : Nat) (v : Verdict) (f : VerdictFlags), o.request.payload = .probeEnd c e v f → SlotsOk s →
    ∀ i ∈ List.range 4, ∀ p, probeAt s i = some p → p.circuit = c → p.epoch = e →
      p.phase = .closing → probeAt t i = none) ∧
  (∀ (ser : Serial) (scope : PortSet), o.request.payload = .windowOpen ser scope →
    o.request.purpose = .own → (findWindow s ser).isSome = true → s.ctl.queue.length < 32 →
    (b.refused &&& ~~~b.taken = 0 → t.ctl.queue[s.ctl.queue.length]? =
      some (s.ctl.reportNumber, .openConfirmed ser (unmarkedPresent s b))) ∧
    (b.refused &&& ~~~b.taken ≠ 0 → findWindow t ser = none ∧
      (t.windows.requests.any fun q => q.payload == .windowCancel ser) = true ∧
      t.ctl.queue[s.ctl.queue.length]? = some (s.ctl.reportNumber,
        .openRefused ser (b.refused &&& ~~~b.taken)))) ∧
  (∀ (ser : Serial) (scope : PortSet), o.request.payload = .windowOpen ser scope →
    o.request.purpose = .own → WindowsOk s → b.refused &&& ~~~b.taken = 0 →
    ∀ w, findWindow s ser = some w →
      (w.state = .opened ∨ (w.state = .settling ∧ w.settle ≠ .expired) →
        findWindow t ser = some { w with openReceived := true } ∧
        t.windows.requests = s.windows.requests) ∧
      (w.state = .settling → w.settle = .expired →
        ∃ v, findWindow t ser = some v ∧ v.openReceived = true ∧ v.state = .closing ∧
          v.settle = .stopped ∧ v.counts = w.counts ∧
          (t.windows.requests.any fun q => q.payload == .windowClose ser) = true)) ∧
  (∀ ser : Serial, o.request.payload = .windowClose ser → WindowsOk s →
    ∀ w, findWindow s ser = some w → w.state = .closing →
      ((w.delivered s.image.station b).table.any (· == .awaited) = true →
        findWindow t ser = some (w.delivered s.image.station b)) ∧
      ((w.delivered s.image.station b).table.any (· == .awaited) = false → findWindow t ser = none ∧
        (s.ctl.queue.length < 32 → t.ctl.queue[s.ctl.queue.length]? =
          some (s.ctl.reportNumber, .windowSummary (w.delivered s.image.station b).summary)))) ∧
  (∀ (ser : Serial) (counts : Tally), o.request.payload = .tally ser counts →
    o.request.purpose = .own → ser.opener ≠ s.image.station → WindowsOk s →
    ∀ w, findWindow s ser = some w → w.state = .closed → w.tally = .sent →
      (stationIn b.taken ser.opener = true → findWindow t ser = none) ∧
      (stationIn b.taken ser.opener = false → isPresent s ser.opener = true →
        findWindow t ser = some { w with tally := .pending } ∧
        t.windows.requests = tallyAsked ser w.counts s.windows.requests) ∧
      (stationIn b.taken ser.opener = false → isPresent s ser.opener = false →
        findWindow t ser = some { w with tally := .unsent }))

/-- No other outstanding notice whose outcome the Window Unit reads names the window of this one: its WINDOW CLOSE is
requested after the outcome of its first WINDOW OPEN, and a TALLY is one at a time (R101, R107). -/
def actsAlone (s : State) (o : Outstanding) : Bool :=
  s.loop.outstanding.all fun x => x == o || x.standing == .lingering || x.request.payload.kind == 4 ||
    x.request.payload.windowSerial != o.request.payload.windowSerial ||
    (x.request.purpose != .own && x.request.payload.kind != 5)

/-- The end of a first WINDOW OPEN at which its window leaves SETTLING, its settle timer having run out (R101). -/
def endsSettling (s : State) (o : Outstanding) : Bool :=
  o.standing != .lingering && o.request.purpose == .own && o.request.payload.kind == 3 &&
    (o.request.payload.windowSerial.bind (findWindow s)).any fun w => w.state == .settling && w.settle == .expired

/-! ### Receipts (R165, R167) -/

/-- What the receipt of a notice brings when its originator x was ABSENT: the grade and the batching permission
recomputed, ROSTER, GRADE and LOW-GRADE, and the UNSENT tallies of x requested again (R66, R107, R165, R167 to R169),
in list order (log 27). -/
abbrev TurnedPresent (x : Nat) (s t : State) : Prop :=
  t.roster.grade = loopGradeOf t.roster.entries ∧ t.roster.batching = batchingOf t.roster.entries ∧
  t.ctl = { s.ctl with alerts := t.ctl.alerts } ∧ t.ctl.alertSet .roster = true ∧
  t.ctl.alertSet .grade = (s.ctl.alertSet .grade || t.roster.grade != s.roster.grade) ∧
  t.probes = { s.probes with slots := s.probes.slots.map fun o => o.map fun p =>
    if p.phase = .driving ∧ t.roster.grade < s.roster.grade then { p with lowGrade := true } else p } ∧
  (WindowsOk s → t.windows = { s.windows with
    list := s.windows.list.map fun w =>
      if w.serial.opener = x ∧ w.tally = .unsent then { w with tally := .pending } else w
    requests := (s.windows.list.filter fun w => w.serial.opener == x && w.tally == .unsent).foldl
      (fun l w => tallyAsked w.serial w.counts l) s.windows.requests })

/-! ### The loop -/

/-- The entry of a notice of a kind whose outcome a LOOP DOWN gives as FAILED (R153). -/
def Outstanding.failsWith (o : Outstanding) (kind : Nat) : Bool :=
  o.standing != .lingering && o.request.payload.kind == kind

/-- A reception outside STARTING: the silence timer starts anew and a DOWN loop becomes UP (R153, R154). -/
def heard (s : State) : State :=
  let l := { s.loop with up := true, silence := some (s.now + 50) }
  let s1 := s.setLoop { l with fairness := if l.headSendable then l.fairness else 0 }
  if s.loop.up then s1 else s1.setCtl { s.ctl with alerts := s.ctl.alerts ||| 0b0000100#7 }

/-- The oldest received notice has left its queue. -/
def dispatched (s : State) : State := s.setLoop { s.loop with receive := s.loop.receive.tail }

/-! ### Well-formed notices (R197) -/

/-- A circuit, epoch, station or serial within its range. -/
def circuitInRange (c : Nat) : Bool := 1 ≤ c && c < 1024
def epochInRange (e : Nat) : Bool := 1 ≤ e && e < 16
def Serial.inRange (x : Serial) : Bool := stationOk x.opener && x.seq < 256

/-- A sighting item that a station can form (R34). -/
def Item.inRange (i : Item) : Bool :=
  circuitInRange i.circuit && epochInRange i.epoch && stationOk i.record.station && i.record.port < 16 &&
    i.record.cls != .unused && i.record.level < 8 &&
    match i.record.far with
    | none => i.record.cls != .lineOut
    | some (st, p) => i.record.cls == .lineOut && stationOk st && p < 256

/-- A payload with every field in the range of R197. -/
def Payload.inRange : Payload → Bool
  | .join g _ | .present g _ => g < 4
  | .windowOpen ser _ | .windowCancel ser | .windowClose ser => ser.inRange
  | .tally ser t =>
    ser.inRange && t.held ≤ 32 && t.passed ≤ 32 && t.changed ≤ 32 && t.failed ≤ 32 && t.incomplete ≤ 32 &&
      t.firstFailing.all circuitInRange
  | .probeStart c e _ d => circuitInRange c && epochInRange e && d < 8
  | .sighting items => 1 ≤ items.length && items.length ≤ 8 && items.all Item.inRange
  | .probeEnd c e _ _ => circuitInRange c && epochInRange e
  | .stray c h k p => circuitInRange c && stationOk h && k < 3 && p < 256
  | .spanAlarm _ sp => stationOk sp.station && sp.port < 256
  | .loopReset => true

/-! ### LOOP RESET (R21, R46, R68, R114, R135) -/

/-- What a LOOP RESET does to the blocks other than the Loop Port and the Control Port. -/
abbrev BlocksReset (s t : State) : Prop :=
  t.paths = (s.paths.map fun r => { r with
      hold := [], owed := []
      state := if r.baseline.isSome then .queued .routine else .idle
      origin := if r.baseline.isSome then some .reset else r.origin }) ∧
    t.sched = { s.sched with
      census := [], routine := (s.paths.filter (·.baseline.isSome)).map (·.circuit)
      current := none, stack := []
      admission := if s.sched.current = none then s.sched.admission else s.sched.shadow } ∧
    t.probes.slots = List.replicate 4 none ∧ t.probes.requests = [] ∧
    t.scanner.watch = [] ∧ t.scanner.backlog = [] ∧ t.scanner.strays = s.scanner.strays ∧
    t.scanner.alarms = s.scanner.alarms ∧ t.scanner.monitors = s.scanner.monitors ∧
    t.windows.list = [] ∧ t.windows.requests = [] ∧ t.windows.seq = s.windows.seq ∧
    t.hops = s.hops ∧ (∀ r ∈ s.paths, t.lines.getD r.line none = some (r.circuit, 0)) ∧
    t.ctl.alertSet .reset = true

end Sys2Proof.Machine
end

