-- ==== Sys2Proof/Certificates/Slice0/Obligations.lean ====
section
/-! DEFINITION. The statements about the model, block by block. Words of their own stand in Safety.lean. -/

open Sys2Proof Sys2Proof.Machine

/-! ### Steps, the queue, and what only some rows write -/

/-- A step runs the command at the front of the queue on the queue's rest. -/
def Obligations.StepRunsTheFrontOfTheQueue : Prop :=
  ∀ (c : Instr) (rest : List Instr) (s : State), s.pending = c :: rest →
    step s = exec c (s.setPending rest)

/-- Every row gives a next state; it leaves the queue and the choice count; the clock never goes back;
image, finding and run state change only at a load or restart, the pins only at their own rows. The clock, the
choice count and the pins over a power-on are the model's own (log 1, log 2, log 13). -/
def Obligations.RowsLeaveTheQueueAndTheLoadedImage : Prop :=
  ∀ (c : Instr) (s : State), ∃ t, exec c s = .next t ∧
    t.pending = s.pending ∧ t.choices = s.choices ∧ s.now ≤ t.now ∧
    (loads c = false → t.image = s.image ∧ t.finding = s.finding ∧ t.runState = s.runState) ∧
    (movesPin c = false → t.lossInputs = s.lossInputs)

/-! ### Invariants: at reset, and kept by every step -/

/-- The invariants hold at reset. -/
def Obligations.InvariantsHoldAtReset : Prop :=
  ReportsOk State.reset ∧ CollectionsOk State.reset ∧ NumbersOk State.reset ∧ SlotsOk State.reset ∧
    SchedulerOk State.reset ∧ WindowsOk State.reset ∧ ScannerOk State.reset ∧
    CircuitTableOk State.reset ∧ RecordsOk State.reset ∧ RosterOk State.reset ∧
    MarkersOk State.reset ∧ WorkOk State.reset ∧ StationsOk State.reset ∧ JoiningOk State.reset

/-- The report queue holds 32 records at most, and a record that waits to leave is its head (R180, R181). -/
def Obligations.ReportQueueStaysInOrder : Prop :=
  ∀ s t : State, ReportsOk s → step s = .next t → ReportsOk t

/-- The collections of the Loop Port keep their capacities, the silence timer runs while UP, and the
outstanding notices keep different numbers within 32 of each other (R144, R148, R150, R151, R153). -/
def Obligations.LoopPortStaysWithinItsLimits : Prop :=
  (∀ s t : State, CollectionsOk s → step s = .next t → CollectionsOk t) ∧
  (∀ s t : State, NumbersOk s → step s = .next t → NumbersOk t)

/-- Slots hold different circuits, share 128 records, and their timers run in DRIVING alone (R47, R56); pool
records and received notices name stations 1 to 24 (R139, R197). -/
def Obligations.ProbeSlotsStayConsistent : Prop :=
  (∀ s t : State, SlotsOk s → step s = .next t → SlotsOk t) ∧
  (∀ s t : State, StationsOk s → step s = .next t → StationsOk t)

/-- The suspension stack and the admission flag stay as R124 says. -/
def Obligations.SuspensionStackStaysInShape : Prop :=
  ∀ s t : State, SchedulerOk s → step s = .next t → SchedulerOk t

/-- Every WINDOW OPEN and every PROBE START taken and waiting has its place in the window list or the
watch list, whose entries stay different (R30, R31, R89, R94). That the watch list stands in circuit order is
the model's choice (log 22). -/
def Obligations.ReservationsAlwaysFindRoom : Prop :=
  (∀ s t : State, WindowsOk s → step s = .next t → WindowsOk t) ∧
  (∀ s t : State, ScannerOk s → step s = .next t → ScannerOk t)

/-- One hop entry a circuit, 256 at most, a HEAD entry for every record (R1, R4). That the entries stand in
circuit order is the model's choice (log 22). -/
def Obligations.CircuitTableStaysOrdered : Prop :=
  ∀ s t : State, CircuitTableOk s → step s = .next t → CircuitTableOk t

/-- HELD goes with a hold, and holds and owed audits with a baseline (R14, R15). -/
def Obligations.PathRecordsStayConsistent : Prop :=
  ∀ s t : State, RecordsOk s → step s = .next t → RecordsOk t

/-- The loop grade and the batching permission are those of the roster (R160, R168); one JOIN at most is under
way, while JOINING alone, and no slot is taken before its outcome (R48, R147, R162). -/
def Obligations.LoopGradeFollowsTheRoster : Prop :=
  (∀ s t : State, RosterOk s → step s = .next t → RosterOk t) ∧
  (∀ s t : State, NumbersOk s → JoiningOk s → step s = .next t → JoiningOk t)

/-- A marker line carries its circuit's probe epoch exactly while a slot is DRIVING it (R23, R24). -/
def Obligations.MarkerLinesFollowTheSlots : Prop :=
  ∀ s t : State, MarkersOk s → step s = .next t → MarkersOk t

/-- The lists hold exactly the QUEUED circuits, and a slot before CLOSING a PROBING one (R19, R115). -/
def Obligations.WorkListsMatchTheRecords : Prop :=
  ∀ s t : State, WorkOk s → step s = .next t → WorkOk t

/-! ### Frames and notices -/

/-- The frame of every control port command passes the check and spells that command (R172, R198). -/
def Obligations.CommandFramesSpellTheirCommand : Prop :=
  ∀ (c : Instr) (f : List Byte), controlCommand c = true → frameOfCommand c = some f →
    validFrame f = some c ∧ commandOfFrame f = some c

/-- The payload bytes of every notice in range decode to it, and the bits that no layout assigns are ignored
(R197); bytes that decode do so to
a payload of their kind with every field in its range. Ports up to 255 and a stray kind 2 are in range by log 11. -/
def Obligations.PayloadBytesDecodeToTheirPayload : Prop :=
  (∀ p : Payload, p.inRange = true → decodePayload p.kind p.bytes = some p) ∧
  (∀ (a b c d e f g : Byte) (l : List Byte),
    decodePayload 1 [a] = decodePayload 1 [a &&& 0x83] ∧
    decodePayload 2 [a] = decodePayload 2 [a &&& 0x83] ∧
    decodePayload 6 (l ++ [a, b]) = decodePayload 6 (l ++ [a &&& 0x03, b]) ∧
    decodePayload 7 [a, b, c] = decodePayload 7 [a &&& 0xF3, b, c &&& 0x73] ∧
    decodePayload 9 [a, b, c, d] = decodePayload 9 [a &&& 0xF3, b, c, d &&& 0x0F] ∧
    decodePayload 10 [a, b, c, d, e] = decodePayload 10 [a &&& 0x03, b, c, d, e] ∧
    decodeItems (a :: b :: c :: d :: e :: f :: g :: l) =
      decodeItems ((a &&& 0xF3) :: b :: c :: (d &&& 0x7F) :: (e &&& 0x73) :: f :: g :: l)) ∧
  (∀ (n : Byte) (l : List Byte), decodePayload 8 (n :: l) =
    if 1 ≤ n.toNat ∧ n.toNat ≤ 8 ∧ l.length = 7 * n.toNat then (decodeItems l).map .sighting else none) ∧
  (∀ (k : Nat) (bs : List Byte) (p : Payload), decodePayload k bs = some p → p.inRange = true ∧ p.kind = k)

/-- The bytes of a copy on the link parse to it, and a mark is written at its station alone (R137, R196). -/
def Obligations.CopyBytesParseToTheirCopy : Prop :=
  (∀ c : Copy, c.payload.length < 256 → parseCopy c.bytes = some c) ∧
    ∀ (a : BitVec 48) (n k m : Nat), stationOk n = true → stationOk k = true → m < 4 →
      markOf (writeMark a n m) k = if k = n then m else markOf a k

/-- Words written out from the formats: the CRC of the text 123456789, a JOIN with and without an unassigned
bit, a PROBE START, a command frame and a marked accept field. -/
def Obligations.WrittenOutWordsReadAsTheFormatsSay : Prop :=
  crc16 [0x31, 0x32, 0x33, 0x34, 0x35, 0x36, 0x37, 0x38, 0x39] = 0x29B1#16 ∧
    decodePayload 1 [0x82] = some (.join 2 true) ∧ decodePayload 1 [0x86] = some (.join 2 true) ∧
    decodePayload 7 [0x33, 0x70, 0x21] = some (.probeStart 880 3 .routine 2) ∧
    decodePayload 7 [0x03, 0x70, 0x21] = none ∧
    validFrame [0x24, 0x02, 0x05, 0x0A] = some (.sweep 5 10) ∧
    validFrame [0x24, 0x01, 0x05] = none ∧
    markOf (acceptOf [0x01, 0x80, 0, 0, 0, 0]) 1 = 1 ∧ markOf (acceptOf [0x01, 0x80, 0, 0, 0, 0]) 8 = 2

/-! ### Reset and load (chapter 10) -/

/-- The values the chapters give for power-on, and POWER_ON and RESTART as they bring them about. The clock, the
choice count and the pins, which stand outside the station, are the model's choice (log 1, log 2, log 13), and so
are the blank image and the clear admission flag and shadow of `poweredOn` (log 7). -/
def Obligations.PowerOnAndRestartGiveThePowerOnValues : Prop :=
  (∀ s : State, exec .powerOn s = .next (poweredOn s) ∧
    exec .restart s = .next ((poweredOn s).setCtl { ctlReset with command := some .restart })) ∧
  (∀ s : State, s = State.reset →
    s.runState = .starting ∧ s.finding.outcome = .loading ∧ s.hops = [] ∧ s.paths = [] ∧
    s.lines = List.replicate 32 none ∧ s.scanner.watch = [] ∧ s.scanner.backlog = [] ∧
    s.scanner.strays = [] ∧ s.scanner.alarms = [] ∧ s.scanner.monitors = List.replicate 16 .clear ∧
    s.scanner.dwell = none ∧ s.probes.slots = List.replicate 4 none ∧ freeRecords s = 128 ∧
    s.windows.list = [] ∧ s.windows.seq = 0 ∧ s.windows.requests = [] ∧
    s.sched.census = [] ∧ s.sched.routine = [] ∧ s.sched.current = none ∧ s.sched.stack = [] ∧
    s.loop.forward = [] ∧ s.loop.newNotices = [] ∧ s.loop.retries = [] ∧ s.loop.outstanding = [] ∧
    s.loop.receive = [] ∧ s.loop.number = 0 ∧ s.loop.up = false ∧ s.loop.silence = none ∧
    s.loop.fairness = 0 ∧ s.loop.quarantine = false ∧
    s.roster.entries = List.replicate 24 ⟨false, none, none, 0⟩ ∧ s.roster.joined = false ∧
    s.roster.grade = 1 ∧ s.roster.batching = false ∧
    s.ctl.command = none ∧ s.ctl.response = none ∧ s.ctl.queue = [] ∧ s.ctl.reportNumber = 0 ∧
    s.ctl.alerts = 0 ∧ s.ctl.masks = 0b1111111#7 ∧ s.ctl.faults = 0 ∧ s.ctl.coalescing = none ∧
    s.ctl.alertLine = false)

/-- An image with a wrong signature or sum ends the load in PASSIVE with no field of it used; any other
is checked further; a blank memory fails with SIGNATURE (R189). -/
def Obligations.ImageIsFirstCheckedWhole : Prop :=
  ∀ (image : List Byte) (s : State), s.runState = .starting →
    ((readImage image).getD 0 0 ≠ 0x3C ∨ ((readImage image).map BitVec.toNat).sum % 256 ≠ 0 →
      ∃ t, exec (.loadEnd image) s = .next t ∧ t.runState = .passive ∧
        t.finding = { outcome := .passive
                      reason := some (if (readImage image).getD 0 0 ≠ 0x3C then .signature else .integrity)
                      position := none, fatal := [], warnings := [], warningPort := none } ∧
        t.image.station = 0 ∧ (∀ p ∈ List.range 16, t.image.classAt p = .unused) ∧
        t.image.originated = [] ∧
        (t.ctl.alertSet .configWarn = true → s.ctl.alertSet .configWarn = true)) ∧
    ((readImage image).getD 0 0 = 0x3C → ((readImage image).map BitVec.toNat).sum % 256 = 0 →
      ∃ t, exec (.loadEnd image) s = .next t ∧
        t.finding.reason ≠ some .signature ∧ t.finding.reason ≠ some .integrity) ∧
    (image = [] → ∃ t, exec (.loadEnd image) s = .next t ∧ t.finding.reason = some .signature)

/-- The field checks of an image that passes R189: fatal set, order, reason, outcome and CONFIG (R190, R192);
fields out of range take their defaults, each on its own, stand in the warning set with their configured
values, and raise CONFIG-WARN (R191, R192). Which of several
duplicate pairs, and which of several faults, the position names is log 17, which port class the warning set keeps
as configured log 32, the item sent after bypass log 13. -/
def Obligations.FieldsAreCheckedAndDefaulted : Prop :=
  (∀ (image : List Byte) (s : State), s.runState = .starting → s.ctl.command = none →
    (readImage image).getD 0 0 = 0x3C → ((readImage image).map BitVec.toNat).sum % 256 = 0 →
    ∃ t, exec (.loadEnd image) s = .next t ∧
      (LoadFault.station ∈ t.finding.fatal ↔
        (rawImage (readImage image)).station = 0 ∨ 24 < (rawImage (readImage image)).station) ∧
      (LoadFault.farEnd ∈ t.finding.fatal ↔ ∃ p ∈ List.range 16,
        ((rawImage (readImage image)).portAt p).cls = .lineOut ∧
          (((rawImage (readImage image)).portAt p).farStation = 0 ∨
            ((rawImage (readImage image)).portAt p).farStation = (rawImage (readImage image)).station ∨
            24 < ((rawImage (readImage image)).portAt p).farStation)) ∧
      (LoadFault.duplicateCircuit ∈ t.finding.fatal ↔
        ¬ ((rawImage (readImage image)).originated.map (·.circuit)).Nodup) ∧
      (LoadFault.duplicateLine ∈ t.finding.fatal ↔
        ¬ ((rawImage (readImage image)).originated.map (·.line)).Nodup) ∧
      (LoadFault.addPort ∈ t.finding.fatal ↔ ∃ o ∈ (rawImage (readImage image)).originated,
        (rawImage (readImage image)).classAt o.addPort ≠ .add) ∧
      t.finding.fatal.Sublist [.station, .farEnd, .duplicateCircuit, .duplicateLine, .addPort] ∧
      t.finding.reason = t.finding.fatal.head? ∧
      (t.finding.reason = none ∨ t.finding.reason = some .station → t.finding.position = none) ∧
      (t.finding.reason = some .farEnd → t.finding.position = (List.range 16).find? fun p =>
        decide (((rawImage (readImage image)).portAt p).cls = .lineOut ∧
          (((rawImage (readImage image)).portAt p).farStation = 0 ∨
            ((rawImage (readImage image)).portAt p).farStation = (rawImage (readImage image)).station ∨
            24 < ((rawImage (readImage image)).portAt p).farStation))) ∧
      (t.finding.reason = some .duplicateCircuit → t.finding.position = (List.range 32).find? fun i =>
        ((rawImage (readImage image)).positions.getD i none).any fun o =>
          ((rawImage (readImage image)).positions.take i).any fun x => x.any (·.circuit == o.circuit)) ∧
      (t.finding.reason = some .duplicateLine → t.finding.position = (List.range 32).find? fun i =>
        ((rawImage (readImage image)).positions.getD i none).any fun o =>
          ((rawImage (readImage image)).positions.take i).any fun x => x.any (·.line == o.line)) ∧
      (t.finding.reason = some .addPort → t.finding.position = (List.range 32).find? fun i =>
        ((rawImage (readImage image)).positions.getD i none).any fun o =>
          (rawImage (readImage image)).classAt o.addPort != .add) ∧
      t.runState = (if t.finding.fatal = [] then .running else .passive) ∧
      t.finding.outcome = (if t.finding.fatal = [] then .running else .passive) ∧
      (t.finding.fatal ≠ [] → t.ctl.faultSet .config = true ∧ t.ctl.alertSet .fault = true ∧
        t.hops = s.hops ∧ t.paths = s.paths ∧ t.lines = s.lines ∧ t.scanner = s.scanner ∧
        t.loop = { s.loop with sending := .idleFill })) ∧
  (∀ (image : List Byte) (s : State), s.runState = .starting → s.ctl.command = none →
    (readImage image).getD 0 0 = 0x3C → ((readImage image).map BitVec.toNat).sum % 256 = 0 →
    ∃ t, exec (.loadEnd image) s = .next t ∧
      t.image = { rawImage (readImage image) with
        dwellCode := if 3 < (rawImage (readImage image)).dwellCode then 1
          else (rawImage (readImage image)).dwellCode
        batchLimit := if (rawImage (readImage image)).batchLimit ∈ [1, 2, 4, 8]
          then (rawImage (readImage image)).batchLimit else 1
        reportThreshold := if (rawImage (readImage image)).reportThreshold = 0 ∨
            16 < (rawImage (readImage image)).reportThreshold then 4
          else (rawImage (readImage image)).reportThreshold
        degradeMargin := if 3 < (rawImage (readImage image)).degradeMargin then 2
          else (rawImage (readImage image)).degradeMargin
        settleCode := if (rawImage (readImage image)).settleCode = 255 then 30
          else (rawImage (readImage image)).settleCode } ∧
      t.finding.warnings =
        (if 3 < (rawImage (readImage image)).dwellCode
          then [⟨.dwellCode, (rawImage (readImage image)).dwellCode⟩] else []) ++
        (if (rawImage (readImage image)).batchLimit ∉ [1, 2, 4, 8]
          then [⟨.batchLimit, (rawImage (readImage image)).batchLimit⟩] else []) ++
        (if (rawImage (readImage image)).reportThreshold = 0 ∨
            16 < (rawImage (readImage image)).reportThreshold
          then [⟨.reportThreshold, (rawImage (readImage image)).reportThreshold⟩] else []) ++
        (if 3 < (rawImage (readImage image)).degradeMargin
          then [⟨.degradeMargin, (rawImage (readImage image)).degradeMargin⟩] else []) ++
        (if (rawImage (readImage image)).settleCode = 255 then [⟨.settleCode, 255⟩] else []) ++
        (((List.range 16).find? fun p => decide (4 < imageByte (readImage image) (2 + 2 * p) % 8)).map
          fun p => ⟨.portClass, imageByte (readImage image) (2 + 2 * p) % 8⟩).toList ∧
      (∀ p ∈ List.range 16, 4 < imageByte (readImage image) (2 + 2 * p) % 8 →
        t.image.classAt p = .unused) ∧
      t.finding.warningPort = ((List.range 16).find? fun p =>
        decide (4 < imageByte (readImage image) (2 + 2 * p) % 8)) ∧
      (t.finding.warnings ≠ [] → t.ctl.alertSet .configWarn = true) ∧
      (t.finding.warnings = [] → t.ctl.alertSet .configWarn = s.ctl.alertSet .configWarn))

/-- A load without a fatal fault: every block takes up the image, and the monitors of the LINE-IN ports take
their inputs as they stand (R4, R9, R22, R23, R43, R44, R193), in ascending port (log 27). The item sent after
bypass is log 13. -/
def Obligations.RunningTakesUpTheImage : Prop :=
  ∀ (image : List Byte) (s : State), s.runState = .starting → s.ctl.command = none →
    s.sched = schedReset → s.scanner = scannerReset →
    (checkImage (readImage image)).2.outcome = .running →
    ∃ t, exec (.loadEnd image) s = .next t ∧ t.runState = .running ∧ t.finding.outcome = .running ∧
      t.hops.length = t.image.originated.length ∧
      (∀ o ∈ t.image.originated, findHop t.hops o.circuit = some
        { circuit := o.circuit, role := .head, ingress := o.addPort, egress := none
          headStation := t.image.station, latch := false, missing := 0 }) ∧
      t.paths = (t.image.originated.map fun o =>
        { circuit := o.circuit, line := o.line, addPort := o.addPort
          state := if t.image.autoCensus then .queued .census else .idle
          origin := if t.image.autoCensus then some .start else none
          lastEpoch := 0, baseline := none, lastChain := none, lastVerdict := none
          hold := [], owed := [] }) ∧
      t.sched = { s.sched with
        census := if t.image.autoCensus then t.image.originated.map (·.circuit) else []
        admission := !t.image.startHeld, shadow := !t.image.startHeld } ∧
      (∀ o ∈ t.image.originated, t.lines.getD o.line none = some (o.circuit, 0)) ∧
      (∀ n ∈ List.range 32, (∀ o ∈ t.image.originated, o.line ≠ n) → t.lines.getD n none = none) ∧
      t.scanner.walkPort = (List.range 16).find? (fun p => t.image.classAt p != .unused) ∧
      t.scanner.dwell = t.scanner.walkPort.map (fun p =>
        { port := p, outOfTurn := false, wanted := false, ends := s.now + dwellMs t.image.dwellCode }) ∧
      t.scanner.monitors = ((List.range 16).map fun p =>
        if t.image.classAt p = .lineIn ∧ portIn s.lossInputs p = true then
          (if t.image.holdOffCode = 0 then .loss else .lossPending (s.now + t.image.holdOffCode * 50))
        else .clear) ∧
      t.scanner.alarms = (if t.image.holdOffCode = 0 then
        ((List.range 16).filter fun p => t.image.classAt p == .lineIn && portIn s.lossInputs p &&
          !inOwnWindow t p).map fun p => ⟨.loss, ⟨t.image.station, p⟩⟩
        else []) ∧
      t.scanner = { s.scanner with
        walkPort := t.scanner.walkPort, dwell := t.scanner.dwell, monitors := t.scanner.monitors
        alarms := t.scanner.alarms } ∧
      t.roster = { s.roster with joinRequest := true } ∧
      t.loop = { s.loop with sending := .idleFill } ∧ t.probes = s.probes ∧ t.windows = s.windows

/-! ### The control port (chapter 9) -/

/-- A command is held while STARTING and refused in PASSIVE unless it is served there; at the end of the
load a held one is served, as if it had come then, under the run state reached, or, for RESTART, answered with
that run state; a frame that fails the check is refused at once (R172, R174, R179, R188). That a frame of one byte,
a known code alone, fails it is the model's choice, and that bytes after the announced parameters do not make it
fail (log 31). -/
def Obligations.CommandsPassTheRunStateGate : Prop :=
  (∀ (c : Instr) (s : State), controlCommand c = true → c ≠ .restart → s.runState = .starting →
    exec c s = .next (heldCommand c s)) ∧
  (∀ (c : Instr) (s : State), controlCommand c = true → servedInPassive c = false →
    s.runState = .passive →
    exec c s = .next (answered c (((frameOfCommand c).getD []).headD 0) .refusedState .empty s)) ∧
  (∀ (f : List Byte) (s : State), f ≠ [] → validFrame f = none →
    exec (.invalidCommandFrame f) s =
      .next (answered (.invalidCommandFrame f) (f.headD 0) .refusedParam .empty s)) ∧
  (∀ (image : List Byte) (c : Instr) (s : State), s.runState = .starting → s.ctl.response = none →
    s.ctl.command = some c → controlCommand c = true →
    ∃ t, exec (.loadEnd image) s = .next t ∧
      (c = .restart → t.ctl.response = some ⟨.done, 0x41, .restarted t.runState⟩) ∧
      (c ≠ .restart → ReportsOk s → ∃ u,
        exec (.loadEnd image) (s.setCtl { s.ctl with command := none }) = .next u ∧
        u.runState ≠ .starting ∧ exec (.loadEnd image) s = exec c u) ∧
      (servedInPassive c = false → t.runState = .passive →
        t.ctl.response = some ⟨.refusedState, ((frameOfCommand c).getD []).headD 0, .empty⟩))

/-- STATUS, READ CIRCUIT, READ WINDOWS and READ ROSTER answer DONE with the values as they stand, and
change nothing else; READ CIRCUIT takes 1..1023 (R71, R113, R134, R158, R170, R175, R198). -/
def Obligations.ReadingCommandsChangeNothing : Prop :=
  (∀ s : State, s.runState ≠ .starting →
    exec .status s = .next (answered .status 0x01 .done (.status
      { station := s.image.station, runState := s.runState, finding := s.finding, joined := s.roster.joined
        alerts := s.ctl.alerts, masks := s.ctl.masks, faults := s.ctl.faults
        reports := s.ctl.queue.length, nextReport := s.ctl.reportNumber
        coalescing := s.ctl.coalescing.isSome
        watches := s.scanner.watch.length, backlog := s.scanner.backlog.length
        strays := s.scanner.strays.length, alarms := s.scanner.alarms.length
        slots := s.probes.slots.map fun o => o.map fun p =>
          { phase := p.phase, circuit := p.circuit, epoch := p.epoch, mode := p.mode
            records := p.pool.length, overlap := p.overlap, poolShort := p.poolShort
            loopLost := p.loopLost, absentLost := p.absentLost, lowGrade := p.lowGrade }
        freeRecords := 128 - recordsHeld s
        current := s.sched.current.map fun r => (r.span, r.cause)
        stackDepth := s.sched.stack.length, admission := s.sched.admission, shadow := s.sched.shadow
        censusCount := s.sched.census.length, routineCount := s.sched.routine.length
        runs := (s.sched.current.toList ++ s.sched.stack.filterMap (·.run)).map fun r =>
          { span := r.span, entries := r.entries.length
            waiting := r.entries.countP (·.standing == .waiting)
            launched := r.entries.countP (·.standing == .launched)
            survived := r.entries.countP fun e => e.standing == .credited .pass ||
              e.standing == .credited .degraded || e.standing == .credited .rerouted
            broken := r.entries.countP fun e => e.standing == .credited .broken ||
              e.standing == .credited .misrouted || e.standing == .credited .conflict
            incomplete := r.entries.countP (·.standing == .credited .incomplete)
            handedOn := r.entries.countP (·.standing == .handedOn)
            deferred := r.entries.countP (·.standing == .deferred) }
        loopUp := s.loop.up, quarantine := s.loop.quarantine, nextNumber := s.loop.number
        forward := s.loop.forward.length, receive := s.loop.receive.length
        newNotices := s.loop.newNotices.length, retries := s.loop.retries.length
        outstanding := s.loop.outstanding.map fun o =>
          ⟨o.request.payload.kind, o.number, o.standing, o.attempts⟩ }) s) ∧
    exec .readRoster s = .next (answered .readRoster 0x33 .done (.roster
      { station := s.image.station, joined := s.roster.joined, grade := s.roster.grade
        batching := s.roster.batching
        entries := s.roster.entries.map fun e =>
          (e.present, e.advert, e.missRun, e.acceptance.map (·.last)) }) s)) ∧
  (∀ s : State, s.runState = .running →
    exec .readWindows s = .next (answered .readWindows 0x32 .done (.windows
      (s.windows.list.map fun w => (w, settleLeft s.now w))) s)) ∧
  (∀ (w : BitVec 16) (s : State), s.runState = .running →
    (1 ≤ w.toNat → w.toNat ≤ 1023 → exec (.readCircuit w) s =
      .next (answered (.readCircuit w) 0x31 .done
        (.circuit (findHop s.hops w.toNat) (findPath s w.toNat)) s)) ∧
    (w.toNat = 0 ∨ 1023 < w.toNat → exec (.readCircuit w) s =
      .next (answered (.readCircuit w) 0x31 .refusedParam .empty s)))

/-- CLEAR ALERTS clears the named flags, but not FAULT while a fault flag is set nor REPORT at the
threshold; CLEAR FAULTS clears the named faults and not FAULT; SET ALERT MASK enables the named masks and
no others; the alert line is active while a set flag has its mask enabled (R182, R184, R185). -/
def Obligations.ClearsAndMasksActOnTheNamedFlags : Prop :=
  (∀ (f : Byte) (s : State), s.runState ≠ .starting →
    (∃ t, exec (.clearAlerts f) s = .next t ∧
      t = answered (.clearAlerts f) 0x02 .done (.alerts t.ctl.alerts)
        (s.setCtl { s.ctl with alerts := t.ctl.alerts }) ∧
      ∀ x ∈ alertFlags, t.ctl.alertSet x = (s.ctl.alertSet x &&
        (!f.getLsbD x.bit || (x == .fault && s.ctl.faults != 0) ||
          (x == .report && s.image.reportThreshold ≤ s.ctl.queue.length)))) ∧
    (∃ t, exec (.clearFaults f) s = .next t ∧
      t = answered (.clearFaults f) 0x03 .done (.faults t.ctl.faults (s.ctl.alertSet .fault))
        (s.setCtl { s.ctl with faults := t.ctl.faults }) ∧
      ∀ x ∈ faultFlags, t.ctl.faultSet x = (s.ctl.faultSet x && !f.getLsbD x.bit))) ∧
  (∀ (f : Byte) (s : State), s.runState = .running →
    ∃ t, exec (.setAlertMask f) s = .next t ∧
      t = answered (.setAlertMask f) 0x04 .done (.masks t.ctl.masks)
        (s.setCtl { s.ctl with masks := t.ctl.masks }) ∧
      ∀ x ∈ alertFlags, t.ctl.masks.getLsbD x.bit = f.getLsbD x.bit) ∧
  (∀ s : State, s.ctl.alertLine = alertFlags.any fun x => s.ctl.alertSet x && s.ctl.masks.getLsbD x.bit)

/-- A post joins the tail with the report number, or is discarded with REPORT OVERRUN from a full queue;
the number advances either way; REPORT and the timer act as R183 says (R180, R183). That a discarded post counts
as one is log 12, the clock at the expiry log 4. -/
def Obligations.PostsJoinTheReportQueue : Prop :=
  (∀ (r : Report) (s : State), s.ctl.queue.length < 32 →
    postReport r s = s.setCtl { s.ctl with
      queue := s.ctl.queue ++ [(s.ctl.reportNumber, r)]
      reportNumber := (s.ctl.reportNumber + 1) % 256
      coalescing := if s.ctl.coalescing = none ∧ s.ctl.postedSinceRead = false ∧ s.image.coalescingCode ≠ 0
        then some (s.now + s.image.coalescingCode * 10) else s.ctl.coalescing
      postedSinceRead := true
      alerts := if s.image.reportThreshold ≤ s.ctl.queue.length + 1
        then s.ctl.alerts ||| 0b0000001#7 else s.ctl.alerts }) ∧
  (∀ (r : Report) (s : State), 32 ≤ s.ctl.queue.length →
    postReport r s = s.setCtl { s.ctl with
      reportNumber := (s.ctl.reportNumber + 1) % 256
      postedSinceRead := true
      faults := s.ctl.faults ||| 0b100000#6
      alerts := s.ctl.alerts ||| 0b0000010#7 }) ∧
  (∀ (due : Nat) (s : State), s.ctl.coalescing = some due →
    exec .coalescingTimerExpiry s = .next ((s.setNow (max s.now due)).setCtl
      { s.ctl with coalescing := none, alerts := s.ctl.alerts ||| 0b0000001#7 }))

/-- READ REPORT answers with the head of the queue and stops the timer; the record leaves at the first
read of the whole frame; a read returns NOT-READY, or the frame and 00h beyond it. A frame is result code,
command code, two length bytes and data; a record is kind, number, length and the body of its kind (R173, R181,
R183, R198). -/
def Obligations.ReadReportThenAWholeReadRemovesTheRecord : Prop :=
  (∀ (n : Nat) (r : Report) (rest : List (Nat × Report)) (s : State), s.runState = .running →
    s.ctl.queue = (n, r) :: rest →
    exec .readReport s = .next ((requestEnded s).setCtl { s.ctl with
      command := some .readReport, response := some ⟨.done, 0x30, .report n r⟩, reportHeld := true
      coalescing := none, postedSinceRead := false })) ∧
  (∀ s : State, s.runState = .running → s.ctl.queue = [] →
    exec .readReport s = .next ((requestEnded s).setCtl { s.ctl with
      command := some .readReport, response := some ⟨.done, 0x30, .noReport s.ctl.reportNumber⟩
      reportHeld := false, coalescing := none, postedSinceRead := false })) ∧
  (∀ (k : Nat) (s : State), s.ctl.response = none → s.ctl.reportHeld = false →
    exec (.readTransaction k) s =
      .next (s.setCtl { s.ctl with portOut := List.replicate k 0x80 })) ∧
  (∀ (k : Nat) (a : Response) (s : State), s.ctl.response = some a →
    ∃ t, exec (.readTransaction k) s = .next t ∧
      t.ctl.portOut.take (a.frame s.image.station).length = (a.frame s.image.station).take k ∧
      t.ctl.portOut.length = k ∧ (∀ b ∈ t.ctl.portOut.drop (a.frame s.image.station).length, b = 0) ∧
      t = s.setCtl { s.ctl with
        portOut := t.ctl.portOut
        queue := if s.ctl.reportHeld = true ∧ (a.frame s.image.station).length ≤ k
          then s.ctl.queue.tail else s.ctl.queue
        reportHeld := s.ctl.reportHeld && decide (k < (a.frame s.image.station).length) }) ∧
  (∀ (own : Nat) (a : Response), a.frame own =
    (match a.result with
      | .done => 0 | .refusedState => 1 | .refusedFull => 2 | .refusedUnknown => 3 | .refusedParam => 4) ::
    a.code :: byte ((a.data.bytes own).length / 256) :: byte ((a.data.bytes own).length % 256) ::
    a.data.bytes own) ∧
  (∀ (own n : Nat) (r : Report), (ResponseData.noReport n).bytes own = [0, byte n] ∧
    (ResponseData.report n r).bytes own =
      (match r with
        | .verdict _ => 1
        | .sweepSummary _ => 2
        | .openConfirmed _ _ | .openRefused _ _ | .windowSummary _ => 3) ::
      byte n :: byte r.body.length :: r.body) ∧
  (∀ v : VerdictRecord, (Report.verdict v).body =
    [byte ((v.epoch * 4096 + v.circuit) / 256), byte ((v.epoch * 4096 + v.circuit) % 256),
     match v.mode with
      | .census => 0 | .routine => 1 | .sweep => 2,
     match v.verdict with
      | .conflict => 0 | .misrouted => 1 | .pass => 2 | .degraded => 3 | .rerouted => 4 | .incomplete => 5
      | .broken => 6 | .baselined => 7,
     byte (v.flags.leak.toNat + 2 * v.flags.overlap.toNat + 4 * v.flags.poolShort.toNat +
       8 * v.flags.lowGrade.toNat)] ++
    (match v.origin with
      | none => [0, 0, 0] | some .start => [1, 0, 0] | some .command => [2, 0, 0]
      | some (.window ser) => [3, byte ser.opener, byte ser.seq]
      | some .stray => [4, 0, 0] | some .restore => [5, 0, 0] | some .rejoin => [6, 0, 0]
      | some .reset => [7, 0, 0] | some (.sweep sp) => [8, byte sp.station, byte sp.port]) ++
    [byte v.hopCount, byte v.mismatches,
     byte (v.landing.isSome.toNat + 2 * v.loopStation.isSome.toNat + 4 * v.lastGood.isSome.toNat +
       8 * v.hopsShort.isSome.toNat + 16 * v.stubPoint.isSome.toNat + 32 * v.reason.isSome.toNat +
       64 * (v.blind != 0).toNat + 128 * (v.leaks != []).toNat)] ++
    (v.landing.toList.flatMap fun x => [byte x.1, byte x.2]) ++ v.loopStation.toList.map byte ++
    (v.lastGood.toList.flatMap fun x => [byte x.1, byte x.2]) ++ v.hopsShort.toList.map byte ++
    (v.stubPoint.toList.flatMap fun x => [byte x.1, byte x.2]) ++
    (v.reason.toList.map fun x => byte (match x with
      | .blind => 0 | .absent => 1 | .pool => 2 | .loop => 3)) ++
    (if v.blind = 0 then []
      else [byte (v.blind.toNat / 65536), byte (v.blind.toNat / 256), byte v.blind.toNat]) ++
    (if v.leaks = [] then [] else byte v.leaks.length :: v.leaks.flatMap fun x => [byte x.1, byte x.2])) ∧
  (∀ v : SweepSummary, (Report.sweepSummary v).body =
    [byte v.span.station, byte v.span.port,
     match v.cause with
      | .loss => 0 | .test => 2,
     byte v.circuits, byte v.survived, byte v.broken, byte v.incomplete, byte v.handedOn, byte v.deferred,
     byte (v.firstBroken.getD 0 / 256), byte (v.firstBroken.getD 0 % 256),
     byte (v.firstIncomplete.getD 0 / 256), byte (v.firstIncomplete.getD 0 % 256), byte v.overflow,
     byte v.merged.length] ++ v.merged.flatMap fun sp => [byte sp.station, byte sp.port]) ∧
  (∀ (ser : Serial) (x : StationSet),
    (Report.openConfirmed ser x).body = [0, byte ser.opener, byte ser.seq, byte (x.toNat / 65536),
      byte (x.toNat / 256), byte x.toNat] ∧
    (Report.openRefused ser x).body = [1, byte ser.opener, byte ser.seq, byte (x.toNat / 65536),
      byte (x.toNat / 256), byte x.toNat]) ∧
  (∀ v : WindowSummary, (Report.windowSummary v).body =
    [2, byte v.serial.opener, byte v.serial.seq] ++
    ([v.totals.held, v.totals.passed, v.totals.changed, v.totals.failed, v.totals.incomplete].flatMap
      fun n => [byte (n / 256), byte (n % 256)]) ++
    [byte v.received, byte (v.missing.toNat / 65536), byte (v.missing.toNat / 256), byte v.missing.toNat,
     byte (v.unreached.toNat / 65536), byte (v.unreached.toNat / 256), byte v.unreached.toNat,
     byte v.failures.length] ++
    v.failures.flatMap fun x => [byte x.1, byte (x.2 / 256), byte (x.2 % 256)])

/-- OPEN WINDOW is refused in the order of R92; taken, it gives the first free sequence number, the new
window, its WINDOW OPEN request, and the holds on the records whose baselines cross the scope; a queued one
leaves its list, or is DEFERRED in its sweep run, which may complete (R15, R60, R90, R92, R93, R128, R131). -/
def Obligations.OpenWindowListsTheWindowWithItsHolds : Prop :=
  (∀ (scope : PortSet) (s : State), s.runState = .running →
    (s.roster.joined = false →
      exec (.openWindow scope) s = .next (answered (.openWindow scope) 0x10 .refusedState .empty s)) ∧
    (s.roster.joined = true →
      (scope = 0 ∨ ∃ p ∈ List.range 16, portIn scope p = true ∧ s.image.classAt p = .unused) →
      exec (.openWindow scope) s = .next (answered (.openWindow scope) 0x10 .refusedParam .empty s)) ∧
    (s.roster.joined = true → scope ≠ 0 →
      (∀ p ∈ List.range 16, portIn scope p = true → s.image.classAt p ≠ .unused) →
      8 ≤ s.windows.list.length + s.loop.receive.countP (fun r => r.payload.kind == 3) →
      exec (.openWindow scope) s = .next (answered (.openWindow scope) 0x10 .refusedFull .empty s))) ∧
  (∀ (scope : PortSet) (s : State), s.runState = .running → s.roster.joined = true → scope ≠ 0 →
    (∀ p ∈ List.range 16, portIn scope p = true → s.image.classAt p ≠ .unused) →
    s.windows.list.length + s.loop.receive.countP (fun r => r.payload.kind == 3) < 8 →
    s.windows.seq < 256 → (pathOrder s).Nodup →
    ∃ t, exec (.openWindow scope) s = .next t ∧ ∃ n ∈ List.range 256,
      t.ctl.response = some ⟨.done, 0x10, .opened n⟩ ∧ t.windows.seq = (n + 1) % 256 ∧
      (findWindow s ⟨s.image.station, n⟩ = none) ∧
      (∀ k ∈ List.range ((n + 256 - s.windows.seq) % 256),
        (findWindow s ⟨s.image.station, (s.windows.seq + k) % 256⟩).isSome = true) ∧
      t.windows.list = s.windows.list ++ [
        { serial := ⟨s.image.station, n⟩, scope := scope, state := .opened
          counts := { held := s.paths.countP (takesHold ⟨s.image.station, n⟩ scope), passed := 0
                      changed := 0, failed := 0, incomplete := 0, firstFailing := none }
          tally := .notDue, openReceived := false, announced := false, settle := .stopped
          table := List.replicate 24 .notExpected }] ∧
      ((∀ q ∈ s.windows.requests, q.payload.windowSerial ≠ some ⟨s.image.station, n⟩) →
        t.windows.requests = s.windows.requests ++ [⟨.windowOpen ⟨s.image.station, n⟩ scope, .own⟩]) ∧
      t.paths = (s.paths.map fun r =>
        if takesHold ⟨s.image.station, n⟩ scope r then heldFor ⟨s.image.station, n⟩ r else r) ∧
      t.probes.slots = (s.probes.slots.map fun o => o.map fun p =>
        if p.phase ≠ .closing ∧ (s.paths.any fun r =>
            r.circuit == p.circuit && r.state == .probing && takesHold ⟨s.image.station, n⟩ scope r) = true
          then { p with overlap := true } else p) ∧
      (∀ held : List Nat, held = (s.paths.filter (takesHold ⟨s.image.station, n⟩ scope)).map (·.circuit) →
        WorkOk s → SchedulerOk s →
        t.sched = schedHeld s held ∧
        t.ctl = { summariesPosted (runsHeldOut s held) s with
          command := t.ctl.command, response := t.ctl.response, reportHeld := false }) ∧
      t.hops = s.hops ∧ t.lines = s.lines ∧ t.loop = s.loop ∧ t.roster = s.roster ∧
      t.scanner = (requestEnded s).scanner ∧ t.now = s.now)

/-! ### Windows (chapter 5) -/

/-- CLOSE WINDOW: refused for an unlisted or not OPEN window, else SETTLING with its timer at the settle
time of the code; the holds and the scope's suppression stand, a second CLOSE WINDOW is refused, and
CANCEL WINDOW and LOOP RESET stop the timer with the window (R100). -/
def Obligations.CloseWindowStartsTheSettleTimer : Prop :=
  ∀ (q code : Byte) (s : State), s.runState = .running →
    (findWindow s ⟨s.image.station, q.toNat⟩ = none → exec (.closeWindow q code) s =
      .next (answered (.closeWindow q code) 0x11 .refusedUnknown .empty s)) ∧
    (∀ w : Window, findWindow s ⟨s.image.station, q.toNat⟩ = some w → w.state ≠ .opened →
      exec (.closeWindow q code) s =
        .next (answered (.closeWindow q code) 0x11 .refusedState .empty s)) ∧
    (∀ w : Window, findWindow s ⟨s.image.station, q.toNat⟩ = some w → w.state = .opened →
      exec (.closeWindow q code) s =
        .next (answered (.closeWindow q code) 0x11 .done
          (.settle (settleTimeMs s.image.settleCode code.toNat))
          (s.setWindows { s.windows with
            list := rewritten ⟨s.image.station, q.toNat⟩ (fun w => { w with
              state := .settling
              settle := .running (s.now + settleTimeMs s.image.settleCode code.toNat) }) s }))) ∧
    (∀ w : Window, findWindow s ⟨s.image.station, q.toNat⟩ = some w → w.state = .settling →
      (∀ p ∈ List.range 16, portIn w.scope p = true → inOwnWindow s p = true) ∧
      ∃ t, exec (.cancelWindow q) s = .next t ∧ findWindow t ⟨s.image.station, q.toNat⟩ = none) ∧
    (s.roster.joined = true → s.loop.up = true → s.loop.quarantine = false →
      ∃ t, exec .loopReset s = .next t ∧ t.windows.list = [])

/-- CANCEL WINDOW: refused for an unlisted window or one past SETTLING; else the serial leaves every
record, the window goes, and a WINDOW CANCEL is requested if its WINDOW OPEN was granted (R16, R97, R98). -/
def Obligations.CancelWindowReleasesItsRecords : Prop :=
  ∀ (q : Byte) (s : State), s.runState = .running → (pathOrder s).Nodup →
    (findWindow s ⟨s.image.station, q.toNat⟩ = none → exec (.cancelWindow q) s =
      .next (answered (.cancelWindow q) 0x12 .refusedUnknown .empty s)) ∧
    (∀ w : Window, findWindow s ⟨s.image.station, q.toNat⟩ = some w →
      (w.state ≠ .opened ∧ w.state ≠ .settling → exec (.cancelWindow q) s =
        .next (answered (.cancelWindow q) 0x12 .refusedState .empty s)) ∧
      (w.state = .opened ∨ w.state = .settling →
        ∃ t, exec (.cancelWindow q) s = .next t ∧
          t.ctl.response = some ⟨.done, 0x12, .cancelled w.announced⟩ ∧
          t.windows.list = (s.windows.list.filter fun v => v.serial != ⟨s.image.station, q.toNat⟩) ∧
          t.paths = (s.paths.map fun r =>
            { released ⟨s.image.station, q.toNat⟩ r with
              owed := r.owed.erase ⟨s.image.station, q.toNat⟩ }) ∧
          t.sched = (afterRelease ⟨s.image.station, q.toNat⟩ s).sched ∧
          (∀ x ∈ t.windows.requests, x.payload.windowSerial = some ⟨s.image.station, q.toNat⟩ →
            x.payload.kind = 4) ∧
          (w.announced = true → (t.windows.requests.any fun x =>
            x.payload == .windowCancel ⟨s.image.station, q.toNat⟩) = true) ∧
          (w.announced = false → t.windows.requests = (s.windows.requests.filter fun x =>
            x.payload.windowSerial != some ⟨s.image.station, q.toNat⟩ || x.payload.kind == 4)) ∧
          (t.windows.requests.filter fun x =>
              x.payload.windowSerial != some ⟨s.image.station, q.toNat⟩) =
            (s.windows.requests.filter fun x =>
              x.payload.windowSerial != some ⟨s.image.station, q.toNat⟩) ∧
          t.windows.seq = s.windows.seq ∧ t.hops = s.hops ∧ t.lines = s.lines ∧ t.probes = s.probes ∧
          t.loop = s.loop ∧ t.roster = s.roster ∧ t.scanner = (requestEnded s).scanner ∧
          t.ctl.queue = s.ctl.queue))

/-- WINDOW_OPEN_DISPATCH: an unlisted serial becomes an OPEN window with its holds, a listed one changes
nothing; a queued circuit leaves its list or is DEFERRED in its sweep run, which may complete, and a probing one's
slot sets OVERLAP (R15, R60, R95, R128, R131). WINDOW_CANCEL_DISPATCH: the window goes whatever its state and its records are released, an
unlisted serial is ignored (R97, R99). -/
def Obligations.OpenAndCancelDispatchesListAndRemove : Prop :=
  (∀ (r : Received) (ser : Serial) (scope : PortSet) (rest : List Received) (s : State),
    s.loop.receive = r :: rest → r.payload = .windowOpen ser scope → (pathOrder s).Nodup →
    ((findWindow s ser).isSome = true → exec .windowOpenDispatch s = .next (dispatched s)) ∧
    (findWindow s ser = none →
      ∃ t, exec .windowOpenDispatch s = .next t ∧ t.loop = { s.loop with receive := rest } ∧
        t.windows = { s.windows with
          list := s.windows.list ++ [
            { serial := ser, scope := scope, state := .opened
              counts := { held := s.paths.countP (takesHold ser scope), passed := 0, changed := 0
                          failed := 0, incomplete := 0, firstFailing := none }
              tally := .notDue, openReceived := false, announced := false, settle := .stopped
              table := List.replicate 24 .notExpected }] } ∧
        t.paths = (s.paths.map fun r => if takesHold ser scope r then heldFor ser r else r) ∧
        t.probes = { s.probes with slots := s.probes.slots.map fun o => o.map fun p =>
          if p.phase ≠ .closing ∧ (s.paths.any fun r =>
              r.circuit == p.circuit && r.state == .probing && takesHold ser scope r) = true
            then { p with overlap := true } else p } ∧
        (∀ held : List Nat, held = (s.paths.filter (takesHold ser scope)).map (·.circuit) →
          WorkOk s → SchedulerOk s →
          t.sched = schedHeld s held ∧ t.ctl = summariesPosted (runsHeldOut s held) s) ∧
        t.hops = s.hops ∧ t.lines = s.lines ∧ t.scanner = s.scanner ∧ t.roster = s.roster)) ∧
  (∀ (r : Received) (ser : Serial) (rest : List Received) (s : State),
    s.loop.receive = r :: rest → r.payload = .windowCancel ser → (pathOrder s).Nodup →
    (findWindow s ser = none → exec .windowCancelDispatch s = .next (dispatched s)) ∧
    ((findWindow s ser).isSome = true →
      exec .windowCancelDispatch s = .next
        (((dispatched s).setPaths (s.paths.map fun r =>
            { released ser r with owed := r.owed.erase ser })).setSched
          (afterRelease ser s).sched |>.setWindows { s.windows with
            list := s.windows.list.filter fun v => v.serial != ser
            requests := s.windows.requests.filter fun x =>
              x.payload.windowSerial != some ser || x.payload.kind == 4 })))

/-- WINDOW_CLOSE_DISPATCH: a listed OPEN window becomes CLOSED, its holds end, and when no record owes it its
tally is due, and a TALLY with its counts is requested; the other windows and a CLOSED one stay; an unlisted serial
is answered with a zero TALLY (R103, R106). A TALLY of the serial that waits already keeps its payload (log 29). -/
def Obligations.WindowCloseDispatchReleasesTheHolds : Prop :=
  ∀ (r : Received) (ser : Serial) (rest : List Received) (s : State),
    s.loop.receive = r :: rest → r.payload = .windowClose ser → (pathOrder s).Nodup →
    ser.opener ≠ s.image.station →
    (findWindow s ser = none →
      (∀ q ∈ s.windows.requests, q.payload.windowSerial ≠ some ser) →
      exec .windowCloseDispatch s = .next ((dispatched s).setWindows { s.windows with
        requests := s.windows.requests ++ [⟨.tally ser ⟨0, 0, 0, 0, 0, none⟩, .unlisted⟩] })) ∧
    (∀ w : Window, findWindow s ser = some w →
      (w.state ≠ .opened → exec .windowCloseDispatch s = .next (dispatched s)) ∧
      (w.state = .opened →
        ∃ t, exec .windowCloseDispatch s = .next t ∧ ∃ v, findWindow t ser = some v ∧
          v.state = .closed ∧ v.counts = w.counts ∧
          t.paths = (afterRelease ser s).paths ∧ t.sched = (afterRelease ser s).sched ∧
          (w.tally = .notDue → s.paths.all (fun r => !r.owed.contains ser) = true →
            v.tally = .pending ∧ t.windows.requests = tallyAsked ser w.counts s.windows.requests) ∧
          (s.paths.any (fun r => r.owed.contains ser) = true →
            v.tally = w.tally ∧ t.windows.requests = s.windows.requests) ∧
          ((s.windows.list.map (·.serial)).Nodup → t.windows.list = rewritten ser (fun _ => v) s) ∧
          t.windows.seq = s.windows.seq ∧
          t.loop = { s.loop with receive := rest } ∧ t.hops = s.hops ∧ t.lines = s.lines ∧
          t.scanner = s.scanner ∧ t.probes = s.probes ∧ t.roster = s.roster ∧ t.ctl = s.ctl))

/-- TALLY_DISPATCH: at the opener an expected station becomes RECEIVED with its counts, and the last one
awaited in COLLECTING brings the summary; elsewhere an OPEN window takes it as the WINDOW CLOSE it has
missed; any other TALLY changes nothing. The summary has the sums and the number of the RECEIVED entries, the
failing ones with their first failing circuit, and the MISSING and UNREACHED stations (R104, R108, R110). -/
def Obligations.TallyDispatchRecordsTheCounts : Prop :=
  (∀ (r : Received) (ser : Serial) (c : Tally) (rest : List Received) (w : Window) (s : State),
    s.loop.receive = r :: rest → r.payload = .tally ser c → findWindow s ser = some w →
    (s.windows.list.map (·.serial)).Nodup → w.table.length = 24 → stationOk r.originator = true →
    (ser.opener = s.image.station → (w.state = .closing ∨ w.state = .collecting) →
      w.tableAt r.originator ∈ [.awaited, .unreached, .missing] →
      ∃ t, exec .tallyDispatch s = .next t ∧ t.loop = { s.loop with receive := rest } ∧
        t.paths = s.paths ∧ t.sched = s.sched ∧ t.probes = s.probes ∧
        (if w.state = .collecting ∧ (stationNumbers.all fun n =>
            n == r.originator || w.tableAt n != .awaited) = true then
          t.windows.list = (s.windows.list.filter fun v => v.serial != ser) ∧
          (s.ctl.queue.length < 32 → t.ctl.queue = s.ctl.queue ++ [(s.ctl.reportNumber,
            .windowSummary { w with table := w.table.set (r.originator - 1) (.received c) }.summary)])
        else
          t.ctl = s.ctl ∧ t.windows.list =
            rewritten ser (fun v => { v with table := v.table.set (r.originator - 1) (.received c) }) s)) ∧
    (ser.opener = s.image.station →
      ¬ (w.state = .closing ∨ w.state = .collecting) ∨
        w.tableAt r.originator ∉ [.awaited, .unreached, .missing] →
      exec .tallyDispatch s = .next (dispatched s)) ∧
    (ser.opener ≠ s.image.station → w.state ≠ .opened →
      exec .tallyDispatch s = .next (dispatched s)) ∧
    (ser.opener ≠ s.image.station → w.state = .opened →
      exec .tallyDispatch s = exec .windowCloseDispatch (s.setLoop { s.loop with
        receive := ⟨r.originator, r.number, .windowClose ser, r.receivedAt⟩ :: rest }))) ∧
  (∀ (r : Received) (ser : Serial) (c : Tally) (rest : List Received) (s : State),
    s.loop.receive = r :: rest → r.payload = .tally ser c → findWindow s ser = none →
    exec .tallyDispatch s = .next (dispatched s)) ∧
  (∀ (w : Window) (got : List (Nat × Tally)), w.table.length = 24 →
    got = ((stationNumbers.zip w.table).filterMap fun x =>
      match x.2 with
      | .received c => some (x.1, c)
      | _ => none) →
    w.summary.serial = w.serial ∧
    w.summary.totals = ⟨(got.map (·.2.held)).sum, (got.map (·.2.passed)).sum, (got.map (·.2.changed)).sum,
      (got.map (·.2.failed)).sum, (got.map (·.2.incomplete)).sum, none⟩ ∧
    w.summary.received = got.length ∧
    w.summary.failures = ((got.filter fun x => 0 < x.2.failed).map fun x => (x.1, x.2.firstFailing.getD 0)) ∧
    ∀ x ∈ stationNumbers.zip w.table, stationIn w.summary.missing x.1 = (x.2 == .missing) ∧
      stationIn w.summary.unreached x.1 = (x.2 == .unreached))

/-- SETTLE_TIMER_EXPIRY: with the open outcome received the window closes: expected set, WINDOW CLOSE
request, CLOSING, own release, and the own tally, which is recorded with the window's counts and brings no TALLY;
without it the window waits in SETTLING; the other windows stay (R101, R106). The clock moves to the expiry
(log 4). -/
def Obligations.SettleExpiryClosesTheWindow : Prop :=
  ∀ (q due : Nat) (w : Window) (s : State), findWindow s ⟨s.image.station, q⟩ = some w →
    w.settle = .running due → w.state = .settling → (pathOrder s).Nodup →
    (w.openReceived = false →
      exec (.settleTimerExpiry q) s = .next ((s.setNow (max s.now due)).setWindows { s.windows with
        list := rewritten ⟨s.image.station, q⟩ (fun v => { v with settle := .expired }) s })) ∧
    (w.openReceived = true →
      ∃ t, exec (.settleTimerExpiry q) s = .next t ∧
        ∃ v, findWindow t ⟨s.image.station, q⟩ = some v ∧ v.state = .closing ∧ v.settle = .stopped ∧
        v.counts = w.counts ∧
        (∀ n ∈ stationNumbers, n ≠ s.image.station →
          v.tableAt n = if isPresent s n then .awaited else .notExpected) ∧
        (isPresent s s.image.station = true → stationOk s.image.station = true →
          v.tableAt s.image.station =
            if s.paths.any (fun r => r.owed.contains ⟨s.image.station, q⟩) then .awaited
            else .received w.counts) ∧
        (t.windows.requests.any fun x => x.payload == .windowClose ⟨s.image.station, q⟩) = true ∧
        ((∀ x ∈ s.windows.requests, x.payload ≠ .windowClose ⟨s.image.station, q⟩) →
          t.windows.requests = s.windows.requests ++ [⟨.windowClose ⟨s.image.station, q⟩, .own⟩]) ∧
        ((s.windows.list.map (·.serial)).Nodup →
          t.windows.list = rewritten ⟨s.image.station, q⟩ (fun _ => v) s) ∧
        t.windows.seq = s.windows.seq ∧
        t.paths = (afterRelease ⟨s.image.station, q⟩ s).paths ∧
        t.sched = (afterRelease ⟨s.image.station, q⟩ s).sched ∧
        t.now = max s.now due ∧ t.hops = s.hops ∧ t.lines = s.lines ∧ t.scanner = s.scanner ∧
        t.probes = s.probes ∧ t.loop = s.loop ∧ t.roster = s.roster ∧ t.ctl = s.ctl)

/-! ### Audit scheduling and sweeps (chapter 6) -/

/-- AUDIT and CENSUS, for one circuit or all: IDLE records are queued with origin COMMAND, an UNBASED one as
CENSUS; other records stay; bad numbers are refused. HOLD AUDITS and RELEASE AUDITS write the admission
flag while BASE is current and the shadow while a sweep is (R17, R117, R121, R177, R178, R198). -/
def Obligations.AuditCommandsQueueAndAdmit : Prop :=
  (∀ (w : BitVec 16) (s : State), s.runState = .running → (pathOrder s).Nodup →
    (w = 0xFFFF →
      exec (.audit w) s = .next (answered (.audit w) 0x20 .done
        (.queuedCount (s.paths.countP (·.state == .idle)))
        (afterRequests (fun _ => true) .routine .command s)) ∧
      exec (.census w) s = .next (answered (.census w) 0x21 .done
        (.queuedCount (s.paths.countP (·.state == .idle)))
        (afterRequests (fun _ => true) .census .command s))) ∧
    (w.toNat = 0 ∨ (1023 < w.toNat ∧ w ≠ 0xFFFF) →
      exec (.audit w) s = .next (answered (.audit w) 0x20 .refusedParam .empty s) ∧
      exec (.census w) s = .next (answered (.census w) 0x21 .refusedParam .empty s)) ∧
    (1 ≤ w.toNat → w.toNat ≤ 1023 → findPath s w.toNat = none →
      exec (.audit w) s = .next (answered (.audit w) 0x20 .refusedUnknown .empty s) ∧
      exec (.census w) s = .next (answered (.census w) 0x21 .refusedUnknown .empty s)) ∧
    (∀ r : PathRecord, findPath s w.toNat = some r → 1 ≤ w.toNat → w.toNat ≤ 1023 → r.state = .idle →
      exec (.audit w) s = .next (answered (.audit w) 0x20 .done
        (.request (.queued (if r.baseline = none then .census else .routine)) (some .command))
        (afterRequests (·.circuit == w.toNat) .routine .command s)) ∧
      exec (.census w) s = .next (answered (.census w) 0x21 .done
        (.request (.queued .census) (some .command))
        (afterRequests (·.circuit == w.toNat) .census .command s))) ∧
    (∀ r : PathRecord, findPath s w.toNat = some r → 1 ≤ w.toNat → w.toNat ≤ 1023 → r.state ≠ .idle →
      exec (.audit w) s = .next (answered (.audit w) 0x20 .done (.request r.state r.origin) s) ∧
      exec (.census w) s = .next (answered (.census w) 0x21 .done (.request r.state r.origin) s))) ∧
  (∀ s : State, s.runState = .running →
    (s.sched.current = none →
      exec .holdAudits s = .next (answered .holdAudits 0x22 .done (.admission false s.sched.shadow true)
        (s.setSched { s.sched with admission := false })) ∧
      exec .releaseAudits s = .next (answered .releaseAudits 0x23 .done
        (.admission true s.sched.shadow true) (s.setSched { s.sched with admission := true }))) ∧
    (s.sched.current ≠ none →
      exec .holdAudits s = .next (answered .holdAudits 0x22 .done
        (.admission s.sched.admission false false) (s.setSched { s.sched with shadow := false })) ∧
      exec .releaseAudits s = .next (answered .releaseAudits 0x23 .done
        (.admission s.sched.admission true false) (s.setSched { s.sched with shadow := true }))))

/-- SWEEP: a bad span is refused; else the TEST is requested or replaces a pending one, and the own records are
selected as when a TEST alarm of the span is dispatched: the state is the one that dispatch leaves, with the
response (R45, R126, R178). -/
def Obligations.SweepRequestsTheTestAndSelects : Prop :=
  ∀ (st p : Byte) (s : State), s.runState = .running →
    (stationOk st.toNat = false ∨ 15 < p.toNat ∨
        (st.toNat = s.image.station ∧ s.image.classAt p.toNat ≠ .lineIn) →
      exec (.sweep st p) s = .next (answered (.sweep st p) 0x24 .refusedParam .empty s)) ∧
    (stationOk st.toNat = true → p.toNat ≤ 15 →
      (st.toNat = s.image.station → s.image.classAt p.toNat = .lineIn) → SchedulerOk s →
      ∃ t, exec (.sweep st p) s = .next t ∧
        t.ctl.response = some ⟨.done, 0x24, .swept (selection s ⟨st.toNat, p.toNat⟩).length
          (if selection s ⟨st.toNat, p.toNat⟩ = [] then .nothing
            else if s.sched.stack.length < 4 then .newRun else .merged)
          (s.scanner.alarms.any (·.kind == .test))⟩ ∧
        t.scanner.alarms = (if s.scanner.alarms.any (·.kind == .test) then
          s.scanner.alarms.map fun a =>
            if a.kind = .test then ⟨.test, ⟨st.toNat, p.toNat⟩⟩ else a
          else s.scanner.alarms ++ [⟨.test, ⟨st.toNat, p.toNat⟩⟩]) ∧
        (∀ c ∈ selection s ⟨st.toNat, p.toNat⟩, ∀ r, findPath t c = some r →
          r.origin = some (.sweep ⟨st.toNat, p.toNat⟩)) ∧
        (∀ a : Received, a.payload = .spanAlarm .test ⟨st.toNat, p.toNat⟩ →
          ∃ u, exec .spanAlarmDispatch
              (((heldCommand (.sweep st p) s).setScanner { (requestEnded s).scanner with
                alarms := t.scanner.alarms }).setLoop { s.loop with receive := a :: s.loop.receive }) =
            .next u ∧ t = u.setCtl { u.ctl with response := t.ctl.response }) ∧
        (selection s ⟨st.toNat, p.toNat⟩ = [] → t.paths = s.paths ∧ t.sched = s.sched ∧
          t.probes = s.probes) ∧
        t.hops = s.hops ∧ t.lines = s.lines ∧ t.windows = s.windows ∧ t.loop = s.loop ∧
        t.roster = s.roster)

/-- SPAN_ALARM_DISPATCH: an alarm selects, in path-record order, the records whose baselines enter the span,
IDLE, QUEUED ROUTINE or SWEEP, or PROBING in no census (R123). Under BASE the selected records form a new run with
the alarm's span and cause, WAITING, or LAUNCHED with their slots adopted, and base work waits behind it; a current
sweep run is suspended in the same way, and what older runs hand on closes their entries; at a full stack the
selection is merged into the current run. Runs whose entries are all closed are summed up and leave; a credited
verdict that closes the last entry brings the summary and the run below it, and at BASE the admission flag takes
its shadow (R18, R61, R122 to R125, R129 to R132). That runs have names is log 8, the reopened entry log 24. -/
def Obligations.SpanAlarmStartsASweepRun : Prop :=
  (∀ (a : Received) (k : AlarmKind) (sp : Span) (rest : List Received) (s : State),
    s.loop.receive = a :: rest → a.payload = .spanAlarm k sp → k ≠ .restore →
    (pathOrder s).Nodup → s.sched.routine.Nodup → SchedulerOk s → s.sched.current = none →
    s.sched.stack = [] →
    (selection s sp = [] → exec .spanAlarmDispatch s = .next (dispatched s)) ∧
    (selection s sp ≠ [] →
      ∃ t, exec .spanAlarmDispatch s = .next t ∧ t.loop = { s.loop with receive := rest } ∧
        t.sched = { s.sched with
          routine := s.sched.routine.filter fun c =>
            !((selection s sp).contains c && stateOf s c == some (.queued .routine))
          current := some
            { id := s.sched.nextRun, span := sp, cause := if k = .loss then .loss else .test
              entries := (selection s sp).map fun c =>
                ⟨c, if stateOf s c = some .probing then .launched else .waiting⟩
              merged := [], overflow := 0 }
          stack := [.base], shadow := s.sched.admission, admission := false
          nextRun := s.sched.nextRun + 1 } ∧
        t.paths = (s.paths.map fun r =>
          if (selection s sp).contains r.circuit then
            { r with
              origin := some (.sweep sp)
              state := if r.state = .probing then .probing else .queued .sweep }
          else r) ∧
        t.probes.slots = (s.probes.slots.map fun o => o.map fun p =>
          if p.phase ≠ .closing ∧ (selection s sp).contains p.circuit = true ∧
              stateOf s p.circuit = some .probing then
            { p with mode := .sweep, owner := .run s.sched.nextRun }
          else p) ∧
        t.hops = s.hops ∧ t.lines = s.lines ∧ t.scanner = s.scanner ∧ t.windows = s.windows ∧
        t.roster = s.roster ∧ t.ctl = s.ctl)) ∧
  (∀ (a : Received) (k : AlarmKind) (sp : Span) (rest : List Received) (s : State),
    s.loop.receive = a :: rest → a.payload = .spanAlarm k sp → k ≠ .restore → selection s sp = [] →
    exec .spanAlarmDispatch s = .next (dispatched s)) ∧
  (∀ (a : Received) (k : AlarmKind) (sp : Span) (rest : List Received) (sel : List Nat) (run : Run)
      (stack : List StackEntry) (s : State),
    s.loop.receive = a :: rest → a.payload = .spanAlarm k sp → k ≠ .restore →
    (pathOrder s).Nodup → s.sched.routine.Nodup → SchedulerOk s → s.sched.current = some run →
    s.sched.stack.length < 4 → sel = selection s sp → sel ≠ [] →
    stack = (.sweep run :: s.sched.stack).map (StackEntry.overtaken s sel) →
    ∃ t, exec .spanAlarmDispatch s = .next t ∧ t.loop = { s.loop with receive := rest } ∧
      t.sched = { s.sched with
        routine := routineTaken s sel
        current := some
          { id := s.sched.nextRun, span := sp, cause := if k = .loss then .loss else .test
            entries := sel.map fun c => ⟨c, takenStanding s c⟩, merged := [], overflow := 0 }
        stack := openIn stack, nextRun := s.sched.nextRun + 1 } ∧
      t.ctl = summariesPosted (completeIn stack) s ∧ t.paths = pathsTaken s sp sel sel ∧
      t.probes.slots = slotsTaken s s.sched.nextRun sel ∧ t.hops = s.hops ∧ t.lines = s.lines ∧
      t.scanner = s.scanner ∧ t.windows = s.windows ∧ t.roster = s.roster) ∧
  (∀ (a : Received) (k : AlarmKind) (sp : Span) (rest : List Received) (sel taken : List Nat) (run : Run)
      (stack : List StackEntry) (s : State),
    s.loop.receive = a :: rest → a.payload = .spanAlarm k sp → k ≠ .restore →
    (pathOrder s).Nodup → s.sched.routine.Nodup → SchedulerOk s → s.sched.current = some run →
    s.sched.stack.length = 4 → sel = selection s sp → sel ≠ [] →
    taken = sel.filter (fun c =>
      !(run.entries.any fun e => e.circuit == c && (e.standing == .waiting || e.standing == .launched))) →
    stack = s.sched.stack.map (StackEntry.overtaken s taken) →
    ∃ t, exec .spanAlarmDispatch s = .next t ∧ t.loop = { s.loop with receive := rest } ∧
      t.sched = { s.sched with
        routine := routineTaken s taken
        current := some { run with
          entries := (run.entries.map fun e =>
              if taken.contains e.circuit then { e with standing := takenStanding s e.circuit } else e) ++
            (taken.filter fun c => !(run.entries.any (·.circuit == c))).map fun c => ⟨c, takenStanding s c⟩
          merged := if sp = run.span ∨ sp ∈ run.merged ∨ 8 ≤ run.merged.length then run.merged
            else run.merged ++ [sp]
          overflow := if sp = run.span ∨ sp ∈ run.merged ∨ run.merged.length < 8 then run.overflow
            else min 255 (run.overflow + 1) }
        stack := openIn stack } ∧
      t.ctl = summariesPosted (completeIn stack) s ∧ t.paths = pathsTaken s sp sel taken ∧
      t.probes.slots = slotsTaken s run.id taken ∧ t.hops = s.hops ∧ t.lines = s.lines ∧
      t.scanner = s.scanner ∧ t.windows = s.windows ∧ t.roster = s.roster) ∧
  (∀ (i due : Nat) (p : Probe) (r : PathRecord) (j : Judgement) (run credited : Run) (s : State),
    probeAt s i = some p → p.phase = .driving → p.deadline = some due → findPath s p.circuit = some r →
    SlotsOk s → SchedulerOk s → j = judge s.image.station s.image.degradeMargin p r.baseline r.origin →
    p.owner = .run run.id → run ∈ s.sched.current.toList ++ s.sched.stack.filterMap (·.run) →
    (∃ e ∈ run.entries, e.circuit = p.circuit ∧ e.standing = .launched) →
    credited = { run with entries := run.entries.map fun e =>
      if e.circuit = p.circuit then { e with standing := .credited j.record.verdict } else e } →
    ∃ t, exec (.deadlineExpiry i) s = .next t ∧
      (credited.complete = false →
        t.sched.current = s.sched.current.map (fun x => if x.id = run.id then credited else x) ∧
        t.sched.stack = s.sched.stack.map (fun e =>
          if e.run.any (·.id == run.id) then .sweep credited else e) ∧
        t.sched.admission = s.sched.admission) ∧
      (credited.complete = true → s.sched.current ≠ some run →
        t.sched.current = s.sched.current ∧
        t.sched.stack = (s.sched.stack.filter fun e => !e.run.any (·.id == run.id)) ∧
        t.sched.admission = s.sched.admission) ∧
      (credited.complete = true → s.sched.current = some run →
        (∀ (x : Run) (below : List StackEntry), s.sched.stack = .sweep x :: below →
          t.sched.current = some x ∧ t.sched.stack = below ∧ t.sched.admission = s.sched.admission) ∧
        (s.sched.stack = [.base] →
          t.sched.current = none ∧ t.sched.stack = [] ∧ t.sched.admission = s.sched.shadow)) ∧
      (credited.complete = true → r.owed = [] → s.ctl.queue.length < 31 →
        t.ctl.queue = s.ctl.queue ++ [(s.ctl.reportNumber, .verdict j.record),
          ((s.ctl.reportNumber + 1) % 256, .sweepSummary credited.summary)]) ∧
      t.sched.shadow = s.sched.shadow ∧ t.sched.census = s.sched.census) ∧
  (∀ r : Run, (r.complete = true ↔ ∀ e ∈ r.entries, e.standing ≠ .waiting ∧ e.standing ≠ .launched) ∧
    r.summary =
      { span := r.span, cause := r.cause, merged := r.merged, overflow := r.overflow
        circuits := r.entries.length
        survived := r.entries.countP fun e => e.standing == .credited .pass ||
          e.standing == .credited .degraded || e.standing == .credited .rerouted
        broken := r.entries.countP fun e => e.standing == .credited .broken ||
          e.standing == .credited .misrouted || e.standing == .credited .conflict
        incomplete := r.entries.countP (·.standing == .credited .incomplete)
        handedOn := r.entries.countP (·.standing == .handedOn)
        deferred := r.entries.countP (·.standing == .deferred)
        firstBroken := (r.entries.find? fun e => e.standing == .credited .broken ||
          e.standing == .credited .misrouted || e.standing == .credited .conflict).map (·.circuit)
        firstIncomplete := (r.entries.find? (·.standing == .credited .incomplete)).map (·.circuit) }) ∧
  (∀ (sp : Span) (s : State), SlotsOk s → selection s sp = (s.paths.filter fun r =>
    ((r.baseline.getD []).any fun h => h.station == sp.station && h.ingress == sp.port) &&
      (r.state == .idle || r.state == .queued .routine || r.state == .queued .sweep ||
        (r.state == .probing && !((probesOf s).any fun p =>
          p.circuit == r.circuit && p.mode == .census)))).map (·.circuit))

/-- SPAN_ALARM_RESTORE_DISPATCH: a ROUTINE request with origin RESTORE for every record whose baseline
enters the span; no run, no stack and no admission flag changes, and base work is not launched while a
sweep is current or admission is clear (R133). -/
def Obligations.RestoreRequestsAudits : Prop :=
  (∀ (a : Received) (sp : Span) (rest : List Received) (s : State),
    s.loop.receive = a :: rest → a.payload = .spanAlarm .restore sp → (pathOrder s).Nodup →
    exec .spanAlarmRestoreDispatch s = .next (afterRequests
      (fun r => (r.baseline.getD []).any fun h => h.station == sp.station && h.ingress == sp.port)
      .routine .restore (dispatched s))) ∧
  (∀ s : State, s.sched.current ≠ none ∨ s.sched.admission = false → exec .baseLaunch s = .next s)

/-- STRAY_DISPATCH: at the named head a ROUTINE request with origin STRAY; a circuit not originated here,
and a STRAY for another head, change nothing (R17, R118). -/
def Obligations.StrayRequestsAnAuditAtItsHead : Prop :=
  ∀ (a : Received) (c head kind port : Nat) (rest : List Received) (s : State),
    s.loop.receive = a :: rest → a.payload = .stray c head kind port → (pathOrder s).Nodup →
    (head = s.image.station → exec .strayDispatch s =
      .next (afterRequests (·.circuit == c) .routine .stray (dispatched s))) ∧
    (head ≠ s.image.station ∨ findPath s c = none → exec .strayDispatch s = .next (dispatched s))

/-- BASE_LAUNCH and SWEEP_LAUNCH: the first launchable circuit of the routine list, else of the census
list, or of the run, takes the lowest IDLE slot with its next epoch and requests its PROBE START. A circuit is
launchable when its record is QUEUED and no slot holds it, CLOSING ones among them; a sweep launch makes the
circuit's entry LAUNCHED and changes nothing else of the scheduler (R12, R19, R48, R49, R120, R127). -/
def Obligations.LaunchesClaimTheLowestSlot : Prop :=
  (∀ (i c e : Nat) (m : Mode) (r : PathRecord) (s : State), s.runState = .running →
    s.roster.joined = true → s.probes.slots.findIdx? (·.isNone) = some i → findPath s c = some r →
    r.lastEpoch < 16 → e = (if r.lastEpoch = 0 ∨ r.lastEpoch = 15 then 1 else r.lastEpoch + 1) →
    (s.loop.up = true → s.sched.admission = true → s.sched.current = none →
      ((m = .routine ∧ s.sched.routine.find? (launchable s) = some c) ∨
        (m = .census ∧ s.sched.routine.find? (launchable s) = none ∧
          s.sched.census.find? (launchable s) = some c)) →
      ∃ t, exec .baseLaunch s = .next t ∧
        t.paths = (s.paths.map fun x => if x.circuit = c then { x with state := .probing, lastEpoch := e }
          else x) ∧
        t.probes = { slots := s.probes.slots.set i (some
                       { phase := .claiming, circuit := c, epoch := e, mode := m, owner := .base
                         blind := 0, joiners := 0, absent := 0, overlap := false, poolShort := false
                         loopLost := false, absentLost := false, lowGrade := false, conflict := false
                         deadline := none, pool := [] })
                     requests := s.probes.requests ++
                       [⟨.probeStart c e m s.image.deadlineCode, .own⟩] } ∧
        t.sched = { s.sched with
          routine := if m = .routine then s.sched.routine.erase c else s.sched.routine
          census := if m = .census then s.sched.census.erase c else s.sched.census } ∧
        t = ((s.setPaths t.paths).setProbes t.probes).setSched t.sched) ∧
    (∀ run : Run, s.sched.current = some run →
      run.entries.find? (fun x => x.standing == .waiting &&
        stateOf s x.circuit == some (.queued .sweep) && (slotOf s x.circuit).isNone) =
          some ⟨c, .waiting⟩ →
      ∃ t, exec .sweepLaunch s = .next t ∧
        t.paths = (s.paths.map fun x => if x.circuit = c then { x with state := .probing, lastEpoch := e }
          else x) ∧
        t.probes.slots = s.probes.slots.set i (some
          { phase := .claiming, circuit := c, epoch := e, mode := .sweep, owner := .run run.id
            blind := 0, joiners := 0, absent := 0, overlap := false, poolShort := false
            loopLost := false, absentLost := false, lowGrade := false, conflict := false
            deadline := none, pool := [] }) ∧
        (SchedulerOk s → t.sched = { s.sched with
          current := some { run with entries := run.entries.map fun x =>
            if x.circuit = c then { x with standing := .launched } else x } }) ∧
        t.probes.requests = s.probes.requests ++ [⟨.probeStart c e .sweep s.image.deadlineCode, .own⟩] ∧
        (∃ run', t.sched.current = some run' ∧ run'.standingOf c = some .launched ∧
          run'.entries.map (·.circuit) = run.entries.map (·.circuit)) ∧
        t.sched.census = s.sched.census ∧ t.sched.routine = s.sched.routine ∧
        t.sched.admission = s.sched.admission ∧ t.sched.shadow = s.sched.shadow ∧
        t = ((s.setPaths t.paths).setProbes t.probes).setSched t.sched)) ∧
  (∀ (c : Nat) (s : State), launchable s c =
    ((findPath s c).any (fun r => r.state == .queued .routine || r.state == .queued .census ||
      r.state == .queued .sweep) && (probesOf s).all (·.circuit != c)))

/-! ### LOOP RESET -/

/-- LOOP RESET: the command is refused unless JOINED, UP and not in quarantine; taken, and when another
station's is dispatched, it resets every block; the station that commands it clears its queues, places
its LOOP RESET first and enters quarantine. No JOIN request stands after it, and a PRESENT that the command
removed is requested again, a retry copy as well (log 15) (R21, R46, R68, R114, R135, R155, R157, R171). -/
def Obligations.LoopResetClearsTheBlocks : Prop :=
  (∀ s : State, s.runState = .running →
    (s.roster.joined = false ∨ s.loop.up = false ∨ s.loop.quarantine = true →
      exec .loopReset s = .next (answered .loopReset 0x40 .refusedState .empty s))) ∧
  (∀ s : State, s.runState = .running → s.roster.joined = true → s.loop.up = true →
    s.loop.quarantine = false → MarkersOk s →
    ∃ t, exec .loopReset s = .next t ∧ BlocksReset s t ∧
      t.ctl.response = some ⟨.done, 0x40, .empty⟩ ∧
      t.loop.newNotices = [⟨.loopReset, .own⟩] ∧ t.loop.retries = [] ∧ t.loop.quarantine = true ∧
      (∀ o ∈ t.loop.outstanding, o.standing = .lingering) ∧
      t.loop.receive = (s.loop.receive.filter fun r => r.payload.kind ∈ [1, 2, 10, 11]) ∧
      t.loop.forward = s.loop.forward ∧ t.loop.number = s.loop.number ∧ t.loop.up = true ∧
      (∀ n ∈ stationNumbers, (rosterAt t n).acceptance = (rosterAt s n).acceptance ∧
        (n ≠ s.image.station → rosterAt t n = rosterAt s n)) ∧
      t.roster.joinRequest = false ∧
      t.roster.presentRequest = (s.roster.presentRequest ||
        (s.loop.newNotices.any fun q => q.payload.kind == 2) ||
        (s.loop.outstanding.any fun o => o.standing == .retryWaiting && o.request.payload.kind == 2)) ∧
      (JoiningOk s → t.roster = { s.roster with
        joinRequest := false, presentRequest := t.roster.presentRequest })) ∧
  (∀ (r : Received) (rest : List Received) (s : State), s.loop.receive = r :: rest →
    r.payload = .loopReset → MarkersOk s → s.runState = .running →
    ∃ t, exec .loopResetDispatch s = .next t ∧ BlocksReset s t ∧
      t.loop.newNotices = (s.loop.newNotices.filter fun q => !(3 ≤ q.payload.kind && q.payload.kind ≤ 9)) ∧
      (∀ o ∈ t.loop.outstanding, 3 ≤ o.request.payload.kind → o.request.payload.kind ≤ 9 →
        o.standing = .lingering) ∧
      t.loop.receive = rest ∧ t.loop.forward = s.loop.forward ∧ t.loop.number = s.loop.number ∧
      t.loop.up = s.loop.up ∧ t.loop.quarantine = s.loop.quarantine ∧
      t.roster = { s.roster with joinRequest := false })

/-! ### The audit loop (chapter 7) -/

/-- In bypass the stream passes unchanged; outside it, idle fill and sound copies count as receptions and
corrupt ones do not; a copy out of range, over the hop limit, in quarantine or without room goes no
further; PASSIVE forwards unmarked (R138, R139, R144, R153, R154, R156). Two points are the model's choice: that a
kind 0Ch with a payload is no LOOP RESET in quarantine (log 30), and when the fairness count of `heard` returns
to 0 (log 26). -/
def Obligations.ReceptionsDriveTheLoopState : Prop :=
  (∀ s : State, s.runState ≠ .starting → exec .idleFillReceived s = .next (heard s)) ∧
  (∀ (bytes : List Byte) (s : State), s.runState = .starting →
    exec (.noticeReceived bytes) s = .next (s.setLoop { s.loop with sending := .passed bytes }) ∧
    exec .idleFillReceived s = .next (s.setLoop { s.loop with sending := .passed [0] })) ∧
  (∀ (bytes : List Byte) (s : State), s.runState ≠ .starting → bytes.headD 0 ≠ 0 →
    parseCopy bytes = none → exec (.noticeReceived bytes) s = .next s) ∧
  (∀ (c : Copy) (s : State), s.runState = .running → c.payload.length < 256 → c.kind ≠ 0 →
    c.originator.toNat ≠ s.image.station →
    (stationOk c.originator.toNat = false ∨ 23 ≤ c.hops.toNat ∨ 8 ≤ s.loop.forward.length ∨
      (s.loop.quarantine = true ∧ c.notice ≠ some .loopReset)) →
    exec (.noticeReceived c.bytes) s = .next (heard s)) ∧
  (∀ (c : Copy) (s : State), s.runState = .passive → c.payload.length < 256 → c.kind ≠ 0 →
    exec (.noticeReceived c.bytes) s = .next (
      if 23 ≤ c.hops.toNat ∨ 8 ≤ s.loop.forward.length then heard s
      else (heard s).setLoop { (heard s).loop with
        forward := s.loop.forward ++ [{ c with hops := c.hops + 1 }] }))

/-- A notice of another station that reaches step 6 is forwarded with its hop count raised and the mark
R142 decides, queued when new and taken, and makes its originator PRESENT; a malformed one is forwarded with no
other effect; in quarantine a LOOP RESET is marked TAKEN, recorded and forwarded, and not queued (R139, R141,
R142, R143, R156, R165, R197). The classes of a number against the acceptance record, and the taken set after
it, are those of R141. An originator that was ABSENT brings with its receipt the ROSTER alert, the grade and the
batching permission anew, GRADE and LOW-GRADE with a change of the grade, and its UNSENT tallies PENDING, each
requested again (R66, R107, R165, R167 to R169), in list order (log 27), and one that waits keeps its payload
(log 29). -/
def Obligations.NoticesAreMarkedAndForwarded : Prop :=
  (∀ (c : Copy) (p : Payload) (repeated refused : Bool) (mark : Nat) (s : State),
    s.runState = .running → c.payload.length < 256 → c.kind ≠ 0 → c.notice = some p →
    c.originator.toNat ≠ s.image.station → stationOk c.originator.toNat = true → c.hops.toNat < 23 →
    s.loop.quarantine = false → s.loop.forward.length < 8 → s.roster.entries.length = 24 →
    repeated = isRepeat (rosterAt s c.originator.toNat).acceptance c.number.toNat (p.kind == 1) →
    refused = ((p.kind == 7 &&
        16 ≤ s.scanner.watch.length + s.loop.receive.countP (fun r => r.payload.kind == 7)) ||
      (p.kind == 3 && !(s.windows.list.any fun w => p.windowSerial == some w.serial) &&
        8 ≤ s.windows.list.length + s.loop.receive.countP (fun r => r.payload.kind == 3))) →
    mark = (if repeated then 1 else if refused then 2 else if 8 ≤ s.loop.receive.length then 0 else 1) →
    ∃ t, exec (.noticeReceived c.bytes) s = .next t ∧
      t.loop.forward = s.loop.forward ++ [{ c with
        hops := c.hops + 1, accept := writeMark c.accept s.image.station mark }] ∧
      t.loop.receive = s.loop.receive ++ (if !repeated && mark == 1 then
        [⟨c.originator.toNat, c.number.toNat, p, s.now⟩] else []) ∧
      (!repeated && mark == 1 → isRepeat (rosterAt t c.originator.toNat).acceptance c.number.toNat
        (p.kind == 1) = true) ∧
      (!repeated && mark == 1 → TakenInto c.number.toNat (p.kind == 1)
        (rosterAt s c.originator.toNat).acceptance (rosterAt t c.originator.toNat).acceptance) ∧
      (repeated || mark == 2 || (mark == 0 && p.kind != 1) →
        (rosterAt t c.originator.toNat).acceptance = (rosterAt s c.originator.toNat).acceptance) ∧
      (mark = 0 → p.kind = 1 → (rosterAt t c.originator.toNat).acceptance = none) ∧
      (rosterAt t c.originator.toNat).present = true ∧ (rosterAt t c.originator.toNat).missRun = 0 ∧
      (rosterAt t c.originator.toNat).advert = (rosterAt s c.originator.toNat).advert ∧
      (∀ y ∈ stationNumbers, y ≠ c.originator.toNat → rosterAt t y = rosterAt s y) ∧
      (isPresent s c.originator.toNat = false → t.ctl.alertSet .roster = true ∧
        TurnedPresent c.originator.toNat (heard s) t) ∧
      t.roster = { s.roster with
        entries := t.roster.entries, grade := t.roster.grade, batching := t.roster.batching } ∧
      t.loop = { (heard s).loop with forward := t.loop.forward, receive := t.loop.receive } ∧
      (isPresent s c.originator.toNat = true → t.roster.grade = s.roster.grade ∧
        t.roster.batching = s.roster.batching) ∧
      (isPresent s c.originator.toNat = true → t.windows = s.windows ∧ t.probes = s.probes ∧
        t.ctl = (heard s).ctl) ∧
      t.loop.up = true ∧ t.loop.silence = some (s.now + 50) ∧ t.loop.outstanding = s.loop.outstanding ∧
      t.hops = s.hops ∧ t.paths = s.paths ∧ t.lines = s.lines ∧ t.scanner = s.scanner ∧
      t.sched = s.sched) ∧
  (∀ (c : Copy) (s : State), s.runState = .running → c.payload.length < 256 → c.kind ≠ 0 →
    c.notice = none → c.originator.toNat ≠ s.image.station → stationOk c.originator.toNat = true →
    c.hops.toNat < 23 → s.loop.quarantine = false → s.loop.forward.length < 8 →
    exec (.noticeReceived c.bytes) s = .next ((heard s).setLoop { (heard s).loop with
      forward := s.loop.forward ++ [{ c with hops := c.hops + 1 }] })) ∧
  (∀ (c : Copy) (s : State), s.runState = .running → c.payload.length < 256 → c.notice = some .loopReset →
    c.originator.toNat ≠ s.image.station → stationOk c.originator.toNat = true → c.hops.toNat < 23 →
    s.loop.quarantine = true → s.loop.forward.length < 8 → s.roster.entries.length = 24 →
    ∃ t, exec (.noticeReceived c.bytes) s = .next t ∧
      t.loop = { (heard s).loop with forward := s.loop.forward ++ [{ c with
        hops := c.hops + 1, accept := writeMark c.accept s.image.station 1 }] } ∧
      isRepeat (rosterAt t c.originator.toNat).acceptance c.number.toNat false = true ∧
      (isRepeat (rosterAt s c.originator.toNat).acceptance c.number.toNat false = true →
        (rosterAt t c.originator.toNat).acceptance = (rosterAt s c.originator.toNat).acceptance) ∧
      (isRepeat (rosterAt s c.originator.toNat).acceptance c.number.toNat false = false →
        TakenInto c.number.toNat false
          (rosterAt s c.originator.toNat).acceptance (rosterAt t c.originator.toNat).acceptance) ∧
      (rosterAt t c.originator.toNat).present = true ∧ (rosterAt t c.originator.toNat).missRun = 0 ∧
      (rosterAt t c.originator.toNat).advert = (rosterAt s c.originator.toNat).advert ∧
      (∀ y ∈ stationNumbers, y ≠ c.originator.toNat → rosterAt t y = rosterAt s y) ∧
      (isPresent s c.originator.toNat = false → TurnedPresent c.originator.toNat (heard s) t) ∧
      t.roster = { s.roster with
        entries := t.roster.entries, grade := t.roster.grade, batching := t.roster.batching } ∧
      (isPresent s c.originator.toNat = true → t.roster.grade = s.roster.grade ∧
        t.roster.batching = s.roster.batching) ∧
      (isPresent s c.originator.toNat = true → t.windows = s.windows ∧ t.probes = s.probes ∧
        t.ctl = (heard s).ctl) ∧
      t.hops = s.hops ∧ t.paths = s.paths ∧ t.lines = s.lines ∧ t.scanner = s.scanner ∧
      t.sched = s.sched) ∧
  (∀ (old : Option Acceptance) (m : Nat) (isJoin : Bool), m < 256 → (∀ a, old = some a → a.last < 256) →
    isRepeat old m isJoin = classedRepeat old m isJoin)

/-- A returning copy of the station's own is stripped: unknown, or different in an assigned bit, it raises ID
CLASH; in flight with a PRESENT station unmarked before the fourth attempt, it waits for its retry. A copy that
leaves none unmarked gives the outcome, and a waiting retry copy goes with it; else it is merged. A lingering
entry takes the marks alone. An entry with its outcome leaves the list once every copy has returned (R140, R150,
R151, R152, R197). The outcome is read by the block that asked for the notice: the slot of a PROBE START or PROBE
END, the window of a WINDOW OPEN, WINDOW CLOSE or TALLY, the Roster Unit for a JOIN, the quarantine for a LOOP RESET
(R50, R51, R55, R96, R101, R102, R107, R110, R156, R162); after it by the miss runs (log 9), which return to 0 at
marked stations and after the fourth attempt rise at unmarked ones, to ABSENT at 3 with all that follows (R64, R109,
R166, R167). A notice that waits already keeps its payload (log 29). -/
def Obligations.OwnCopiesAreStripped : Prop :=
  ∀ (c : Copy) (s : State), s.runState = .running → c.payload.length < 256 → c.kind ≠ 0 →
    c.originator.toNat = s.image.station →
    ((∀ o, findEntry s c.number.toNat = some o → c.notice ≠ some o.request.payload ∧
        ¬ (c.kind = byte o.request.payload.kind ∧ c.payload = o.request.payload.bytes)) →
      exec (.noticeReceived c.bytes) s = .next ((heard s).setCtl { (heard s).ctl with
        faults := s.ctl.faults ||| 0b000100#6
        alerts := (heard s).ctl.alerts ||| 0b0000010#7 })) ∧
    (∀ o, findEntry s c.number.toNat = some o → c.notice = some o.request.payload ∨
        (c.kind = byte o.request.payload.kind ∧ c.payload = o.request.payload.bytes) →
      (o.standing = .inFlight → o.attempts < 4 →
        unmarkedPresent s (o.best.merge (copyMarks s.image.station c.accept)) ≠ 0 →
        exec (.noticeReceived c.bytes) s = .next ((heard s).setLoop { (heard s).loop with
          retries := s.loop.retries ++ [c.number.toNat]
          outstanding := s.loop.outstanding.map fun x =>
            if x.number = c.number.toNat then
              { x with
                best := x.best.merge (copyMarks s.image.station c.accept)
                returned := x.returned + 1, standing := .retryWaiting }
            else x })) ∧
      (o.standing = .retryWaiting →
        unmarkedPresent s (o.best.merge (copyMarks s.image.station c.accept)) ≠ 0 →
        exec (.noticeReceived c.bytes) s = .next ((heard s).setLoop { (heard s).loop with
          outstanding := s.loop.outstanding.map fun x =>
            if x.number = c.number.toNat then
              { x with
                best := x.best.merge (copyMarks s.image.station c.accept)
                returned := x.returned + 1 }
            else x })) ∧
      (o.standing = .lingering → NumbersOk s →
        exec (.noticeReceived c.bytes) s = .next ((heard s).setLoop { (heard s).loop with
          outstanding := (s.loop.outstanding.map fun x =>
            if x.number = c.number.toNat then
              { x with
                best := x.best.merge (copyMarks s.image.station c.accept)
                returned := x.returned + 1 }
            else x).filter fun x => !(x.number == c.number.toNat &&
              (x.transmitted ≤ x.returned || x.lastSent + 20 ≤ s.now)) })) ∧
      (o.standing ≠ .lingering →
        unmarkedPresent s (o.best.merge (copyMarks s.image.station c.accept)) = 0 ∨
          (o.standing = .inFlight ∧ 4 ≤ o.attempts) →
        ∃ t, exec (.noticeReceived c.bytes) s = .next t ∧
          t.loop.retries = s.loop.retries.erase c.number.toNat ∧
          t.loop.outstanding = ((s.loop.outstanding.map fun x =>
            if x.number = c.number.toNat then
              { x with
                best := x.best.merge (copyMarks s.image.station c.accept)
                returned := x.returned + 1, standing := .lingering }
            else x).filter fun x => !(x.number == c.number.toNat &&
              (x.transmitted ≤ x.returned || x.lastSent + 20 ≤ s.now))) ∧
          t.loop = { (heard s).loop with
            retries := t.loop.retries, outstanding := t.loop.outstanding
            quarantine := t.loop.quarantine, fairness := t.loop.fairness } ∧
          (s.roster.entries.length = 24 → o.attempts ≤ 4 →
            OutcomeTaken o (o.best.merge (copyMarks s.image.station c.accept)) (heard s) t)) ∧
      (o.standing = .retryWaiting → NumbersOk s → o.attempts < 4 →
        unmarkedPresent s (o.best.merge (copyMarks s.image.station c.accept)) = 0 →
        exec (.noticeReceived c.bytes) s = exec (.noticeReceived c.bytes) (s.setLoop { s.loop with
          retries := s.loop.retries.erase c.number.toNat
          outstanding := s.loop.outstanding.map fun x =>
            if x.number = c.number.toNat then { x with standing := .inFlight } else x })))

/-- The outcome of a PROBE START takes its slot from CLAIMING to DRIVING: blind set, absent list, marker
line and deadline; an outcome after the fourth attempt makes the unmarked stations blind and feeds their miss
runs, which turn ABSENT at 3; every other slot in DRIVING with a hop there takes them into its absent list, and the
tally tables that await them miss them (R24, R50, R52, R64, R109, R110, R151, R152, R166). That the slot reads the
outcome before the miss runs do is log 9. -/
def Obligations.StartOutcomeBeginsDriving : Prop :=
  (∀ (c : Copy) (o : Outstanding) (i circuit e d : Nat) (m : Mode) (p : Probe) (r : PathRecord) (s : State),
    s.runState = .running → c.payload.length < 256 → c.kind ≠ 0 →
    c.originator.toNat = s.image.station → findEntry s c.number.toNat = some o →
    o.request.payload = .probeStart circuit e m d → c.kind = 7 → c.payload = o.request.payload.bytes →
    o.standing = .inFlight →
    unmarkedPresent s (o.best.merge (copyMarks s.image.station c.accept)) = 0 →
    SlotsOk s → probeAt s i = some p → p.phase = .claiming → p.circuit = circuit → p.epoch = e →
    findPath s circuit = some r → r.line < s.lines.length →
    ∃ t, exec (.noticeReceived c.bytes) s = .next t ∧ ∃ q, probeAt t i = some q ∧
      q = { p with
        phase := .driving, blind := q.blind, absent := q.absent, absentLost := q.absent != 0
        loopLost := false, deadline := some (s.now + deadlineMs s.image.deadlineCode) } ∧
      (∀ n ∈ stationNumbers, stationIn q.blind n = (n != s.image.station &&
        ((isPresent s n &&
          !stationIn (o.best.merge (copyMarks s.image.station c.accept)).taken n) ||
            stationIn p.joiners n))) ∧
      (∀ n ∈ stationNumbers, stationIn q.absent n = (n != s.image.station && !isPresent s n &&
        (r.baseline.getD []).any fun h => h.station == n)) ∧
      t.lines = s.lines.set r.line (some (circuit, e)) ∧
      t.paths = s.paths ∧ t.hops = s.hops ∧ t.sched = s.sched ∧ t.windows = s.windows ∧
      t.scanner = s.scanner ∧ t.ctl = (heard s).ctl) ∧
  (∀ (c : Copy) (o : Outstanding) (i circuit e d : Nat) (m : Mode) (p : Probe) (r : PathRecord)
      (best : BestMarks) (s : State),
    s.runState = .running → c.payload.length < 256 → c.kind = 7 →
    c.originator.toNat = s.image.station → findEntry s c.number.toNat = some o →
    o.request.payload = .probeStart circuit e m d → c.payload = o.request.payload.bytes →
    o.standing = .inFlight → o.attempts = 4 → best = o.best.merge (copyMarks s.image.station c.accept) →
    unmarkedPresent s best ≠ 0 → s.roster.entries.length = 24 →
    SlotsOk s → probeAt s i = some p → p.phase = .claiming → p.circuit = circuit → p.epoch = e →
    findPath s circuit = some r → r.line < s.lines.length →
    ∃ t, exec (.noticeReceived c.bytes) s = .next t ∧ MissesFed best s t ∧
      (∃ q, probeAt t i = some q ∧ Driven best false p q r s t) ∧ AbsencesTold s [] s t ∧
      t.lines = s.lines.set r.line (some (circuit, e)) ∧
      t.paths = s.paths ∧ t.hops = s.hops ∧ t.sched = s.sched ∧ t.scanner = s.scanner)

/-- TRANSMIT_COMPLETE: the oldest forwarded notice, unless an insertion goes first after 4 of them; else
the oldest retry copy, else a new notice with its number, else idle fill; PASSIVE inserts nothing and a
station in bypass sends nothing (R144, R145, R146, R148, R150, R151). That a notice counts as sent, and leaves
its place, when it is chosen is log 18. -/
def Obligations.TheTransmitterChoosesInOrder : Prop :=
  (∀ s : State, s.runState = .starting → exec .transmitComplete s = .next s) ∧
  (∀ s : State, s.runState = .passive → exec .transmitComplete s = .next (s.setLoop { s.loop with
    forward := s.loop.forward.tail
    sending := match s.loop.forward with
      | [] => .idleFill
      | c :: _ => .copy c })) ∧
  (∀ (sendable insert : Bool) (s : State), s.runState = .running →
    sendable = (s.loop.up && (s.loop.retries != [] || (s.loop.newNotices != [] &&
      s.loop.outstanding.length < 8 && s.loop.outstanding.head?.all fun o =>
        (s.loop.number + 256 - o.number) % 256 ≤ 31))) →
    insert = (sendable && s.loop.forward.length < 8 &&
      (s.loop.forward == [] || 4 ≤ s.loop.fairness)) →
    (∀ (c : Copy) (rest : List Copy), s.loop.forward = c :: rest → insert = false →
      exec .transmitComplete s = .next (s.setLoop { s.loop with
        forward := rest, sending := .copy c
        fairness := if sendable then s.loop.fairness + 1 else 0 })) ∧
    (insert = false → s.loop.forward = [] →
      exec .transmitComplete s = .next (s.setLoop { s.loop with sending := .idleFill, fairness := 0 })) ∧
    (∀ (n : Nat) (rest : List Nat), s.loop.retries = n :: rest → insert = true →
      ∀ o, findEntry s n = some o →
      exec .transmitComplete s = .next (s.setLoop { s.loop with
        retries := rest, fairness := 0
        sending := .copy (originalCopy s.image.station n o.request.payload)
        outstanding := s.loop.outstanding.map fun x =>
          if x.number = n then
            { x with
              attempts := x.attempts + 1, standing := .inFlight
              transmitted := x.transmitted + 1, lastSent := s.now }
          else x })) ∧
    (∀ (q : Request) (rest : List Request), s.loop.newNotices = q :: rest → s.loop.retries = [] →
      insert = true →
      exec .transmitComplete s = .next (s.setLoop { s.loop with
        newNotices := rest, fairness := 0, number := (s.loop.number + 1) % 256
        sending := .copy (originalCopy s.image.station s.loop.number q.payload)
        outstanding := s.loop.outstanding ++ [
          { request := q, number := s.loop.number, attempts := 1, standing := .inFlight
            best := ⟨0, 0⟩, transmitted := 1, returned := 0, lastSent := s.now }] })))

/-- INSERTION_PLACE_GRANT: a free place goes to the first claimant of R147; while JOINING to JOIN and
PRESENT alone; a SIGHTING takes its batch; a WINDOW CANCEL waits for its WINDOW OPEN, and the window notes the
grant of its WINDOW OPEN or TALLY; nothing else of the Loop Port changes but the fairness count, and without a free
place or a claimant nothing at all (R37, R38, R45, R91, R98, R106, R147). -/
def Obligations.PlacesGoToTheFirstClaimant : Prop :=
  (∀ s : State, s.runState = .running → s.loop.newNotices.length < 8 →
    (s.roster.joined = false →
      (s.roster.joinRequest = true →
        ∃ t, exec .insertionPlaceGrant s = .next t ∧
          Granted ⟨if s.image.gradeLimit = 2 then .join 2 true else .join 1 false, .own⟩ s t ∧
          t = (s.setLoop t.loop).setRoster { s.roster with joinRequest := false }) ∧
      (s.roster.joinRequest = false → s.roster.presentRequest = true →
        ∃ t, exec .insertionPlaceGrant s = .next t ∧
          Granted ⟨if s.image.gradeLimit = 2 then .present 2 true else .present 1 false, .own⟩ s t ∧
          t = (s.setLoop t.loop).setRoster { s.roster with presentRequest := false }) ∧
      (s.roster.joinRequest = false → s.roster.presentRequest = false →
        exec .insertionPlaceGrant s = .next s)) ∧
    (s.roster.joined = true →
      (∀ (a : Alarm) (rest : List Alarm), s.scanner.alarms = a :: rest →
        ∃ t, exec .insertionPlaceGrant s = .next t ∧
          Granted ⟨.spanAlarm a.kind a.span, .own⟩ s t ∧
          t = (s.setLoop t.loop).setScanner { s.scanner with alarms := rest }) ∧
      (s.scanner.alarms = [] →
        (∀ q : Request, s.probes.requests.find? (fun q => q.payload.kind == 9) = some q ∨
            (s.probes.requests.find? (fun q => q.payload.kind == 9) = none ∧
              s.probes.requests.find? (fun q => q.payload.kind == 7) = some q) →
          ∃ t, exec .insertionPlaceGrant s = .next t ∧
            Granted q s t ∧
            t = (s.setLoop t.loop).setProbes
              { s.probes with requests := s.probes.requests.erase q }) ∧
        ((∀ q ∈ s.probes.requests, q.payload.kind ≠ 9 ∧ q.payload.kind ≠ 7) → s.scanner.backlog ≠ [] →
          ∃ t, exec .insertionPlaceGrant s = .next t ∧
            Granted ⟨.sighting (s.scanner.backlog.take
              (if s.roster.batching then s.image.batchLimit else 1)), .own⟩ s t ∧
            t = (s.setLoop t.loop).setScanner { s.scanner with
              backlog := s.scanner.backlog.drop
                (if s.roster.batching then s.image.batchLimit else 1) }) ∧
        ((∀ q ∈ s.probes.requests, q.payload.kind ≠ 9 ∧ q.payload.kind ≠ 7) → s.scanner.backlog = [] →
          (∀ q : Request, s.windows.requests.find? (eligible s) = some q →
            ∃ t, exec .insertionPlaceGrant s = .next t ∧
              Granted q s t ∧
              t = (s.setLoop t.loop).setWindows { s.windows with
                requests := s.windows.requests.erase q
                list := s.windows.list.map fun w =>
                  if q.payload.windowSerial = some w.serial then
                    { w with
                      announced := w.announced || q.payload.kind == 3
                      tally := if q.payload.kind = 6 ∧ w.tally = .pending then .sent else w.tally }
                  else w }) ∧
          (s.windows.requests.find? (eligible s) = none →
            (∀ (x : Stray) (rest : List Stray), s.scanner.strays = x :: rest →
              ∃ t, exec .insertionPlaceGrant s = .next t ∧
                Granted ⟨.stray x.circuit x.head x.kind.code x.port, .own⟩ s t ∧
                t = (s.setLoop t.loop).setScanner { s.scanner with strays := rest }) ∧
            (s.scanner.strays = [] → s.roster.joinRequest = true →
              ∃ t, exec .insertionPlaceGrant s = .next t ∧
                Granted ⟨if s.image.gradeLimit = 2 then .join 2 true else .join 1 false, .own⟩ s t ∧
                t = (s.setLoop t.loop).setRoster { s.roster with joinRequest := false }) ∧
            (s.scanner.strays = [] → s.roster.joinRequest = false → s.roster.presentRequest = true →
              ∃ t, exec .insertionPlaceGrant s = .next t ∧
                Granted ⟨if s.image.gradeLimit = 2 then .present 2 true else .present 1 false, .own⟩ s t ∧
                t = (s.setLoop t.loop).setRoster { s.roster with presentRequest := false }) ∧
            (s.scanner.strays = [] → s.roster.joinRequest = false → s.roster.presentRequest = false →
              exec .insertionPlaceGrant s = .next s)))))) ∧
  (∀ (ser : Serial) (s : State), eligible s ⟨.windowCancel ser, .own⟩ =
    !((s.loop.newNotices.any fun q => q.payload.kind == 3 && q.payload.windowSerial == some ser) ||
      (s.loop.outstanding.any fun o => o.standing != .lingering && o.request.payload.kind == 3 &&
        o.request.payload.windowSerial == some ser))) ∧
  (∀ (q : Request) (s : State), q.payload.kind ≠ 4 → eligible s q = true) ∧
  (∀ s : State, s.runState ≠ .running ∨ 8 ≤ s.loop.newNotices.length →
    exec .insertionPlaceGrant s = .next s)

/-- RETURN_TIMEOUT before the fourth attempt with a PRESENT station unmarked: the entry waits for its
retry; with none unmarked the outcome is given at once and no miss run rises; after the fourth the outcome is given
to the block that asked for the notice, and the miss run of each such station rises, to ABSENT at 3. Every slot in
DRIVING with a hop at a station so set ABSENT takes it into its absent list with ABSENT-LOST; in the tally tables
that await it it is MISSING, which may bring the summary. A WINDOW OPEN that none refused is received at its window,
which leaves SETTLING with its holds if its timer has run out; a refused one is cancelled, and its serial leaves the
records; a closed one collects until none is awaited; a TALLY not taken is requested again with its counts (R16, R50,
R51, R55, R64, R96, R97, R101, R102, R107, R109, R110, R150, R151, R152, R156, R162, R166). The clock moves to the
expiry (log 4); the block reads the outcome before the miss runs do (log 9); a notice of the serial that waits already
keeps its payload (log 29). -/
def Obligations.ReturnTimeoutsRetryThenFeedMissRuns : Prop :=
  ∀ (n : Nat) (o : Outstanding) (s : State), findEntry s n = some o → o.standing = .inFlight →
    (unmarkedPresent s o.best ≠ 0 → o.attempts < 4 → ∃ t, exec (.returnTimeout n) s = .next t ∧
      t.now = max s.now (o.lastSent + 20) ∧ t.loop.retries = s.loop.retries ++ [n] ∧
      t.loop.outstanding = (s.loop.outstanding.map fun x =>
        if x.number = n then { x with standing := .retryWaiting } else x) ∧
      t = (s.setNow t.now).setLoop { s.loop with
        retries := t.loop.retries, outstanding := t.loop.outstanding, fairness := t.loop.fairness }) ∧
    (unmarkedPresent s o.best = 0 ∨ o.attempts = 4 → s.roster.entries.length = 24 →
      ∃ t, exec (.returnTimeout n) s = .next t ∧ t.now = max s.now (o.lastSent + 20) ∧
        OutcomeTaken o o.best s t ∧
        (∀ x ∈ t.loop.outstanding, x.number = n → x.standing = .lingering) ∧
        t.loop = { s.loop with
          retries := s.loop.retries.erase n, outstanding := t.loop.outstanding
          quarantine := t.loop.quarantine, fairness := t.loop.fairness })

/-- LINGER_END: 20 ms after its last transmission a lingering entry leaves the list, and nothing else changes
but the fairness count (R152). WATCH_EXPIRY removes the watch entry and nothing else (R33). Both move the clock
to the expiry (log 4). -/
def Obligations.LingerAndWatchExpiriesRemoveTheirEntry : Prop :=
  (∀ (n : Nat) (o : Outstanding) (s : State), findEntry s n = some o → o.standing = .lingering →
    (s.loop.outstanding.map (·.number)).Nodup →
    ∃ t, exec (.lingerEnd n) s = .next t ∧ t.now = max s.now (o.lastSent + 20) ∧
      t.loop.outstanding = (s.loop.outstanding.filter fun x => x.number != n) ∧
      t = (s.setNow t.now).setLoop { s.loop with
        outstanding := t.loop.outstanding, fairness := t.loop.fairness }) ∧
  (∀ (c : Nat) (w : WatchEntry) (s : State), findWatch s c = some w →
    exec (.watchExpiry c) s = .next ((s.setNow (max s.now w.expiry)).setScanner
      { s.scanner with watch := s.scanner.watch.filter fun x => x.circuit != c }))

/-- SILENCE_TIMEOUT: the loop goes DOWN with the LOOP alert; every outstanding entry ends FAILED and
lingers, DRIVING slots set LOOP-LOST, a CLAIMING slot whose START was out is driven with every PRESENT
station blind, and the miss runs are frozen. FAILED makes the station of a JOIN JOINED, ends the quarantine of a
LOOP RESET, confirms a window with every PRESENT station unreached, makes the AWAITED stations of a CLOSING window
UNREACHED, and a TALLY PENDING again or UNSENT (R50, R67, R96, R101, R102, R107, R152, R153, R156, R162). No record
moves and no list changes but where a window leaves SETTLING, its timer having run out: its holds end (R16, R101). The
clock moves to the expiry (log 4); several outcomes are given oldest first (log 27). -/
def Obligations.SilenceTakesTheLoopDown : Prop :=
  ∀ (due : Nat) (s : State), s.loop.up = true → s.loop.silence = some due → SlotsOk s → JoiningOk s →
    ∃ t, exec .silenceTimeout s = .next t ∧ t.loop.up = false ∧ t.loop.silence = none ∧
      t.now = max s.now due ∧ t.ctl.alertSet .loop = true ∧
      (∀ o ∈ t.loop.outstanding, o.standing = .lingering) ∧
      t.loop.newNotices = s.loop.newNotices ∧ t.loop.forward = s.loop.forward ∧
      t.loop.receive = s.loop.receive ∧ t.loop.number = s.loop.number ∧
      (NumbersOk s → t.loop.retries = []) ∧
      (∀ i ∈ List.range 4, ∀ p, probeAt s i = some p →
        (p.phase = .driving → probeAt t i = some { p with loopLost := true }) ∧
        (p.phase = .claiming → (s.loop.outstanding.any fun o => o.standing != .lingering &&
            o.request.isStartOf p.circuit p.epoch) = true →
          ∀ r, findPath s p.circuit = some r → ∃ q, probeAt t i = some q ∧
            q = { p with
              phase := .driving, blind := q.blind, absent := q.absent, absentLost := q.absent != 0
              loopLost := true, deadline := some (t.now + deadlineMs s.image.deadlineCode) } ∧
            (∀ n ∈ stationNumbers, stationIn q.blind n = (n != s.image.station &&
              (isPresent s n || stationIn p.joiners n))) ∧
            (∀ n ∈ stationNumbers, stationIn q.absent n = (n != s.image.station && !isPresent s n &&
              (r.baseline.getD []).any fun h => h.station == n)) ∧
            (r.line < s.lines.length → MarkersOk s →
              t.lines.getD r.line none = some (p.circuit, p.epoch))) ∧
        (p.phase = .claiming → (s.loop.outstanding.any fun o => o.standing != .lingering &&
            o.request.isStartOf p.circuit p.epoch) = false → probeAt t i = some p) ∧
        (p.phase = .closing → (s.loop.outstanding.any fun o => o.standing != .lingering &&
            match o.request.payload with
            | .probeEnd c e _ _ => c == p.circuit && e == p.epoch
            | _ => false) = true → probeAt t i = none)) ∧
      (∀ n ∈ stationNumbers, (n ≠ s.image.station → rosterAt t n = rosterAt s n)) ∧
      t.roster.joined = (s.roster.joined || s.loop.outstanding.any fun o => o.failsWith 1) ∧
      (stationOk s.image.station = true → s.roster.entries.length = 24 →
        rosterAt t s.image.station =
          if (s.loop.outstanding.any fun o => o.failsWith 1) = true then { rosterAt s s.image.station with
            present := true, missRun := 0
            advert := some (if s.image.gradeLimit = 2 then ⟨2, true⟩ else ⟨1, false⟩) }
          else rosterAt s s.image.station) ∧
      t.loop.quarantine = (s.loop.quarantine && !(s.loop.outstanding.any fun o => o.failsWith 12)) ∧
      (WindowsOk s →
        (∀ w ∈ s.windows.list, (∀ o ∈ s.loop.outstanding, o.standing ≠ .lingering →
            o.request.payload.windowSerial ≠ some w.serial) → findWindow t w.serial = some w) ∧
        (∀ o ∈ s.loop.outstanding, o.standing ≠ .lingering → o.request.purpose = .own →
          actsAlone s o = true → ∀ ser ∈ o.request.payload.windowSerial, ∀ w, findWindow s ser = some w →
            (o.request.payload.kind = 3 → s.ctl.queue.length ≤ 24 → s.loop.outstanding.length ≤ 8 →
              (t.ctl.queue.any fun q =>
                match q.2 with
                | .openConfirmed ser' x => ser' == ser &&
                  stationNumbers.all fun n => stationIn x n == (n != s.image.station && isPresent s n)
                | _ => false) = true) ∧
            (o.request.payload.kind = 3 → w.state = .opened ∨ (w.state = .settling ∧ w.settle ≠ .expired) →
              findWindow t ser = some { w with openReceived := true }) ∧
            (o.request.payload.kind = 3 → w.state = .settling → w.settle = .expired →
              (∃ v, findWindow t ser = some v ∧ v.state = .closing ∧ v.openReceived = true ∧
                v.settle = .stopped ∧ v.counts = w.counts) ∧
              (t.windows.requests.any fun q => q.payload == .windowClose ser) = true) ∧
            (o.request.payload.kind = 5 → w.state = .closing → w.table.length = 24 →
              (w.tableAt s.image.station ≠ .awaited → findWindow t ser = none ∧
                (s.ctl.queue.length ≤ 24 → s.loop.outstanding.length ≤ 8 →
                  (t.ctl.queue.any fun q =>
                    match q.2 with
                    | .windowSummary x => x.serial == ser
                    | _ => false) = true)) ∧
              (w.tableAt s.image.station = .awaited →
                ∃ v, findWindow t ser = some v ∧ v.state = .collecting ∧ v.counts = w.counts ∧
                  ∀ n ∈ stationNumbers, v.tableAt n =
                    if n ≠ s.image.station ∧ w.tableAt n = .awaited then .unreached else w.tableAt n)) ∧
            (o.request.payload.kind = 6 → ser.opener ≠ s.image.station → w.state = .closed →
              w.tally = .sent →
              (∃ v, findWindow t ser = some v ∧ v.state = .closed ∧ v.counts = w.counts ∧
                v.tally = if isPresent s ser.opener then .pending else .unsent) ∧
              (isPresent s ser.opener = true → (∀ q ∈ s.windows.requests, q.payload.kind = 6 →
                  q.payload.windowSerial ≠ some ser) →
                ⟨.tally ser w.counts, .own⟩ ∈ t.windows.requests)))) ∧
      (s.loop.outstanding.filter (endsSettling s) = [] → t.paths = s.paths ∧ t.sched = s.sched) ∧
      (WindowsOk s → RecordsOk s →
        ∀ u : State, u = (s.loop.outstanding.filter (endsSettling s)).foldl
          (fun v o => (o.request.payload.windowSerial).elim v fun ser => afterRelease ser v) s →
        t.paths = u.paths ∧ t.sched = u.sched) ∧
      (WindowsOk s → RecordsOk s →
        ∀ u : State, u = (s.loop.outstanding.filter (·.standing != .lingering)).foldl
          (fun v o => afterOutcome o.request ⟨0, 0⟩ v) s →
        t.windows = u.windows ∧ t.roster = u.roster ∧ t.paths = u.paths ∧ t.sched = u.sched) ∧
      t.hops = s.hops ∧ t.scanner = s.scanner

/-! ### The roster (chapter 8) -/

/-- JOIN_DISPATCH: the joiner is PRESENT with its advertisement, grade and batching follow, ROSTER is set
and a PRESENT requested once. Its windows go: their serials leave the hold and owed lists, the records so freed are
queued in path-record order with origin WINDOW, window after window in list order (log 27), and their ungranted
OPENs, CLOSEs and TALLYs are dropped (R97, R111). In the tables of this station's CLOSING and COLLECTING windows a
joiner AWAITED becomes MISSING, and in COLLECTING the last one brings the summary, again in list order (R109, R110);
the OPEN and SETTLING windows are announced again (R112). A DRIVING slot is blind to it, and sets LOW-GRADE at a fall
of the grade; a CLAIMING slot whose START is out enters it among its joiners, any other slot stays as it is; the
IDLE records that cross it are queued with origin REJOIN (R65, R66, R119, R163, R168). That a retry copy of a PRESENT
counts as one that waits is log 15. -/
def Obligations.JoinDispatchTakesTheJoiner : Prop :=
  ∀ (a : Received) (g : Nat) (b : Bool) (rest : List Received) (s : State),
    s.loop.receive = a :: rest → a.payload = .join g b → stationOk a.originator = true →
    a.originator ≠ s.image.station → s.roster.entries.length = 24 → WindowsOk s →
    ∃ t, exec .joinDispatch s = .next t ∧ t.loop = { s.loop with receive := rest } ∧
      rosterAt t a.originator = { rosterAt s a.originator with
        present := true, missRun := 0, advert := some ⟨if g = 2 then 2 else 1, b⟩ } ∧
      (∀ n ∈ stationNumbers, n ≠ a.originator → rosterAt t n = rosterAt s n) ∧
      t.roster.grade = loopGradeOf t.roster.entries ∧ t.roster.batching = batchingOf t.roster.entries ∧
      (t.roster.grade ≠ s.roster.grade → t.ctl.alertSet .grade = true) ∧
      t.ctl.alertSet .roster = true ∧
      t.roster.presentRequest = (s.roster.presentRequest ||
        (s.roster.joined && !(s.loop.newNotices.any fun q => q.payload.kind == 2) &&
          !(s.loop.outstanding.any fun o => o.standing == .retryWaiting && o.request.payload.kind == 2))) ∧
      (∀ w ∈ t.windows.list, w.serial.opener ≠ a.originator) ∧
      (∀ w ∈ t.windows.list, w.serial.opener = s.image.station → w.table.length = 24 →
        w.state = .closing ∨ w.state = .collecting → w.tableAt a.originator ≠ .awaited) ∧
      (∀ gone : List Serial,
        gone = (s.windows.list.filter (·.serial.opener == a.originator)).map (·.serial) →
        ∀ u : State, u = gone.foldl (fun v ser => afterCancel ser v) s → (pathOrder s).Nodup →
        t.paths = (u.paths.map fun r =>
          if r.state = .idle ∧ ((r.baseline.getD []).any fun h => h.station == a.originator) = true then
            { r with state := .queued .routine, origin := some .rejoin }
          else r) ∧
        t.sched = { s.sched with
          routine := u.sched.routine ++ (u.paths.filter fun r => r.state == .idle &&
            (r.baseline.getD []).any fun h => h.station == a.originator).map (·.circuit) } ∧
        t.windows = { s.windows with
          list := windowsLosing s.image.station (· == a.originator)
            (s.windows.list.filter fun w => w.serial.opener != a.originator)
          requests := (s.windows.requests.filter fun q =>
              q.payload.kind == 4 || gone.all fun ser => q.payload.windowSerial != some ser) ++
            (s.windows.list.filter fun w => w.serial.opener == s.image.station &&
              (w.state == .opened || w.state == .settling) && s.windows.requests.all fun q =>
                q.payload.kind != 3 || q.payload.windowSerial != some w.serial).map
                  fun w => ⟨.windowOpen w.serial w.scope, .reannounce⟩ } ∧
        t.ctl.queue = (postedAll (summariesLosing s.image.station (· == a.originator) s.windows.list) s).queue) ∧
      (∀ w ∈ s.windows.list, w.serial.opener = s.image.station → w.state = .opened ∨ w.state = .settling →
        (t.windows.requests.any fun q =>
          q.payload.kind == 3 && q.payload.windowSerial == some w.serial) = true) ∧
      (∀ i ∈ List.range 4, ∀ p, probeAt s i = some p →
        (p.phase = .driving → ∃ q, probeAt t i = some q ∧
          q = { p with
            blind := q.blind, lowGrade := p.lowGrade || decide (t.roster.grade < s.roster.grade) } ∧
          ∀ n ∈ stationNumbers, stationIn q.blind n = (stationIn p.blind n || n == a.originator)) ∧
        (p.phase = .claiming → ((s.probes.requests ++ s.loop.newNotices).any fun q =>
            q.isStartOf p.circuit p.epoch) = false →
          ∃ q, probeAt t i = some q ∧ q = { p with joiners := q.joiners } ∧
            ∀ n ∈ stationNumbers, stationIn q.joiners n = (stationIn p.joiners n || n == a.originator)) ∧
        (p.phase = .closing ∨ (p.phase = .claiming ∧ ((s.probes.requests ++ s.loop.newNotices).any fun q =>
            q.isStartOf p.circuit p.epoch) = true) →
          probeAt t i = some p)) ∧
      (∀ r ∈ s.paths, findPath s r.circuit = some r → r.state = .idle →
        (r.baseline.getD []).any (fun h => h.station == a.originator) = true →
        ∃ x, findPath t r.circuit = some x ∧ x.state = .queued .routine ∧ x.origin = some .rejoin) ∧
      t.hops = s.hops ∧ t.lines = s.lines ∧ t.scanner = s.scanner

/-- PRESENT_DISPATCH: the sender is PRESENT with its advertisement and miss run 0, grade and batching
follow, ROSTER is set only when it was ABSENT, and no PRESENT answers it; a fall of the grade sets LOW-GRADE on the
DRIVING slots; the UNSENT tallies of a sender that was ABSENT are requested again with their counts (R66, R107,
R164, R167, R168, R169), in list order (log 27), and one whose
TALLY waits already keeps its payload (log 29). -/
def Obligations.PresentDispatchRecordsTheAdvertisement : Prop :=
  ∀ (a : Received) (g : Nat) (b : Bool) (rest : List Received) (s : State),
    s.loop.receive = a :: rest → a.payload = .present g b → stationOk a.originator = true →
    s.roster.entries.length = 24 →
    ∃ t, exec .presentDispatch s = .next t ∧ t.loop = { s.loop with receive := rest } ∧
      rosterAt t a.originator = { rosterAt s a.originator with
        present := true, missRun := 0, advert := some ⟨if g = 2 then 2 else 1, b⟩ } ∧
      (∀ n ∈ stationNumbers, n ≠ a.originator → rosterAt t n = rosterAt s n) ∧
      t.roster.grade = loopGradeOf t.roster.entries ∧ t.roster.batching = batchingOf t.roster.entries ∧
      t.roster.presentRequest = s.roster.presentRequest ∧
      t.ctl.alertSet .roster = (s.ctl.alertSet .roster || !isPresent s a.originator) ∧
      t.ctl.alertSet .grade = (s.ctl.alertSet .grade || t.roster.grade != s.roster.grade) ∧
      (isPresent s a.originator = true → t.windows = s.windows) ∧
      (isPresent s a.originator = false → WindowsOk s → t.windows = { s.windows with
        list := s.windows.list.map fun w =>
          if w.serial.opener = a.originator ∧ w.tally = .unsent then { w with tally := .pending } else w
        requests := (s.windows.list.filter fun w =>
          w.serial.opener == a.originator && w.tally == .unsent).foldl
            (fun l w => tallyAsked w.serial w.counts l) s.windows.requests }) ∧
      (isPresent s a.originator = true → t.roster.grade = s.roster.grade → t.probes = s.probes) ∧
      t.probes = { s.probes with slots := s.probes.slots.map fun o => o.map fun p =>
        if p.phase = .driving ∧ t.roster.grade < s.roster.grade then { p with lowGrade := true } else p } ∧
      t.paths = s.paths ∧ t.hops = s.hops ∧ t.lines = s.lines ∧ t.scanner = s.scanner ∧
      t.sched = s.sched

/-- A fall of the loop grade from 2 to 1 sets LOW-GRADE on the slots in DRIVING alone, a rise clears
nothing, entering DRIVING sets nothing, items formed at grade 1 carry level 0, and the verdict carries
the flag (R66). -/
def Obligations.AGradeFallSetsLowGrade : Prop :=
  (∀ (i g : Nat) (p : Probe) (s : State), probeAt s i = some p →
    probeAt (applyGrade g s) i = some (if g < s.roster.grade ∧ p.phase = .driving
      then { p with lowGrade := true } else p)) ∧
  (∀ (s : State) (p : Probe) (r : PathRecord) (b : BestMarks) (failed : Bool),
    (drivingProbe s p r b failed).lowGrade = p.lowGrade) ∧
  (∀ (s : State) (m : Mode) (port : Nat) (t : Tag), s.roster.grade = 1 →
    (formItem s m port t).record.level = 0) ∧
  (∀ (head margin : Nat) (p : Probe) (base : Option (List Hop)) (o : Option Origin),
    (judge head margin p base o).record.flags.lowGrade = p.lowGrade)

/-! ### Probes and verdicts (chapters 3 and 4) -/

/-- PROBE_START_DISPATCH: the watch entry is written with its expiry; a circuit of this station raises DUP HEAD.
A DRIVING slot of it, and a CLAIMING one whose START is out, evaluates CONFLICT at once and requests its PROBE END;
a CLAIMING one whose START waits withdraws it and goes to IDLE with the same verdict and no PROBE END. The record
moves, and the windows it owes are credited, as at every evaluation (R20, R32, R49, R62, R63, R82, R105, R106). Two
points of the credits are the model's choice: the owed list is emptied first (log 21), and a TALLY of the serial
that waits already keeps its payload (log 29). -/
def Obligations.ProbeStartDispatchWritesTheWatch : Prop :=
  ∀ (a : Received) (c e d : Nat) (m : Mode) (rest : List Received) (s : State),
    s.loop.receive = a :: rest → a.payload = .probeStart c e m d →
    (findPath s c = none → exec .probeStartDispatch s = .next ((dispatched s).setScanner
      { s.scanner with
        watch := putWatch s.scanner.watch
          ⟨c, e, a.originator, m, a.receivedAt + deadlineMs d + 1000, 0⟩ })) ∧
    (∀ r : PathRecord, findPath s c = some r →
      ∃ t, exec .probeStartDispatch s = .next t ∧ t.ctl.faultSet .dupHead = true ∧
        t.ctl.alertSet .fault = true ∧
        (t.scanner.watch.find? (·.circuit == c)).map (fun w => (w.epoch, w.head)) =
          some (e, a.originator) ∧
        (slotOf s c = none → t.paths = s.paths ∧ t.probes = s.probes ∧ t.lines = s.lines) ∧
        (∀ i, slotOf s c = some i → ∀ p, probeAt s i = some p → p.phase = .closing →
          t.paths = s.paths ∧ t.probes = s.probes) ∧
        (∀ i, slotOf s c = some i → ∀ p, probeAt s i = some p → p.phase = .driving →
          (∃ q, probeAt t i = some q ∧ q.phase = .closing ∧ q.pool = [] ∧ q.conflict = true) ∧
          (∃ x, findPath t c = some x ∧ ∃ v, x.lastVerdict = some v ∧ v.verdict = .conflict ∧
            v.hopCount = 0 ∧ x.baseline = r.baseline) ∧
          t.lines = s.lines.set r.line (some (c, 0))) ∧
        (∀ i, slotOf s c = some i → ∀ p, probeAt s i = some p → p.phase ≠ .closing →
          ∃ x, findPath t c = some x ∧ ∃ v, x.lastVerdict = some v ∧ v.verdict = .conflict ∧
            v.circuit = c ∧ v.epoch = p.epoch ∧ v.mode = p.mode ∧ v.origin = r.origin ∧ v.hopCount = 0 ∧
            v.flags = ⟨false, p.overlap, p.poolShort, p.lowGrade⟩ ∧ v.blind = p.blind ∧
            x.lastChain = none ∧ x.baseline = r.baseline ∧
            (RecordsOk s → WindowsOk s → MovedByVerdict p r x ∧
              t.windows = windowsCredited p r .conflict s ∧
              t.ctl.queue.take (postedAll (evaluationReports p r v s) s).queue.length =
                (postedAll (evaluationReports p r v s) s).queue) ∧
            (s.ctl.queue.length < 32 → r.owed = [] → t.ctl.queue.take (s.ctl.queue.length + 1) =
              s.ctl.queue ++ [(s.ctl.reportNumber, .verdict v)]) ∧
            (p.phase = .claiming ∧ ((s.probes.requests ++ s.loop.newNotices).any fun q =>
                q.isStartOf c p.epoch) = true →
              t.probes = { slots := s.probes.slots.set i none
                           requests := s.probes.requests.filter fun q => !q.isStartOf c p.epoch } ∧
              t.loop.newNotices = (s.loop.newNotices.filter fun q => !q.isStartOf c p.epoch) ∧
              t.lines = s.lines) ∧
            (p.phase = .driving ∨ ((s.probes.requests ++ s.loop.newNotices).any fun q =>
                q.isStartOf c p.epoch) = false →
              t.probes = { slots := s.probes.slots.set i (some { p with
                             phase := .closing, deadline := none, pool := [], conflict := true })
                           requests := s.probes.requests ++ [⟨.probeEnd c p.epoch .conflict v.flags, .own⟩] } ∧
              t.loop.newNotices = s.loop.newNotices ∧ t.lines = s.lines.set r.line (some (c, 0)))) ∧
        t.hops = s.hops ∧ t.roster = s.roster)

/-- SIGHTING_DISPATCH of one item: at a DRIVING slot of its circuit and epoch it becomes a pool record,
unless that station and port are there already or no record is free; elsewhere it is discarded. A ROUTINE or
SWEEP probe whose chain then equals its baseline, with no baseline station blind, evaluates at once, as its
deadline would have it. Several items of one notice are taken one after the other (R53, R57, R58). -/
def Obligations.SightingItemsReachTheirSlot : Prop :=
  (∀ (a : Received) (x : Item) (rest : List Received) (s : State),
     s.loop.receive = a :: rest → a.payload = .sighting [x] →
     (drivingSlot s x.circuit x.epoch = none → exec .sightingDispatch s = .next (dispatched s)) ∧
     (∀ i, drivingSlot s x.circuit x.epoch = some i → ∀ p, probeAt s i = some p →
       ((p.pool.any fun r => r.station == x.record.station && r.port == x.record.port) = true →
         exec .sightingDispatch s = .next (dispatched s)) ∧
       ((p.pool.any fun r => r.station == x.record.station && r.port == x.record.port) = false →
         freeRecords s = 0 →
         exec .sightingDispatch s = .next (((dispatched s).setProbes { s.probes with
           slots := s.probes.slots.set i (some { p with poolShort := true }) }).setCtl { s.ctl with
             faults := s.ctl.faults ||| 0b010000#6, alerts := s.ctl.alerts ||| 0b0000010#7 })))) ∧
  (∀ (a : Received) (x : Item) (rest : List Received) (i : Nat) (p : Probe) (chain : Chain) (early : Bool)
      (s : State),
    s.loop.receive = a :: rest → a.payload = .sighting [x] → drivingSlot s x.circuit x.epoch = some i →
    probeAt s i = some p →
    (p.pool.any fun r => r.station == x.record.station && r.port == x.record.port) = false →
    0 < freeRecords s → chain = assemble s.image.station (p.pool ++ [x.record]) →
    early = (p.mode != .census && ((findPath s p.circuit).bind (·.baseline)).any fun b =>
      chain.hops.map Hop.route == b.map Hop.route && chain.landing.isSome &&
        chain.landing == b.getLast?.map (fun h => (h.station, h.egress)) &&
        b.all fun h => !stationIn p.blind h.station) →
    (early = false → exec .sightingDispatch s = .next ((dispatched s).setProbes { s.probes with
      slots := s.probes.slots.set i (some { p with pool := p.pool ++ [x.record] }) })) ∧
    (early = true → exec .sightingDispatch s =
      exec (.deadlineExpiry i) ((dispatched s).setProbes { s.probes with
        slots := s.probes.slots.set i (some { p with
          pool := p.pool ++ [x.record], deadline := some s.now }) }))) ∧
  (∀ (a : Received) (x : Item) (items : List Item) (rest : List Received) (s t : State),
    s.loop.receive = a :: rest → a.payload = .sighting (x :: items) →
    exec .sightingDispatch
      (s.setLoop { s.loop with receive := { a with payload := .sighting [x] } :: rest }) = .next t →
    exec .sightingDispatch s = exec .sightingDispatch
      (t.setLoop { t.loop with receive := { a with payload := .sighting items } :: rest }))

/-- PROBE_END_DISPATCH: a positive verdict with a matching watch entry writes the hop entry from two reported
ports of opposite sides, with the role of their classes, and removes it at any other set of ports; the watch
entry goes whatever the verdict; with no match nothing changes (R2, R6, R7, R33, R70). -/
def Obligations.ProbeEndDispatchUpdatesTheTable : Prop :=
  (roleOf .add .lineOut = .head ∧ roleOf .lineIn .lineOut = .transit ∧ roleOf .lineIn .drop = .tail ∧
    roleOf .add .drop = .localCircuit) ∧
  (∀ (a : Received) (c e : Nat) (v : Verdict) (f : VerdictFlags) (rest : List Received) (s : State),
    s.loop.receive = a :: rest → a.payload = .probeEnd c e v f →
    ((∀ w, findWatch s c = some w → w.epoch ≠ e) →
      exec .probeEndDispatch s = .next (dispatched s)) ∧
    (∀ w, findWatch s c = some w → w.epoch = e →
      ∃ t, exec .probeEndDispatch s = .next t ∧ t.loop = { s.loop with receive := rest } ∧
        t.scanner = { s.scanner with watch := s.scanner.watch.filter fun x => x.circuit != c } ∧
        (v ∉ [.pass, .degraded, .rerouted, .baselined] ∨ (findPath s c).isSome = true →
          t.hops = s.hops ∧ t.ctl = s.ctl) ∧
        (v ∈ [.pass, .degraded, .rerouted, .baselined] → findPath s c = none → w.circuit = c →
          (∀ i ∈ List.range 16, ∀ o ∈ List.range 16, (s.image.classAt i).isIn = true →
            (s.image.classAt o).isOut = true → w.reported = addPort (addPort 0 i) o →
            ((findHop s.hops c).isSome = true ∨ s.hops.length < 256 →
              t.ctl = s.ctl ∧ t.hops = putHop s.hops
                { circuit := c, role := roleOf (s.image.classAt i) (s.image.classAt o), ingress := i
                  egress := some o, headStation := w.head, latch := false, missing := 0 }) ∧
            (findHop s.hops c = none → 256 ≤ s.hops.length →
              t.hops = s.hops ∧ t.ctl.faultSet .ctFull = true)) ∧
          ((∀ i ∈ List.range 16, ∀ o ∈ List.range 16, (s.image.classAt i).isIn = true →
              (s.image.classAt o).isOut = true → w.reported ≠ addPort (addPort 0 i) o) →
            t.ctl = s.ctl ∧ t.hops = s.hops.filter fun x => x.circuit != c) ∧
          ((portsOf w.reported).length ≠ 2 →
            t.ctl = s.ctl ∧ t.hops = s.hops.filter fun x => x.circuit != c)) ∧
        t.paths = s.paths ∧ t.probes = s.probes ∧ t.windows = s.windows ∧ t.sched = s.sched ∧
        t.roster = s.roster ∧ t.lines = s.lines))

/-- DEADLINE_EXPIRY of a DRIVING slot: it evaluates; the record takes the verdict, the report is posted,
the pool is freed, the line idles, PROBE END is requested and the slot is CLOSING; a positive verdict rewrites
the head's hop entry from the chain's first hop. The verdict counts in every window the record owes, and a tally
that is then due is recorded at the opener, where the last one brings the summary, or requested as a TALLY with
the window's counts (R5, R20, R24, R52, R54, R55, R86, R88, R105, R106, R108, R110). The clock moves to the expiry
(log 4); the owed list is emptied first (log 21); a TALLY that waits already keeps its payload (log 29). -/
def Obligations.DeadlineExpiryEvaluates : Prop :=
  ∀ (i due : Nat) (p : Probe) (r : PathRecord) (j : Judgement) (s : State), probeAt s i = some p →
    p.phase = .driving → p.deadline = some due → findPath s p.circuit = some r →
    SlotsOk s → (pathOrder s).Nodup →
    j = judge s.image.station s.image.degradeMargin p r.baseline r.origin →
    ∃ t, exec (.deadlineExpiry i) s = .next t ∧ t.now = max s.now due ∧
      probeAt t i = some { p with phase := .closing, deadline := none, pool := [] } ∧
      t.probes.requests = s.probes.requests ++
        [⟨.probeEnd p.circuit p.epoch j.record.verdict j.record.flags, .own⟩] ∧
      t.lines = s.lines.set r.line (some (p.circuit, 0)) ∧
      (s.ctl.queue.length < 32 → r.owed = [] → t.ctl.queue.take (s.ctl.queue.length + 1) =
        s.ctl.queue ++ [(s.ctl.reportNumber, .verdict j.record)]) ∧
      (∃ x, findPath t p.circuit = some x ∧ x.lastVerdict = some j.record ∧
        x.lastChain = (if j.hops = [] then none else some j.hops) ∧
        x.baseline = (if j.record.verdict = .baselined then some j.hops else r.baseline) ∧
        MovedByVerdict p r x) ∧
      (RecordsOk s → WindowsOk s → t.windows = windowsCredited p r j.record.verdict s ∧
        ∀ c : ControlPort,
          c = postedAll (evaluationReports p r j.record s) (s.setNow (max s.now due)) →
          t.ctl.queue.take c.queue.length = c.queue ∧ (p.owner = .base → t.ctl = c)) ∧
      (∀ (h : Hop) (hs : List Hop), j.hops = h :: hs →
        j.record.verdict ∈ [.pass, .degraded, .rerouted, .baselined] →
        t.hops = s.hops.map fun e => if e.circuit = p.circuit then { e with
          ingress := h.ingress, egress := some h.egress, latch := false, missing := 0 } else e) ∧
      (j.hops = [] ∨ j.record.verdict ∉ [.pass, .degraded, .rerouted, .baselined] → t.hops = s.hops) ∧
      t.scanner = s.scanner ∧ t.loop = s.loop ∧ t.roster = s.roster

/-- The verdict is the first row of R77 that holds: CONFLICT, MISROUTED, PASS or DEGRADED, REROUTED,
INCOMPLETE, BROKEN; a census gives BASELINED or BROKEN, of an UNBASED record as well (R77, R82, R83); an early
completion lands positively (R53). The chain is formed station by station from the head and followed by its far
ends until it lands, loops or stops (R73 to R75); DEGRADED is a loss of ingress level (R79). A record carries its
hop and mismatch counts, flags, leaks, and the parts of its verdict with the first reason that holds (R76, R80 to
R82, R84, R85). Without a conflict the hops judged, which a positive verdict makes the baseline and the head entry,
are the chain's (R5, R83, R86). -/
def Obligations.VerdictsFollowTheTable : Prop :=
  (∀ (head margin : Nat) (p : Probe) (base : List Hop) (o : Option Origin) (chain : Chain),
    chain = assemble head p.pool →
    (p.conflict = true → (judge head margin p (some base) o).record.verdict = .conflict) ∧
    (p.conflict = false → p.mode = .census →
      ((judge head margin p (some base) o).record.verdict = .baselined ↔ chain.landing.isSome = true) ∧
      ((judge head margin p (some base) o).record.verdict = .broken ↔ chain.landing = none)) ∧
    (p.conflict = false → p.mode ≠ .census →
      (chain.loopStation.isSome = true ∨
          (chain.landing.isSome = true ∧ chain.landing ≠ base.getLast?.map fun h => (h.station, h.egress)) →
        (judge head margin p (some base) o).record.verdict = .misrouted) ∧
      (∀ x, chain.landing = some x → base.getLast?.map (fun h => (h.station, h.egress)) = some x →
        (judge head margin p (some base) o).record.verdict =
          if chain.hops.map Hop.route = base.map Hop.route then
            (if degraded margin base chain.hops then .degraded else .pass) else .rerouted) ∧
      (chain.landing = none → chain.loopStation = none →
        ((judge head margin p (some base) o).record.verdict = .incomplete ∨
          (judge head margin p (some base) o).record.verdict = .broken) ∧
        ((judge head margin p (some base) o).record.verdict = .incomplete ↔
          (nextExpected chain base).any (fun n => stationIn p.blind n || stationIn p.absent n) = true ∨
            p.poolShort = true ∨ p.loopLost = true)))) ∧
  (∀ (head : Nat) (pool : List PoolRecord),
    ((assemble head pool).hops.map (·.station)).Nodup ∧
      ((∀ r ∈ pool, stationOk r.station = true) → (assemble head pool).hops.length ≤ 24)) ∧
  (∀ (head margin : Nat) (p : Probe) (base : List Hop) (o : Option Origin), p.conflict = false →
    completesEarly head p (some base) = true →
    (judge head margin p (some base) o).record.verdict ∈ [.pass, .degraded]) ∧
  (∀ (head margin : Nat) (p : Probe) (base : Option (List Hop)) (o : Option Origin),
    p.conflict = false → p.mode = .census →
    ((judge head margin p base o).record.verdict = .baselined ↔
      (assemble head p.pool).landing.isSome = true) ∧
    ((judge head margin p base o).record.verdict = .broken ↔ (assemble head p.pool).landing = none)) ∧
  (∀ (head : Nat) (pool : List PoolRecord) (chain : Chain), chain = assemble head pool →
    (∀ r ∈ pool, stationOk r.station = true) →
    (∀ l ∈ chain.links, inRecords pool l.ingress.station = [l.ingress] ∧
      outRecords pool l.ingress.station = [l.egress]) ∧
    (chain.links = [] → chain.ending = .stopped ∧ ¬ ((inRecords pool head).length = 1 ∧
      (inRecords pool head).all (·.cls == .add) = true ∧ (outRecords pool head).length = 1)) ∧
    (∀ l, chain.links.head? = some l → l.ingress.station = head ∧ l.ingress.cls = .add) ∧
    (∀ k ∈ List.range 24, ∀ a, chain.links[k]? = some a → ∀ b, chain.links[k + 1]? = some b →
      a.egress.cls ≠ .drop ∧ a.egress.far = some (b.ingress.station, b.ingress.port)) ∧
    (∀ l, chain.links.getLast? = some l →
      (l.egress.cls = .drop → chain.ending = .landing l.egress.station l.egress.port) ∧
      (l.egress.cls ≠ .drop → l.egress.far = none → chain.ending = .stopped) ∧
      (l.egress.cls ≠ .drop → ∀ f, l.egress.far = some f →
        (chain.links.any (·.ingress.station == f.1) = true → chain.ending = .looped f.1) ∧
        (chain.links.any (·.ingress.station == f.1) = false →
          (∀ i, inRecords pool f.1 = [i] → outRecords pool f.1 = [] →
            chain.ending = if i.port = f.2 then .stub i else .stopped) ∧
          ((inRecords pool f.1).length ≠ 1 ∨ outRecords pool f.1 ≠ [] → chain.ending = .stopped) ∧
          ((inRecords pool f.1).length = 1 → (outRecords pool f.1).length = 1 →
            (inRecords pool f.1).all (·.port != f.2) = true)))) ∧
    chain.landing = (match chain.ending with
      | .landing x q => some (x, q)
      | _ => none) ∧
    chain.loopStation = (match chain.ending with
      | .looped x => some x
      | _ => none) ∧
    chain.hops = chain.links.map fun l =>
      { station := l.ingress.station, ingress := l.ingress.port, egress := l.egress.port
        ingressLevel := if l.ingress.level = 0 then none else some l.ingress.level
        egressLevel := if l.egress.level = 0 then none else some l.egress.level }) ∧
  (∀ (margin : Nat) (base hops : List Hop), degraded margin base hops = (decide (1 ≤ margin) &&
    (List.range base.length).any fun k =>
      match (base[k]?).bind (·.ingressLevel), (hops[k]?).bind (·.ingressLevel) with
      | some x, some y => decide (y + margin ≤ x)
      | _, _ => false)) ∧
  (∀ (head margin : Nat) (p : Probe) (base : Option (List Hop)) (o : Option Origin) (chain : Chain)
      (leaks : List PoolRecord) (v : VerdictRecord),
    p.conflict = false → chain = assemble head p.pool →
    leaks = p.pool.filter (fun r => !(chain.links.any (fun l => l.ingress == r || l.egress == r) ||
      chain.ending == .stub r)) →
    v = (judge head margin p base o).record →
    v.circuit = p.circuit ∧ v.mode = p.mode ∧ v.epoch = p.epoch ∧ v.origin = o ∧ v.blind = p.blind ∧
    v.flags = ⟨leaks != [], p.overlap, p.poolShort, p.lowGrade⟩ ∧
    v.leaks = (leaks.map fun r => (r.station, r.port)).take 8 ∧ v.hopCount = chain.links.length ∧
    v.mismatches = (chain.links.map fun l =>
      [l.ingress, l.egress].countP fun r => r.kind == .unexpected || r.kind == .untracked).sum ∧
    v.landing = (if v.verdict = .misrouted then chain.landing else none) ∧
    v.loopStation = (if v.verdict = .misrouted then chain.loopStation else none) ∧
    v.lastGood = (if v.verdict = .broken ∨ v.verdict = .incomplete then
      chain.links.getLast?.map fun l => (l.ingress.station, l.egress.port) else none) ∧
    v.hopsShort = (if v.verdict = .broken ∨ v.verdict = .incomplete then
      base.map fun b => b.countP fun h => !chain.links.any (·.ingress.station == h.station) else none) ∧
    v.stubPoint = (if v.verdict = .broken ∨ v.verdict = .incomplete then
      match chain.ending with
      | .stub r => some (r.station, r.port)
      | _ => none
      else none) ∧
    v.reason = (if v.verdict = .incomplete then
      match chain.links.getLast?.elim ((base.getD []).head?.map (·.station)) (·.egress.far.map (·.1)) with
      | some x =>
        if stationIn p.blind x then some .blind
        else if stationIn p.absent x then some .absent
        else if p.poolShort then some .pool
        else if p.loopLost then some .loop
        else none
      | none => if p.poolShort then some .pool else if p.loopLost then some .loop else none
      else none)) ∧
  (∀ (head margin : Nat) (p : Probe) (base : Option (List Hop)) (o : Option Origin), p.conflict = true →
    judge head margin p base o =
      { hops := []
        record :=
          { circuit := p.circuit, mode := p.mode, verdict := .conflict
            flags := ⟨false, p.overlap, p.poolShort, p.lowGrade⟩, epoch := p.epoch, origin := o
            hopCount := 0, mismatches := 0, landing := none, loopStation := none, lastGood := none
            hopsShort := none, stubPoint := none, reason := none, blind := p.blind, leaks := [] } }) ∧
  (∀ (head margin : Nat) (p : Probe) (base : Option (List Hop)) (o : Option Origin), p.conflict = false →
    (judge head margin p base o).hops = (assemble head p.pool).hops)

/-- DWELL_END: with no request the walk goes on to the next port in ascending order and round; a request
takes the next dwell; an out-of-turn result still wanted answers READ PORT. A result lists each tag found once, at
its strongest level, in ascending circuit and epoch, the first 64 of them, with the overflow flag when there are
more. READ PORT: an UNUSED port is
refused, and a number above 15 as well (log 16); else the request is recorded and the response is not
ready (R25, R26, R28, R29). The clock moves to the end of the dwell (log 4). -/
def Obligations.DwellsWalkThePorts : Prop :=
  (∀ (found : List Tag) (d : Dwell) (s : State), s.scanner.dwell = some d →
    ∃ t, exec (.dwellEnd found) s = .next t ∧ t.now = max s.now d.ends ∧
      (∀ p, s.scanner.request = some p →
        t.scanner.dwell = some ⟨p, true, true, t.now + dwellMs s.image.dwellCode⟩ ∧
        t.scanner.request = none ∧ t.scanner.walkPort = s.scanner.walkPort) ∧
      (∀ q, s.scanner.walkPort = some q → s.scanner.request = none → ∀ p,
        ((List.range 16).filter (fun x => s.image.classAt x != .unused && decide (q < x)) ++
          (List.range 16).filter (fun x => s.image.classAt x != .unused)).head? = some p →
        t.scanner.dwell = some ⟨p, false, false, t.now + dwellMs s.image.dwellCode⟩ ∧
        t.scanner.walkPort = some p) ∧
      (d.wanted = true → t.ctl.response = some ⟨.done, 0x34,
        .dwell d.port (dwellResult d.port found).tags (dwellResult d.port found).overflow
          (if s.image.classAt d.port = .lineIn then
            some (match s.scanner.monitors.getD d.port .clear with
              | .clear => .clear
              | .lossPending _ => .lossPending
              | .loss => .loss
              | .clearPending _ => .clearPending)
          else none)⟩) ∧
      (dwellResult d.port found).tags.length ≤ 64 ∧
      (∀ x ∈ (dwellResult d.port found).tags, x.circuit ≠ 0 ∧
        ∃ y ∈ found, y.circuit = x.circuit ∧ y.epoch = x.epoch) ∧
      (∀ r : DwellResult, r = dwellResult d.port found → r.port = d.port ∧
        r.tags.Pairwise (fun x y => x.circuit < y.circuit ∨ (x.circuit = y.circuit ∧ x.epoch < y.epoch)) ∧
        (∀ x ∈ r.tags, x ∈ found ∧
          ∀ y ∈ found, y.circuit = x.circuit → y.epoch = x.epoch → y.level ≤ x.level) ∧
        (∀ y ∈ found, y.circuit ≠ 0 → (∃ x ∈ r.tags, x.circuit = y.circuit ∧ x.epoch = y.epoch) ∨
          (r.overflow = true ∧ ∀ x ∈ r.tags,
            x.circuit < y.circuit ∨ (x.circuit = y.circuit ∧ x.epoch < y.epoch))) ∧
        (r.overflow = true → r.tags.length = 64 ∧ ∃ y ∈ found, y.circuit ≠ 0 ∧
          ∀ x ∈ r.tags, x.circuit ≠ y.circuit ∨ x.epoch ≠ y.epoch)) ∧
      (d.wanted = false → t.ctl.response = s.ctl.response) ∧
      t.roster = s.roster ∧ t.windows.seq = s.windows.seq ∧ t.scanner.monitors = s.scanner.monitors) ∧
  (∀ (p : Byte) (s : State), s.runState = .running →
    (15 < p.toNat ∨ s.image.classAt p.toNat = .unused → s.image.ports.length = 16 →
      exec (.readPort p) s = .next (answered (.readPort p) 0x34 .refusedParam .empty s)) ∧
    (p.toNat ≤ 15 → s.image.classAt p.toNat ≠ .unused →
      exec (.readPort p) s = .next ((heldCommand (.readPort p) s).setScanner
        { (requestEnded s).scanner with request := some p.toNat })))

/-- A dwell of idle markings: a tag off the ports of its entry shows MISPLACED, and the entries that enter at
the port count their missing runs, up to 3, which show MISSING at 3, unless loss, a window, a watch or the latch
stands against it. Strays of other heads are listed while there is room and set the latch; those of this
station's circuits set it and request an audit. A probe epoch that a watch entry follows forms an item once a
port, which a full backlog drops unreported; one that an own slot drives goes to that slot, where it is repeated,
dropped, taken, or brings the evaluation. Its kind is that of the table of R35. A watch entry whose expiry time
is reached by the end of the dwell applies to no tag and is gone (R3, R27, R33 to R36, R39 to R42, R53, R57). -/
def Obligations.TagsFormItemsAndStrays : Prop :=
  (∀ (found : List Tag) (d : Dwell) (r : DwellResult) (s : State), s.scanner.dwell = some d →
    CircuitTableOk s → ScannerOk s → (pathOrder s).Nodup → (∀ g ∈ found, g.epoch = 0) →
    r = dwellResult d.port found →
    ∃ t, exec (.dwellEnd found) s = .next t ∧
      t.hops = (s.hops.map fun e => { e with
        missing := if e.ingress = d.port ∧ straysChecked s d.port = true then missingAfter r e else e.missing
        latch := e.latch || (straysOwn (atDwellEnd d s) r).contains e.circuit ||
          (straysListed (atDwellEnd d s) r).any fun x => x.1.circuit == e.circuit }) ∧
      t.scanner.strays = s.scanner.strays ++ ((straysListed (atDwellEnd d s) r).map fun x =>
        ⟨x.1.circuit, x.1.headStation, x.2, d.port⟩) ∧
      t.paths = (s.paths.map fun x =>
        if (straysOwn (atDwellEnd d s) r).contains x.circuit = true ∧ x.state = .idle then
          { x with
            state := .queued (if x.baseline = none then .census else .routine), origin := some .stray }
        else x) ∧
      t.sched = { s.sched with
        census := s.sched.census ++ (straysOwn (atDwellEnd d s) r).filter fun c =>
          (findPath s c).any fun x => x.state == .idle && x.baseline.isNone
        routine := s.sched.routine ++ (straysOwn (atDwellEnd d s) r).filter fun c =>
          (findPath s c).any fun x => x.state == .idle && x.baseline.isSome } ∧
      t.scanner.backlog = s.scanner.backlog ∧ t.scanner.watch = (atDwellEnd d s).scanner.watch ∧
      t.scanner.alarms = s.scanner.alarms ∧ t.scanner.monitors = s.scanner.monitors ∧
      t.probes = s.probes ∧ t.windows = s.windows ∧ t.loop = s.loop ∧ t.roster = s.roster ∧
      t.lines = s.lines ∧ t.ctl.queue = s.ctl.queue) ∧
  (∀ (g : Tag) (d : Dwell) (s : State), s.scanner.dwell = some d → g.circuit ≠ 0 →
    (∀ w, findWatch (atDwellEnd d s) g.circuit = some w → g.epoch ≠ 0 → drivingSlot s g.circuit g.epoch = none →
      w.circuit = g.circuit → w.epoch = g.epoch → portIn w.reported d.port = false →
      s.scanner.backlog.length < 32 → d.port < 16 →
      ∃ t, exec (.dwellEnd [g]) s = .next t ∧
        t.scanner.backlog = s.scanner.backlog ++ [⟨g.circuit, g.epoch,
          { station := s.image.station, port := d.port, cls := s.image.classAt d.port
            kind := itemKind s w.mode g.circuit d.port
            level := if s.roster.grade = 2 then g.level else 0
            far := if s.image.classAt d.port = .lineOut then
              some ((s.image.portAt d.port).farStation, (s.image.portAt d.port).farPort) else none }⟩] ∧
        ∃ x, findWatch t g.circuit = some x ∧ portIn x.reported d.port = true)) ∧
  (∀ (g : Tag) (d : Dwell) (s : State), s.scanner.dwell = some d → g.circuit ≠ 0 → g.epoch ≠ 0 →
    drivingSlot s g.circuit g.epoch = none →
    (32 ≤ s.scanner.backlog.length ∨ (findWatch (atDwellEnd d s) g.circuit).all (fun w =>
      w.epoch != g.epoch || portIn w.reported d.port) = true) →
    ∃ t, exec (.dwellEnd [g]) s = .next t ∧ t.scanner.backlog = s.scanner.backlog ∧
      t.scanner.watch = (atDwellEnd d s).scanner.watch ∧ t.probes = s.probes) ∧
  (∀ (g : Tag) (d : Dwell) (i : Nat) (p : Probe) (x : PoolRecord) (chain : Chain) (early : Bool) (s : State),
    s.scanner.dwell = some d → g.circuit ≠ 0 → g.epoch ≠ 0 → drivingSlot s g.circuit g.epoch = some i →
    probeAt s i = some p →
    x = { station := s.image.station, port := d.port, cls := s.image.classAt d.port
          kind := itemKind s p.mode g.circuit d.port
          level := if s.roster.grade = 2 then g.level else 0
          far := if s.image.classAt d.port = .lineOut then
            some ((s.image.portAt d.port).farStation, (s.image.portAt d.port).farPort) else none } →
    chain = assemble s.image.station (p.pool ++ [x]) →
    early = (p.mode != .census && ((findPath s p.circuit).bind (·.baseline)).any fun b =>
      chain.hops.map Hop.route == b.map Hop.route && chain.landing.isSome &&
        chain.landing == b.getLast?.map (fun h => (h.station, h.egress)) &&
        b.all fun h => !stationIn p.blind h.station) →
    ∃ t, exec (.dwellEnd [g]) s = .next t ∧ t.scanner.backlog = s.scanner.backlog ∧
      t.scanner.watch = (atDwellEnd d s).scanner.watch ∧ t.loop = s.loop ∧
      ((p.pool.any fun r => r.station == x.station && r.port == x.port) = true → t.probes = s.probes) ∧
      ((p.pool.any fun r => r.station == x.station && r.port == x.port) = false → freeRecords s = 0 →
        t.probes = { s.probes with slots := s.probes.slots.set i (some { p with poolShort := true }) } ∧
        t.ctl.faultSet .pool = true ∧ t.ctl.alertSet .fault = true) ∧
      ((p.pool.any fun r => r.station == x.station && r.port == x.port) = false → 0 < freeRecords s →
        (early = false → t.probes = { s.probes with
          slots := s.probes.slots.set i (some { p with pool := p.pool ++ [x] }) }) ∧
        (early = true → ∃ u, exec (.deadlineExpiry i) ((s.setNow (max s.now d.ends)).setProbes { s.probes with
            slots := s.probes.slots.set i (some { p with
              pool := p.pool ++ [x], deadline := some (max s.now d.ends) }) }) = .next u ∧
          t.probes = u.probes ∧ t.lines = u.lines ∧ t.windows = u.windows ∧ t.ctl.queue = u.ctl.queue ∧
          t.paths.map (·.lastVerdict) = u.paths.map (·.lastVerdict)))) ∧
  (∀ (m : Mode) (c p : Nat) (s : State),
    (m = .census → itemKind s m c p = .census) ∧
    (m ≠ .census → findHop s.hops c = none → itemKind s m c p = .untracked) ∧
    (m ≠ .census → ∀ e, findHop s.hops c = some e →
      (p = e.ingress ∨ e.egress = some p ∨ (e.role = .head ∧ e.egress = none ∧
          (s.image.classAt p = .lineOut ∨ s.image.classAt p = .drop)) → itemKind s m c p = .expected) ∧
      (¬ (p = e.ingress ∨ e.egress = some p ∨ (e.role = .head ∧ e.egress = none ∧
          (s.image.classAt p = .lineOut ∨ s.image.classAt p = .drop))) → itemKind s m c p = .unexpected)))

/-! ### Scanning (chapter 2) -/

/-- The loss monitors follow the table of R43; LOSS and a RESTORE at CLEAR raise their span alarms outside
the station's windows, replacing one of the port that waits; in any other state of the monitor the input moves
alone (R43, R44, R45). The clock moves to the expiry (log 4). -/
def Obligations.LossMonitorsFollowTheirInputs : Prop :=
  ∀ (p : Nat) (m : LossMonitor) (s : State), p < 16 → s.scanner.monitors.length = 16 →
    s.runState = .running → s.image.classAt p = .lineIn → s.scanner.monitors.getD p .clear = m →
    (∃ t, exec (.lossInputAsserted p) s = .next t ∧ t.lossInputs = s.lossInputs ||| BitVec.twoPow 16 p ∧
      (m = .clear → s.image.holdOffCode ≠ 0 → t.scanner = { s.scanner with
        monitors := s.scanner.monitors.set p (.lossPending (s.now + s.image.holdOffCode * 50)) }) ∧
      (m = .clear → s.image.holdOffCode = 0 → t.scanner = { s.scanner with
        monitors := s.scanner.monitors.set p .loss, alarms := alarmsRaised .loss p s }) ∧
      (∀ due, m.timer = some due → m = .clearPending due → t.scanner =
        { s.scanner with monitors := s.scanner.monitors.set p .loss }) ∧
      (m = .loss ∨ m.timer.any (fun due => m == .lossPending due) = true → t.scanner = s.scanner) ∧
      t = (s.setLossInputs t.lossInputs).setScanner t.scanner) ∧
    (∃ t, exec (.lossInputReleased p) s = .next t ∧
      t.lossInputs = s.lossInputs &&& ~~~(BitVec.twoPow 16 p) ∧
      (m = .loss → s.image.holdOffCode ≠ 0 → t.scanner = { s.scanner with
        monitors := s.scanner.monitors.set p (.clearPending (s.now + s.image.holdOffCode * 50)) }) ∧
      (m = .loss → s.image.holdOffCode = 0 → t.scanner = { s.scanner with
        monitors := s.scanner.monitors.set p .clear, alarms := alarmsRaised .restore p s }) ∧
      (∀ due, m.timer = some due → m = .lossPending due → t.scanner =
        { s.scanner with monitors := s.scanner.monitors.set p .clear }) ∧
      (m = .clear ∨ m.timer.any (fun due => m == .clearPending due) = true → t.scanner = s.scanner) ∧
      t = (s.setLossInputs t.lossInputs).setScanner t.scanner) ∧
    (∀ due, m.timer = some due →
      exec (.holdOffExpiry p) s = .next ((s.setNow (max s.now due)).setScanner { s.scanner with
        monitors := s.scanner.monitors.set p (if m = .lossPending due then .loss else .clear)
        alarms := alarmsRaised (if m = .lossPending due then .loss else .restore) p s }))
end

