-- ==== Sys2Proof/Laws/State.lean ====
section
/-! SUPPORT. The fields of State after each update: one law per setter, and the setters of one field
composed. -/

namespace Sys2Proof.Machine

@[simp] theorem State.setPending_fields (s : State) (x : List Instr) :
    (s.setPending x).pending = x ∧
    (s.setPending x).now = s.now ∧
    (s.setPending x).choices = s.choices ∧
    (s.setPending x).runState = s.runState ∧
    (s.setPending x).image = s.image ∧
    (s.setPending x).finding = s.finding ∧
    (s.setPending x).lossInputs = s.lossInputs ∧
    (s.setPending x).hops = s.hops ∧
    (s.setPending x).paths = s.paths ∧
    (s.setPending x).lines = s.lines ∧
    (s.setPending x).scanner = s.scanner ∧
    (s.setPending x).probes = s.probes ∧
    (s.setPending x).windows = s.windows ∧
    (s.setPending x).sched = s.sched ∧
    (s.setPending x).loop = s.loop ∧
    (s.setPending x).roster = s.roster ∧
    (s.setPending x).ctl = s.ctl := by
  simp only [State.setPending, and_self]

@[simp] theorem State.setPending_twice (s : State) (x y : List Instr) : (s.setPending x).setPending y = s.setPending y := rfl

@[simp] theorem State.setPending_same (s : State) : s.setPending s.pending = s := rfl

@[simp] theorem State.setNow_fields (s : State) (x : Nat) :
    (s.setNow x).pending = s.pending ∧
    (s.setNow x).now = x ∧
    (s.setNow x).choices = s.choices ∧
    (s.setNow x).runState = s.runState ∧
    (s.setNow x).image = s.image ∧
    (s.setNow x).finding = s.finding ∧
    (s.setNow x).lossInputs = s.lossInputs ∧
    (s.setNow x).hops = s.hops ∧
    (s.setNow x).paths = s.paths ∧
    (s.setNow x).lines = s.lines ∧
    (s.setNow x).scanner = s.scanner ∧
    (s.setNow x).probes = s.probes ∧
    (s.setNow x).windows = s.windows ∧
    (s.setNow x).sched = s.sched ∧
    (s.setNow x).loop = s.loop ∧
    (s.setNow x).roster = s.roster ∧
    (s.setNow x).ctl = s.ctl := by
  simp only [State.setNow, and_self]

@[simp] theorem State.setNow_twice (s : State) (x y : Nat) : (s.setNow x).setNow y = s.setNow y := rfl

@[simp] theorem State.setNow_same (s : State) : s.setNow s.now = s := rfl

@[simp] theorem State.setChoices_fields (s : State) (x : Nat) :
    (s.setChoices x).pending = s.pending ∧
    (s.setChoices x).now = s.now ∧
    (s.setChoices x).choices = x ∧
    (s.setChoices x).runState = s.runState ∧
    (s.setChoices x).image = s.image ∧
    (s.setChoices x).finding = s.finding ∧
    (s.setChoices x).lossInputs = s.lossInputs ∧
    (s.setChoices x).hops = s.hops ∧
    (s.setChoices x).paths = s.paths ∧
    (s.setChoices x).lines = s.lines ∧
    (s.setChoices x).scanner = s.scanner ∧
    (s.setChoices x).probes = s.probes ∧
    (s.setChoices x).windows = s.windows ∧
    (s.setChoices x).sched = s.sched ∧
    (s.setChoices x).loop = s.loop ∧
    (s.setChoices x).roster = s.roster ∧
    (s.setChoices x).ctl = s.ctl := by
  simp only [State.setChoices, and_self]

@[simp] theorem State.setChoices_twice (s : State) (x y : Nat) : (s.setChoices x).setChoices y = s.setChoices y := rfl

@[simp] theorem State.setChoices_same (s : State) : s.setChoices s.choices = s := rfl

@[simp] theorem State.setRunState_fields (s : State) (x : RunState) :
    (s.setRunState x).pending = s.pending ∧
    (s.setRunState x).now = s.now ∧
    (s.setRunState x).choices = s.choices ∧
    (s.setRunState x).runState = x ∧
    (s.setRunState x).image = s.image ∧
    (s.setRunState x).finding = s.finding ∧
    (s.setRunState x).lossInputs = s.lossInputs ∧
    (s.setRunState x).hops = s.hops ∧
    (s.setRunState x).paths = s.paths ∧
    (s.setRunState x).lines = s.lines ∧
    (s.setRunState x).scanner = s.scanner ∧
    (s.setRunState x).probes = s.probes ∧
    (s.setRunState x).windows = s.windows ∧
    (s.setRunState x).sched = s.sched ∧
    (s.setRunState x).loop = s.loop ∧
    (s.setRunState x).roster = s.roster ∧
    (s.setRunState x).ctl = s.ctl := by
  simp only [State.setRunState, and_self]

@[simp] theorem State.setRunState_twice (s : State) (x y : RunState) : (s.setRunState x).setRunState y = s.setRunState y := rfl

@[simp] theorem State.setRunState_same (s : State) : s.setRunState s.runState = s := rfl

@[simp] theorem State.setImage_fields (s : State) (x : Image) :
    (s.setImage x).pending = s.pending ∧
    (s.setImage x).now = s.now ∧
    (s.setImage x).choices = s.choices ∧
    (s.setImage x).runState = s.runState ∧
    (s.setImage x).image = x ∧
    (s.setImage x).finding = s.finding ∧
    (s.setImage x).lossInputs = s.lossInputs ∧
    (s.setImage x).hops = s.hops ∧
    (s.setImage x).paths = s.paths ∧
    (s.setImage x).lines = s.lines ∧
    (s.setImage x).scanner = s.scanner ∧
    (s.setImage x).probes = s.probes ∧
    (s.setImage x).windows = s.windows ∧
    (s.setImage x).sched = s.sched ∧
    (s.setImage x).loop = s.loop ∧
    (s.setImage x).roster = s.roster ∧
    (s.setImage x).ctl = s.ctl := by
  simp only [State.setImage, and_self]

@[simp] theorem State.setImage_twice (s : State) (x y : Image) : (s.setImage x).setImage y = s.setImage y := rfl

@[simp] theorem State.setImage_same (s : State) : s.setImage s.image = s := rfl

@[simp] theorem State.setFinding_fields (s : State) (x : LoadFinding) :
    (s.setFinding x).pending = s.pending ∧
    (s.setFinding x).now = s.now ∧
    (s.setFinding x).choices = s.choices ∧
    (s.setFinding x).runState = s.runState ∧
    (s.setFinding x).image = s.image ∧
    (s.setFinding x).finding = x ∧
    (s.setFinding x).lossInputs = s.lossInputs ∧
    (s.setFinding x).hops = s.hops ∧
    (s.setFinding x).paths = s.paths ∧
    (s.setFinding x).lines = s.lines ∧
    (s.setFinding x).scanner = s.scanner ∧
    (s.setFinding x).probes = s.probes ∧
    (s.setFinding x).windows = s.windows ∧
    (s.setFinding x).sched = s.sched ∧
    (s.setFinding x).loop = s.loop ∧
    (s.setFinding x).roster = s.roster ∧
    (s.setFinding x).ctl = s.ctl := by
  simp only [State.setFinding, and_self]

@[simp] theorem State.setFinding_twice (s : State) (x y : LoadFinding) : (s.setFinding x).setFinding y = s.setFinding y := rfl

@[simp] theorem State.setFinding_same (s : State) : s.setFinding s.finding = s := rfl

@[simp] theorem State.setLossInputs_fields (s : State) (x : PortSet) :
    (s.setLossInputs x).pending = s.pending ∧
    (s.setLossInputs x).now = s.now ∧
    (s.setLossInputs x).choices = s.choices ∧
    (s.setLossInputs x).runState = s.runState ∧
    (s.setLossInputs x).image = s.image ∧
    (s.setLossInputs x).finding = s.finding ∧
    (s.setLossInputs x).lossInputs = x ∧
    (s.setLossInputs x).hops = s.hops ∧
    (s.setLossInputs x).paths = s.paths ∧
    (s.setLossInputs x).lines = s.lines ∧
    (s.setLossInputs x).scanner = s.scanner ∧
    (s.setLossInputs x).probes = s.probes ∧
    (s.setLossInputs x).windows = s.windows ∧
    (s.setLossInputs x).sched = s.sched ∧
    (s.setLossInputs x).loop = s.loop ∧
    (s.setLossInputs x).roster = s.roster ∧
    (s.setLossInputs x).ctl = s.ctl := by
  simp only [State.setLossInputs, and_self]

@[simp] theorem State.setLossInputs_twice (s : State) (x y : PortSet) : (s.setLossInputs x).setLossInputs y = s.setLossInputs y := rfl

@[simp] theorem State.setLossInputs_same (s : State) : s.setLossInputs s.lossInputs = s := rfl

@[simp] theorem State.setHops_fields (s : State) (x : List HopEntry) :
    (s.setHops x).pending = s.pending ∧
    (s.setHops x).now = s.now ∧
    (s.setHops x).choices = s.choices ∧
    (s.setHops x).runState = s.runState ∧
    (s.setHops x).image = s.image ∧
    (s.setHops x).finding = s.finding ∧
    (s.setHops x).lossInputs = s.lossInputs ∧
    (s.setHops x).hops = x ∧
    (s.setHops x).paths = s.paths ∧
    (s.setHops x).lines = s.lines ∧
    (s.setHops x).scanner = s.scanner ∧
    (s.setHops x).probes = s.probes ∧
    (s.setHops x).windows = s.windows ∧
    (s.setHops x).sched = s.sched ∧
    (s.setHops x).loop = s.loop ∧
    (s.setHops x).roster = s.roster ∧
    (s.setHops x).ctl = s.ctl := by
  simp only [State.setHops, and_self]

@[simp] theorem State.setHops_twice (s : State) (x y : List HopEntry) : (s.setHops x).setHops y = s.setHops y := rfl

@[simp] theorem State.setHops_same (s : State) : s.setHops s.hops = s := rfl

@[simp] theorem State.setPaths_fields (s : State) (x : List PathRecord) :
    (s.setPaths x).pending = s.pending ∧
    (s.setPaths x).now = s.now ∧
    (s.setPaths x).choices = s.choices ∧
    (s.setPaths x).runState = s.runState ∧
    (s.setPaths x).image = s.image ∧
    (s.setPaths x).finding = s.finding ∧
    (s.setPaths x).lossInputs = s.lossInputs ∧
    (s.setPaths x).hops = s.hops ∧
    (s.setPaths x).paths = x ∧
    (s.setPaths x).lines = s.lines ∧
    (s.setPaths x).scanner = s.scanner ∧
    (s.setPaths x).probes = s.probes ∧
    (s.setPaths x).windows = s.windows ∧
    (s.setPaths x).sched = s.sched ∧
    (s.setPaths x).loop = s.loop ∧
    (s.setPaths x).roster = s.roster ∧
    (s.setPaths x).ctl = s.ctl := by
  simp only [State.setPaths, and_self]

@[simp] theorem State.setPaths_twice (s : State) (x y : List PathRecord) : (s.setPaths x).setPaths y = s.setPaths y := rfl

@[simp] theorem State.setPaths_same (s : State) : s.setPaths s.paths = s := rfl

@[simp] theorem State.setLines_fields (s : State) (x : List (Option (Nat × Nat))) :
    (s.setLines x).pending = s.pending ∧
    (s.setLines x).now = s.now ∧
    (s.setLines x).choices = s.choices ∧
    (s.setLines x).runState = s.runState ∧
    (s.setLines x).image = s.image ∧
    (s.setLines x).finding = s.finding ∧
    (s.setLines x).lossInputs = s.lossInputs ∧
    (s.setLines x).hops = s.hops ∧
    (s.setLines x).paths = s.paths ∧
    (s.setLines x).lines = x ∧
    (s.setLines x).scanner = s.scanner ∧
    (s.setLines x).probes = s.probes ∧
    (s.setLines x).windows = s.windows ∧
    (s.setLines x).sched = s.sched ∧
    (s.setLines x).loop = s.loop ∧
    (s.setLines x).roster = s.roster ∧
    (s.setLines x).ctl = s.ctl := by
  simp only [State.setLines, and_self]

@[simp] theorem State.setLines_twice (s : State) (x y : List (Option (Nat × Nat))) : (s.setLines x).setLines y = s.setLines y := rfl

@[simp] theorem State.setLines_same (s : State) : s.setLines s.lines = s := rfl

@[simp] theorem State.setScanner_fields (s : State) (x : TagScanner) :
    (s.setScanner x).pending = s.pending ∧
    (s.setScanner x).now = s.now ∧
    (s.setScanner x).choices = s.choices ∧
    (s.setScanner x).runState = s.runState ∧
    (s.setScanner x).image = s.image ∧
    (s.setScanner x).finding = s.finding ∧
    (s.setScanner x).lossInputs = s.lossInputs ∧
    (s.setScanner x).hops = s.hops ∧
    (s.setScanner x).paths = s.paths ∧
    (s.setScanner x).lines = s.lines ∧
    (s.setScanner x).scanner = x ∧
    (s.setScanner x).probes = s.probes ∧
    (s.setScanner x).windows = s.windows ∧
    (s.setScanner x).sched = s.sched ∧
    (s.setScanner x).loop = s.loop ∧
    (s.setScanner x).roster = s.roster ∧
    (s.setScanner x).ctl = s.ctl := by
  simp only [State.setScanner, and_self]

@[simp] theorem State.setScanner_twice (s : State) (x y : TagScanner) : (s.setScanner x).setScanner y = s.setScanner y := rfl

@[simp] theorem State.setScanner_same (s : State) : s.setScanner s.scanner = s := rfl

@[simp] theorem State.setProbes_fields (s : State) (x : ProbeUnit) :
    (s.setProbes x).pending = s.pending ∧
    (s.setProbes x).now = s.now ∧
    (s.setProbes x).choices = s.choices ∧
    (s.setProbes x).runState = s.runState ∧
    (s.setProbes x).image = s.image ∧
    (s.setProbes x).finding = s.finding ∧
    (s.setProbes x).lossInputs = s.lossInputs ∧
    (s.setProbes x).hops = s.hops ∧
    (s.setProbes x).paths = s.paths ∧
    (s.setProbes x).lines = s.lines ∧
    (s.setProbes x).scanner = s.scanner ∧
    (s.setProbes x).probes = x ∧
    (s.setProbes x).windows = s.windows ∧
    (s.setProbes x).sched = s.sched ∧
    (s.setProbes x).loop = s.loop ∧
    (s.setProbes x).roster = s.roster ∧
    (s.setProbes x).ctl = s.ctl := by
  simp only [State.setProbes, and_self]

@[simp] theorem State.setProbes_twice (s : State) (x y : ProbeUnit) : (s.setProbes x).setProbes y = s.setProbes y := rfl

@[simp] theorem State.setProbes_same (s : State) : s.setProbes s.probes = s := rfl

@[simp] theorem State.setWindows_fields (s : State) (x : WindowUnit) :
    (s.setWindows x).pending = s.pending ∧
    (s.setWindows x).now = s.now ∧
    (s.setWindows x).choices = s.choices ∧
    (s.setWindows x).runState = s.runState ∧
    (s.setWindows x).image = s.image ∧
    (s.setWindows x).finding = s.finding ∧
    (s.setWindows x).lossInputs = s.lossInputs ∧
    (s.setWindows x).hops = s.hops ∧
    (s.setWindows x).paths = s.paths ∧
    (s.setWindows x).lines = s.lines ∧
    (s.setWindows x).scanner = s.scanner ∧
    (s.setWindows x).probes = s.probes ∧
    (s.setWindows x).windows = x ∧
    (s.setWindows x).sched = s.sched ∧
    (s.setWindows x).loop = s.loop ∧
    (s.setWindows x).roster = s.roster ∧
    (s.setWindows x).ctl = s.ctl := by
  simp only [State.setWindows, and_self]

@[simp] theorem State.setWindows_twice (s : State) (x y : WindowUnit) : (s.setWindows x).setWindows y = s.setWindows y := rfl

@[simp] theorem State.setWindows_same (s : State) : s.setWindows s.windows = s := rfl

@[simp] theorem State.setSched_fields (s : State) (x : Scheduler) :
    (s.setSched x).pending = s.pending ∧
    (s.setSched x).now = s.now ∧
    (s.setSched x).choices = s.choices ∧
    (s.setSched x).runState = s.runState ∧
    (s.setSched x).image = s.image ∧
    (s.setSched x).finding = s.finding ∧
    (s.setSched x).lossInputs = s.lossInputs ∧
    (s.setSched x).hops = s.hops ∧
    (s.setSched x).paths = s.paths ∧
    (s.setSched x).lines = s.lines ∧
    (s.setSched x).scanner = s.scanner ∧
    (s.setSched x).probes = s.probes ∧
    (s.setSched x).windows = s.windows ∧
    (s.setSched x).sched = x ∧
    (s.setSched x).loop = s.loop ∧
    (s.setSched x).roster = s.roster ∧
    (s.setSched x).ctl = s.ctl := by
  simp only [State.setSched, and_self]

@[simp] theorem State.setSched_twice (s : State) (x y : Scheduler) : (s.setSched x).setSched y = s.setSched y := rfl

@[simp] theorem State.setSched_same (s : State) : s.setSched s.sched = s := rfl

@[simp] theorem State.setLoop_fields (s : State) (x : LoopPort) :
    (s.setLoop x).pending = s.pending ∧
    (s.setLoop x).now = s.now ∧
    (s.setLoop x).choices = s.choices ∧
    (s.setLoop x).runState = s.runState ∧
    (s.setLoop x).image = s.image ∧
    (s.setLoop x).finding = s.finding ∧
    (s.setLoop x).lossInputs = s.lossInputs ∧
    (s.setLoop x).hops = s.hops ∧
    (s.setLoop x).paths = s.paths ∧
    (s.setLoop x).lines = s.lines ∧
    (s.setLoop x).scanner = s.scanner ∧
    (s.setLoop x).probes = s.probes ∧
    (s.setLoop x).windows = s.windows ∧
    (s.setLoop x).sched = s.sched ∧
    (s.setLoop x).loop = x ∧
    (s.setLoop x).roster = s.roster ∧
    (s.setLoop x).ctl = s.ctl := by
  simp only [State.setLoop, and_self]

@[simp] theorem State.setLoop_twice (s : State) (x y : LoopPort) : (s.setLoop x).setLoop y = s.setLoop y := rfl

@[simp] theorem State.setLoop_same (s : State) : s.setLoop s.loop = s := rfl

@[simp] theorem State.setRoster_fields (s : State) (x : RosterUnit) :
    (s.setRoster x).pending = s.pending ∧
    (s.setRoster x).now = s.now ∧
    (s.setRoster x).choices = s.choices ∧
    (s.setRoster x).runState = s.runState ∧
    (s.setRoster x).image = s.image ∧
    (s.setRoster x).finding = s.finding ∧
    (s.setRoster x).lossInputs = s.lossInputs ∧
    (s.setRoster x).hops = s.hops ∧
    (s.setRoster x).paths = s.paths ∧
    (s.setRoster x).lines = s.lines ∧
    (s.setRoster x).scanner = s.scanner ∧
    (s.setRoster x).probes = s.probes ∧
    (s.setRoster x).windows = s.windows ∧
    (s.setRoster x).sched = s.sched ∧
    (s.setRoster x).loop = s.loop ∧
    (s.setRoster x).roster = x ∧
    (s.setRoster x).ctl = s.ctl := by
  simp only [State.setRoster, and_self]

@[simp] theorem State.setRoster_twice (s : State) (x y : RosterUnit) : (s.setRoster x).setRoster y = s.setRoster y := rfl

@[simp] theorem State.setRoster_same (s : State) : s.setRoster s.roster = s := rfl

@[simp] theorem State.setCtl_fields (s : State) (x : ControlPort) :
    (s.setCtl x).pending = s.pending ∧
    (s.setCtl x).now = s.now ∧
    (s.setCtl x).choices = s.choices ∧
    (s.setCtl x).runState = s.runState ∧
    (s.setCtl x).image = s.image ∧
    (s.setCtl x).finding = s.finding ∧
    (s.setCtl x).lossInputs = s.lossInputs ∧
    (s.setCtl x).hops = s.hops ∧
    (s.setCtl x).paths = s.paths ∧
    (s.setCtl x).lines = s.lines ∧
    (s.setCtl x).scanner = s.scanner ∧
    (s.setCtl x).probes = s.probes ∧
    (s.setCtl x).windows = s.windows ∧
    (s.setCtl x).sched = s.sched ∧
    (s.setCtl x).loop = s.loop ∧
    (s.setCtl x).roster = s.roster ∧
    (s.setCtl x).ctl = x := by
  simp only [State.setCtl, and_self]

@[simp] theorem State.setCtl_twice (s : State) (x y : ControlPort) : (s.setCtl x).setCtl y = s.setCtl y := rfl

@[simp] theorem State.setCtl_same (s : State) : s.setCtl s.ctl = s := rfl

end Sys2Proof.Machine
end

