-- ==== Sys2Proof/Laws/Frames.lean ====
section
/-! SUPPORT. Which fields of State each operation leaves as they are: one law per operation. -/

namespace Sys2Proof.Machine

/-! ### Folds keep what each of their steps keeps -/

section

variable {α : Type} (f : State → α → State) (l : List α) (s : State)

theorem foldl_keeps {β : Type} (g : State → β) (h : ∀ t x, g (f t x) = g t) : g (l.foldl f s) = g s := by
  induction l generalizing s with
  | nil => rfl
  | cons a l ih => simp only [List.foldl_cons, ih, h]

@[simp] theorem foldl_pending (h : ∀ t x, (f t x).pending = t.pending) : (l.foldl f s).pending = s.pending :=
  foldl_keeps f l s State.pending h

@[simp] theorem foldl_now (h : ∀ t x, (f t x).now = t.now) : (l.foldl f s).now = s.now :=
  foldl_keeps f l s State.now h

@[simp] theorem foldl_choices (h : ∀ t x, (f t x).choices = t.choices) : (l.foldl f s).choices = s.choices :=
  foldl_keeps f l s State.choices h

@[simp] theorem foldl_runState (h : ∀ t x, (f t x).runState = t.runState) : (l.foldl f s).runState = s.runState :=
  foldl_keeps f l s State.runState h

@[simp] theorem foldl_image (h : ∀ t x, (f t x).image = t.image) : (l.foldl f s).image = s.image :=
  foldl_keeps f l s State.image h

@[simp] theorem foldl_finding (h : ∀ t x, (f t x).finding = t.finding) : (l.foldl f s).finding = s.finding :=
  foldl_keeps f l s State.finding h

@[simp] theorem foldl_lossInputs (h : ∀ t x, (f t x).lossInputs = t.lossInputs) : (l.foldl f s).lossInputs = s.lossInputs :=
  foldl_keeps f l s State.lossInputs h

@[simp] theorem foldl_hops (h : ∀ t x, (f t x).hops = t.hops) : (l.foldl f s).hops = s.hops :=
  foldl_keeps f l s State.hops h

@[simp] theorem foldl_paths (h : ∀ t x, (f t x).paths = t.paths) : (l.foldl f s).paths = s.paths :=
  foldl_keeps f l s State.paths h

@[simp] theorem foldl_lines (h : ∀ t x, (f t x).lines = t.lines) : (l.foldl f s).lines = s.lines :=
  foldl_keeps f l s State.lines h

@[simp] theorem foldl_scanner (h : ∀ t x, (f t x).scanner = t.scanner) : (l.foldl f s).scanner = s.scanner :=
  foldl_keeps f l s State.scanner h

@[simp] theorem foldl_probes (h : ∀ t x, (f t x).probes = t.probes) : (l.foldl f s).probes = s.probes :=
  foldl_keeps f l s State.probes h

@[simp] theorem foldl_windows (h : ∀ t x, (f t x).windows = t.windows) : (l.foldl f s).windows = s.windows :=
  foldl_keeps f l s State.windows h

@[simp] theorem foldl_sched (h : ∀ t x, (f t x).sched = t.sched) : (l.foldl f s).sched = s.sched :=
  foldl_keeps f l s State.sched h

@[simp] theorem foldl_loop (h : ∀ t x, (f t x).loop = t.loop) : (l.foldl f s).loop = s.loop :=
  foldl_keeps f l s State.loop h

@[simp] theorem foldl_roster (h : ∀ t x, (f t x).roster = t.roster) : (l.foldl f s).roster = s.roster :=
  foldl_keeps f l s State.roster h

@[simp] theorem foldl_ctl (h : ∀ t x, (f t x).ctl = t.ctl) : (l.foldl f s).ctl = s.ctl :=
  foldl_keeps f l s State.ctl h

end

/-! ### Machine/Ops.lean -/

@[simp] theorem modifyHop_frame (c : Nat) (f : HopEntry → HopEntry) (s : State) :
    (modifyHop c f s).pending = s.pending ∧ (modifyHop c f s).now = s.now ∧
    (modifyHop c f s).choices = s.choices ∧ (modifyHop c f s).runState = s.runState ∧
    (modifyHop c f s).image = s.image ∧ (modifyHop c f s).finding = s.finding ∧
    (modifyHop c f s).lossInputs = s.lossInputs ∧ (modifyHop c f s).paths = s.paths ∧
    (modifyHop c f s).lines = s.lines ∧ (modifyHop c f s).scanner = s.scanner ∧
    (modifyHop c f s).probes = s.probes ∧ (modifyHop c f s).windows = s.windows ∧
    (modifyHop c f s).sched = s.sched ∧ (modifyHop c f s).loop = s.loop ∧
    (modifyHop c f s).roster = s.roster ∧ (modifyHop c f s).ctl = s.ctl := by
  unfold modifyHop
  all_goals simp

@[simp] theorem modifyPath_frame (c : Nat) (f : PathRecord → PathRecord) (s : State) :
    (modifyPath c f s).pending = s.pending ∧ (modifyPath c f s).now = s.now ∧
    (modifyPath c f s).choices = s.choices ∧ (modifyPath c f s).runState = s.runState ∧
    (modifyPath c f s).image = s.image ∧ (modifyPath c f s).finding = s.finding ∧
    (modifyPath c f s).lossInputs = s.lossInputs ∧ (modifyPath c f s).hops = s.hops ∧
    (modifyPath c f s).lines = s.lines ∧ (modifyPath c f s).scanner = s.scanner ∧
    (modifyPath c f s).probes = s.probes ∧ (modifyPath c f s).windows = s.windows ∧
    (modifyPath c f s).sched = s.sched ∧ (modifyPath c f s).loop = s.loop ∧
    (modifyPath c f s).roster = s.roster ∧ (modifyPath c f s).ctl = s.ctl := by
  unfold modifyPath
  all_goals simp

@[simp] theorem setSlots_frame (x : List (Option Probe)) (s : State) :
    (setSlots x s).pending = s.pending ∧ (setSlots x s).now = s.now ∧
    (setSlots x s).choices = s.choices ∧ (setSlots x s).runState = s.runState ∧
    (setSlots x s).image = s.image ∧ (setSlots x s).finding = s.finding ∧
    (setSlots x s).lossInputs = s.lossInputs ∧ (setSlots x s).hops = s.hops ∧
    (setSlots x s).paths = s.paths ∧ (setSlots x s).lines = s.lines ∧
    (setSlots x s).scanner = s.scanner ∧ (setSlots x s).windows = s.windows ∧
    (setSlots x s).sched = s.sched ∧ (setSlots x s).loop = s.loop ∧ (setSlots x s).roster = s.roster ∧
    (setSlots x s).ctl = s.ctl := by
  unfold setSlots
  all_goals simp

@[simp] theorem modifySlot_frame (i : Nat) (f : Probe → Probe) (s : State) :
    (modifySlot i f s).pending = s.pending ∧ (modifySlot i f s).now = s.now ∧
    (modifySlot i f s).choices = s.choices ∧ (modifySlot i f s).runState = s.runState ∧
    (modifySlot i f s).image = s.image ∧ (modifySlot i f s).finding = s.finding ∧
    (modifySlot i f s).lossInputs = s.lossInputs ∧ (modifySlot i f s).hops = s.hops ∧
    (modifySlot i f s).paths = s.paths ∧ (modifySlot i f s).lines = s.lines ∧
    (modifySlot i f s).scanner = s.scanner ∧ (modifySlot i f s).windows = s.windows ∧
    (modifySlot i f s).sched = s.sched ∧ (modifySlot i f s).loop = s.loop ∧
    (modifySlot i f s).roster = s.roster ∧ (modifySlot i f s).ctl = s.ctl := by
  unfold modifySlot
  all_goals simp

@[simp] theorem putSlot_frame (i : Nat) (p : Option Probe) (s : State) :
    (putSlot i p s).pending = s.pending ∧ (putSlot i p s).now = s.now ∧
    (putSlot i p s).choices = s.choices ∧ (putSlot i p s).runState = s.runState ∧
    (putSlot i p s).image = s.image ∧ (putSlot i p s).finding = s.finding ∧
    (putSlot i p s).lossInputs = s.lossInputs ∧ (putSlot i p s).hops = s.hops ∧
    (putSlot i p s).paths = s.paths ∧ (putSlot i p s).lines = s.lines ∧
    (putSlot i p s).scanner = s.scanner ∧ (putSlot i p s).windows = s.windows ∧
    (putSlot i p s).sched = s.sched ∧ (putSlot i p s).loop = s.loop ∧
    (putSlot i p s).roster = s.roster ∧ (putSlot i p s).ctl = s.ctl := by
  unfold putSlot
  all_goals simp

@[simp] theorem modifyDriving_frame (f : Probe → Probe) (s : State) :
    (modifyDriving f s).pending = s.pending ∧ (modifyDriving f s).now = s.now ∧
    (modifyDriving f s).choices = s.choices ∧ (modifyDriving f s).runState = s.runState ∧
    (modifyDriving f s).image = s.image ∧ (modifyDriving f s).finding = s.finding ∧
    (modifyDriving f s).lossInputs = s.lossInputs ∧ (modifyDriving f s).hops = s.hops ∧
    (modifyDriving f s).paths = s.paths ∧ (modifyDriving f s).lines = s.lines ∧
    (modifyDriving f s).scanner = s.scanner ∧ (modifyDriving f s).windows = s.windows ∧
    (modifyDriving f s).sched = s.sched ∧ (modifyDriving f s).loop = s.loop ∧
    (modifyDriving f s).roster = s.roster ∧ (modifyDriving f s).ctl = s.ctl := by
  unfold modifyDriving
  all_goals simp

@[simp] theorem drive_frame (line : Nat) (circuit : Nat) (epoch : Nat) (s : State) :
    (drive line circuit epoch s).pending = s.pending ∧ (drive line circuit epoch s).now = s.now ∧
    (drive line circuit epoch s).choices = s.choices ∧
    (drive line circuit epoch s).runState = s.runState ∧ (drive line circuit epoch s).image = s.image ∧
    (drive line circuit epoch s).finding = s.finding ∧
    (drive line circuit epoch s).lossInputs = s.lossInputs ∧
    (drive line circuit epoch s).hops = s.hops ∧ (drive line circuit epoch s).paths = s.paths ∧
    (drive line circuit epoch s).scanner = s.scanner ∧ (drive line circuit epoch s).probes = s.probes ∧
    (drive line circuit epoch s).windows = s.windows ∧ (drive line circuit epoch s).sched = s.sched ∧
    (drive line circuit epoch s).loop = s.loop ∧ (drive line circuit epoch s).roster = s.roster ∧
    (drive line circuit epoch s).ctl = s.ctl := by
  unfold drive
  all_goals simp

@[simp] theorem idleMarking_frame (c : Nat) (s : State) :
    (idleMarking c s).pending = s.pending ∧ (idleMarking c s).now = s.now ∧
    (idleMarking c s).choices = s.choices ∧ (idleMarking c s).runState = s.runState ∧
    (idleMarking c s).image = s.image ∧ (idleMarking c s).finding = s.finding ∧
    (idleMarking c s).lossInputs = s.lossInputs ∧ (idleMarking c s).hops = s.hops ∧
    (idleMarking c s).paths = s.paths ∧ (idleMarking c s).scanner = s.scanner ∧
    (idleMarking c s).probes = s.probes ∧ (idleMarking c s).windows = s.windows ∧
    (idleMarking c s).sched = s.sched ∧ (idleMarking c s).loop = s.loop ∧
    (idleMarking c s).roster = s.roster ∧ (idleMarking c s).ctl = s.ctl := by
  unfold idleMarking
  repeat' split
  all_goals simp

@[simp] theorem modifyRoster_frame (n : Nat) (f : RosterEntry → RosterEntry) (s : State) :
    (modifyRoster n f s).pending = s.pending ∧ (modifyRoster n f s).now = s.now ∧
    (modifyRoster n f s).choices = s.choices ∧ (modifyRoster n f s).runState = s.runState ∧
    (modifyRoster n f s).image = s.image ∧ (modifyRoster n f s).finding = s.finding ∧
    (modifyRoster n f s).lossInputs = s.lossInputs ∧ (modifyRoster n f s).hops = s.hops ∧
    (modifyRoster n f s).paths = s.paths ∧ (modifyRoster n f s).lines = s.lines ∧
    (modifyRoster n f s).scanner = s.scanner ∧ (modifyRoster n f s).probes = s.probes ∧
    (modifyRoster n f s).windows = s.windows ∧ (modifyRoster n f s).sched = s.sched ∧
    (modifyRoster n f s).loop = s.loop ∧ (modifyRoster n f s).ctl = s.ctl := by
  unfold modifyRoster
  repeat' split
  all_goals simp

@[simp] theorem changeLoop_frame (f : LoopPort → LoopPort) (s : State) :
    (changeLoop f s).pending = s.pending ∧ (changeLoop f s).now = s.now ∧
    (changeLoop f s).choices = s.choices ∧ (changeLoop f s).runState = s.runState ∧
    (changeLoop f s).image = s.image ∧ (changeLoop f s).finding = s.finding ∧
    (changeLoop f s).lossInputs = s.lossInputs ∧ (changeLoop f s).hops = s.hops ∧
    (changeLoop f s).paths = s.paths ∧ (changeLoop f s).lines = s.lines ∧
    (changeLoop f s).scanner = s.scanner ∧ (changeLoop f s).probes = s.probes ∧
    (changeLoop f s).windows = s.windows ∧ (changeLoop f s).sched = s.sched ∧
    (changeLoop f s).roster = s.roster ∧ (changeLoop f s).ctl = s.ctl := by
  unfold changeLoop
  all_goals simp

@[simp] theorem modifyWindow_frame (ser : Serial) (f : Window → Window) (s : State) :
    (modifyWindow ser f s).pending = s.pending ∧ (modifyWindow ser f s).now = s.now ∧
    (modifyWindow ser f s).choices = s.choices ∧ (modifyWindow ser f s).runState = s.runState ∧
    (modifyWindow ser f s).image = s.image ∧ (modifyWindow ser f s).finding = s.finding ∧
    (modifyWindow ser f s).lossInputs = s.lossInputs ∧ (modifyWindow ser f s).hops = s.hops ∧
    (modifyWindow ser f s).paths = s.paths ∧ (modifyWindow ser f s).lines = s.lines ∧
    (modifyWindow ser f s).scanner = s.scanner ∧ (modifyWindow ser f s).probes = s.probes ∧
    (modifyWindow ser f s).sched = s.sched ∧ (modifyWindow ser f s).loop = s.loop ∧
    (modifyWindow ser f s).roster = s.roster ∧ (modifyWindow ser f s).ctl = s.ctl := by
  unfold modifyWindow
  all_goals simp

@[simp] theorem dropWindow_frame (ser : Serial) (s : State) :
    (dropWindow ser s).pending = s.pending ∧ (dropWindow ser s).now = s.now ∧
    (dropWindow ser s).choices = s.choices ∧ (dropWindow ser s).runState = s.runState ∧
    (dropWindow ser s).image = s.image ∧ (dropWindow ser s).finding = s.finding ∧
    (dropWindow ser s).lossInputs = s.lossInputs ∧ (dropWindow ser s).hops = s.hops ∧
    (dropWindow ser s).paths = s.paths ∧ (dropWindow ser s).lines = s.lines ∧
    (dropWindow ser s).scanner = s.scanner ∧ (dropWindow ser s).probes = s.probes ∧
    (dropWindow ser s).sched = s.sched ∧ (dropWindow ser s).loop = s.loop ∧
    (dropWindow ser s).roster = s.roster ∧ (dropWindow ser s).ctl = s.ctl := by
  unfold dropWindow
  all_goals simp

@[simp] theorem advanceTo_frame (t : Nat) (s : State) :
    (advanceTo t s).pending = s.pending ∧ (advanceTo t s).choices = s.choices ∧
    (advanceTo t s).runState = s.runState ∧ (advanceTo t s).image = s.image ∧
    (advanceTo t s).finding = s.finding ∧ (advanceTo t s).lossInputs = s.lossInputs ∧
    (advanceTo t s).hops = s.hops ∧ (advanceTo t s).paths = s.paths ∧ (advanceTo t s).lines = s.lines ∧
    (advanceTo t s).scanner = s.scanner ∧ (advanceTo t s).probes = s.probes ∧
    (advanceTo t s).windows = s.windows ∧ (advanceTo t s).sched = s.sched ∧
    (advanceTo t s).loop = s.loop ∧ (advanceTo t s).roster = s.roster ∧ (advanceTo t s).ctl = s.ctl := by
  unfold advanceTo
  all_goals simp

@[simp] theorem dropWatch_frame (c : Nat) (s : State) :
    (dropWatch c s).pending = s.pending ∧ (dropWatch c s).now = s.now ∧
    (dropWatch c s).choices = s.choices ∧ (dropWatch c s).runState = s.runState ∧
    (dropWatch c s).image = s.image ∧ (dropWatch c s).finding = s.finding ∧
    (dropWatch c s).lossInputs = s.lossInputs ∧ (dropWatch c s).hops = s.hops ∧
    (dropWatch c s).paths = s.paths ∧ (dropWatch c s).lines = s.lines ∧
    (dropWatch c s).probes = s.probes ∧ (dropWatch c s).windows = s.windows ∧
    (dropWatch c s).sched = s.sched ∧ (dropWatch c s).loop = s.loop ∧
    (dropWatch c s).roster = s.roster ∧ (dropWatch c s).ctl = s.ctl := by
  unfold dropWatch
  all_goals simp

/-! ### Machine/Flags.lean -/

@[simp] theorem raiseAlert_frame (a : Alert) (s : State) :
    (raiseAlert a s).pending = s.pending ∧ (raiseAlert a s).now = s.now ∧
    (raiseAlert a s).choices = s.choices ∧ (raiseAlert a s).runState = s.runState ∧
    (raiseAlert a s).image = s.image ∧ (raiseAlert a s).finding = s.finding ∧
    (raiseAlert a s).lossInputs = s.lossInputs ∧ (raiseAlert a s).hops = s.hops ∧
    (raiseAlert a s).paths = s.paths ∧ (raiseAlert a s).lines = s.lines ∧
    (raiseAlert a s).scanner = s.scanner ∧ (raiseAlert a s).probes = s.probes ∧
    (raiseAlert a s).windows = s.windows ∧ (raiseAlert a s).sched = s.sched ∧
    (raiseAlert a s).loop = s.loop ∧ (raiseAlert a s).roster = s.roster := by
  unfold raiseAlert
  all_goals simp

@[simp] theorem setFault_frame (f : FaultFlag) (s : State) :
    (setFault f s).pending = s.pending ∧ (setFault f s).now = s.now ∧
    (setFault f s).choices = s.choices ∧ (setFault f s).runState = s.runState ∧
    (setFault f s).image = s.image ∧ (setFault f s).finding = s.finding ∧
    (setFault f s).lossInputs = s.lossInputs ∧ (setFault f s).hops = s.hops ∧
    (setFault f s).paths = s.paths ∧ (setFault f s).lines = s.lines ∧
    (setFault f s).scanner = s.scanner ∧ (setFault f s).probes = s.probes ∧
    (setFault f s).windows = s.windows ∧ (setFault f s).sched = s.sched ∧ (setFault f s).loop = s.loop ∧
    (setFault f s).roster = s.roster := by
  unfold setFault
  all_goals simp

@[simp] theorem keepReport_frame (r : Report) (s : State) :
    (keepReport r s).pending = s.pending ∧ (keepReport r s).now = s.now ∧
    (keepReport r s).choices = s.choices ∧ (keepReport r s).runState = s.runState ∧
    (keepReport r s).image = s.image ∧ (keepReport r s).finding = s.finding ∧
    (keepReport r s).lossInputs = s.lossInputs ∧ (keepReport r s).hops = s.hops ∧
    (keepReport r s).paths = s.paths ∧ (keepReport r s).lines = s.lines ∧
    (keepReport r s).scanner = s.scanner ∧ (keepReport r s).probes = s.probes ∧
    (keepReport r s).windows = s.windows ∧ (keepReport r s).sched = s.sched ∧
    (keepReport r s).loop = s.loop ∧ (keepReport r s).roster = s.roster := by
  unfold keepReport
  dsimp only
  repeat' split
  all_goals simp

@[simp] theorem discardReport_frame (s : State) :
    (discardReport s).pending = s.pending ∧ (discardReport s).now = s.now ∧
    (discardReport s).choices = s.choices ∧ (discardReport s).runState = s.runState ∧
    (discardReport s).image = s.image ∧ (discardReport s).finding = s.finding ∧
    (discardReport s).lossInputs = s.lossInputs ∧ (discardReport s).hops = s.hops ∧
    (discardReport s).paths = s.paths ∧ (discardReport s).lines = s.lines ∧
    (discardReport s).scanner = s.scanner ∧ (discardReport s).probes = s.probes ∧
    (discardReport s).windows = s.windows ∧ (discardReport s).sched = s.sched ∧
    (discardReport s).loop = s.loop ∧ (discardReport s).roster = s.roster := by
  unfold discardReport
  all_goals simp

@[simp] theorem postReport_frame (r : Report) (s : State) :
    (postReport r s).pending = s.pending ∧ (postReport r s).now = s.now ∧
    (postReport r s).choices = s.choices ∧ (postReport r s).runState = s.runState ∧
    (postReport r s).image = s.image ∧ (postReport r s).finding = s.finding ∧
    (postReport r s).lossInputs = s.lossInputs ∧ (postReport r s).hops = s.hops ∧
    (postReport r s).paths = s.paths ∧ (postReport r s).lines = s.lines ∧
    (postReport r s).scanner = s.scanner ∧ (postReport r s).probes = s.probes ∧
    (postReport r s).windows = s.windows ∧ (postReport r s).sched = s.sched ∧
    (postReport r s).loop = s.loop ∧ (postReport r s).roster = s.roster := by
  unfold postReport
  repeat' split
  all_goals simp

/-! ### Machine/Paths.lean -/

@[simp] theorem joinList_frame (m : Mode) (c : Nat) (s : State) :
    (joinList m c s).pending = s.pending ∧ (joinList m c s).now = s.now ∧
    (joinList m c s).choices = s.choices ∧ (joinList m c s).runState = s.runState ∧
    (joinList m c s).image = s.image ∧ (joinList m c s).finding = s.finding ∧
    (joinList m c s).lossInputs = s.lossInputs ∧ (joinList m c s).hops = s.hops ∧
    (joinList m c s).paths = s.paths ∧ (joinList m c s).lines = s.lines ∧
    (joinList m c s).scanner = s.scanner ∧ (joinList m c s).probes = s.probes ∧
    (joinList m c s).windows = s.windows ∧ (joinList m c s).loop = s.loop ∧
    (joinList m c s).roster = s.roster ∧ (joinList m c s).ctl = s.ctl := by
  unfold joinList
  repeat' split
  all_goals simp

@[simp] theorem leaveList_frame (m : Mode) (c : Nat) (s : State) :
    (leaveList m c s).pending = s.pending ∧ (leaveList m c s).now = s.now ∧
    (leaveList m c s).choices = s.choices ∧ (leaveList m c s).runState = s.runState ∧
    (leaveList m c s).image = s.image ∧ (leaveList m c s).finding = s.finding ∧
    (leaveList m c s).lossInputs = s.lossInputs ∧ (leaveList m c s).hops = s.hops ∧
    (leaveList m c s).paths = s.paths ∧ (leaveList m c s).lines = s.lines ∧
    (leaveList m c s).scanner = s.scanner ∧ (leaveList m c s).probes = s.probes ∧
    (leaveList m c s).windows = s.windows ∧ (leaveList m c s).loop = s.loop ∧
    (leaveList m c s).roster = s.roster ∧ (leaveList m c s).ctl = s.ctl := by
  unfold leaveList
  repeat' split
  all_goals simp

@[simp] theorem setRecordState_frame (c : Nat) (x : RecordState) (s : State) :
    (setRecordState c x s).pending = s.pending ∧ (setRecordState c x s).now = s.now ∧
    (setRecordState c x s).choices = s.choices ∧ (setRecordState c x s).runState = s.runState ∧
    (setRecordState c x s).image = s.image ∧ (setRecordState c x s).finding = s.finding ∧
    (setRecordState c x s).lossInputs = s.lossInputs ∧ (setRecordState c x s).hops = s.hops ∧
    (setRecordState c x s).lines = s.lines ∧ (setRecordState c x s).scanner = s.scanner ∧
    (setRecordState c x s).probes = s.probes ∧ (setRecordState c x s).windows = s.windows ∧
    (setRecordState c x s).sched = s.sched ∧ (setRecordState c x s).loop = s.loop ∧
    (setRecordState c x s).roster = s.roster ∧ (setRecordState c x s).ctl = s.ctl := by
  unfold setRecordState
  all_goals simp

@[simp] theorem enqueue_frame (c : Nat) (m : Mode) (o : Origin) (s : State) :
    (enqueue c m o s).pending = s.pending ∧ (enqueue c m o s).now = s.now ∧
    (enqueue c m o s).choices = s.choices ∧ (enqueue c m o s).runState = s.runState ∧
    (enqueue c m o s).image = s.image ∧ (enqueue c m o s).finding = s.finding ∧
    (enqueue c m o s).lossInputs = s.lossInputs ∧ (enqueue c m o s).hops = s.hops ∧
    (enqueue c m o s).lines = s.lines ∧ (enqueue c m o s).scanner = s.scanner ∧
    (enqueue c m o s).probes = s.probes ∧ (enqueue c m o s).windows = s.windows ∧
    (enqueue c m o s).loop = s.loop ∧ (enqueue c m o s).roster = s.roster ∧
    (enqueue c m o s).ctl = s.ctl := by
  unfold enqueue
  all_goals simp

@[simp] theorem requestAudit_frame (c : Nat) (m : Mode) (o : Origin) (s : State) :
    (requestAudit c m o s).pending = s.pending ∧ (requestAudit c m o s).now = s.now ∧
    (requestAudit c m o s).choices = s.choices ∧ (requestAudit c m o s).runState = s.runState ∧
    (requestAudit c m o s).image = s.image ∧ (requestAudit c m o s).finding = s.finding ∧
    (requestAudit c m o s).lossInputs = s.lossInputs ∧ (requestAudit c m o s).hops = s.hops ∧
    (requestAudit c m o s).lines = s.lines ∧ (requestAudit c m o s).scanner = s.scanner ∧
    (requestAudit c m o s).probes = s.probes ∧ (requestAudit c m o s).windows = s.windows ∧
    (requestAudit c m o s).loop = s.loop ∧ (requestAudit c m o s).roster = s.roster ∧
    (requestAudit c m o s).ctl = s.ctl := by
  unfold requestAudit
  repeat' split
  all_goals simp

@[simp] theorem requestAudits_frame (cs : List Nat) (m : Mode) (o : Origin) (s : State) :
    (requestAudits cs m o s).pending = s.pending ∧ (requestAudits cs m o s).now = s.now ∧
    (requestAudits cs m o s).choices = s.choices ∧ (requestAudits cs m o s).runState = s.runState ∧
    (requestAudits cs m o s).image = s.image ∧ (requestAudits cs m o s).finding = s.finding ∧
    (requestAudits cs m o s).lossInputs = s.lossInputs ∧ (requestAudits cs m o s).hops = s.hops ∧
    (requestAudits cs m o s).lines = s.lines ∧ (requestAudits cs m o s).scanner = s.scanner ∧
    (requestAudits cs m o s).probes = s.probes ∧ (requestAudits cs m o s).windows = s.windows ∧
    (requestAudits cs m o s).loop = s.loop ∧ (requestAudits cs m o s).roster = s.roster ∧
    (requestAudits cs m o s).ctl = s.ctl := by
  unfold requestAudits
  all_goals simp

@[simp] theorem modifyRun_frame (id : Nat) (f : Run → Run) (s : State) :
    (modifyRun id f s).pending = s.pending ∧ (modifyRun id f s).now = s.now ∧
    (modifyRun id f s).choices = s.choices ∧ (modifyRun id f s).runState = s.runState ∧
    (modifyRun id f s).image = s.image ∧ (modifyRun id f s).finding = s.finding ∧
    (modifyRun id f s).lossInputs = s.lossInputs ∧ (modifyRun id f s).hops = s.hops ∧
    (modifyRun id f s).paths = s.paths ∧ (modifyRun id f s).lines = s.lines ∧
    (modifyRun id f s).scanner = s.scanner ∧ (modifyRun id f s).probes = s.probes ∧
    (modifyRun id f s).windows = s.windows ∧ (modifyRun id f s).loop = s.loop ∧
    (modifyRun id f s).roster = s.roster ∧ (modifyRun id f s).ctl = s.ctl := by
  unfold modifyRun
  all_goals simp

@[simp] theorem popRun_frame (s : State) :
    (popRun s).pending = s.pending ∧ (popRun s).now = s.now ∧ (popRun s).choices = s.choices ∧
    (popRun s).runState = s.runState ∧ (popRun s).image = s.image ∧ (popRun s).finding = s.finding ∧
    (popRun s).lossInputs = s.lossInputs ∧ (popRun s).hops = s.hops ∧ (popRun s).paths = s.paths ∧
    (popRun s).lines = s.lines ∧ (popRun s).scanner = s.scanner ∧ (popRun s).probes = s.probes ∧
    (popRun s).windows = s.windows ∧ (popRun s).loop = s.loop ∧ (popRun s).roster = s.roster ∧
    (popRun s).ctl = s.ctl := by
  unfold popRun
  repeat' split
  all_goals simp

@[simp] theorem dropSuspended_frame (id : Nat) (s : State) :
    (dropSuspended id s).pending = s.pending ∧ (dropSuspended id s).now = s.now ∧
    (dropSuspended id s).choices = s.choices ∧ (dropSuspended id s).runState = s.runState ∧
    (dropSuspended id s).image = s.image ∧ (dropSuspended id s).finding = s.finding ∧
    (dropSuspended id s).lossInputs = s.lossInputs ∧ (dropSuspended id s).hops = s.hops ∧
    (dropSuspended id s).paths = s.paths ∧ (dropSuspended id s).lines = s.lines ∧
    (dropSuspended id s).scanner = s.scanner ∧ (dropSuspended id s).probes = s.probes ∧
    (dropSuspended id s).windows = s.windows ∧ (dropSuspended id s).loop = s.loop ∧
    (dropSuspended id s).roster = s.roster ∧ (dropSuspended id s).ctl = s.ctl := by
  unfold dropSuspended
  all_goals simp

@[simp] theorem completeRun_frame (id : Nat) (s : State) :
    (completeRun id s).pending = s.pending ∧ (completeRun id s).now = s.now ∧
    (completeRun id s).choices = s.choices ∧ (completeRun id s).runState = s.runState ∧
    (completeRun id s).image = s.image ∧ (completeRun id s).finding = s.finding ∧
    (completeRun id s).lossInputs = s.lossInputs ∧ (completeRun id s).hops = s.hops ∧
    (completeRun id s).paths = s.paths ∧ (completeRun id s).lines = s.lines ∧
    (completeRun id s).scanner = s.scanner ∧ (completeRun id s).probes = s.probes ∧
    (completeRun id s).windows = s.windows ∧ (completeRun id s).loop = s.loop ∧
    (completeRun id s).roster = s.roster := by
  unfold completeRun
  repeat' split
  all_goals simp

@[simp] theorem touchRun_frame (id : Nat) (c : Nat) (x : RunStanding) (s : State) :
    (touchRun id c x s).pending = s.pending ∧ (touchRun id c x s).now = s.now ∧
    (touchRun id c x s).choices = s.choices ∧ (touchRun id c x s).runState = s.runState ∧
    (touchRun id c x s).image = s.image ∧ (touchRun id c x s).finding = s.finding ∧
    (touchRun id c x s).lossInputs = s.lossInputs ∧ (touchRun id c x s).hops = s.hops ∧
    (touchRun id c x s).paths = s.paths ∧ (touchRun id c x s).lines = s.lines ∧
    (touchRun id c x s).scanner = s.scanner ∧ (touchRun id c x s).probes = s.probes ∧
    (touchRun id c x s).windows = s.windows ∧ (touchRun id c x s).loop = s.loop ∧
    (touchRun id c x s).roster = s.roster := by
  unfold touchRun
  all_goals simp

@[simp] theorem deferEntry_frame (c : Nat) (s : State) :
    (deferEntry c s).pending = s.pending ∧ (deferEntry c s).now = s.now ∧
    (deferEntry c s).choices = s.choices ∧ (deferEntry c s).runState = s.runState ∧
    (deferEntry c s).image = s.image ∧ (deferEntry c s).finding = s.finding ∧
    (deferEntry c s).lossInputs = s.lossInputs ∧ (deferEntry c s).hops = s.hops ∧
    (deferEntry c s).paths = s.paths ∧ (deferEntry c s).lines = s.lines ∧
    (deferEntry c s).scanner = s.scanner ∧ (deferEntry c s).probes = s.probes ∧
    (deferEntry c s).windows = s.windows ∧ (deferEntry c s).loop = s.loop ∧
    (deferEntry c s).roster = s.roster := by
  unfold deferEntry
  repeat' split
  all_goals simp

@[simp] theorem setOverlap_frame (c : Nat) (s : State) :
    (setOverlap c s).pending = s.pending ∧ (setOverlap c s).now = s.now ∧
    (setOverlap c s).choices = s.choices ∧ (setOverlap c s).runState = s.runState ∧
    (setOverlap c s).image = s.image ∧ (setOverlap c s).finding = s.finding ∧
    (setOverlap c s).lossInputs = s.lossInputs ∧ (setOverlap c s).hops = s.hops ∧
    (setOverlap c s).paths = s.paths ∧ (setOverlap c s).lines = s.lines ∧
    (setOverlap c s).scanner = s.scanner ∧ (setOverlap c s).windows = s.windows ∧
    (setOverlap c s).sched = s.sched ∧ (setOverlap c s).loop = s.loop ∧
    (setOverlap c s).roster = s.roster ∧ (setOverlap c s).ctl = s.ctl := by
  unfold setOverlap
  all_goals simp

@[simp] theorem moveForHold_frame (c : Nat) (st : RecordState) (s : State) :
    (moveForHold c st s).pending = s.pending ∧ (moveForHold c st s).now = s.now ∧
    (moveForHold c st s).choices = s.choices ∧ (moveForHold c st s).runState = s.runState ∧
    (moveForHold c st s).image = s.image ∧ (moveForHold c st s).finding = s.finding ∧
    (moveForHold c st s).lossInputs = s.lossInputs ∧ (moveForHold c st s).hops = s.hops ∧
    (moveForHold c st s).lines = s.lines ∧ (moveForHold c st s).scanner = s.scanner ∧
    (moveForHold c st s).windows = s.windows ∧ (moveForHold c st s).loop = s.loop ∧
    (moveForHold c st s).roster = s.roster := by
  unfold moveForHold
  repeat' split
  all_goals simp

@[simp] theorem addHold_frame (ser : Serial) (c : Nat) (s : State) :
    (addHold ser c s).pending = s.pending ∧ (addHold ser c s).now = s.now ∧
    (addHold ser c s).choices = s.choices ∧ (addHold ser c s).runState = s.runState ∧
    (addHold ser c s).image = s.image ∧ (addHold ser c s).finding = s.finding ∧
    (addHold ser c s).lossInputs = s.lossInputs ∧ (addHold ser c s).hops = s.hops ∧
    (addHold ser c s).lines = s.lines ∧ (addHold ser c s).scanner = s.scanner ∧
    (addHold ser c s).windows = s.windows ∧ (addHold ser c s).loop = s.loop ∧
    (addHold ser c s).roster = s.roster := by
  unfold addHold
  repeat' split
  all_goals simp

@[simp] theorem removeHold_frame (ser : Serial) (c : Nat) (s : State) :
    (removeHold ser c s).pending = s.pending ∧ (removeHold ser c s).now = s.now ∧
    (removeHold ser c s).choices = s.choices ∧ (removeHold ser c s).runState = s.runState ∧
    (removeHold ser c s).image = s.image ∧ (removeHold ser c s).finding = s.finding ∧
    (removeHold ser c s).lossInputs = s.lossInputs ∧ (removeHold ser c s).hops = s.hops ∧
    (removeHold ser c s).lines = s.lines ∧ (removeHold ser c s).scanner = s.scanner ∧
    (removeHold ser c s).probes = s.probes ∧ (removeHold ser c s).windows = s.windows ∧
    (removeHold ser c s).loop = s.loop ∧ (removeHold ser c s).roster = s.roster ∧
    (removeHold ser c s).ctl = s.ctl := by
  unfold removeHold
  repeat' split
  all_goals simp

@[simp] theorem releaseHolds_frame (ser : Serial) (s : State) :
    (releaseHolds ser s).pending = s.pending ∧ (releaseHolds ser s).now = s.now ∧
    (releaseHolds ser s).choices = s.choices ∧ (releaseHolds ser s).runState = s.runState ∧
    (releaseHolds ser s).image = s.image ∧ (releaseHolds ser s).finding = s.finding ∧
    (releaseHolds ser s).lossInputs = s.lossInputs ∧ (releaseHolds ser s).hops = s.hops ∧
    (releaseHolds ser s).lines = s.lines ∧ (releaseHolds ser s).scanner = s.scanner ∧
    (releaseHolds ser s).probes = s.probes ∧ (releaseHolds ser s).windows = s.windows ∧
    (releaseHolds ser s).loop = s.loop ∧ (releaseHolds ser s).roster = s.roster ∧
    (releaseHolds ser s).ctl = s.ctl := by
  unfold releaseHolds
  all_goals simp

@[simp] theorem dropOwed_frame (ser : Serial) (s : State) :
    (dropOwed ser s).pending = s.pending ∧ (dropOwed ser s).now = s.now ∧
    (dropOwed ser s).choices = s.choices ∧ (dropOwed ser s).runState = s.runState ∧
    (dropOwed ser s).image = s.image ∧ (dropOwed ser s).finding = s.finding ∧
    (dropOwed ser s).lossInputs = s.lossInputs ∧ (dropOwed ser s).hops = s.hops ∧
    (dropOwed ser s).lines = s.lines ∧ (dropOwed ser s).scanner = s.scanner ∧
    (dropOwed ser s).probes = s.probes ∧ (dropOwed ser s).windows = s.windows ∧
    (dropOwed ser s).sched = s.sched ∧ (dropOwed ser s).loop = s.loop ∧
    (dropOwed ser s).roster = s.roster ∧ (dropOwed ser s).ctl = s.ctl := by
  unfold dropOwed
  all_goals simp

/-! ### Machine/Scheduling.lean -/

@[simp] theorem setOrigin_frame (c : Nat) (o : Origin) (s : State) :
    (setOrigin c o s).pending = s.pending ∧ (setOrigin c o s).now = s.now ∧
    (setOrigin c o s).choices = s.choices ∧ (setOrigin c o s).runState = s.runState ∧
    (setOrigin c o s).image = s.image ∧ (setOrigin c o s).finding = s.finding ∧
    (setOrigin c o s).lossInputs = s.lossInputs ∧ (setOrigin c o s).hops = s.hops ∧
    (setOrigin c o s).lines = s.lines ∧ (setOrigin c o s).scanner = s.scanner ∧
    (setOrigin c o s).probes = s.probes ∧ (setOrigin c o s).windows = s.windows ∧
    (setOrigin c o s).sched = s.sched ∧ (setOrigin c o s).loop = s.loop ∧
    (setOrigin c o s).roster = s.roster ∧ (setOrigin c o s).ctl = s.ctl := by
  unfold setOrigin
  all_goals simp

@[simp] theorem handOn_frame (id : Nat) (c : Nat) (s : State) :
    (handOn id c s).pending = s.pending ∧ (handOn id c s).now = s.now ∧
    (handOn id c s).choices = s.choices ∧ (handOn id c s).runState = s.runState ∧
    (handOn id c s).image = s.image ∧ (handOn id c s).finding = s.finding ∧
    (handOn id c s).lossInputs = s.lossInputs ∧ (handOn id c s).hops = s.hops ∧
    (handOn id c s).paths = s.paths ∧ (handOn id c s).lines = s.lines ∧
    (handOn id c s).scanner = s.scanner ∧ (handOn id c s).probes = s.probes ∧
    (handOn id c s).windows = s.windows ∧ (handOn id c s).loop = s.loop ∧
    (handOn id c s).roster = s.roster ∧ (handOn id c s).ctl = s.ctl := by
  unfold handOn
  all_goals simp

@[simp] theorem adoptSlot_frame (id : Nat) (c : Nat) (s : State) :
    (adoptSlot id c s).pending = s.pending ∧ (adoptSlot id c s).now = s.now ∧
    (adoptSlot id c s).choices = s.choices ∧ (adoptSlot id c s).runState = s.runState ∧
    (adoptSlot id c s).image = s.image ∧ (adoptSlot id c s).finding = s.finding ∧
    (adoptSlot id c s).lossInputs = s.lossInputs ∧ (adoptSlot id c s).hops = s.hops ∧
    (adoptSlot id c s).paths = s.paths ∧ (adoptSlot id c s).lines = s.lines ∧
    (adoptSlot id c s).scanner = s.scanner ∧ (adoptSlot id c s).windows = s.windows ∧
    (adoptSlot id c s).sched = s.sched ∧ (adoptSlot id c s).loop = s.loop ∧
    (adoptSlot id c s).roster = s.roster ∧ (adoptSlot id c s).ctl = s.ctl := by
  unfold adoptSlot
  all_goals simp

@[simp] theorem handOnOwner_frame (c : Nat) (s : State) :
    (handOnOwner c s).pending = s.pending ∧ (handOnOwner c s).now = s.now ∧
    (handOnOwner c s).choices = s.choices ∧ (handOnOwner c s).runState = s.runState ∧
    (handOnOwner c s).image = s.image ∧ (handOnOwner c s).finding = s.finding ∧
    (handOnOwner c s).lossInputs = s.lossInputs ∧ (handOnOwner c s).hops = s.hops ∧
    (handOnOwner c s).paths = s.paths ∧ (handOnOwner c s).lines = s.lines ∧
    (handOnOwner c s).scanner = s.scanner ∧ (handOnOwner c s).probes = s.probes ∧
    (handOnOwner c s).windows = s.windows ∧ (handOnOwner c s).loop = s.loop ∧
    (handOnOwner c s).roster = s.roster ∧ (handOnOwner c s).ctl = s.ctl := by
  unfold handOnOwner
  repeat' split
  all_goals simp

@[simp] theorem moveIntoRun_frame (id : Nat) (c : Nat) (st : RecordState) (s : State) :
    (moveIntoRun id c st s).pending = s.pending ∧ (moveIntoRun id c st s).now = s.now ∧
    (moveIntoRun id c st s).choices = s.choices ∧ (moveIntoRun id c st s).runState = s.runState ∧
    (moveIntoRun id c st s).image = s.image ∧ (moveIntoRun id c st s).finding = s.finding ∧
    (moveIntoRun id c st s).lossInputs = s.lossInputs ∧ (moveIntoRun id c st s).hops = s.hops ∧
    (moveIntoRun id c st s).lines = s.lines ∧ (moveIntoRun id c st s).scanner = s.scanner ∧
    (moveIntoRun id c st s).windows = s.windows ∧ (moveIntoRun id c st s).loop = s.loop ∧
    (moveIntoRun id c st s).roster = s.roster ∧ (moveIntoRun id c st s).ctl = s.ctl := by
  unfold moveIntoRun
  repeat' split
  all_goals simp

@[simp] theorem takeSelected_frame (id : Nat) (sp : Span) (s : State) (c : Nat) :
    (takeSelected id sp s c).pending = s.pending ∧ (takeSelected id sp s c).now = s.now ∧
    (takeSelected id sp s c).choices = s.choices ∧ (takeSelected id sp s c).runState = s.runState ∧
    (takeSelected id sp s c).image = s.image ∧ (takeSelected id sp s c).finding = s.finding ∧
    (takeSelected id sp s c).lossInputs = s.lossInputs ∧ (takeSelected id sp s c).hops = s.hops ∧
    (takeSelected id sp s c).lines = s.lines ∧ (takeSelected id sp s c).scanner = s.scanner ∧
    (takeSelected id sp s c).windows = s.windows ∧ (takeSelected id sp s c).loop = s.loop ∧
    (takeSelected id sp s c).roster = s.roster ∧ (takeSelected id sp s c).ctl = s.ctl := by
  unfold takeSelected
  repeat' split
  all_goals simp

@[simp] theorem completeSuspended_frame (s : State) :
    (completeSuspended s).pending = s.pending ∧ (completeSuspended s).now = s.now ∧
    (completeSuspended s).choices = s.choices ∧ (completeSuspended s).runState = s.runState ∧
    (completeSuspended s).image = s.image ∧ (completeSuspended s).finding = s.finding ∧
    (completeSuspended s).lossInputs = s.lossInputs ∧ (completeSuspended s).hops = s.hops ∧
    (completeSuspended s).paths = s.paths ∧ (completeSuspended s).lines = s.lines ∧
    (completeSuspended s).scanner = s.scanner ∧ (completeSuspended s).probes = s.probes ∧
    (completeSuspended s).windows = s.windows ∧ (completeSuspended s).loop = s.loop ∧
    (completeSuspended s).roster = s.roster := by
  unfold completeSuspended
  all_goals simp

@[simp] theorem suspendCurrent_frame (s : State) :
    (suspendCurrent s).pending = s.pending ∧ (suspendCurrent s).now = s.now ∧
    (suspendCurrent s).choices = s.choices ∧ (suspendCurrent s).runState = s.runState ∧
    (suspendCurrent s).image = s.image ∧ (suspendCurrent s).finding = s.finding ∧
    (suspendCurrent s).lossInputs = s.lossInputs ∧ (suspendCurrent s).hops = s.hops ∧
    (suspendCurrent s).paths = s.paths ∧ (suspendCurrent s).lines = s.lines ∧
    (suspendCurrent s).scanner = s.scanner ∧ (suspendCurrent s).probes = s.probes ∧
    (suspendCurrent s).windows = s.windows ∧ (suspendCurrent s).loop = s.loop ∧
    (suspendCurrent s).roster = s.roster ∧ (suspendCurrent s).ctl = s.ctl := by
  unfold suspendCurrent
  repeat' split
  all_goals simp

@[simp] theorem startRun_frame (sp : Span) (cause : Cause) (s : State) :
    (startRun sp cause s).pending = s.pending ∧ (startRun sp cause s).now = s.now ∧
    (startRun sp cause s).choices = s.choices ∧ (startRun sp cause s).runState = s.runState ∧
    (startRun sp cause s).image = s.image ∧ (startRun sp cause s).finding = s.finding ∧
    (startRun sp cause s).lossInputs = s.lossInputs ∧ (startRun sp cause s).hops = s.hops ∧
    (startRun sp cause s).paths = s.paths ∧ (startRun sp cause s).lines = s.lines ∧
    (startRun sp cause s).scanner = s.scanner ∧ (startRun sp cause s).probes = s.probes ∧
    (startRun sp cause s).windows = s.windows ∧ (startRun sp cause s).loop = s.loop ∧
    (startRun sp cause s).roster = s.roster ∧ (startRun sp cause s).ctl = s.ctl := by
  unfold startRun
  all_goals simp

@[simp] theorem newRun_frame (sp : Span) (cause : Cause) (sel : List Nat) (s : State) :
    (newRun sp cause sel s).pending = s.pending ∧ (newRun sp cause sel s).now = s.now ∧
    (newRun sp cause sel s).choices = s.choices ∧ (newRun sp cause sel s).runState = s.runState ∧
    (newRun sp cause sel s).image = s.image ∧ (newRun sp cause sel s).finding = s.finding ∧
    (newRun sp cause sel s).lossInputs = s.lossInputs ∧ (newRun sp cause sel s).hops = s.hops ∧
    (newRun sp cause sel s).lines = s.lines ∧ (newRun sp cause sel s).scanner = s.scanner ∧
    (newRun sp cause sel s).windows = s.windows ∧ (newRun sp cause sel s).loop = s.loop ∧
    (newRun sp cause sel s).roster = s.roster := by
  unfold newRun
  all_goals simp

@[simp] theorem mergeRun_frame (sp : Span) (sel : List Nat) (s : State) :
    (mergeRun sp sel s).pending = s.pending ∧ (mergeRun sp sel s).now = s.now ∧
    (mergeRun sp sel s).choices = s.choices ∧ (mergeRun sp sel s).runState = s.runState ∧
    (mergeRun sp sel s).image = s.image ∧ (mergeRun sp sel s).finding = s.finding ∧
    (mergeRun sp sel s).lossInputs = s.lossInputs ∧ (mergeRun sp sel s).hops = s.hops ∧
    (mergeRun sp sel s).lines = s.lines ∧ (mergeRun sp sel s).scanner = s.scanner ∧
    (mergeRun sp sel s).windows = s.windows ∧ (mergeRun sp sel s).loop = s.loop ∧
    (mergeRun sp sel s).roster = s.roster := by
  unfold mergeRun
  repeat' split
  all_goals simp

@[simp] theorem applyAlarm_frame (sp : Span) (cause : Cause) (s : State) :
    (applyAlarm sp cause s).pending = s.pending ∧ (applyAlarm sp cause s).now = s.now ∧
    (applyAlarm sp cause s).choices = s.choices ∧ (applyAlarm sp cause s).runState = s.runState ∧
    (applyAlarm sp cause s).image = s.image ∧ (applyAlarm sp cause s).finding = s.finding ∧
    (applyAlarm sp cause s).lossInputs = s.lossInputs ∧ (applyAlarm sp cause s).hops = s.hops ∧
    (applyAlarm sp cause s).lines = s.lines ∧ (applyAlarm sp cause s).scanner = s.scanner ∧
    (applyAlarm sp cause s).windows = s.windows ∧ (applyAlarm sp cause s).loop = s.loop ∧
    (applyAlarm sp cause s).roster = s.roster := by
  unfold applyAlarm
  dsimp only
  repeat' split
  all_goals simp

@[simp] theorem requestProbe_frame (p : Payload) (s : State) :
    (requestProbe p s).pending = s.pending ∧ (requestProbe p s).now = s.now ∧
    (requestProbe p s).choices = s.choices ∧ (requestProbe p s).runState = s.runState ∧
    (requestProbe p s).image = s.image ∧ (requestProbe p s).finding = s.finding ∧
    (requestProbe p s).lossInputs = s.lossInputs ∧ (requestProbe p s).hops = s.hops ∧
    (requestProbe p s).paths = s.paths ∧ (requestProbe p s).lines = s.lines ∧
    (requestProbe p s).scanner = s.scanner ∧ (requestProbe p s).windows = s.windows ∧
    (requestProbe p s).sched = s.sched ∧ (requestProbe p s).loop = s.loop ∧
    (requestProbe p s).roster = s.roster ∧ (requestProbe p s).ctl = s.ctl := by
  unfold requestProbe
  all_goals simp

@[simp] theorem claimSlot_frame (slot : Nat) (c : Nat) (m : Mode) (o : Owner) (s : State) :
    (claimSlot slot c m o s).pending = s.pending ∧ (claimSlot slot c m o s).now = s.now ∧
    (claimSlot slot c m o s).choices = s.choices ∧ (claimSlot slot c m o s).runState = s.runState ∧
    (claimSlot slot c m o s).image = s.image ∧ (claimSlot slot c m o s).finding = s.finding ∧
    (claimSlot slot c m o s).lossInputs = s.lossInputs ∧ (claimSlot slot c m o s).hops = s.hops ∧
    (claimSlot slot c m o s).lines = s.lines ∧ (claimSlot slot c m o s).scanner = s.scanner ∧
    (claimSlot slot c m o s).windows = s.windows ∧ (claimSlot slot c m o s).sched = s.sched ∧
    (claimSlot slot c m o s).loop = s.loop ∧ (claimSlot slot c m o s).roster = s.roster ∧
    (claimSlot slot c m o s).ctl = s.ctl := by
  unfold claimSlot
  repeat' split
  all_goals simp

@[simp] theorem setAdmission_frame (x : Bool) (s : State) :
    (setAdmission x s).pending = s.pending ∧ (setAdmission x s).now = s.now ∧
    (setAdmission x s).choices = s.choices ∧ (setAdmission x s).runState = s.runState ∧
    (setAdmission x s).image = s.image ∧ (setAdmission x s).finding = s.finding ∧
    (setAdmission x s).lossInputs = s.lossInputs ∧ (setAdmission x s).hops = s.hops ∧
    (setAdmission x s).paths = s.paths ∧ (setAdmission x s).lines = s.lines ∧
    (setAdmission x s).scanner = s.scanner ∧ (setAdmission x s).probes = s.probes ∧
    (setAdmission x s).windows = s.windows ∧ (setAdmission x s).loop = s.loop ∧
    (setAdmission x s).roster = s.roster ∧ (setAdmission x s).ctl = s.ctl := by
  unfold setAdmission
  repeat' split
  all_goals simp

@[simp] theorem resetScheduler_frame (s : State) :
    (resetScheduler s).pending = s.pending ∧ (resetScheduler s).now = s.now ∧
    (resetScheduler s).choices = s.choices ∧ (resetScheduler s).runState = s.runState ∧
    (resetScheduler s).image = s.image ∧ (resetScheduler s).finding = s.finding ∧
    (resetScheduler s).lossInputs = s.lossInputs ∧ (resetScheduler s).hops = s.hops ∧
    (resetScheduler s).paths = s.paths ∧ (resetScheduler s).lines = s.lines ∧
    (resetScheduler s).scanner = s.scanner ∧ (resetScheduler s).probes = s.probes ∧
    (resetScheduler s).windows = s.windows ∧ (resetScheduler s).loop = s.loop ∧
    (resetScheduler s).roster = s.roster ∧ (resetScheduler s).ctl = s.ctl := by
  unfold resetScheduler
  repeat' split
  all_goals simp

@[simp] theorem resetPaths_frame (s : State) :
    (resetPaths s).pending = s.pending ∧ (resetPaths s).now = s.now ∧
    (resetPaths s).choices = s.choices ∧ (resetPaths s).runState = s.runState ∧
    (resetPaths s).image = s.image ∧ (resetPaths s).finding = s.finding ∧
    (resetPaths s).lossInputs = s.lossInputs ∧ (resetPaths s).hops = s.hops ∧
    (resetPaths s).lines = s.lines ∧ (resetPaths s).scanner = s.scanner ∧
    (resetPaths s).probes = s.probes ∧ (resetPaths s).windows = s.windows ∧
    (resetPaths s).loop = s.loop ∧ (resetPaths s).roster = s.roster ∧ (resetPaths s).ctl = s.ctl := by
  unfold resetPaths
  all_goals simp

/-! ### Machine/Windows.lean -/

@[simp] theorem requestWindow_frame (r : Request) (s : State) :
    (requestWindow r s).pending = s.pending ∧ (requestWindow r s).now = s.now ∧
    (requestWindow r s).choices = s.choices ∧ (requestWindow r s).runState = s.runState ∧
    (requestWindow r s).image = s.image ∧ (requestWindow r s).finding = s.finding ∧
    (requestWindow r s).lossInputs = s.lossInputs ∧ (requestWindow r s).hops = s.hops ∧
    (requestWindow r s).paths = s.paths ∧ (requestWindow r s).lines = s.lines ∧
    (requestWindow r s).scanner = s.scanner ∧ (requestWindow r s).probes = s.probes ∧
    (requestWindow r s).sched = s.sched ∧ (requestWindow r s).loop = s.loop ∧
    (requestWindow r s).roster = s.roster ∧ (requestWindow r s).ctl = s.ctl := by
  unfold requestWindow
  repeat' split
  all_goals simp

@[simp] theorem dropWindowRequests_frame (ser : Serial) (s : State) :
    (dropWindowRequests ser s).pending = s.pending ∧ (dropWindowRequests ser s).now = s.now ∧
    (dropWindowRequests ser s).choices = s.choices ∧ (dropWindowRequests ser s).runState = s.runState ∧
    (dropWindowRequests ser s).image = s.image ∧ (dropWindowRequests ser s).finding = s.finding ∧
    (dropWindowRequests ser s).lossInputs = s.lossInputs ∧ (dropWindowRequests ser s).hops = s.hops ∧
    (dropWindowRequests ser s).paths = s.paths ∧ (dropWindowRequests ser s).lines = s.lines ∧
    (dropWindowRequests ser s).scanner = s.scanner ∧ (dropWindowRequests ser s).probes = s.probes ∧
    (dropWindowRequests ser s).sched = s.sched ∧ (dropWindowRequests ser s).loop = s.loop ∧
    (dropWindowRequests ser s).roster = s.roster ∧ (dropWindowRequests ser s).ctl = s.ctl := by
  unfold dropWindowRequests
  all_goals simp

@[simp] theorem placeHolds_frame (ser : Serial) (scope : PortSet) (s : State) :
    (placeHolds ser scope s).pending = s.pending ∧ (placeHolds ser scope s).now = s.now ∧
    (placeHolds ser scope s).choices = s.choices ∧ (placeHolds ser scope s).runState = s.runState ∧
    (placeHolds ser scope s).image = s.image ∧ (placeHolds ser scope s).finding = s.finding ∧
    (placeHolds ser scope s).lossInputs = s.lossInputs ∧ (placeHolds ser scope s).hops = s.hops ∧
    (placeHolds ser scope s).lines = s.lines ∧ (placeHolds ser scope s).scanner = s.scanner ∧
    (placeHolds ser scope s).loop = s.loop ∧ (placeHolds ser scope s).roster = s.roster := by
  unfold placeHolds
  all_goals simp

@[simp] theorem listWindow_frame (ser : Serial) (scope : PortSet) (s : State) :
    (listWindow ser scope s).pending = s.pending ∧ (listWindow ser scope s).now = s.now ∧
    (listWindow ser scope s).choices = s.choices ∧ (listWindow ser scope s).runState = s.runState ∧
    (listWindow ser scope s).image = s.image ∧ (listWindow ser scope s).finding = s.finding ∧
    (listWindow ser scope s).lossInputs = s.lossInputs ∧ (listWindow ser scope s).hops = s.hops ∧
    (listWindow ser scope s).lines = s.lines ∧ (listWindow ser scope s).scanner = s.scanner ∧
    (listWindow ser scope s).loop = s.loop ∧ (listWindow ser scope s).roster = s.roster := by
  unfold listWindow
  all_goals simp

@[simp] theorem cancelWindowEntry_frame (ser : Serial) (s : State) :
    (cancelWindowEntry ser s).pending = s.pending ∧ (cancelWindowEntry ser s).now = s.now ∧
    (cancelWindowEntry ser s).choices = s.choices ∧ (cancelWindowEntry ser s).runState = s.runState ∧
    (cancelWindowEntry ser s).image = s.image ∧ (cancelWindowEntry ser s).finding = s.finding ∧
    (cancelWindowEntry ser s).lossInputs = s.lossInputs ∧ (cancelWindowEntry ser s).hops = s.hops ∧
    (cancelWindowEntry ser s).lines = s.lines ∧ (cancelWindowEntry ser s).scanner = s.scanner ∧
    (cancelWindowEntry ser s).probes = s.probes ∧ (cancelWindowEntry ser s).loop = s.loop ∧
    (cancelWindowEntry ser s).roster = s.roster ∧ (cancelWindowEntry ser s).ctl = s.ctl := by
  unfold cancelWindowEntry
  all_goals simp

@[simp] theorem summaryTest_frame (ser : Serial) (s : State) :
    (summaryTest ser s).pending = s.pending ∧ (summaryTest ser s).now = s.now ∧
    (summaryTest ser s).choices = s.choices ∧ (summaryTest ser s).runState = s.runState ∧
    (summaryTest ser s).image = s.image ∧ (summaryTest ser s).finding = s.finding ∧
    (summaryTest ser s).lossInputs = s.lossInputs ∧ (summaryTest ser s).hops = s.hops ∧
    (summaryTest ser s).paths = s.paths ∧ (summaryTest ser s).lines = s.lines ∧
    (summaryTest ser s).scanner = s.scanner ∧ (summaryTest ser s).probes = s.probes ∧
    (summaryTest ser s).sched = s.sched ∧ (summaryTest ser s).loop = s.loop ∧
    (summaryTest ser s).roster = s.roster := by
  unfold summaryTest
  repeat' split
  all_goals simp

@[simp] theorem recordTally_frame (ser : Serial) (y : Nat) (t : Tally) (s : State) :
    (recordTally ser y t s).pending = s.pending ∧ (recordTally ser y t s).now = s.now ∧
    (recordTally ser y t s).choices = s.choices ∧ (recordTally ser y t s).runState = s.runState ∧
    (recordTally ser y t s).image = s.image ∧ (recordTally ser y t s).finding = s.finding ∧
    (recordTally ser y t s).lossInputs = s.lossInputs ∧ (recordTally ser y t s).hops = s.hops ∧
    (recordTally ser y t s).paths = s.paths ∧ (recordTally ser y t s).lines = s.lines ∧
    (recordTally ser y t s).scanner = s.scanner ∧ (recordTally ser y t s).probes = s.probes ∧
    (recordTally ser y t s).sched = s.sched ∧ (recordTally ser y t s).loop = s.loop ∧
    (recordTally ser y t s).roster = s.roster := by
  unfold recordTally
  repeat' split
  all_goals simp

@[simp] theorem missingInTable_frame (x : Nat) (s : State) (ser : Serial) :
    (missingInTable x s ser).pending = s.pending ∧ (missingInTable x s ser).now = s.now ∧
    (missingInTable x s ser).choices = s.choices ∧ (missingInTable x s ser).runState = s.runState ∧
    (missingInTable x s ser).image = s.image ∧ (missingInTable x s ser).finding = s.finding ∧
    (missingInTable x s ser).lossInputs = s.lossInputs ∧ (missingInTable x s ser).hops = s.hops ∧
    (missingInTable x s ser).paths = s.paths ∧ (missingInTable x s ser).lines = s.lines ∧
    (missingInTable x s ser).scanner = s.scanner ∧ (missingInTable x s ser).probes = s.probes ∧
    (missingInTable x s ser).sched = s.sched ∧ (missingInTable x s ser).loop = s.loop ∧
    (missingInTable x s ser).roster = s.roster := by
  unfold missingInTable
  repeat' split
  all_goals simp

@[simp] theorem missingInTables_frame (x : Nat) (s : State) :
    (missingInTables x s).pending = s.pending ∧ (missingInTables x s).now = s.now ∧
    (missingInTables x s).choices = s.choices ∧ (missingInTables x s).runState = s.runState ∧
    (missingInTables x s).image = s.image ∧ (missingInTables x s).finding = s.finding ∧
    (missingInTables x s).lossInputs = s.lossInputs ∧ (missingInTables x s).hops = s.hops ∧
    (missingInTables x s).paths = s.paths ∧ (missingInTables x s).lines = s.lines ∧
    (missingInTables x s).scanner = s.scanner ∧ (missingInTables x s).probes = s.probes ∧
    (missingInTables x s).sched = s.sched ∧ (missingInTables x s).loop = s.loop ∧
    (missingInTables x s).roster = s.roster := by
  unfold missingInTables
  all_goals simp

@[simp] theorem requestTally_frame (ser : Serial) (s : State) :
    (requestTally ser s).pending = s.pending ∧ (requestTally ser s).now = s.now ∧
    (requestTally ser s).choices = s.choices ∧ (requestTally ser s).runState = s.runState ∧
    (requestTally ser s).image = s.image ∧ (requestTally ser s).finding = s.finding ∧
    (requestTally ser s).lossInputs = s.lossInputs ∧ (requestTally ser s).hops = s.hops ∧
    (requestTally ser s).paths = s.paths ∧ (requestTally ser s).lines = s.lines ∧
    (requestTally ser s).scanner = s.scanner ∧ (requestTally ser s).probes = s.probes ∧
    (requestTally ser s).sched = s.sched ∧ (requestTally ser s).loop = s.loop ∧
    (requestTally ser s).roster = s.roster ∧ (requestTally ser s).ctl = s.ctl := by
  unfold requestTally
  repeat' split
  all_goals simp

@[simp] theorem tallyTest_frame (ser : Serial) (s : State) :
    (tallyTest ser s).pending = s.pending ∧ (tallyTest ser s).now = s.now ∧
    (tallyTest ser s).choices = s.choices ∧ (tallyTest ser s).runState = s.runState ∧
    (tallyTest ser s).image = s.image ∧ (tallyTest ser s).finding = s.finding ∧
    (tallyTest ser s).lossInputs = s.lossInputs ∧ (tallyTest ser s).hops = s.hops ∧
    (tallyTest ser s).paths = s.paths ∧ (tallyTest ser s).lines = s.lines ∧
    (tallyTest ser s).scanner = s.scanner ∧ (tallyTest ser s).probes = s.probes ∧
    (tallyTest ser s).sched = s.sched ∧ (tallyTest ser s).loop = s.loop ∧
    (tallyTest ser s).roster = s.roster := by
  unfold tallyTest
  repeat' split
  all_goals simp

@[simp] theorem creditWindow_frame (c : Nat) (v : Verdict) (s : State) (ser : Serial) :
    (creditWindow c v s ser).pending = s.pending ∧ (creditWindow c v s ser).now = s.now ∧
    (creditWindow c v s ser).choices = s.choices ∧ (creditWindow c v s ser).runState = s.runState ∧
    (creditWindow c v s ser).image = s.image ∧ (creditWindow c v s ser).finding = s.finding ∧
    (creditWindow c v s ser).lossInputs = s.lossInputs ∧ (creditWindow c v s ser).hops = s.hops ∧
    (creditWindow c v s ser).paths = s.paths ∧ (creditWindow c v s ser).lines = s.lines ∧
    (creditWindow c v s ser).scanner = s.scanner ∧ (creditWindow c v s ser).probes = s.probes ∧
    (creditWindow c v s ser).sched = s.sched ∧ (creditWindow c v s ser).loop = s.loop ∧
    (creditWindow c v s ser).roster = s.roster := by
  unfold creditWindow
  all_goals simp

@[simp] theorem closeOwn_frame (ser : Serial) (s : State) :
    (closeOwn ser s).pending = s.pending ∧ (closeOwn ser s).now = s.now ∧
    (closeOwn ser s).choices = s.choices ∧ (closeOwn ser s).runState = s.runState ∧
    (closeOwn ser s).image = s.image ∧ (closeOwn ser s).finding = s.finding ∧
    (closeOwn ser s).lossInputs = s.lossInputs ∧ (closeOwn ser s).hops = s.hops ∧
    (closeOwn ser s).lines = s.lines ∧ (closeOwn ser s).scanner = s.scanner ∧
    (closeOwn ser s).probes = s.probes ∧ (closeOwn ser s).loop = s.loop ∧
    (closeOwn ser s).roster = s.roster := by
  unfold closeOwn
  all_goals simp

@[simp] theorem leaveSettling_frame (ser : Serial) (s : State) :
    (leaveSettling ser s).pending = s.pending ∧ (leaveSettling ser s).now = s.now ∧
    (leaveSettling ser s).choices = s.choices ∧ (leaveSettling ser s).runState = s.runState ∧
    (leaveSettling ser s).image = s.image ∧ (leaveSettling ser s).finding = s.finding ∧
    (leaveSettling ser s).lossInputs = s.lossInputs ∧ (leaveSettling ser s).hops = s.hops ∧
    (leaveSettling ser s).lines = s.lines ∧ (leaveSettling ser s).scanner = s.scanner ∧
    (leaveSettling ser s).probes = s.probes ∧ (leaveSettling ser s).loop = s.loop ∧
    (leaveSettling ser s).roster = s.roster := by
  unfold leaveSettling
  repeat' split
  all_goals simp

@[simp] theorem closeListed_frame (ser : Serial) (s : State) :
    (closeListed ser s).pending = s.pending ∧ (closeListed ser s).now = s.now ∧
    (closeListed ser s).choices = s.choices ∧ (closeListed ser s).runState = s.runState ∧
    (closeListed ser s).image = s.image ∧ (closeListed ser s).finding = s.finding ∧
    (closeListed ser s).lossInputs = s.lossInputs ∧ (closeListed ser s).hops = s.hops ∧
    (closeListed ser s).lines = s.lines ∧ (closeListed ser s).scanner = s.scanner ∧
    (closeListed ser s).probes = s.probes ∧ (closeListed ser s).loop = s.loop ∧
    (closeListed ser s).roster = s.roster := by
  unfold closeListed
  all_goals simp

@[simp] theorem refuseOpen_frame (ser : Serial) (b : BestMarks) (s : State) :
    (refuseOpen ser b s).pending = s.pending ∧ (refuseOpen ser b s).now = s.now ∧
    (refuseOpen ser b s).choices = s.choices ∧ (refuseOpen ser b s).runState = s.runState ∧
    (refuseOpen ser b s).image = s.image ∧ (refuseOpen ser b s).finding = s.finding ∧
    (refuseOpen ser b s).lossInputs = s.lossInputs ∧ (refuseOpen ser b s).hops = s.hops ∧
    (refuseOpen ser b s).lines = s.lines ∧ (refuseOpen ser b s).scanner = s.scanner ∧
    (refuseOpen ser b s).probes = s.probes ∧ (refuseOpen ser b s).loop = s.loop ∧
    (refuseOpen ser b s).roster = s.roster := by
  unfold refuseOpen
  all_goals simp

@[simp] theorem confirmOpen_frame (ser : Serial) (b : BestMarks) (s : State) :
    (confirmOpen ser b s).pending = s.pending ∧ (confirmOpen ser b s).now = s.now ∧
    (confirmOpen ser b s).choices = s.choices ∧ (confirmOpen ser b s).runState = s.runState ∧
    (confirmOpen ser b s).image = s.image ∧ (confirmOpen ser b s).finding = s.finding ∧
    (confirmOpen ser b s).lossInputs = s.lossInputs ∧ (confirmOpen ser b s).hops = s.hops ∧
    (confirmOpen ser b s).lines = s.lines ∧ (confirmOpen ser b s).scanner = s.scanner ∧
    (confirmOpen ser b s).probes = s.probes ∧ (confirmOpen ser b s).loop = s.loop ∧
    (confirmOpen ser b s).roster = s.roster := by
  unfold confirmOpen
  all_goals simp

@[simp] theorem openOutcome_frame (ser : Serial) (b : BestMarks) (s : State) :
    (openOutcome ser b s).pending = s.pending ∧ (openOutcome ser b s).now = s.now ∧
    (openOutcome ser b s).choices = s.choices ∧ (openOutcome ser b s).runState = s.runState ∧
    (openOutcome ser b s).image = s.image ∧ (openOutcome ser b s).finding = s.finding ∧
    (openOutcome ser b s).lossInputs = s.lossInputs ∧ (openOutcome ser b s).hops = s.hops ∧
    (openOutcome ser b s).lines = s.lines ∧ (openOutcome ser b s).scanner = s.scanner ∧
    (openOutcome ser b s).probes = s.probes ∧ (openOutcome ser b s).loop = s.loop ∧
    (openOutcome ser b s).roster = s.roster := by
  unfold openOutcome
  repeat' split
  all_goals simp

@[simp] theorem closeOutcome_frame (ser : Serial) (b : BestMarks) (s : State) :
    (closeOutcome ser b s).pending = s.pending ∧ (closeOutcome ser b s).now = s.now ∧
    (closeOutcome ser b s).choices = s.choices ∧ (closeOutcome ser b s).runState = s.runState ∧
    (closeOutcome ser b s).image = s.image ∧ (closeOutcome ser b s).finding = s.finding ∧
    (closeOutcome ser b s).lossInputs = s.lossInputs ∧ (closeOutcome ser b s).hops = s.hops ∧
    (closeOutcome ser b s).paths = s.paths ∧ (closeOutcome ser b s).lines = s.lines ∧
    (closeOutcome ser b s).scanner = s.scanner ∧ (closeOutcome ser b s).probes = s.probes ∧
    (closeOutcome ser b s).sched = s.sched ∧ (closeOutcome ser b s).loop = s.loop ∧
    (closeOutcome ser b s).roster = s.roster := by
  unfold closeOutcome
  repeat' split
  all_goals simp

@[simp] theorem tallyOutcome_frame (ser : Serial) (b : BestMarks) (s : State) :
    (tallyOutcome ser b s).pending = s.pending ∧ (tallyOutcome ser b s).now = s.now ∧
    (tallyOutcome ser b s).choices = s.choices ∧ (tallyOutcome ser b s).runState = s.runState ∧
    (tallyOutcome ser b s).image = s.image ∧ (tallyOutcome ser b s).finding = s.finding ∧
    (tallyOutcome ser b s).lossInputs = s.lossInputs ∧ (tallyOutcome ser b s).hops = s.hops ∧
    (tallyOutcome ser b s).paths = s.paths ∧ (tallyOutcome ser b s).lines = s.lines ∧
    (tallyOutcome ser b s).scanner = s.scanner ∧ (tallyOutcome ser b s).probes = s.probes ∧
    (tallyOutcome ser b s).sched = s.sched ∧ (tallyOutcome ser b s).loop = s.loop ∧
    (tallyOutcome ser b s).roster = s.roster ∧ (tallyOutcome ser b s).ctl = s.ctl := by
  unfold tallyOutcome
  repeat' split
  all_goals simp

@[simp] theorem retryUnsent_frame (x : Nat) (s : State) :
    (retryUnsent x s).pending = s.pending ∧ (retryUnsent x s).now = s.now ∧
    (retryUnsent x s).choices = s.choices ∧ (retryUnsent x s).runState = s.runState ∧
    (retryUnsent x s).image = s.image ∧ (retryUnsent x s).finding = s.finding ∧
    (retryUnsent x s).lossInputs = s.lossInputs ∧ (retryUnsent x s).hops = s.hops ∧
    (retryUnsent x s).paths = s.paths ∧ (retryUnsent x s).lines = s.lines ∧
    (retryUnsent x s).scanner = s.scanner ∧ (retryUnsent x s).probes = s.probes ∧
    (retryUnsent x s).sched = s.sched ∧ (retryUnsent x s).loop = s.loop ∧
    (retryUnsent x s).roster = s.roster ∧ (retryUnsent x s).ctl = s.ctl := by
  unfold retryUnsent
  all_goals simp

@[simp] theorem removeJoinerWindows_frame (x : Nat) (s : State) :
    (removeJoinerWindows x s).pending = s.pending ∧ (removeJoinerWindows x s).now = s.now ∧
    (removeJoinerWindows x s).choices = s.choices ∧ (removeJoinerWindows x s).runState = s.runState ∧
    (removeJoinerWindows x s).image = s.image ∧ (removeJoinerWindows x s).finding = s.finding ∧
    (removeJoinerWindows x s).lossInputs = s.lossInputs ∧ (removeJoinerWindows x s).hops = s.hops ∧
    (removeJoinerWindows x s).lines = s.lines ∧ (removeJoinerWindows x s).scanner = s.scanner ∧
    (removeJoinerWindows x s).probes = s.probes ∧ (removeJoinerWindows x s).loop = s.loop ∧
    (removeJoinerWindows x s).roster = s.roster ∧ (removeJoinerWindows x s).ctl = s.ctl := by
  unfold removeJoinerWindows
  all_goals simp

@[simp] theorem reannounce_frame (s : State) :
    (reannounce s).pending = s.pending ∧ (reannounce s).now = s.now ∧
    (reannounce s).choices = s.choices ∧ (reannounce s).runState = s.runState ∧
    (reannounce s).image = s.image ∧ (reannounce s).finding = s.finding ∧
    (reannounce s).lossInputs = s.lossInputs ∧ (reannounce s).hops = s.hops ∧
    (reannounce s).paths = s.paths ∧ (reannounce s).lines = s.lines ∧
    (reannounce s).scanner = s.scanner ∧ (reannounce s).probes = s.probes ∧
    (reannounce s).sched = s.sched ∧ (reannounce s).loop = s.loop ∧ (reannounce s).roster = s.roster ∧
    (reannounce s).ctl = s.ctl := by
  unfold reannounce
  all_goals simp

@[simp] theorem joinWindows_frame (x : Nat) (s : State) :
    (joinWindows x s).pending = s.pending ∧ (joinWindows x s).now = s.now ∧
    (joinWindows x s).choices = s.choices ∧ (joinWindows x s).runState = s.runState ∧
    (joinWindows x s).image = s.image ∧ (joinWindows x s).finding = s.finding ∧
    (joinWindows x s).lossInputs = s.lossInputs ∧ (joinWindows x s).hops = s.hops ∧
    (joinWindows x s).lines = s.lines ∧ (joinWindows x s).scanner = s.scanner ∧
    (joinWindows x s).probes = s.probes ∧ (joinWindows x s).loop = s.loop ∧
    (joinWindows x s).roster = s.roster := by
  unfold joinWindows
  all_goals simp

@[simp] theorem resetWindows_frame (s : State) :
    (resetWindows s).pending = s.pending ∧ (resetWindows s).now = s.now ∧
    (resetWindows s).choices = s.choices ∧ (resetWindows s).runState = s.runState ∧
    (resetWindows s).image = s.image ∧ (resetWindows s).finding = s.finding ∧
    (resetWindows s).lossInputs = s.lossInputs ∧ (resetWindows s).hops = s.hops ∧
    (resetWindows s).paths = s.paths ∧ (resetWindows s).lines = s.lines ∧
    (resetWindows s).scanner = s.scanner ∧ (resetWindows s).probes = s.probes ∧
    (resetWindows s).sched = s.sched ∧ (resetWindows s).loop = s.loop ∧
    (resetWindows s).roster = s.roster ∧ (resetWindows s).ctl = s.ctl := by
  unfold resetWindows
  all_goals simp

@[simp] theorem noteGrant_frame (r : Request) (s : State) :
    (noteGrant r s).pending = s.pending ∧ (noteGrant r s).now = s.now ∧
    (noteGrant r s).choices = s.choices ∧ (noteGrant r s).runState = s.runState ∧
    (noteGrant r s).image = s.image ∧ (noteGrant r s).finding = s.finding ∧
    (noteGrant r s).lossInputs = s.lossInputs ∧ (noteGrant r s).hops = s.hops ∧
    (noteGrant r s).paths = s.paths ∧ (noteGrant r s).lines = s.lines ∧
    (noteGrant r s).scanner = s.scanner ∧ (noteGrant r s).probes = s.probes ∧
    (noteGrant r s).sched = s.sched ∧ (noteGrant r s).loop = s.loop ∧
    (noteGrant r s).roster = s.roster ∧ (noteGrant r s).ctl = s.ctl := by
  unfold noteGrant
  repeat' split
  all_goals simp

@[simp] theorem takeWindowRequest_frame (r : Request) (s : State) :
    (takeWindowRequest r s).pending = s.pending ∧ (takeWindowRequest r s).now = s.now ∧
    (takeWindowRequest r s).choices = s.choices ∧ (takeWindowRequest r s).runState = s.runState ∧
    (takeWindowRequest r s).image = s.image ∧ (takeWindowRequest r s).finding = s.finding ∧
    (takeWindowRequest r s).lossInputs = s.lossInputs ∧ (takeWindowRequest r s).hops = s.hops ∧
    (takeWindowRequest r s).paths = s.paths ∧ (takeWindowRequest r s).lines = s.lines ∧
    (takeWindowRequest r s).scanner = s.scanner ∧ (takeWindowRequest r s).probes = s.probes ∧
    (takeWindowRequest r s).sched = s.sched ∧ (takeWindowRequest r s).loop = s.loop ∧
    (takeWindowRequest r s).roster = s.roster ∧ (takeWindowRequest r s).ctl = s.ctl := by
  unfold takeWindowRequest
  all_goals simp

@[simp] theorem refuse_frame (r : ResultCode) (s : State) :
    (refuse r s).state.pending = s.pending ∧ (refuse r s).state.now = s.now ∧
    (refuse r s).state.choices = s.choices ∧ (refuse r s).state.runState = s.runState ∧
    (refuse r s).state.image = s.image ∧ (refuse r s).state.finding = s.finding ∧
    (refuse r s).state.lossInputs = s.lossInputs ∧ (refuse r s).state.hops = s.hops ∧
    (refuse r s).state.paths = s.paths ∧ (refuse r s).state.lines = s.lines ∧
    (refuse r s).state.scanner = s.scanner ∧ (refuse r s).state.probes = s.probes ∧
    (refuse r s).state.windows = s.windows ∧ (refuse r s).state.sched = s.sched ∧
    (refuse r s).state.loop = s.loop ∧ (refuse r s).state.roster = s.roster ∧
    (refuse r s).state.ctl = s.ctl := by
  unfold refuse
  all_goals simp

@[simp] theorem openWindow_frame (ser : Serial) (scope : PortSet) (s : State) :
    (openWindow ser scope s).pending = s.pending ∧ (openWindow ser scope s).now = s.now ∧
    (openWindow ser scope s).choices = s.choices ∧ (openWindow ser scope s).runState = s.runState ∧
    (openWindow ser scope s).image = s.image ∧ (openWindow ser scope s).finding = s.finding ∧
    (openWindow ser scope s).lossInputs = s.lossInputs ∧ (openWindow ser scope s).hops = s.hops ∧
    (openWindow ser scope s).lines = s.lines ∧ (openWindow ser scope s).scanner = s.scanner ∧
    (openWindow ser scope s).loop = s.loop ∧ (openWindow ser scope s).roster = s.roster := by
  unfold openWindow
  all_goals simp

@[simp] theorem serveOpenWindow_frame (scope : PortSet) (s : State) :
    (serveOpenWindow scope s).state.pending = s.pending ∧ (serveOpenWindow scope s).state.now = s.now ∧
    (serveOpenWindow scope s).state.choices = s.choices ∧
    (serveOpenWindow scope s).state.runState = s.runState ∧
    (serveOpenWindow scope s).state.image = s.image ∧
    (serveOpenWindow scope s).state.finding = s.finding ∧
    (serveOpenWindow scope s).state.lossInputs = s.lossInputs ∧
    (serveOpenWindow scope s).state.hops = s.hops ∧ (serveOpenWindow scope s).state.lines = s.lines ∧
    (serveOpenWindow scope s).state.scanner = s.scanner ∧
    (serveOpenWindow scope s).state.loop = s.loop ∧ (serveOpenWindow scope s).state.roster = s.roster := by
  unfold serveOpenWindow
  repeat' split
  all_goals simp

@[simp] theorem serveCloseWindow_frame (seq : Nat) (code : Nat) (s : State) :
    (serveCloseWindow seq code s).state.pending = s.pending ∧
    (serveCloseWindow seq code s).state.now = s.now ∧
    (serveCloseWindow seq code s).state.choices = s.choices ∧
    (serveCloseWindow seq code s).state.runState = s.runState ∧
    (serveCloseWindow seq code s).state.image = s.image ∧
    (serveCloseWindow seq code s).state.finding = s.finding ∧
    (serveCloseWindow seq code s).state.lossInputs = s.lossInputs ∧
    (serveCloseWindow seq code s).state.hops = s.hops ∧
    (serveCloseWindow seq code s).state.paths = s.paths ∧
    (serveCloseWindow seq code s).state.lines = s.lines ∧
    (serveCloseWindow seq code s).state.scanner = s.scanner ∧
    (serveCloseWindow seq code s).state.probes = s.probes ∧
    (serveCloseWindow seq code s).state.sched = s.sched ∧
    (serveCloseWindow seq code s).state.loop = s.loop ∧
    (serveCloseWindow seq code s).state.roster = s.roster ∧
    (serveCloseWindow seq code s).state.ctl = s.ctl := by
  unfold serveCloseWindow
  repeat' split
  all_goals simp

@[simp] theorem serveCancelWindow_frame (seq : Nat) (s : State) :
    (serveCancelWindow seq s).state.pending = s.pending ∧ (serveCancelWindow seq s).state.now = s.now ∧
    (serveCancelWindow seq s).state.choices = s.choices ∧
    (serveCancelWindow seq s).state.runState = s.runState ∧
    (serveCancelWindow seq s).state.image = s.image ∧
    (serveCancelWindow seq s).state.finding = s.finding ∧
    (serveCancelWindow seq s).state.lossInputs = s.lossInputs ∧
    (serveCancelWindow seq s).state.hops = s.hops ∧ (serveCancelWindow seq s).state.lines = s.lines ∧
    (serveCancelWindow seq s).state.scanner = s.scanner ∧
    (serveCancelWindow seq s).state.probes = s.probes ∧ (serveCancelWindow seq s).state.loop = s.loop ∧
    (serveCancelWindow seq s).state.roster = s.roster ∧ (serveCancelWindow seq s).state.ctl = s.ctl := by
  unfold serveCancelWindow
  repeat' split
  all_goals simp

@[simp] theorem settleExpires_frame (seq : Nat) (due : Nat) (s : State) :
    (settleExpires seq due s).pending = s.pending ∧ (settleExpires seq due s).choices = s.choices ∧
    (settleExpires seq due s).runState = s.runState ∧ (settleExpires seq due s).image = s.image ∧
    (settleExpires seq due s).finding = s.finding ∧
    (settleExpires seq due s).lossInputs = s.lossInputs ∧ (settleExpires seq due s).hops = s.hops ∧
    (settleExpires seq due s).lines = s.lines ∧ (settleExpires seq due s).scanner = s.scanner ∧
    (settleExpires seq due s).probes = s.probes ∧ (settleExpires seq due s).loop = s.loop ∧
    (settleExpires seq due s).roster = s.roster := by
  unfold settleExpires
  all_goals simp

/-! ### Machine/Probes.lean -/

@[simp] theorem rewriteHead_frame (c : Nat) (h : Hop) (s : State) :
    (rewriteHead c h s).pending = s.pending ∧ (rewriteHead c h s).now = s.now ∧
    (rewriteHead c h s).choices = s.choices ∧ (rewriteHead c h s).runState = s.runState ∧
    (rewriteHead c h s).image = s.image ∧ (rewriteHead c h s).finding = s.finding ∧
    (rewriteHead c h s).lossInputs = s.lossInputs ∧ (rewriteHead c h s).paths = s.paths ∧
    (rewriteHead c h s).lines = s.lines ∧ (rewriteHead c h s).scanner = s.scanner ∧
    (rewriteHead c h s).probes = s.probes ∧ (rewriteHead c h s).windows = s.windows ∧
    (rewriteHead c h s).sched = s.sched ∧ (rewriteHead c h s).loop = s.loop ∧
    (rewriteHead c h s).roster = s.roster ∧ (rewriteHead c h s).ctl = s.ctl := by
  unfold rewriteHead
  all_goals simp

@[simp] theorem writeHop_frame (e : HopEntry) (s : State) :
    (writeHop e s).pending = s.pending ∧ (writeHop e s).now = s.now ∧
    (writeHop e s).choices = s.choices ∧ (writeHop e s).runState = s.runState ∧
    (writeHop e s).image = s.image ∧ (writeHop e s).finding = s.finding ∧
    (writeHop e s).lossInputs = s.lossInputs ∧ (writeHop e s).paths = s.paths ∧
    (writeHop e s).lines = s.lines ∧ (writeHop e s).scanner = s.scanner ∧
    (writeHop e s).probes = s.probes ∧ (writeHop e s).windows = s.windows ∧
    (writeHop e s).sched = s.sched ∧ (writeHop e s).loop = s.loop ∧ (writeHop e s).roster = s.roster := by
  unfold writeHop
  repeat' split
  all_goals simp

@[simp] theorem learnHop_frame (w : WatchEntry) (s : State) :
    (learnHop w s).pending = s.pending ∧ (learnHop w s).now = s.now ∧
    (learnHop w s).choices = s.choices ∧ (learnHop w s).runState = s.runState ∧
    (learnHop w s).image = s.image ∧ (learnHop w s).finding = s.finding ∧
    (learnHop w s).lossInputs = s.lossInputs ∧ (learnHop w s).paths = s.paths ∧
    (learnHop w s).lines = s.lines ∧ (learnHop w s).scanner = s.scanner ∧
    (learnHop w s).probes = s.probes ∧ (learnHop w s).windows = s.windows ∧
    (learnHop w s).sched = s.sched ∧ (learnHop w s).loop = s.loop ∧ (learnHop w s).roster = s.roster := by
  unfold learnHop
  repeat' split
  all_goals simp

@[simp] theorem followHead_frame (j : Judgement) (s : State) :
    (followHead j s).pending = s.pending ∧ (followHead j s).now = s.now ∧
    (followHead j s).choices = s.choices ∧ (followHead j s).runState = s.runState ∧
    (followHead j s).image = s.image ∧ (followHead j s).finding = s.finding ∧
    (followHead j s).lossInputs = s.lossInputs ∧ (followHead j s).paths = s.paths ∧
    (followHead j s).lines = s.lines ∧ (followHead j s).scanner = s.scanner ∧
    (followHead j s).probes = s.probes ∧ (followHead j s).windows = s.windows ∧
    (followHead j s).sched = s.sched ∧ (followHead j s).loop = s.loop ∧
    (followHead j s).roster = s.roster ∧ (followHead j s).ctl = s.ctl := by
  unfold followHead
  repeat' split
  all_goals simp

@[simp] theorem creditOwed_frame (j : Judgement) (owed : List Serial) (s : State) :
    (creditOwed j owed s).pending = s.pending ∧ (creditOwed j owed s).now = s.now ∧
    (creditOwed j owed s).choices = s.choices ∧ (creditOwed j owed s).runState = s.runState ∧
    (creditOwed j owed s).image = s.image ∧ (creditOwed j owed s).finding = s.finding ∧
    (creditOwed j owed s).lossInputs = s.lossInputs ∧ (creditOwed j owed s).hops = s.hops ∧
    (creditOwed j owed s).lines = s.lines ∧ (creditOwed j owed s).scanner = s.scanner ∧
    (creditOwed j owed s).probes = s.probes ∧ (creditOwed j owed s).sched = s.sched ∧
    (creditOwed j owed s).loop = s.loop ∧ (creditOwed j owed s).roster = s.roster := by
  unfold creditOwed
  all_goals simp

@[simp] theorem moveForVerdict_frame (j : Judgement) (r : PathRecord) (s : State) :
    (moveForVerdict j r s).pending = s.pending ∧ (moveForVerdict j r s).now = s.now ∧
    (moveForVerdict j r s).choices = s.choices ∧ (moveForVerdict j r s).runState = s.runState ∧
    (moveForVerdict j r s).image = s.image ∧ (moveForVerdict j r s).finding = s.finding ∧
    (moveForVerdict j r s).lossInputs = s.lossInputs ∧ (moveForVerdict j r s).hops = s.hops ∧
    (moveForVerdict j r s).lines = s.lines ∧ (moveForVerdict j r s).scanner = s.scanner ∧
    (moveForVerdict j r s).probes = s.probes ∧ (moveForVerdict j r s).loop = s.loop ∧
    (moveForVerdict j r s).roster = s.roster := by
  unfold moveForVerdict
  repeat' split
  all_goals simp

@[simp] theorem creditRun_frame (p : Probe) (v : Verdict) (s : State) :
    (creditRun p v s).pending = s.pending ∧ (creditRun p v s).now = s.now ∧
    (creditRun p v s).choices = s.choices ∧ (creditRun p v s).runState = s.runState ∧
    (creditRun p v s).image = s.image ∧ (creditRun p v s).finding = s.finding ∧
    (creditRun p v s).lossInputs = s.lossInputs ∧ (creditRun p v s).hops = s.hops ∧
    (creditRun p v s).paths = s.paths ∧ (creditRun p v s).lines = s.lines ∧
    (creditRun p v s).scanner = s.scanner ∧ (creditRun p v s).probes = s.probes ∧
    (creditRun p v s).windows = s.windows ∧ (creditRun p v s).loop = s.loop ∧
    (creditRun p v s).roster = s.roster := by
  unfold creditRun
  repeat' split
  all_goals simp

@[simp] theorem recordVerdict_frame (j : Judgement) (p : Probe) (r : PathRecord) (s : State) :
    (recordVerdict j p r s).pending = s.pending ∧ (recordVerdict j p r s).now = s.now ∧
    (recordVerdict j p r s).choices = s.choices ∧ (recordVerdict j p r s).runState = s.runState ∧
    (recordVerdict j p r s).image = s.image ∧ (recordVerdict j p r s).finding = s.finding ∧
    (recordVerdict j p r s).lossInputs = s.lossInputs ∧ (recordVerdict j p r s).lines = s.lines ∧
    (recordVerdict j p r s).scanner = s.scanner ∧ (recordVerdict j p r s).probes = s.probes ∧
    (recordVerdict j p r s).loop = s.loop ∧ (recordVerdict j p r s).roster = s.roster := by
  unfold recordVerdict
  all_goals simp

@[simp] theorem closeSlot_frame (i : Nat) (s : State) :
    (closeSlot i s).pending = s.pending ∧ (closeSlot i s).now = s.now ∧
    (closeSlot i s).choices = s.choices ∧ (closeSlot i s).runState = s.runState ∧
    (closeSlot i s).image = s.image ∧ (closeSlot i s).finding = s.finding ∧
    (closeSlot i s).lossInputs = s.lossInputs ∧ (closeSlot i s).hops = s.hops ∧
    (closeSlot i s).paths = s.paths ∧ (closeSlot i s).lines = s.lines ∧
    (closeSlot i s).scanner = s.scanner ∧ (closeSlot i s).windows = s.windows ∧
    (closeSlot i s).sched = s.sched ∧ (closeSlot i s).loop = s.loop ∧
    (closeSlot i s).roster = s.roster ∧ (closeSlot i s).ctl = s.ctl := by
  unfold closeSlot
  all_goals simp

@[simp] theorem evaluate_frame (i : Nat) (s : State) :
    (evaluate i s).pending = s.pending ∧ (evaluate i s).now = s.now ∧
    (evaluate i s).choices = s.choices ∧ (evaluate i s).runState = s.runState ∧
    (evaluate i s).image = s.image ∧ (evaluate i s).finding = s.finding ∧
    (evaluate i s).lossInputs = s.lossInputs ∧ (evaluate i s).scanner = s.scanner ∧
    (evaluate i s).loop = s.loop ∧ (evaluate i s).roster = s.roster := by
  unfold evaluate
  repeat' split
  all_goals simp

@[simp] theorem evaluateWithdrawn_frame (i : Nat) (s : State) :
    (evaluateWithdrawn i s).pending = s.pending ∧ (evaluateWithdrawn i s).now = s.now ∧
    (evaluateWithdrawn i s).choices = s.choices ∧ (evaluateWithdrawn i s).runState = s.runState ∧
    (evaluateWithdrawn i s).image = s.image ∧ (evaluateWithdrawn i s).finding = s.finding ∧
    (evaluateWithdrawn i s).lossInputs = s.lossInputs ∧ (evaluateWithdrawn i s).lines = s.lines ∧
    (evaluateWithdrawn i s).scanner = s.scanner ∧ (evaluateWithdrawn i s).loop = s.loop ∧
    (evaluateWithdrawn i s).roster = s.roster := by
  unfold evaluateWithdrawn
  repeat' split
  all_goals simp

@[simp] theorem testEarly_frame (i : Nat) (s : State) :
    (testEarly i s).pending = s.pending ∧ (testEarly i s).now = s.now ∧
    (testEarly i s).choices = s.choices ∧ (testEarly i s).runState = s.runState ∧
    (testEarly i s).image = s.image ∧ (testEarly i s).finding = s.finding ∧
    (testEarly i s).lossInputs = s.lossInputs ∧ (testEarly i s).scanner = s.scanner ∧
    (testEarly i s).loop = s.loop ∧ (testEarly i s).roster = s.roster := by
  unfold testEarly
  repeat' split
  all_goals simp

@[simp] theorem intake_frame (i : Nat) (p : Probe) (x : PoolRecord) (s : State) :
    (intake i p x s).pending = s.pending ∧ (intake i p x s).now = s.now ∧
    (intake i p x s).choices = s.choices ∧ (intake i p x s).runState = s.runState ∧
    (intake i p x s).image = s.image ∧ (intake i p x s).finding = s.finding ∧
    (intake i p x s).lossInputs = s.lossInputs ∧ (intake i p x s).scanner = s.scanner ∧
    (intake i p x s).loop = s.loop ∧ (intake i p x s).roster = s.roster := by
  unfold intake
  repeat' split
  all_goals simp

@[simp] theorem offerItem_frame (x : Item) (s : State) :
    (offerItem x s).pending = s.pending ∧ (offerItem x s).now = s.now ∧
    (offerItem x s).choices = s.choices ∧ (offerItem x s).runState = s.runState ∧
    (offerItem x s).image = s.image ∧ (offerItem x s).finding = s.finding ∧
    (offerItem x s).lossInputs = s.lossInputs ∧ (offerItem x s).scanner = s.scanner ∧
    (offerItem x s).loop = s.loop ∧ (offerItem x s).roster = s.roster := by
  unfold offerItem
  repeat' split
  all_goals simp

@[simp] theorem enterDriving_frame (i : Nat) (b : BestMarks) (failed : Bool) (s : State) :
    (enterDriving i b failed s).pending = s.pending ∧ (enterDriving i b failed s).now = s.now ∧
    (enterDriving i b failed s).choices = s.choices ∧
    (enterDriving i b failed s).runState = s.runState ∧ (enterDriving i b failed s).image = s.image ∧
    (enterDriving i b failed s).finding = s.finding ∧
    (enterDriving i b failed s).lossInputs = s.lossInputs ∧ (enterDriving i b failed s).hops = s.hops ∧
    (enterDriving i b failed s).paths = s.paths ∧ (enterDriving i b failed s).scanner = s.scanner ∧
    (enterDriving i b failed s).windows = s.windows ∧ (enterDriving i b failed s).sched = s.sched ∧
    (enterDriving i b failed s).loop = s.loop ∧ (enterDriving i b failed s).roster = s.roster ∧
    (enterDriving i b failed s).ctl = s.ctl := by
  unfold enterDriving
  repeat' split
  all_goals simp

@[simp] theorem startOutcome_frame (c : Nat) (e : Nat) (b : BestMarks) (failed : Bool) (s : State) :
    (startOutcome c e b failed s).pending = s.pending ∧ (startOutcome c e b failed s).now = s.now ∧
    (startOutcome c e b failed s).choices = s.choices ∧
    (startOutcome c e b failed s).runState = s.runState ∧
    (startOutcome c e b failed s).image = s.image ∧ (startOutcome c e b failed s).finding = s.finding ∧
    (startOutcome c e b failed s).lossInputs = s.lossInputs ∧
    (startOutcome c e b failed s).hops = s.hops ∧ (startOutcome c e b failed s).paths = s.paths ∧
    (startOutcome c e b failed s).scanner = s.scanner ∧
    (startOutcome c e b failed s).windows = s.windows ∧ (startOutcome c e b failed s).sched = s.sched ∧
    (startOutcome c e b failed s).loop = s.loop ∧ (startOutcome c e b failed s).roster = s.roster ∧
    (startOutcome c e b failed s).ctl = s.ctl := by
  unfold startOutcome
  repeat' split
  all_goals simp

@[simp] theorem endOutcome_frame (c : Nat) (e : Nat) (s : State) :
    (endOutcome c e s).pending = s.pending ∧ (endOutcome c e s).now = s.now ∧
    (endOutcome c e s).choices = s.choices ∧ (endOutcome c e s).runState = s.runState ∧
    (endOutcome c e s).image = s.image ∧ (endOutcome c e s).finding = s.finding ∧
    (endOutcome c e s).lossInputs = s.lossInputs ∧ (endOutcome c e s).hops = s.hops ∧
    (endOutcome c e s).paths = s.paths ∧ (endOutcome c e s).lines = s.lines ∧
    (endOutcome c e s).scanner = s.scanner ∧ (endOutcome c e s).windows = s.windows ∧
    (endOutcome c e s).sched = s.sched ∧ (endOutcome c e s).loop = s.loop ∧
    (endOutcome c e s).roster = s.roster ∧ (endOutcome c e s).ctl = s.ctl := by
  unfold endOutcome
  repeat' split
  all_goals simp

@[simp] theorem withdrawStart_frame (c : Nat) (e : Nat) (s : State) :
    (withdrawStart c e s).pending = s.pending ∧ (withdrawStart c e s).now = s.now ∧
    (withdrawStart c e s).choices = s.choices ∧ (withdrawStart c e s).runState = s.runState ∧
    (withdrawStart c e s).image = s.image ∧ (withdrawStart c e s).finding = s.finding ∧
    (withdrawStart c e s).lossInputs = s.lossInputs ∧ (withdrawStart c e s).hops = s.hops ∧
    (withdrawStart c e s).paths = s.paths ∧ (withdrawStart c e s).lines = s.lines ∧
    (withdrawStart c e s).scanner = s.scanner ∧ (withdrawStart c e s).windows = s.windows ∧
    (withdrawStart c e s).sched = s.sched ∧ (withdrawStart c e s).roster = s.roster ∧
    (withdrawStart c e s).ctl = s.ctl := by
  unfold withdrawStart
  all_goals simp

@[simp] theorem markConflict_frame (i : Nat) (s : State) :
    (markConflict i s).pending = s.pending ∧ (markConflict i s).now = s.now ∧
    (markConflict i s).choices = s.choices ∧ (markConflict i s).runState = s.runState ∧
    (markConflict i s).image = s.image ∧ (markConflict i s).finding = s.finding ∧
    (markConflict i s).lossInputs = s.lossInputs ∧ (markConflict i s).hops = s.hops ∧
    (markConflict i s).paths = s.paths ∧ (markConflict i s).lines = s.lines ∧
    (markConflict i s).scanner = s.scanner ∧ (markConflict i s).windows = s.windows ∧
    (markConflict i s).sched = s.sched ∧ (markConflict i s).loop = s.loop ∧
    (markConflict i s).roster = s.roster ∧ (markConflict i s).ctl = s.ctl := by
  unfold markConflict
  all_goals simp

@[simp] theorem conflictSlot_frame (i : Nat) (p : Probe) (s : State) :
    (conflictSlot i p s).pending = s.pending ∧ (conflictSlot i p s).now = s.now ∧
    (conflictSlot i p s).choices = s.choices ∧ (conflictSlot i p s).runState = s.runState ∧
    (conflictSlot i p s).image = s.image ∧ (conflictSlot i p s).finding = s.finding ∧
    (conflictSlot i p s).lossInputs = s.lossInputs ∧ (conflictSlot i p s).scanner = s.scanner ∧
    (conflictSlot i p s).roster = s.roster := by
  unfold conflictSlot
  repeat' split
  all_goals simp

@[simp] theorem duplicateHead_frame (c : Nat) (s : State) :
    (duplicateHead c s).pending = s.pending ∧ (duplicateHead c s).now = s.now ∧
    (duplicateHead c s).choices = s.choices ∧ (duplicateHead c s).runState = s.runState ∧
    (duplicateHead c s).image = s.image ∧ (duplicateHead c s).finding = s.finding ∧
    (duplicateHead c s).lossInputs = s.lossInputs ∧ (duplicateHead c s).scanner = s.scanner ∧
    (duplicateHead c s).roster = s.roster := by
  unfold duplicateHead
  dsimp only
  repeat' split
  all_goals simp

@[simp] theorem absentStation_frame (x : Nat) (s : State) :
    (absentStation x s).pending = s.pending ∧ (absentStation x s).now = s.now ∧
    (absentStation x s).choices = s.choices ∧ (absentStation x s).runState = s.runState ∧
    (absentStation x s).image = s.image ∧ (absentStation x s).finding = s.finding ∧
    (absentStation x s).lossInputs = s.lossInputs ∧ (absentStation x s).hops = s.hops ∧
    (absentStation x s).paths = s.paths ∧ (absentStation x s).lines = s.lines ∧
    (absentStation x s).scanner = s.scanner ∧ (absentStation x s).windows = s.windows ∧
    (absentStation x s).sched = s.sched ∧ (absentStation x s).loop = s.loop ∧
    (absentStation x s).roster = s.roster ∧ (absentStation x s).ctl = s.ctl := by
  unfold absentStation
  all_goals simp

@[simp] theorem joinProbes_frame (x : Nat) (s : State) :
    (joinProbes x s).pending = s.pending ∧ (joinProbes x s).now = s.now ∧
    (joinProbes x s).choices = s.choices ∧ (joinProbes x s).runState = s.runState ∧
    (joinProbes x s).image = s.image ∧ (joinProbes x s).finding = s.finding ∧
    (joinProbes x s).lossInputs = s.lossInputs ∧ (joinProbes x s).hops = s.hops ∧
    (joinProbes x s).paths = s.paths ∧ (joinProbes x s).lines = s.lines ∧
    (joinProbes x s).scanner = s.scanner ∧ (joinProbes x s).windows = s.windows ∧
    (joinProbes x s).sched = s.sched ∧ (joinProbes x s).loop = s.loop ∧
    (joinProbes x s).roster = s.roster ∧ (joinProbes x s).ctl = s.ctl := by
  unfold joinProbes
  all_goals simp

@[simp] theorem lowGrade_frame (s : State) :
    (lowGrade s).pending = s.pending ∧ (lowGrade s).now = s.now ∧ (lowGrade s).choices = s.choices ∧
    (lowGrade s).runState = s.runState ∧ (lowGrade s).image = s.image ∧
    (lowGrade s).finding = s.finding ∧ (lowGrade s).lossInputs = s.lossInputs ∧
    (lowGrade s).hops = s.hops ∧ (lowGrade s).paths = s.paths ∧ (lowGrade s).lines = s.lines ∧
    (lowGrade s).scanner = s.scanner ∧ (lowGrade s).windows = s.windows ∧ (lowGrade s).sched = s.sched ∧
    (lowGrade s).loop = s.loop ∧ (lowGrade s).roster = s.roster ∧ (lowGrade s).ctl = s.ctl := by
  unfold lowGrade
  all_goals simp

@[simp] theorem loseLoop_frame (s : State) :
    (loseLoop s).pending = s.pending ∧ (loseLoop s).now = s.now ∧ (loseLoop s).choices = s.choices ∧
    (loseLoop s).runState = s.runState ∧ (loseLoop s).image = s.image ∧
    (loseLoop s).finding = s.finding ∧ (loseLoop s).lossInputs = s.lossInputs ∧
    (loseLoop s).hops = s.hops ∧ (loseLoop s).paths = s.paths ∧ (loseLoop s).lines = s.lines ∧
    (loseLoop s).scanner = s.scanner ∧ (loseLoop s).windows = s.windows ∧ (loseLoop s).sched = s.sched ∧
    (loseLoop s).loop = s.loop ∧ (loseLoop s).roster = s.roster ∧ (loseLoop s).ctl = s.ctl := by
  unfold loseLoop
  all_goals simp

@[simp] theorem idleSlotLines_frame (s : State) :
    (idleSlotLines s).pending = s.pending ∧ (idleSlotLines s).now = s.now ∧
    (idleSlotLines s).choices = s.choices ∧ (idleSlotLines s).runState = s.runState ∧
    (idleSlotLines s).image = s.image ∧ (idleSlotLines s).finding = s.finding ∧
    (idleSlotLines s).lossInputs = s.lossInputs ∧ (idleSlotLines s).hops = s.hops ∧
    (idleSlotLines s).paths = s.paths ∧ (idleSlotLines s).scanner = s.scanner ∧
    (idleSlotLines s).probes = s.probes ∧ (idleSlotLines s).windows = s.windows ∧
    (idleSlotLines s).sched = s.sched ∧ (idleSlotLines s).loop = s.loop ∧
    (idleSlotLines s).roster = s.roster ∧ (idleSlotLines s).ctl = s.ctl := by
  unfold idleSlotLines
  refine ⟨?_, ?_, ?_, ?_, ?_, ?_, ?_, ?_, ?_, ?_, ?_, ?_, ?_, ?_, ?_, ?_⟩
  · exact foldl_pending _ _ _ (by intro t x; cases x <;> simp)
  · exact foldl_now _ _ _ (by intro t x; cases x <;> simp)
  · exact foldl_choices _ _ _ (by intro t x; cases x <;> simp)
  · exact foldl_runState _ _ _ (by intro t x; cases x <;> simp)
  · exact foldl_image _ _ _ (by intro t x; cases x <;> simp)
  · exact foldl_finding _ _ _ (by intro t x; cases x <;> simp)
  · exact foldl_lossInputs _ _ _ (by intro t x; cases x <;> simp)
  · exact foldl_hops _ _ _ (by intro t x; cases x <;> simp)
  · exact foldl_paths _ _ _ (by intro t x; cases x <;> simp)
  · exact foldl_scanner _ _ _ (by intro t x; cases x <;> simp)
  · exact foldl_probes _ _ _ (by intro t x; cases x <;> simp)
  · exact foldl_windows _ _ _ (by intro t x; cases x <;> simp)
  · exact foldl_sched _ _ _ (by intro t x; cases x <;> simp)
  · exact foldl_loop _ _ _ (by intro t x; cases x <;> simp)
  · exact foldl_roster _ _ _ (by intro t x; cases x <;> simp)
  · exact foldl_ctl _ _ _ (by intro t x; cases x <;> simp)

@[simp] theorem clearSlots_frame (s : State) :
    (clearSlots s).pending = s.pending ∧ (clearSlots s).now = s.now ∧
    (clearSlots s).choices = s.choices ∧ (clearSlots s).runState = s.runState ∧
    (clearSlots s).image = s.image ∧ (clearSlots s).finding = s.finding ∧
    (clearSlots s).lossInputs = s.lossInputs ∧ (clearSlots s).hops = s.hops ∧
    (clearSlots s).paths = s.paths ∧ (clearSlots s).scanner = s.scanner ∧
    (clearSlots s).windows = s.windows ∧ (clearSlots s).sched = s.sched ∧
    (clearSlots s).roster = s.roster ∧ (clearSlots s).ctl = s.ctl := by
  unfold clearSlots
  all_goals simp

/-! ### Machine/Roster.lean -/

@[simp] theorem applyGrade_frame (g : Nat) (s : State) :
    (applyGrade g s).pending = s.pending ∧ (applyGrade g s).now = s.now ∧
    (applyGrade g s).choices = s.choices ∧ (applyGrade g s).runState = s.runState ∧
    (applyGrade g s).image = s.image ∧ (applyGrade g s).finding = s.finding ∧
    (applyGrade g s).lossInputs = s.lossInputs ∧ (applyGrade g s).hops = s.hops ∧
    (applyGrade g s).paths = s.paths ∧ (applyGrade g s).lines = s.lines ∧
    (applyGrade g s).scanner = s.scanner ∧ (applyGrade g s).windows = s.windows ∧
    (applyGrade g s).sched = s.sched ∧ (applyGrade g s).loop = s.loop := by
  unfold applyGrade
  repeat' split
  all_goals simp

@[simp] theorem recompute_frame (s : State) :
    (recompute s).pending = s.pending ∧ (recompute s).now = s.now ∧ (recompute s).choices = s.choices ∧
    (recompute s).runState = s.runState ∧ (recompute s).image = s.image ∧
    (recompute s).finding = s.finding ∧ (recompute s).lossInputs = s.lossInputs ∧
    (recompute s).hops = s.hops ∧ (recompute s).paths = s.paths ∧ (recompute s).lines = s.lines ∧
    (recompute s).scanner = s.scanner ∧ (recompute s).windows = s.windows ∧
    (recompute s).sched = s.sched ∧ (recompute s).loop = s.loop := by
  unfold recompute
  all_goals simp

@[simp] theorem becomePresent_frame (x : Nat) (s : State) :
    (becomePresent x s).pending = s.pending ∧ (becomePresent x s).now = s.now ∧
    (becomePresent x s).choices = s.choices ∧ (becomePresent x s).runState = s.runState ∧
    (becomePresent x s).image = s.image ∧ (becomePresent x s).finding = s.finding ∧
    (becomePresent x s).lossInputs = s.lossInputs ∧ (becomePresent x s).hops = s.hops ∧
    (becomePresent x s).paths = s.paths ∧ (becomePresent x s).lines = s.lines ∧
    (becomePresent x s).scanner = s.scanner ∧ (becomePresent x s).sched = s.sched ∧
    (becomePresent x s).loop = s.loop := by
  unfold becomePresent
  all_goals simp

@[simp] theorem clearMisses_frame (x : Nat) (s : State) :
    (clearMisses x s).pending = s.pending ∧ (clearMisses x s).now = s.now ∧
    (clearMisses x s).choices = s.choices ∧ (clearMisses x s).runState = s.runState ∧
    (clearMisses x s).image = s.image ∧ (clearMisses x s).finding = s.finding ∧
    (clearMisses x s).lossInputs = s.lossInputs ∧ (clearMisses x s).hops = s.hops ∧
    (clearMisses x s).paths = s.paths ∧ (clearMisses x s).lines = s.lines ∧
    (clearMisses x s).scanner = s.scanner ∧ (clearMisses x s).probes = s.probes ∧
    (clearMisses x s).windows = s.windows ∧ (clearMisses x s).sched = s.sched ∧
    (clearMisses x s).loop = s.loop ∧ (clearMisses x s).ctl = s.ctl := by
  unfold clearMisses
  all_goals simp

@[simp] theorem reportReceipt_frame (x : Nat) (s : State) :
    (reportReceipt x s).pending = s.pending ∧ (reportReceipt x s).now = s.now ∧
    (reportReceipt x s).choices = s.choices ∧ (reportReceipt x s).runState = s.runState ∧
    (reportReceipt x s).image = s.image ∧ (reportReceipt x s).finding = s.finding ∧
    (reportReceipt x s).lossInputs = s.lossInputs ∧ (reportReceipt x s).hops = s.hops ∧
    (reportReceipt x s).paths = s.paths ∧ (reportReceipt x s).lines = s.lines ∧
    (reportReceipt x s).scanner = s.scanner ∧ (reportReceipt x s).sched = s.sched ∧
    (reportReceipt x s).loop = s.loop := by
  unfold reportReceipt
  repeat' split
  all_goals simp

@[simp] theorem becomeAbsent_frame (x : Nat) (s : State) :
    (becomeAbsent x s).pending = s.pending ∧ (becomeAbsent x s).now = s.now ∧
    (becomeAbsent x s).choices = s.choices ∧ (becomeAbsent x s).runState = s.runState ∧
    (becomeAbsent x s).image = s.image ∧ (becomeAbsent x s).finding = s.finding ∧
    (becomeAbsent x s).lossInputs = s.lossInputs ∧ (becomeAbsent x s).hops = s.hops ∧
    (becomeAbsent x s).paths = s.paths ∧ (becomeAbsent x s).lines = s.lines ∧
    (becomeAbsent x s).scanner = s.scanner ∧ (becomeAbsent x s).sched = s.sched ∧
    (becomeAbsent x s).loop = s.loop := by
  unfold becomeAbsent
  all_goals simp

@[simp] theorem raiseMisses_frame (x : Nat) (s : State) :
    (raiseMisses x s).pending = s.pending ∧ (raiseMisses x s).now = s.now ∧
    (raiseMisses x s).choices = s.choices ∧ (raiseMisses x s).runState = s.runState ∧
    (raiseMisses x s).image = s.image ∧ (raiseMisses x s).finding = s.finding ∧
    (raiseMisses x s).lossInputs = s.lossInputs ∧ (raiseMisses x s).hops = s.hops ∧
    (raiseMisses x s).paths = s.paths ∧ (raiseMisses x s).lines = s.lines ∧
    (raiseMisses x s).scanner = s.scanner ∧ (raiseMisses x s).sched = s.sched ∧
    (raiseMisses x s).loop = s.loop := by
  unfold raiseMisses
  dsimp only
  repeat' split
  all_goals simp

@[simp] theorem feedMiss_frame (b : BestMarks) (attempts : Nat) (s : State) (x : Nat) :
    (feedMiss b attempts s x).pending = s.pending ∧ (feedMiss b attempts s x).now = s.now ∧
    (feedMiss b attempts s x).choices = s.choices ∧ (feedMiss b attempts s x).runState = s.runState ∧
    (feedMiss b attempts s x).image = s.image ∧ (feedMiss b attempts s x).finding = s.finding ∧
    (feedMiss b attempts s x).lossInputs = s.lossInputs ∧ (feedMiss b attempts s x).hops = s.hops ∧
    (feedMiss b attempts s x).paths = s.paths ∧ (feedMiss b attempts s x).lines = s.lines ∧
    (feedMiss b attempts s x).scanner = s.scanner ∧ (feedMiss b attempts s x).sched = s.sched ∧
    (feedMiss b attempts s x).loop = s.loop := by
  unfold feedMiss
  repeat' split
  all_goals simp

@[simp] theorem feedMisses_frame (b : BestMarks) (attempts : Nat) (s : State) :
    (feedMisses b attempts s).pending = s.pending ∧ (feedMisses b attempts s).now = s.now ∧
    (feedMisses b attempts s).choices = s.choices ∧ (feedMisses b attempts s).runState = s.runState ∧
    (feedMisses b attempts s).image = s.image ∧ (feedMisses b attempts s).finding = s.finding ∧
    (feedMisses b attempts s).lossInputs = s.lossInputs ∧ (feedMisses b attempts s).hops = s.hops ∧
    (feedMisses b attempts s).paths = s.paths ∧ (feedMisses b attempts s).lines = s.lines ∧
    (feedMisses b attempts s).scanner = s.scanner ∧ (feedMisses b attempts s).sched = s.sched ∧
    (feedMisses b attempts s).loop = s.loop := by
  unfold feedMisses
  all_goals simp

@[simp] theorem recordAdvert_frame (x : Nat) (a : Advertisement) (s : State) :
    (recordAdvert x a s).pending = s.pending ∧ (recordAdvert x a s).now = s.now ∧
    (recordAdvert x a s).choices = s.choices ∧ (recordAdvert x a s).runState = s.runState ∧
    (recordAdvert x a s).image = s.image ∧ (recordAdvert x a s).finding = s.finding ∧
    (recordAdvert x a s).lossInputs = s.lossInputs ∧ (recordAdvert x a s).hops = s.hops ∧
    (recordAdvert x a s).paths = s.paths ∧ (recordAdvert x a s).lines = s.lines ∧
    (recordAdvert x a s).scanner = s.scanner ∧ (recordAdvert x a s).probes = s.probes ∧
    (recordAdvert x a s).windows = s.windows ∧ (recordAdvert x a s).sched = s.sched ∧
    (recordAdvert x a s).loop = s.loop ∧ (recordAdvert x a s).ctl = s.ctl := by
  unfold recordAdvert
  all_goals simp

@[simp] theorem answerJoin_frame (s : State) :
    (answerJoin s).pending = s.pending ∧ (answerJoin s).now = s.now ∧
    (answerJoin s).choices = s.choices ∧ (answerJoin s).runState = s.runState ∧
    (answerJoin s).image = s.image ∧ (answerJoin s).finding = s.finding ∧
    (answerJoin s).lossInputs = s.lossInputs ∧ (answerJoin s).hops = s.hops ∧
    (answerJoin s).paths = s.paths ∧ (answerJoin s).lines = s.lines ∧
    (answerJoin s).scanner = s.scanner ∧ (answerJoin s).probes = s.probes ∧
    (answerJoin s).windows = s.windows ∧ (answerJoin s).sched = s.sched ∧ (answerJoin s).loop = s.loop ∧
    (answerJoin s).ctl = s.ctl := by
  unfold answerJoin
  repeat' split
  all_goals simp

@[simp] theorem joinRoster_frame (x : Nat) (a : Advertisement) (s : State) :
    (joinRoster x a s).pending = s.pending ∧ (joinRoster x a s).now = s.now ∧
    (joinRoster x a s).choices = s.choices ∧ (joinRoster x a s).runState = s.runState ∧
    (joinRoster x a s).image = s.image ∧ (joinRoster x a s).finding = s.finding ∧
    (joinRoster x a s).lossInputs = s.lossInputs ∧ (joinRoster x a s).hops = s.hops ∧
    (joinRoster x a s).paths = s.paths ∧ (joinRoster x a s).lines = s.lines ∧
    (joinRoster x a s).scanner = s.scanner ∧ (joinRoster x a s).sched = s.sched ∧
    (joinRoster x a s).loop = s.loop := by
  unfold joinRoster
  repeat' split
  all_goals simp

@[simp] theorem takePresent_frame (x : Nat) (a : Advertisement) (s : State) :
    (takePresent x a s).pending = s.pending ∧ (takePresent x a s).now = s.now ∧
    (takePresent x a s).choices = s.choices ∧ (takePresent x a s).runState = s.runState ∧
    (takePresent x a s).image = s.image ∧ (takePresent x a s).finding = s.finding ∧
    (takePresent x a s).lossInputs = s.lossInputs ∧ (takePresent x a s).hops = s.hops ∧
    (takePresent x a s).paths = s.paths ∧ (takePresent x a s).lines = s.lines ∧
    (takePresent x a s).scanner = s.scanner ∧ (takePresent x a s).sched = s.sched ∧
    (takePresent x a s).loop = s.loop := by
  unfold takePresent
  repeat' split
  all_goals simp

@[simp] theorem rejoinAudits_frame (x : Nat) (s : State) :
    (rejoinAudits x s).pending = s.pending ∧ (rejoinAudits x s).now = s.now ∧
    (rejoinAudits x s).choices = s.choices ∧ (rejoinAudits x s).runState = s.runState ∧
    (rejoinAudits x s).image = s.image ∧ (rejoinAudits x s).finding = s.finding ∧
    (rejoinAudits x s).lossInputs = s.lossInputs ∧ (rejoinAudits x s).hops = s.hops ∧
    (rejoinAudits x s).lines = s.lines ∧ (rejoinAudits x s).scanner = s.scanner ∧
    (rejoinAudits x s).probes = s.probes ∧ (rejoinAudits x s).windows = s.windows ∧
    (rejoinAudits x s).loop = s.loop ∧ (rejoinAudits x s).roster = s.roster ∧
    (rejoinAudits x s).ctl = s.ctl := by
  unfold rejoinAudits
  all_goals simp

@[simp] theorem takeJoin_frame (x : Nat) (a : Advertisement) (s : State) :
    (takeJoin x a s).pending = s.pending ∧ (takeJoin x a s).now = s.now ∧
    (takeJoin x a s).choices = s.choices ∧ (takeJoin x a s).runState = s.runState ∧
    (takeJoin x a s).image = s.image ∧ (takeJoin x a s).finding = s.finding ∧
    (takeJoin x a s).lossInputs = s.lossInputs ∧ (takeJoin x a s).hops = s.hops ∧
    (takeJoin x a s).lines = s.lines ∧ (takeJoin x a s).scanner = s.scanner ∧
    (takeJoin x a s).loop = s.loop := by
  unfold takeJoin
  all_goals simp

@[simp] theorem joinOutcome_frame (s : State) :
    (joinOutcome s).pending = s.pending ∧ (joinOutcome s).now = s.now ∧
    (joinOutcome s).choices = s.choices ∧ (joinOutcome s).runState = s.runState ∧
    (joinOutcome s).image = s.image ∧ (joinOutcome s).finding = s.finding ∧
    (joinOutcome s).lossInputs = s.lossInputs ∧ (joinOutcome s).hops = s.hops ∧
    (joinOutcome s).paths = s.paths ∧ (joinOutcome s).lines = s.lines ∧
    (joinOutcome s).scanner = s.scanner ∧ (joinOutcome s).windows = s.windows ∧
    (joinOutcome s).sched = s.sched ∧ (joinOutcome s).loop = s.loop := by
  unfold joinOutcome
  repeat' split
  all_goals simp

@[simp] theorem resetRoster_frame (s : State) :
    (resetRoster s).pending = s.pending ∧ (resetRoster s).now = s.now ∧
    (resetRoster s).choices = s.choices ∧ (resetRoster s).runState = s.runState ∧
    (resetRoster s).image = s.image ∧ (resetRoster s).finding = s.finding ∧
    (resetRoster s).lossInputs = s.lossInputs ∧ (resetRoster s).hops = s.hops ∧
    (resetRoster s).paths = s.paths ∧ (resetRoster s).lines = s.lines ∧
    (resetRoster s).scanner = s.scanner ∧ (resetRoster s).probes = s.probes ∧
    (resetRoster s).windows = s.windows ∧ (resetRoster s).sched = s.sched ∧
    (resetRoster s).loop = s.loop ∧ (resetRoster s).ctl = s.ctl := by
  unfold resetRoster
  simp

@[simp] theorem keepPresent_frame (s : State) :
    (keepPresent s).pending = s.pending ∧ (keepPresent s).now = s.now ∧
    (keepPresent s).choices = s.choices ∧ (keepPresent s).runState = s.runState ∧
    (keepPresent s).image = s.image ∧ (keepPresent s).finding = s.finding ∧
    (keepPresent s).lossInputs = s.lossInputs ∧ (keepPresent s).hops = s.hops ∧
    (keepPresent s).paths = s.paths ∧ (keepPresent s).lines = s.lines ∧
    (keepPresent s).scanner = s.scanner ∧ (keepPresent s).probes = s.probes ∧
    (keepPresent s).windows = s.windows ∧ (keepPresent s).sched = s.sched ∧
    (keepPresent s).loop = s.loop ∧ (keepPresent s).ctl = s.ctl := by
  unfold keepPresent
  repeat' split
  all_goals simp

/-! ### Machine/Scanner.lean -/

@[simp] theorem changeScanner_frame (f : TagScanner → TagScanner) (s : State) :
    (changeScanner f s).pending = s.pending ∧ (changeScanner f s).now = s.now ∧
    (changeScanner f s).choices = s.choices ∧ (changeScanner f s).runState = s.runState ∧
    (changeScanner f s).image = s.image ∧ (changeScanner f s).finding = s.finding ∧
    (changeScanner f s).lossInputs = s.lossInputs ∧ (changeScanner f s).hops = s.hops ∧
    (changeScanner f s).paths = s.paths ∧ (changeScanner f s).lines = s.lines ∧
    (changeScanner f s).probes = s.probes ∧ (changeScanner f s).windows = s.windows ∧
    (changeScanner f s).sched = s.sched ∧ (changeScanner f s).loop = s.loop ∧
    (changeScanner f s).roster = s.roster ∧ (changeScanner f s).ctl = s.ctl := by
  unfold changeScanner
  all_goals simp

@[simp] theorem setLatch_frame (c : Nat) (s : State) :
    (setLatch c s).pending = s.pending ∧ (setLatch c s).now = s.now ∧
    (setLatch c s).choices = s.choices ∧ (setLatch c s).runState = s.runState ∧
    (setLatch c s).image = s.image ∧ (setLatch c s).finding = s.finding ∧
    (setLatch c s).lossInputs = s.lossInputs ∧ (setLatch c s).paths = s.paths ∧
    (setLatch c s).lines = s.lines ∧ (setLatch c s).scanner = s.scanner ∧
    (setLatch c s).probes = s.probes ∧ (setLatch c s).windows = s.windows ∧
    (setLatch c s).sched = s.sched ∧ (setLatch c s).loop = s.loop ∧ (setLatch c s).roster = s.roster ∧
    (setLatch c s).ctl = s.ctl := by
  unfold setLatch
  all_goals simp

@[simp] theorem raiseStray_frame (e : HopEntry) (k : StrayKind) (p : Nat) (s : State) :
    (raiseStray e k p s).pending = s.pending ∧ (raiseStray e k p s).now = s.now ∧
    (raiseStray e k p s).choices = s.choices ∧ (raiseStray e k p s).runState = s.runState ∧
    (raiseStray e k p s).image = s.image ∧ (raiseStray e k p s).finding = s.finding ∧
    (raiseStray e k p s).lossInputs = s.lossInputs ∧ (raiseStray e k p s).lines = s.lines ∧
    (raiseStray e k p s).probes = s.probes ∧ (raiseStray e k p s).windows = s.windows ∧
    (raiseStray e k p s).loop = s.loop ∧ (raiseStray e k p s).roster = s.roster ∧
    (raiseStray e k p s).ctl = s.ctl := by
  unfold raiseStray
  repeat' split
  all_goals simp

@[simp] theorem checkIdle_frame (p : Nat) (t : Tag) (s : State) :
    (checkIdle p t s).pending = s.pending ∧ (checkIdle p t s).now = s.now ∧
    (checkIdle p t s).choices = s.choices ∧ (checkIdle p t s).runState = s.runState ∧
    (checkIdle p t s).image = s.image ∧ (checkIdle p t s).finding = s.finding ∧
    (checkIdle p t s).lossInputs = s.lossInputs ∧ (checkIdle p t s).lines = s.lines ∧
    (checkIdle p t s).probes = s.probes ∧ (checkIdle p t s).windows = s.windows ∧
    (checkIdle p t s).loop = s.loop ∧ (checkIdle p t s).roster = s.roster ∧
    (checkIdle p t s).ctl = s.ctl := by
  unfold checkIdle
  repeat' split
  all_goals simp

@[simp] theorem setMissing_frame (c : Nat) (n : Nat) (s : State) :
    (setMissing c n s).pending = s.pending ∧ (setMissing c n s).now = s.now ∧
    (setMissing c n s).choices = s.choices ∧ (setMissing c n s).runState = s.runState ∧
    (setMissing c n s).image = s.image ∧ (setMissing c n s).finding = s.finding ∧
    (setMissing c n s).lossInputs = s.lossInputs ∧ (setMissing c n s).paths = s.paths ∧
    (setMissing c n s).lines = s.lines ∧ (setMissing c n s).scanner = s.scanner ∧
    (setMissing c n s).probes = s.probes ∧ (setMissing c n s).windows = s.windows ∧
    (setMissing c n s).sched = s.sched ∧ (setMissing c n s).loop = s.loop ∧
    (setMissing c n s).roster = s.roster ∧ (setMissing c n s).ctl = s.ctl := by
  unfold setMissing
  all_goals simp

@[simp] theorem countMissing_frame (e : HopEntry) (p : Nat) (s : State) :
    (countMissing e p s).pending = s.pending ∧ (countMissing e p s).now = s.now ∧
    (countMissing e p s).choices = s.choices ∧ (countMissing e p s).runState = s.runState ∧
    (countMissing e p s).image = s.image ∧ (countMissing e p s).finding = s.finding ∧
    (countMissing e p s).lossInputs = s.lossInputs ∧ (countMissing e p s).lines = s.lines ∧
    (countMissing e p s).probes = s.probes ∧ (countMissing e p s).windows = s.windows ∧
    (countMissing e p s).loop = s.loop ∧ (countMissing e p s).roster = s.roster ∧
    (countMissing e p s).ctl = s.ctl := by
  unfold countMissing
  repeat' split
  all_goals simp

@[simp] theorem updateMissing_frame (r : DwellResult) (s : State) (c : Nat) :
    (updateMissing r s c).pending = s.pending ∧ (updateMissing r s c).now = s.now ∧
    (updateMissing r s c).choices = s.choices ∧ (updateMissing r s c).runState = s.runState ∧
    (updateMissing r s c).image = s.image ∧ (updateMissing r s c).finding = s.finding ∧
    (updateMissing r s c).lossInputs = s.lossInputs ∧ (updateMissing r s c).lines = s.lines ∧
    (updateMissing r s c).probes = s.probes ∧ (updateMissing r s c).windows = s.windows ∧
    (updateMissing r s c).loop = s.loop ∧ (updateMissing r s c).roster = s.roster ∧
    (updateMissing r s c).ctl = s.ctl := by
  unfold updateMissing
  repeat' split
  all_goals simp

@[simp] theorem reportPort_frame (w : WatchEntry) (p : Nat) (s : State) :
    (reportPort w p s).pending = s.pending ∧ (reportPort w p s).now = s.now ∧
    (reportPort w p s).choices = s.choices ∧ (reportPort w p s).runState = s.runState ∧
    (reportPort w p s).image = s.image ∧ (reportPort w p s).finding = s.finding ∧
    (reportPort w p s).lossInputs = s.lossInputs ∧ (reportPort w p s).hops = s.hops ∧
    (reportPort w p s).paths = s.paths ∧ (reportPort w p s).lines = s.lines ∧
    (reportPort w p s).probes = s.probes ∧ (reportPort w p s).windows = s.windows ∧
    (reportPort w p s).sched = s.sched ∧ (reportPort w p s).loop = s.loop ∧
    (reportPort w p s).roster = s.roster ∧ (reportPort w p s).ctl = s.ctl := by
  unfold reportPort
  all_goals simp

@[simp] theorem backlogItem_frame (w : WatchEntry) (p : Nat) (t : Tag) (s : State) :
    (backlogItem w p t s).pending = s.pending ∧ (backlogItem w p t s).now = s.now ∧
    (backlogItem w p t s).choices = s.choices ∧ (backlogItem w p t s).runState = s.runState ∧
    (backlogItem w p t s).image = s.image ∧ (backlogItem w p t s).finding = s.finding ∧
    (backlogItem w p t s).lossInputs = s.lossInputs ∧ (backlogItem w p t s).hops = s.hops ∧
    (backlogItem w p t s).paths = s.paths ∧ (backlogItem w p t s).lines = s.lines ∧
    (backlogItem w p t s).probes = s.probes ∧ (backlogItem w p t s).windows = s.windows ∧
    (backlogItem w p t s).sched = s.sched ∧ (backlogItem w p t s).loop = s.loop ∧
    (backlogItem w p t s).roster = s.roster ∧ (backlogItem w p t s).ctl = s.ctl := by
  unfold backlogItem
  repeat' split
  all_goals simp

@[simp] theorem watchTag_frame (p : Nat) (t : Tag) (s : State) :
    (watchTag p t s).pending = s.pending ∧ (watchTag p t s).now = s.now ∧
    (watchTag p t s).choices = s.choices ∧ (watchTag p t s).runState = s.runState ∧
    (watchTag p t s).image = s.image ∧ (watchTag p t s).finding = s.finding ∧
    (watchTag p t s).lossInputs = s.lossInputs ∧ (watchTag p t s).hops = s.hops ∧
    (watchTag p t s).paths = s.paths ∧ (watchTag p t s).lines = s.lines ∧
    (watchTag p t s).probes = s.probes ∧ (watchTag p t s).windows = s.windows ∧
    (watchTag p t s).sched = s.sched ∧ (watchTag p t s).loop = s.loop ∧
    (watchTag p t s).roster = s.roster ∧ (watchTag p t s).ctl = s.ctl := by
  unfold watchTag
  repeat' split
  all_goals simp

@[simp] theorem classifyProbe_frame (p : Nat) (t : Tag) (s : State) :
    (classifyProbe p t s).pending = s.pending ∧ (classifyProbe p t s).now = s.now ∧
    (classifyProbe p t s).choices = s.choices ∧ (classifyProbe p t s).runState = s.runState ∧
    (classifyProbe p t s).image = s.image ∧ (classifyProbe p t s).finding = s.finding ∧
    (classifyProbe p t s).lossInputs = s.lossInputs ∧ (classifyProbe p t s).loop = s.loop ∧
    (classifyProbe p t s).roster = s.roster := by
  unfold classifyProbe
  repeat' split
  all_goals simp

@[simp] theorem classifyTag_frame (p : Nat) (s : State) (t : Tag) :
    (classifyTag p s t).pending = s.pending ∧ (classifyTag p s t).now = s.now ∧
    (classifyTag p s t).choices = s.choices ∧ (classifyTag p s t).runState = s.runState ∧
    (classifyTag p s t).image = s.image ∧ (classifyTag p s t).finding = s.finding ∧
    (classifyTag p s t).lossInputs = s.lossInputs ∧ (classifyTag p s t).loop = s.loop ∧
    (classifyTag p s t).roster = s.roster := by
  unfold classifyTag
  repeat' split
  all_goals simp

@[simp] theorem handleDwell_frame (r : DwellResult) (s : State) :
    (handleDwell r s).pending = s.pending ∧ (handleDwell r s).now = s.now ∧
    (handleDwell r s).choices = s.choices ∧ (handleDwell r s).runState = s.runState ∧
    (handleDwell r s).image = s.image ∧ (handleDwell r s).finding = s.finding ∧
    (handleDwell r s).lossInputs = s.lossInputs ∧ (handleDwell r s).loop = s.loop ∧
    (handleDwell r s).roster = s.roster := by
  unfold handleDwell
  all_goals simp

@[simp] theorem startDwell_frame (p : Nat) (outOfTurn : Bool) (s : State) :
    (startDwell p outOfTurn s).pending = s.pending ∧ (startDwell p outOfTurn s).now = s.now ∧
    (startDwell p outOfTurn s).choices = s.choices ∧ (startDwell p outOfTurn s).runState = s.runState ∧
    (startDwell p outOfTurn s).image = s.image ∧ (startDwell p outOfTurn s).finding = s.finding ∧
    (startDwell p outOfTurn s).lossInputs = s.lossInputs ∧ (startDwell p outOfTurn s).hops = s.hops ∧
    (startDwell p outOfTurn s).paths = s.paths ∧ (startDwell p outOfTurn s).lines = s.lines ∧
    (startDwell p outOfTurn s).probes = s.probes ∧ (startDwell p outOfTurn s).windows = s.windows ∧
    (startDwell p outOfTurn s).sched = s.sched ∧ (startDwell p outOfTurn s).loop = s.loop ∧
    (startDwell p outOfTurn s).roster = s.roster ∧ (startDwell p outOfTurn s).ctl = s.ctl := by
  unfold startDwell
  repeat' split
  all_goals simp

@[simp] theorem beginDwell_frame (s : State) :
    (beginDwell s).pending = s.pending ∧ (beginDwell s).now = s.now ∧
    (beginDwell s).choices = s.choices ∧ (beginDwell s).runState = s.runState ∧
    (beginDwell s).image = s.image ∧ (beginDwell s).finding = s.finding ∧
    (beginDwell s).lossInputs = s.lossInputs ∧ (beginDwell s).hops = s.hops ∧
    (beginDwell s).paths = s.paths ∧ (beginDwell s).lines = s.lines ∧ (beginDwell s).probes = s.probes ∧
    (beginDwell s).windows = s.windows ∧ (beginDwell s).sched = s.sched ∧ (beginDwell s).loop = s.loop ∧
    (beginDwell s).roster = s.roster ∧ (beginDwell s).ctl = s.ctl := by
  unfold beginDwell
  repeat' split
  all_goals simp

@[simp] theorem answerDwell_frame (d : Dwell) (r : DwellResult) (s : State) :
    (answerDwell d r s).pending = s.pending ∧ (answerDwell d r s).now = s.now ∧
    (answerDwell d r s).choices = s.choices ∧ (answerDwell d r s).runState = s.runState ∧
    (answerDwell d r s).image = s.image ∧ (answerDwell d r s).finding = s.finding ∧
    (answerDwell d r s).lossInputs = s.lossInputs ∧ (answerDwell d r s).hops = s.hops ∧
    (answerDwell d r s).paths = s.paths ∧ (answerDwell d r s).lines = s.lines ∧
    (answerDwell d r s).scanner = s.scanner ∧ (answerDwell d r s).probes = s.probes ∧
    (answerDwell d r s).windows = s.windows ∧ (answerDwell d r s).sched = s.sched ∧
    (answerDwell d r s).loop = s.loop ∧ (answerDwell d r s).roster = s.roster := by
  unfold answerDwell
  repeat' split
  all_goals simp

@[simp] theorem dropExpired_frame (s : State) :
    (dropExpired s).pending = s.pending ∧ (dropExpired s).now = s.now ∧
    (dropExpired s).choices = s.choices ∧ (dropExpired s).runState = s.runState ∧
    (dropExpired s).image = s.image ∧ (dropExpired s).finding = s.finding ∧
    (dropExpired s).lossInputs = s.lossInputs ∧ (dropExpired s).hops = s.hops ∧
    (dropExpired s).paths = s.paths ∧ (dropExpired s).lines = s.lines ∧
    (dropExpired s).probes = s.probes ∧ (dropExpired s).windows = s.windows ∧
    (dropExpired s).sched = s.sched ∧ (dropExpired s).loop = s.loop ∧
    (dropExpired s).roster = s.roster ∧ (dropExpired s).ctl = s.ctl := by
  unfold dropExpired
  all_goals simp

@[simp] theorem endDwell_frame (d : Dwell) (found : List Tag) (s : State) :
    (endDwell d found s).pending = s.pending ∧ (endDwell d found s).choices = s.choices ∧
    (endDwell d found s).runState = s.runState ∧ (endDwell d found s).image = s.image ∧
    (endDwell d found s).finding = s.finding ∧ (endDwell d found s).lossInputs = s.lossInputs ∧
    (endDwell d found s).loop = s.loop ∧ (endDwell d found s).roster = s.roster := by
  unfold endDwell
  all_goals simp

@[simp] theorem pendAlarm_frame (a : Alarm) (s : State) :
    (pendAlarm a s).pending = s.pending ∧ (pendAlarm a s).now = s.now ∧
    (pendAlarm a s).choices = s.choices ∧ (pendAlarm a s).runState = s.runState ∧
    (pendAlarm a s).image = s.image ∧ (pendAlarm a s).finding = s.finding ∧
    (pendAlarm a s).lossInputs = s.lossInputs ∧ (pendAlarm a s).hops = s.hops ∧
    (pendAlarm a s).paths = s.paths ∧ (pendAlarm a s).lines = s.lines ∧
    (pendAlarm a s).probes = s.probes ∧ (pendAlarm a s).windows = s.windows ∧
    (pendAlarm a s).sched = s.sched ∧ (pendAlarm a s).loop = s.loop ∧
    (pendAlarm a s).roster = s.roster ∧ (pendAlarm a s).ctl = s.ctl := by
  unfold pendAlarm
  all_goals simp

@[simp] theorem raiseSpanAlarm_frame (k : AlarmKind) (p : Nat) (s : State) :
    (raiseSpanAlarm k p s).pending = s.pending ∧ (raiseSpanAlarm k p s).now = s.now ∧
    (raiseSpanAlarm k p s).choices = s.choices ∧ (raiseSpanAlarm k p s).runState = s.runState ∧
    (raiseSpanAlarm k p s).image = s.image ∧ (raiseSpanAlarm k p s).finding = s.finding ∧
    (raiseSpanAlarm k p s).lossInputs = s.lossInputs ∧ (raiseSpanAlarm k p s).hops = s.hops ∧
    (raiseSpanAlarm k p s).paths = s.paths ∧ (raiseSpanAlarm k p s).lines = s.lines ∧
    (raiseSpanAlarm k p s).probes = s.probes ∧ (raiseSpanAlarm k p s).windows = s.windows ∧
    (raiseSpanAlarm k p s).sched = s.sched ∧ (raiseSpanAlarm k p s).loop = s.loop ∧
    (raiseSpanAlarm k p s).roster = s.roster ∧ (raiseSpanAlarm k p s).ctl = s.ctl := by
  unfold raiseSpanAlarm
  repeat' split
  all_goals simp

@[simp] theorem setMonitor_frame (p : Nat) (m : LossMonitor) (s : State) :
    (setMonitor p m s).pending = s.pending ∧ (setMonitor p m s).now = s.now ∧
    (setMonitor p m s).choices = s.choices ∧ (setMonitor p m s).runState = s.runState ∧
    (setMonitor p m s).image = s.image ∧ (setMonitor p m s).finding = s.finding ∧
    (setMonitor p m s).lossInputs = s.lossInputs ∧ (setMonitor p m s).hops = s.hops ∧
    (setMonitor p m s).paths = s.paths ∧ (setMonitor p m s).lines = s.lines ∧
    (setMonitor p m s).probes = s.probes ∧ (setMonitor p m s).windows = s.windows ∧
    (setMonitor p m s).sched = s.sched ∧ (setMonitor p m s).loop = s.loop ∧
    (setMonitor p m s).roster = s.roster ∧ (setMonitor p m s).ctl = s.ctl := by
  unfold setMonitor
  all_goals simp

@[simp] theorem enterLoss_frame (p : Nat) (s : State) :
    (enterLoss p s).pending = s.pending ∧ (enterLoss p s).now = s.now ∧
    (enterLoss p s).choices = s.choices ∧ (enterLoss p s).runState = s.runState ∧
    (enterLoss p s).image = s.image ∧ (enterLoss p s).finding = s.finding ∧
    (enterLoss p s).lossInputs = s.lossInputs ∧ (enterLoss p s).hops = s.hops ∧
    (enterLoss p s).paths = s.paths ∧ (enterLoss p s).lines = s.lines ∧
    (enterLoss p s).probes = s.probes ∧ (enterLoss p s).windows = s.windows ∧
    (enterLoss p s).sched = s.sched ∧ (enterLoss p s).loop = s.loop ∧
    (enterLoss p s).roster = s.roster ∧ (enterLoss p s).ctl = s.ctl := by
  unfold enterLoss
  all_goals simp

@[simp] theorem enterClear_frame (p : Nat) (s : State) :
    (enterClear p s).pending = s.pending ∧ (enterClear p s).now = s.now ∧
    (enterClear p s).choices = s.choices ∧ (enterClear p s).runState = s.runState ∧
    (enterClear p s).image = s.image ∧ (enterClear p s).finding = s.finding ∧
    (enterClear p s).lossInputs = s.lossInputs ∧ (enterClear p s).hops = s.hops ∧
    (enterClear p s).paths = s.paths ∧ (enterClear p s).lines = s.lines ∧
    (enterClear p s).probes = s.probes ∧ (enterClear p s).windows = s.windows ∧
    (enterClear p s).sched = s.sched ∧ (enterClear p s).loop = s.loop ∧
    (enterClear p s).roster = s.roster ∧ (enterClear p s).ctl = s.ctl := by
  unfold enterClear
  all_goals simp

@[simp] theorem monitorAsserted_frame (p : Nat) (s : State) :
    (monitorAsserted p s).pending = s.pending ∧ (monitorAsserted p s).now = s.now ∧
    (monitorAsserted p s).choices = s.choices ∧ (monitorAsserted p s).runState = s.runState ∧
    (monitorAsserted p s).image = s.image ∧ (monitorAsserted p s).finding = s.finding ∧
    (monitorAsserted p s).lossInputs = s.lossInputs ∧ (monitorAsserted p s).hops = s.hops ∧
    (monitorAsserted p s).paths = s.paths ∧ (monitorAsserted p s).lines = s.lines ∧
    (monitorAsserted p s).probes = s.probes ∧ (monitorAsserted p s).windows = s.windows ∧
    (monitorAsserted p s).sched = s.sched ∧ (monitorAsserted p s).loop = s.loop ∧
    (monitorAsserted p s).roster = s.roster ∧ (monitorAsserted p s).ctl = s.ctl := by
  unfold monitorAsserted
  repeat' split
  all_goals simp

@[simp] theorem monitorReleased_frame (p : Nat) (s : State) :
    (monitorReleased p s).pending = s.pending ∧ (monitorReleased p s).now = s.now ∧
    (monitorReleased p s).choices = s.choices ∧ (monitorReleased p s).runState = s.runState ∧
    (monitorReleased p s).image = s.image ∧ (monitorReleased p s).finding = s.finding ∧
    (monitorReleased p s).lossInputs = s.lossInputs ∧ (monitorReleased p s).hops = s.hops ∧
    (monitorReleased p s).paths = s.paths ∧ (monitorReleased p s).lines = s.lines ∧
    (monitorReleased p s).probes = s.probes ∧ (monitorReleased p s).windows = s.windows ∧
    (monitorReleased p s).sched = s.sched ∧ (monitorReleased p s).loop = s.loop ∧
    (monitorReleased p s).roster = s.roster ∧ (monitorReleased p s).ctl = s.ctl := by
  unfold monitorReleased
  repeat' split
  all_goals simp

@[simp] theorem writeWatch_frame (w : WatchEntry) (s : State) :
    (writeWatch w s).pending = s.pending ∧ (writeWatch w s).now = s.now ∧
    (writeWatch w s).choices = s.choices ∧ (writeWatch w s).runState = s.runState ∧
    (writeWatch w s).image = s.image ∧ (writeWatch w s).finding = s.finding ∧
    (writeWatch w s).lossInputs = s.lossInputs ∧ (writeWatch w s).hops = s.hops ∧
    (writeWatch w s).paths = s.paths ∧ (writeWatch w s).lines = s.lines ∧
    (writeWatch w s).probes = s.probes ∧ (writeWatch w s).windows = s.windows ∧
    (writeWatch w s).sched = s.sched ∧ (writeWatch w s).loop = s.loop ∧
    (writeWatch w s).roster = s.roster ∧ (writeWatch w s).ctl = s.ctl := by
  unfold writeWatch
  all_goals simp

@[simp] theorem resetScanner_frame (s : State) :
    (resetScanner s).pending = s.pending ∧ (resetScanner s).now = s.now ∧
    (resetScanner s).choices = s.choices ∧ (resetScanner s).runState = s.runState ∧
    (resetScanner s).image = s.image ∧ (resetScanner s).finding = s.finding ∧
    (resetScanner s).lossInputs = s.lossInputs ∧ (resetScanner s).hops = s.hops ∧
    (resetScanner s).paths = s.paths ∧ (resetScanner s).lines = s.lines ∧
    (resetScanner s).probes = s.probes ∧ (resetScanner s).windows = s.windows ∧
    (resetScanner s).sched = s.sched ∧ (resetScanner s).loop = s.loop ∧
    (resetScanner s).roster = s.roster ∧ (resetScanner s).ctl = s.ctl := by
  unfold resetScanner
  all_goals simp

/-! ### Machine/Delivery.lean -/

@[simp] theorem modifyEntry_frame (n : Nat) (f : Outstanding → Outstanding) (s : State) :
    (modifyEntry n f s).pending = s.pending ∧ (modifyEntry n f s).now = s.now ∧
    (modifyEntry n f s).choices = s.choices ∧ (modifyEntry n f s).runState = s.runState ∧
    (modifyEntry n f s).image = s.image ∧ (modifyEntry n f s).finding = s.finding ∧
    (modifyEntry n f s).lossInputs = s.lossInputs ∧ (modifyEntry n f s).hops = s.hops ∧
    (modifyEntry n f s).paths = s.paths ∧ (modifyEntry n f s).lines = s.lines ∧
    (modifyEntry n f s).scanner = s.scanner ∧ (modifyEntry n f s).probes = s.probes ∧
    (modifyEntry n f s).windows = s.windows ∧ (modifyEntry n f s).sched = s.sched ∧
    (modifyEntry n f s).roster = s.roster ∧ (modifyEntry n f s).ctl = s.ctl := by
  unfold modifyEntry
  all_goals simp

@[simp] theorem linger_frame (n : Nat) (s : State) :
    (linger n s).pending = s.pending ∧ (linger n s).now = s.now ∧ (linger n s).choices = s.choices ∧
    (linger n s).runState = s.runState ∧ (linger n s).image = s.image ∧
    (linger n s).finding = s.finding ∧ (linger n s).lossInputs = s.lossInputs ∧
    (linger n s).hops = s.hops ∧ (linger n s).paths = s.paths ∧ (linger n s).lines = s.lines ∧
    (linger n s).scanner = s.scanner ∧ (linger n s).probes = s.probes ∧
    (linger n s).windows = s.windows ∧ (linger n s).sched = s.sched ∧ (linger n s).roster = s.roster ∧
    (linger n s).ctl = s.ctl := by
  unfold linger
  all_goals simp

@[simp] theorem leaveOutstanding_frame (n : Nat) (s : State) :
    (leaveOutstanding n s).pending = s.pending ∧ (leaveOutstanding n s).now = s.now ∧
    (leaveOutstanding n s).choices = s.choices ∧ (leaveOutstanding n s).runState = s.runState ∧
    (leaveOutstanding n s).image = s.image ∧ (leaveOutstanding n s).finding = s.finding ∧
    (leaveOutstanding n s).lossInputs = s.lossInputs ∧ (leaveOutstanding n s).hops = s.hops ∧
    (leaveOutstanding n s).paths = s.paths ∧ (leaveOutstanding n s).lines = s.lines ∧
    (leaveOutstanding n s).scanner = s.scanner ∧ (leaveOutstanding n s).probes = s.probes ∧
    (leaveOutstanding n s).windows = s.windows ∧ (leaveOutstanding n s).sched = s.sched ∧
    (leaveOutstanding n s).roster = s.roster ∧ (leaveOutstanding n s).ctl = s.ctl := by
  unfold leaveOutstanding
  all_goals simp

@[simp] theorem handOutcome_frame (r : Request) (e : Ending) (b : BestMarks) (s : State) :
    (handOutcome r e b s).pending = s.pending ∧ (handOutcome r e b s).now = s.now ∧
    (handOutcome r e b s).choices = s.choices ∧ (handOutcome r e b s).runState = s.runState ∧
    (handOutcome r e b s).image = s.image ∧ (handOutcome r e b s).finding = s.finding ∧
    (handOutcome r e b s).lossInputs = s.lossInputs ∧ (handOutcome r e b s).hops = s.hops ∧
    (handOutcome r e b s).scanner = s.scanner := by
  unfold handOutcome
  repeat' split
  all_goals simp

@[simp] theorem feedOutcome_frame (e : Ending) (b : BestMarks) (attempts : Nat) (s : State) :
    (feedOutcome e b attempts s).pending = s.pending ∧ (feedOutcome e b attempts s).now = s.now ∧
    (feedOutcome e b attempts s).choices = s.choices ∧
    (feedOutcome e b attempts s).runState = s.runState ∧ (feedOutcome e b attempts s).image = s.image ∧
    (feedOutcome e b attempts s).finding = s.finding ∧
    (feedOutcome e b attempts s).lossInputs = s.lossInputs ∧
    (feedOutcome e b attempts s).hops = s.hops ∧ (feedOutcome e b attempts s).paths = s.paths ∧
    (feedOutcome e b attempts s).lines = s.lines ∧ (feedOutcome e b attempts s).scanner = s.scanner ∧
    (feedOutcome e b attempts s).sched = s.sched ∧ (feedOutcome e b attempts s).loop = s.loop := by
  unfold feedOutcome
  repeat' split
  all_goals simp

@[simp] theorem giveOutcome_frame (o : Outstanding) (e : Ending) (s : State) :
    (giveOutcome o e s).pending = s.pending ∧ (giveOutcome o e s).now = s.now ∧
    (giveOutcome o e s).choices = s.choices ∧ (giveOutcome o e s).runState = s.runState ∧
    (giveOutcome o e s).image = s.image ∧ (giveOutcome o e s).finding = s.finding ∧
    (giveOutcome o e s).lossInputs = s.lossInputs ∧ (giveOutcome o e s).hops = s.hops ∧
    (giveOutcome o e s).scanner = s.scanner := by
  unfold giveOutcome
  all_goals simp

@[simp] theorem waitRetry_frame (n : Nat) (s : State) :
    (waitRetry n s).pending = s.pending ∧ (waitRetry n s).now = s.now ∧
    (waitRetry n s).choices = s.choices ∧ (waitRetry n s).runState = s.runState ∧
    (waitRetry n s).image = s.image ∧ (waitRetry n s).finding = s.finding ∧
    (waitRetry n s).lossInputs = s.lossInputs ∧ (waitRetry n s).hops = s.hops ∧
    (waitRetry n s).paths = s.paths ∧ (waitRetry n s).lines = s.lines ∧
    (waitRetry n s).scanner = s.scanner ∧ (waitRetry n s).probes = s.probes ∧
    (waitRetry n s).windows = s.windows ∧ (waitRetry n s).sched = s.sched ∧
    (waitRetry n s).roster = s.roster ∧ (waitRetry n s).ctl = s.ctl := by
  unfold waitRetry
  all_goals simp

@[simp] theorem endAttempt_frame (o : Outstanding) (s : State) :
    (endAttempt o s).pending = s.pending ∧ (endAttempt o s).now = s.now ∧
    (endAttempt o s).choices = s.choices ∧ (endAttempt o s).runState = s.runState ∧
    (endAttempt o s).image = s.image ∧ (endAttempt o s).finding = s.finding ∧
    (endAttempt o s).lossInputs = s.lossInputs ∧ (endAttempt o s).hops = s.hops ∧
    (endAttempt o s).scanner = s.scanner := by
  unfold endAttempt
  repeat' split
  all_goals simp

@[simp] theorem afterReturn_frame (o : Outstanding) (s : State) :
    (afterReturn o s).pending = s.pending ∧ (afterReturn o s).now = s.now ∧
    (afterReturn o s).choices = s.choices ∧ (afterReturn o s).runState = s.runState ∧
    (afterReturn o s).image = s.image ∧ (afterReturn o s).finding = s.finding ∧
    (afterReturn o s).lossInputs = s.lossInputs ∧ (afterReturn o s).hops = s.hops ∧
    (afterReturn o s).scanner = s.scanner := by
  unfold afterReturn
  repeat' split
  all_goals simp

@[simp] theorem returnCopy_frame (o : Outstanding) (m : BestMarks) (s : State) :
    (returnCopy o m s).pending = s.pending ∧ (returnCopy o m s).now = s.now ∧
    (returnCopy o m s).choices = s.choices ∧ (returnCopy o m s).runState = s.runState ∧
    (returnCopy o m s).image = s.image ∧ (returnCopy o m s).finding = s.finding ∧
    (returnCopy o m s).lossInputs = s.lossInputs ∧ (returnCopy o m s).hops = s.hops ∧
    (returnCopy o m s).scanner = s.scanner := by
  unfold returnCopy
  all_goals simp

@[simp] theorem endEntries_frame (e : Ending) (p : Outstanding → Bool) (s : State) :
    (endEntries e p s).pending = s.pending ∧ (endEntries e p s).now = s.now ∧
    (endEntries e p s).choices = s.choices ∧ (endEntries e p s).runState = s.runState ∧
    (endEntries e p s).image = s.image ∧ (endEntries e p s).finding = s.finding ∧
    (endEntries e p s).lossInputs = s.lossInputs ∧ (endEntries e p s).hops = s.hops ∧
    (endEntries e p s).scanner = s.scanner := by
  unfold endEntries
  all_goals simp

@[simp] theorem loopDown_frame (s : State) :
    (loopDown s).pending = s.pending ∧ (loopDown s).now = s.now ∧ (loopDown s).choices = s.choices ∧
    (loopDown s).runState = s.runState ∧ (loopDown s).image = s.image ∧
    (loopDown s).finding = s.finding ∧ (loopDown s).lossInputs = s.lossInputs ∧
    (loopDown s).hops = s.hops ∧ (loopDown s).scanner = s.scanner := by
  unfold loopDown
  all_goals simp

@[simp] theorem takeReception_frame (s : State) :
    (takeReception s).pending = s.pending ∧ (takeReception s).now = s.now ∧
    (takeReception s).choices = s.choices ∧ (takeReception s).runState = s.runState ∧
    (takeReception s).image = s.image ∧ (takeReception s).finding = s.finding ∧
    (takeReception s).lossInputs = s.lossInputs ∧ (takeReception s).hops = s.hops ∧
    (takeReception s).paths = s.paths ∧ (takeReception s).lines = s.lines ∧
    (takeReception s).scanner = s.scanner ∧ (takeReception s).probes = s.probes ∧
    (takeReception s).windows = s.windows ∧ (takeReception s).sched = s.sched ∧
    (takeReception s).roster = s.roster := by
  unfold takeReception
  repeat' split
  all_goals simp

/-! ### Machine/Loop.lean -/

@[simp] theorem setAcceptance_frame (x : Nat) (a : Option Acceptance) (s : State) :
    (setAcceptance x a s).pending = s.pending ∧ (setAcceptance x a s).now = s.now ∧
    (setAcceptance x a s).choices = s.choices ∧ (setAcceptance x a s).runState = s.runState ∧
    (setAcceptance x a s).image = s.image ∧ (setAcceptance x a s).finding = s.finding ∧
    (setAcceptance x a s).lossInputs = s.lossInputs ∧ (setAcceptance x a s).hops = s.hops ∧
    (setAcceptance x a s).paths = s.paths ∧ (setAcceptance x a s).lines = s.lines ∧
    (setAcceptance x a s).scanner = s.scanner ∧ (setAcceptance x a s).probes = s.probes ∧
    (setAcceptance x a s).windows = s.windows ∧ (setAcceptance x a s).sched = s.sched ∧
    (setAcceptance x a s).loop = s.loop ∧ (setAcceptance x a s).ctl = s.ctl := by
  unfold setAcceptance
  all_goals simp

@[simp] theorem enqueueReceived_frame (x : Nat) (m : Nat) (p : Payload) (s : State) :
    (enqueueReceived x m p s).pending = s.pending ∧ (enqueueReceived x m p s).now = s.now ∧
    (enqueueReceived x m p s).choices = s.choices ∧ (enqueueReceived x m p s).runState = s.runState ∧
    (enqueueReceived x m p s).image = s.image ∧ (enqueueReceived x m p s).finding = s.finding ∧
    (enqueueReceived x m p s).lossInputs = s.lossInputs ∧ (enqueueReceived x m p s).hops = s.hops ∧
    (enqueueReceived x m p s).paths = s.paths ∧ (enqueueReceived x m p s).lines = s.lines ∧
    (enqueueReceived x m p s).scanner = s.scanner ∧ (enqueueReceived x m p s).probes = s.probes ∧
    (enqueueReceived x m p s).windows = s.windows ∧ (enqueueReceived x m p s).sched = s.sched ∧
    (enqueueReceived x m p s).roster = s.roster ∧ (enqueueReceived x m p s).ctl = s.ctl := by
  unfold enqueueReceived
  all_goals simp

@[simp] theorem applyAnswer_frame (x : Nat) (m : Nat) (p : Payload) (a : Answer) (s : State) :
    (applyAnswer x m p a s).pending = s.pending ∧ (applyAnswer x m p a s).now = s.now ∧
    (applyAnswer x m p a s).choices = s.choices ∧ (applyAnswer x m p a s).runState = s.runState ∧
    (applyAnswer x m p a s).image = s.image ∧ (applyAnswer x m p a s).finding = s.finding ∧
    (applyAnswer x m p a s).lossInputs = s.lossInputs ∧ (applyAnswer x m p a s).hops = s.hops ∧
    (applyAnswer x m p a s).paths = s.paths ∧ (applyAnswer x m p a s).lines = s.lines ∧
    (applyAnswer x m p a s).scanner = s.scanner ∧ (applyAnswer x m p a s).probes = s.probes ∧
    (applyAnswer x m p a s).windows = s.windows ∧ (applyAnswer x m p a s).sched = s.sched ∧
    (applyAnswer x m p a s).ctl = s.ctl := by
  unfold applyAnswer
  repeat' split
  all_goals simp

@[simp] theorem forwardCopy_frame (c : Copy) (s : State) :
    (forwardCopy c s).pending = s.pending ∧ (forwardCopy c s).now = s.now ∧
    (forwardCopy c s).choices = s.choices ∧ (forwardCopy c s).runState = s.runState ∧
    (forwardCopy c s).image = s.image ∧ (forwardCopy c s).finding = s.finding ∧
    (forwardCopy c s).lossInputs = s.lossInputs ∧ (forwardCopy c s).hops = s.hops ∧
    (forwardCopy c s).paths = s.paths ∧ (forwardCopy c s).lines = s.lines ∧
    (forwardCopy c s).scanner = s.scanner ∧ (forwardCopy c s).probes = s.probes ∧
    (forwardCopy c s).windows = s.windows ∧ (forwardCopy c s).sched = s.sched ∧
    (forwardCopy c s).roster = s.roster ∧ (forwardCopy c s).ctl = s.ctl := by
  unfold forwardCopy
  all_goals simp

@[simp] theorem acceptNotice_frame (c : Copy) (s : State) :
    (acceptNotice c s).pending = s.pending ∧ (acceptNotice c s).now = s.now ∧
    (acceptNotice c s).choices = s.choices ∧ (acceptNotice c s).runState = s.runState ∧
    (acceptNotice c s).image = s.image ∧ (acceptNotice c s).finding = s.finding ∧
    (acceptNotice c s).lossInputs = s.lossInputs ∧ (acceptNotice c s).hops = s.hops ∧
    (acceptNotice c s).paths = s.paths ∧ (acceptNotice c s).lines = s.lines ∧
    (acceptNotice c s).scanner = s.scanner ∧ (acceptNotice c s).sched = s.sched := by
  unfold acceptNotice
  repeat' split
  all_goals simp

@[simp] theorem passReset_frame (c : Copy) (s : State) :
    (passReset c s).pending = s.pending ∧ (passReset c s).now = s.now ∧
    (passReset c s).choices = s.choices ∧ (passReset c s).runState = s.runState ∧
    (passReset c s).image = s.image ∧ (passReset c s).finding = s.finding ∧
    (passReset c s).lossInputs = s.lossInputs ∧ (passReset c s).hops = s.hops ∧
    (passReset c s).paths = s.paths ∧ (passReset c s).lines = s.lines ∧
    (passReset c s).scanner = s.scanner ∧ (passReset c s).sched = s.sched := by
  unfold passReset
  dsimp only
  repeat' split
  all_goals simp

@[simp] theorem quarantined_frame (c : Copy) (s : State) :
    (quarantined c s).pending = s.pending ∧ (quarantined c s).now = s.now ∧
    (quarantined c s).choices = s.choices ∧ (quarantined c s).runState = s.runState ∧
    (quarantined c s).image = s.image ∧ (quarantined c s).finding = s.finding ∧
    (quarantined c s).lossInputs = s.lossInputs ∧ (quarantined c s).hops = s.hops ∧
    (quarantined c s).paths = s.paths ∧ (quarantined c s).lines = s.lines ∧
    (quarantined c s).scanner = s.scanner ∧ (quarantined c s).sched = s.sched := by
  unfold quarantined
  repeat' split
  all_goals simp

@[simp] theorem stripOwn_frame (c : Copy) (s : State) :
    (stripOwn c s).pending = s.pending ∧ (stripOwn c s).now = s.now ∧
    (stripOwn c s).choices = s.choices ∧ (stripOwn c s).runState = s.runState ∧
    (stripOwn c s).image = s.image ∧ (stripOwn c s).finding = s.finding ∧
    (stripOwn c s).lossInputs = s.lossInputs ∧ (stripOwn c s).hops = s.hops ∧
    (stripOwn c s).scanner = s.scanner := by
  unfold stripOwn
  repeat' split
  all_goals simp

@[simp] theorem takeCopy_frame (c : Copy) (s : State) :
    (takeCopy c s).pending = s.pending ∧ (takeCopy c s).now = s.now ∧
    (takeCopy c s).choices = s.choices ∧ (takeCopy c s).runState = s.runState ∧
    (takeCopy c s).image = s.image ∧ (takeCopy c s).finding = s.finding ∧
    (takeCopy c s).lossInputs = s.lossInputs ∧ (takeCopy c s).hops = s.hops ∧
    (takeCopy c s).scanner = s.scanner := by
  unfold takeCopy
  repeat' split
  all_goals simp

@[simp] theorem passiveCopy_frame (c : Copy) (s : State) :
    (passiveCopy c s).pending = s.pending ∧ (passiveCopy c s).now = s.now ∧
    (passiveCopy c s).choices = s.choices ∧ (passiveCopy c s).runState = s.runState ∧
    (passiveCopy c s).image = s.image ∧ (passiveCopy c s).finding = s.finding ∧
    (passiveCopy c s).lossInputs = s.lossInputs ∧ (passiveCopy c s).hops = s.hops ∧
    (passiveCopy c s).paths = s.paths ∧ (passiveCopy c s).lines = s.lines ∧
    (passiveCopy c s).scanner = s.scanner ∧ (passiveCopy c s).probes = s.probes ∧
    (passiveCopy c s).windows = s.windows ∧ (passiveCopy c s).sched = s.sched ∧
    (passiveCopy c s).roster = s.roster ∧ (passiveCopy c s).ctl = s.ctl := by
  unfold passiveCopy
  repeat' split
  all_goals simp

@[simp] theorem receiveCopy_frame (c : Copy) (s : State) :
    (receiveCopy c s).pending = s.pending ∧ (receiveCopy c s).now = s.now ∧
    (receiveCopy c s).choices = s.choices ∧ (receiveCopy c s).runState = s.runState ∧
    (receiveCopy c s).image = s.image ∧ (receiveCopy c s).finding = s.finding ∧
    (receiveCopy c s).lossInputs = s.lossInputs ∧ (receiveCopy c s).hops = s.hops ∧
    (receiveCopy c s).scanner = s.scanner := by
  unfold receiveCopy
  repeat' split
  all_goals simp

@[simp] theorem bypass_frame (bytes : List Byte) (s : State) :
    (bypass bytes s).pending = s.pending ∧ (bypass bytes s).now = s.now ∧
    (bypass bytes s).choices = s.choices ∧ (bypass bytes s).runState = s.runState ∧
    (bypass bytes s).image = s.image ∧ (bypass bytes s).finding = s.finding ∧
    (bypass bytes s).lossInputs = s.lossInputs ∧ (bypass bytes s).hops = s.hops ∧
    (bypass bytes s).paths = s.paths ∧ (bypass bytes s).lines = s.lines ∧
    (bypass bytes s).scanner = s.scanner ∧ (bypass bytes s).probes = s.probes ∧
    (bypass bytes s).windows = s.windows ∧ (bypass bytes s).sched = s.sched ∧
    (bypass bytes s).roster = s.roster ∧ (bypass bytes s).ctl = s.ctl := by
  unfold bypass
  all_goals simp

@[simp] theorem takeClaim_frame (c : Claim) (s : State) :
    (takeClaim c s).pending = s.pending ∧ (takeClaim c s).now = s.now ∧
    (takeClaim c s).choices = s.choices ∧ (takeClaim c s).runState = s.runState ∧
    (takeClaim c s).image = s.image ∧ (takeClaim c s).finding = s.finding ∧
    (takeClaim c s).lossInputs = s.lossInputs ∧ (takeClaim c s).hops = s.hops ∧
    (takeClaim c s).paths = s.paths ∧ (takeClaim c s).lines = s.lines ∧
    (takeClaim c s).sched = s.sched ∧ (takeClaim c s).loop = s.loop ∧ (takeClaim c s).ctl = s.ctl := by
  unfold takeClaim
  repeat' split
  all_goals simp

@[simp] theorem grant_frame (c : Claim) (s : State) :
    (grant c s).pending = s.pending ∧ (grant c s).now = s.now ∧ (grant c s).choices = s.choices ∧
    (grant c s).runState = s.runState ∧ (grant c s).image = s.image ∧ (grant c s).finding = s.finding ∧
    (grant c s).lossInputs = s.lossInputs ∧ (grant c s).hops = s.hops ∧ (grant c s).paths = s.paths ∧
    (grant c s).lines = s.lines ∧ (grant c s).sched = s.sched ∧ (grant c s).ctl = s.ctl := by
  unfold grant
  all_goals simp

@[simp] theorem resetBlocks_frame (s : State) :
    (resetBlocks s).pending = s.pending ∧ (resetBlocks s).now = s.now ∧
    (resetBlocks s).choices = s.choices ∧ (resetBlocks s).runState = s.runState ∧
    (resetBlocks s).image = s.image ∧ (resetBlocks s).finding = s.finding ∧
    (resetBlocks s).lossInputs = s.lossInputs ∧ (resetBlocks s).hops = s.hops := by
  unfold resetBlocks
  all_goals simp

@[simp] theorem resetLoopOwn_frame (s : State) :
    (resetLoopOwn s).pending = s.pending ∧ (resetLoopOwn s).now = s.now ∧
    (resetLoopOwn s).choices = s.choices ∧ (resetLoopOwn s).runState = s.runState ∧
    (resetLoopOwn s).image = s.image ∧ (resetLoopOwn s).finding = s.finding ∧
    (resetLoopOwn s).lossInputs = s.lossInputs ∧ (resetLoopOwn s).hops = s.hops ∧
    (resetLoopOwn s).scanner = s.scanner := by
  unfold resetLoopOwn
  all_goals simp

@[simp] theorem ownLoopReset_frame (s : State) :
    (ownLoopReset s).pending = s.pending ∧ (ownLoopReset s).now = s.now ∧
    (ownLoopReset s).choices = s.choices ∧ (ownLoopReset s).runState = s.runState ∧
    (ownLoopReset s).image = s.image ∧ (ownLoopReset s).finding = s.finding ∧
    (ownLoopReset s).lossInputs = s.lossInputs ∧ (ownLoopReset s).hops = s.hops := by
  unfold ownLoopReset
  all_goals simp

@[simp] theorem resetLoopDispatched_frame (s : State) :
    (resetLoopDispatched s).pending = s.pending ∧ (resetLoopDispatched s).now = s.now ∧
    (resetLoopDispatched s).choices = s.choices ∧ (resetLoopDispatched s).runState = s.runState ∧
    (resetLoopDispatched s).image = s.image ∧ (resetLoopDispatched s).finding = s.finding ∧
    (resetLoopDispatched s).lossInputs = s.lossInputs ∧ (resetLoopDispatched s).hops = s.hops ∧
    (resetLoopDispatched s).scanner = s.scanner := by
  unfold resetLoopDispatched
  all_goals simp

@[simp] theorem takeLoopReset_frame (s : State) :
    (takeLoopReset s).pending = s.pending ∧ (takeLoopReset s).now = s.now ∧
    (takeLoopReset s).choices = s.choices ∧ (takeLoopReset s).runState = s.runState ∧
    (takeLoopReset s).image = s.image ∧ (takeLoopReset s).finding = s.finding ∧
    (takeLoopReset s).lossInputs = s.lossInputs ∧ (takeLoopReset s).hops = s.hops := by
  unfold takeLoopReset
  all_goals simp

/-! ### Machine/Received.lean -/

@[simp] theorem popOldest_frame (s : State) :
    (popOldest s).pending = s.pending ∧ (popOldest s).now = s.now ∧ (popOldest s).choices = s.choices ∧
    (popOldest s).runState = s.runState ∧ (popOldest s).image = s.image ∧
    (popOldest s).finding = s.finding ∧ (popOldest s).lossInputs = s.lossInputs ∧
    (popOldest s).hops = s.hops ∧ (popOldest s).paths = s.paths ∧ (popOldest s).lines = s.lines ∧
    (popOldest s).scanner = s.scanner ∧ (popOldest s).probes = s.probes ∧
    (popOldest s).windows = s.windows ∧ (popOldest s).sched = s.sched ∧
    (popOldest s).roster = s.roster ∧ (popOldest s).ctl = s.ctl := by
  unfold popOldest
  all_goals simp

@[simp] theorem takeWindowOpen_frame (ser : Serial) (scope : PortSet) (s : State) :
    (takeWindowOpen ser scope s).pending = s.pending ∧ (takeWindowOpen ser scope s).now = s.now ∧
    (takeWindowOpen ser scope s).choices = s.choices ∧
    (takeWindowOpen ser scope s).runState = s.runState ∧ (takeWindowOpen ser scope s).image = s.image ∧
    (takeWindowOpen ser scope s).finding = s.finding ∧
    (takeWindowOpen ser scope s).lossInputs = s.lossInputs ∧
    (takeWindowOpen ser scope s).hops = s.hops ∧ (takeWindowOpen ser scope s).lines = s.lines ∧
    (takeWindowOpen ser scope s).scanner = s.scanner ∧ (takeWindowOpen ser scope s).loop = s.loop ∧
    (takeWindowOpen ser scope s).roster = s.roster := by
  unfold takeWindowOpen
  repeat' split
  all_goals simp

@[simp] theorem takeWindowCancel_frame (ser : Serial) (s : State) :
    (takeWindowCancel ser s).pending = s.pending ∧ (takeWindowCancel ser s).now = s.now ∧
    (takeWindowCancel ser s).choices = s.choices ∧ (takeWindowCancel ser s).runState = s.runState ∧
    (takeWindowCancel ser s).image = s.image ∧ (takeWindowCancel ser s).finding = s.finding ∧
    (takeWindowCancel ser s).lossInputs = s.lossInputs ∧ (takeWindowCancel ser s).hops = s.hops ∧
    (takeWindowCancel ser s).lines = s.lines ∧ (takeWindowCancel ser s).scanner = s.scanner ∧
    (takeWindowCancel ser s).probes = s.probes ∧ (takeWindowCancel ser s).loop = s.loop ∧
    (takeWindowCancel ser s).roster = s.roster ∧ (takeWindowCancel ser s).ctl = s.ctl := by
  unfold takeWindowCancel
  repeat' split
  all_goals simp

@[simp] theorem answerUnlisted_frame (ser : Serial) (s : State) :
    (answerUnlisted ser s).pending = s.pending ∧ (answerUnlisted ser s).now = s.now ∧
    (answerUnlisted ser s).choices = s.choices ∧ (answerUnlisted ser s).runState = s.runState ∧
    (answerUnlisted ser s).image = s.image ∧ (answerUnlisted ser s).finding = s.finding ∧
    (answerUnlisted ser s).lossInputs = s.lossInputs ∧ (answerUnlisted ser s).hops = s.hops ∧
    (answerUnlisted ser s).paths = s.paths ∧ (answerUnlisted ser s).lines = s.lines ∧
    (answerUnlisted ser s).scanner = s.scanner ∧ (answerUnlisted ser s).probes = s.probes ∧
    (answerUnlisted ser s).sched = s.sched ∧ (answerUnlisted ser s).loop = s.loop ∧
    (answerUnlisted ser s).roster = s.roster ∧ (answerUnlisted ser s).ctl = s.ctl := by
  unfold answerUnlisted
  all_goals simp

@[simp] theorem takeWindowClose_frame (ser : Serial) (s : State) :
    (takeWindowClose ser s).pending = s.pending ∧ (takeWindowClose ser s).now = s.now ∧
    (takeWindowClose ser s).choices = s.choices ∧ (takeWindowClose ser s).runState = s.runState ∧
    (takeWindowClose ser s).image = s.image ∧ (takeWindowClose ser s).finding = s.finding ∧
    (takeWindowClose ser s).lossInputs = s.lossInputs ∧ (takeWindowClose ser s).hops = s.hops ∧
    (takeWindowClose ser s).lines = s.lines ∧ (takeWindowClose ser s).scanner = s.scanner ∧
    (takeWindowClose ser s).probes = s.probes ∧ (takeWindowClose ser s).loop = s.loop ∧
    (takeWindowClose ser s).roster = s.roster := by
  unfold takeWindowClose
  repeat' split
  all_goals simp

@[simp] theorem takePassingTally_frame (ser : Serial) (s : State) :
    (takePassingTally ser s).pending = s.pending ∧ (takePassingTally ser s).now = s.now ∧
    (takePassingTally ser s).choices = s.choices ∧ (takePassingTally ser s).runState = s.runState ∧
    (takePassingTally ser s).image = s.image ∧ (takePassingTally ser s).finding = s.finding ∧
    (takePassingTally ser s).lossInputs = s.lossInputs ∧ (takePassingTally ser s).hops = s.hops ∧
    (takePassingTally ser s).lines = s.lines ∧ (takePassingTally ser s).scanner = s.scanner ∧
    (takePassingTally ser s).probes = s.probes ∧ (takePassingTally ser s).loop = s.loop ∧
    (takePassingTally ser s).roster = s.roster := by
  unfold takePassingTally
  repeat' split
  all_goals simp

@[simp] theorem takeTally_frame (y : Nat) (ser : Serial) (t : Tally) (s : State) :
    (takeTally y ser t s).pending = s.pending ∧ (takeTally y ser t s).now = s.now ∧
    (takeTally y ser t s).choices = s.choices ∧ (takeTally y ser t s).runState = s.runState ∧
    (takeTally y ser t s).image = s.image ∧ (takeTally y ser t s).finding = s.finding ∧
    (takeTally y ser t s).lossInputs = s.lossInputs ∧ (takeTally y ser t s).hops = s.hops ∧
    (takeTally y ser t s).lines = s.lines ∧ (takeTally y ser t s).scanner = s.scanner ∧
    (takeTally y ser t s).probes = s.probes ∧ (takeTally y ser t s).loop = s.loop ∧
    (takeTally y ser t s).roster = s.roster := by
  unfold takeTally
  repeat' split
  all_goals simp

@[simp] theorem takeProbeStart_frame (c : Nat) (e : Nat) (head : Nat) (m : Mode) (code : Nat) (receivedAt : Nat) (s : State) :
    (takeProbeStart c e head m code receivedAt s).pending = s.pending ∧
    (takeProbeStart c e head m code receivedAt s).now = s.now ∧
    (takeProbeStart c e head m code receivedAt s).choices = s.choices ∧
    (takeProbeStart c e head m code receivedAt s).runState = s.runState ∧
    (takeProbeStart c e head m code receivedAt s).image = s.image ∧
    (takeProbeStart c e head m code receivedAt s).finding = s.finding ∧
    (takeProbeStart c e head m code receivedAt s).lossInputs = s.lossInputs ∧
    (takeProbeStart c e head m code receivedAt s).roster = s.roster := by
  unfold takeProbeStart
  all_goals simp

@[simp] theorem takeSighting_frame (items : List Item) (s : State) :
    (takeSighting items s).pending = s.pending ∧ (takeSighting items s).now = s.now ∧
    (takeSighting items s).choices = s.choices ∧ (takeSighting items s).runState = s.runState ∧
    (takeSighting items s).image = s.image ∧ (takeSighting items s).finding = s.finding ∧
    (takeSighting items s).lossInputs = s.lossInputs ∧ (takeSighting items s).scanner = s.scanner ∧
    (takeSighting items s).loop = s.loop ∧ (takeSighting items s).roster = s.roster := by
  unfold takeSighting
  all_goals simp

@[simp] theorem takeProbeEnd_frame (c : Nat) (e : Nat) (v : Verdict) (s : State) :
    (takeProbeEnd c e v s).pending = s.pending ∧ (takeProbeEnd c e v s).now = s.now ∧
    (takeProbeEnd c e v s).choices = s.choices ∧ (takeProbeEnd c e v s).runState = s.runState ∧
    (takeProbeEnd c e v s).image = s.image ∧ (takeProbeEnd c e v s).finding = s.finding ∧
    (takeProbeEnd c e v s).lossInputs = s.lossInputs ∧ (takeProbeEnd c e v s).paths = s.paths ∧
    (takeProbeEnd c e v s).lines = s.lines ∧ (takeProbeEnd c e v s).probes = s.probes ∧
    (takeProbeEnd c e v s).windows = s.windows ∧ (takeProbeEnd c e v s).sched = s.sched ∧
    (takeProbeEnd c e v s).loop = s.loop ∧ (takeProbeEnd c e v s).roster = s.roster := by
  unfold takeProbeEnd
  repeat' split
  all_goals simp

@[simp] theorem takeStray_frame (c : Nat) (head : Nat) (s : State) :
    (takeStray c head s).pending = s.pending ∧ (takeStray c head s).now = s.now ∧
    (takeStray c head s).choices = s.choices ∧ (takeStray c head s).runState = s.runState ∧
    (takeStray c head s).image = s.image ∧ (takeStray c head s).finding = s.finding ∧
    (takeStray c head s).lossInputs = s.lossInputs ∧ (takeStray c head s).hops = s.hops ∧
    (takeStray c head s).lines = s.lines ∧ (takeStray c head s).scanner = s.scanner ∧
    (takeStray c head s).probes = s.probes ∧ (takeStray c head s).windows = s.windows ∧
    (takeStray c head s).loop = s.loop ∧ (takeStray c head s).roster = s.roster ∧
    (takeStray c head s).ctl = s.ctl := by
  unfold takeStray
  repeat' split
  all_goals simp

@[simp] theorem takeRestore_frame (sp : Span) (s : State) :
    (takeRestore sp s).pending = s.pending ∧ (takeRestore sp s).now = s.now ∧
    (takeRestore sp s).choices = s.choices ∧ (takeRestore sp s).runState = s.runState ∧
    (takeRestore sp s).image = s.image ∧ (takeRestore sp s).finding = s.finding ∧
    (takeRestore sp s).lossInputs = s.lossInputs ∧ (takeRestore sp s).hops = s.hops ∧
    (takeRestore sp s).lines = s.lines ∧ (takeRestore sp s).scanner = s.scanner ∧
    (takeRestore sp s).probes = s.probes ∧ (takeRestore sp s).windows = s.windows ∧
    (takeRestore sp s).loop = s.loop ∧ (takeRestore sp s).roster = s.roster ∧
    (takeRestore sp s).ctl = s.ctl := by
  unfold takeRestore
  all_goals simp

/-! ### Machine/Load.lean -/

@[simp] theorem loadTables_frame (s : State) :
    (loadTables s).pending = s.pending ∧ (loadTables s).now = s.now ∧
    (loadTables s).choices = s.choices ∧ (loadTables s).runState = s.runState ∧
    (loadTables s).image = s.image ∧ (loadTables s).finding = s.finding ∧
    (loadTables s).lossInputs = s.lossInputs ∧ (loadTables s).lines = s.lines ∧
    (loadTables s).scanner = s.scanner ∧ (loadTables s).probes = s.probes ∧
    (loadTables s).windows = s.windows ∧ (loadTables s).sched = s.sched ∧ (loadTables s).loop = s.loop ∧
    (loadTables s).roster = s.roster ∧ (loadTables s).ctl = s.ctl := by
  unfold loadTables
  all_goals simp

@[simp] theorem markLines_frame (s : State) :
    (markLines s).pending = s.pending ∧ (markLines s).now = s.now ∧ (markLines s).choices = s.choices ∧
    (markLines s).runState = s.runState ∧ (markLines s).image = s.image ∧
    (markLines s).finding = s.finding ∧ (markLines s).lossInputs = s.lossInputs ∧
    (markLines s).hops = s.hops ∧ (markLines s).paths = s.paths ∧ (markLines s).scanner = s.scanner ∧
    (markLines s).probes = s.probes ∧ (markLines s).windows = s.windows ∧
    (markLines s).sched = s.sched ∧ (markLines s).loop = s.loop ∧ (markLines s).roster = s.roster ∧
    (markLines s).ctl = s.ctl := by
  unfold markLines
  all_goals simp

@[simp] theorem autoCensus_frame (s : State) :
    (autoCensus s).pending = s.pending ∧ (autoCensus s).now = s.now ∧
    (autoCensus s).choices = s.choices ∧ (autoCensus s).runState = s.runState ∧
    (autoCensus s).image = s.image ∧ (autoCensus s).finding = s.finding ∧
    (autoCensus s).lossInputs = s.lossInputs ∧ (autoCensus s).hops = s.hops ∧
    (autoCensus s).lines = s.lines ∧ (autoCensus s).scanner = s.scanner ∧
    (autoCensus s).probes = s.probes ∧ (autoCensus s).windows = s.windows ∧
    (autoCensus s).loop = s.loop ∧ (autoCensus s).roster = s.roster ∧ (autoCensus s).ctl = s.ctl := by
  unfold autoCensus
  repeat' split
  all_goals simp

@[simp] theorem takeInputs_frame (s : State) :
    (takeInputs s).pending = s.pending ∧ (takeInputs s).now = s.now ∧
    (takeInputs s).choices = s.choices ∧ (takeInputs s).runState = s.runState ∧
    (takeInputs s).image = s.image ∧ (takeInputs s).finding = s.finding ∧
    (takeInputs s).lossInputs = s.lossInputs ∧ (takeInputs s).hops = s.hops ∧
    (takeInputs s).paths = s.paths ∧ (takeInputs s).lines = s.lines ∧ (takeInputs s).probes = s.probes ∧
    (takeInputs s).windows = s.windows ∧ (takeInputs s).sched = s.sched ∧ (takeInputs s).loop = s.loop ∧
    (takeInputs s).roster = s.roster ∧ (takeInputs s).ctl = s.ctl := by
  unfold takeInputs
  all_goals simp

@[simp] theorem startServices_frame (s : State) :
    (startServices s).pending = s.pending ∧ (startServices s).now = s.now ∧
    (startServices s).choices = s.choices ∧ (startServices s).runState = s.runState ∧
    (startServices s).image = s.image ∧ (startServices s).finding = s.finding ∧
    (startServices s).lossInputs = s.lossInputs ∧ (startServices s).hops = s.hops ∧
    (startServices s).paths = s.paths ∧ (startServices s).lines = s.lines ∧
    (startServices s).scanner = s.scanner ∧ (startServices s).probes = s.probes ∧
    (startServices s).windows = s.windows ∧ (startServices s).ctl = s.ctl := by
  unfold startServices
  all_goals simp

@[simp] theorem enterRunning_frame (s : State) :
    (enterRunning s).pending = s.pending ∧ (enterRunning s).now = s.now ∧
    (enterRunning s).choices = s.choices ∧ (enterRunning s).image = s.image ∧
    (enterRunning s).finding = s.finding ∧ (enterRunning s).lossInputs = s.lossInputs ∧
    (enterRunning s).probes = s.probes ∧ (enterRunning s).windows = s.windows ∧
    (enterRunning s).ctl = s.ctl := by
  unfold enterRunning
  all_goals simp

@[simp] theorem enterPassive_frame (s : State) :
    (enterPassive s).pending = s.pending ∧ (enterPassive s).now = s.now ∧
    (enterPassive s).choices = s.choices ∧ (enterPassive s).image = s.image ∧
    (enterPassive s).finding = s.finding ∧ (enterPassive s).lossInputs = s.lossInputs ∧
    (enterPassive s).hops = s.hops ∧ (enterPassive s).paths = s.paths ∧
    (enterPassive s).lines = s.lines ∧ (enterPassive s).scanner = s.scanner ∧
    (enterPassive s).probes = s.probes ∧ (enterPassive s).windows = s.windows ∧
    (enterPassive s).sched = s.sched ∧ (enterPassive s).roster = s.roster ∧ (enterPassive s).ctl = s.ctl := by
  unfold enterPassive
  all_goals simp

@[simp] theorem loadFlags_frame (f : LoadFinding) (s : State) :
    (loadFlags f s).pending = s.pending ∧ (loadFlags f s).now = s.now ∧
    (loadFlags f s).choices = s.choices ∧ (loadFlags f s).runState = s.runState ∧
    (loadFlags f s).image = s.image ∧ (loadFlags f s).finding = s.finding ∧
    (loadFlags f s).lossInputs = s.lossInputs ∧ (loadFlags f s).hops = s.hops ∧
    (loadFlags f s).paths = s.paths ∧ (loadFlags f s).lines = s.lines ∧
    (loadFlags f s).scanner = s.scanner ∧ (loadFlags f s).probes = s.probes ∧
    (loadFlags f s).windows = s.windows ∧ (loadFlags f s).sched = s.sched ∧
    (loadFlags f s).loop = s.loop ∧ (loadFlags f s).roster = s.roster := by
  unfold loadFlags
  repeat' split
  all_goals simp

/-! ### Machine/Control.lean -/

@[simp] theorem intakeCommand_frame (c : Instr) (s : State) :
    (intakeCommand c s).pending = s.pending ∧ (intakeCommand c s).now = s.now ∧
    (intakeCommand c s).choices = s.choices ∧ (intakeCommand c s).runState = s.runState ∧
    (intakeCommand c s).image = s.image ∧ (intakeCommand c s).finding = s.finding ∧
    (intakeCommand c s).lossInputs = s.lossInputs ∧ (intakeCommand c s).hops = s.hops ∧
    (intakeCommand c s).paths = s.paths ∧ (intakeCommand c s).lines = s.lines ∧
    (intakeCommand c s).probes = s.probes ∧ (intakeCommand c s).windows = s.windows ∧
    (intakeCommand c s).sched = s.sched ∧ (intakeCommand c s).loop = s.loop ∧
    (intakeCommand c s).roster = s.roster := by
  unfold intakeCommand
  all_goals simp

@[simp] theorem serveStatus_frame (s : State) :
    (serveStatus s).state.pending = s.pending ∧ (serveStatus s).state.now = s.now ∧
    (serveStatus s).state.choices = s.choices ∧ (serveStatus s).state.runState = s.runState ∧
    (serveStatus s).state.image = s.image ∧ (serveStatus s).state.finding = s.finding ∧
    (serveStatus s).state.lossInputs = s.lossInputs ∧ (serveStatus s).state.hops = s.hops ∧
    (serveStatus s).state.paths = s.paths ∧ (serveStatus s).state.lines = s.lines ∧
    (serveStatus s).state.scanner = s.scanner ∧ (serveStatus s).state.probes = s.probes ∧
    (serveStatus s).state.windows = s.windows ∧ (serveStatus s).state.sched = s.sched ∧
    (serveStatus s).state.loop = s.loop ∧ (serveStatus s).state.roster = s.roster ∧
    (serveStatus s).state.ctl = s.ctl := by
  unfold serveStatus
  all_goals simp

@[simp] theorem serveClearAlerts_frame (flags : Byte) (s : State) :
    (serveClearAlerts flags s).state.pending = s.pending ∧
    (serveClearAlerts flags s).state.now = s.now ∧
    (serveClearAlerts flags s).state.choices = s.choices ∧
    (serveClearAlerts flags s).state.runState = s.runState ∧
    (serveClearAlerts flags s).state.image = s.image ∧
    (serveClearAlerts flags s).state.finding = s.finding ∧
    (serveClearAlerts flags s).state.lossInputs = s.lossInputs ∧
    (serveClearAlerts flags s).state.hops = s.hops ∧ (serveClearAlerts flags s).state.paths = s.paths ∧
    (serveClearAlerts flags s).state.lines = s.lines ∧
    (serveClearAlerts flags s).state.scanner = s.scanner ∧
    (serveClearAlerts flags s).state.probes = s.probes ∧
    (serveClearAlerts flags s).state.windows = s.windows ∧
    (serveClearAlerts flags s).state.sched = s.sched ∧ (serveClearAlerts flags s).state.loop = s.loop ∧
    (serveClearAlerts flags s).state.roster = s.roster := by
  unfold serveClearAlerts
  all_goals simp

@[simp] theorem serveClearFaults_frame (flags : Byte) (s : State) :
    (serveClearFaults flags s).state.pending = s.pending ∧
    (serveClearFaults flags s).state.now = s.now ∧
    (serveClearFaults flags s).state.choices = s.choices ∧
    (serveClearFaults flags s).state.runState = s.runState ∧
    (serveClearFaults flags s).state.image = s.image ∧
    (serveClearFaults flags s).state.finding = s.finding ∧
    (serveClearFaults flags s).state.lossInputs = s.lossInputs ∧
    (serveClearFaults flags s).state.hops = s.hops ∧ (serveClearFaults flags s).state.paths = s.paths ∧
    (serveClearFaults flags s).state.lines = s.lines ∧
    (serveClearFaults flags s).state.scanner = s.scanner ∧
    (serveClearFaults flags s).state.probes = s.probes ∧
    (serveClearFaults flags s).state.windows = s.windows ∧
    (serveClearFaults flags s).state.sched = s.sched ∧ (serveClearFaults flags s).state.loop = s.loop ∧
    (serveClearFaults flags s).state.roster = s.roster := by
  unfold serveClearFaults
  all_goals simp

@[simp] theorem serveSetAlertMask_frame (flags : Byte) (s : State) :
    (serveSetAlertMask flags s).state.pending = s.pending ∧
    (serveSetAlertMask flags s).state.now = s.now ∧
    (serveSetAlertMask flags s).state.choices = s.choices ∧
    (serveSetAlertMask flags s).state.runState = s.runState ∧
    (serveSetAlertMask flags s).state.image = s.image ∧
    (serveSetAlertMask flags s).state.finding = s.finding ∧
    (serveSetAlertMask flags s).state.lossInputs = s.lossInputs ∧
    (serveSetAlertMask flags s).state.hops = s.hops ∧
    (serveSetAlertMask flags s).state.paths = s.paths ∧
    (serveSetAlertMask flags s).state.lines = s.lines ∧
    (serveSetAlertMask flags s).state.scanner = s.scanner ∧
    (serveSetAlertMask flags s).state.probes = s.probes ∧
    (serveSetAlertMask flags s).state.windows = s.windows ∧
    (serveSetAlertMask flags s).state.sched = s.sched ∧
    (serveSetAlertMask flags s).state.loop = s.loop ∧
    (serveSetAlertMask flags s).state.roster = s.roster := by
  unfold serveSetAlertMask
  all_goals simp

@[simp] theorem serveRequest_frame (m : Mode) (w : BitVec 16) (s : State) :
    (serveRequest m w s).state.pending = s.pending ∧ (serveRequest m w s).state.now = s.now ∧
    (serveRequest m w s).state.choices = s.choices ∧ (serveRequest m w s).state.runState = s.runState ∧
    (serveRequest m w s).state.image = s.image ∧ (serveRequest m w s).state.finding = s.finding ∧
    (serveRequest m w s).state.lossInputs = s.lossInputs ∧ (serveRequest m w s).state.hops = s.hops ∧
    (serveRequest m w s).state.lines = s.lines ∧ (serveRequest m w s).state.scanner = s.scanner ∧
    (serveRequest m w s).state.probes = s.probes ∧ (serveRequest m w s).state.windows = s.windows ∧
    (serveRequest m w s).state.loop = s.loop ∧ (serveRequest m w s).state.roster = s.roster ∧
    (serveRequest m w s).state.ctl = s.ctl := by
  unfold serveRequest
  repeat' split
  all_goals simp

@[simp] theorem serveAdmission_frame (x : Bool) (s : State) :
    (serveAdmission x s).state.pending = s.pending ∧ (serveAdmission x s).state.now = s.now ∧
    (serveAdmission x s).state.choices = s.choices ∧ (serveAdmission x s).state.runState = s.runState ∧
    (serveAdmission x s).state.image = s.image ∧ (serveAdmission x s).state.finding = s.finding ∧
    (serveAdmission x s).state.lossInputs = s.lossInputs ∧ (serveAdmission x s).state.hops = s.hops ∧
    (serveAdmission x s).state.paths = s.paths ∧ (serveAdmission x s).state.lines = s.lines ∧
    (serveAdmission x s).state.scanner = s.scanner ∧ (serveAdmission x s).state.probes = s.probes ∧
    (serveAdmission x s).state.windows = s.windows ∧ (serveAdmission x s).state.loop = s.loop ∧
    (serveAdmission x s).state.roster = s.roster ∧ (serveAdmission x s).state.ctl = s.ctl := by
  unfold serveAdmission
  all_goals simp

@[simp] theorem serveSweep_frame (sp : Span) (s : State) :
    (serveSweep sp s).state.pending = s.pending ∧ (serveSweep sp s).state.now = s.now ∧
    (serveSweep sp s).state.choices = s.choices ∧ (serveSweep sp s).state.runState = s.runState ∧
    (serveSweep sp s).state.image = s.image ∧ (serveSweep sp s).state.finding = s.finding ∧
    (serveSweep sp s).state.lossInputs = s.lossInputs ∧ (serveSweep sp s).state.hops = s.hops ∧
    (serveSweep sp s).state.lines = s.lines ∧ (serveSweep sp s).state.windows = s.windows ∧
    (serveSweep sp s).state.loop = s.loop ∧ (serveSweep sp s).state.roster = s.roster := by
  unfold serveSweep
  repeat' split
  all_goals simp

@[simp] theorem serveReadReport_frame (s : State) :
    (serveReadReport s).state.pending = s.pending ∧ (serveReadReport s).state.now = s.now ∧
    (serveReadReport s).state.choices = s.choices ∧ (serveReadReport s).state.runState = s.runState ∧
    (serveReadReport s).state.image = s.image ∧ (serveReadReport s).state.finding = s.finding ∧
    (serveReadReport s).state.lossInputs = s.lossInputs ∧ (serveReadReport s).state.hops = s.hops ∧
    (serveReadReport s).state.paths = s.paths ∧ (serveReadReport s).state.lines = s.lines ∧
    (serveReadReport s).state.scanner = s.scanner ∧ (serveReadReport s).state.probes = s.probes ∧
    (serveReadReport s).state.windows = s.windows ∧ (serveReadReport s).state.sched = s.sched ∧
    (serveReadReport s).state.loop = s.loop ∧ (serveReadReport s).state.roster = s.roster := by
  unfold serveReadReport
  repeat' split
  all_goals simp

@[simp] theorem serveReadCircuit_frame (w : BitVec 16) (s : State) :
    (serveReadCircuit w s).state.pending = s.pending ∧ (serveReadCircuit w s).state.now = s.now ∧
    (serveReadCircuit w s).state.choices = s.choices ∧
    (serveReadCircuit w s).state.runState = s.runState ∧ (serveReadCircuit w s).state.image = s.image ∧
    (serveReadCircuit w s).state.finding = s.finding ∧
    (serveReadCircuit w s).state.lossInputs = s.lossInputs ∧
    (serveReadCircuit w s).state.hops = s.hops ∧ (serveReadCircuit w s).state.paths = s.paths ∧
    (serveReadCircuit w s).state.lines = s.lines ∧ (serveReadCircuit w s).state.scanner = s.scanner ∧
    (serveReadCircuit w s).state.probes = s.probes ∧ (serveReadCircuit w s).state.windows = s.windows ∧
    (serveReadCircuit w s).state.sched = s.sched ∧ (serveReadCircuit w s).state.loop = s.loop ∧
    (serveReadCircuit w s).state.roster = s.roster ∧ (serveReadCircuit w s).state.ctl = s.ctl := by
  unfold serveReadCircuit
  repeat' split
  all_goals simp

@[simp] theorem serveReadWindows_frame (s : State) :
    (serveReadWindows s).state.pending = s.pending ∧ (serveReadWindows s).state.now = s.now ∧
    (serveReadWindows s).state.choices = s.choices ∧ (serveReadWindows s).state.runState = s.runState ∧
    (serveReadWindows s).state.image = s.image ∧ (serveReadWindows s).state.finding = s.finding ∧
    (serveReadWindows s).state.lossInputs = s.lossInputs ∧ (serveReadWindows s).state.hops = s.hops ∧
    (serveReadWindows s).state.paths = s.paths ∧ (serveReadWindows s).state.lines = s.lines ∧
    (serveReadWindows s).state.scanner = s.scanner ∧ (serveReadWindows s).state.probes = s.probes ∧
    (serveReadWindows s).state.windows = s.windows ∧ (serveReadWindows s).state.sched = s.sched ∧
    (serveReadWindows s).state.loop = s.loop ∧ (serveReadWindows s).state.roster = s.roster ∧
    (serveReadWindows s).state.ctl = s.ctl := by
  unfold serveReadWindows
  all_goals simp

@[simp] theorem serveReadRoster_frame (s : State) :
    (serveReadRoster s).state.pending = s.pending ∧ (serveReadRoster s).state.now = s.now ∧
    (serveReadRoster s).state.choices = s.choices ∧ (serveReadRoster s).state.runState = s.runState ∧
    (serveReadRoster s).state.image = s.image ∧ (serveReadRoster s).state.finding = s.finding ∧
    (serveReadRoster s).state.lossInputs = s.lossInputs ∧ (serveReadRoster s).state.hops = s.hops ∧
    (serveReadRoster s).state.paths = s.paths ∧ (serveReadRoster s).state.lines = s.lines ∧
    (serveReadRoster s).state.scanner = s.scanner ∧ (serveReadRoster s).state.probes = s.probes ∧
    (serveReadRoster s).state.windows = s.windows ∧ (serveReadRoster s).state.sched = s.sched ∧
    (serveReadRoster s).state.loop = s.loop ∧ (serveReadRoster s).state.roster = s.roster ∧
    (serveReadRoster s).state.ctl = s.ctl := by
  unfold serveReadRoster
  all_goals simp

@[simp] theorem serveLoopReset_frame (s : State) :
    (serveLoopReset s).state.pending = s.pending ∧ (serveLoopReset s).state.now = s.now ∧
    (serveLoopReset s).state.choices = s.choices ∧ (serveLoopReset s).state.runState = s.runState ∧
    (serveLoopReset s).state.image = s.image ∧ (serveLoopReset s).state.finding = s.finding ∧
    (serveLoopReset s).state.lossInputs = s.lossInputs ∧ (serveLoopReset s).state.hops = s.hops := by
  unfold serveLoopReset
  repeat' split
  all_goals simp

/-! ### Machine/Idle.lean -/

@[simp] theorem tick_frame (s : State) :
    (tick s).pending = s.pending ∧ (tick s).choices = s.choices ∧ (tick s).runState = s.runState ∧
    (tick s).image = s.image ∧ (tick s).finding = s.finding ∧ (tick s).lossInputs = s.lossInputs ∧
    (tick s).hops = s.hops ∧ (tick s).paths = s.paths ∧ (tick s).lines = s.lines ∧
    (tick s).scanner = s.scanner ∧ (tick s).probes = s.probes ∧ (tick s).windows = s.windows ∧
    (tick s).sched = s.sched ∧ (tick s).loop = s.loop ∧ (tick s).roster = s.roster ∧
    (tick s).ctl = s.ctl := by
  unfold tick
  all_goals simp

@[simp] theorem idle_frame (s : State) :
    (idle s).runState = s.runState ∧ (idle s).image = s.image ∧ (idle s).finding = s.finding ∧
    (idle s).lossInputs = s.lossInputs ∧ (idle s).hops = s.hops ∧ (idle s).paths = s.paths ∧
    (idle s).lines = s.lines ∧ (idle s).scanner = s.scanner ∧ (idle s).probes = s.probes ∧
    (idle s).windows = s.windows ∧ (idle s).sched = s.sched ∧ (idle s).loop = s.loop ∧
    (idle s).roster = s.roster ∧ (idle s).ctl = s.ctl := by
  unfold idle
  repeat' split
  all_goals simp

end Sys2Proof.Machine
end

