-- ==== Sys2Proof/Laws/Ops.lean ====
section
/-! SUPPORT. What each shared operation does to the reads that concern it: one law per operation. -/

namespace Sys2Proof.Machine

/-! ### Station sets and port sets -/

theorem mem_stationNumbers (n : Nat) : n ∈ stationNumbers ↔ stationOk n = true := by
  simp only [stationNumbers, stationOk, List.mem_map, List.mem_range, Bool.and_eq_true, decide_eq_true_eq]
  constructor
  · rintro ⟨a, h, rfl⟩; omega
  · rintro ⟨h1, h2⟩; exact ⟨n - 1, by omega, by omega⟩

theorem stationIn_addStation (x : StationSet) (n k : Nat) (hk : stationOk k = true) :
    stationIn (addStation x n) k = (stationIn x k || k == n) := by
  simp only [stationOk, Bool.and_eq_true, decide_eq_true_eq] at hk
  unfold addStation stationIn
  split
  · simp only [BitVec.getLsbD_or, BitVec.getLsbD_twoPow]
    by_cases e : k = n
    · subst e; simp only [hk.1, decide_true, Bool.true_and]; rw [decide_eq_true (by omega : k - 1 < 24)]; simp
    · have : decide (n - 1 = k - 1) = false := decide_eq_false (by omega)
      rw [this, beq_false_of_ne e]
      simp [hk.1]
  · have : k ≠ n := by omega
    simp [this]

theorem stationIn_foldl (p : Nat → Bool) (l : List Nat) (x : StationSet) (k : Nat) (hk : stationOk k = true) :
    stationIn (l.foldl (fun x n => if p n then addStation x n else x) x) k =
      (stationIn x k || (p k && decide (k ∈ l))) := by
  induction l generalizing x with
  | nil => simp
  | cons a l ih =>
    rw [List.foldl_cons, ih]
    by_cases h : p a = true
    · rw [if_pos h, stationIn_addStation x a k hk]
      by_cases e : k = a
      · subst e; simp [h]
      · simp [beq_false_of_ne e, List.mem_cons, e]
    · rw [if_neg h]
      by_cases e : k = a
      · subst e; simp [Bool.eq_false_iff.mpr h]
      · simp [List.mem_cons, e]

/-- The set of the stations with a property holds exactly those of 1..24. -/
theorem stationIn_stationsWith (p : Nat → Bool) (k : Nat) (hk : stationOk k = true) :
    stationIn (stationsWith p) k = p k := by
  unfold stationsWith
  rw [stationIn_foldl p _ _ k hk, decide_eq_true ((mem_stationNumbers k).2 hk)]
  simp [stationIn]

theorem portIn_addPort (x : PortSet) (p q : Nat) :
    portIn (addPort x p) q = (portIn x q || (decide (q < 16) && q == p)) := by
  unfold portIn addPort
  rw [BitVec.getLsbD_or, BitVec.getLsbD_twoPow]
  by_cases h : q = p
  · subst h; simp
  · simp [h, Ne.symm h]

theorem portIn_removePort (x : PortSet) (p q : Nat) :
    portIn (removePort x p) q = (portIn x q && !(q == p)) := by
  unfold portIn removePort
  by_cases hq : q < 16
  · simp only [BitVec.getLsbD_and, BitVec.getLsbD_not, BitVec.getLsbD_twoPow, hq, decide_true, Bool.true_and]
    by_cases h : q = p
    · subst h; simp [hq]
    · simp [h, Ne.symm h]
  · rw [BitVec.getLsbD_of_ge _ _ (by omega), BitVec.getLsbD_of_ge _ _ (by omega)]; rfl

/-! ### Sorted tables -/

/-- A hop entry put in the table is the one its circuit has; other circuits keep theirs (R1). -/
theorem findHop_putHop (l : List HopEntry) (e : HopEntry) (c : Nat) :
    findHop (putHop l e) c = if c = e.circuit then some e else findHop l c := by
  induction l with
  | nil =>
    by_cases h : c = e.circuit
    · simp [putHop, findHop, h]
    · simp [putHop, findHop, h, beq_false_of_ne (Ne.symm h)]
  | cons a l ih =>
    unfold putHop
    split
    · rename_i lt
      by_cases h : a.circuit = c
      · have : c ≠ e.circuit := by omega
        simp [findHop, h, this]
      · have h' := beq_false_of_ne h
        simp only [findHop, List.find?_cons, h'] at ih ⊢
        exact ih
    · split
      · rename_i eq
        by_cases h : c = e.circuit
        · simp [findHop, h]
        · have h1 := beq_false_of_ne (Ne.symm h)
          have h2 := beq_false_of_ne (eq ▸ Ne.symm h : a.circuit ≠ c)
          simp [findHop, h, h1, h2]
      · by_cases h : c = e.circuit
        · simp [findHop, h]
        · have h1 := beq_false_of_ne (Ne.symm h)
          simp [findHop, h, List.find?_cons, h1]

/-- A watch entry put in the list is the one its circuit has; other circuits keep theirs (R30). -/
theorem find_putWatch (l : List WatchEntry) (e : WatchEntry) (c : Nat) :
    (putWatch l e).find? (·.circuit == c) = if c = e.circuit then some e else l.find? (·.circuit == c) := by
  induction l with
  | nil =>
    by_cases h : c = e.circuit
    · simp [putWatch, h]
    · simp [putWatch, h, beq_false_of_ne (Ne.symm h)]
  | cons a l ih =>
    unfold putWatch
    split
    · rename_i lt
      by_cases h : a.circuit = c
      · have : c ≠ e.circuit := by omega
        simp [h, this]
      · have h' := beq_false_of_ne h
        simp only [List.find?_cons, h'] at ih ⊢
        exact ih
    · split
      · rename_i eq
        by_cases h : c = e.circuit
        · simp [h]
        · have h1 := beq_false_of_ne (Ne.symm h)
          have h2 := beq_false_of_ne (eq ▸ Ne.symm h : a.circuit ≠ c)
          simp [h, h1, h2]
      · by_cases h : c = e.circuit
        · simp [h]
        · have h1 := beq_false_of_ne (Ne.symm h)
          simp [h, List.find?_cons, h1]

/-! ### Keyed lists changed in place -/

/-- A list changed in place at one key: the entry found there is changed, every other one as before. -/
theorem find_map_key {α κ : Type} [DecidableEq κ] (key : α → κ) (f : α → α) (hf : ∀ x, key (f x) = key x)
    (k j : κ) (l : List α) :
    (l.map fun x => if key x = k then f x else x).find? (fun x => key x == j) =
      (l.find? fun x => key x == j).map fun x => if j = k then f x else x := by
  induction l with
  | nil => rfl
  | cons a l ih =>
    simp only [List.map_cons, List.find?_cons]
    have hk : key (if key a = k then f a else a) = key a := by split <;> simp [hf]
    rw [hk]
    by_cases h : key a = j
    · subst h; simp
    · simp only [beq_false_of_ne h]; exact ih

theorem findPath_modifyPath (c d : Nat) (f : PathRecord → PathRecord) (hf : ∀ r, (f r).circuit = r.circuit)
    (s : State) :
    findPath (modifyPath c f s) d = (findPath s d).map fun r => if d = c then f r else r :=
  find_map_key PathRecord.circuit f hf c d s.paths

theorem findHop_modifyHop (c d : Nat) (f : HopEntry → HopEntry) (hf : ∀ e, (f e).circuit = e.circuit)
    (s : State) :
    findHop (modifyHop c f s).hops d = (findHop s.hops d).map fun e => if d = c then f e else e :=
  find_map_key HopEntry.circuit f hf c d s.hops

theorem findWindow_modifyWindow (a b : Serial) (f : Window → Window) (hf : ∀ w, (f w).serial = w.serial)
    (s : State) :
    findWindow (modifyWindow a f s) b = (findWindow s b).map fun w => if b = a then f w else w :=
  find_map_key Window.serial f hf a b s.windows.list

theorem findWindow_dropWindow (a b : Serial) (s : State) :
    findWindow (dropWindow a s) b = if b = a then none else findWindow s b := by
  simp only [findWindow, dropWindow, State.setWindows_fields, List.find?_filter]
  by_cases h : b = a
  · subst h; rw [if_pos rfl, List.find?_eq_none]; intro x _; simp
  · rw [if_neg h]
    congr 1
    funext x
    by_cases e : x.serial = b
    · simp [e, h]
    · simp [beq_false_of_ne e]

/-! ### Slots and roster entries -/

theorem probeAt_modifySlot (i j : Nat) (f : Probe → Probe) (s : State) :
    probeAt (modifySlot i f s) j = if i = j then (probeAt s j).map f else probeAt s j := by
  simp only [probeAt, modifySlot, setSlots, State.setProbes_fields, List.getD_eq_getElem?_getD,
    List.getElem?_modify]
  split <;> cases s.probes.slots[j]? <;> rfl

theorem probeAt_putSlot (i j : Nat) (p : Option Probe) (s : State) (hi : i < s.probes.slots.length) :
    probeAt (putSlot i p s) j = if i = j then p else probeAt s j := by
  simp only [probeAt, putSlot, setSlots, State.setProbes_fields, List.getD_eq_getElem?_getD,
    List.getElem?_set]
  split
  · rename_i h; subst h; simp
  · rfl

theorem rosterAt_modifyRoster (n k : Nat) (f : RosterEntry → RosterEntry) (s : State)
    (hl : s.roster.entries.length = 24) (hk : stationOk k = true) :
    rosterAt (modifyRoster n f s) k = if k = n then f (rosterAt s k) else rosterAt s k := by
  simp only [stationOk, Bool.and_eq_true, decide_eq_true_eq] at hk
  unfold modifyRoster
  split
  · simp only [rosterAt, hk.1, if_true, State.setRoster_fields, List.getD_eq_getElem?_getD,
      List.getElem?_modify]
    have hlt : k - 1 < s.roster.entries.length := by omega
    rw [List.getElem?_eq_getElem hlt]
    by_cases e : k = n
    · subst e; simp
    · have : ¬ n - 1 = k - 1 := by omega
      simp [this, e]
  · have : k ≠ n := by omega
    simp [this]

/-! ### Flags and reports -/

theorem alertSet_raiseAlert (a b : Alert) (s : State) :
    (raiseAlert a s).ctl.alertSet b = (s.ctl.alertSet b || b == a) := by
  simp only [ControlPort.alertSet, raiseAlert, State.setCtl_fields, BitVec.getLsbD_or]
  cases a <;> cases b <;> rfl

theorem faultSet_setFault (f g : FaultFlag) (s : State) :
    (setFault f s).ctl.faultSet g = (s.ctl.faultSet g || g == f) := by
  simp only [ControlPort.faultSet, setFault, raiseAlert, State.setCtl_fields, BitVec.getLsbD_or]
  cases f <;> cases g <;> rfl

theorem alertSet_setFault (f : FaultFlag) (b : Alert) (s : State) :
    (setFault f s).ctl.alertSet b = (s.ctl.alertSet b || b == .fault) := by
  simp only [setFault, alertSet_raiseAlert]
  rfl

/-- The queue after a post (R180). -/
theorem postReport_queue (r : Report) (s : State) :
    (postReport r s).ctl.queue =
      if s.ctl.queue.length < 32 then s.ctl.queue ++ [(s.ctl.reportNumber, r)] else s.ctl.queue := by
  unfold postReport
  have e : Config.reportCapacity = 32 := rfl
  rw [e]
  by_cases h : s.ctl.queue.length < 32
  · rw [if_pos h, if_pos h]; unfold keepReport; dsimp only; split <;> rfl
  · rw [if_neg h, if_neg h]; rfl

/-- The number advances whether or not the record finds room (R180). -/
theorem postReport_number (r : Report) (s : State) :
    (postReport r s).ctl.reportNumber = (s.ctl.reportNumber + 1) % 256 := by
  unfold postReport
  split
  · unfold keepReport; dsimp only; split <;> rfl
  · rfl

/-! ### Audit requests (R17) -/

/-- A request for a record that is not IDLE, or for no record, changes nothing. -/
theorem requestAudit_of_not_idle (c : Nat) (m : Mode) (o : Origin) (s : State)
    (h : ∀ r, findPath s c = some r → r.state ≠ .idle) : requestAudit c m o s = s := by
  unfold requestAudit
  split
  · rfl
  · rename_i r hr; exact if_neg (h r hr)

/-- A request for an IDLE record queues it with its origin. -/
theorem findPath_requestAudit (c : Nat) (m : Mode) (o : Origin) (s : State) (r : PathRecord)
    (hr : findPath s c = some r) (hi : r.state = .idle) :
    findPath (requestAudit c m o s) c =
      some { r with state := .queued (requestMode r m), origin := some o } := by
  have e : (requestAudit c m o s).paths =
      (modifyPath c (fun x => { x with state := .queued (requestMode r m), origin := some o }) s).paths := by
    unfold requestAudit
    rw [hr]
    simp only [hi, if_true]
    unfold enqueue joinList
    split <;> rfl
  unfold findPath
  rw [e]
  have := findPath_modifyPath c c
    (fun x => { x with state := .queued (requestMode r m), origin := some o }) (fun _ => rfl) s
  unfold findPath at this hr
  rw [this, hr]
  simp

/-! ### Copies and the LOOP RESET -/

/-- A copy with the kind and the payload bytes of a notice carries it (R140). -/
theorem carries_of_bytes (c : Copy) (p : Payload) (hk : c.kind = byte p.kind) (hp : c.payload = p.bytes) :
    c.carries p = true := by simp [Copy.carries, hk, hp]

/-- What a copy carries (R140, R197). -/
theorem carries_iff (c : Copy) (p : Payload) :
    c.carries p = true ↔ c.notice = some p ∨ (c.kind = byte p.kind ∧ c.payload = p.bytes) := by
  simp [Copy.carries, or_comm]

/-- A LOOP RESET leaves of the roster all but the JOIN request (R171). -/
theorem resetBlocks_roster (s : State) :
    (resetBlocks s).roster = { s.roster with joinRequest := false } := by
  simp [resetBlocks, resetRoster]

/-! ### Credits and tallies (R105 to R108) -/

/-- A verdict enters the counts of a window as the table of R105 says. -/
theorem count_eq_countedIn (t : Tally) (c : Nat) (v : Verdict) : t.count c v = countedIn c v t := by
  cases t with
  | mk h p ch f i ff => cases v <;> cases ff <;> simp [Tally.count, countedIn]

/-- A request of a window notice meets the pending ones of its kind and serial. -/
theorem sameNotice_eq (p : Payload) (q : Request) :
    Request.sameNotice ⟨p, .own⟩ q =
      (q.payload.kind == p.kind && q.payload.windowSerial == p.windowSerial) := by
  rw [Request.sameNotice, Bool.beq_comm, Bool.beq_comm (a := Payload.windowSerial _)]

/-- A window notice that is requested joins the pending ones, or the one that waits becomes the unit's own. -/
theorem requestWindow_own (p : Payload) (s : State) :
    (requestWindow ⟨p, .own⟩ s).windows.requests = noticeAsked p s.windows.requests := by
  simp only [requestWindow, noticeAsked, sameNotice_eq, Purpose.join, if_true,
    Bool.and_eq_true, beq_iff_eq, State.setWindows_fields]

/-- The same of a TALLY. -/
theorem requestWindow_tally (ser : Serial) (n : Tally) (s : State) :
    (requestWindow ⟨.tally ser n, .own⟩ s).windows.requests = tallyAsked ser n s.windows.requests :=
  requestWindow_own _ s

/-- A request leaves the window list as it is. -/
theorem requestWindow_list (r : Request) (s : State) : (requestWindow r s).windows.list = s.windows.list := rfl

/-- A tally falls due here or away, never both. -/
theorem talliesAway_of_talliesHere (w : Window) (own : Nat) (h : w.talliesHere own = true) :
    w.talliesAway own = false := by
  simp only [Window.talliesHere, Window.talliesAway, Bool.and_eq_true, beq_iff_eq] at *
  simp [h.1.1]

/-! ### The clock -/

/-- What a dwell's result is handled against (R27, R33). -/
theorem dropExpired_advanceTo (d : Dwell) (s : State) :
    dropExpired (advanceTo d.ends s) = atDwellEnd d s := rfl

theorem advanceTo_now (t : Nat) (s : State) : (advanceTo t s).now = max s.now t := rfl

end Sys2Proof.Machine
end

