-- ==== Sys2Proof/WellFormed.lean ====
section
/-! DEFINITION. Which commands the outside of the station can give: operands within the ranges the
spec gives them. A command that is not well formed stands for no event of the hardware. -/

namespace Sys2Proof

/-- A marking the detector can report (R26, section 11.1): circuit bits 9..0, epoch 0..15, level 0..7. -/
def Tag.wellFormed (t : Tag) : Bool := t.circuit < 1024 && t.epoch < 16 && t.level < 8

/-- The operands of a command are within range. -/
def Instr.wellFormed : Instr → Bool
  -- the memory supplies at most the 140 bytes of the layout (R188)
  | .loadEnd image => image.length ≤ Config.imageBytes
  -- a frame of at least one byte that fails the check of R172
  | .invalidCommandFrame frame => frame != [] && (validFrame frame).isNone
  -- 00h in the kind position does not begin a notice (R196)
  | .noticeReceived bytes => bytes != [] && bytes.headD 0 != 0
  | .returnTimeout number => number < 256
  | .lingerEnd number => number < 256
  | .dwellEnd found => found.all Tag.wellFormed
  | .watchExpiry circuit => 1 ≤ circuit && circuit < 1024
  | .lossInputAsserted port => port < 16
  | .lossInputReleased port => port < 16
  | .holdOffExpiry port => port < 16
  | .deadlineExpiry slot => slot < Config.slotCount
  | .settleTimerExpiry sequence => sequence < 256
  | .powerOn | .status | .clearAlerts _ | .clearFaults _ | .setAlertMask _ | .openWindow _
  | .closeWindow _ _ | .cancelWindow _ | .audit _ | .census _ | .holdAudits | .releaseAudits
  | .sweep _ _ | .readReport | .readCircuit _ | .readWindows | .readRoster | .readPort _
  | .loopReset | .restart | .readTransaction _ | .idleFillReceived | .transmitComplete
  | .insertionPlaceGrant | .silenceTimeout | .joinDispatch | .presentDispatch
  | .windowOpenDispatch | .windowCancelDispatch | .windowCloseDispatch | .tallyDispatch
  | .probeStartDispatch | .sightingDispatch | .probeEndDispatch | .strayDispatch
  | .spanAlarmDispatch | .spanAlarmRestoreDispatch | .loopResetDispatch
  | .coalescingTimerExpiry | .baseLaunch | .sweepLaunch => true

end Sys2Proof
end

