-- ==== Sys2Proof/Tests/Slice0.lean ====
section
/-! SUPPORT. Tests: what the well-formedness check refuses, words written out from the formats, single
commands on a small station, and a state with operands that meets the hypotheses of each statement. -/

namespace Sys2Proof.Tests

open Sys2Proof.Machine

set_option maxRecDepth 20000

/-! ### A small station -/

/-- The state after a command. -/
def after (c : Instr) (s : State) : State :=
  match exec c s with
  | .next t => t
  | .fault _ => s
  | .refused _ => s

/-- The state after one step. -/
def stepped (s : State) : State :=
  match step s with
  | .next t => t
  | .fault _ => s
  | .refused _ => s

def testPorts : List PortEntry :=
  [⟨.lineIn, 0, 0⟩, ⟨.lineIn, 0, 0⟩, unusedPort, unusedPort, ⟨.add, 0, 0⟩, unusedPort, unusedPort,
   unusedPort, unusedPort, unusedPort, ⟨.lineOut, 3, 0⟩, ⟨.lineOut, 4, 1⟩, unusedPort, ⟨.drop, 0, 0⟩,
   unusedPort, unusedPort]

/-- Station 2 originates circuits 101, 102 and 103. -/
def testImage : Image :=
  { blankImage with
    signature := 0x3C, station := 2, ports := testPorts, gradeLimit := 2, batchLimit := 2
    positions := [some ⟨101, 0, 4⟩, some ⟨102, 31, 4⟩, some ⟨103, 2, 4⟩] ++ List.replicate 29 none }

/-- The path 101 runs over: in at the ADD port 4, out at port 10 to station 3, which drops it. -/
def base101 : List Hop := [⟨2, 4, 10, some 6, some 6⟩, ⟨3, 0, 7, some 5, some 5⟩]

def record (c line : Nat) (base : Option (List Hop)) : PathRecord :=
  { circuit := c, line := line, addPort := 4, state := .idle, origin := none, lastEpoch := 0
    baseline := base, lastChain := none, lastVerdict := none, hold := [], owed := [] }

def headEntry (c : Nat) : HopEntry :=
  { circuit := c, role := .head, ingress := 4, egress := some 10, headStation := 2, latch := false
    missing := 0 }

/-- Stations 1 to 3 are PRESENT, at grade 2 and with batching. -/
def testRoster : RosterUnit :=
  { entries := List.replicate 3 ⟨true, some ⟨2, true⟩, none, 0⟩ ++ List.replicate 21 blankEntry
    joined := true, grade := 2, batching := true, joinRequest := false, presentRequest := false }

/-- A RUNNING station on a loop that is UP. -/
def base : State :=
  { State.reset with
    runState := .running, image := testImage
    finding := { loadingFinding with outcome := .running }
    hops := [headEntry 101, headEntry 102, headEntry 103,
      ⟨200, .transit, 0, some 10, 5, false, 0⟩]
    paths := [record 101 0 (some base101), record 102 31 none, record 103 2 (some base101)]
    lines := ((List.replicate 32 none).set 0 (some (101, 0))).set 31 (some (102, 0)) |>.set 2 (some (103, 0))
    scanner := { scannerReset with walkPort := some 0, dwell := some ⟨0, false, false, 20⟩ }
    sched := { schedReset with admission := true, shadow := true }
    loop := { loopPortReset with up := true, silence := some 50, sending := .idleFill }
    roster := testRoster }

/-- The station with a notice at the front of its receive queue. -/
def got (originator : Nat) (p : Payload) (s : State) : State :=
  { s with loop := { s.loop with receive := [⟨originator, 7, p, 3⟩] } }

def inState (r : RunState) (s : State) : State := { s with runState := r }

/-- A probe of 101 in a phase. -/
def probe (phase : Phase) : Probe :=
  { phase := phase, circuit := 101, epoch := 1, mode := .routine, owner := .base, blind := 0, joiners := 0
    absent := 0, overlap := false, poolShort := false, loopLost := false, absentLost := false
    lowGrade := false, conflict := false
    deadline := if phase = .driving then some 90 else none, pool := [] }

/-- The station with a probe in slot 0, its record PROBING. -/
def probing (p : Probe) (s : State) : State :=
  { s with
    probes := { s.probes with slots := [some p, none, none, none] }
    paths := s.paths.map fun r =>
      if r.circuit = p.circuit ∧ p.phase ≠ .closing then { r with state := .probing, lastEpoch := p.epoch }
      else r
    lines := if p.phase = .driving then s.lines.set 0 (some (101, 1)) else s.lines }

def window (opener seq : Nat) (st : WindowState) : Window :=
  { serial := ⟨opener, seq⟩, scope := 0x0400, state := st
    counts := { held := 0, passed := 0, changed := 0, failed := 0, incomplete := 0, firstFailing := none }
    tally := .notDue, openReceived := false, announced := true, settle := .stopped
    table := List.replicate 24 .notExpected }

def listing (ws : List Window) (s : State) : State := { s with windows := { s.windows with list := ws } }

/-- Records 101 and 103 held for a window. -/
def holding (ser : Serial) (s : State) : State :=
  { s with paths := s.paths.map fun r =>
      if r.baseline.isSome then { r with state := .held, hold := [ser], owed := [ser] } else r }

def sent (number attempts : Nat) (st : Standing) (p : Payload) : Outstanding :=
  { request := ⟨p, .own⟩, number := number, attempts := attempts, standing := st, best := ⟨0, 0⟩
    transmitted := attempts, returned := 0, lastSent := 5 }

/-- The station with outstanding notices; its next number is 9. -/
def awaiting (os : List Outstanding) (s : State) : State :=
  { s with loop := { s.loop with outstanding := os, number := 9 } }

def queued (l : List Instr) (s : State) : State := { s with pending := l }

/-- The bytes of an image: station, class bytes of the ports, originated positions and the nine codes. -/
def imageOf (station : Nat) (ports : List Nat) (positions : List Byte) (codes : List Nat) : List Byte :=
  let body := [0x3C, byte station] ++ (ports.flatMap fun c => [byte c, 0]) ++
    (positions ++ List.replicate (96 - positions.length) 0) ++ codes.map byte
  body ++ [byte (256 - (body.map BitVec.toNat).sum % 256)]

/-- Station 2: a LINE-IN, an ADD and a LINE-OUT to station 3; circuit 101 on line 31. -/
def goodImage : List Byte :=
  imageOf 2 ([1, 0, 0, 0, 3, 0, 0, 0, 0, 0, 26] ++ List.replicate 5 0) [0x40, 0x65, 31]
    [3, 7, 7, 254, 3, 8, 16, 10, 5]

/-- Every field check and every default at its boundary: station 25, port 3 of class 5, port 10 to itself,
one circuit and one line twice, an ADD port that is none. -/
def badImage : List Byte :=
  imageOf 25 ([1, 0, 0, 5, 3, 0, 0, 0, 0, 0, 2 + 8 * 25] ++ List.replicate 5 0)
    [0x40, 0x65, 31, 0x00, 0x65, 31] [4, 7, 7, 255, 4, 3, 17, 10, 5]

/-! ### What the well-formedness check refuses -/

theorem test_wellFormed_loadEnd :
    Instr.wellFormed (.loadEnd (List.replicate 141 0)) = false ∧
      Instr.wellFormed (.loadEnd (List.replicate 140 0)) = true := by decide

theorem test_wellFormed_invalidCommandFrame :
    Instr.wellFormed (.invalidCommandFrame []) = false ∧
      Instr.wellFormed (.invalidCommandFrame [0x01, 0]) = false ∧
      Instr.wellFormed (.invalidCommandFrame [0x01, 1, 0]) = true := by decide

theorem test_wellFormed_noticeReceived :
    Instr.wellFormed (.noticeReceived []) = false ∧ Instr.wellFormed (.noticeReceived [0, 1]) = false ∧
      Instr.wellFormed (.noticeReceived [1]) = true := by decide

theorem test_wellFormed_returnTimeout :
    Instr.wellFormed (.returnTimeout 256) = false ∧ Instr.wellFormed (.returnTimeout 255) = true := by decide

theorem test_wellFormed_lingerEnd :
    Instr.wellFormed (.lingerEnd 256) = false ∧ Instr.wellFormed (.lingerEnd 255) = true := by decide

theorem test_wellFormed_dwellEnd :
    Instr.wellFormed (.dwellEnd [⟨1024, 0, 0⟩]) = false ∧ Instr.wellFormed (.dwellEnd [⟨1, 16, 0⟩]) = false ∧
      Instr.wellFormed (.dwellEnd [⟨1, 0, 8⟩]) = false ∧
      Instr.wellFormed (.dwellEnd [⟨1023, 15, 7⟩]) = true := by decide

theorem test_wellFormed_watchExpiry :
    Instr.wellFormed (.watchExpiry 0) = false ∧ Instr.wellFormed (.watchExpiry 1024) = false ∧
      Instr.wellFormed (.watchExpiry 1023) = true := by decide

theorem test_wellFormed_ports :
    Instr.wellFormed (.lossInputAsserted 16) = false ∧ Instr.wellFormed (.lossInputReleased 16) = false ∧
      Instr.wellFormed (.holdOffExpiry 16) = false ∧ Instr.wellFormed (.holdOffExpiry 15) = true := by decide

theorem test_wellFormed_timers :
    Instr.wellFormed (.deadlineExpiry 4) = false ∧ Instr.wellFormed (.settleTimerExpiry 256) = false ∧
      Instr.wellFormed (.deadlineExpiry 3) = true ∧ Instr.wellFormed (.settleTimerExpiry 255) = true := by
  decide

/-! ### Words written out from the formats -/

/-- The check value of the text 123456789 with initial value FFFFh and generator 1021h. -/
theorem test_crc16 :
    crc16 [0x31, 0x32, 0x33, 0x34, 0x35, 0x36, 0x37, 0x38, 0x39] = 0x29B1#16 := by decide

theorem test_frames :
    validFrame [0x11, 0x02, 0x03, 0xFF] = some (.closeWindow 3 255) ∧
      validFrame [0x20, 0x02, 0xFF, 0xFF] = some (.audit 0xFFFF) ∧
      validFrame [0x05, 0x00] = none ∧ validFrame [0x24, 0x02, 0x05] = none := by decide

theorem test_payloads :
    decodePayload 3 [24, 255, 0x84, 0x01] = some (.windowOpen ⟨24, 255⟩ 0x8401) ∧
      decodePayload 3 [25, 0, 0, 1] = none ∧
      decodePayload 6 [1, 0, 32, 0, 0, 0, 33, 0, 0] = none ∧
      decodePayload 9 [0x13, 0xFF, 0x04, 0x0B] =
        some (.probeEnd 1023 1 .rerouted ⟨true, true, false, true⟩) ∧
      decodePayload 10 [0x00, 0x65, 2, 1, 4] = some (.stray 101 2 1 4) ∧
      decodePayload 10 [0xFC, 0x65, 2, 1, 4] = some (.stray 101 2 1 4) ∧
      decodePayload 13 [] = none := by decide

/-- A copy with a byte changed fails its check. -/
theorem test_parseCopy :
    parseCopy (originalCopy 3 9 (.join 2 true)).bytes = some (originalCopy 3 9 (.join 2 true)) ∧
      parseCopy ((originalCopy 3 9 (.join 2 true)).bytes.set 2 0) = none := by decide

/-! ### Single commands -/

theorem test_powerOn : after .powerOn base = State.reset := by decide

theorem test_loadEnd_running :
    (after (.loadEnd goodImage) State.reset).runState = .running ∧
      (after (.loadEnd goodImage) State.reset).hops = [⟨101, .head, 4, none, 2, false, 0⟩] ∧
      (after (.loadEnd goodImage) State.reset).lines.getD 31 none = some (101, 0) ∧
      (after (.loadEnd goodImage) State.reset).sched.census = [101] := by decide

theorem test_loadEnd_passive :
    (after (.loadEnd badImage) State.reset).runState = .passive ∧
      (after (.loadEnd badImage) State.reset).finding.fatal =
        [.station, .farEnd, .duplicateCircuit, .duplicateLine, .addPort] ∧
      (after (.loadEnd badImage) State.reset).finding.warnings.map (·.field) =
        [.dwellCode, .batchLimit, .reportThreshold, .degradeMargin, .settleCode, .portClass] := by decide

/-- The warning set keeps what the image was configured with: batch limit 3, and class 7 at port 5. -/
theorem test_warningSet :
    warningSet ((List.replicate 140 0).set 12 (7 : Byte))
        { blankImage with dwellCode := 1, batchLimit := 3, reportThreshold := 4, degradeMargin := 2, settleCode := 30 } =
      [⟨.batchLimit, 3⟩, ⟨.portClass, 7⟩] := by decide

theorem test_openWindow :
    (after (.openWindow 0x0400) base).paths.map (·.state) = [.held, .idle, .held] ∧
      (after (.openWindow 0x0400) base).ctl.response = some ⟨.done, 0x10, .opened 0⟩ := by decide

theorem test_audit :
    (after (.audit 102) base).sched.census = [102] ∧ (after (.audit 101) base).sched.routine = [101] := by
  decide

theorem test_baseLaunch :
    (probeAt (after .baseLaunch (after (.audit 101) base)) 0).map (fun p => (p.phase, p.circuit, p.epoch)) =
        some (.claiming, 101, 1) ∧
      (after .baseLaunch (after (.audit 101) base)).probes.requests =
        [⟨.probeStart 101 1 .routine 2, .own⟩] := by decide

theorem test_deadlineExpiry_broken :
    (after (.deadlineExpiry 0) (probing (probe .driving) base)).ctl.queue.length = 1 ∧
      (findPath (after (.deadlineExpiry 0) (probing (probe .driving) base)) 101).bind
        (·.lastVerdict.map (·.verdict)) = some .broken := by decide

theorem test_noticeReceived_forwards :
    (after (.noticeReceived (originalCopy 3 9 (.stray 101 2 1 0)).bytes) base).loop.receive =
        [⟨3, 9, .stray 101 2 1 0, 0⟩] ∧
      (after (.noticeReceived (originalCopy 3 9 (.stray 101 2 1 0)).bytes) base).loop.forward =
        [{ originalCopy 3 9 (.stray 101 2 1 0) with hops := 1, accept := 4 }] := by decide

/-- Without room in the receive queue the mark is none, over the TAKEN that the copy brought (R197). -/
theorem test_noticeReceived_overwrites :
    (after (.noticeReceived ({ originalCopy 3 9 (.stray 101 2 1 0) with accept := 0x14 } : Copy).bytes)
      (base.setLoop { base.loop with
        receive := List.replicate 8 ⟨3, 5, .loopReset, 0⟩ })).loop.forward.map (·.accept) = [0x10] := by decide

/-- An own JOIN that comes back with an unassigned bit set is the same notice (R197). -/
theorem test_noticeReceived_unassigned :
    (after (.noticeReceived ({ originalCopy 2 8 (.join 2 true) with payload := [0x86] } : Copy).bytes)
      (awaiting [sent 8 1 .lingering (.join 2 true)] base)).ctl.faults = 0 ∧
    (after (.noticeReceived ({ originalCopy 2 8 (.join 2 true) with payload := [0x81] } : Copy).bytes)
      (awaiting [sent 8 1 .lingering (.join 2 true)] base)).ctl.faults = 0b000100 := by decide

/-- A LOOP RESET dispatched before the JOIN is granted ends its request (R171). -/
theorem test_loopResetDispatch_joining :
    (after .loopResetDispatch (got 3 .loopReset (base.setRoster
      { base.roster with joined := false, joinRequest := true }))).roster.joinRequest = false := by decide

theorem test_strayDispatch :
    (after .strayDispatch (got 3 (.stray 101 2 1 0) base)).paths.map (·.state) =
      [.queued .routine, .idle, .idle] := by decide

theorem test_lossInputAsserted :
    (after (.lossInputAsserted 1) base).scanner.monitors.getD 1 .clear = .lossPending 100 := by decide

theorem test_idle_transmits :
    (stepped (queued [.transmitComplete, .status] base)).pending = [.status] := by decide

/-! ### The hypotheses of the statements -/

theorem test_witness_StepRunsTheFrontOfTheQueue :
    (queued [.status, .readRoster] base).pending = .status :: [.readRoster] := by decide

theorem test_witness_RowsLeaveTheQueueAndTheLoadedImage :
    loads .status = false ∧ movesPin .status = false := by decide

/-- The station meets every invariant, and its step gives a next state; so for each of the statements
that a step keeps one. -/
theorem test_witness_invariants :
    (ReportsOk base ∧ CollectionsOk base) ∧ (NumbersOk base ∧ SlotsOk base) ∧
      (SchedulerOk base ∧ WindowsOk base) ∧ (ScannerOk base ∧ CircuitTableOk base) ∧
      (RecordsOk base ∧ RosterOk base) ∧ (MarkersOk base ∧ WorkOk base) ∧
      (StationsOk base ∧ JoiningOk base) := by
  refine ⟨⟨?_, ?_⟩, ⟨?_, ?_⟩, ⟨?_, ?_⟩, ⟨?_, ?_⟩, ⟨?_, ?_⟩, ⟨?_, ?_⟩, ?_, ?_⟩ <;> decide

theorem test_witness_invariants_step :
    step (queued [.audit 101] base) = .next (after (.audit 101) base) := rfl

theorem test_witness_CommandFramesSpellTheirCommand :
    controlCommand (.closeWindow 3 255) = true ∧
      frameOfCommand (.closeWindow 3 255) = some [0x11, 2, 3, 255] := by decide

theorem test_witness_PayloadBytesDecodeToTheirPayload :
    (Payload.stray 1023 24 2 255).inRange = true ∧
      (Payload.tally ⟨24, 255⟩ ⟨32, 32, 32, 32, 32, some 1⟩).inRange = true ∧
      (decodePayload 6 ([1, 0, 32, 0, 0, 0, 1] ++ [0xFC, 1])).isSome = true ∧
      decodePayload 6 [1, 0, 33, 0, 0, 0, 1, 0, 1] = none ∧ decodePayload 4 [25, 0] = none ∧
      (Payload.sighting (List.replicate 8
        ⟨1023, 15, ⟨24, 15, .lineOut, .untracked, 7, some (24, 255)⟩⟩)).inRange = true := by decide

theorem test_witness_CopyBytesParseToTheirCopy :
    ({ originalCopy 3 9 .loopReset with payload := List.replicate 255 0 } : Copy).payload.length < 256 ∧
      stationOk 24 = true ∧ stationOk 1 = true ∧ 3 < 4 := by decide

theorem test_witness_PowerOnAndRestartGiveThePowerOnValues : State.reset = State.reset := rfl

theorem test_witness_ImageIsFirstCheckedWhole :
    State.reset.runState = .starting ∧
      (readImage ([0x3D] ++ goodImage.drop 1)).getD 0 0 ≠ 0x3C ∧
      ((readImage (goodImage.set 5 1)).map BitVec.toNat).sum % 256 ≠ 0 ∧
      (readImage goodImage).getD 0 0 = 0x3C ∧
      ((readImage goodImage).map BitVec.toNat).sum % 256 = 0 := by decide

theorem test_witness_FieldsAreCheckedAndDefaulted :
    State.reset.runState = .starting ∧ State.reset.ctl.command = none ∧
      (readImage badImage).getD 0 0 = 0x3C ∧ ((readImage badImage).map BitVec.toNat).sum % 256 = 0 := by
  decide

theorem test_witness_RunningTakesUpTheImage :
    State.reset.runState = .starting ∧ State.reset.ctl.command = none ∧ State.reset.sched = schedReset ∧
      State.reset.scanner = scannerReset ∧ (State.reset.setLossInputs 0xFFFF).scanner = scannerReset ∧
      (checkImage (readImage goodImage)).2.outcome = .running := by decide

theorem test_witness_CommandsPassTheRunStateGate :
    (controlCommand .loopReset = true ∧ Instr.loopReset ≠ .restart ∧ State.reset.runState = .starting) ∧
      (controlCommand (.audit 1) = true ∧ servedInPassive (.audit 1) = false ∧
        (inState .passive base).runState = .passive) ∧
      (([0x24, 1, 5] : List Byte) ≠ [] ∧ validFrame [0x24, 1, 5] = none) ∧
      ((after .restart base).runState = .starting ∧ (after .restart base).ctl.response = none ∧
        (after .restart base).ctl.command = some .restart ∧ controlCommand .restart = true) ∧
      ((after .readReport State.reset).ctl.command = some .readReport ∧ ReportsOk (after .readReport State.reset) ∧
        (after .readReport State.reset).ctl.response = none ∧ servedInPassive .readReport = false ∧
        (after (.loadEnd badImage) (after .readReport State.reset)).runState = .passive) := by decide

theorem test_witness_ReadingCommandsChangeNothing :
    base.runState ≠ .starting ∧ base.runState = .running ∧
      (1 ≤ (1023 : BitVec 16).toNat ∧ (1023 : BitVec 16).toNat ≤ 1023) ∧
      (1023 < (1024 : BitVec 16).toNat) := by decide

theorem test_witness_ClearsAndMasksActOnTheNamedFlags :
    (inState .passive base).runState ≠ .starting ∧ base.runState = .running := by decide

theorem test_witness_PostsJoinTheReportQueue :
    base.ctl.queue.length < 32 ∧
      (base.setCtl { base.ctl with queue := List.replicate 32 (0, .openConfirmed ⟨2, 0⟩ 0) }).ctl.queue.length
        = 32 ∧
      (base.setCtl { base.ctl with coalescing := some 40 }).ctl.coalescing = some 40 := by decide

def reported : State :=
  base.setCtl { base.ctl with queue := [(0, .openConfirmed ⟨2, 0⟩ 0), (1, .openConfirmed ⟨2, 1⟩ 0)] }

theorem test_witness_ReadReportThenAWholeReadRemovesTheRecord :
    (reported.runState = .running ∧
      reported.ctl.queue = (0, .openConfirmed ⟨2, 0⟩ 0) :: [(1, .openConfirmed ⟨2, 1⟩ 0)]) ∧
      (base.runState = .running ∧ base.ctl.queue = []) ∧
      (base.ctl.response = none ∧ base.ctl.reportHeld = false) ∧
      (after .readReport reported).ctl.response =
        some ⟨.done, 0x30, .report 0 (.openConfirmed ⟨2, 0⟩ 0)⟩ := by decide

theorem test_witness_OpenWindowListsTheWindowWithItsHolds :
    (base.runState = .running ∧
      (base.setRoster { base.roster with joined := false }).roster.joined = false) ∧
      (base.roster.joined = true ∧ portIn 0x8000 15 = true ∧ base.image.classAt 15 = .unused) ∧
      ((0x0400 : PortSet) ≠ 0 ∧
        (∀ p ∈ List.range 16, portIn 0x0400 p = true → base.image.classAt p ≠ .unused) ∧
        8 ≤ (listing ((List.range 8).map fun q => window 3 q .opened) base).windows.list.length +
          (listing ((List.range 8).map fun q => window 3 q .opened) base).loop.receive.countP
            (fun r => r.payload.kind == 3)) ∧
      (base.windows.list.length + base.loop.receive.countP (fun r => r.payload.kind == 3) < 8 ∧
        base.windows.seq < 256 ∧ (pathOrder base).Nodup) := by decide

/-- A sweep run whose two circuits a window of station 2 holds: it completes. -/
theorem test_witness_OpenWindowListsTheWindowWithItsHolds_sweep :
    WorkOk (after .spanAlarmDispatch (got 3 (.spanAlarm .loss ⟨3, 0⟩) base)) ∧
      SchedulerOk (after .spanAlarmDispatch (got 3 (.spanAlarm .loss ⟨3, 0⟩) base)) ∧
      (runsHeldOut (after .spanAlarmDispatch (got 3 (.spanAlarm .loss ⟨3, 0⟩) base)) [101, 103]).length = 1 ∧
      stackHeld (after .spanAlarmDispatch (got 3 (.spanAlarm .loss ⟨3, 0⟩) base)) [101, 103] = [.base] ∧
      (schedHeld (after .spanAlarmDispatch (got 3 (.spanAlarm .loss ⟨3, 0⟩) base)) [101, 103]).admission =
        true := by
  refine ⟨?_, ?_, ?_, ?_, ?_⟩ <;> decide

theorem test_witness_CloseWindowStartsTheSettleTimer :
    base.runState = .running ∧ findWindow base ⟨base.image.station, (255 : Byte).toNat⟩ = none ∧
      findWindow (listing [window 2 0 .closing] base) ⟨base.image.station, (0 : Byte).toNat⟩ =
        some (window 2 0 .closing) ∧
      findWindow (listing [window 2 255 .opened] base) ⟨base.image.station, (255 : Byte).toNat⟩ =
        some (window 2 255 .opened) ∧
      findWindow (listing [window 2 0 .settling] base) ⟨base.image.station, (0 : Byte).toNat⟩ =
        some (window 2 0 .settling) ∧
      (base.roster.joined = true ∧ base.loop.up = true ∧ base.loop.quarantine = false) := by decide

theorem test_witness_CancelWindowReleasesItsRecords :
    base.runState = .running ∧ (pathOrder base).Nodup ∧
      findWindow base ⟨base.image.station, (0 : Byte).toNat⟩ = none ∧
      findWindow (listing [window 2 0 .collecting] base) ⟨base.image.station, (0 : Byte).toNat⟩ =
        some (window 2 0 .collecting) ∧
      findWindow (listing [window 2 0 .opened] base) ⟨base.image.station, (0 : Byte).toNat⟩ =
        some (window 2 0 .opened) := by decide

theorem test_witness_OpenAndCancelDispatchesListAndRemove :
    (got 3 (.windowOpen ⟨3, 4⟩ 1) base).loop.receive = ⟨3, 7, .windowOpen ⟨3, 4⟩ 1, 3⟩ :: [] ∧
      (got 3 (.windowCancel ⟨3, 4⟩) base).loop.receive = ⟨3, 7, .windowCancel ⟨3, 4⟩, 3⟩ :: [] ∧
      (pathOrder base).Nodup ∧ findWindow base ⟨3, 4⟩ = none ∧
      (findWindow (listing [window 3 4 .opened] base) ⟨3, 4⟩).isSome = true ∧
      (base.paths.filter (takesHold ⟨3, 4⟩ 1)).map (·.circuit) = [101, 103] := by decide

theorem test_witness_OpenAndCancelDispatchesListAndRemove_work :
    WorkOk (got 3 (.windowOpen ⟨3, 4⟩ 1) base) ∧ SchedulerOk (got 3 (.windowOpen ⟨3, 4⟩ 1) base) := by
  refine ⟨?_, ?_⟩ <;> decide

/-- A window of station 3 that both records hold for, and one that nothing is owed to. -/
theorem test_witness_WindowCloseDispatchReleasesTheHolds :
    (got 3 (.windowClose ⟨3, 4⟩) base).loop.receive = ⟨3, 7, .windowClose ⟨3, 4⟩, 3⟩ :: [] ∧
      (pathOrder base).Nodup ∧ (3 : Nat) ≠ base.image.station ∧ findWindow base ⟨3, 4⟩ = none ∧
      (∀ q ∈ base.windows.requests, q.payload.windowSerial ≠ some ⟨3, 4⟩) ∧
      findWindow (listing [window 3 4 .closed] base) ⟨3, 4⟩ = some (window 3 4 .closed) ∧
      findWindow (listing [window 3 4 .opened] base) ⟨3, 4⟩ = some (window 3 4 .opened) ∧
      ((window 3 4 .opened).tally = .notDue ∧ base.paths.all (fun r => !r.owed.contains ⟨3, 4⟩) = true) ∧
      (holding ⟨3, 4⟩ base).paths.any (fun r => r.owed.contains ⟨3, 4⟩) = true := by decide

def collecting (st : WindowState) : Window :=
  { window 2 0 st with table := (List.replicate 24 .notExpected).set 23 .awaited }

theorem test_witness_TallyDispatchRecordsTheCounts :
    (got 24 (.tally ⟨2, 0⟩ ⟨1, 1, 0, 0, 0, none⟩) base).loop.receive =
        ⟨24, 7, .tally ⟨2, 0⟩ ⟨1, 1, 0, 0, 0, none⟩, 3⟩ :: [] ∧
      (∀ st ∈ [WindowState.collecting, .closing, .opened],
        findWindow (listing [collecting st] base) ⟨2, 0⟩ = some (collecting st) ∧
        ((listing [collecting st] base).windows.list.map (·.serial)).Nodup ∧
        (collecting st).table.length = 24 ∧ (collecting st).tableAt 24 = .awaited) ∧
      stationOk 24 = true ∧ (2 : Nat) = base.image.station ∧
      ((collecting .collecting).state = .collecting ∧ (stationNumbers.all fun n =>
        n == 24 || (collecting .collecting).tableAt n != .awaited) = true) ∧
      ¬ ((collecting .opened).state = .closing ∨ (collecting .opened).state = .collecting) ∧
      ((3 : Nat) ≠ base.image.station ∧ (window 3 4 .opened).table.length = 24 ∧
        findWindow (listing [window 3 4 .opened] base) ⟨3, 4⟩ = some (window 3 4 .opened) ∧
        findWindow (listing [window 3 4 .closed] base) ⟨3, 4⟩ = some (window 3 4 .closed) ∧
        (pathOrder base).Nodup) := by decide

def settling (received : Bool) : Window :=
  { window 2 0 .settling with settle := .running 700, openReceived := received }

theorem test_witness_SettleExpiryClosesTheWindow :
    (∀ b, findWindow (listing [settling b] base) ⟨base.image.station, 0⟩ = some (settling b) ∧
      (settling b).settle = .running 700 ∧ (settling b).state = .settling ∧ (settling b).openReceived = b) ∧
      (pathOrder base).Nodup ∧ isPresent base base.image.station = true ∧
      stationOk base.image.station = true ∧
      ∀ x ∈ base.windows.requests, x.payload ≠ .windowClose ⟨base.image.station, 0⟩ := by decide

theorem test_witness_WindowsKeepTheirPlaces :
    ((listing [settling true, window 3 4 .opened] base).windows.list.map (·.serial)).Nodup ∧
      findWindow (listing [settling true, window 3 4 .opened] base) ⟨2, 0⟩ = some (settling true) ∧
      findWindow (listing [settling true, window 3 4 .opened] base) ⟨3, 4⟩ = some (window 3 4 .opened) := by decide

theorem test_witness_AuditCommandsQueueAndAdmit :
    base.runState = .running ∧ (pathOrder base).Nodup ∧
      (1023 < (1024 : BitVec 16).toNat ∧ (1024 : BitVec 16) ≠ 0xFFFF) ∧
      (1 ≤ (1023 : BitVec 16).toNat ∧ findPath base (1023 : BitVec 16).toNat = none) ∧
      (findPath base (102 : BitVec 16).toNat = some (record 102 31 none) ∧
        (record 102 31 none).state = .idle) ∧
      (findPath (after (.audit 102) base) (102 : BitVec 16).toNat).any (·.state != .idle) = true ∧
      base.sched.current = none ∧
      (after .spanAlarmDispatch (got 3 (.spanAlarm .loss ⟨3, 0⟩) base)).sched.current ≠ none := by decide

theorem test_witness_SweepRequestsTheTestAndSelects :
    base.runState = .running ∧ stationOk (25 : Byte).toNat = false ∧ 15 < (16 : Byte).toNat ∧
      ((2 : Byte).toNat = base.image.station ∧ base.image.classAt (4 : Byte).toNat ≠ .lineIn) ∧
      (stationOk (3 : Byte).toNat = true ∧ (15 : Byte).toNat ≤ 15 ∧ (3 : Byte).toNat ≠ base.image.station) ∧
      ((2 : Byte).toNat = base.image.station ∧ base.image.classAt (1 : Byte).toNat = .lineIn) ∧
      SchedulerOk base ∧
      selection base ⟨3, 15⟩ = [] ∧ selection base ⟨3, 0⟩ = [101, 103] := by decide

theorem test_witness_SpanAlarmStartsASweepRun :
    (got 3 (.spanAlarm .loss ⟨3, 0⟩) base).loop.receive = ⟨3, 7, .spanAlarm .loss ⟨3, 0⟩, 3⟩ :: [] ∧
      AlarmKind.loss ≠ .restore ∧ (pathOrder base).Nodup ∧ base.sched.routine.Nodup ∧
      SchedulerOk (got 3 (.spanAlarm .loss ⟨3, 0⟩) base) ∧ base.sched.current = none ∧
      base.sched.stack = [] ∧ selection base ⟨3, 1⟩ = [] ∧ selection base ⟨3, 0⟩ ≠ [] := by decide

def swept : State := after .spanAlarmDispatch (got 3 (.spanAlarm .loss ⟨3, 0⟩) base)

/-- A second alarm, of the span into the head station, over the run of the first. -/
theorem test_witness_SpanAlarmStartsASweepRun_suspends :
    (got 3 (.spanAlarm .test ⟨2, 4⟩) swept).loop.receive = ⟨3, 7, .spanAlarm .test ⟨2, 4⟩, 3⟩ :: [] ∧
      AlarmKind.test ≠ .restore ∧ (pathOrder swept).Nodup ∧ swept.sched.routine.Nodup ∧
      SchedulerOk (got 3 (.spanAlarm .test ⟨2, 4⟩) swept) ∧ swept.sched.current.isSome = true ∧
      swept.sched.stack.length < 4 ∧ selection swept ⟨2, 4⟩ = [101, 103] := by decide

def runOf (id : Nat) (entries : List RunEntry) : Run :=
  { id := id, span := ⟨4, id⟩, cause := .loss, entries := entries, merged := [], overflow := 0 }

/-- A full stack: 101 waits in the current run, 103 in the run at the top of the stack. -/
def piled : State :=
  { base with
    paths := base.paths.map fun r => if r.baseline.isSome then { r with state := .queued .sweep } else r
    sched := { base.sched with
      current := some (runOf 4 [⟨101, .waiting⟩]), admission := false, nextRun := 5
      stack := [.sweep (runOf 3 [⟨103, .waiting⟩]), .sweep (runOf 2 [⟨104, .launched⟩]),
        .sweep (runOf 1 [⟨105, .launched⟩]), .base] } }

theorem test_witness_SpanAlarmStartsASweepRun_merges :
    (got 3 (.spanAlarm .loss ⟨3, 0⟩) piled).loop.receive = ⟨3, 7, .spanAlarm .loss ⟨3, 0⟩, 3⟩ :: [] ∧
      (pathOrder piled).Nodup ∧ piled.sched.routine.Nodup ∧
      SchedulerOk (got 3 (.spanAlarm .loss ⟨3, 0⟩) piled) ∧
      piled.sched.current = some (runOf 4 [⟨101, .waiting⟩]) ∧ piled.sched.stack.length = 4 ∧
      selection piled ⟨3, 0⟩ = [101, 103] := by decide

/-- The current run's only circuit, DRIVING in slot 0. -/
def crediting (below : List StackEntry) : State :=
  probing { probe .driving with mode := .sweep, owner := .run 4 }
    (base.setSched { base.sched with
      current := some (runOf 4 [⟨101, .launched⟩]), admission := false, nextRun := 5, stack := below })

theorem test_witness_SpanAlarmStartsASweepRun_completes :
    ∀ below ∈ [[StackEntry.base], [.sweep (runOf 3 [⟨103, .waiting⟩]), .base]],
      SlotsOk (crediting below) ∧ SchedulerOk (crediting below) ∧
      probeAt (crediting below) 0 = some { probe .driving with mode := .sweep, owner := .run 4 } ∧
      (probe .driving).phase = .driving ∧ (probe .driving).deadline = some 90 ∧
      (findPath (crediting below) 101).any (·.owed == []) = true ∧
      (crediting below).sched.current = some (runOf 4 [⟨101, .launched⟩]) ∧
      (runOf 4 [⟨101, .credited .broken⟩]).complete = true ∧
      (runOf 4 [⟨101, .credited .broken⟩, ⟨103, .waiting⟩]).complete = false ∧
      (crediting below).ctl.queue.length < 31 := by decide

/-- A span that two baselines enter, one of their circuits under a ROUTINE or a CENSUS probe. -/
theorem test_witness_SpanAlarmStartsASweepRun_selection :
    ∀ x ∈ [(Mode.routine, [101, 103]), (.census, [103])],
      SlotsOk (probing { probe .driving with mode := x.1 } base) ∧
        selection (probing { probe .driving with mode := x.1 } base) ⟨3, 0⟩ = x.2 := by decide

theorem test_witness_RestoreRequestsAudits :
    (got 3 (.spanAlarm .restore ⟨3, 0⟩) base).loop.receive = ⟨3, 7, .spanAlarm .restore ⟨3, 0⟩, 3⟩ :: [] ∧
      (pathOrder base).Nodup := by decide

theorem test_witness_StrayRequestsAnAuditAtItsHead :
    (got 3 (.stray 101 2 1 0) base).loop.receive = ⟨3, 7, .stray 101 2 1 0, 3⟩ :: [] ∧
      (pathOrder base).Nodup ∧ 2 = base.image.station ∧ findPath base 104 = none := by decide

/-- BASE with a circuit queued for an audit of a mode. -/
def waiting (m : Mode) (c : Nat) : State :=
  enqueue c m .command base

theorem test_witness_LaunchesClaimTheLowestSlot_base :
    (∀ x ∈ [(Mode.routine, 101), (.census, 102)],
      (waiting x.1 x.2).runState = .running ∧ (waiting x.1 x.2).roster.joined = true ∧
      (waiting x.1 x.2).probes.slots.findIdx? (·.isNone) = some 0 ∧
      (findPath (waiting x.1 x.2) x.2).any (·.lastEpoch == 0) = true ∧
      (waiting x.1 x.2).loop.up = true ∧ (waiting x.1 x.2).sched.admission = true ∧
      (waiting x.1 x.2).sched.current = none) ∧
      (waiting .routine 101).sched.routine.find? (launchable (waiting .routine 101)) = some 101 ∧
      (waiting .census 102).sched.routine.find? (launchable (waiting .census 102)) = none ∧
      (waiting .census 102).sched.census.find? (launchable (waiting .census 102)) = some 102 := by
  decide

theorem test_witness_LaunchesClaimTheLowestSlot_sweep :
    swept.runState = .running ∧ swept.roster.joined = true ∧
      swept.probes.slots.findIdx? (·.isNone) = some 0 ∧ (findPath swept 101).isSome = true ∧
      (swept.sched.current.any fun run => run.entries.find? (fun x => x.standing == .waiting &&
        stateOf swept x.circuit == some (.queued .sweep) && (slotOf swept x.circuit).isNone) ==
          some ⟨101, .waiting⟩) = true := by decide

/-- The sweep launch in a scheduler that is well formed; a QUEUED circuit, alone and with its CLOSING slot. -/
theorem test_witness_LaunchesClaimTheLowestSlot_launchable :
    SchedulerOk swept ∧ launchable (waiting .routine 101) 101 = true ∧
      launchable (probing (probe .closing) (waiting .routine 101)) 101 = false := by decide

theorem test_witness_LoopResetClearsTheBlocks :
    base.runState = .running ∧ base.roster.joined = true ∧ base.loop.up = true ∧
      base.loop.quarantine = false ∧ MarkersOk base ∧
      (base.setLoop { base.loop with quarantine := true }).loop.quarantine = true ∧
      MarkersOk (got 3 .loopReset base) ∧ JoiningOk base ∧
      (got 3 .loopReset base).loop.receive = ⟨3, 7, .loopReset, 3⟩ :: [] := by decide

def quarantined : State := base.setLoop { base.loop with quarantine := true }

def crowded : State :=
  base.setLoop { base.loop with forward := List.replicate 8 (originalCopy 3 9 .loopReset) }

/-- Copies out of range (station 25), of 23 hops, in quarantine, without room, and as PASSIVE hears them. -/
theorem test_witness_ReceptionsDriveTheLoopState :
    base.runState ≠ .starting ∧ State.reset.runState = .starting ∧
      (([1, 2] : List Byte).headD 0 ≠ 0 ∧ parseCopy [1, 2] = none) ∧
      ((originalCopy 25 9 (.join 2 true)).payload.length < 256 ∧
        (originalCopy 25 9 (.join 2 true)).kind ≠ 0 ∧
        (originalCopy 25 9 (.join 2 true)).originator.toNat ≠ base.image.station ∧
        stationOk (originalCopy 25 9 (.join 2 true)).originator.toNat = false) ∧
      23 ≤ ({ originalCopy 3 9 (.join 2 true) with hops := 23 } : Copy).hops.toNat ∧
      (quarantined.loop.quarantine = true ∧
        (originalCopy 3 9 (.join 2 true)).notice ≠ some .loopReset) ∧
      8 ≤ crowded.loop.forward.length ∧ (inState .passive base).runState = .passive := by decide

/-- At each mark: repeated, refused, without room in the receive queue, and taken. -/
theorem test_witness_NoticesAreMarkedAndForwarded :
    base.runState = .running ∧ (originalCopy 24 9 (.stray 101 2 1 0)).notice = some (.stray 101 2 1 0) ∧
      (originalCopy 24 9 (.stray 101 2 1 0)).payload.length < 256 ∧
      (originalCopy 24 9 (.stray 101 2 1 0)).kind ≠ 0 ∧
      (originalCopy 24 9 (.stray 101 2 1 0)).originator.toNat ≠ base.image.station ∧
      stationOk (originalCopy 24 9 (.stray 101 2 1 0)).originator.toNat = true ∧
      (originalCopy 24 9 (.stray 101 2 1 0)).hops.toNat < 23 ∧ base.loop.quarantine = false ∧
      base.loop.forward.length < 8 ∧ base.roster.entries.length = 24 ∧
      isRepeat (rosterAt base 24).acceptance 9 false = false ∧
      isRepeat (some ⟨9, false, 0⟩) 9 false = true ∧
      8 ≤ (listing ((List.range 8).map fun q => window 3 q .opened) base).windows.list.length ∧
      (originalCopy 24 9 (.probeStart 201 3 .routine 2)).notice = some (.probeStart 201 3 .routine 2) ∧
      16 ≤ (base.setScanner { base.scanner with
        watch := (List.range 16).map fun c => ⟨c + 300, 1, 5, .routine, 60, 0⟩ }).scanner.watch.length ∧
      8 ≤ (base.setLoop { base.loop with
        receive := List.replicate 8 ⟨3, 9, .stray 101 2 1 0, 0⟩ }).loop.receive.length ∧
      isPresent base 24 = false ∧ isPresent base 3 = true := by decide

/-- A late copy, a newer number, a repeat, and the first of an originator. -/
theorem test_witness_NoticesAreMarkedAndForwarded_classes :
    (9 < 256 ∧ (∀ a, some (⟨255, false, 0⟩ : Acceptance) = some a → a.last < 256)) ∧
      (liesBefore 9 8 = true ∧ liesBefore 9 234 = true ∧ liesBefore 9 233 = false ∧ liesBefore 9 9 = false) ∧
      (classedRepeat (some ⟨9, false, 2⟩) 8 false = true ∧ classedRepeat (some ⟨9, false, 2⟩) 7 false = false ∧
        classedRepeat (some ⟨9, false, 2⟩) 9 true = false ∧ classedRepeat (some ⟨9, true, 2⟩) 9 true = true ∧
        classedRepeat none 9 false = false) ∧
      (takeNumber (some ⟨9, false, 2⟩) 7).inTakenSet 7 = true ∧
      (takeNumber (some ⟨9, false, 2⟩) 40).inTakenSet 9 = true ∧
      (takeNumber (some ⟨9, false, 2⟩) 40).inTakenSet 8 = false := by
  refine ⟨⟨by decide, ?_⟩, by decide⟩
  rintro a ⟨⟩
  decide

/-- A JOIN without its payload byte, and a LOOP RESET in quarantine. -/
theorem test_witness_NoticesAreMarkedAndForwarded_others :
    ({ originalCopy 24 9 (.join 2 true) with payload := [] } : Copy).notice = none ∧
      ({ originalCopy 24 9 (.join 2 true) with payload := [] } : Copy).kind ≠ 0 ∧
      stationOk (originalCopy 24 9 (.join 2 true)).originator.toNat = true ∧
      (originalCopy 24 9 .loopReset).notice = some .loopReset ∧
      (originalCopy 24 9 .loopReset).payload.length < 256 ∧
      (originalCopy 24 9 .loopReset).originator.toNat ≠ quarantined.image.station ∧
      ({ originalCopy 24 9 .loopReset with hops := 22 } : Copy).hops.toNat < 23 ∧
      quarantined.runState = .running ∧ quarantined.loop.quarantine = true ∧
      quarantined.loop.forward.length < 8 ∧ quarantined.roster.entries.length = 24 := by decide

/-- A notice of station 24, which was ABSENT, at a window of it in UNSENT; and in quarantine its LOOP RESET. -/
def unsent : State := listing [{ window 24 4 .closed with tally := .unsent }] base

theorem test_witness_NoticesAreMarkedAndForwarded_absent :
    isPresent unsent 24 = false ∧ WindowsOk (heard unsent) ∧
      (after (.noticeReceived (originalCopy 24 5 (.stray 101 2 1 0)).bytes) unsent).windows.requests =
        [⟨.tally ⟨24, 4⟩ zeroTally, .own⟩] ∧
      (after (.noticeReceived (originalCopy 24 5 (.stray 101 2 1 0)).bytes) unsent).roster.grade = 1 ∧
      isPresent (unsent.setLoop { unsent.loop with quarantine := true }) 24 = false := by
  refine ⟨?_, ?_, ?_, ?_, ?_⟩ <;> decide

def outState : State := awaiting [sent 8 3 .inFlight (.stray 101 2 1 0)] base

theorem test_witness_OwnCopiesAreStripped :
    outState.runState = .running ∧ (originalCopy 2 8 (.stray 101 2 1 0)).kind ≠ 0 ∧
      (originalCopy 2 8 (.stray 101 2 1 0)).payload.length < 256 ∧
      (originalCopy 2 8 (.stray 101 2 1 0)).originator.toNat = outState.image.station ∧
      findEntry outState 7 = none ∧
      findEntry outState 8 = some (sent 8 3 .inFlight (.stray 101 2 1 0)) ∧
      (originalCopy 2 8 (.stray 101 2 1 0)).kind = byte (Payload.stray 101 2 1 0).kind ∧
      (originalCopy 2 8 (.stray 101 2 1 0)).payload = (Payload.stray 101 2 1 0).bytes ∧
      (sent 8 3 .inFlight (.stray 101 2 1 0)).attempts < 4 ∧
      unmarkedPresent outState ((⟨0, 0⟩ : BestMarks).merge (copyMarks outState.image.station 0)) ≠ 0 := by
  decide

/-- The same copy finds an entry that waits for its retry, that lingers, or that has made four attempts. -/
theorem test_witness_OwnCopiesAreStripped_standings :
    (∀ st ∈ [Standing.inFlight, .retryWaiting, .lingering],
      findEntry (awaiting [sent 8 3 st (.stray 101 2 1 0)] base) 8 = some (sent 8 3 st (.stray 101 2 1 0))) ∧
      NumbersOk ((awaiting [sent 8 3 .retryWaiting (.stray 101 2 1 0)] base).setLoop
        { (awaiting [sent 8 3 .retryWaiting (.stray 101 2 1 0)] base).loop with retries := [8] }) ∧
      NumbersOk (awaiting [sent 8 3 .lingering (.stray 101 2 1 0)] base) ∧
      unmarkedPresent outState ((⟨0, 0⟩ : BestMarks).merge
        (copyMarks outState.image.station 0x555555555555)) = 0 ∧
      (sent 8 4 .inFlight (.stray 101 2 1 0)).attempts = 4 ∧
      ({ originalCopy 2 8 (.stray 101 2 1 0) with payload := [0xFC, 0x65, 2, 1, 0] } : Copy).notice =
        some (.stray 101 2 1 0) := by decide

/-- The copy of a PROBE START that comes back with a mark of every station. -/
def marked : Copy := { originalCopy 2 8 (.probeStart 101 1 .routine 2) with accept := 0x555555555555 }

def claimed : State :=
  awaiting [sent 8 1 .inFlight (.probeStart 101 1 .routine 2)] (probing (probe .claiming) base)

theorem test_witness_StartOutcomeBeginsDriving :
    claimed.runState = .running ∧ marked.payload.length < 256 ∧ marked.kind = 7 ∧
      marked.originator.toNat = claimed.image.station ∧
      findEntry claimed marked.number.toNat = some (sent 8 1 .inFlight (.probeStart 101 1 .routine 2)) ∧
      marked.payload = (Payload.probeStart 101 1 .routine 2).bytes ∧
      unmarkedPresent claimed ((⟨0, 0⟩ : BestMarks).merge (copyMarks claimed.image.station marked.accept)) = 0 ∧
      SlotsOk claimed ∧ probeAt claimed 0 = some (probe .claiming) ∧
      (findPath claimed 101).any (fun r => r.line < claimed.lines.length) = true := by decide

/-- The same copy after the fourth attempt, without a mark. -/
def unmarked : Copy := originalCopy 2 8 (.probeStart 101 1 .routine 2)

def exhausted : State :=
  awaiting [sent 8 4 .inFlight (.probeStart 101 1 .routine 2)] (probing (probe .claiming) base)

theorem test_witness_StartOutcomeBeginsDriving_unmarked :
    exhausted.runState = .running ∧ unmarked.payload.length < 256 ∧ unmarked.kind = 7 ∧
      unmarked.originator.toNat = exhausted.image.station ∧
      findEntry exhausted unmarked.number.toNat = some (sent 8 4 .inFlight (.probeStart 101 1 .routine 2)) ∧
      unmarked.payload = (Payload.probeStart 101 1 .routine 2).bytes ∧
      unmarkedPresent exhausted
        ((⟨0, 0⟩ : BestMarks).merge (copyMarks exhausted.image.station unmarked.accept)) ≠ 0 ∧
      exhausted.roster.entries.length = 24 ∧ SlotsOk exhausted ∧ probeAt exhausted 0 = some (probe .claiming) ∧
      (findPath exhausted 101).any (fun r => r.line < exhausted.lines.length) = true := by decide

def newWaiting (n fairness : Nat) (s : State) : State :=
  s.setLoop { s.loop with
    newNotices := [⟨.stray 101 2 1 0, .own⟩], fairness := fairness
    forward := List.replicate n (originalCopy 3 9 .loopReset) }

/-- A forwarded notice first at a fairness count of 3, an insertion first at 4; idle fill; a retry copy. -/
theorem test_witness_TheTransmitterChoosesInOrder :
    State.reset.runState = .starting ∧ (inState .passive base).runState = .passive ∧
      base.runState = .running ∧
      ((newWaiting 1 3 base).loop.headSendable = true ∧ (newWaiting 1 3 base).loop.forward.length < 8 ∧
        ¬ 4 ≤ (newWaiting 1 3 base).loop.fairness ∧ 4 ≤ (newWaiting 1 4 base).loop.fairness) ∧
      (base.loop.forward = [] ∧ base.loop.headSendable = false) ∧
      (base.loop.retries = [] ∧ (newWaiting 0 0 base).loop.newNotices = ⟨.stray 101 2 1 0, .own⟩ :: []) ∧
      findEntry (awaiting [sent 8 1 .retryWaiting (.stray 101 2 1 0)]
        (base.setLoop { base.loop with retries := [8] })) 8 =
          some (sent 8 1 .retryWaiting (.stray 101 2 1 0)) := by decide

theorem test_witness_PlacesGoToTheFirstClaimant :
    base.runState = .running ∧ base.loop.newNotices.length < 8 ∧ base.roster.joined = true ∧
      (base.setRoster { base.roster with joined := false, joinRequest := true }).roster.joined = false ∧
      (base.setScanner { base.scanner with alarms := [⟨.loss, ⟨2, 0⟩⟩] }).scanner.alarms =
        ⟨.loss, ⟨2, 0⟩⟩ :: [] ∧
      base.scanner.alarms = [] ∧ base.probes.requests = [] ∧ base.windows.requests = [] ∧
      ([⟨.probeStart 101 1 .routine 2, .own⟩, ⟨.probeEnd 102 1 .pass ⟨false, false, false, false⟩, .own⟩] :
          List Request).find? (fun q => q.payload.kind == 9) =
        some ⟨.probeEnd 102 1 .pass ⟨false, false, false, false⟩, .own⟩ ∧
      (after .baseLaunch (after (.audit 101) base)).probes.requests.find?
        (fun q => q.payload.kind == 7) = some ⟨.probeStart 101 1 .routine 2, .own⟩ ∧
      (base.setScanner { base.scanner with
        backlog := [⟨101, 1, ⟨2, 4, .add, .expected, 6, none⟩⟩] }).scanner.backlog ≠ [] ∧
      (after (.openWindow 0x0400) base).windows.requests.find? (eligible (after (.openWindow 0x0400) base)) =
        some ⟨.windowOpen ⟨2, 0⟩ 0x0400, .own⟩ ∧
      (base.setScanner { base.scanner with strays := [⟨200, 5, .missing, 0⟩] }).scanner.strays =
        ⟨200, 5, .missing, 0⟩ :: [] ∧
      (base.setRoster { base.roster with presentRequest := true }).roster.presentRequest = true := by decide

/-- A WINDOW CANCEL that waits while its WINDOW OPEN is out, and one whose WINDOW OPEN is not. -/
theorem test_witness_PlacesGoToTheFirstClaimant_cancel :
    ([⟨.windowCancel ⟨2, 0⟩, .own⟩] : List Request).find? (eligible
        (awaiting [sent 8 1 .inFlight (.windowOpen ⟨2, 0⟩ 1)] base)) = none ∧
      ([⟨.windowCancel ⟨2, 0⟩, .own⟩] : List Request).find? (eligible base) =
        some ⟨.windowCancel ⟨2, 0⟩, .own⟩ ∧
      (Payload.windowClose ⟨2, 0⟩).kind ≠ 4 ∧
      8 ≤ (base.setLoop { base.loop with
        newNotices := List.replicate 8 ⟨.loopReset, .own⟩ }).loop.newNotices.length := by decide

def timedOut (attempts : Nat) : State :=
  awaiting [sent 8 attempts .inFlight
    (.sighting [⟨101, 1, ⟨2, 4, .add, .expected, 6, none⟩⟩])] base

theorem test_witness_ReturnTimeoutsRetryThenFeedMissRuns :
    (∀ k ∈ [3, 4], (findEntry (timedOut k) 8).any (fun o => o.standing == .inFlight && o.attempts == k &&
        o.request.payload.kind == 8 && unmarkedPresent (timedOut k) o.best != 0) = true) ∧
      (timedOut 4).roster.entries.length = 24 ∧ isPresent (timedOut 4) 3 = true ∧
      isPresent (timedOut 4) 24 = false := by decide

/-- The fourth attempt of a notice of each kind whose outcome a block reads, with what it reads it on. -/
theorem test_witness_ReturnTimeoutsRetryThenFeedMissRuns_kinds :
    (∀ p ∈ [Payload.join 2 true, .windowOpen ⟨2, 0⟩ 1, .windowClose ⟨2, 0⟩, .tally ⟨3, 4⟩ ⟨0, 0, 0, 0, 0, none⟩,
        .probeStart 101 1 .routine 2, .probeEnd 101 1 .pass ⟨false, false, false, false⟩, .loopReset],
      findEntry (awaiting [sent 8 4 .inFlight p] base) 8 = some (sent 8 4 .inFlight p) ∧
        (sent 8 4 .inFlight p).attempts = 4 ∧
        unmarkedPresent (awaiting [sent 8 4 .inFlight p] base) (sent 8 4 .inFlight p).best ≠ 0) ∧
      (SlotsOk exhausted ∧ (findPath exhausted 101).isSome = true) ∧
      (SlotsOk (probing (probe .closing) base) ∧
        probeAt (probing (probe .closing) base) 0 = some (probe .closing)) ∧
      ((findWindow (listing [window 2 0 .opened] base) ⟨2, 0⟩).isSome = true ∧ base.ctl.queue.length < 32) ∧
      (WindowsOk (listing [collecting .closing] base) ∧
        findWindow (listing [collecting .closing] base) ⟨2, 0⟩ = some (collecting .closing) ∧
        (collecting .closing).tableAt 24 = .awaited) ∧
      ((3 : Nat) ≠ base.image.station ∧
        WindowsOk (listing [{ window 3 4 .closed with tally := .sent }] base) ∧
        findWindow (listing [{ window 3 4 .closed with tally := .sent }] base) ⟨3, 4⟩ =
          some { window 3 4 .closed with tally := .sent } ∧
        stationIn (⟨0, 0⟩ : BestMarks).taken 3 = false ∧ isPresent base 3 = true) := by decide

/-- A WINDOW OPEN that none refused, at an OPEN window and at one whose settle timer has run out. -/
theorem test_witness_ReturnTimeoutsRetryThenFeedMissRuns_opens :
    ∀ w ∈ [window 2 0 .opened, { window 2 0 .settling with settle := .expired }],
      WindowsOk (listing [w] base) ∧ findWindow (listing [w] base) ⟨2, 0⟩ = some w ∧
        (⟨0, 0⟩ : BestMarks).refused &&& ~~~(⟨0, 0⟩ : BestMarks).taken = 0 := by decide

/-- A timeout of a notice that every PRESENT station marked. -/
theorem test_witness_ReturnTimeoutsRetryThenFeedMissRuns_marked :
    unmarkedPresent (timedOut 3) ⟨0xFFFFFF, 0⟩ = 0 ∧ (timedOut 3).roster.entries.length = 24 ∧
      findEntry (awaiting [{ sent 8 1 .inFlight (.present 2 true) with best := ⟨0xFFFFFF, 0⟩ }] base) 8 =
        some { sent 8 1 .inFlight (.present 2 true) with best := ⟨0xFFFFFF, 0⟩ } := by decide

/-- Station 3 missed twice, with 103 DRIVING in slot 1 through it and a tally table that awaits it. -/
def nearlyLost (s : State) : State :=
  listing [{ window 2 0 .collecting with table := (List.replicate 24 .missing).set 2 .awaited }]
    { s with
      roster := { s.roster with entries := s.roster.entries.set 2 ⟨true, some ⟨2, true⟩, none, 2⟩ }
      probes := { s.probes with
        slots := s.probes.slots.set 1 (some { probe .driving with circuit := 103, mode := .sweep }) }
      paths := s.paths.map fun r => if r.circuit = 103 then { r with state := .probing } else r }

/-- The fourth attempt without a mark takes it away: the slot and the window are told. -/
theorem test_witness_AbsencesTold :
    ∀ s ∈ [nearlyLost (timedOut 4), nearlyLost exhausted],
      SlotsOk s ∧ WindowsOk s ∧ RosterOk s ∧ isPresent s s.image.station = true ∧ s.ctl.queue.length ≤ 20 ∧
        probeAt s 1 = some { probe .driving with circuit := 103, mode := .sweep } ∧
        (findPath s 103).any (fun r => (r.baseline.getD []).any fun h => h.station == 3) = true ∧
        turnedAbsent s (after (.returnTimeout 8) s) 3 = true ∧
        (summariesLosing 2 (turnedAbsent s (after (.returnTimeout 8) s)) s.windows.list).length = 1 := by
  decide

theorem test_witness_AbsencesTold_outcome :
    SlotsOk (nearlyLost exhausted) ∧ probeAt (nearlyLost exhausted) 0 = some (probe .claiming) ∧
      findEntry (nearlyLost exhausted) 8 = some (sent 8 4 .inFlight (.probeStart 101 1 .routine 2)) ∧
      turnedAbsent (nearlyLost exhausted) (after (.noticeReceived unmarked.bytes) (nearlyLost exhausted)) 3 =
        true ∧
      (sent 8 4 .inFlight (.stray 101 2 1 0)).request.payload.kind ≠ 7 ∧
      probeAt (probing (probe .claiming) base) 0 = some (probe .claiming) := by decide

/-- A window of each kind of outcome, its records held: an OPEN one, one whose settle timer has run out, a CLOSING one
that awaits station 24, and one whose TALLY is out. -/
def answering (p : Payload) : State :=
  awaiting [sent 8 4 .inFlight p]
    (listing [window 2 1 .opened, { window 2 2 .settling with settle := .expired }, collecting .closing,
      { window 3 4 .closed with tally := .sent }] (holding (p.windowSerial.getD ⟨2, 1⟩) base))

/-- The returned copy, or the timeout, of each notice whose outcome a block reads meets the premises. -/
theorem test_witness_OutcomeTaken :
    ∀ p ∈ [Payload.join 2 true, .windowOpen ⟨2, 1⟩ 1, .windowOpen ⟨2, 2⟩ 1, .windowClose ⟨2, 0⟩,
        .tally ⟨3, 4⟩ zeroTally, .probeEnd 101 1 .pass ⟨false, false, false, false⟩, .loopReset],
      (answering p).runState = .running ∧ p.bytes.length < 256 ∧ byte p.kind ≠ 0 ∧
        findEntry (answering p) 8 = some (sent 8 4 .inFlight p) ∧ (originalCopy 2 8 p).payload = p.bytes ∧
        (originalCopy 2 8 p).originator.toNat = (answering p).image.station ∧
        unmarkedPresent (answering p) (⟨0, 0⟩ : BestMarks) ≠ 0 ∧ (answering p).roster.entries.length = 24 ∧
        WindowsOk (answering p) ∧ (pathOrder (answering p)).Nodup ∧ RosterOk (answering p) ∧
        SlotsOk (answering p) := by decide

/-- A refusal and a settle timer that has run out free the records; a TAKEN mark of station 24 leaves it AWAITED. -/
theorem test_witness_OutcomeTaken_windows :
    (afterOutcome ⟨.windowOpen ⟨2, 1⟩ 1, .own⟩ ⟨0, 4⟩ (answering (.windowOpen ⟨2, 1⟩ 1))).sched.routine = [101, 103] ∧
      (afterOutcome ⟨.windowOpen ⟨2, 2⟩ 1, .own⟩ ⟨0, 0⟩ (answering (.windowOpen ⟨2, 2⟩ 1))).sched.routine =
        [101, 103] ∧
      (findWindow (answering (.windowClose ⟨2, 0⟩)) ⟨2, 0⟩ = some (collecting .closing) ∧
        ((collecting .closing).delivered 2 ⟨0x800000, 0⟩).table.any (· == .awaited) = true ∧
        ((collecting .closing).delivered 2 ⟨0, 0⟩).table.any (· == .awaited) = false) ∧
      (outcomeReports ⟨.windowClose ⟨2, 0⟩, .own⟩ ⟨0, 0⟩ (answering (.windowClose ⟨2, 0⟩))).length = 1 ∧
      (afterOutcome ⟨.join 2 true, .own⟩ ⟨0, 0⟩ base).roster.joined = true := by decide

def watching : State :=
  base.setScanner { base.scanner with watch := [⟨201, 15, 5, .routine, 60, 0x0401⟩] }

theorem test_witness_LingerAndWatchExpiriesRemoveTheirEntry :
    findEntry (awaiting [sent 8 1 .lingering (.stray 101 2 1 0)] base) 8 =
        some (sent 8 1 .lingering (.stray 101 2 1 0)) ∧
      ((awaiting [sent 8 1 .lingering (.stray 101 2 1 0)] base).loop.outstanding.map (·.number)).Nodup ∧
      findWatch watching 201 = some ⟨201, 15, 5, .routine, 60, 0x0401⟩ := by decide

/-- DRIVING; CLAIMING with its START out and with none; CLOSING with its END out. -/
theorem test_witness_SilenceTakesTheLoopDown :
    base.loop.up = true ∧ base.loop.silence = some 50 ∧ SlotsOk (probing (probe .driving) base) ∧
      SlotsOk claimed ∧ NumbersOk claimed ∧ (findPath claimed 101).any (fun r => r.line < claimed.lines.length) = true ∧
      (claimed.loop.outstanding.any fun o =>
        o.standing != .lingering && o.request.isStartOf 101 1) = true ∧
      ((probing (probe .claiming) base).loop.outstanding.any fun o =>
        o.standing != .lingering && o.request.isStartOf 101 1) = false ∧
      SlotsOk (probing (probe .closing) base) ∧
      ((awaiting [sent 8 1 .inFlight (.probeEnd 101 1 .pass ⟨false, false, false, false⟩)]
        (probing (probe .closing) base)).loop.outstanding.any fun o => o.standing != .lingering &&
          match o.request.payload with
          | .probeEnd c e _ _ => c == 101 && e == 1
          | _ => false) = true := by decide

theorem test_witness_SilenceTakesTheLoopDown_joined :
    JoiningOk claimed ∧ MarkersOk claimed ∧ JoiningOk (probing (probe .driving) base) ∧
      JoiningOk (probing (probe .closing) base) := by
  refine ⟨?_, ?_, ?_, ?_⟩ <;> decide

/-- What a LOOP DOWN ends at the Window Unit and the Roster Unit: a WINDOW OPEN at an OPEN and at an expired
window, a WINDOW CLOSE, a TALLY, the own LOOP RESET and, at another time, the JOIN. -/
def failing : State :=
  awaiting [sent 4 1 .inFlight (.windowOpen ⟨2, 0⟩ 1), sent 5 1 .retryWaiting (.windowOpen ⟨2, 1⟩ 1),
      sent 6 1 .inFlight (.windowClose ⟨2, 2⟩), sent 7 1 .inFlight (.tally ⟨3, 4⟩ zeroTally),
      sent 8 1 .inFlight .loopReset]
    (listing [window 2 0 .opened, { window 2 1 .settling with settle := .expired }, window 2 2 .closing,
      { window 3 4 .closed with tally := .sent }, window 4 4 .opened] base)

theorem test_witness_SilenceTakesTheLoopDown_outcomes :
    SlotsOk failing ∧ JoiningOk failing ∧ WindowsOk failing ∧
      (∀ o ∈ failing.loop.outstanding, o.standing ≠ .lingering ∧ o.request.purpose = .own ∧
        o.request.payload.windowSerial ≠ some ⟨4, 4⟩) ∧
      (failing.loop.outstanding.any fun o => o.failsWith 12) = true ∧ failing.ctl.queue.length ≤ 24 ∧
      failing.loop.outstanding.length ≤ 8 ∧ (window 2 2 .closing).table.length = 24 ∧
      (window 2 2 .closing).tableAt 2 ≠ .awaited ∧
      { window 2 2 .closing with table := List.replicate 24 .awaited }.tableAt 2 = .awaited ∧
      isPresent failing 3 = true ∧ failing.windows.requests = [] ∧
      ((sent 8 1 .inFlight (.join 2 true)).failsWith 1 = true ∧ stationOk failing.image.station = true) := by
  refine ⟨?_, ?_, ?_, ?_, ?_, ?_, ?_, ?_, ?_, ?_, ?_, ?_, ?_⟩ <;> decide

/-- A JOIN of station 24, which then has a PRESENT entry, a window and a baseline through it or not. -/
theorem test_witness_SilenceTakesTheLoopDown_records :
    RecordsOk failing ∧ WindowsOk failing ∧
      failing.loop.outstanding.filter (endsSettling failing) = [sent 5 1 .retryWaiting (.windowOpen ⟨2, 1⟩ 1)] ∧
      claimed.loop.outstanding.filter (endsSettling claimed) = [] ∧
      ∀ o ∈ failing.loop.outstanding, actsAlone failing o = true := by
  refine ⟨?_, ?_, ?_, ?_, ?_⟩ <;> decide

theorem test_witness_JoinDispatchTakesTheJoiner :
    (got 3 (.join 2 true) base).loop.receive = ⟨3, 7, .join 2 true, 3⟩ :: [] ∧ stationOk 3 = true ∧
      3 ≠ base.image.station ∧ base.roster.entries.length = 24 ∧ WindowsOk (got 3 (.join 2 true) base) ∧
      WindowsOk (got 3 (.join 2 true)
        (listing [collecting .collecting, window 2 1 .opened, window 3 0 .opened] base)) ∧
      (findPath base 101).any (fun r => r.state == .idle &&
        (r.baseline.getD []).any (fun h => h.station == 3)) = true ∧
      (probeAt (got 3 (.join 2 true) (probing (probe .driving) base)) 0).any (·.phase == .driving) = true ∧
      (∀ ph ∈ [Phase.claiming, .closing],
        probeAt (got 3 (.join 2 true) (probing (probe ph) base)) 0 = some (probe ph)) ∧
      ((probing (probe .claiming) base).probes.requests ++
        (probing (probe .claiming) base).loop.newNotices) = [] ∧
      (Request.isStartOf ⟨.probeStart 101 1 .routine 2, .own⟩ 101 1) = true ∧
      ((got 3 (.join 2 true) (listing [collecting .collecting, window 2 1 .opened, window 3 0 .opened]
        base)).windows.list.any fun w => w.serial.opener == 2 && w.state == .opened) = true := by decide

/-- A JOIN of station 3, whose window holds 101 and 103 and has a TALLY waiting, and which the table of a
COLLECTING window still awaits. -/
def rejoined : State :=
  got 3 (.join 2 true) (holding ⟨3, 0⟩
    { base with windows := { base.windows with
        list := [window 3 0 .opened,
          { window 2 0 .collecting with table := (List.replicate 24 .missing).set 2 .awaited }]
        requests := [⟨.tally ⟨3, 0⟩ zeroTally, .own⟩] } })

theorem test_witness_JoinDispatchTakesTheJoiner_windows :
    WindowsOk rejoined ∧ (pathOrder rejoined).Nodup ∧ (rejoined.paths.filter (freed ⟨3, 0⟩)).length = 2 ∧
      (after .joinDispatch rejoined).sched.routine = [101, 103] ∧
      (after .joinDispatch rejoined).windows.list = [] ∧
      (after .joinDispatch rejoined).windows.requests = [] ∧
      (after .joinDispatch rejoined).ctl.queue.length = 1 := by decide

theorem test_witness_PresentDispatchRecordsTheAdvertisement :
    (got 24 (.present 1 false) base).loop.receive = ⟨24, 7, .present 1 false, 3⟩ :: [] ∧
      stationOk 24 = true ∧ base.roster.entries.length = 24 ∧ isPresent base 3 = true ∧
      ((after .presentDispatch (got 3 (.present 1 false) base)).roster.grade < base.roster.grade ∧
        (probe .driving).phase = .driving) ∧
      (isPresent base 24 = false ∧ WindowsOk (listing [{ window 24 4 .closed with tally := .unsent }] base)) := by
  decide

theorem test_witness_AGradeFallSetsLowGrade :
    probeAt (probing (probe .driving) base) 0 = some (probe .driving) ∧ 1 < base.roster.grade ∧
      (base.setRoster { base.roster with grade := 1 }).roster.grade = 1 := by decide

theorem test_witness_ProbeStartDispatchWritesTheWatch :
    (got 3 (.probeStart 201 3 .routine 2) base).loop.receive = ⟨3, 7, .probeStart 201 3 .routine 2, 3⟩ :: [] ∧
      findPath base 201 = none ∧ (findPath base 101).isSome = true ∧ slotOf base 101 = none ∧
      slotOf (probing (probe .closing) base) 101 = some 0 ∧
      probeAt (probing (probe .closing) base) 0 = some (probe .closing) ∧
      slotOf (probing (probe .driving) base) 101 = some 0 ∧
      probeAt (probing (probe .driving) base) 0 = some (probe .driving) ∧
      slotOf (probing (probe .claiming) base) 101 = some 0 ∧
      probeAt (probing (probe .claiming) base) 0 = some (probe .claiming) ∧
      (findPath (probing (probe .claiming) base) 101).any (·.owed == []) = true ∧
      (Request.isStartOf ⟨.probeStart 101 1 .routine 2, .own⟩ 101 1) = true := by decide

def item : Item := ⟨101, 1, ⟨3, 0, .lineIn, .census, 5, none⟩⟩

def fullPool : State :=
  probing { probe .driving with pool := List.replicate 128 ⟨9, 9, .add, .expected, 3, none⟩ } base

theorem test_witness_SightingItemsReachTheirSlot :
    (got 3 (.sighting [item]) base).loop.receive = ⟨3, 7, .sighting [item], 3⟩ :: [] ∧
      drivingSlot base 101 1 = none ∧ drivingSlot (probing (probe .driving) base) 101 1 = some 0 ∧
      (({ probe .driving with pool := [item.record] } : Probe).pool.any fun r =>
        r.station == item.record.station && r.port == item.record.port) = true ∧
      (drivingSlot fullPool 101 1 = some 0 ∧ freeRecords fullPool = 0) ∧
      (0 < freeRecords (probing (probe .driving) base) ∧
        ({ probe .driving with mode := .census } : Probe).mode = .census) := by decide

/-- The records of the path of `base101`, so that its audit lands where the baseline does. -/
def landed : List PoolRecord :=
  [⟨2, 4, .add, .expected, 6, none⟩, ⟨2, 10, .lineOut, .expected, 6, some (3, 0)⟩,
   ⟨3, 0, .lineIn, .expected, 5, none⟩, ⟨3, 7, .drop, .expected, 5, none⟩]

/-- The last item of the path completes a ROUTINE probe early; the one before it does not. -/
theorem test_witness_SightingItemsReachTheirSlot_early :
    ∀ n ∈ [2, 3],
      drivingSlot (probing { probe .driving with pool := landed.take n } base) 101 1 = some 0 ∧
        probeAt (probing { probe .driving with pool := landed.take n } base) 0 =
          some { probe .driving with pool := landed.take n } ∧
        0 < freeRecords (probing { probe .driving with pool := landed.take n } base) ∧
        completesEarly 2 { probe .driving with pool := landed.take (n + 1) } (some base101) = (n == 3) := by
  decide

theorem test_witness_ProbeEndDispatchUpdatesTheTable :
    (got 5 (.probeEnd 201 15 .pass ⟨false, false, false, false⟩) watching).loop.receive =
        ⟨5, 7, .probeEnd 201 15 .pass ⟨false, false, false, false⟩, 3⟩ :: [] ∧
      findWatch base 201 = none ∧ findWatch watching 201 = some ⟨201, 15, 5, .routine, 60, 0x0401⟩ ∧
      (findPath watching 201 = none ∧ (findPath watching 101).isSome = true) ∧
      ((watching.image.classAt 0).isIn = true ∧ (watching.image.classAt 10).isOut = true ∧
        addPort (addPort 0 0) 10 = 0x0401) ∧
      (findHop watching.hops 201 = none ∧ watching.hops.length < 256) ∧
      (portsOf 0x0400).length ≠ 2 ∧
      (∀ i ∈ List.range 16, ∀ o ∈ List.range 16, (watching.image.classAt i).isIn = true →
        (watching.image.classAt o).isOut = true → (0x0C00 : PortSet) ≠ addPort (addPort 0 i) o) ∧
      256 ≤ (watching.setHops ((List.range 256).map fun c => headEntry (c + 300))).hops.length := by decide

theorem test_witness_DeadlineExpiryEvaluates :
    probeAt (probing (probe .driving) base) 0 = some (probe .driving) ∧
      (probe .driving).deadline = some 90 ∧
      (findPath (probing (probe .driving) base) 101).any (fun r => r.hold == [] && r.owed == []) = true ∧
      SlotsOk (probing (probe .driving) base) ∧ (pathOrder (probing (probe .driving) base)).Nodup ∧
      base.ctl.queue.length < 32 ∧
      (judge 2 2 { probe .driving with pool := landed } (some base101) none).record.verdict = .pass ∧
      (judge 2 2 { probe .driving with pool := landed } (some base101) none).hops ≠ [] ∧
      (findPath (probing (probe .driving) { base with paths := base.paths.map fun r =>
        { r with hold := [⟨2, 0⟩], owed := [⟨2, 0⟩] } }) 101).any (·.hold != []) = true ∧
      (findPath (probing { probe .driving with overlap := true } { base with paths := base.paths.map fun r =>
        { r with owed := [⟨2, 0⟩] } }) 101).any (fun r => r.hold == [] && r.owed == [⟨2, 0⟩]) = true := by
  decide

/-- Circuit 101 is probed and owes a window of this station, which awaits its own tally alone, and one of
station 3. -/
def owing : State :=
  probing (probe .driving) (listing
    [{ window 2 0 .collecting with table := (List.replicate 24 .notExpected).set 1 .awaited },
     window 3 4 .closed]
    { base with paths := base.paths.map fun r =>
        if r.circuit = 101 then { r with owed := [⟨3, 4⟩, ⟨2, 0⟩] } else r })

/-- The credits of an evaluation of that probe, with no other record that owes them and with one. -/
theorem test_witness_DeadlineExpiryEvaluates_credits :
    RecordsOk owing ∧ WindowsOk owing ∧ SlotsOk owing ∧
      (findPath owing 101).map (creditedSerials (probe .driving)) = some [⟨3, 4⟩, ⟨2, 0⟩] ∧
      (findPath owing 101).map (creditedSerials { probe .driving with overlap := true }) = some [] ∧
      (findWindow owing ⟨2, 0⟩).any (summedUp (probe .driving) .broken owing) = true ∧
      (findWindow owing ⟨3, 4⟩).any (·.talliesAway 2) = true ∧
      owedByNone owing 101 ⟨3, 4⟩ = true ∧ owedByNone owing 103 ⟨3, 4⟩ = false := by
  refine ⟨?_, ?_, ?_, ?_, ?_, ?_, ?_, ?_, ?_⟩ <;> decide

/-- A failed probe counts in both windows: the summary leaves this station, a TALLY goes to station 3. -/
theorem test_deadlineExpiry_credits :
    (after (.deadlineExpiry 0) owing).windows.list =
        [{ window 3 4 .closed with tally := .pending, counts := ⟨0, 0, 0, 1, 0, some 101⟩ }] ∧
      (after (.deadlineExpiry 0) owing).windows.requests =
        [⟨.tally ⟨3, 4⟩ ⟨0, 0, 0, 1, 0, some 101⟩, .own⟩] ∧
      (after (.deadlineExpiry 0) owing).ctl.queue.head? = some (0, .windowSummary
        { serial := ⟨2, 0⟩, totals := ⟨0, 0, 0, 1, 0, none⟩, received := 1, failures := [(2, 101)]
          missing := 0, unreached := 0 }) := by decide

theorem test_witness_VerdictsFollowTheTable :
    (({ probe .driving with conflict := true } : Probe).conflict = true) ∧
      (({ probe .driving with mode := .census } : Probe).mode = .census ∧ (probe .driving).conflict = false) ∧
      (assemble 2 landed).landing = some (3, 7) ∧
      base101.getLast?.map (fun h => (h.station, h.egress)) = some (3, 7) ∧
      ((assemble 2 (landed.take 3)).landing = none ∧ (assemble 2 (landed.take 3)).loopStation = none) ∧
      (assemble 2 [⟨2, 4, .add, .expected, 6, none⟩,
        ⟨2, 10, .lineOut, .expected, 6, some (2, 0)⟩]).loopStation.isSome = true ∧
      completesEarly 2 { probe .driving with pool := landed } (some base101) = true ∧
      (∀ r ∈ landed, stationOk r.station = true) := by decide

/-- A chain that lands, one that loops, one that ends at a stub, one that stops, and none; a DEGRADED pair. -/
theorem test_witness_VerdictsFollowTheTable_chains :
    (assemble 2 landed).links.length = 2 ∧ (assemble 2 (landed.take 3)).ending = .stub ⟨3, 0, .lineIn, .expected, 5, none⟩ ∧
      (assemble 2 (landed.take 2)).ending = .stopped ∧ (assemble 2 (landed.take 2)).links.length = 1 ∧
      (assemble 2 (landed.take 1)).links = [] ∧
      (assemble 2 [⟨2, 4, .add, .expected, 6, none⟩,
        ⟨2, 10, .lineOut, .expected, 6, some (2, 0)⟩]).ending = .looped 2 ∧
      degraded 1 base101 [⟨2, 4, 10, some 5, none⟩] = true ∧
      (judge 2 2 { probe .driving with mode := .census } none none).record.hopsShort = none ∧
      (judge 2 2 { probe .driving with blind := 2, poolShort := true } (some base101) none).record.reason =
        some .blind ∧
      (judge 2 2 { probe .driving with pool := landed.take 2, absent := 4 } (some base101) none).record.reason =
        some .absent ∧
      (judge 2 2 { probe .driving with loopLost := true } (some base101) none).record.reason = some .loop := by
  decide

def requested : State := base.setScanner { base.scanner with request := some 4 }

theorem test_witness_DwellsWalkThePorts :
    base.scanner.dwell = some ⟨0, false, false, 20⟩ ∧ requested.scanner.request = some 4 ∧
      (base.scanner.walkPort = some 0 ∧ base.scanner.request = none ∧
        ((List.range 16).filter (fun x => base.image.classAt x != .unused && decide (0 < x)) ++
          (List.range 16).filter (fun x => base.image.classAt x != .unused)).head? = some 1) ∧
      (⟨0, true, true, 20⟩ : Dwell).wanted = true ∧ base.runState = .running ∧
      base.image.ports.length = 16 ∧ 15 < (16 : Byte).toNat ∧ base.image.classAt (15 : Byte).toNat = .unused ∧
      base.image.classAt (13 : Byte).toNat ≠ .unused := by decide

/-- A tag found twice keeps its strongest level; of 65 tags the last one is not listed. -/
theorem test_witness_DwellsWalkThePorts_results :
    dwellResult 0 [⟨9, 1, 2⟩, ⟨9, 0, 4⟩, ⟨0, 1, 7⟩, ⟨9, 1, 5⟩] = ⟨0, [⟨9, 0, 4⟩, ⟨9, 1, 5⟩], false⟩ ∧
      (dwellResult 0 ((List.range 66).reverse.map fun c => ⟨c, 0, 1⟩)).overflow = true := by decide

def transit : HopEntry := ⟨200, .transit, 0, some 10, 5, false, 2⟩

/-- A transit entry at its third miss, a misplaced tag of it, one of this station; the same port in a window;
an item of a watched circuit at a port it has not reported. -/
theorem test_witness_TagsFormItemsAndStrays :
    (base.setHops [transit]).scanner.dwell = some ⟨0, false, false, 20⟩ ∧
      (CircuitTableOk base ∧ ScannerOk base ∧ (pathOrder base).Nodup) ∧
      (straysListed { base with hops := base.hops.set 3 transit } (dwellResult 0 []) = [(transit, .missing)] ∧
        CircuitTableOk { base with hops := base.hops.set 3 transit } ∧
        transit.headStation ≠ base.image.station) ∧
      straysListed base (dwellResult 1 [⟨200, 0, 3⟩]) = [(⟨200, .transit, 0, some 10, 5, false, 0⟩, .misplaced)] ∧
      straysOwn base (dwellResult 1 [⟨103, 0, 3⟩, ⟨101, 0, 3⟩]) = [101, 103] ∧
      straysChecked base 0 = true ∧
      straysChecked (listing [{ window 2 0 .opened with scope := 1 }] base) 0 = false ∧
      (findWatch (watching.setScanner { watching.scanner with
          watch := [⟨201, 15, 5, .routine, 60, 0⟩] }) 201 = some ⟨201, 15, 5, .routine, 60, 0⟩ ∧
        drivingSlot watching 201 15 = none ∧ portIn 0 0 = false ∧ watching.scanner.backlog.length < 32) := by
  decide

/-- A dwell that ends at 20: an entry that expires at 20 applies to no tag and is gone, one at 21 stands. -/
theorem test_dwellEnd_expired :
    ∀ e ∈ [20, 21], (after (.dwellEnd [⟨201, 15, 4⟩]) (base.setScanner { base.scanner with
        watch := [⟨201, 15, 5, .routine, e, 0⟩] })).scanner.backlog.length = e - 20 ∧
      (findWatch (atDwellEnd ⟨0, false, false, 20⟩ (base.setScanner { base.scanner with
        watch := [⟨201, 15, 5, .routine, e, 0⟩] })) 201).isSome = (e == 21) := by decide

/-- A full backlog, a reported port, an own slot that drives the epoch: the last item of its path, or one more
than the pool has room for. -/
theorem test_witness_TagsFormItemsAndStrays_slots :
    32 ≤ (watching.setScanner { watching.scanner with
        backlog := List.replicate 32 ⟨1, 1, ⟨1, 1, .add, .census, 1, none⟩⟩ }).scanner.backlog.length ∧
      (findWatch watching 201).all (fun w => w.epoch != 15 || portIn w.reported 0) = true ∧
      drivingSlot (probing (probe .driving) base) 101 1 = some 0 ∧
      probeAt (probing (probe .driving) base) 0 = some (probe .driving) ∧
      (drivingSlot fullPool 101 1 = some 0 ∧ freeRecords fullPool = 0) ∧
      completesEarly 2 { probe .driving with pool := landed.tail ++ landed.take 1 } (some base101) = true := by
  decide

/-- The rows of the table of R35: an entry's ingress, a HEAD entry without egress at an out-class port, and at
another port. -/
theorem test_witness_TagsFormItemsAndStrays_kinds :
    findHop base.hops 999 = none ∧ findHop base.hops 101 = some (headEntry 101) ∧
      (headEntry 101).ingress = 4 ∧ base.image.classAt 11 = .lineOut ∧
      itemKind base .routine 101 11 = .unexpected ∧
      itemKind (base.setHops [{ headEntry 101 with egress := none }]) .sweep 101 11 = .expected := by decide

def monitored (m : LossMonitor) : State :=
  base.setScanner { base.scanner with monitors := base.scanner.monitors.set 0 m }

theorem test_witness_LossMonitorsFollowTheirInputs :
    ∀ m ∈ [LossMonitor.clear, .lossPending 90, .loss, .clearPending 90],
      (monitored m).scanner.monitors.length = 16 ∧ (monitored m).runState = .running ∧
        (monitored m).image.classAt 0 = .lineIn ∧ (monitored m).scanner.monitors.getD 0 .clear = m ∧
        (monitored m).image.holdOffCode ≠ 0 ∧
        ((monitored m).setImage { testImage with holdOffCode := 0 }).image.holdOffCode = 0 ∧
        inOwnWindow (monitored m) 0 = false ∧ (monitored m).scanner.alarms = [] := by decide

end Sys2Proof.Tests
end

