-- ==== Sys2Proof/Proofs/LoopGrade.lean ====
section
/-! The loop grade and the probes: what a change of the grade does to the slots (R66, R169), and where the LOW-GRADE
flag of a slot goes. -/

namespace Sys2Proof.Machine

/-! ### A grade applied to the slots -/

theorem probeAt_modifyDriving (i : Nat) (f : Probe → Probe) (s : State) :
    probeAt (modifyDriving f s) i =
      (probeAt s i).map fun p => if p.phase = .driving then f p else p := by
  simp only [probeAt, modifyDriving, setSlots, State.setProbes_fields, List.getD_eq_getElem?_getD,
    List.getElem?_map]
  cases s.probes.slots[i]? <;> rfl

/-- LOW-GRADE is set by the slots as they were: the grade and the GRADE flag written before do not concern them. -/
theorem applyGrade_probes_of_fall (g : Nat) (s : State) (h : g < s.roster.grade) :
    (applyGrade g s).probes = (lowGrade s).probes := by
  simp only [applyGrade, if_neg (Nat.ne_of_lt h), if_pos h]
  rfl

theorem applyGrade_probes_of_no_fall (g : Nat) (s : State) (h : ¬ g < s.roster.grade) :
    (applyGrade g s).probes = s.probes := by
  by_cases hsame : g = s.roster.grade
  · simp only [applyGrade, if_pos hsame]
  · simp [applyGrade, if_neg hsame, if_neg h]

theorem probeAt_applyGrade_of_fall (i g : Nat) (s : State) (h : g < s.roster.grade) :
    probeAt (applyGrade g s) i =
      (probeAt s i).map fun p => if p.phase = .driving then { p with lowGrade := true } else p := by
  have hslots : probeAt (applyGrade g s) i = probeAt (lowGrade s) i := by
    simp only [probeAt, applyGrade_probes_of_fall g s h]
  rw [hslots, lowGrade, probeAt_modifyDriving]

theorem probeAt_applyGrade_of_no_fall (i g : Nat) (s : State) (h : ¬ g < s.roster.grade) :
    probeAt (applyGrade g s) i = probeAt s i := by
  simp only [probeAt, applyGrade_probes_of_no_fall g s h]

theorem probeAt_applyGrade (i g : Nat) (p : Probe) (s : State) (hp : probeAt s i = some p) :
    probeAt (applyGrade g s) i = some (if g < s.roster.grade ∧ p.phase = .driving
      then { p with lowGrade := true } else p) := by
  by_cases h : g < s.roster.grade
  · simp [probeAt_applyGrade_of_fall i g s h, hp, h]
  · simp [probeAt_applyGrade_of_no_fall i g s h, hp, h]

/-! ### The flag and the levels it speaks of -/

theorem drivingProbe_lowGrade (s : State) (p : Probe) (r : PathRecord) (b : BestMarks) (failed : Bool) :
    (drivingProbe s p r b failed).lowGrade = p.lowGrade := rfl

/-- A level class is reported at grade 2 alone (R34). -/
theorem itemLevel_of_grade_ne_two (s : State) (level : Nat) (h : s.roster.grade ≠ 2) :
    itemLevel s level = 0 := if_neg h

theorem formItem_level (s : State) (m : Mode) (port : Nat) (t : Tag) :
    (formItem s m port t).record.level = itemLevel s t.level := rfl

/-- Both forms of a judgement, CONFLICT and an assembled chain, copy the slot's flag (R82, R84). -/
theorem judge_lowGrade (head margin : Nat) (p : Probe) (base : Option (List Hop)) (o : Option Origin) :
    (judge head margin p base o).record.flags.lowGrade = p.lowGrade := by
  unfold judge
  split
  case isTrue => rfl
  case isFalse => rfl

/-- Settles O52, clause by clause: the slots after a grade is applied, by whether it falls; entry to DRIVING; the
level of an item; the flags of a judgement. -/
theorem aGradeFallSetsLowGrade : Obligations.AGradeFallSetsLowGrade := by
  refine ⟨probeAt_applyGrade, drivingProbe_lowGrade, fun s m port t hgrade => ?_, judge_lowGrade⟩
  have hne : s.roster.grade ≠ 2 := by omega
  rw [formItem_level, itemLevel_of_grade_ne_two s t.level hne]

end Sys2Proof.Machine
end

