-- ==== Sys2Proof/Proofs/HoldRelease.lean ====
section
/-! The end of a window's holds (R16, R97): the walk over the records that `releaseHolds` makes is one change of the
record list, `afterRelease`; what the entry of a cancelled window leaves; and the window notices that are requested. -/

namespace Sys2Proof.Machine

/-! ### One record of the list -/

/-- The record in the middle of the list is the one its circuit finds. -/
theorem findPath_of_split {s : State} {before after : List PathRecord} {r : PathRecord}
    (hs : s.paths = before ++ r :: after) (hnd : (pathOrder s).Nodup) : findPath s r.circuit = some r := by
  rw [pathOrder, hs, List.map_append, List.map_cons, List.nodup_middle, List.nodup_cons] at hnd
  have hbefore : ∀ x ∈ before, ¬ (x.circuit == r.circuit) = true := fun x hx he =>
    hnd.1 (List.mem_append_left _ (beq_iff_eq.1 he ▸ List.mem_map_of_mem hx))
  simp [findPath, hs, List.find?_append, List.find?_eq_none.2 hbefore]

/-- A change at its circuit changes that record and no other. -/
theorem modifyPath_of_split {s : State} {before after : List PathRecord} {r : PathRecord}
    (f : PathRecord → PathRecord) (hs : s.paths = before ++ r :: after) (hnd : (pathOrder s).Nodup) :
    modifyPath r.circuit f s = s.setPaths (before ++ f r :: after) := by
  rw [pathOrder, hs, List.map_append, List.map_cons, List.nodup_middle, List.nodup_cons, ← List.map_append] at hnd
  have hother : ∀ l : List PathRecord, l ⊆ before ++ after →
      (l.map fun x => if x.circuit = r.circuit then f x else x) = l := by
    intro l hl
    refine (List.map_congr_left fun x hx => ?_).trans (List.map_id l)
    exact if_neg fun he : x.circuit = r.circuit => hnd.1 (he ▸ List.mem_map_of_mem (hl hx))
  simp [modifyPath, hs, hother before (by simp), hother after (by simp)]

/-! ### One release (R16) -/

theorem freed_iff (ser : Serial) (r : PathRecord) :
    freed ser r = true ↔ ser ∈ r.hold ∧ r.state = .held ∧ r.hold.erase ser = [] := by
  simp only [freed, Bool.and_eq_true, beq_iff_eq, List.contains_iff_mem]
  tauto

/-- A record without the serial is as released already. -/
theorem released_of_not_mem {ser : Serial} {r : PathRecord} (h : ser ∉ r.hold) : released ser r = r := by
  have hfreed : freed ser r = false := by simp [freed, h]
  simp [released, hfreed, List.erase_of_not_mem h]

/-- The Audit Scheduler with circuits at the tail of the routine list (R16, R115). -/
def Scheduler.withRoutine (x : Scheduler) (l : List Nat) : Scheduler := { x with routine := x.routine ++ l }

@[simp] theorem Scheduler.withRoutine_nil (x : Scheduler) : x.withRoutine [] = x := by simp [withRoutine]

@[simp] theorem Scheduler.withRoutine_withRoutine (x : Scheduler) (l m : List Nat) :
    (x.withRoutine l).withRoutine m = x.withRoutine (l ++ m) := by simp [withRoutine]

/-- A record that the serial's removal frees is queued, and stands at the tail of the routine list. -/
theorem removeHold_of_freed {s : State} {before after : List PathRecord} {r : PathRecord} {ser : Serial}
    (hs : s.paths = before ++ r :: after) (hnd : (pathOrder s).Nodup) (hfreed : freed ser r = true) :
    removeHold ser r.circuit s =
      (s.setPaths (before ++ released ser r :: after)).setSched (s.sched.withRoutine [r.circuit]) := by
  obtain ⟨hmem, hfree⟩ := (freed_iff ser r).1 hfreed
  have hmid : pathOrder (s.setPaths (before ++ { r with hold := r.hold.erase ser } :: after)) = pathOrder s := by
    simp [pathOrder, hs]
  simp only [removeHold, findPath_of_split hs hnd, if_neg (not_not_intro hmem), if_pos hfree, enqueue, joinList,
    modifyPath_of_split _ hs hnd]
  rw [modifyPath_of_split (r := { r with hold := r.hold.erase ser }) _ rfl (hmid ▸ hnd)]
  simp [released, hfreed, Scheduler.withRoutine]

/-- One step of the walk. -/
theorem removeHold_of_split {s : State} {before after : List PathRecord} {r : PathRecord} (ser : Serial)
    (hs : s.paths = before ++ r :: after) (hnd : (pathOrder s).Nodup) :
    removeHold ser r.circuit s = (s.setPaths (before ++ released ser r :: after)).setSched
      (s.sched.withRoutine (([r].filter (freed ser)).map (·.circuit))) := by
  by_cases hfreed : freed ser r = true
  · simpa [hfreed] using removeHold_of_freed hs hnd hfreed
  · have hstays : ¬ (ser ∈ r.hold ∧ r.state = .held ∧ r.hold.erase ser = []) := mt (freed_iff ser r).2 hfreed
    by_cases hmem : ser ∈ r.hold
    · have hkept : released ser r = { r with hold := r.hold.erase ser } := by simp [released, hfreed]
      simp only [removeHold, findPath_of_split hs hnd, if_neg (not_not_intro hmem),
        if_neg fun h => hstays ⟨hmem, h⟩, modifyPath_of_split _ hs hnd]
      simp [hfreed, hkept, State.setSched, State.setPaths]
    · simp only [removeHold, findPath_of_split hs hnd, if_pos hmem, released_of_not_mem hmem, ← hs]
      simp [hfreed]

/-! ### The walk over the records (R16) -/

/-- The walk over the rest of the records, those before released already. -/
theorem foldl_removeHold (ser : Serial) (after : List PathRecord) : ∀ (before : List PathRecord) (s : State),
    s.paths = before ++ after → (pathOrder s).Nodup →
    (after.map (·.circuit)).foldl (fun t c => removeHold ser c t) s =
      (s.setPaths (before ++ after.map (released ser))).setSched
        (s.sched.withRoutine ((after.filter (freed ser)).map (·.circuit))) := by
  induction after with
  | nil => intro before s hs _; simp [← hs]
  | cons r after ih =>
    intro before s hs hnd
    have horder : ((before ++ released ser r :: after).map (·.circuit)).Nodup := by
      simpa [pathOrder, hs, released] using hnd
    rw [List.map_cons, List.foldl_cons, removeHold_of_split ser hs hnd,
      ih (before ++ [released ser r]) _ (by simp) (by simpa [pathOrder] using horder)]
    simp [State.setSched, State.setPaths, List.filter_cons]
    split <;> simp

/-- The walk is one change of the record list and of the routine list. -/
theorem releaseHolds_eq_afterRelease (ser : Serial) (s : State) (hnd : (pathOrder s).Nodup) :
    releaseHolds ser s = afterRelease ser s :=
  foldl_removeHold ser s.paths [] s rfl hnd

end Sys2Proof.Machine
end

