-- ==== Sys2Proof/Proofs/WindowCancel.lean ====
section
/-! The cancel of a window (R97): what it leaves of the records, the list and the pending notices, at the CANCEL WINDOW
command (R98) and at a dispatched WINDOW CANCEL (R99). -/

namespace Sys2Proof.Machine

/-! ### The entry of a cancelled window (R97) -/

/-- The Window Unit after the cancel of a serial. -/
def WindowUnit.without (ser : Serial) (u : WindowUnit) : WindowUnit :=
  { u with
    list := u.list.filter fun v => v.serial != ser
    requests := u.requests.filter fun x => x.payload.windowSerial != some ser || x.payload.kind == 4 }

theorem cancelWindowEntry_eq (ser : Serial) (s : State) (hnd : (pathOrder s).Nodup) :
    cancelWindowEntry ser s =
      ((s.setPaths (s.paths.map fun r => { released ser r with owed := r.owed.erase ser })).setSched
        (afterRelease ser s).sched).setWindows (s.windows.without ser) := by
  rw [cancelWindowEntry, releaseHolds_eq_afterRelease ser s hnd]
  simp [afterRelease, dropOwed, dropWindowRequests, dropWindow, WindowUnit.without, released, State.setPaths,
    State.setSched, State.setWindows, bne]

theorem WindowUnit.kind_of_mem_without {ser : Serial} {u : WindowUnit} {x : Request}
    (hx : x ∈ (u.without ser).requests) (hser : x.payload.windowSerial = some ser) : x.payload.kind = 4 := by
  simpa [without, hser] using (List.mem_filter.1 hx).2

/-- The pending notices of the other windows stay. -/
theorem WindowUnit.filter_without (ser : Serial) (u : WindowUnit) :
    ((u.without ser).requests.filter fun x => x.payload.windowSerial != some ser) =
      u.requests.filter fun x => x.payload.windowSerial != some ser := by
  simp only [without, List.filter_filter]
  congr 1
  funext x
  cases x.payload.windowSerial != some ser <;> rfl

/-! ### A window notice is requested (R91) -/

theorem requestWindow_own_eq (p : Payload) (s : State) :
    requestWindow ⟨p, .own⟩ s = s.setWindows { s.windows with requests := noticeAsked p s.windows.requests } := by
  rw [← requestWindow_own]
  rfl

theorem mem_noticeAsked {p : Payload} {l : List Request} {x : Request} (hx : x ∈ noticeAsked p l) :
    x.payload = p ∨ ∃ q ∈ l, q.payload = x.payload := by
  unfold noticeAsked at hx
  split at hx
  · obtain ⟨q, hq, rfl⟩ := List.mem_map.1 hx
    exact .inr ⟨q, hq, by split <;> rfl⟩
  · rcases List.mem_append.1 hx with hx | hx
    · exact .inr ⟨x, hx, rfl⟩
    · exact .inl (by rw [List.mem_singleton.1 hx])

/-- The notices of the other serials stay. -/
theorem filter_noticeAsked (p : Payload) (l : List Request) :
    ((noticeAsked p l).filter fun x => x.payload.windowSerial != p.windowSerial) =
      l.filter fun x => x.payload.windowSerial != p.windowSerial := by
  unfold noticeAsked
  split
  case isTrue h =>
    clear h
    induction l with
    | nil => rfl
    | cons q l ih =>
      by_cases hq : q.payload.kind = p.kind ∧ q.payload.windowSerial = p.windowSerial
      · simpa [hq] using ih
      · simp only [List.map_cons, if_neg hq, List.filter_cons, ih]
  case isFalse => simp

theorem windowCancel_of_kind {p : Payload} {ser : Serial} (hkind : p.kind = 4) (hser : p.windowSerial = some ser) :
    p = .windowCancel ser := by
  cases p <;> simp_all [Payload.kind, Payload.windowSerial]

/-- A WINDOW CANCEL that is requested stands among the pending notices. -/
theorem any_noticeAsked_windowCancel (ser : Serial) (l : List Request) :
    ((noticeAsked (.windowCancel ser) l).any fun x => x.payload == .windowCancel ser) = true := by
  unfold noticeAsked
  split
  case isTrue h =>
    obtain ⟨q, hq, hsame⟩ := List.any_eq_true.1 h
    rw [Bool.and_eq_true, beq_iff_eq, beq_iff_eq] at hsame
    refine List.any_eq_true.2 ⟨_, List.mem_map_of_mem hq, ?_⟩
    rw [if_pos hsame, windowCancel_of_kind hsame.1 hsame.2, beq_self_eq_true]
  case isFalse => simp

/-! ### CANCEL WINDOW (R98) -/

@[simp] theorem heldCommand_frame (c : Instr) (s : State) :
    (heldCommand c s).paths = s.paths ∧ (heldCommand c s).windows = s.windows ∧
    (heldCommand c s).hops = s.hops ∧ (heldCommand c s).lines = s.lines ∧
    (heldCommand c s).probes = s.probes ∧ (heldCommand c s).sched = s.sched ∧
    (heldCommand c s).loop = s.loop ∧ (heldCommand c s).roster = s.roster ∧
    (heldCommand c s).image = s.image ∧ (heldCommand c s).scanner = (requestEnded s).scanner ∧
    (heldCommand c s).ctl.queue = s.ctl.queue := by
  simp [heldCommand, requestEnded]

/-- A frame taken while RUNNING is served at once. -/
theorem exec_cancelWindow_of_running (q : Byte) (s : State) (hrun : s.runState = .running) :
    exec (.cancelWindow q) s = .next (answer (.cancelWindow q)
      (serveCancelWindow q.toNat (heldCommand (.cancelWindow q) s))) := by
  have harm : exec (.cancelWindow q) s = .next (gateCancelWindow q (intakeCommand (.cancelWindow q) s)) := rfl
  simp only [harm, gateCancelWindow, gate, intakeCommand_frame, hrun]
  rfl

theorem exec_cancelWindow_of_refused (q : Byte) (r : ResultCode) (s : State) (hrun : s.runState = .running)
    (h : serveCancelWindow q.toNat (heldCommand (.cancelWindow q) s) =
      refuse r (heldCommand (.cancelWindow q) s)) :
    exec (.cancelWindow q) s = .next (answered (.cancelWindow q) 0x12 r .empty s) := by
  rw [exec_cancelWindow_of_running q s hrun, h]
  rfl

theorem serveCancelWindow_of_unlisted (seq : Nat) (s : State) (h : findWindow s ⟨s.own, seq⟩ = none) :
    serveCancelWindow seq s = refuse .refusedUnknown s := by
  simp only [serveCancelWindow, h]

theorem serveCancelWindow_of_past (seq : Nat) (w : Window) (s : State) (hw : findWindow s ⟨s.own, seq⟩ = some w)
    (hpast : w.inForce = false) : serveCancelWindow seq s = refuse .refusedState s := by
  simp [serveCancelWindow, hw, hpast]

/-- The pending notices after a CANCEL WINDOW: those of R97, and a WINDOW CANCEL where the WINDOW OPEN was granted. -/
def WindowUnit.requestsCancelled (ser : Serial) (announced : Bool) (u : WindowUnit) : List Request :=
  if announced then noticeAsked (.windowCancel ser) (u.without ser).requests else (u.without ser).requests

theorem WindowUnit.kind_of_mem_requestsCancelled {ser : Serial} {announced : Bool} {u : WindowUnit} {x : Request}
    (hx : x ∈ u.requestsCancelled ser announced) (hser : x.payload.windowSerial = some ser) :
    x.payload.kind = 4 := by
  unfold requestsCancelled at hx
  split at hx
  · rcases mem_noticeAsked hx with hnew | ⟨y, hy, hpayload⟩
    · rw [hnew]; rfl
    · rw [← hpayload] at hser ⊢
      exact kind_of_mem_without hy hser
  · exact kind_of_mem_without hx hser

theorem WindowUnit.filter_requestsCancelled (ser : Serial) (announced : Bool) (u : WindowUnit) :
    ((u.requestsCancelled ser announced).filter fun x => x.payload.windowSerial != some ser) =
      u.requests.filter fun x => x.payload.windowSerial != some ser := by
  unfold requestsCancelled
  split
  · exact (filter_noticeAsked (.windowCancel ser) _).trans (filter_without ser u)
  · exact filter_without ser u

/-- The state that a cancelled window leaves, with the WINDOW CANCEL requested where it was announced. -/
def cancelled (ser : Serial) (announced : Bool) (s : State) : State :=
  if announced then requestWindow ⟨.windowCancel ser, .own⟩ (cancelWindowEntry ser s) else cancelWindowEntry ser s

theorem serveCancelWindow_of_inForce (seq : Nat) (w : Window) (s : State)
    (hw : findWindow s ⟨s.own, seq⟩ = some w) (hin : w.inForce = true) :
    serveCancelWindow seq s = ⟨.done, .cancelled w.announced, cancelled ⟨s.own, seq⟩ w.announced s⟩ := by
  simp [serveCancelWindow, hw, hin, cancelled]

theorem cancelled_eq (ser : Serial) (announced : Bool) (s : State) (hnd : (pathOrder s).Nodup) :
    cancelled ser announced s =
      ((s.setPaths (s.paths.map fun r => { released ser r with owed := r.owed.erase ser })).setSched
        (afterRelease ser s).sched).setWindows { s.windows.without ser with
          requests := s.windows.requestsCancelled ser announced } := by
  rw [cancelled, cancelWindowEntry_eq ser s hnd]
  cases announced
  · simp [WindowUnit.requestsCancelled]
  · simp [WindowUnit.requestsCancelled, requestWindow_own_eq]

/-- Settles O29: the two refusals leave the state alone; a window in force is cancelled as R97 says. -/
theorem cancelWindowReleasesItsRecords : Obligations.CancelWindowReleasesItsRecords := by
  intro q s hrun hnd
  refine ⟨fun hnone => ?_, fun w hw => ⟨fun hstate => ?_, fun hstate => ?_⟩⟩
  · exact exec_cancelWindow_of_refused q _ s hrun (serveCancelWindow_of_unlisted _ _ hnone)
  · have hpast : w.inForce = false := by simp [Window.inForce, hstate]
    exact exec_cancelWindow_of_refused q _ s hrun (serveCancelWindow_of_past _ w _ hw hpast)
  · have hin : w.inForce = true := by simpa [Window.inForce] using hstate
    have hserve := serveCancelWindow_of_inForce q.toNat w (heldCommand (.cancelWindow q) s) hw hin
    rw [cancelled_eq _ _ (heldCommand (.cancelWindow q) s) hnd] at hserve
    refine ⟨_, (exec_cancelWindow_of_running q s hrun).trans (congrArg _ (congrArg _ hserve)),
      rfl, rfl, rfl, rfl, fun x => WindowUnit.kind_of_mem_requestsCancelled, fun hannounced => ?_,
      fun hannounced => ?_, WindowUnit.filter_requestsCancelled _ _ s.windows,
      rfl, ?_⟩
    · rw [hannounced]
      exact any_noticeAsked_windowCancel _ _
    · rw [hannounced]
      rfl
    · simp [answer]

/-! ### WINDOW_CANCEL_DISPATCH (R99) -/

/-- A notice of the row leaves the receive queue and acts. -/
theorem dispatchOldest_of_act {s : State} {r : Received} {rest : List Received}
    {act : Received → Option (State → State)} {f : State → State} (hs : s.loop.receive = r :: rest)
    (hact : act r = some f) : dispatchOldest act s = f (dispatched s) := by
  simp only [dispatchOldest, hs, hact]
  rfl

theorem exec_windowCancelDispatch {s : State} {r : Received} {rest : List Received} {ser : Serial}
    (hs : s.loop.receive = r :: rest) (hr : r.payload = .windowCancel ser) :
    exec .windowCancelDispatch s = .next (takeWindowCancel ser (dispatched s)) := by
  have harm : exec .windowCancelDispatch s = execWindowCancelDispatch s := rfl
  rw [harm, execWindowCancelDispatch, dispatchOldest_of_act hs (f := takeWindowCancel ser) (by simp only [hr])]

theorem takeWindowCancel_of_unlisted {ser : Serial} {s : State} (h : findWindow s ser = none) :
    takeWindowCancel ser s = s := by
  simp [takeWindowCancel, h]

theorem takeWindowCancel_of_listed {ser : Serial} {s : State} (h : (findWindow s ser).isSome = true) :
    takeWindowCancel ser s = cancelWindowEntry ser s := by
  simp [takeWindowCancel, h]

/-- The part of O30 that is about WINDOW_CANCEL_DISPATCH. -/
theorem windowCancelDispatch_removes {s : State} {r : Received} {rest : List Received} {ser : Serial}
    (hs : s.loop.receive = r :: rest) (hr : r.payload = .windowCancel ser) (hnd : (pathOrder s).Nodup)
    (hlisted : (findWindow s ser).isSome = true) :
    exec .windowCancelDispatch s = .next
      ((((dispatched s).setPaths (s.paths.map fun r => { released ser r with owed := r.owed.erase ser })).setSched
        (afterRelease ser s).sched).setWindows (s.windows.without ser)) := by
  rw [exec_windowCancelDispatch hs hr, takeWindowCancel_of_listed (s := dispatched s) hlisted]
  exact congrArg _ (cancelWindowEntry_eq ser (dispatched s) hnd)

end Sys2Proof.Machine
end

