-- ==== Sys2Proof/Proofs/TallyDispatch.lean ====
section
/-! The tallies at the opener of a window (R104, R108, R110): what a dispatched TALLY records, when it brings the
summary, and what the summary says. -/

namespace Sys2Proof.Machine

/-! ### The tally table as a list of stations (R89) -/

theorem stationOk_iff (n : Nat) : stationOk n = true ↔ 1 ≤ n ∧ n ≤ 24 := by
  simp [stationOk]

/-- The table beside the station numbers is what `tableAt` reads. -/
theorem zip_table (w : Window) (hlen : w.table.length = 24) :
    stationNumbers.zip w.table = stationNumbers.map fun n => (n, w.tableAt n) := by
  refine List.ext_getElem (by simp [stationNumbers, hlen]) fun i hi _ => ?_
  have hi : i < w.table.length := by simp at hi; omega
  simp [stationNumbers, Window.tableAt, hi]

theorem setTable_of_stationOk (w : Window) {y : Nat} (x : TallyEntry) (hy : stationOk y = true) :
    w.setTable y x = { w with table := w.table.set (y - 1) x } :=
  if_pos ((stationOk_iff y).1 hy).1

theorem tableAt_set (w : Window) (hlen : w.table.length = 24) {y n : Nat} (x : TallyEntry) (hy : stationOk y = true)
    (hn : stationOk n = true) :
    Window.tableAt { w with table := w.table.set (y - 1) x } n = if n = y then x else w.tableAt n := by
  rw [stationOk_iff] at hy hn
  have heq : y - 1 = n - 1 ↔ n = y := by omega
  have hlt : n - 1 < w.table.length := by omega
  simp [Window.tableAt, hn.1, hlt, List.getElem_set, heq]

theorem noneAwaited_iff (w : Window) (hlen : w.table.length = 24) :
    w.noneAwaited = stationNumbers.all fun n => w.tableAt n != .awaited := by
  have hzip : w.table = stationNumbers.map w.tableAt := by
    have := congrArg (List.map Prod.snd) (zip_table w hlen)
    rwa [List.map_snd_zip (by simp [stationNumbers, hlen]), List.map_map] at this
  rw [Window.noneAwaited, hzip, List.all_map]
  rfl

/-- No other station is awaited once the tally of y is in. -/
theorem noneAwaited_received (w : Window) (hlen : w.table.length = 24) {y : Nat} (c : Tally)
    (hy : stationOk y = true) :
    Window.noneAwaited { w with table := w.table.set (y - 1) (.received c) } =
      stationNumbers.all fun n => n == y || w.tableAt n != .awaited := by
  rw [noneAwaited_iff _ (by simpa using hlen), Bool.eq_iff_iff, List.all_eq_true, List.all_eq_true]
  refine forall₂_congr fun n hn => ?_
  rw [tableAt_set w hlen _ hy ((mem_stationNumbers n).1 hn)]
  by_cases hny : n = y <;> simp [hny]

/-! ### What the summary says (R110) -/

/-- A station with its counts, where they are RECEIVED. -/
def countsOf (x : Nat × TallyEntry) : Option (Nat × Tally) :=
  match x.2 with
  | .received c => some (x.1, c)
  | _ => none

/-- The RECEIVED entries are read off the table. -/
theorem receivedCounts_eq (w : Window) (hlen : w.table.length = 24) :
    w.receivedCounts = (stationNumbers.zip w.table).filterMap countsOf := by
  rw [zip_table w hlen, List.filterMap_map, Window.receivedCounts]
  refine List.filterMap_congr fun n _ => ?_
  simp only [Function.comp, countsOf]
  cases w.tableAt n <;> rfl

theorem stationIn_summary (w : Window) (hlen : w.table.length = 24) {x : Nat × TallyEntry}
    (hx : x ∈ stationNumbers.zip w.table) :
    stationIn w.summary.missing x.1 = (x.2 == .missing) ∧
      stationIn w.summary.unreached x.1 = (x.2 == .unreached) := by
  rw [zip_table w hlen] at hx
  obtain ⟨n, hn, rfl⟩ := List.mem_map.1 hx
  have hok := (mem_stationNumbers n).1 hn
  exact ⟨stationIn_stationsWith _ n hok, stationIn_stationsWith _ n hok⟩

/-! ### A tally recorded at the opener (R108) -/

theorem takesCounts_iff (x : TallyEntry) : x.takesCounts = true ↔ x ∈ [.awaited, .unreached, .missing] := by
  cases x <;> simp [TallyEntry.takesCounts]

theorem collects_iff (w : Window) : w.collects = true ↔ w.state = .closing ∨ w.state = .collecting := by
  simp [Window.collects]

theorem recordTally_of_expected {ser : Serial} {y : Nat} {c : Tally} {w : Window} {s : State}
    (hw : findWindow s ser = some w) (hstate : w.state = .closing ∨ w.state = .collecting)
    (hentry : w.tableAt y ∈ [.awaited, .unreached, .missing]) :
    recordTally ser y c s = summaryTest ser (modifyWindow ser (·.setTable y (.received c)) s) := by
  simp only [recordTally, hw, if_pos (And.intro ((collects_iff w).2 hstate) ((takesCounts_iff _).2 hentry))]

theorem recordTally_of_unexpected {ser : Serial} {y : Nat} {c : Tally} {w : Window} {s : State}
    (hw : findWindow s ser = some w) (h : ¬ (w.state = .closing ∨ w.state = .collecting) ∨
      w.tableAt y ∉ [.awaited, .unreached, .missing]) :
    recordTally ser y c s = s := by
  rw [← collects_iff, ← takesCounts_iff, ← not_and_or] at h
  simp only [recordTally, hw, if_neg h]

theorem recordTally_of_unlisted {ser : Serial} {y : Nat} {c : Tally} {s : State} (h : findWindow s ser = none) :
    recordTally ser y c s = s := by
  simp only [recordTally, h]

theorem summaryTest_of_due {ser : Serial} {w : Window} {s : State} (hw : findWindow s ser = some w)
    (hdue : w.state = .collecting ∧ w.noneAwaited = true) :
    summaryTest ser s = dropWindow ser (postReport (.windowSummary w.summary) s) := by
  simp only [summaryTest, hw, if_pos hdue]

theorem summaryTest_of_not_due {ser : Serial} {w : Window} {s : State} (hw : findWindow s ser = some w)
    (hdue : ¬ (w.state = .collecting ∧ w.noneAwaited = true)) : summaryTest ser s = s := by
  simp only [summaryTest, hw, if_neg hdue]

/-- The list after a window that was rewritten leaves it. -/
theorem filter_rewritten (ser : Serial) (f : Window → Window) (hf : ∀ w, (f w).serial = w.serial) (s : State) :
    (rewritten ser f s).filter (fun v => v.serial != ser) = s.windows.list.filter fun v => v.serial != ser := by
  rw [rewritten, List.filter_map]
  have hkey : ((fun v : Window => v.serial != ser) ∘ fun w => if w.serial = ser then f w else w) =
      fun v => v.serial != ser := by
    funext v
    simp only [Function.comp]
    split <;> simp [hf]
  rw [hkey]
  refine (List.map_congr_left fun v hv => ?_).trans (List.map_id _)
  exact if_neg (by simpa using (List.mem_filter.1 hv).2)

/-- A tally that an expected station brings: recorded, and the summary posted when it was the last one awaited. -/
theorem recordTally_spec {ser : Serial} {y : Nat} {c : Tally} {w : Window} {s : State}
    (hw : findWindow s ser = some w) (hlen : w.table.length = 24) (hy : stationOk y = true)
    (hstate : w.state = .closing ∨ w.state = .collecting)
    (hentry : w.tableAt y ∈ [.awaited, .unreached, .missing]) :
    if w.state = .collecting ∧ (stationNumbers.all fun n => n == y || w.tableAt n != .awaited) = true then
      (recordTally ser y c s).windows.list = (s.windows.list.filter fun v => v.serial != ser) ∧
        (s.ctl.queue.length < 32 → (recordTally ser y c s).ctl.queue = s.ctl.queue ++ [(s.ctl.reportNumber,
          .windowSummary (Window.summary { w with table := w.table.set (y - 1) (.received c) }))])
    else (recordTally ser y c s).ctl = s.ctl ∧ (recordTally ser y c s).windows.list =
      rewritten ser (fun v => { v with table := v.table.set (y - 1) (.received c) }) s := by
  have hset : (fun v : Window => v.setTable y (.received c)) =
      fun v => { v with table := v.table.set (y - 1) (.received c) } :=
    funext fun v => setTable_of_stationOk v _ hy
  have hfound : findWindow (modifyWindow ser (·.setTable y (.received c)) s) ser =
      some { w with table := w.table.set (y - 1) (.received c) } := by
    rw [hset, findWindow_modifyWindow ser ser _ (by simp), hw]
    simp
  rw [recordTally_of_expected hw hstate hentry, ← noneAwaited_received w hlen c hy]
  split
  case isTrue hdue =>
    rw [summaryTest_of_due hfound hdue, hset]
    constructor
    · simpa [dropWindow, modifyWindow, rewritten] using filter_rewritten ser
        (fun v => { v with table := v.table.set (y - 1) (.received c) }) (fun _ => rfl) s
    · intro hroom
      simp [dropWindow, postReport_queue, modifyWindow, hroom]
  case isFalse hdue =>
    rw [summaryTest_of_not_due hfound hdue, hset]
    exact ⟨rfl, rfl⟩

/-! ### TALLY_DISPATCH (R104, R108) -/

theorem exec_tallyDispatch {s : State} {r : Received} {rest : List Received} {ser : Serial} {c : Tally}
    (hs : s.loop.receive = r :: rest) (hr : r.payload = .tally ser c) :
    exec .tallyDispatch s = .next (takeTally r.originator ser c (dispatched s)) := by
  have harm : exec .tallyDispatch s = execTallyDispatch s := rfl
  rw [harm, execTallyDispatch, dispatchOldest_of_act hs (f := takeTally r.originator ser c) (by simp only [hr])]

theorem exec_windowCloseDispatch {s : State} {r : Received} {rest : List Received} {ser : Serial}
    (hs : s.loop.receive = r :: rest) (hr : r.payload = .windowClose ser) :
    exec .windowCloseDispatch s = .next (takeWindowClose ser (dispatched s)) := by
  have harm : exec .windowCloseDispatch s = execWindowCloseDispatch s := rfl
  rw [harm, execWindowCloseDispatch, dispatchOldest_of_act hs (f := takeWindowClose ser) (by simp only [hr])]

theorem takeTally_at_opener {y : Nat} {ser : Serial} {c : Tally} {s : State} (h : ser.opener = s.image.station) :
    takeTally y ser c s = recordTally ser y c s := if_pos h

theorem takeTally_elsewhere {y : Nat} {ser : Serial} {c : Tally} {s : State} (h : ser.opener ≠ s.image.station) :
    takeTally y ser c s = takePassingTally ser s := if_neg h

/-- Elsewhere the TALLY of a listed window acts as its WINDOW CLOSE (R104). -/
theorem takePassingTally_of_listed {ser : Serial} {w : Window} {s : State} (hw : findWindow s ser = some w) :
    takePassingTally ser s = takeWindowClose ser s := by
  simp only [takePassingTally, takeWindowClose, hw]

theorem takePassingTally_of_not_opened {ser : Serial} {w : Window} {s : State} (hw : findWindow s ser = some w)
    (hstate : w.state ≠ .opened) : takePassingTally ser s = s := by
  simp only [takePassingTally, hw, if_neg hstate]

theorem takeTally_of_unlisted {y : Nat} {ser : Serial} {c : Tally} {s : State} (h : findWindow s ser = none) :
    takeTally y ser c s = s := by
  by_cases hopener : ser.opener = s.image.station
  · rw [takeTally_at_opener hopener, recordTally_of_unlisted h]
  · rw [takeTally_elsewhere hopener]
    simp only [takePassingTally, h]

/-- Settles O32: a listed window by who opened it and by what the entry expects; an unlisted one; the summary. -/
theorem tallyDispatchRecordsTheCounts : Obligations.TallyDispatchRecordsTheCounts := by
  refine ⟨fun r ser c rest w s hs hr hw _ hlen hy => ⟨fun hown hstate hentry => ?_, fun hown hnot => ?_,
    fun hother hstate => ?_, fun hother _ => ?_⟩, fun r ser c rest s hs hr hnone => ?_, fun w got hlen hgot => ?_⟩
  · rw [exec_tallyDispatch hs hr, takeTally_at_opener (s := dispatched s) hown]
    refine ⟨_, rfl, ?_, ?_, ?_, ?_, recordTally_spec (s := dispatched s) hw hlen hy hstate hentry⟩
    all_goals simp [dispatched, hs]
  · rw [exec_tallyDispatch hs hr, takeTally_at_opener (s := dispatched s) hown,
      recordTally_of_unexpected (s := dispatched s) hw hnot]
  · rw [exec_tallyDispatch hs hr, takeTally_elsewhere (s := dispatched s) hother,
      takePassingTally_of_not_opened (s := dispatched s) hw hstate]
  · rw [exec_tallyDispatch hs hr, takeTally_elsewhere (s := dispatched s) hother,
      takePassingTally_of_listed (s := dispatched s) hw, exec_windowCloseDispatch rfl rfl]
    simp [dispatched, hs]
  · rw [exec_tallyDispatch hs hr, takeTally_of_unlisted (s := dispatched s) hnone]
  · obtain rfl := hgot.trans (receivedCounts_eq w hlen).symm
    exact ⟨rfl, rfl, rfl, rfl, fun x hx => stationIn_summary w hlen hx⟩

end Sys2Proof.Machine
end

