-- ==== Sys2Proof/Proofs/HoldPlacement.lean ====
section
/-! The holds of a window (R14, R15) placed on a list of circuits, one after the other: what they leave of the records
and the slots. -/

namespace Sys2Proof.Machine

/-! ### One hold -/

theorem circuit_of_findPath {s : State} {c : Nat} {r : PathRecord} (hr : findPath s c = some r) : r.circuit = c :=
  beq_iff_eq.1 (List.find?_some (p := fun x : PathRecord => x.circuit == c) hr)

theorem eq_of_findPath {s : State} {c : Nat} {r x : PathRecord} (hnd : (pathOrder s).Nodup)
    (hr : findPath s c = some r) (hx : x ∈ s.paths) (hc : x.circuit = c) : x = r :=
  List.inj_on_of_nodup_map hnd hx (List.mem_of_find?_eq_some hr) (hc.trans (circuit_of_findPath hr).symm)

/-- A hold for a serial that the record does not hold yet. -/
theorem addHold_of_not_mem {ser : Serial} {c : Nat} {s : State} {r : PathRecord} (hr : findPath s c = some r)
    (hser : ser ∉ r.hold) :
    addHold ser c s = moveForHold c r.state
      (modifyPath c (fun r => { r with hold := r.hold ++ [ser], owed := addSerial ser r.owed }) s) := by
  simp only [addHold, hr, if_neg hser]

/-- A record is HELD after the move of R15, but for a PROBING one. -/
theorem moveForHold_paths (c : Nat) (st : RecordState) (s : State) :
    (moveForHold c st s).paths =
      if st = .probing ∨ st = .held then s.paths else (setRecordState c .held s).paths := by
  match st with
  | .idle | .held => simp [moveForHold]
  | .probing => simp [moveForHold]
  | .queued .census | .queued .routine | .queued .sweep => simp [moveForHold]

theorem moveForHold_probes (c : Nat) (st : RecordState) (s : State) :
    (moveForHold c st s).probes = if st = .probing then (setOverlap c s).probes else s.probes := by
  match st with
  | .idle | .held => simp [moveForHold]
  | .probing => simp [moveForHold]
  | .queued .census | .queued .routine | .queued .sweep => simp [moveForHold]

theorem addHold_paths {ser : Serial} {c : Nat} {s : State} {r : PathRecord} (hnd : (pathOrder s).Nodup)
    (hr : findPath s c = some r) (hser : ser ∉ r.hold) :
    (addHold ser c s).paths = s.paths.map fun x => if x.circuit = c then heldFor ser x else x := by
  rw [addHold_of_not_mem hr hser, moveForHold_paths]
  have howed : ∀ x : PathRecord, addSerial ser x.owed =
      if x.owed.contains ser then x.owed else x.owed ++ [ser] := fun x => by simp [addSerial]
  split
  case isTrue hst =>
    refine List.map_congr_left fun x hx => ?_
    split
    case isTrue hc =>
      obtain rfl := eq_of_findPath hnd hr hx hc
      rcases hst with hst | hst <;> simp [heldFor, howed, hst]
    case isFalse => rfl
  case isFalse hst =>
    simp only [setRecordState, modifyPath, State.setPaths_fields, List.map_map]
    refine List.map_congr_left fun x hx => ?_
    by_cases hc : x.circuit = c
    · obtain rfl := eq_of_findPath hnd hr hx hc
      have hother : x.state ≠ .probing := fun h => hst (.inl h)
      simp [heldFor, howed, hc, hother]
    · simp [hc]

theorem addHold_probes {ser : Serial} {c : Nat} {s : State} {r : PathRecord} (hr : findPath s c = some r)
    (hser : ser ∉ r.hold) :
    (addHold ser c s).probes = if r.state = .probing then (setOverlap c s).probes else s.probes := by
  rw [addHold_of_not_mem hr hser, moveForHold_probes]
  split
  · simp [setOverlap, setSlots]
  · simp

/-! ### Holds on a list of circuits -/

/-- Holds for a serial placed on circuits, in their order. -/
def holdAll (ser : Serial) (held : List Nat) (s : State) : State := held.foldl (fun t c => addHold ser c t) s

@[simp] theorem holdAll_nil (ser : Serial) (s : State) : holdAll ser [] s = s := rfl

theorem holdAll_concat (ser : Serial) (held : List Nat) (c : Nat) (s : State) :
    holdAll ser (held ++ [c]) s = addHold ser c (holdAll ser held s) := by
  simp [holdAll]

@[simp] theorem holdAll_frame (ser : Serial) (held : List Nat) (s : State) :
    (holdAll ser held s).now = s.now ∧ (holdAll ser held s).image = s.image ∧
    (holdAll ser held s).hops = s.hops ∧ (holdAll ser held s).lines = s.lines ∧
    (holdAll ser held s).scanner = s.scanner ∧ (holdAll ser held s).windows = s.windows ∧
    (holdAll ser held s).loop = s.loop ∧ (holdAll ser held s).roster = s.roster := by
  simp [holdAll]

/-- Different circuits, each of a record that does not hold the serial yet; no circuit has two records. -/
structure Holdable (ser : Serial) (held : List Nat) (s : State) : Prop where
  records : (pathOrder s).Nodup
  distinct : held.Nodup
  free : ∀ c ∈ held, ∃ r, findPath s c = some r ∧ ser ∉ r.hold

theorem Holdable.init {ser : Serial} {held : List Nat} {c : Nat} {s : State} (h : Holdable ser (held ++ [c]) s) :
    Holdable ser held s :=
  ⟨h.records, (List.nodup_append.1 h.distinct).1, fun d hd => h.free d (List.mem_append_left _ hd)⟩

theorem Holdable.not_mem {ser : Serial} {held : List Nat} {c : Nat} {s : State}
    (h : Holdable ser (held ++ [c]) s) : c ∉ held := fun hc =>
  (List.nodup_append.1 h.distinct).2.2 c hc c (by simp) rfl

/-- The records that were walked over are held, the others as before. -/
def recordsHeldFor (ser : Serial) (held : List Nat) (l : List PathRecord) : List PathRecord :=
  l.map fun r => if r.circuit ∈ held then heldFor ser r else r

theorem find_recordsHeldFor (ser : Serial) (held : List Nat) (l : List PathRecord) (c : Nat) :
    (recordsHeldFor ser held l).find? (·.circuit == c) =
      (l.find? (·.circuit == c)).map fun r => if c ∈ held then heldFor ser r else r := by
  have hkey : ((fun r : PathRecord => r.circuit == c) ∘ fun r => if r.circuit ∈ held then heldFor ser r else r) =
      fun r => r.circuit == c := by
    funext r
    simp only [Function.comp]
    split <;> rfl
  rw [recordsHeldFor, List.find?_map, hkey]
  cases hfound : l.find? (·.circuit == c) with
  | none => rfl
  | some r =>
    have hc := List.find?_some (p := fun r : PathRecord => r.circuit == c) hfound
    simp [beq_iff_eq.1 hc]

theorem order_recordsHeldFor (ser : Serial) (held : List Nat) (l : List PathRecord) :
    (recordsHeldFor ser held l).map (·.circuit) = l.map (·.circuit) := by
  rw [recordsHeldFor, List.map_map]
  refine List.map_congr_left fun r _ => ?_
  simp only [Function.comp]
  split <;> rfl

theorem holdAll_paths (ser : Serial) (held : List Nat) (s : State) (h : Holdable ser held s) :
    (holdAll ser held s).paths = recordsHeldFor ser held s.paths := by
  induction held using List.reverseRecOn with
  | nil => simp [recordsHeldFor]
  | append_singleton held c ih =>
    have hpaths := ih h.init
    obtain ⟨r, hr, hser⟩ := h.free c (by simp)
    have hfound : findPath (holdAll ser held s) c = some r := by
      have hr' : s.paths.find? (·.circuit == c) = some r := hr
      rw [findPath, hpaths, find_recordsHeldFor, hr']
      simp [h.not_mem]
    have hnd : (pathOrder (holdAll ser held s)).Nodup := by
      rw [pathOrder, hpaths, order_recordsHeldFor]
      exact h.records
    rw [holdAll_concat, addHold_paths hnd hfound hser, hpaths, recordsHeldFor, recordsHeldFor, List.map_map]
    refine List.map_congr_left fun x _ => ?_
    by_cases hx : x.circuit ∈ held
    · have hne : (heldFor ser x).circuit ≠ c := fun he => h.not_mem (he ▸ hx)
      simp [hx, hne]
    · simp [hx]

/-- A circuit that was not walked over has its record as before. -/
theorem findPath_holdAll {ser : Serial} {held : List Nat} {s : State} (h : Holdable ser held s) {c : Nat}
    (hc : c ∉ held) : findPath (holdAll ser held s) c = findPath s c := by
  rw [findPath, holdAll_paths ser held s h, find_recordsHeldFor]
  simp [hc, findPath]

/-- The slots whose PROBING record was walked over have OVERLAP set (R60). -/
def slotsHeld (s : State) (held : List Nat) : List (Option Probe) :=
  s.probes.slots.map fun o => o.map fun p =>
    if p.phase ≠ .closing ∧ p.circuit ∈ held ∧ stateOf s p.circuit = some .probing
      then { p with overlap := true } else p

theorem slotsHeld_concat_of_probing {s : State} {held : List Nat} {c : Nat} (hstate : stateOf s c = some .probing) :
    slotsHeld s (held ++ [c]) = (slotsHeld s held).map (Option.map fun p =>
      if p.circuit = c ∧ p.phase ≠ .closing then { p with overlap := true } else p) := by
  simp only [slotsHeld, List.map_map]
  refine List.map_congr_left fun o _ => ?_
  cases o with
  | none => rfl
  | some p =>
    simp only [Option.map_some, Function.comp, Option.some.injEq]
    by_cases hset : p.phase ≠ .closing ∧ p.circuit ∈ held ∧ stateOf s p.circuit = some .probing
    · rw [if_pos hset, if_pos ⟨hset.1, List.mem_append_left _ hset.2.1, hset.2.2⟩]
      split <;> rfl
    · rw [if_neg hset]
      by_cases hc : p.circuit = c
      · simp [hc, hstate]
      · have hmem : p.circuit ∈ held ++ [c] ↔ p.circuit ∈ held := by simp [hc]
        rw [if_neg fun h => hset ⟨h.1, hmem.1 h.2.1, h.2.2⟩, if_neg fun h => hc h.1]

theorem slotsHeld_concat_of_not_probing {s : State} {held : List Nat} {c : Nat}
    (hstate : stateOf s c ≠ some .probing) : slotsHeld s (held ++ [c]) = slotsHeld s held := by
  refine List.map_congr_left fun o _ => congrArg (o.map ·) (funext fun p => ?_)
  by_cases hc : p.circuit = c <;> simp [hc, hstate]

theorem holdAll_probes (ser : Serial) (held : List Nat) (s : State) (h : Holdable ser held s) :
    (holdAll ser held s).probes = { s.probes with slots := slotsHeld s held } := by
  induction held using List.reverseRecOn with
  | nil => simp [slotsHeld]
  | append_singleton held c ih =>
    obtain ⟨r, hr, hser⟩ := h.free c (by simp)
    have hfound := (findPath_holdAll h.init h.not_mem).trans hr
    have hstate : stateOf s c = some r.state := by simp [stateOf, hr]
    rw [holdAll_concat, addHold_probes hfound hser]
    split
    case isTrue hprobing =>
      rw [slotsHeld_concat_of_probing (by rw [hstate, hprobing])]
      simp [setOverlap, setSlots, ih h.init]
    case isFalse hother =>
      rw [slotsHeld_concat_of_not_probing (by rw [hstate]; simpa using hother), ih h.init]

end Sys2Proof.Machine
end

