-- ==== Sys2Proof/Proofs/SweepRuns.lean ====
section
/-! The Audit Scheduler as its list of sweep runs (R122, R124, R131): the current run and the suspended ones over BASE.
A run changed in place, and a run that completes, are changes of that list. -/

namespace Sys2Proof.Machine

/-! ### The runs of a scheduler -/

/-- The scheduler with other runs: the first one current, the rest suspended over BASE; without one BASE is current
again, and the shadow returns to the flag (R124, R131). -/
def Scheduler.withRuns (x : Scheduler) (runs : List Run) : Scheduler :=
  { x with
    current := runs.head?
    stack := if runs = [] then [] else runs.tail.map .sweep ++ [.base]
    admission := if x.current ≠ none ∧ runs = [] then x.shadow else x.admission }

/-- The state's scheduler is x with these runs, of different identities; while BASE is current in x there is none. -/
structure RunsAre (s : State) (x : Scheduler) (runs : List Run) : Prop where
  sched : s.sched = x.withRuns runs
  none_at_base : x.current = none → runs = []
  distinct : (runs.map (·.id)).Nodup

/-- The runs of a stack over BASE. -/
theorem filterMap_run_overBase (runs : List Run) :
    (runs.map StackEntry.sweep ++ [StackEntry.base]).filterMap StackEntry.run = runs := by
  rw [List.filterMap_append, List.filterMap_map]
  exact (List.append_nil _).trans List.filterMap_some

theorem allRuns_of_runsAre {s : State} {x : Scheduler} {runs : List Run} (h : RunsAre s x runs) :
    allRuns s = runs := by
  rw [allRuns, suspended, h.sched]
  cases runs with
  | nil => rfl
  | cons r rest => exact congrArg (r :: ·) (filterMap_run_overBase rest)

/-- A stack with BASE at its bottom and nowhere else. -/
theorem stack_eq_of_isBase (l : List StackEntry) :
    ∀ n, l.map StackEntry.isBase = List.replicate n false ++ [true] →
      l = (l.filterMap StackEntry.run).map .sweep ++ [.base] := by
  induction l with
  | nil => intro n h; simp at h
  | cons e l ih =>
    intro n h
    cases n with
    | zero =>
      cases e with
      | base => simp_all [StackEntry.run]
      | sweep r => simp [StackEntry.isBase, StackEntry.run] at h
    | succ n =>
      cases e with
      | base => simp [StackEntry.isBase, StackEntry.run, List.replicate_succ] at h
      | sweep r =>
        have htail := ih n (by simpa [List.replicate_succ] using (List.cons.inj h).2)
        simpa [StackEntry.run] using htail

theorem stack_eq_suspended {s : State} (hok : SchedulerOk s) (hcurrent : s.sched.current ≠ none) :
    s.sched.stack = (suspended s).map .sweep ++ [.base] := by
  obtain ⟨_, hempty, _, hbase, _⟩ := hok
  have hstack : s.sched.stack ≠ [] := fun h => hcurrent (hempty.2 h)
  exact stack_eq_of_isBase _ _ (by simpa [hstack] using hbase)

theorem allRuns_of_base {s : State} (hok : SchedulerOk s) (hcurrent : s.sched.current = none) : allRuns s = [] := by
  obtain ⟨_, hempty, _⟩ := hok
  simp [allRuns, suspended, hcurrent, hempty.1 hcurrent]

/-- The scheduler is its runs over BASE. -/
theorem withRuns_allRuns {s : State} (hok : SchedulerOk s) : s.sched.withRuns (allRuns s) = s.sched := by
  cases hcurrent : s.sched.current with
  | none =>
    have hstack : s.sched.stack = [] := by
      obtain ⟨_, hempty, _⟩ := hok
      exact hempty.1 hcurrent
    rw [allRuns_of_base hok hcurrent, Scheduler.withRuns, if_pos rfl, if_neg fun h => h.1 hcurrent, ← hstack]
    exact congrArg (fun x => { s.sched with current := x }) hcurrent.symm
  | some r =>
    have hruns : allRuns s = r :: suspended s := by simp [allRuns, hcurrent]
    have hstack := stack_eq_suspended hok (by simp [hcurrent])
    simp [hruns, Scheduler.withRuns, ← hstack, ← hcurrent]

/-! ### A run changed in place -/

/-- A list of runs with one changed. -/
def runsChanged (id : Nat) (f : Run → Run) (runs : List Run) : List Run :=
  runs.map fun r => if r.id = id then f r else r

theorem runsAre_modifyRun {s : State} {x : Scheduler} {runs : List Run} (id : Nat) (f : Run → Run)
    (hf : ∀ r, (f r).id = r.id) (h : RunsAre s x runs) : RunsAre (modifyRun id f s) x (runsChanged id f runs) where
  sched := by
    rw [modifyRun, h.sched]
    cases runs with
    | nil => rfl
    | cons r rest => simp [Scheduler.withRuns, runsChanged, StackEntry.modify, State.setSched]
  none_at_base hx := by simp [runsChanged, h.none_at_base hx]
  distinct := by
    have hids : (runsChanged id f runs).map (·.id) = runs.map (·.id) := by
      rw [runsChanged, List.map_map]
      refine List.map_congr_left fun r _ => ?_
      simp only [Function.comp]
      split <;> simp [hf]
    rw [hids]
    exact h.distinct

/-! ### A run that completes (R131) -/

theorem find_of_mem_distinct {runs : List Run} (hnd : (runs.map (·.id)).Nodup) {r : Run} (hr : r ∈ runs) :
    runs.find? (·.id == r.id) = some r := by
  induction runs with
  | nil => simp at hr
  | cons a runs ih =>
    obtain ⟨ha, hnd⟩ := List.nodup_cons.1 hnd
    rcases List.mem_cons.1 hr with rfl | hr
    · simp
    · have hne : a.id ≠ r.id := fun he => ha (List.mem_map.2 ⟨r, hr, he.symm⟩)
      rw [List.find?_cons, beq_false_of_ne hne]
      exact ih hnd hr

theorem completeRun_of_open {s : State} {x : Scheduler} {runs : List Run} {r : Run} (h : RunsAre s x runs)
    (hr : r ∈ runs) (hopen : r.complete = false) : completeRun r.id s = s := by
  simp [completeRun, allRuns_of_runsAre h, find_of_mem_distinct h.distinct hr, hopen]

/-- The runs without a completed one. -/
def runsWithout (id : Nat) (runs : List Run) : List Run := runs.filter (·.id != id)

/-- The current run completes: the stack is popped. -/
theorem popRun_sched {s : State} {x : Scheduler} {r : Run} {rest : List Run} (h : RunsAre s x (r :: rest)) :
    (popRun s).sched = x.withRuns rest := by
  have hx : x.current ≠ none := fun hx => by simpa using h.none_at_base hx
  have hstack : s.sched.stack = rest.map .sweep ++ [.base] := by simp [h.sched, Scheduler.withRuns]
  rw [popRun]
  cases rest with
  | nil => simp [h.sched, Scheduler.withRuns, hx]
  | cons r' rest => simp [h.sched, Scheduler.withRuns]

/-- A suspended run completes: it leaves the stack. -/
theorem dropSuspended_sched {s : State} {x : Scheduler} {r : Run} {rest : List Run} (id : Nat)
    (h : RunsAre s x (r :: rest)) :
    (dropSuspended id s).sched = x.withRuns (r :: runsWithout id rest) := by
  have hrest : (rest.map StackEntry.sweep).filter (fun e => !e.isRun id) = (runsWithout id rest).map .sweep := by
    rw [List.filter_map]
    rfl
  have hbase : [StackEntry.base].filter (fun e => !e.isRun id) = [.base] := rfl
  rw [dropSuspended, h.sched]
  simp [Scheduler.withRuns, hrest, hbase]

/-- The completed run leaves the list, and its summary is posted. -/
theorem completeRun_of_complete {s : State} {x : Scheduler} {runs : List Run} {r : Run} (h : RunsAre s x runs)
    (hr : r ∈ runs) (hcomplete : r.complete = true) :
    (completeRun r.id s).sched = x.withRuns (runsWithout r.id runs) ∧
      (completeRun r.id s).ctl = (postReport (.sweepSummary r.summary) s).ctl := by
  have hposted : RunsAre (postReport (.sweepSummary r.summary) s) x runs :=
    ⟨by rw [← h.sched]; simp, h.none_at_base, h.distinct⟩
  simp only [completeRun, allRuns_of_runsAre h, find_of_mem_distinct h.distinct hr, hcomplete]
  cases runs with
  | nil => simp at hr
  | cons first rest =>
    have hcurrent : s.sched.current = some first := by rw [h.sched]; rfl
    obtain ⟨hfirst, -⟩ := List.nodup_cons.1 h.distinct
    by_cases hid : first.id = r.id
    · have hothers : runsWithout r.id (first :: rest) = rest := by
        rw [runsWithout, List.filter_cons_of_neg (by simp [hid])]
        refine List.filter_eq_self.2 fun y hy => ?_
        simpa using fun he => hfirst (List.mem_map.2 ⟨y, hy, he.trans hid.symm⟩)
      simp [hcurrent, hid, hothers, popRun_sched hposted]
    · have hothers : runsWithout r.id (first :: rest) = first :: runsWithout r.id rest := by
        simp [runsWithout, hid]
      simp [hcurrent, hid, hothers, dropSuspended_sched r.id hposted]

end Sys2Proof.Machine
end

