-- ==== Sys2Proof/Proofs/HeldRuns.lean ====
section
/-! The sweep runs and the queues of the Audit Scheduler after holds on circuits (R15, R128, R131): one more hold
changes `schedHeld` and the posted summaries as the model's step does. -/

namespace Sys2Proof.Machine

/-! ### The queues of base work (R115) -/

/-- A list of base work without the circuits that were held out of it. -/
def leftQueued (s : State) (m : Mode) (held l : List Nat) : List Nat :=
  l.filter fun c => !(held.contains c && stateOf s c == some (.queued m))

theorem leftQueued_concat_of_queued {s : State} {m : Mode} {held l : List Nat} {c : Nat} (hnd : l.Nodup)
    (hstate : stateOf s c = some (.queued m)) : leftQueued s m (held ++ [c]) l = (leftQueued s m held l).erase c := by
  rw [leftQueued, leftQueued, (hnd.filter _).erase_eq_filter, List.filter_filter]
  refine List.filter_congr fun d _ => ?_
  by_cases hd : d = c
  · simp [hd, hstate]
  · simp [hd]

theorem leftQueued_concat_of_other {s : State} {m : Mode} {held l : List Nat} {c : Nat}
    (hstate : stateOf s c ≠ some (.queued m)) : leftQueued s m (held ++ [c]) l = leftQueued s m held l := by
  refine List.filter_congr fun d _ => ?_
  by_cases hd : d = c
  · simp [hd, hstate]
  · simp [hd]

/-! ### A run after holds (R128) -/

theorem id_deferredIn (s : State) (held : List Nat) (r : Run) : (deferredIn s held r).id = r.id := rfl

/-- The entry of a circuit that is not held stands as before. -/
theorem standingOf_deferredIn {s : State} {held : List Nat} {c : Nat} (r : Run) (hc : c ∉ held) :
    (deferredIn s held r).standingOf c = r.standingOf c := by
  simp only [Run.standingOf, deferredIn]
  induction r.entries with
  | nil => rfl
  | cons e l ih =>
    have hkey : ∀ p : Prop, [Decidable p] →
        (if p then { e with standing := .deferred } else e).circuit = e.circuit := fun p _ => by split <;> rfl
    by_cases he : e.circuit = c
    · simp [he, hc]
    · simp only [List.map_cons, List.find?_cons, hkey, beq_false_of_ne he]
      exact ih

/-- A run in which a circuit is WAITING is not complete. -/
theorem not_complete_of_waiting {r : Run} {c : Nat} (h : r.standingOf c = some .waiting) : r.complete = false := by
  obtain ⟨e, he, hst⟩ := Option.map_eq_some_iff.1 h
  rw [Run.complete, List.all_eq_false]
  exact ⟨e, List.mem_of_find?_eq_some he, by simp [hst, RunStanding.closed]⟩

theorem holdsComplete_of_waiting {s : State} {held : List Nat} {c : Nat} {r : Run} (hc : c ∉ held)
    (h : r.standingOf c = some .waiting) : holdsComplete s held r = false := by
  rw [holdsComplete, not_complete_of_waiting ((standingOf_deferredIn r hc).trans h), Bool.and_false]

/-- The runs that remain. -/
def runsHeld (s : State) (held : List Nat) : List Run :=
  ((allRuns s).filter fun r => !holdsComplete s held r).map (deferredIn s held)

/-- A circuit that was not held waits in the same run. -/
theorem find_waiting_runsHeld {s : State} {held : List Nat} {c : Nat} (hc : c ∉ held) :
    (runsHeld s held).find? (fun r => r.standingOf c == some .waiting) =
      (waitingRun s c).map (deferredIn s held) := by
  rw [runsHeld, List.find?_map, List.find?_filter, waitingRun]
  congr 2
  funext r
  simp only [Function.comp, standingOf_deferredIn r hc]
  by_cases h : r.standingOf c = some .waiting
  · simp [h, holdsComplete_of_waiting hc h]
  · simp [h]

/-! ### One more circuit held -/

/-- The circuit does not wait in the run. -/
theorem deferredIn_concat_of_not_defers {s : State} {held : List Nat} {c : Nat} {r : Run}
    (h : defers s c r = false) : deferredIn s (held ++ [c]) r = deferredIn s held r := by
  simp only [deferredIn]
  congr 1
  refine List.map_congr_left fun e _ => ?_
  by_cases he : e.circuit = c
  · simp [he, h]
  · simp [he]

theorem deferredIn_concat_of_defers {s : State} {held : List Nat} {c : Nat} {r : Run}
    (h : defers s c r = true) : deferredIn s (held ++ [c]) r = (deferredIn s held r).setStanding c .deferred := by
  simp only [deferredIn, Run.setStanding, List.map_map]
  congr 1
  refine List.map_congr_left fun e _ => ?_
  by_cases he : e.circuit = c
  · by_cases hin : c ∈ held <;> simp [he, h, hin]
  · by_cases hin : e.circuit ∈ held ∧ defers s e.circuit r = true <;> simp [he, hin]

theorem holdsComplete_concat_of_not_defers {s : State} {held : List Nat} {c : Nat} {r : Run}
    (h : defers s c r = false) : holdsComplete s (held ++ [c]) r = holdsComplete s held r := by
  simp [holdsComplete, deferredIn_concat_of_not_defers h, h]

theorem holdsComplete_concat_of_defers {s : State} {held : List Nat} {c : Nat} {r : Run}
    (h : defers s c r = true) :
    holdsComplete s (held ++ [c]) r = (deferredIn s (held ++ [c]) r).complete := by
  simp [holdsComplete, h]

/-- The circuit waits in no run, or is not QUEUED SWEEP: the runs stay. -/
theorem runsHeld_concat_of_not_defers {s : State} {held : List Nat} {c : Nat}
    (h : ∀ r, defers s c r = false) : runsHeld s (held ++ [c]) = runsHeld s held := by
  rw [runsHeld, runsHeld]
  rw [List.filter_congr fun r _ => by rw [holdsComplete_concat_of_not_defers (h r)]]
  exact List.map_congr_left fun r _ => deferredIn_concat_of_not_defers (h r)

section

variable {s : State} {held : List Nat} {c : Nat} {r : Run} (hids : ((allRuns s).map (·.id)).Nodup)
  (hc : c ∉ held) (hstate : stateOf s c = some (.queued .sweep)) (hw : waitingRun s c = some r)

include hw in
theorem mem_of_waitingRun : r ∈ allRuns s ∧ r.standingOf c = some .waiting :=
  ⟨List.mem_of_find?_eq_some hw,
    beq_iff_eq.1 (List.find?_some (p := fun r : Run => r.standingOf c == some .waiting) hw)⟩

include hstate hw in
theorem defers_eq (y : Run) : defers s c y = (y.id == r.id) := by
  simp [defers, hstate, hw, Bool.beq_comm]

include hids hw in
theorem eq_of_id_eq {y : Run} (hy : y ∈ allRuns s) (hid : y.id = r.id) : y = r :=
  List.inj_on_of_nodup_map hids hy (mem_of_waitingRun hw).1 hid

include hids hc hw in
/-- Before the hold, the run in which the circuit waits is open. -/
theorem holdsComplete_of_id_eq {y : Run} (hy : y ∈ allRuns s) (hid : y.id = r.id) :
    holdsComplete s held y = false := by
  rw [eq_of_id_eq hids hw hy hid]
  exact holdsComplete_of_waiting hc (mem_of_waitingRun hw).2

include hc hw in
theorem mem_runsHeld : deferredIn s held r ∈ runsHeld s held :=
  List.mem_map_of_mem (List.mem_filter.2 ⟨(mem_of_waitingRun hw).1, by
    simp [holdsComplete_of_waiting hc (mem_of_waitingRun hw).2]⟩)

include hstate hw in
/-- The model's change of the run, made in every run that remains. -/
theorem runsChanged_runsHeld :
    runsChanged r.id (·.setStanding c .deferred) (runsHeld s held) =
      ((allRuns s).filter fun y => !holdsComplete s held y).map (deferredIn s (held ++ [c])) := by
  rw [runsChanged, runsHeld, List.map_map]
  refine List.map_congr_left fun y _ => ?_
  simp only [Function.comp]
  by_cases hid : (deferredIn s held y).id = r.id
  · have hdefers : defers s c y = true := by rw [defers_eq hstate hw, ← hid, id_deferredIn, beq_self_eq_true]
    rw [if_pos hid, deferredIn_concat_of_defers hdefers]
  · rw [if_neg hid, deferredIn_concat_of_not_defers (by rw [defers_eq hstate hw]; exact beq_false_of_ne hid)]

include hids hc hstate hw

theorem runsHeld_concat_of_open (hopen : (deferredIn s (held ++ [c]) r).complete = false) :
    runsHeld s (held ++ [c]) = runsChanged r.id (·.setStanding c .deferred) (runsHeld s held) := by
  rw [runsChanged_runsHeld hstate hw, runsHeld]
  congr 1
  refine List.filter_congr fun y hy => ?_
  by_cases hid : y.id = r.id
  · rw [holdsComplete_of_id_eq hids hc hw hy hid, eq_of_id_eq hids hw hy hid,
      holdsComplete_concat_of_defers (by rw [defers_eq hstate hw, beq_self_eq_true]), hopen]
  · rw [holdsComplete_concat_of_not_defers (by rw [defers_eq hstate hw, beq_false_of_ne hid])]

theorem runsHeld_concat_of_complete (hcomplete : (deferredIn s (held ++ [c]) r).complete = true) :
    runsHeld s (held ++ [c]) =
      runsWithout r.id (runsChanged r.id (·.setStanding c .deferred) (runsHeld s held)) := by
  rw [runsChanged_runsHeld hstate hw, runsHeld, runsWithout, List.filter_map, List.filter_filter]
  congr 1
  refine List.filter_congr fun y hy => ?_
  simp only [Function.comp, id_deferredIn]
  by_cases hid : y.id = r.id
  · rw [holdsComplete_of_id_eq hids hc hw hy hid, eq_of_id_eq hids hw hy hid,
      holdsComplete_concat_of_defers (by rw [defers_eq hstate hw, beq_self_eq_true]), hcomplete]
    simp
  · rw [holdsComplete_concat_of_not_defers (by rw [defers_eq hstate hw, beq_false_of_ne hid])]
    simp [hid]

end

/-! ### The runs that were held out (R131) -/

/-- The hold on circuit d, the last one of the run, closed its last open entry. -/
def closedBy (s : State) (held : List Nat) (d : Nat) (r : Run) : Bool :=
  holdsComplete s held r && (held.filter fun c => defers s c r).getLast? == some d

theorem runsHeldOut_eq (s : State) (held : List Nat) :
    runsHeldOut s held = held.filterMap fun d => ((allRuns s).find? (closedBy s held d)).map (deferredIn s held) := rfl

theorem closedBy_concat_of_not_defers {s : State} {held : List Nat} {c : Nat} {r : Run} (d : Nat)
    (h : defers s c r = false) : closedBy s (held ++ [c]) d r = closedBy s held d r := by
  simp [closedBy, holdsComplete_concat_of_not_defers h, List.filter_append, h]

theorem closedBy_concat_of_defers {s : State} {held : List Nat} {c : Nat} {r : Run} (d : Nat)
    (h : defers s c r = true) :
    closedBy s (held ++ [c]) d r = ((deferredIn s (held ++ [c]) r).complete && c == d) := by
  simp [closedBy, holdsComplete_concat_of_defers h, List.filter_append, h]

/-- A hold closes runs of its own circuit only. -/
theorem closedBy_of_not_mem {s : State} {held : List Nat} {c : Nat} (r : Run) (hc : c ∉ held) :
    closedBy s held c r = false := by
  have hlast : (held.filter fun d => defers s d r).getLast? ≠ some c := fun h =>
    hc (List.mem_filter.1 (List.mem_of_getLast? h)).1
  rw [closedBy, beq_false_of_ne hlast, Bool.and_false]

/-- One more circuit held: the run that it closes, if any, comes last. -/
theorem runsHeldOut_concat {s : State} {held : List Nat} {c : Nat} (hc : c ∉ held)
    (hopen : ∀ y ∈ allRuns s, defers s c y = true → holdsComplete s held y = false) :
    runsHeldOut s (held ++ [c]) = runsHeldOut s held ++
      (((allRuns s).find? (closedBy s (held ++ [c]) c)).map (deferredIn s (held ++ [c]))).toList := by
  rw [runsHeldOut_eq, runsHeldOut_eq, List.filterMap_append]
  congr 1
  refine List.filterMap_congr fun d hd => ?_
  have hne : c ≠ d := fun he => hc (he ▸ hd)
  have hsame : ∀ y ∈ allRuns s, closedBy s (held ++ [c]) d y = closedBy s held d y := by
    intro y hy
    by_cases hdefers : defers s c y = true
    · rw [closedBy_concat_of_defers d hdefers, closedBy, hopen y hy hdefers, beq_false_of_ne hne, Bool.and_false,
        Bool.false_and]
    · exact closedBy_concat_of_not_defers d (by simpa using hdefers)
  rw [List.find?_congr hsame]
  refine Option.map_congr fun y hy => deferredIn_concat_of_not_defers ?_
  by_contra hdefers
  have hclosed := List.find?_some (p := closedBy s held d) hy
  rw [closedBy, hopen y (List.mem_of_find?_eq_some hy) (by simpa using hdefers)] at hclosed
  simp at hclosed

theorem runsHeldOut_concat_of_not_defers {s : State} {held : List Nat} {c : Nat} (hc : c ∉ held)
    (h : ∀ r, defers s c r = false) : runsHeldOut s (held ++ [c]) = runsHeldOut s held := by
  have hnone : (allRuns s).find? (closedBy s (held ++ [c]) c) = none :=
    List.find?_eq_none.2 fun y _ => by simp [closedBy_concat_of_not_defers c (h y), closedBy_of_not_mem y hc]
  rw [runsHeldOut_concat hc (by simp [h]), hnone]
  simp

section

variable {s : State} {held : List Nat} {c : Nat} {r : Run} (hids : ((allRuns s).map (·.id)).Nodup)
  (hc : c ∉ held) (hstate : stateOf s c = some (.queued .sweep)) (hw : waitingRun s c = some r)
include hids hc hstate hw

theorem closedBy_concat_self {y : Run} (hy : y ∈ allRuns s) :
    closedBy s (held ++ [c]) c y = ((deferredIn s (held ++ [c]) r).complete && y.id == r.id) := by
  by_cases hid : y.id = r.id
  · rw [closedBy_concat_of_defers c (by rw [defers_eq hstate hw, hid, beq_self_eq_true]), eq_of_id_eq hids hw hy hid]
    simp
  · rw [closedBy_concat_of_not_defers c (by rw [defers_eq hstate hw, beq_false_of_ne hid]),
      closedBy_of_not_mem y hc, beq_false_of_ne hid, Bool.and_false]

theorem runsHeldOut_concat_of_waiting :
    runsHeldOut s (held ++ [c]) = runsHeldOut s held ++
      if (deferredIn s (held ++ [c]) r).complete then [deferredIn s (held ++ [c]) r] else [] := by
  have hopen : ∀ y ∈ allRuns s, defers s c y = true → holdsComplete s held y = false := fun y hy hdefers =>
    holdsComplete_of_id_eq hids hc hw hy (by simpa [defers_eq hstate hw] using hdefers)
  rw [runsHeldOut_concat hc hopen, List.find?_congr fun y hy => closedBy_concat_self hids hc hstate hw hy]
  cases (deferredIn s (held ++ [c]) r).complete
  · simp
  · simp [find_of_mem_distinct hids (mem_of_waitingRun hw).1]

end

/-! ### The Audit Scheduler after the holds -/

/-- The scheduler with the held circuits out of its queues, its runs as they were. -/
def queuesHeld (s : State) (held : List Nat) : Scheduler :=
  { s.sched with
    census := leftQueued s .census held s.sched.census
    routine := leftQueued s .routine held s.sched.routine }

theorem stackHeld_of_base {s : State} {held : List Nat} (hok : SchedulerOk s) (hcurrent : s.sched.current = none) :
    stackHeld s held = [] := by
  obtain ⟨_, hempty, _⟩ := hok
  simp [stackHeld, hcurrent, hempty.1 hcurrent]

theorem stackHeld_of_run {s : State} {held : List Nat} (hok : SchedulerOk s) (hcurrent : s.sched.current ≠ none) :
    stackHeld s held = (runsHeld s held).map .sweep ++ [.base] := by
  have hall : s.sched.current.toList.map StackEntry.sweep ++ s.sched.stack = (allRuns s).map .sweep ++ [.base] := by
    rw [stack_eq_suspended hok hcurrent, allRuns, List.map_append, List.append_assoc]
  rw [stackHeld, hall, List.filter_append, List.map_append, List.filter_map, List.map_map, runsHeld, List.map_map]
  rfl

theorem schedHeld_eq (s : State) (held : List Nat) (hok : SchedulerOk s) :
    schedHeld s held = (queuesHeld s held).withRuns (runsHeld s held) := by
  by_cases hcurrent : s.sched.current = none
  · have hruns : runsHeld s held = [] := by simp [runsHeld, allRuns_of_base hok hcurrent]
    simp [schedHeld, stackHeld_of_base hok hcurrent, hruns, Scheduler.withRuns, queuesHeld, leftQueued, hcurrent]
  · rw [schedHeld, stackHeld_of_run hok hcurrent]
    cases runsHeld s held with
    | nil => simp [Scheduler.withRuns, queuesHeld, leftQueued, StackEntry.run]
    | cons r rest => simp [Scheduler.withRuns, queuesHeld, leftQueued, StackEntry.run]

theorem runsHeld_distinct {s : State} {held : List Nat} (hids : ((allRuns s).map (·.id)).Nodup) :
    ((runsHeld s held).map (·.id)).Nodup := by
  have hsub : ((runsHeld s held).map (·.id)).Sublist ((allRuns s).map (·.id)) := by
    rw [runsHeld, List.map_map]
    exact List.filter_sublist.map _
  exact hids.sublist hsub

end Sys2Proof.Machine
end

