-- ==== Sys2Proof/Proofs/WindowOpenDispatch.lean ====
section
/-! A dispatched WINDOW OPEN (R95): the holds of the window, with what they do to the Audit Scheduler and to the report
queue, and the two dispatches of O30. -/

namespace Sys2Proof.Machine

/-! ### Summaries posted (R131, R180) -/

/-- What a post does to the Control Port depends on it, the clock and the image alone. -/
theorem postReport_ctl_congr (r : Report) {s t : State} (hnow : s.now = t.now) (himage : s.image = t.image)
    (hctl : s.ctl = t.ctl) : (postReport r s).ctl = (postReport r t).ctl := by
  simp only [postReport, keepReport, discardReport, setFault, raiseAlert, atThreshold, coalesceAfterPost,
    apply_ite State.ctl, State.setCtl_fields, hnow, himage, hctl]

theorem summariesPosted_concat (runs : List Run) (r : Run) (s : State) :
    summariesPosted (runs ++ [r]) s = (postReport (.sweepSummary r.summary)
      (runs.foldl (fun u r => postReport (.sweepSummary r.summary) u) s)).ctl := by
  simp [summariesPosted]

theorem summariesPosted_congr (runs : List Run) {s t : State} (hnow : s.now = t.now) (himage : s.image = t.image)
    (hctl : s.ctl = t.ctl) : summariesPosted runs s = summariesPosted runs t := by
  induction runs using List.reverseRecOn with
  | nil => exact hctl
  | append_singleton runs r ih =>
    rw [summariesPosted_concat, summariesPosted_concat]
    exact postReport_ctl_congr _ (by simpa using hnow) (by simpa using himage) ih

/-! ### One hold and the Audit Scheduler (R15, R128) -/

/-- The scheduler and the Control Port are as holds on these circuits leave them. -/
structure HoldsTo (s : State) (held : List Nat) (t : State) : Prop where
  sched : t.sched = schedHeld s held
  ctl : t.ctl = summariesPosted (runsHeldOut s held) s
  now : t.now = s.now
  image : t.image = s.image

theorem holdsTo_nil {s : State} (hok : SchedulerOk s) : HoldsTo s [] s where
  sched := by
    have hruns : deferredIn s [] = id := funext fun r => by simp [deferredIn]
    have hall : runsHeld s [] = allRuns s := by simp [runsHeld, holdsComplete, hruns]
    have hqueues : queuesHeld s [] = s.sched := by simp [queuesHeld, leftQueued]
    rw [schedHeld_eq s [] hok, hall, hqueues, withRuns_allRuns hok]
  ctl := rfl
  now := rfl
  image := rfl

theorem HoldsTo.runsAre {s t : State} {held : List Nat} (hok : SchedulerOk s) (ht : HoldsTo s held t) :
    RunsAre t (queuesHeld s held) (runsHeld s held) where
  sched := ht.sched.trans (schedHeld_eq s held hok)
  none_at_base hcurrent := by simp [runsHeld, allRuns_of_base hok hcurrent]
  distinct := by
    obtain ⟨_, _, _, _, _, hids, _⟩ := hok
    exact runsHeld_distinct hids

theorem defers_of_other {s : State} {c : Nat} (h : stateOf s c ≠ some (.queued .sweep)) (r : Run) :
    defers s c r = false := by
  rw [defers, beq_false_of_ne h, Bool.false_and]

/-- A circuit that is not QUEUED stands in no queue and in no run. -/
theorem holdsTo_of_not_queued {s t : State} {held : List Nat} {c : Nat} (hok : SchedulerOk s) (hc : c ∉ held)
    (hstate : ∀ m, stateOf s c ≠ some (.queued m)) (ht : HoldsTo s held t) : HoldsTo s (held ++ [c]) t where
  sched := by
    rw [ht.sched, schedHeld_eq s _ hok, schedHeld_eq s _ hok, queuesHeld, queuesHeld,
      leftQueued_concat_of_other (hstate _), leftQueued_concat_of_other (hstate _),
      runsHeld_concat_of_not_defers (defers_of_other (hstate _))]
  ctl := by rw [ht.ctl, runsHeldOut_concat_of_not_defers hc (defers_of_other (hstate _))]
  now := ht.now
  image := ht.image

theorem holdsTo_of_census {s t : State} {held : List Nat} {c : Nat} (hok : SchedulerOk s) (hwork : WorkOk s)
    (hc : c ∉ held) (hstate : stateOf s c = some (.queued .census)) (ht : HoldsTo s held t) :
    HoldsTo s (held ++ [c]) (leaveList .census c t) where
  sched := by
    obtain ⟨_, hcensus, _⟩ := hwork
    have hother : ∀ m, m ≠ .census → stateOf s c ≠ some (.queued m) := by
      intro m hm
      rw [hstate]
      simpa using Ne.symm hm
    rw [leaveList, ht.sched, schedHeld_eq s _ hok, schedHeld_eq s _ hok, queuesHeld, queuesHeld,
      leftQueued_concat_of_queued hcensus hstate, leftQueued_concat_of_other (hother .routine (by decide)),
      runsHeld_concat_of_not_defers (defers_of_other (hother .sweep (by decide)))]
    rfl
  ctl := by
    rw [runsHeldOut_concat_of_not_defers hc (defers_of_other (by simp [hstate]))]
    exact ht.ctl
  now := ht.now
  image := ht.image

theorem holdsTo_of_routine {s t : State} {held : List Nat} {c : Nat} (hok : SchedulerOk s) (hwork : WorkOk s)
    (hc : c ∉ held) (hstate : stateOf s c = some (.queued .routine)) (ht : HoldsTo s held t) :
    HoldsTo s (held ++ [c]) (leaveList .routine c t) where
  sched := by
    obtain ⟨_, _, hroutine, _⟩ := hwork
    rw [leaveList, ht.sched, schedHeld_eq s _ hok, schedHeld_eq s _ hok, queuesHeld, queuesHeld,
      leftQueued_concat_of_queued hroutine hstate, leftQueued_concat_of_other (by simp [hstate]),
      runsHeld_concat_of_not_defers (defers_of_other (by simp [hstate]))]
    rfl
  ctl := by
    rw [runsHeldOut_concat_of_not_defers hc (defers_of_other (by simp [hstate]))]
    exact ht.ctl
  now := ht.now
  image := ht.image

theorem queuesHeld_concat_of_sweep {s : State} {held : List Nat} {c : Nat}
    (hstate : stateOf s c = some (.queued .sweep)) : queuesHeld s (held ++ [c]) = queuesHeld s held := by
  rw [queuesHeld, queuesHeld, leftQueued_concat_of_other (by simp [hstate]),
    leftQueued_concat_of_other (by simp [hstate])]

theorem waitingRun_of_holdsTo {s t : State} {held : List Nat} {c : Nat} (hok : SchedulerOk s) (hc : c ∉ held)
    (ht : HoldsTo s held t) : waitingRun t c = (waitingRun s c).map (deferredIn s held) := by
  rw [waitingRun, allRuns_of_runsAre (ht.runsAre hok), find_waiting_runsHeld hc]

/-- A QUEUED SWEEP circuit becomes DEFERRED in the run where it waits, which completes if no other entry is open. -/
theorem holdsTo_of_sweep {s t : State} {held : List Nat} {c : Nat} (hok : SchedulerOk s) (hc : c ∉ held)
    (hstate : stateOf s c = some (.queued .sweep)) (ht : HoldsTo s held t) :
    HoldsTo s (held ++ [c]) (deferEntry c t) := by
  have hids : ((allRuns s).map (·.id)).Nodup := by
    obtain ⟨_, _, _, _, _, hids, _⟩ := hok
    exact hids
  cases hw : waitingRun s c with
  | none =>
    have hdefers : ∀ r, defers s c r = false := fun r => by simp [defers, hw]
    have hsame : deferEntry c t = t := by simp [deferEntry, waitingRun_of_holdsTo hok hc ht, hw]
    rw [hsame]
    refine ⟨?_, ?_, ht.now, ht.image⟩
    · rw [ht.sched, schedHeld_eq s _ hok, schedHeld_eq s _ hok, queuesHeld_concat_of_sweep hstate,
        runsHeld_concat_of_not_defers hdefers]
    · rw [ht.ctl, runsHeldOut_concat_of_not_defers hc hdefers]
  | some r =>
    have hruns := runsAre_modifyRun r.id (·.setStanding c .deferred) (fun _ => rfl) (ht.runsAre hok)
    have hr : deferredIn s (held ++ [c]) r ∈ runsChanged r.id (·.setStanding c .deferred) (runsHeld s held) := by
      rw [deferredIn_concat_of_defers (by rw [defers_eq hstate hw, beq_self_eq_true])]
      refine List.mem_map.2 ⟨_, mem_runsHeld hc hw, if_pos rfl⟩
    have htouched : deferEntry c t =
        completeRun (deferredIn s (held ++ [c]) r).id (modifyRun r.id (·.setStanding c .deferred) t) := by
      simp [deferEntry, waitingRun_of_holdsTo hok hc ht, hw, touchRun, id_deferredIn]
    rw [htouched]
    refine ⟨?_, ?_, by simp [ht.now], by simp [ht.image]⟩
    · rw [schedHeld_eq s _ hok, queuesHeld_concat_of_sweep hstate]
      cases hcomplete : (deferredIn s (held ++ [c]) r).complete with
      | false =>
        rw [completeRun_of_open hruns hr hcomplete, hruns.sched, runsHeld_concat_of_open hids hc hstate hw hcomplete]
      | true =>
        rw [(completeRun_of_complete hruns hr hcomplete).1, runsHeld_concat_of_complete hids hc hstate hw hcomplete]
        rfl
    · rw [runsHeldOut_concat_of_waiting hids hc hstate hw]
      cases hcomplete : (deferredIn s (held ++ [c]) r).complete with
      | false => simp [completeRun_of_open hruns hr hcomplete, ht.ctl]
      | true =>
        rw [(completeRun_of_complete hruns hr hcomplete).2, if_pos rfl, summariesPosted_concat]
        exact postReport_ctl_congr _ (by simp [ht.now]) (by simp [ht.image]) ht.ctl

theorem holdsTo_of_same {s t u : State} {held : List Nat} (ht : HoldsTo s held t) (hsched : u.sched = t.sched)
    (hctl : u.ctl = t.ctl) (hnow : u.now = t.now) (himage : u.image = t.image) : HoldsTo s held u :=
  ⟨hsched.trans ht.sched, hctl.trans ht.ctl, hnow.trans ht.now, himage.trans ht.image⟩

/-- The move of R15, by the state that the record had before the holds. -/
theorem holdsTo_moveForHold {s t : State} {held : List Nat} {c : Nat} {st : RecordState} (hok : SchedulerOk s)
    (hwork : WorkOk s) (hc : c ∉ held) (hstate : stateOf s c = some st) (ht : HoldsTo s held t) :
    HoldsTo s (held ++ [c]) (moveForHold c st t) := by
  have hheld : HoldsTo s held (setRecordState c .held t) :=
    holdsTo_of_same ht (by simp) (by simp) (by simp) (by simp)
  match st with
  | .idle => exact holdsTo_of_not_queued hok hc (by simp [hstate]) hheld
  | .held => exact holdsTo_of_not_queued hok hc (by simp [hstate]) ht
  | .probing =>
    exact holdsTo_of_not_queued hok hc (by simp [hstate])
      (holdsTo_of_same ht (by simp [moveForHold]) (by simp [moveForHold]) (by simp) (by simp))
  | .queued .census => exact holdsTo_of_census hok hwork hc hstate hheld
  | .queued .routine => exact holdsTo_of_routine hok hwork hc hstate hheld
  | .queued .sweep => exact holdsTo_of_sweep hok hc hstate hheld

/-- The scheduler and the report queue after holds on circuits are `schedHeld` and the summaries posted. -/
theorem holdsTo_holdAll {ser : Serial} {s : State} (hok : SchedulerOk s) (hwork : WorkOk s) (held : List Nat)
    (h : Holdable ser held s) : HoldsTo s held (holdAll ser held s) := by
  induction held using List.reverseRecOn with
  | nil => exact holdsTo_nil hok
  | append_singleton held c ih =>
    obtain ⟨r, hr, hser⟩ := h.free c (by simp)
    have hstate : stateOf s c = some r.state := by simp [stateOf, hr]
    rw [holdAll_concat, addHold_of_not_mem ((findPath_holdAll h.init h.not_mem).trans hr) hser]
    exact holdsTo_moveForHold hok hwork h.not_mem hstate
      (holdsTo_of_same (ih h.init) (by simp) (by simp) (by simp) (by simp))

/-! ### The circuits that a window holds (R93) -/

/-- The circuits that take a hold for a window. -/
def heldBy (ser : Serial) (scope : PortSet) (s : State) : List Nat :=
  (s.paths.filter (takesHold ser scope)).map (·.circuit)

theorem mem_heldBy {ser : Serial} {scope : PortSet} {s : State} {c : Nat} :
    c ∈ heldBy ser scope s ↔ ∃ r ∈ s.paths, takesHold ser scope r = true ∧ r.circuit = c := by
  simp [heldBy, and_assoc]

theorem findPath_of_mem {s : State} (hnd : (pathOrder s).Nodup) {r : PathRecord} (hr : r ∈ s.paths) :
    findPath s r.circuit = some r := by
  obtain ⟨before, after, hs⟩ := List.append_of_mem hr
  exact findPath_of_split hs hnd

theorem holdable_heldBy (ser : Serial) (scope : PortSet) (s : State) (hnd : (pathOrder s).Nodup) :
    Holdable ser (heldBy ser scope s) s where
  records := hnd
  distinct := hnd.sublist (List.filter_sublist.map _)
  free c hc := by
    obtain ⟨r, hr, htakes, rfl⟩ := mem_heldBy.1 hc
    exact ⟨r, findPath_of_mem hnd hr, by simpa using (Bool.and_eq_true_iff.1 htakes).2⟩

/-- A record is walked over exactly if it takes the hold. -/
theorem recordsHeldFor_heldBy (ser : Serial) (scope : PortSet) (s : State) (hnd : (pathOrder s).Nodup) :
    recordsHeldFor ser (heldBy ser scope s) s.paths =
      s.paths.map fun r => if takesHold ser scope r then heldFor ser r else r := by
  refine List.map_congr_left fun r hr => ?_
  have hmem : r.circuit ∈ heldBy ser scope s ↔ takesHold ser scope r = true := by
    rw [mem_heldBy]
    constructor
    · rintro ⟨x, hx, htakes, hc⟩
      rwa [← List.inj_on_of_nodup_map hnd hx hr hc]
    · exact fun htakes => ⟨r, hr, htakes, rfl⟩
  by_cases htakes : takesHold ser scope r = true <;> simp [hmem, htakes]

/-- A slot has OVERLAP set exactly if its record is PROBING and takes the hold. -/
theorem slotsHeld_heldBy (ser : Serial) (scope : PortSet) (s : State) (hnd : (pathOrder s).Nodup) :
    slotsHeld s (heldBy ser scope s) = s.probes.slots.map fun o => o.map fun p =>
      if p.phase ≠ .closing ∧ (s.paths.any fun r =>
          r.circuit == p.circuit && r.state == .probing && takesHold ser scope r) = true
        then { p with overlap := true } else p := by
  refine List.map_congr_left fun o _ => congrArg (o.map ·) (funext fun p => ?_)
  have hprobing : (p.circuit ∈ heldBy ser scope s ∧ stateOf s p.circuit = some .probing) ↔
      (s.paths.any fun r => r.circuit == p.circuit && r.state == .probing && takesHold ser scope r) = true := by
    simp only [mem_heldBy, List.any_eq_true, Bool.and_eq_true, beq_iff_eq]
    constructor
    · rintro ⟨⟨r, hr, htakes, hc⟩, hstate⟩
      have hst : r.state = .probing := by simpa [stateOf, ← hc, findPath_of_mem hnd hr] using hstate
      exact ⟨r, hr, ⟨hc, hst⟩, htakes⟩
    · rintro ⟨r, hr, ⟨hc, hst⟩, htakes⟩
      exact ⟨⟨r, hr, htakes, hc⟩, by simp [stateOf, ← hc, findPath_of_mem hnd hr, hst]⟩
  simp only [hprobing]

/-! ### The window that enters the list (R95) -/

/-- The window of a dispatched WINDOW OPEN, with the number of its holds. -/
def openedWindow (ser : Serial) (scope : PortSet) (held : Nat) : Window :=
  { newWindow ser scope with counts := { zeroTally with held := held } }

/-- The state in which the holds are placed: the notice has left the queue, and the window is listed. -/
def windowListed (ser : Serial) (scope : PortSet) (s : State) : State :=
  (dispatched s).setWindows { s.windows with list := s.windows.list ++ [newWindow ser scope] }

theorem exec_windowOpenDispatch {s : State} {r : Received} {rest : List Received} {ser : Serial} {scope : PortSet}
    (hs : s.loop.receive = r :: rest) (hr : r.payload = .windowOpen ser scope) :
    exec .windowOpenDispatch s = .next (takeWindowOpen ser scope (dispatched s)) := by
  have harm : exec .windowOpenDispatch s = execWindowOpenDispatch s := rfl
  rw [harm, execWindowOpenDispatch, dispatchOldest_of_act hs (f := takeWindowOpen ser scope) (by simp only [hr])]

theorem takeWindowOpen_of_listed {ser : Serial} {scope : PortSet} {s : State}
    (h : (findWindow s ser).isSome = true) : takeWindowOpen ser scope s = s := if_pos h

theorem takeWindowOpen_of_unlisted {ser : Serial} {scope : PortSet} {s : State} (h : findWindow s ser = none) :
    takeWindowOpen ser scope (dispatched s) =
      modifyWindow ser
        (fun w => { w with counts := { w.counts with held := (heldBy ser scope s).length } })
        (holdAll ser (heldBy ser scope s) (windowListed ser scope s)) := by
  have hnone : (findWindow (dispatched s) ser).isSome = false := by
    have h' : findWindow (dispatched s) ser = none := h
    rw [h', Option.isSome_none]
  rw [takeWindowOpen, if_neg (by simp [hnone])]
  rfl

/-- The new window alone is counted. -/
theorem modifyWindow_listed {ser : Serial} {scope : PortSet} {s : State} (h : findWindow s ser = none) (n : Nat) :
    (s.windows.list ++ [newWindow ser scope]).map (fun w =>
      if w.serial = ser then { w with counts := { w.counts with held := n } } else w) =
    s.windows.list ++ [openedWindow ser scope n] := by
  have hothers : s.windows.list.map (fun w =>
      if w.serial = ser then { w with counts := { w.counts with held := n } } else w) = s.windows.list := by
    refine (List.map_congr_left fun w hw => ?_).trans (List.map_id _)
    have hne := List.find?_eq_none.1 h w hw
    exact if_neg (by simpa using hne)
  rw [List.map_append, hothers, List.map_singleton, if_pos (show (newWindow ser scope).serial = ser from rfl)]
  rfl

theorem schedulerOk_windowListed {ser : Serial} {scope : PortSet} {s : State} (hok : SchedulerOk s) :
    SchedulerOk (windowListed ser scope s) := by
  obtain ⟨hlength, hempty, hadmission, hbase, hruns, hids, hslots, hrunning⟩ := hok
  refine ⟨hlength, hempty, hadmission, hbase, hruns, hids, hslots, fun hstate => ⟨(hrunning hstate).1, ?_⟩⟩
  simp [windowListed, dispatched, (hrunning hstate).2]

/-- Settles O30: a WINDOW OPEN by the holds of R95, a WINDOW CANCEL by the cancel of R97. -/
theorem openAndCancelDispatchesListAndRemove : Obligations.OpenAndCancelDispatchesListAndRemove := by
  refine ⟨fun r ser scope rest s hs hr hnd => ⟨fun hlisted => ?_, fun hnone => ?_⟩,
    fun r ser rest s hs hr hnd => ⟨fun hnone => ?_, windowCancelDispatch_removes hs hr hnd⟩⟩
  · rw [exec_windowOpenDispatch hs hr, takeWindowOpen_of_listed (s := dispatched s) hlisted]
  · have hheld : Holdable ser (heldBy ser scope s) (windowListed ser scope s) :=
      holdable_heldBy ser scope (windowListed ser scope s) hnd
    refine ⟨_, (exec_windowOpenDispatch hs hr).trans (congrArg _ (takeWindowOpen_of_unlisted hnone)),
      ?_, ?_, ?_, ?_, fun held hsel hwork hok => ?_, ?_, ?_, ?_, ?_⟩
    · simp [windowListed, dispatched, hs]
    · have hcount : s.paths.countP (takesHold ser scope) = (heldBy ser scope s).length := by
        rw [heldBy, List.length_map, List.countP_eq_length_filter]
      simp only [modifyWindow, holdAll_frame, State.setWindows_fields, hcount]
      exact congrArg (fun l => { s.windows with list := l }) (modifyWindow_listed hnone _)
    · simp only [modifyWindow_frame, holdAll_paths ser _ _ hheld]
      exact recordsHeldFor_heldBy ser scope s hnd
    · simp only [modifyWindow_frame, holdAll_probes ser _ _ hheld]
      exact congrArg (fun l => { s.probes with slots := l }) (slotsHeld_heldBy ser scope s hnd)
    · obtain rfl : held = heldBy ser scope s := hsel
      have hholds := holdsTo_holdAll (schedulerOk_windowListed hok) hwork _ hheld
      simp only [modifyWindow_frame]
      exact ⟨hholds.sched, hholds.ctl.trans (summariesPosted_congr _ rfl rfl rfl)⟩
    all_goals simp [windowListed, dispatched]
  · rw [exec_windowCancelDispatch hs hr, takeWindowCancel_of_unlisted (s := dispatched s) hnone]

end Sys2Proof.Machine
end

