-- ==== Sys2Proof/Proofs/AuditRequests.lean ====
section
/-! Audit requests (R17, R116): the walk over selected records that `requestAudits` makes is one change of the record
list and of the two base lists, `afterRequests`. -/

namespace Sys2Proof.Machine

/-! ### One record and the base lists -/

/-- A record that an audit request has reached (R17). -/
def requested (m : Mode) (o : Origin) (r : PathRecord) : PathRecord :=
  if r.state = .idle then { r with state := .queued (requestMode r m), origin := some o } else r

@[simp] theorem requested_circuit (m : Mode) (o : Origin) (r : PathRecord) : (requested m o r).circuit = r.circuit := by
  unfold requested
  split <;> rfl

/-- An audit request of mode `m` puts the record in the list of mode `q` (R17, R115). -/
def joins (m q : Mode) (r : PathRecord) : Bool := r.state == .idle && requestMode r m == q

theorem joins_of_idle {m q : Mode} {r : PathRecord} (h : r.state = .idle) : joins m q r = (requestMode r m == q) := by
  simp [joins, h]

theorem joins_of_not_idle {m q : Mode} {r : PathRecord} (h : r.state ≠ .idle) : joins m q r = false := by
  simp [joins, h]

theorem requestMode_eq_census (m : Mode) (r : PathRecord) :
    requestMode r m = .census ↔ m = .census ∨ m = .routine ∧ r.baseline = none := by
  unfold requestMode
  split <;> simp_all

theorem requestMode_eq_routine (m : Mode) (r : PathRecord) :
    requestMode r m = .routine ↔ m = .routine ∧ r.baseline ≠ none := by
  unfold requestMode
  split <;> simp_all

theorem joins_census (m : Mode) (r : PathRecord) :
    joins m .census r = (r.state == .idle && (m == .census || m == .routine && r.baseline.isNone)) := by
  rw [Bool.eq_iff_iff]
  simp [joins, requestMode_eq_census]

theorem joins_routine (m : Mode) (r : PathRecord) :
    joins m .routine r = (r.state == .idle && (m == .routine && r.baseline.isSome)) := by
  rw [Bool.eq_iff_iff]
  simp [joins, requestMode_eq_routine, Option.isSome_iff_ne_none]

/-- The Audit Scheduler after requests for records: the IDLE ones stand at the tails of their lists. -/
def Scheduler.withRequests (x : Scheduler) (m : Mode) (l : List PathRecord) : Scheduler :=
  { x with
    census := x.census ++ (l.filter (joins m .census)).map (·.circuit)
    routine := x.routine ++ (l.filter (joins m .routine)).map (·.circuit) }

@[simp] theorem Scheduler.withRequests_nil (x : Scheduler) (m : Mode) : x.withRequests m [] = x := by
  simp [withRequests]

@[simp] theorem Scheduler.withRequests_withRequests (x : Scheduler) (m : Mode) (l k : List PathRecord) :
    (x.withRequests m l).withRequests m k = x.withRequests m (l ++ k) := by
  simp [withRequests]

theorem Scheduler.withRequests_of_not_idle (x : Scheduler) (m : Mode) {r : PathRecord} (h : r.state ≠ .idle) :
    x.withRequests m [r] = x := by
  simp [withRequests, joins_of_not_idle h]

/-- The circuit of an IDLE record joins the list of the mode that its request is taken with. -/
theorem joinList_of_idle (m : Mode) {r : PathRecord} (s : State) (h : r.state = .idle) :
    joinList (requestMode r m) r.circuit s = s.setSched (s.sched.withRequests m [r]) := by
  cases hq : requestMode r m with
  | census | routine => simp [joinList, Scheduler.withRequests, joins_of_idle h, hq]
  | sweep =>
    have hnone : s.sched.withRequests m [r] = s.sched := by simp [Scheduler.withRequests, joins_of_idle h, hq]
    rw [hnone]
    rfl

/-! ### The walk over the selected records (R116) -/

/-- One step of the walk. -/
theorem requestAudit_of_split {s : State} {before after : List PathRecord} {r : PathRecord} (m : Mode) (o : Origin)
    (hs : s.paths = before ++ r :: after) (hnd : (pathOrder s).Nodup) :
    requestAudit r.circuit m o s =
      (s.setPaths (before ++ requested m o r :: after)).setSched (s.sched.withRequests m [r]) := by
  have hr := findPath_of_split hs hnd
  by_cases hidle : r.state = .idle
  · simp [requestAudit, hr, hidle, enqueue, modifyPath_of_split _ hs hnd, joinList_of_idle m _ hidle, requested]
  · have hstays : ∀ x, findPath s r.circuit = some x → x.state ≠ .idle := fun x hx =>
      Option.some.inj (hr.symm.trans hx) ▸ hidle
    rw [requestAudit_of_not_idle _ _ _ _ hstays, Scheduler.withRequests_of_not_idle _ _ hidle, requested,
      if_neg hidle, ← hs]
    rfl

/-- The walk over the rest of the records, those before it requested already. -/
theorem requestAudits_filter_of_split (sel : PathRecord → Bool) (m : Mode) (o : Origin) (after : List PathRecord) :
    ∀ (before : List PathRecord) (s : State), s.paths = before ++ after → (pathOrder s).Nodup →
      requestAudits ((after.filter sel).map (·.circuit)) m o s =
        (s.setPaths (before ++ after.map fun r => if sel r then requested m o r else r)).setSched
          (s.sched.withRequests m (after.filter sel)) := by
  induction after with
  | nil => intro before s hs _; simp [requestAudits, ← hs]
  | cons r after ih =>
    intro before s hs hnd
    by_cases hsel : sel r = true
    · have horder : ((before ++ requested m o r :: after).map (·.circuit)).Nodup := by
        simpa [pathOrder, hs] using hnd
      have hrest := ih (before ++ [requested m o r])
        ((s.setPaths (before ++ requested m o r :: after)).setSched (s.sched.withRequests m [r]))
        (by simp) (by simpa [pathOrder] using horder)
      rw [List.filter_cons_of_pos hsel, List.map_cons, requestAudits, List.foldl_cons,
        requestAudit_of_split m o hs hnd, ← requestAudits, hrest]
      simp [hsel, State.setSched, State.setPaths]
    · rw [List.filter_cons_of_neg hsel, ih (before ++ [r]) s (by simp [hs]) hnd]
      simp [hsel]

theorem afterRequests_eq (sel : PathRecord → Bool) (m : Mode) (o : Origin) (s : State) :
    afterRequests sel m o s =
      (s.setPaths (s.paths.map fun r => if sel r then requested m o r else r)).setSched
        (s.sched.withRequests m (s.paths.filter sel)) := by
  have hrecord : ∀ r : PathRecord, (if sel r then requested m o r else r) =
      if sel r && r.state == .idle then
        { r with state := .queued (requestMode r m), origin := some o }
      else r := by
    intro r
    cases hsel : sel r <;> simp [requested]
  have hlist : ∀ q, (s.paths.filter sel).filter (joins m q) = s.paths.filter fun r => sel r && joins m q r := by
    intro q
    simp only [List.filter_filter, Bool.and_comm]
  simp only [hrecord, Scheduler.withRequests, hlist, joins_census, joins_routine]
  simp [afterRequests, requestMode, Bool.and_assoc]

/-- The walk is one change of the record list and of the base lists. -/
theorem requestAudits_eq_afterRequests (sel : PathRecord → Bool) (m : Mode) (o : Origin) (s : State)
    (hnd : (pathOrder s).Nodup) :
    requestAudits ((s.paths.filter sel).map (·.circuit)) m o s = afterRequests sel m o s := by
  rw [afterRequests_eq]
  exact requestAudits_filter_of_split sel m o s.paths [] s rfl hnd

/-- A request for every record. -/
theorem requestAudits_pathOrder (m : Mode) (o : Origin) (s : State) (hnd : (pathOrder s).Nodup) :
    requestAudits (pathOrder s) m o s = afterRequests (fun _ => true) m o s := by
  rw [← requestAudits_eq_afterRequests _ m o s hnd, List.filter_true]
  rfl

/-- A request for the record of one circuit. -/
theorem requestAudit_eq_afterRequests (c : Nat) (m : Mode) (o : Origin) {s : State} {r : PathRecord}
    (hnd : (pathOrder s).Nodup) (hr : findPath s c = some r) :
    requestAudit c m o s = afterRequests (·.circuit == c) m o s := by
  have hmem : c ∈ pathOrder s := circuit_of_findPath hr ▸ List.mem_map_of_mem (List.mem_of_find?_eq_some hr)
  have hone : (s.paths.filter (·.circuit == c)).map (·.circuit) = [c] := by
    calc (s.paths.filter (·.circuit == c)).map (·.circuit)
        = (pathOrder s).filter (· == c) := by rw [pathOrder, List.filter_map]; rfl
      _ = [c] := by rw [List.filter_beq, List.count_eq_one_of_mem hnd hmem, List.replicate_one]
  rw [← requestAudits_eq_afterRequests _ m o s hnd, hone]
  rfl

end Sys2Proof.Machine
end

