-- ==== Sys2Proof/Proofs/AuditCommands.lean ====
section
/-! The commands of the Audit Scheduler: AUDIT and CENSUS (R117, R177), HOLD AUDITS and RELEASE AUDITS (R121, R178). -/

namespace Sys2Proof.Machine

/-! ### A command taken while RUNNING is served at once (R172, R174) -/

theorem gate_of_running {c : Instr} {inPassive : Bool} {serve : State → State} {s : State}
    (hrun : s.runState = .running) : gate c inPassive serve (intakeCommand c s) = serve (heldCommand c s) := by
  simp only [gate, intakeCommand_frame, hrun]
  rfl

theorem exec_audit_of_running (w : BitVec 16) (s : State) (hrun : s.runState = .running) :
    exec (.audit w) s = .next (answer (.audit w) (serveRequest .routine w (heldCommand (.audit w) s))) :=
  congrArg Host.Outcome.next (gate_of_running hrun)

theorem exec_census_of_running (w : BitVec 16) (s : State) (hrun : s.runState = .running) :
    exec (.census w) s = .next (answer (.census w) (serveRequest .census w (heldCommand (.census w) s))) :=
  congrArg Host.Outcome.next (gate_of_running hrun)

theorem exec_holdAudits_of_running (s : State) (hrun : s.runState = .running) :
    exec .holdAudits s = .next (answer .holdAudits (serveAdmission false (heldCommand .holdAudits s))) :=
  congrArg Host.Outcome.next (gate_of_running hrun)

theorem exec_releaseAudits_of_running (s : State) (hrun : s.runState = .running) :
    exec .releaseAudits s = .next (answer .releaseAudits (serveAdmission true (heldCommand .releaseAudits s))) :=
  congrArg Host.Outcome.next (gate_of_running hrun)

/-! ### AUDIT and CENSUS (R117, R177) -/

theorem circuitOk_iff (w : BitVec 16) : circuitOk w = true ↔ 1 ≤ w.toNat ∧ w.toNat ≤ 1023 := by
  simp [circuitOk]

/-- The value that names every circuit is no circuit number. -/
theorem ne_all_of_circuitOk {w : BitVec 16} (h : circuitOk w = true) : w ≠ 0xFFFF := by
  rintro rfl
  exact absurd h (by decide)

theorem serveRequest_all (m : Mode) {s : State} (hnd : (pathOrder s).Nodup) :
    serveRequest m 0xFFFF s = ⟨.done, .queuedCount (s.paths.countP (·.state == .idle)),
      afterRequests (fun _ => true) m .command s⟩ := by
  rw [serveRequest, if_pos rfl, requestAudits_pathOrder m .command s hnd]
  rfl

theorem serveRequest_of_bad (m : Mode) {w : BitVec 16} (s : State) (hall : w ≠ 0xFFFF) (hbad : circuitOk w = false) :
    serveRequest m w s = refuse .refusedParam s := by
  rw [serveRequest, if_neg hall]
  simp [hbad]

theorem serveRequest_of_unknown (m : Mode) {w : BitVec 16} {s : State} (hok : circuitOk w = true)
    (hnone : findPath s w.toNat = none) : serveRequest m w s = refuse .refusedUnknown s := by
  rw [serveRequest, if_neg (ne_all_of_circuitOk hok)]
  simp [hok, hnone]

/-- The request for one listed circuit, and the response as the record then stands. -/
theorem serveRequest_of_listed (m : Mode) {w : BitVec 16} {s : State} {r : PathRecord} (hok : circuitOk w = true)
    (hr : findPath s w.toNat = some r) :
    serveRequest m w s = ⟨.done, requestData (requestAudit w.toNat m .command s) w.toNat,
      requestAudit w.toNat m .command s⟩ := by
  rw [serveRequest, if_neg (ne_all_of_circuitOk hok)]
  simp [hok, hr]

theorem serveRequest_of_idle (m : Mode) {w : BitVec 16} {s : State} {r : PathRecord} (hnd : (pathOrder s).Nodup)
    (hok : circuitOk w = true) (hr : findPath s w.toNat = some r) (hidle : r.state = .idle) :
    serveRequest m w s = ⟨.done, .request (.queued (requestMode r m)) (some .command),
      afterRequests (·.circuit == w.toNat) m .command s⟩ := by
  rw [serveRequest_of_listed m hok hr, requestData, findPath_requestAudit _ m .command s r hr hidle,
    requestAudit_eq_afterRequests _ m .command hnd hr]

theorem serveRequest_of_not_idle (m : Mode) {w : BitVec 16} {s : State} {r : PathRecord}
    (hok : circuitOk w = true) (hr : findPath s w.toNat = some r) (hbusy : r.state ≠ .idle) :
    serveRequest m w s = ⟨.done, .request r.state r.origin, s⟩ := by
  have hstays : requestAudit w.toNat m .command s = s :=
    requestAudit_of_not_idle _ _ _ _ fun x hx => Option.some.inj (hr.symm.trans hx) ▸ hbusy
  rw [serveRequest_of_listed m hok hr, hstays, requestData, hr]

/-! ### HOLD AUDITS and RELEASE AUDITS (R121, R178) -/

theorem serveAdmission_of_base (x : Bool) {s : State} (h : s.sched.current = none) :
    serveAdmission x s =
      ⟨.done, .admission x s.sched.shadow true, s.setSched { s.sched with admission := x }⟩ := by
  simp [serveAdmission, setAdmission, h]

theorem serveAdmission_of_sweep (x : Bool) {s : State} (h : s.sched.current ≠ none) :
    serveAdmission x s =
      ⟨.done, .admission s.sched.admission x false, s.setSched { s.sched with shadow := x }⟩ := by
  simp [serveAdmission, setAdmission, h, Option.isSome_iff_ne_none]

/-- Settles O34: AUDIT and CENSUS by the cases of the circuit value and of the record found, HOLD AUDITS and RELEASE
AUDITS by whether a sweep is current. -/
theorem auditCommandsQueueAndAdmit : Obligations.AuditCommandsQueueAndAdmit := by
  refine ⟨fun w s hrun hnd => ?_, fun s hrun => ⟨fun hbase => ⟨?_, ?_⟩, fun hsweep => ⟨?_, ?_⟩⟩⟩
  · have haudit := exec_audit_of_running w s hrun
    have hcensus := exec_census_of_running w s hrun
    refine ⟨fun hall => ?_, fun hbad => ?_, fun hlow hhigh hnone => ?_, fun r hr hlow hhigh hidle => ?_,
      fun r hr hlow hhigh hbusy => ?_⟩
    · subst hall
      have hserve := fun m c => serveRequest_all m (s := heldCommand c s) hnd
      rw [haudit, hcensus, hserve, hserve]
      exact ⟨rfl, rfl⟩
    · have hnok : circuitOk w = false := Bool.eq_false_iff.2 fun hok => by
        have := (circuitOk_iff w).1 hok
        omega
      have hall : w ≠ 0xFFFF := by
        rintro rfl
        exact absurd hbad (by decide)
      have hserve := fun m c => serveRequest_of_bad m (heldCommand c s) hall hnok
      rw [haudit, hcensus, hserve, hserve]
      exact ⟨rfl, rfl⟩
    · have hserve := fun m c =>
        serveRequest_of_unknown m (s := heldCommand c s) ((circuitOk_iff w).2 ⟨hlow, hhigh⟩) hnone
      rw [haudit, hcensus, hserve, hserve]
      exact ⟨rfl, rfl⟩
    · have hserve := fun m c =>
        serveRequest_of_idle m (s := heldCommand c s) hnd ((circuitOk_iff w).2 ⟨hlow, hhigh⟩) hr hidle
      have hmode : requestMode r .routine = if r.baseline = none then .census else .routine := by
        simp [requestMode]
      rw [haudit, hcensus, hserve, hserve, hmode]
      exact ⟨rfl, rfl⟩
    · have hserve := fun m c =>
        serveRequest_of_not_idle m (s := heldCommand c s) ((circuitOk_iff w).2 ⟨hlow, hhigh⟩) hr hbusy
      rw [haudit, hcensus, hserve, hserve]
      exact ⟨rfl, rfl⟩
  · rw [exec_holdAudits_of_running s hrun, serveAdmission_of_base (s := heldCommand _ s) _ hbase]
    rfl
  · rw [exec_releaseAudits_of_running s hrun, serveAdmission_of_base (s := heldCommand _ s) _ hbase]
    rfl
  · rw [exec_holdAudits_of_running s hrun, serveAdmission_of_sweep (s := heldCommand _ s) _ hsweep]
    rfl
  · rw [exec_releaseAudits_of_running s hrun, serveAdmission_of_sweep (s := heldCommand _ s) _ hsweep]
    rfl

end Sys2Proof.Machine
end

