-- ==== Sys2Proof/Proofs/RestoreDispatch.lean ====
section
/-! A dispatched SPAN ALARM RESTORE (R133): routine requests alone, as base work that R120 launches under BASE. -/

namespace Sys2Proof.Machine

theorem exec_spanAlarmRestoreDispatch {s : State} {a : Received} {rest : List Received} {sp : Span}
    (hs : s.loop.receive = a :: rest) (ha : a.payload = .spanAlarm .restore sp) :
    exec .spanAlarmRestoreDispatch s = .next (takeRestore sp (dispatched s)) := by
  have harm : exec .spanAlarmRestoreDispatch s = execSpanAlarmRestoreDispatch s := rfl
  rw [harm, execSpanAlarmRestoreDispatch, dispatchOldest_of_act hs (f := takeRestore sp) (by simp only [ha])]

theorem takeRestore_eq (sp : Span) (s : State) (hnd : (pathOrder s).Nodup) :
    takeRestore sp s = afterRequests (·.entersAt sp.station sp.port) .routine .restore s :=
  requestAudits_eq_afterRequests _ _ _ s hnd

/-- Base work waits while a sweep is current and while admission is clear (R120). -/
theorem baseLaunchChoice_of_barred {s : State} (h : s.sched.current ≠ none ∨ s.sched.admission = false) :
    baseLaunchChoice s = none := by
  rw [baseLaunchChoice, if_neg]
  simp only [Bool.and_eq_true, Option.isNone_iff_eq_none, not_and]
  rintro ⟨_, hadmission⟩ hcurrent
  rcases h with hsweep | hclear
  · exact hsweep hcurrent
  · simp [hclear] at hadmission

theorem exec_baseLaunch_of_barred {s : State} (h : s.sched.current ≠ none ∨ s.sched.admission = false) :
    exec .baseLaunch s = .next s := by
  have harm : exec .baseLaunch s = execBaseLaunch s := rfl
  rw [harm, execBaseLaunch, baseLaunchChoice_of_barred h]

/-- Settles O37: the dispatched notice makes the requests and does nothing else, and R120 bars base work. -/
theorem restoreRequestsAudits : Obligations.RestoreRequestsAudits := by
  refine ⟨fun a sp rest s hs ha hnd => ?_, fun s => exec_baseLaunch_of_barred⟩
  rw [exec_spanAlarmRestoreDispatch hs ha, takeRestore_eq sp (dispatched s) hnd]
  rfl

end Sys2Proof.Machine
end

