-- ==== Sys2Proof/Proofs/ImageCheck.lean ====
section
/-! The end of a load (R188, R189): what the first check makes of an image, what the load leaves as image, finding and
run state, and that serving a held command (R174) changes none of the three and raises no alert in PASSIVE. -/

namespace Sys2Proof.Machine

/-! ### The first check (R189) -/

/-- The reason of an image that fails the first check: the signature is tested first. -/
def wholeFault (bs : List Byte) : LoadFault := if bs.getD 0 0 ≠ 0x3C then .signature else .integrity

/-- A failed first check ends the checks: no field of the image is used. -/
theorem checkImage_of_fault {bs : List Byte} (h : bs.getD 0 0 ≠ 0x3C ∨ imageSum bs ≠ 0) :
    checkImage bs = (blankImage, wholeFinding (wholeFault bs)) := by
  by_cases hsig : bs.getD 0 0 ≠ 0x3C
  · rw [checkImage, wholeFault, if_pos hsig, if_pos hsig]
  · have hsum : imageSum bs ≠ 0 := h.resolve_left hsig
    rw [checkImage, wholeFault, if_neg hsig, if_neg hsig, if_pos hsum]

/-- An image that passes is checked field by field (R190, R191). -/
theorem checkImage_finding_of_whole {bs : List Byte} (hsig : bs.getD 0 0 = 0x3C) (hsum : imageSum bs = 0) :
    (checkImage bs).2 = fieldFinding bs (rawImage bs) := by
  rw [checkImage, if_neg (not_not_intro hsig), if_neg (not_not_intro hsum)]

/-- The field checks find the faults of R190 alone. -/
theorem mem_fieldFaults_of_reason {bs : List Byte} {im : Image} {f : LoadFault}
    (h : (fieldFinding bs im).reason = some f) : f ∈ fieldFaults :=
  (List.mem_filter.1 (List.mem_of_mem_head? h)).1

/-- A blank memory has no signature. -/
theorem readImage_nil_signature : (readImage []).getD 0 0 ≠ 0x3C := by decide

theorem blankImage_classAt : ∀ p ∈ List.range 16, blankImage.classAt p = .unused := by decide

/-! ### What a load writes -/

/-- The run state, the image and the finding, which a load writes (R192, R193). -/
def State.loaded (s : State) : RunState × Image × LoadFinding := (s.runState, s.image, s.finding)

theorem loaded_eq_iff {s t : State} :
    t.loaded = s.loaded ↔ t.runState = s.runState ∧ t.image = s.image ∧ t.finding = s.finding := by
  simp only [State.loaded, Prod.mk.injEq]

theorem endLoad_image (bytes : List Byte) (s : State) :
    (endLoad bytes s).image = (checkImage (readImage bytes)).1 := by
  simp only [endLoad]
  split <;> simp

theorem endLoad_finding (bytes : List Byte) (s : State) :
    (endLoad bytes s).finding = (checkImage (readImage bytes)).2 := by
  simp only [endLoad]
  split <;> simp

theorem enterPassive_ctl (s : State) : (enterPassive s).ctl = s.ctl := rfl

theorem endLoad_of_fault {bytes : List Byte} (s : State)
    (h : (readImage bytes).getD 0 0 ≠ 0x3C ∨ imageSum (readImage bytes) ≠ 0) :
    endLoad bytes s = enterPassive (loadFlags (wholeFinding (wholeFault (readImage bytes)))
      ((s.setImage blankImage).setFinding (wholeFinding (wholeFault (readImage bytes))))) := by
  rw [endLoad, checkImage_of_fault h]
  rfl

/-- Without a warning a load leaves CONFIG-WARN as it was (R191). -/
theorem alertSet_loadFlags_configWarn {f : LoadFinding} (s : State) (h : f.warnings = []) :
    (loadFlags f s).ctl.alertSet .configWarn = s.ctl.alertSet .configWarn := by
  have hne : (Alert.configWarn == Alert.fault) = false := rfl
  rw [loadFlags, if_pos h]
  split
  · rw [alertSet_setFault, hne, Bool.or_false]
  · rfl

/-! ### The held command (R174) -/

theorem answer_loaded (c : Instr) (r : Reply) : (answer c r).loaded = r.state.loaded := rfl

theorem gate_loaded {c : Instr} {inPassive : Bool} {serve : State → State} {s : State}
    (h : (serve s).loaded = s.loaded) : (gate c inPassive serve s).loaded = s.loaded := by
  unfold gate
  cases s.runState with
  | starting => rfl
  | running => exact h
  | passive =>
    cases inPassive with
    | false => rfl
    | true => exact h

/-- A command answered by a reply that leaves the load as it is. -/
theorem gate_answer_loaded {c : Instr} {inPassive : Bool} {reply : State → Reply} {s : State}
    (h : (reply s).state.loaded = s.loaded) :
    (gate c inPassive (fun s => answer c (reply s)) s).loaded = s.loaded :=
  gate_loaded ((answer_loaded c _).trans h)

theorem serveReadPort_loaded (port : Nat) (s : State) : (serveReadPort port s).loaded = s.loaded := by
  unfold serveReadPort
  split <;> rfl

/-- No command that a load may find held changes what the load wrote. -/
theorem serveHeld_loaded (c : Instr) (s : State) : (serveHeld c s).loaded = s.loaded := by
  cases c with
  | status | clearAlerts f | clearFaults f | setAlertMask f | openWindow scope | closeWindow q code
  | cancelWindow q | audit w | census w | holdAudits | releaseAudits | sweep st p | readReport
  | readCircuit w | readWindows | readRoster | loopReset =>
    exact gate_answer_loaded (by simp [loaded_eq_iff])
  | readPort p => exact gate_loaded (serveReadPort_loaded p.toNat s)
  | _ => rfl

/-- A command not served in PASSIVE is refused, with no other effect. -/
theorem alertSet_gate_of_refused {c : Instr} {serve : State → State} {s : State} (a : Alert)
    (hpassive : s.runState = .passive) : (gate c false serve s).ctl.alertSet a = s.ctl.alertSet a := by
  simp only [gate, hpassive]
  rfl

theorem alertSet_gate_of_served {c : Instr} {reply : State → Reply} {s : State} (a : Alert)
    (hpassive : s.runState = .passive) :
    (gate c true (fun s => answer c (reply s)) s).ctl.alertSet a = (reply s).state.ctl.alertSet a := by
  simp only [gate, hpassive, if_true]
  rfl

theorem alertSet_of_serveClearAlerts {flags : Byte} {s : State} {a : Alert}
    (h : (serveClearAlerts flags s).state.ctl.alertSet a = true) : s.ctl.alertSet a = true := by
  simp only [serveClearAlerts, State.setCtl_fields, ControlPort.alertSet, BitVec.getLsbD_and, Bool.and_eq_true] at h
  exact h.1

/-- In PASSIVE a held command clears alerts, if it does anything to them. -/
theorem alertSet_of_serveHeld {c : Instr} {s : State} {a : Alert} (hpassive : s.runState = .passive)
    (h : (serveHeld c s).ctl.alertSet a = true) : s.ctl.alertSet a = true := by
  cases c with
  | clearAlerts f => exact alertSet_of_serveClearAlerts ((alertSet_gate_of_served a hpassive).symm.trans h)
  | status | clearFaults f | readRoster => exact (alertSet_gate_of_served a hpassive).symm.trans h
  | setAlertMask f | openWindow scope | closeWindow q code | cancelWindow q | audit w | census w
  | holdAudits | releaseAudits | sweep st p | readReport | readCircuit w | readWindows | readPort p
  | loopReset =>
    exact (alertSet_gate_of_refused a hpassive).symm.trans h
  | _ => exact h

theorem servePending_loaded (s : State) : (servePending s).loaded = s.loaded := by
  unfold servePending
  split
  · exact serveHeld_loaded _ s
  · rfl

theorem alertSet_of_servePending {s : State} {a : Alert} (hpassive : s.runState = .passive)
    (h : (servePending s).ctl.alertSet a = true) : s.ctl.alertSet a = true := by
  unfold servePending at h
  split at h
  · exact alertSet_of_serveHeld hpassive h
  · exact h

/-! ### LOAD_END -/

theorem exec_loadEnd_of_starting (bytes : List Byte) {s : State} (hstart : s.runState = .starting) :
    exec (.loadEnd bytes) s = .next (servePending (endLoad bytes s)) := by
  have harm : exec (.loadEnd bytes) s = execLoadEnd bytes s := rfl
  rw [harm, execLoadEnd, hstart]

theorem servePending_endLoad_finding (bytes : List Byte) (s : State) :
    (servePending (endLoad bytes s)).finding = (checkImage (readImage bytes)).2 := by
  obtain ⟨_, _, hfinding⟩ := loaded_eq_iff.1 (servePending_loaded (endLoad bytes s))
  exact hfinding.trans (endLoad_finding bytes s)

/-- A load whose image fails the first check ends in PASSIVE, with the blank image and no warning raised. -/
theorem servePending_endLoad_of_fault {bytes : List Byte} (s : State)
    (h : (readImage bytes).getD 0 0 ≠ 0x3C ∨ imageSum (readImage bytes) ≠ 0) :
    (servePending (endLoad bytes s)).runState = .passive ∧
      (servePending (endLoad bytes s)).finding = wholeFinding (wholeFault (readImage bytes)) ∧
      (servePending (endLoad bytes s)).image = blankImage ∧
      ((servePending (endLoad bytes s)).ctl.alertSet .configWarn = true → s.ctl.alertSet .configWarn = true) := by
  obtain ⟨hrun, himage, _⟩ := loaded_eq_iff.1 (servePending_loaded (endLoad bytes s))
  have hpassive : (endLoad bytes s).runState = .passive := by rw [endLoad_of_fault s h]; rfl
  refine ⟨hrun.trans hpassive, ?_, ?_, fun hwarn => ?_⟩
  · rw [servePending_endLoad_finding, checkImage_of_fault h]
  · rw [himage, endLoad_image, checkImage_of_fault h]
  · have hflags := alertSet_of_servePending hpassive hwarn
    rw [endLoad_of_fault s h, enterPassive_ctl] at hflags
    rwa [alertSet_loadFlags_configWarn _ rfl] at hflags

/-- The reason of an image that passes the first check is one of the field checks'. -/
theorem servePending_endLoad_reason {bytes : List Byte} (s : State) {f : LoadFault}
    (hsig : (readImage bytes).getD 0 0 = 0x3C) (hsum : imageSum (readImage bytes) = 0) (hf : f ∉ fieldFaults) :
    (servePending (endLoad bytes s)).finding.reason ≠ some f := by
  rw [servePending_endLoad_finding, checkImage_finding_of_whole hsig hsum]
  exact fun hreason => hf (mem_fieldFaults_of_reason hreason)

/-- Settles O19: the first check decides the finding, and serving a held command leaves it in place. -/
theorem imageIsFirstCheckedWhole : Obligations.ImageIsFirstCheckedWhole := by
  intro image s hstart
  refine ⟨fun hfault => ?_, fun hsig hsum => ?_, fun hblank => ?_⟩
  · obtain ⟨hpassive, hfinding, himage, hwarn⟩ := servePending_endLoad_of_fault s hfault
    refine ⟨_, exec_loadEnd_of_starting image hstart, hpassive, hfinding, ?_, ?_, ?_, hwarn⟩
    · rw [himage]; rfl
    · rw [himage]; exact blankImage_classAt
    · rw [himage]; rfl
  · exact ⟨_, exec_loadEnd_of_starting image hstart,
      servePending_endLoad_reason s hsig hsum (by decide),
      servePending_endLoad_reason s hsig hsum (by decide)⟩
  · subst hblank
    refine ⟨_, exec_loadEnd_of_starting [] hstart, ?_⟩
    obtain ⟨_, hfinding, _, _⟩ := servePending_endLoad_of_fault s (.inl readImage_nil_signature)
    rw [hfinding, wholeFinding, wholeFault, if_pos readImage_nil_signature]

end Sys2Proof.Machine
end

