-- ==== Sys2Proof/Proofs/Formats.lean ====
section
/-! The formats of chapter 11: command frames, payloads and copies are read back as what they were written from. -/

namespace Sys2Proof

/-! ### Command frames (R172, R198) -/

theorem word16_bytes (w : BitVec 16) : word16 (highByte w) (lowByte w) = w := by
  apply BitVec.eq_of_toNat_eq
  have hw : w.toNat < 65536 := w.isLt
  simp only [word16, highByte, lowByte, BitVec.toNat_ofNat]
  omega

/-- A frame that is not empty and passes the check is the command it spells. -/
theorem commandOfFrame_of_valid {f : List Byte} {c : Instr} (h : validFrame f = some c) :
    commandOfFrame f = some c := by
  have hne : f ≠ [] := by
    rintro rfl
    exact absurd h (by simp [validFrame])
  rw [commandOfFrame, if_neg hne, h]

theorem validFrame_frameOfCommand {c : Instr} {f : List Byte} (hc : Machine.controlCommand c = true)
    (hf : frameOfCommand c = some f) : validFrame f = some c := by
  cases c
  case invalidCommandFrame => exact absurd hc Bool.false_ne_true
  all_goals
    simp only [frameOfCommand, Option.some.injEq, reduceCtorEq] at hf
  all_goals subst hf
  case openWindow w => exact congrArg (fun x => some (Instr.openWindow x)) (word16_bytes w)
  case audit w => exact congrArg (fun x => some (Instr.audit x)) (word16_bytes w)
  case census w => exact congrArg (fun x => some (Instr.census x)) (word16_bytes w)
  case readCircuit w => exact congrArg (fun x => some (Instr.readCircuit x)) (word16_bytes w)
  all_goals rfl

/-- Settles O14: each frame is taken apart by the check into the code and the parameters it was made from. -/
theorem commandFramesSpellTheirCommand : Obligations.CommandFramesSpellTheirCommand := fun _ _ hc hf =>
  have hvalid := validFrame_frameOfCommand hc hf
  ⟨hvalid, commandOfFrame_of_valid hvalid⟩

namespace Machine

/-! ### Bytes and fields -/

theorem toNat_byte (n : Nat) : (byte n).toNat = n % 256 := BitVec.toNat_ofNat n 8

theorem toNat_byte_of_lt {n : Nat} (h : n < 256) : (byte n).toNat = n := by rw [toNat_byte, Nat.mod_eq_of_lt h]

theorem field2_bytes2 {n : Nat} (h : n < 65536) : field2 (byte (n / 256)) (byte (n % 256)) = n := by
  simp only [field2, toNat_byte]
  omega

theorem circuitField_eq (c e : Nat) :
    circuitField c e = [byte ((e * 4096 + c) / 256), byte ((e * 4096 + c) % 256)] := rfl

theorem field2_circuitField {c e : Nat} (hc : c < 1024) (he : e < 16) :
    field2 (byte ((e * 4096 + c) / 256)) (byte ((e * 4096 + c) % 256)) = e * 4096 + c :=
  field2_bytes2 (by omega)

theorem circuitOf_field {c e : Nat} (hc : c < 1024) : circuitOf (e * 4096 + c) = c := by
  unfold circuitOf
  omega

theorem epochOf_field {c e : Nat} (hc : c < 1024) : epochOf (e * 4096 + c) = e := by
  unfold epochOf
  omega

theorem portSetOf_bytes2 (x : PortSet) : portSetOf (byte (x.toNat / 256)) (byte (x.toNat % 256)) = x := by
  rw [portSetOf, field2_bytes2 x.isLt, BitVec.ofNat_toNat, BitVec.setWidth_eq]

theorem circuitInRange_iff (c : Nat) : circuitInRange c = true ↔ 1 ≤ c ∧ c < 1024 := by simp [circuitInRange]

theorem epochInRange_iff (e : Nat) : epochInRange e = true ↔ 1 ≤ e ∧ e < 16 := by simp [epochInRange]

theorem inRange_serial_iff (x : Serial) : x.inRange = true ↔ (1 ≤ x.opener ∧ x.opener ≤ 24) ∧ x.seq < 256 := by
  simp [Serial.inRange, stationOk]

theorem circuitInRange_circuitOf {f : Nat} (h : circuitOf f ≠ 0) : circuitInRange (circuitOf f) = true := by
  rw [circuitInRange_iff]
  unfold circuitOf at *
  omega

theorem epochInRange_epochOf {hi lo : Byte} (h : epochOf (field2 hi lo) ≠ 0) :
    epochInRange (epochOf (field2 hi lo)) = true := by
  rw [epochInRange_iff]
  have hhi : hi.toNat < 256 := hi.isLt
  have hlo : lo.toNat < 256 := lo.isLt
  unfold epochOf field2 at *
  omega

/-! ### Codes -/

theorem decodeMode_code (m : Mode) : decodeMode m.code = some m := by cases m <;> rfl

theorem Mode.code_lt (m : Mode) : m.code < 4 := by cases m <;> decide

theorem decodeVerdict_code (v : Verdict) : decodeVerdict v.code = some v := by cases v <;> rfl

theorem Verdict.code_lt (v : Verdict) : v.code < 8 := by cases v <;> decide

theorem decodeItemKind_code (k : ItemKind) : decodeItemKind k.code = k := by cases k <;> rfl

theorem ItemKind.code_lt (k : ItemKind) : k.code < 4 := by cases k <;> decide

theorem decodeAlarmKind_code (k : AlarmKind) : decodeAlarmKind k.code = some k := by cases k <;> rfl

theorem AlarmKind.code_lt (k : AlarmKind) : k.code < 3 := by cases k <;> decide

theorem decodeClass_code (c : PortClass) : decodeClass c.code = some c := by cases c <;> rfl

theorem PortClass.code_lt (c : PortClass) : c.code < 5 := by cases c <;> decide

theorem decodeFlags_code (f : VerdictFlags) : decodeFlags f.code = f := by
  obtain ⟨a, b, c, d⟩ := f
  cases a <;> cases b <;> cases c <;> cases d <;> rfl

theorem VerdictFlags.code_lt (f : VerdictFlags) : f.code < 16 := by
  obtain ⟨a, b, c, d⟩ := f
  cases a <;> cases b <;> cases c <;> cases d <;> decide

/-! ### Sighting items -/

theorem decodeFar_iff (cls : PortClass) (st p : Nat) (far : Option (Nat × Nat)) :
    decodeFar cls st p = some far ↔
      (cls = .lineOut ∧ stationOk st = true ∧ far = some (st, p)) ∨
      (cls ≠ .lineOut ∧ st = 0 ∧ p = 0 ∧ far = none) := by
  unfold decodeFar
  by_cases hcls : cls = .lineOut
  · by_cases hst : stationOk st = true
    · simp [hcls, hst, eq_comm (a := far)]
    · simp [hcls, hst]
  · rw [if_neg hcls]
    by_cases hzero : st = 0 ∧ p = 0
    · simp [hcls, hzero, eq_comm (a := far)]
    · rw [if_neg hzero]
      refine ⟨fun h => absurd h (by simp), ?_⟩
      rintro (⟨h, _⟩ | ⟨_, h1, h2, _⟩)
      · exact absurd h hcls
      · exact absurd ⟨h1, h2⟩ hzero

theorem Item.bytes_eq (i : Item) : i.bytes =
    [byte ((i.epoch * 4096 + i.circuit) / 256), byte ((i.epoch * 4096 + i.circuit) % 256),
      byte i.record.station, byte (i.record.port + 16 * i.record.cls.code),
      byte (i.record.kind.code + 16 * i.record.level),
      byte ((i.record.far.map (·.1)).getD 0), byte ((i.record.far.map (·.2)).getD 0)] := by
  obtain ⟨c, e, st, p, cls, k, l, far⟩ := i
  cases far <;> rfl

theorem inRange_item_iff (i : Item) : i.inRange = true ↔
    (1 ≤ i.circuit ∧ i.circuit < 1024) ∧ (1 ≤ i.epoch ∧ i.epoch < 16) ∧ stationOk i.record.station = true ∧
      i.record.port < 16 ∧ i.record.cls ≠ .unused ∧ i.record.level < 8 ∧
      ((i.record.far = none ∧ i.record.cls ≠ .lineOut) ∨
        ∃ st p, i.record.far = some (st, p) ∧ i.record.cls = .lineOut ∧ stationOk st = true ∧ p < 256) := by
  unfold Item.inRange
  cases hfar : i.record.far with
  | none => simp [circuitInRange, epochInRange, and_assoc]
  | some x =>
    obtain ⟨st, p⟩ := x
    simp [circuitInRange, epochInRange, and_assoc]

theorem decodeItem_bytes {i : Item} (h : i.inRange = true) {a b c d e f x : Byte}
    (hbytes : i.bytes = [a, b, c, d, e, f, x]) : decodeItem a b c d e f x = some i := by
  obtain ⟨⟨hc1, hc⟩, ⟨he1, he⟩, hst, hp, hcls, hl, hfar⟩ := (inRange_item_iff i).1 h
  have hstation : i.record.station < 256 := by
    have := (stationOk_iff _).1 hst
    omega
  have hcode := i.record.cls.code_lt
  have hkind := i.record.kind.code_lt
  rw [Item.bytes_eq] at hbytes
  simp only [List.cons.injEq, and_true] at hbytes
  obtain ⟨rfl, rfl, rfl, rfl, rfl, rfl, rfl⟩ := hbytes
  have hd : (byte (i.record.port + 16 * i.record.cls.code)).toNat = i.record.port + 16 * i.record.cls.code :=
    toNat_byte_of_lt (by omega)
  have he' : (byte (i.record.kind.code + 16 * i.record.level)).toNat =
      i.record.kind.code + 16 * i.record.level := toNat_byte_of_lt (by omega)
  have hclsbits : (i.record.port + 16 * i.record.cls.code) / 16 % 8 = i.record.cls.code := by omega
  have hport : (i.record.port + 16 * i.record.cls.code) % 16 = i.record.port := by omega
  have hkindbits : (i.record.kind.code + 16 * i.record.level) % 4 = i.record.kind.code := by omega
  have hlevel : (i.record.kind.code + 16 * i.record.level) / 16 % 8 = i.record.level := by omega
  have hdecoded : decodeFar i.record.cls (byte ((i.record.far.map (·.1)).getD 0)).toNat
      (byte ((i.record.far.map (·.2)).getD 0)).toNat = some i.record.far := by
    rw [decodeFar_iff]
    rcases hfar with ⟨hnone, hcl⟩ | ⟨st, p, hsome, hcl, hok, hp⟩
    · exact .inr ⟨hcl, by rw [hnone]; rfl, by rw [hnone]; rfl, hnone⟩
    · have hst' : st < 256 := by
        have := (stationOk_iff _).1 hok
        omega
      refine .inl ⟨hcl, ?_, ?_⟩
      · rw [hsome]
        exact (toNat_byte_of_lt hst').symm ▸ hok
      · rw [hsome]
        exact congrArg some (Prod.ext (toNat_byte_of_lt hst').symm (toNat_byte_of_lt hp).symm)
  unfold decodeItem
  dsimp only
  rw [field2_circuitField hc he, circuitOf_field hc, epochOf_field hc, hd, hclsbits, decodeClass_code,
    toNat_byte_of_lt hstation]
  dsimp only
  rw [if_neg (by simp [hcls, hst]; omega), hdecoded]
  dsimp only
  rw [hport, he', hkindbits, hlevel, decodeItemKind_code]

theorem inRange_of_decodeItem {a b c d e f x : Byte} {i : Item} (h : decodeItem a b c d e f x = some i) :
    i.inRange = true := by
  unfold decodeItem at h
  dsimp only at h
  split at h
  · exact absurd h (by simp)
  · rename_i cls _
    split at h
    · exact absurd h (by simp)
    · rename_i hok
      split at h
      · exact absurd h (by simp)
      · rename_i far hfar
        cases h
        simp only [not_or, Bool.not_eq_eq_eq_not] at hok
        obtain ⟨hcls, hcirc, hep, hst⟩ := hok
        rw [inRange_item_iff]
        refine ⟨(circuitInRange_iff _).1 (circuitInRange_circuitOf hcirc),
          (epochInRange_iff _).1 (epochInRange_epochOf hep), by simpa using hst,
          Nat.mod_lt _ (by decide), hcls, Nat.mod_lt _ (by decide), ?_⟩
        rcases (decodeFar_iff _ _ _ _).1 hfar with ⟨hcl, hok, hf⟩ | ⟨hcl, _, _, hf⟩
        · exact .inr ⟨_, _, hf, hcl, hok, x.isLt⟩
        · exact .inl ⟨hf, hcl⟩

theorem decodeItems_bytes (items : List Item) (h : items.all Item.inRange = true) :
    decodeItems (items.map Item.bytes).flatten = some items := by
  induction items with
  | nil => rfl
  | cons i items ih =>
    rw [List.all_cons, Bool.and_eq_true] at h
    have hfirst := decodeItem_bytes h.1 (Item.bytes_eq i)
    rw [List.map_cons, List.flatten_cons, Item.bytes_eq]
    simp only [List.cons_append, List.nil_append, decodeItems]
    rw [hfirst, ih h.2]

theorem length_items_bytes (items : List Item) : (items.map Item.bytes).flatten.length = 7 * items.length := by
  induction items with
  | nil => rfl
  | cons i items ih =>
    rw [List.map_cons, List.flatten_cons, List.length_append, ih, Item.bytes_eq]
    simp only [List.length_cons, List.length_nil]
    omega

/-- Items that decode have their fields in range, and seven bytes each. -/
theorem decodeItems_spec (l : List Byte) (items : List Item) (h : decodeItems l = some items) :
    items.all Item.inRange = true ∧ l.length = 7 * items.length := by
  induction l using decodeItems.induct generalizing items with
  | case1 =>
    cases h
    exact ⟨rfl, rfl⟩
  | case2 a b c d e f g rest i is his hi ih =>
    rw [decodeItems, hi, his] at h
    cases h
    obtain ⟨hall, hlen⟩ := ih is his
    refine ⟨?_, ?_⟩
    · rw [List.all_cons, inRange_of_decodeItem hi, hall]
      rfl
    · simp only [List.length_cons, hlen]
      omega
  | case3 a b c d e f g rest hnone _ =>
    rw [decodeItems] at h
    split at h
    · rename_i i is hi his
      exact absurd his (hnone i is hi)
    · exact absurd h (by simp)
  | case4 l hnil hcons =>
    unfold decodeItems at h
    split at h
    · exact absurd rfl hnil
    · exact absurd rfl (hcons _ _ _ _ _ _ _ _)
    · exact absurd h (by simp)

/-! ### Payloads -/

/-! The layouts kind by kind. -/

theorem decodePayload_join (a : Byte) :
    decodePayload 1 [a] = some (.join (a.toNat % 4) (decide (128 ≤ a.toNat))) := rfl

theorem decodePayload_present (a : Byte) :
    decodePayload 2 [a] = some (.present (a.toNat % 4) (decide (128 ≤ a.toNat))) := rfl

theorem decodePayload_windowOpen (o q hi lo : Byte) : decodePayload 3 [o, q, hi, lo] =
    if stationOk o.toNat then some (.windowOpen ⟨o.toNat, q.toNat⟩ (portSetOf hi lo)) else none := rfl

theorem decodePayload_windowCancel (o q : Byte) : decodePayload 4 [o, q] =
    if stationOk o.toNat then some (.windowCancel ⟨o.toNat, q.toNat⟩) else none := rfl

theorem decodePayload_windowClose (o q : Byte) : decodePayload 5 [o, q] =
    if stationOk o.toNat then some (.windowClose ⟨o.toNat, q.toNat⟩) else none := rfl

theorem decodePayload_tally (o q h p c f i hi lo : Byte) : decodePayload 6 [o, q, h, p, c, f, i, hi, lo] =
    if stationOk o.toNat && countOk h && countOk p && countOk c && countOk f && countOk i then
      some (.tally ⟨o.toNat, q.toNat⟩ ⟨h.toNat, p.toNat, c.toNat, f.toNat, i.toNat,
        if circuitOf (field2 hi lo) = 0 then none else some (circuitOf (field2 hi lo))⟩)
    else none := rfl

theorem decodePayload_probeStart (hi lo m : Byte) : decodePayload 7 [hi, lo, m] =
    (decodeMode (m.toNat % 4)).bind fun mode =>
      if circuitOf (field2 hi lo) = 0 ∨ epochOf (field2 hi lo) = 0 then none
      else some (.probeStart (circuitOf (field2 hi lo)) (epochOf (field2 hi lo)) mode (m.toNat / 16 % 8)) := by
  have hmatch : decodePayload 7 [hi, lo, m] = match decodeMode (m.toNat % 4) with
    | none => none
    | some mode =>
      if circuitOf (field2 hi lo) = 0 ∨ epochOf (field2 hi lo) = 0 then none
      else some (.probeStart (circuitOf (field2 hi lo)) (epochOf (field2 hi lo)) mode (m.toNat / 16 % 8)) := rfl
  rw [hmatch]
  cases decodeMode (m.toNat % 4) <;> rfl

theorem decodePayload_sighting (n : Byte) (l : List Byte) : decodePayload 8 (n :: l) =
    if 1 ≤ n.toNat ∧ n.toNat ≤ 8 ∧ l.length = 7 * n.toNat then (decodeItems l).map .sighting else none := rfl

theorem decodePayload_probeEnd (hi lo v f : Byte) : decodePayload 9 [hi, lo, v, f] =
    (decodeVerdict v.toNat).bind fun verdict =>
      if circuitOf (field2 hi lo) = 0 ∨ epochOf (field2 hi lo) = 0 then none
      else some (.probeEnd (circuitOf (field2 hi lo)) (epochOf (field2 hi lo)) verdict (decodeFlags f.toNat)) := by
  have hmatch : decodePayload 9 [hi, lo, v, f] = match decodeVerdict v.toNat with
    | none => none
    | some verdict =>
      if circuitOf (field2 hi lo) = 0 ∨ epochOf (field2 hi lo) = 0 then none
      else some (.probeEnd (circuitOf (field2 hi lo)) (epochOf (field2 hi lo)) verdict
        (decodeFlags f.toNat)) := rfl
  rw [hmatch]
  cases decodeVerdict v.toNat <;> rfl

theorem decodePayload_stray (hi lo h k p : Byte) : decodePayload 10 [hi, lo, h, k, p] =
    if circuitOf (field2 hi lo) ≠ 0 ∧ stationOk h.toNat ∧ k.toNat < 3 then
      some (.stray (circuitOf (field2 hi lo)) h.toNat k.toNat p.toNat)
    else none := rfl

theorem decodePayload_spanAlarm (k st p : Byte) : decodePayload 11 [k, st, p] =
    (decodeAlarmKind k.toNat).bind fun kind =>
      if stationOk st.toNat then some (.spanAlarm kind ⟨st.toNat, p.toNat⟩) else none := by
  have hmatch : decodePayload 11 [k, st, p] = match decodeAlarmKind k.toNat with
    | none => none
    | some kind => if stationOk st.toNat then some (.spanAlarm kind ⟨st.toNat, p.toNat⟩) else none := rfl
  rw [hmatch]
  cases decodeAlarmKind k.toNat <;> rfl

/-! A payload of a kind decodes from that kind's number of bytes alone (R197). -/

theorem bytes_of_decodePayload_join {bs : List Byte} {p : Payload} (h : decodePayload 1 bs = some p) :
    ∃ a, bs = [a] := by
  match bs, h with
  | [a], _ => exact ⟨a, rfl⟩
  | [], hx | _ :: _ :: _, hx => exact nomatch (show none = some p from hx)

theorem bytes_of_decodePayload_present {bs : List Byte} {p : Payload} (h : decodePayload 2 bs = some p) :
    ∃ a, bs = [a] := by
  match bs, h with
  | [a], _ => exact ⟨a, rfl⟩
  | [], hx | _ :: _ :: _, hx => exact nomatch (show none = some p from hx)

theorem bytes_of_decodePayload_windowOpen {bs : List Byte} {p : Payload} (h : decodePayload 3 bs = some p) :
    ∃ o q hi lo, bs = [o, q, hi, lo] := by
  match bs, h with
  | [o, q, hi, lo], _ => exact ⟨o, q, hi, lo, rfl⟩
  | [], hx | [_], hx | [_, _], hx | [_, _, _], hx | _ :: _ :: _ :: _ :: _ :: _, hx => exact nomatch (show none = some p from hx)

theorem bytes_of_decodePayload_windowCancel {bs : List Byte} {p : Payload} (h : decodePayload 4 bs = some p) :
    ∃ o q, bs = [o, q] := by
  match bs, h with
  | [o, q], _ => exact ⟨o, q, rfl⟩
  | [], hx | [_], hx | _ :: _ :: _ :: _, hx => exact nomatch (show none = some p from hx)

theorem bytes_of_decodePayload_windowClose {bs : List Byte} {p : Payload} (h : decodePayload 5 bs = some p) :
    ∃ o q, bs = [o, q] := by
  match bs, h with
  | [o, q], _ => exact ⟨o, q, rfl⟩
  | [], hx | [_], hx | _ :: _ :: _ :: _, hx => exact nomatch (show none = some p from hx)

theorem bytes_of_decodePayload_tally {bs : List Byte} {p : Payload} (h : decodePayload 6 bs = some p) :
    ∃ o q hd port c f i hi lo, bs = [o, q, hd, port, c, f, i, hi, lo] := by
  match bs, h with
  | [o, q, hd, port, c, f, i, hi, lo], _ => exact ⟨o, q, hd, port, c, f, i, hi, lo, rfl⟩
  | [], hx | [_], hx | [_, _], hx | [_, _, _], hx | [_, _, _, _], hx | [_, _, _, _, _], hx
  | [_, _, _, _, _, _], hx | [_, _, _, _, _, _, _], hx | [_, _, _, _, _, _, _, _], hx
  | _ :: _ :: _ :: _ :: _ :: _ :: _ :: _ :: _ :: _ :: _, hx => exact nomatch (show none = some p from hx)

theorem bytes_of_decodePayload_probeStart {bs : List Byte} {p : Payload} (h : decodePayload 7 bs = some p) :
    ∃ hi lo m, bs = [hi, lo, m] := by
  match bs, h with
  | [hi, lo, m], _ => exact ⟨hi, lo, m, rfl⟩
  | [], hx | [_], hx | [_, _], hx | _ :: _ :: _ :: _ :: _, hx => exact nomatch (show none = some p from hx)

theorem bytes_of_decodePayload_probeEnd {bs : List Byte} {p : Payload} (h : decodePayload 9 bs = some p) :
    ∃ hi lo v f, bs = [hi, lo, v, f] := by
  match bs, h with
  | [hi, lo, v, f], _ => exact ⟨hi, lo, v, f, rfl⟩
  | [], hx | [_], hx | [_, _], hx | [_, _, _], hx | _ :: _ :: _ :: _ :: _ :: _, hx => exact nomatch (show none = some p from hx)

theorem bytes_of_decodePayload_stray {bs : List Byte} {p : Payload} (h : decodePayload 10 bs = some p) :
    ∃ hi lo hd k port, bs = [hi, lo, hd, k, port] := by
  match bs, h with
  | [hi, lo, hd, k, port], _ => exact ⟨hi, lo, hd, k, port, rfl⟩
  | [], hx | [_], hx | [_, _], hx | [_, _, _], hx | [_, _, _, _], hx | _ :: _ :: _ :: _ :: _ :: _ :: _, hx => exact nomatch (show none = some p from hx)

theorem bytes_of_decodePayload_spanAlarm {bs : List Byte} {p : Payload} (h : decodePayload 11 bs = some p) :
    ∃ k st port, bs = [k, st, port] := by
  match bs, h with
  | [k, st, port], _ => exact ⟨k, st, port, rfl⟩
  | [], hx | [_], hx | [_, _], hx | _ :: _ :: _ :: _ :: _, hx => exact nomatch (show none = some p from hx)

theorem bytes_of_decodePayload_sighting {bs : List Byte} {p : Payload} (h : decodePayload 8 bs = some p) :
    ∃ n l, bs = n :: l := by
  match bs, h with
  | n :: l, _ => exact ⟨n, l, rfl⟩
  | [], hx => exact nomatch (show none = some p from hx)

theorem bytes_of_decodePayload_loopReset {bs : List Byte} {p : Payload} (h : decodePayload 12 bs = some p) :
    bs = [] := by
  match bs, h with
  | [], _ => rfl
  | _ :: _, hx => exact nomatch (show none = some p from hx)

theorem toNat_advertByte {grade : Nat} (batch : Bool) (h : grade < 4) :
    (advertByte grade batch).toNat = grade + 128 * boolNat batch := by
  rw [advertByte, toNat_byte_of_lt]
  cases batch <;> simp [boolNat] <;> omega

theorem advertByte_fields {grade : Nat} (batch : Bool) (h : grade < 4) :
    (advertByte grade batch).toNat % 4 = grade ∧ decide (128 ≤ (advertByte grade batch).toNat) = batch := by
  rw [toNat_advertByte batch h]
  cases batch
  · exact ⟨by simp [boolNat]; omega, decide_eq_false (by simp [boolNat]; omega)⟩
  · exact ⟨by simp [boolNat]; omega, decide_eq_true (by simp [boolNat])⟩

/-- The two bytes of a serial in range are read back as the serial. -/
theorem serial_bytes {x : Serial} (h : x.inRange = true) :
    stationOk (byte x.opener).toNat = true ∧ (⟨(byte x.opener).toNat, (byte x.seq).toNat⟩ : Serial) = x := by
  obtain ⟨⟨h1, h2⟩, hseq⟩ := (inRange_serial_iff x).1 h
  rw [toNat_byte_of_lt (by omega), toNat_byte_of_lt hseq]
  exact ⟨(stationOk_iff _).2 ⟨h1, h2⟩, rfl⟩

theorem countOk_byte {n : Nat} (h : n ≤ 32) : countOk (byte n) = true ∧ (byte n).toNat = n := by
  have hn : (byte n).toNat = n := toNat_byte_of_lt (by omega)
  exact ⟨by rw [countOk, hn]; exact decide_eq_true h, hn⟩

theorem decodePayload_tally_bytes {ser : Serial} {c : Tally} (hser : ser.inRange = true) (hheld : c.held ≤ 32)
    (hpassed : c.passed ≤ 32) (hchanged : c.changed ≤ 32) (hfailed : c.failed ≤ 32)
    (hincomplete : c.incomplete ≤ 32) (hfirst : c.firstFailing.all circuitInRange = true) :
    decodePayload 6 (Payload.tally ser c).bytes = some (.tally ser c) := by
  obtain ⟨hstation, hserial⟩ := serial_bytes hser
  obtain ⟨hh, hh'⟩ := countOk_byte hheld
  obtain ⟨hp, hp'⟩ := countOk_byte hpassed
  obtain ⟨hc, hc'⟩ := countOk_byte hchanged
  obtain ⟨hf, hf'⟩ := countOk_byte hfailed
  obtain ⟨hi, hi'⟩ := countOk_byte hincomplete
  have hlt : c.firstFailing.getD 0 < 1024 := by
    cases hff : c.firstFailing with
    | none => decide
    | some n => exact ((circuitInRange_iff n).1 (by simpa [hff] using hfirst)).2
  have hback : (if c.firstFailing.getD 0 = 0 then none else some (c.firstFailing.getD 0)) = c.firstFailing := by
    cases hff : c.firstFailing with
    | none => rfl
    | some n =>
      have := ((circuitInRange_iff n).1 (by simpa [hff] using hfirst)).1
      exact if_neg (by simp only [Option.getD_some]; omega)
  have hfield := field2_circuitField hlt (by decide : 0 < 16)
  have hcirc : circuitOf (field2 (byte ((0 * 4096 + c.firstFailing.getD 0) / 256))
      (byte ((0 * 4096 + c.firstFailing.getD 0) % 256))) = c.firstFailing.getD 0 := by
    rw [hfield, circuitOf_field hlt]
  refine (decodePayload_tally _ _ _ _ _ _ _ _ _).trans ?_
  simp only [hstation, hh, hp, hc, hf, hi, Bool.and_self, if_true, hserial, hh', hp', hc', hf', hi', hcirc, hback]

/-- The circuit field of a PROBE START or PROBE END in range. -/
theorem probeField {c e : Nat} (hc : circuitInRange c = true) (he : epochInRange e = true) :
    circuitOf (field2 (byte ((e * 4096 + c) / 256)) (byte ((e * 4096 + c) % 256))) = c ∧
      epochOf (field2 (byte ((e * 4096 + c) / 256)) (byte ((e * 4096 + c) % 256))) = e ∧ ¬(c = 0 ∨ e = 0) := by
  obtain ⟨hc1, hc⟩ := (circuitInRange_iff c).1 hc
  obtain ⟨he1, he⟩ := (epochInRange_iff e).1 he
  rw [field2_circuitField hc he]
  exact ⟨circuitOf_field hc, epochOf_field hc, by omega⟩

theorem decodePayload_bytes (p : Payload) (h : p.inRange = true) : decodePayload p.kind p.bytes = some p := by
  cases p with
  | join grade batch =>
    obtain ⟨hgrade, hbatch⟩ := advertByte_fields batch (of_decide_eq_true h)
    exact (decodePayload_join _).trans (by rw [hgrade, hbatch])
  | present grade batch =>
    obtain ⟨hgrade, hbatch⟩ := advertByte_fields batch (of_decide_eq_true h)
    exact (decodePayload_present _).trans (by rw [hgrade, hbatch])
  | windowOpen ser scope =>
    obtain ⟨hstation, hserial⟩ := serial_bytes h
    exact (decodePayload_windowOpen _ _ _ _).trans (by rw [if_pos hstation, hserial, portSetOf_bytes2])
  | windowCancel ser =>
    obtain ⟨hstation, hserial⟩ := serial_bytes h
    exact (decodePayload_windowCancel _ _).trans (by rw [if_pos hstation, hserial])
  | windowClose ser =>
    obtain ⟨hstation, hserial⟩ := serial_bytes h
    exact (decodePayload_windowClose _ _).trans (by rw [if_pos hstation, hserial])
  | tally ser c =>
    simp only [Payload.inRange, Bool.and_eq_true, decide_eq_true_eq] at h
    obtain ⟨⟨⟨⟨⟨⟨hser, hheld⟩, hpassed⟩, hchanged⟩, hfailed⟩, hincomplete⟩, hfirst⟩ := h
    exact decodePayload_tally_bytes hser hheld hpassed hchanged hfailed hincomplete hfirst
  | probeStart c e m d =>
    simp only [Payload.inRange, Bool.and_eq_true, decide_eq_true_eq] at h
    obtain ⟨⟨hc, he⟩, hd⟩ := h
    obtain ⟨hcirc, hep, hne⟩ := probeField hc he
    have hm := m.code_lt
    have hbyte : (byte (m.code + 16 * d)).toNat = m.code + 16 * d := toNat_byte_of_lt (by omega)
    have hmode : (m.code + 16 * d) % 4 = m.code := by omega
    have hcode : (m.code + 16 * d) / 16 % 8 = d := by omega
    refine (decodePayload_probeStart _ _ _).trans ?_
    rw [hbyte, hmode, decodeMode_code, Option.bind_some, hcirc, hep, if_neg hne, hcode]
  | sighting items =>
    simp only [Payload.inRange, Bool.and_eq_true, decide_eq_true_eq] at h
    obtain ⟨⟨h1, h8⟩, hall⟩ := h
    have hbyte : (byte items.length).toNat = items.length := toNat_byte_of_lt (by omega)
    refine (decodePayload_sighting _ _).trans ?_
    rw [hbyte, if_pos ⟨h1, h8, length_items_bytes items⟩, decodeItems_bytes items hall]
    rfl
  | probeEnd c e v f =>
    simp only [Payload.inRange, Bool.and_eq_true] at h
    obtain ⟨hc, he⟩ := h
    obtain ⟨hcirc, hep, hne⟩ := probeField hc he
    have hv := v.code_lt
    have hf := f.code_lt
    have hverdict : (byte v.code).toNat = v.code := toNat_byte_of_lt (by omega)
    have hflags : (byte f.code).toNat = f.code := toNat_byte_of_lt (by omega)
    refine (decodePayload_probeEnd _ _ _ _).trans ?_
    rw [hverdict, decodeVerdict_code, Option.bind_some, hcirc, hep, if_neg hne, hflags, decodeFlags_code]
  | stray c hd k p =>
    simp only [Payload.inRange, Bool.and_eq_true, decide_eq_true_eq] at h
    obtain ⟨⟨⟨hc, hhead⟩, hk⟩, hp⟩ := h
    obtain ⟨hc1, hc⟩ := (circuitInRange_iff c).1 hc
    have hcirc := circuitOf_field (e := 0) hc
    have hhd := (stationOk_iff hd).1 hhead
    have hheadbyte : (byte hd).toNat = hd := toNat_byte_of_lt (by omega)
    have hkind : (byte k).toNat = k := toNat_byte_of_lt (by omega)
    refine (decodePayload_stray _ _ _ _ _).trans ?_
    rw [field2_circuitField hc (by decide : 0 < 16), hcirc, hheadbyte, hkind, toNat_byte_of_lt hp,
      if_pos ⟨by omega, hhead, hk⟩]
  | spanAlarm k sp =>
    simp only [Payload.inRange, Bool.and_eq_true, decide_eq_true_eq] at h
    obtain ⟨hst, hp⟩ := h
    have hk := k.code_lt
    have hstation := (stationOk_iff sp.station).1 hst
    have hbyte : (byte sp.station).toNat = sp.station := toNat_byte_of_lt (by omega)
    have hkind : (byte k.code).toNat = k.code := toNat_byte_of_lt (by omega)
    refine (decodePayload_spanAlarm _ _ _).trans ?_
    rw [hkind, decodeAlarmKind_code, Option.bind_some, hbyte, if_pos hst, toNat_byte_of_lt hp]
  | loopReset => rfl

theorem inRange_serial_of {o q : Byte} (h : stationOk o.toNat = true) :
    (⟨o.toNat, q.toNat⟩ : Serial).inRange = true :=
  (inRange_serial_iff _).2 ⟨(stationOk_iff _).1 h, q.isLt⟩

theorem firstFailing_inRange (f : Nat) :
    ((if circuitOf f = 0 then none else some (circuitOf f)) : Option Nat).all circuitInRange = true := by
  split
  · rfl
  · rename_i h
    exact circuitInRange_circuitOf h

theorem inRange_probe_of {hi lo : Byte} (h : ¬(circuitOf (field2 hi lo) = 0 ∨ epochOf (field2 hi lo) = 0)) :
    circuitInRange (circuitOf (field2 hi lo)) = true ∧ epochInRange (epochOf (field2 hi lo)) = true :=
  ⟨circuitInRange_circuitOf (not_or.1 h).1, epochInRange_epochOf (not_or.1 h).2⟩

/-- Bytes that decode do so to a payload of their kind with every field in its range. -/
theorem inRange_of_decodePayload {k : Nat} {bs : List Byte} {p : Payload} (h : decodePayload k bs = some p) :
    p.inRange = true ∧ p.kind = k := by
  have hgrade (a : Byte) : decide (a.toNat % 4 < 4) = true := decide_eq_true (Nat.mod_lt _ (by decide))
  match k, h with
  | 0, h => exact nomatch (show none = some p from h)
  | 1, h =>
    obtain ⟨a, rfl⟩ := bytes_of_decodePayload_join h
    obtain rfl := Option.some.inj ((decodePayload_join a).symm.trans h)
    exact ⟨hgrade a, rfl⟩
  | 2, h =>
    obtain ⟨a, rfl⟩ := bytes_of_decodePayload_present h
    obtain rfl := Option.some.inj ((decodePayload_present a).symm.trans h)
    exact ⟨hgrade a, rfl⟩
  | 3, h =>
    obtain ⟨o, q, hi, lo, rfl⟩ := bytes_of_decodePayload_windowOpen h
    obtain ⟨hst, hp⟩ := Option.ite_none_right_eq_some.1 ((decodePayload_windowOpen o q hi lo).symm.trans h)
    obtain rfl := Option.some.inj hp
    exact ⟨inRange_serial_of hst, rfl⟩
  | 4, h =>
    obtain ⟨o, q, rfl⟩ := bytes_of_decodePayload_windowCancel h
    obtain ⟨hst, hp⟩ := Option.ite_none_right_eq_some.1 ((decodePayload_windowCancel o q).symm.trans h)
    obtain rfl := Option.some.inj hp
    exact ⟨inRange_serial_of hst, rfl⟩
  | 5, h =>
    obtain ⟨o, q, rfl⟩ := bytes_of_decodePayload_windowClose h
    obtain ⟨hst, hp⟩ := Option.ite_none_right_eq_some.1 ((decodePayload_windowClose o q).symm.trans h)
    obtain rfl := Option.some.inj hp
    exact ⟨inRange_serial_of hst, rfl⟩
  | 6, h =>
    obtain ⟨o, q, hd, port, c, f, i, hi, lo, rfl⟩ := bytes_of_decodePayload_tally h
    obtain ⟨hok, hp⟩ := Option.ite_none_right_eq_some.1
      ((decodePayload_tally o q hd port c f i hi lo).symm.trans h)
    obtain rfl := Option.some.inj hp
    simp only [Bool.and_eq_true, countOk, decide_eq_true_eq] at hok
    obtain ⟨⟨⟨⟨⟨hst, hh⟩, hp⟩, hc⟩, hf⟩, hi⟩ := hok
    refine ⟨?_, rfl⟩
    simp only [Payload.inRange, inRange_serial_of hst, hh, hp, hc, hf, hi, firstFailing_inRange, decide_true,
      Bool.and_self]
  | 7, h =>
    obtain ⟨hi, lo, m, rfl⟩ := bytes_of_decodePayload_probeStart h
    obtain ⟨mode, _, hrest⟩ := Option.bind_eq_some_iff.1 ((decodePayload_probeStart hi lo m).symm.trans h)
    obtain ⟨hok, hp⟩ := Option.ite_none_left_eq_some.1 hrest
    obtain rfl := Option.some.inj hp
    obtain ⟨hc, he⟩ := inRange_probe_of hok
    refine ⟨?_, rfl⟩
    simp only [Payload.inRange, hc, he, Bool.and_self, Bool.true_and]
    exact decide_eq_true (Nat.mod_lt _ (by decide))
  | 8, h =>
    obtain ⟨n, l, rfl⟩ := bytes_of_decodePayload_sighting h
    obtain ⟨⟨h1, h8, hlen⟩, hrest⟩ := Option.ite_none_right_eq_some.1
      ((decodePayload_sighting n l).symm.trans h)
    obtain ⟨items, hitems, rfl⟩ := Option.map_eq_some_iff.1 hrest
    obtain ⟨hall, hlen'⟩ := decodeItems_spec _ _ hitems
    have hcount : items.length = n.toNat := by omega
    refine ⟨?_, rfl⟩
    simp only [Payload.inRange, hall, Bool.and_true, hcount, h1, h8, decide_true]
  | 9, h =>
    obtain ⟨hi, lo, v, f, rfl⟩ := bytes_of_decodePayload_probeEnd h
    obtain ⟨verdict, _, hrest⟩ := Option.bind_eq_some_iff.1 ((decodePayload_probeEnd hi lo v f).symm.trans h)
    obtain ⟨hok, hp⟩ := Option.ite_none_left_eq_some.1 hrest
    obtain rfl := Option.some.inj hp
    obtain ⟨hc, he⟩ := inRange_probe_of hok
    refine ⟨?_, rfl⟩
    simp only [Payload.inRange, hc, he, Bool.and_self]
  | 10, h =>
    obtain ⟨hi, lo, hd, k, port, rfl⟩ := bytes_of_decodePayload_stray h
    obtain ⟨⟨hc, hst, hk⟩, hp⟩ := Option.ite_none_right_eq_some.1
      ((decodePayload_stray hi lo hd k port).symm.trans h)
    obtain rfl := Option.some.inj hp
    have hport : port.toNat < 256 := port.isLt
    refine ⟨?_, rfl⟩
    simp only [Payload.inRange, circuitInRange_circuitOf hc, hst, hk, hport, decide_true, Bool.and_self]
  | 11, h =>
    obtain ⟨k, st, port, rfl⟩ := bytes_of_decodePayload_spanAlarm h
    obtain ⟨kind, _, hrest⟩ := Option.bind_eq_some_iff.1 ((decodePayload_spanAlarm k st port).symm.trans h)
    obtain ⟨hst, hp⟩ := Option.ite_none_right_eq_some.1 hrest
    obtain rfl := Option.some.inj hp
    have hport : port.toNat < 256 := port.isLt
    refine ⟨?_, rfl⟩
    simp only [Payload.inRange, hst, hport, decide_true, Bool.and_self]
  | 12, h =>
    obtain rfl := bytes_of_decodePayload_loopReset h
    obtain rfl := Option.some.inj (show some Payload.loopReset = some p from h)
    exact ⟨rfl, rfl⟩
  | k + 13, h => exact nomatch (show none = some p from h)

/-! ### Bits that no layout assigns (R197) -/

theorem advert_mask : ∀ a : Byte, a.toNat % 4 = (a &&& 0x83).toNat % 4 ∧
    decide (128 ≤ a.toNat) = decide (128 ≤ (a &&& 0x83).toNat) := by decide

theorem circuit_mask : ∀ a : Byte, a.toNat % 4 = (a &&& 0x03).toNat % 4 := by decide

theorem epoch_mask : ∀ a : Byte, a.toNat % 4 = (a &&& 0xF3).toNat % 4 ∧ a.toNat / 16 = (a &&& 0xF3).toNat / 16 := by
  decide

theorem mode_mask : ∀ a : Byte, a.toNat % 4 = (a &&& 0x73).toNat % 4 ∧
    a.toNat / 16 % 8 = (a &&& 0x73).toNat / 16 % 8 := by decide

theorem class_mask : ∀ a : Byte, a.toNat / 16 % 8 = (a &&& 0x7F).toNat / 16 % 8 ∧
    a.toNat % 16 = (a &&& 0x7F).toNat % 16 := by decide

theorem flags_mask : ∀ a : Byte, decodeFlags a.toNat = decodeFlags (a &&& 0x0F).toNat := by decide

/-- The circuit of a field does not read the bits above the circuit number (log 11). -/
theorem circuitOf_field2_congr {a a' b : Byte} (h : a.toNat % 4 = a'.toNat % 4) :
    circuitOf (field2 a b) = circuitOf (field2 a' b) := by
  unfold circuitOf field2
  omega

theorem epochOf_field2 (a b : Byte) : epochOf (field2 a b) = a.toNat / 16 := by
  have hb : b.toNat < 256 := b.isLt
  unfold epochOf field2
  omega

theorem field2_mask (a b : Byte) : circuitOf (field2 a b) = circuitOf (field2 (a &&& 0xF3) b) ∧
    epochOf (field2 a b) = epochOf (field2 (a &&& 0xF3) b) := by
  obtain ⟨hcirc, hep⟩ := epoch_mask a
  exact ⟨circuitOf_field2_congr hcirc, by rw [epochOf_field2, epochOf_field2, hep]⟩

/-- A TALLY has nine bytes. -/
theorem decodePayload_tally_of_length {bs : List Byte} (h : bs.length ≠ 9) : decodePayload 6 bs = none := by
  rw [Option.eq_none_iff_forall_ne_some]
  intro p hp
  obtain ⟨o, q, hd, port, c, f, i, hi, lo, rfl⟩ := bytes_of_decodePayload_tally hp
  exact h rfl

theorem decodePayload_tally_mask (l : List Byte) (a b : Byte) :
    decodePayload 6 (l ++ [a, b]) = decodePayload 6 (l ++ [a &&& 0x03, b]) := by
  by_cases hl : l.length = 7
  · match l, hl with
    | [o, q, h, p, c, f, i], _ =>
      refine (decodePayload_tally o q h p c f i a b).trans ?_
      rw [circuitOf_field2_congr (circuit_mask a)]
      exact (decodePayload_tally o q h p c f i (a &&& 0x03) b).symm
  · have hlen (x : Byte) : (l ++ [x, b]).length ≠ 9 := by
      rw [List.length_append]
      exact fun h => hl (Nat.add_right_cancel (m := 2) h)
    rw [decodePayload_tally_of_length (hlen a), decodePayload_tally_of_length (hlen _)]

theorem decodeItem_mask (a b c d e f x : Byte) :
    decodeItem a b c d e f x = decodeItem (a &&& 0xF3) b c (d &&& 0x7F) (e &&& 0x73) f x := by
  obtain ⟨hcirc, hep⟩ := field2_mask a b
  obtain ⟨hclass, hport⟩ := class_mask d
  obtain ⟨hkind, hlevel⟩ := mode_mask e
  unfold decodeItem
  dsimp only
  rw [hcirc, hep, hclass, hport, hkind, hlevel]

/-- Settles O15: layout by layout, from the bytes of the fields and from the fields of the bytes. -/
theorem payloadBytesDecodeToTheirPayload : Obligations.PayloadBytesDecodeToTheirPayload := by
  refine ⟨decodePayload_bytes, fun a b c d e f x l => ⟨?_, ?_, decodePayload_tally_mask l a b, ?_, ?_, ?_, ?_⟩,
    decodePayload_sighting, fun k bs p h => inRange_of_decodePayload h⟩
  · rw [decodePayload_join, decodePayload_join, (advert_mask a).1, (advert_mask a).2]
  · rw [decodePayload_present, decodePayload_present, (advert_mask a).1, (advert_mask a).2]
  · rw [decodePayload_probeStart, decodePayload_probeStart, (field2_mask a b).1, (field2_mask a b).2,
      (mode_mask c).1, (mode_mask c).2]
  · rw [decodePayload_probeEnd, decodePayload_probeEnd, (field2_mask a b).1, (field2_mask a b).2, flags_mask d]
  · rw [decodePayload_stray, decodePayload_stray, circuitOf_field2_congr (circuit_mask a)]
  · rw [decodeItems, decodeItems, ← decodeItem_mask]

/-! ### Copies (R137, R196) -/

theorem acceptOf_acceptByte (x : BitVec 48) : acceptOf ((List.range 6).map (acceptByte x)) = x := by
  apply BitVec.eq_of_toNat_eq
  have hx : x.toNat < 2 ^ 48 := x.isLt
  simp only [acceptOf, acceptByte, List.range, List.range.loop, List.map_cons, List.map_nil, List.foldr_cons,
    List.foldr_nil, BitVec.toNat_ofNat]
  norm_num
  omega

theorem length_body (c : Copy) : c.body.length = 11 + c.payload.length := by
  simp [Copy.body]
  omega

theorem bytes_eq (c : Copy) : c.bytes =
    c.kind :: c.originator :: c.number :: c.hops :: byte c.payload.length ::
      ((List.range 6).map (acceptByte c.accept) ++ (c.payload ++ bytes2 (crc16 c.body).toNat)) := by
  simp [Copy.bytes, Copy.body]

theorem parseCopy_bytes (c : Copy) (h : c.payload.length < 256) : parseCopy c.bytes = some c := by
  have hlen : (c.bytes.getD 4 0).toNat = c.payload.length := by
    rw [bytes_eq]
    exact toNat_byte_of_lt h
  have htake : c.bytes.take (11 + c.payload.length) = c.body := by
    rw [← length_body, Copy.bytes, List.take_left]
  have hcrc : BitVec.ofNat 16 (field2 (c.bytes.getD (11 + c.payload.length) 0)
      (c.bytes.getD (12 + c.payload.length) 0)) = crc16 c.body := by
    have hhi : c.bytes.getD (11 + c.payload.length) 0 = byte ((crc16 c.body).toNat / 256) := by
      rw [← length_body, Copy.bytes, List.getD_append_right _ _ _ _ le_rfl, Nat.sub_self]
      rfl
    have hlo : c.bytes.getD (12 + c.payload.length) 0 = byte ((crc16 c.body).toNat % 256) := by
      rw [show 12 + c.payload.length = c.body.length + 1 by rw [length_body]; omega, Copy.bytes,
        List.getD_append_right _ _ _ _ (Nat.le_add_right _ 1), Nat.add_sub_cancel_left]
      rfl
    rw [hhi, hlo, field2_bytes2 (crc16 c.body).isLt, BitVec.ofNat_toNat, BitVec.setWidth_eq]
  have htotal : c.bytes.length = 13 + c.payload.length := by
    rw [Copy.bytes, List.length_append, length_body]
    simp only [bytes2, List.length_cons, List.length_nil]
    omega
  have haccept : (c.bytes.drop 5).take 6 = (List.range 6).map (acceptByte c.accept) := by
    rw [bytes_eq]
    rfl
  have hpayload : (c.bytes.drop 11).take c.payload.length = c.payload := by
    rw [bytes_eq]
    exact List.take_left
  unfold parseCopy
  dsimp only
  rw [hlen, if_pos ⟨htotal, by rw [htake, hcrc]⟩, haccept, acceptOf_acceptByte, hpayload]
  rw [bytes_eq]
  rfl

/-- The two mark bits at a position. -/
theorem markOf_eq_extract (a : BitVec 48) (n : Nat) : markOf a n = (a.extractLsb' (2 * (n - 1)) 2).toNat := by
  rw [BitVec.extractLsb'_toNat, Nat.shiftRight_eq_div_pow, markOf, Nat.pow_mul]

/-- A bit of the accept field after a mark is written: at the position the mark's, elsewhere as before. -/
theorem getLsbD_writeMark (a : BitVec 48) {n m b : Nat} (hb : b < 48) :
    (writeMark a n m).getLsbD b =
      if 2 * (n - 1) ≤ b ∧ b < 2 * (n - 1) + 2 then m.testBit (b - 2 * (n - 1)) else
        (a.getLsbD b || (decide (2 * (n - 1) ≤ b) && m.testBit (b - 2 * (n - 1)))) := by
  have hthree (i : Nat) (hi : ¬ i < 2) : Nat.testBit 3 i = false :=
    Nat.testBit_lt_two_pow (Nat.lt_of_lt_of_le (by decide : 3 < 2 ^ 2) (Nat.pow_le_pow_right (by decide) (by omega)))
  have hlow : ∀ i < 2, Nat.testBit 3 i = true := by decide
  simp only [writeMark, BitVec.getLsbD_or, BitVec.getLsbD_and, BitVec.getLsbD_not, BitVec.getLsbD_shiftLeft,
    BitVec.getLsbD_ofNat, hb, decide_true, Bool.true_and]
  by_cases hge : 2 * (n - 1) ≤ b
  · have hlt : b - 2 * (n - 1) < 48 := by omega
    by_cases htop : b < 2 * (n - 1) + 2
    · rw [if_pos ⟨hge, htop⟩]
      simp [Nat.not_lt.2 hge, hlt, hlow (b - 2 * (n - 1)) (by omega)]
    · rw [if_neg (fun h => htop h.2)]
      simp [Nat.not_lt.2 hge, hlt, hthree (b - 2 * (n - 1)) (by omega), hge]
  · rw [if_neg (fun h => hge h.1)]
    simp [Nat.lt_of_not_le hge, hge]

theorem markOf_writeMark (a : BitVec 48) {n k m : Nat} (hn : stationOk n = true) (hk : stationOk k = true)
    (hm : m < 4) : markOf (writeMark a n m) k = if k = n then m else markOf a k := by
  rw [stationOk_iff] at hn hk
  have hbits (x : BitVec 48) (i : Nat) (hi : i < 2) :
      (x.extractLsb' (2 * (k - 1)) 2).getLsbD i = x.getLsbD (2 * (k - 1) + i) := by
    rw [BitVec.getLsbD_extractLsb', decide_eq_true hi, Bool.true_and]
  have hhigh (i : Nat) (hi : 2 ≤ i) : m.testBit i = false :=
    Nat.testBit_lt_two_pow (Nat.lt_of_lt_of_le (by omega : m < 2 ^ 2) (Nat.pow_le_pow_right (by decide) hi))
  rw [markOf_eq_extract, markOf_eq_extract]
  split
  case isTrue hkn =>
    subst hkn
    have hself : (writeMark a k m).extractLsb' (2 * (k - 1)) 2 = BitVec.ofNat 2 m := by
      refine BitVec.eq_of_getLsbD_eq fun i hi => ?_
      rw [hbits _ i hi, getLsbD_writeMark a (by omega), if_pos (by omega), Nat.add_sub_cancel_left,
        BitVec.getLsbD_ofNat, decide_eq_true hi, Bool.true_and]
    rw [hself, BitVec.toNat_ofNat, Nat.mod_eq_of_lt (by omega)]
  case isFalse hkn =>
    refine congrArg BitVec.toNat (BitVec.eq_of_getLsbD_eq fun i hi => ?_)
    rw [hbits _ i hi, hbits _ i hi, getLsbD_writeMark a (by omega), if_neg (by omega)]
    by_cases hge : 2 * (n - 1) ≤ 2 * (k - 1) + i
    · rw [hhigh _ (by omega), Bool.and_false, Bool.or_false]
    · rw [decide_eq_false hge, Bool.false_and, Bool.or_false]

/-- Settles O16: the parts of a copy stand where the parse looks for them, and a mark moves its two bits alone. -/
theorem copyBytesParseToTheirCopy : Obligations.CopyBytesParseToTheirCopy :=
  ⟨parseCopy_bytes, fun a _ _ _ hn hk hm => markOf_writeMark a hn hk hm⟩

/-- The check of the text 123456789, byte after byte. -/
theorem crc16_text : crc16 [0x31, 0x32, 0x33, 0x34, 0x35, 0x36, 0x37, 0x38, 0x39] = 0x29B1#16 := by
  simp only [crc16, List.foldl_cons, List.foldl_nil]
  rw [show crcByte 65535#16 49 = 51074#16 by decide,
    show crcByte 51074#16 50 = 15802#16 by decide,
    show crcByte 15802#16 51 = 23502#16 by decide,
    show crcByte 23502#16 52 = 21321#16 by decide,
    show crcByte 21321#16 53 = 17760#16 by decide,
    show crcByte 17760#16 54 = 12020#16 by decide,
    show crcByte 12020#16 55 = 30488#16 by decide,
    show crcByte 30488#16 56 = 41259#16 by decide,
    show crcByte 41259#16 57 = 10673#16 by decide]

/-- Settles O17: the words are evaluated. -/
theorem writtenOutWordsReadAsTheFormatsSay : Obligations.WrittenOutWordsReadAsTheFormatsSay := by
  refine ⟨crc16_text, rfl, rfl, ?_, ?_, rfl, rfl, by decide, by decide⟩
  · rw [decodePayload_probeStart]
    decide
  · rw [decodePayload_probeStart]
    decide

end Machine
end Sys2Proof
end

