-- ==== Sys2Proof/Proofs/Acts.lean ====
section
/-! What a step can do, said once: the atomic changes that the rows are made of, with the guard under which a row makes
each. Every row takes a frame, makes such changes one after the other, and gives at most one answer; an invariant is
then a statement about each change. -/

namespace Sys2Proof.Machine

/-! ### The atomic changes -/

/-- What is known where a row begins, and how finely two long changes are told. `live`: a received notice is dispatched, which is so in RUNNING alone.
`apart`: the outstanding notices carry different numbers. `stations`: the received notices name stations 1 to 24.
`loads`, `pins`: the row loads or restarts the station, or moves a pin.
`verdicts`, `resets`: evaluations, and the Loop Port's part of the own LOOP RESET, are told piece by piece. -/
structure Grain where
  live     : Prop
  apart    : Prop
  stations : Prop
  loads    : Prop
  pins     : Prop
  verdicts : Bool
  resets   : Bool

/-- What of a probe no flag changes. -/
def Probe.core (p : Probe) : Phase × Nat × Nat × Owner × Option Nat × List PoolRecord :=
  (p.phase, p.circuit, p.epoch, p.owner, p.deadline, p.pool)

/-- What of a path record is set at the load and stays. -/
def PathRecord.core (r : PathRecord) : Nat × Nat × Nat := (r.circuit, r.line, r.addPort)

/-- The state at the end of a load, before the first dwell and the loss inputs (R188 to R194). -/
def loadTaken (bytes : List Byte) (s : State) : State :=
  let r := checkImage (readImage bytes)
  let s1 := loadFlags r.2 ((s.setImage r.1).setFinding r.2)
  if r.2.outcome = .running then
    startServices (autoCensus (markLines (loadTables (s1.setRunState .running))))
  else enterPassive s1

/-- The station JOINED, its entry PRESENT, the grade and the batching recomputed (R162). -/
def joinedRoster (s : State) : State :=
  recompute (modifyRoster s.own
    (fun e => { e with present := true, advert := some (ownAdvert s.image), missRun := 0 })
    (s.setRoster { s.roster with joined := true }))

/-- The last change of the Loop Port at the own LOOP RESET (R155). -/
def queueReset (s : State) : State :=
  s.setLoop { s.loop with
    receive := s.loop.receive.filter fun r => !(r.payload.cleared || r.payload.kind == 12)
    newNotices := [⟨.loopReset, .own⟩]
    fairness := 0
    quarantine := true }

/-- One atomic change of a row. -/
inductive Act (g : Grain) : State → State → Prop
  -- Power-on, the load and the clock.
  | boot {s : State} (c : Option Instr) (hboot : ¬ g.live) (hloads : g.loads) :
      Act g s ((powerOn s).setCtl { ctlReset with command := c })
  | load {s : State} (bytes : List Byte) (hstart : s.runState = .starting) (hloads : g.loads) :
      Act g s (loadTaken bytes s)
  | clock {s : State} (t : Nat) (hle : s.now ≤ t) : Act g s (s.setNow t)
  | pins {s : State} (x : PortSet) (hpins : g.pins) : Act g s (s.setLossInputs x)
  -- The Control Port.
  | flags {s : State} (x : ControlPort)
      (hsame : (x.queue, x.reportNumber, x.response, x.reportHeld) =
        (s.ctl.queue, s.ctl.reportNumber, s.ctl.response, s.ctl.reportHeld)) : Act g s (s.setCtl x)
  | post {s : State} (r : Report) : Act g s (postReport r s)
  | readTransaction {s : State} (n : Nat) : Act g s (s.setCtl
      (if s.ctl.reportHeld && readsWhole s n then
        { s.ctl with portOut := readBytes s n, queue := s.ctl.queue.tail, reportHeld := false }
      else { s.ctl with portOut := readBytes s n }))
  | answerDwell {s : State} (d : Dwell) (r : DwellResult) (hdwell : s.scanner.dwell = some d) :
      Act g s (answerDwell d r s)
  -- The Tag Scanner.
  | scan {s : State} (x : TagScanner)
      (hsame : (x.request, x.dwell) = (s.scanner.request, s.scanner.dwell))
      (hwatch : (x.watch.map (·.circuit)).Sublist (s.scanner.watch.map (·.circuit)))
      (hbacklog : x.backlog.length ≤ max s.scanner.backlog.length Config.backlogCapacity)
      (hstrays : x.strays.length ≤ max s.scanner.strays.length Config.strayCapacity)
      (hmonitors : x.monitors.length = s.scanner.monitors.length) : Act g s (s.setScanner x)
  | reportPort {s : State} (w : WatchEntry) (p : Nat) (hw : w ∈ s.scanner.watch) : Act g s (reportPort w p s)
  | beginDwell {s : State} : Act g s (beginDwell s)
  | watchStart {s : State} (a : Received) (rest : List Received) (c e : Nat) (m : Mode) (d : Nat)
      (hreceive : s.loop.receive = a :: rest) (hpayload : a.payload = .probeStart c e m d) :
      Act g s (writeWatch (watchOf c e a.originator m d a.receivedAt) (popOldest s))
  -- The Circuit Table.
  | hopChange {s : State} (c : Nat) (f : HopEntry → HopEntry)
      (hf : ∀ e, ((f e).circuit, (f e).role) = (e.circuit, e.role)) : Act g s (modifyHop c f s)
  | learnHop {s : State} (w : WatchEntry) (hlive : g.live) : Act g s (learnHop w s)
  -- The Window Unit.
  | windows {s : State} (x : WindowUnit)
      (hlist : (x.list.map (·.serial)).Sublist (s.windows.list.map (·.serial)))
      (hseq : x.seq = s.windows.seq)
      (hrequests : ∀ q ∈ x.requests, q.payload.kind ≠ 1 ∨ ∃ r ∈ s.windows.requests, r.payload = q.payload) :
      Act g s (s.setWindows x)
  | windowOpened {s : State} (ser : Serial) (scope : PortSet) (hnew : findWindow s ser = none)
      (hroom : windowsFull s = false) :
      Act g s (s.setWindows { s.windows with
        seq := (ser.seq + 1) % 256, list := s.windows.list ++ [newWindow ser scope] })
  | windowReceived {s : State} (a : Received) (rest : List Received) (ser : Serial) (scope : PortSet)
      (hreceive : s.loop.receive = a :: rest) (hpayload : a.payload = .windowOpen ser scope)
      (hnew : findWindow s ser = none) :
      Act g s ((popOldest s).setWindows { s.windows with list := s.windows.list ++ [newWindow ser scope] })
  -- The Loop Port.
  | popOldest {s : State} : Act g s (popOldest s)
  | enqueueReceived {s : State} (x m : Nat) (p : Payload) (hrun : s.runState = .running)
      (hcapacity : refusesCapacity s p = false) (hroom : s.loop.receive.length < Config.noticeCapacity)
      (hstations : (⟨x, m, p, s.now⟩ : Received).stationsOk = true) : Act g s (enqueueReceived x m p s)
  | sending {s : State} (x : OnLink) : Act g s (s.setLoop { s.loop with sending := x })
  | reception {s : State} (hstart : s.runState ≠ .starting) :
      Act g s (changeLoop (fun l => { l with up := true, silence := some (s.now + Config.silenceMs) }) s)
  | forwardCopy {s : State} (c : Copy) (hstart : s.runState ≠ .starting)
      (hroom : s.loop.forward.length < Config.noticeCapacity) : Act g s (forwardCopy c s)
  | down {s : State} : Act g s (changeLoop (fun l => { l with up := false, silence := none }) s)
  | quarantine {s : State} (b : Bool) : Act g s (s.setLoop { s.loop with quarantine := b })
  | transmit {s : State} (hrun : s.runState = .running) : Act g s (changeLoop (chooseNext s.own s.now) s)
  | transmitPassive {s : State} : Act g s (s.setLoop (choosePassive s.loop))
  | grant {s : State} (c : Claim) (hfree : placeFree s = true) (hclaim : nextClaim s = some c) :
      Act g s (grant c s)
  | returning {s : State} (n : Nat) (m : BestMarks) : Act g s (modifyEntry n (·.returning m) s)
  | linger {s : State} (n : Nat) : Act g s (linger n s)
  | leave {s : State} (n : Nat) : Act g s (leaveOutstanding n s)
  | waitRetry {s : State} (o : Outstanding) (hmem : o ∈ s.loop.outstanding) (hflight : o.standing = .inFlight) :
      Act g s (waitRetry o.number s)
  | withdraw {s : State} (keep : Request → Bool) :
      Act g s (changeLoop (fun l => { l with newNotices := l.newNotices.filter keep }) s)
  | probeRequests {s : State} (x : List Request) : Act g s (s.setProbes { s.probes with requests := x })
  | clearQueues {s : State} (hpieces : g.resets = true) :
      Act g s (s.setLoop { s.loop with newNotices := [], retries := [] })
  | queueReset {s : State} (hpieces : g.resets = true) (hrun : s.runState = .running) : Act g s (queueReset s)
  | resetLoopOwn {s : State} (hwhole : g.resets = false) (hrun : s.runState = .running) :
      Act g s (resetLoopOwn s)
  -- The Roster Unit.
  | entry {s : State} (n : Nat) (f : RosterEntry → RosterEntry)
      (hf : ∀ e, ((f e).present, (f e).advert) = (e.present, e.advert))
      (hok : (rosterAt s n).ok → (f (rosterAt s n)).ok) : Act g s (modifyRoster n f s)
  | presence {s : State} (n : Nat) (f : RosterEntry → RosterEntry)
      (hok : (rosterAt s n).ok → (f (rosterAt s n)).ok) : Act g s (recompute (modifyRoster n f s))
  | presentRequest {s : State} (b : Bool) : Act g s (s.setRoster { s.roster with presentRequest := b })
  | dropJoinRequest {s : State} : Act g s (s.setRoster { s.roster with joinRequest := false })
  | joined {s : State} (n : Nat)
      (hopen : g.apart → ∃ o ∈ s.loop.outstanding,
        o.number = n ∧ o.standing ≠ .lingering ∧ o.request.payload.kind = 1) :
      Act g s (joinedRoster (linger n s))
  -- The Probe Unit.
  | slotFlags {s : State} (x : List (Option Probe))
      (hcore : x.map (Option.map Probe.core) = s.probes.slots.map (Option.map Probe.core)) :
      Act g s (setSlots x s)
  | pool {s : State} (i : Nat) (p : Probe) (x : PoolRecord) (hp : probeAt s i = some p)
      (hphase : p.phase = .driving)
      (hnew : (p.pool.any fun r => r.station == x.station && r.port == x.port) = false)
      (hfree : freeRecords s ≠ 0) (hstation : g.stations → stationOk x.station = true ∨ x.station = s.own) :
      Act g s (modifySlot i (fun p => { p with pool := p.pool ++ [x] }) s)
  | enterDriving {s : State} (i : Nat) (p : Probe) (b : BestMarks) (failed : Bool) (hp : probeAt s i = some p)
      (hphase : p.phase = .claiming) : Act g s (enterDriving i b failed s)
  | freeSlot {s : State} (i : Nat) (p : Probe) (hp : probeAt s i = some p) (hphase : p.phase = .closing) :
      Act g s (putSlot i none s)
  -- Evaluations, as a whole or in pieces.
  | evaluate {s : State} (i : Nat) (p : Probe) (hwhole : g.verdicts = false) (hp : probeAt s i = some p)
      (hphase : p.phase ≠ .closing) : Act g s (evaluate i s)
  | evaluateWithdrawn {s : State} (i : Nat) (p : Probe) (hwhole : g.verdicts = false)
      (hp : probeAt s i = some p) (hphase : p.phase = .claiming) : Act g s (evaluateWithdrawn i s)
  | verdictPaths {s : State} (x : List PathRecord) (hpieces : g.verdicts = true)
      (hcore : x.map PathRecord.core = s.paths.map PathRecord.core) : Act g s (s.setPaths x)
  | lists {s : State} (m : Mode) (c : Nat) (hpieces : g.verdicts = true) : Act g s (joinList m c s)
  | creditRun {s : State} (id c : Nat) (x : RunStanding) (hpieces : g.verdicts = true) :
      Act g s (touchRun id c x s)
  | closeSlot {s : State} (i : Nat) (hpieces : g.verdicts = true) : Act g s (closeSlot i s)
  | idleMarking {s : State} (c : Nat) (hpieces : g.verdicts = true) : Act g s (idleMarking c s)
  | emptySlot {s : State} (i : Nat) (hpieces : g.verdicts = true) : Act g s (putSlot i none s)
  -- Audits, holds and sweep runs.
  | requestAudit {s : State} (c : Nat) (m : Mode) (o : Origin) (hm : m ≠ .sweep) :
      Act g s (requestAudit c m o s)
  | addHold {s : State} (ser : Serial) (c : Nat)
      (hbased : ∃ r ∈ s.paths, r.circuit = c ∧ r.baseline.isSome = true) : Act g s (addHold ser c s)
  | removeHold {s : State} (ser : Serial) (c : Nat) : Act g s (removeHold ser c s)
  | dropOwed {s : State} (ser : Serial) : Act g s (dropOwed ser s)
  | applyAlarm {s : State} (sp : Span) (cause : Cause) (hlive : g.live ∨ s.runState = .running) :
      Act g s (applyAlarm sp cause s)
  | baseLaunch {s : State} (i : Nat) (m : Mode) (c : Nat) (hchoice : baseLaunchChoice s = some (i, m, c)) :
      Act g s (claimSlot i c m .base (leaveList m c s))
  | sweepLaunch {s : State} (i id c : Nat) (hchoice : sweepLaunchChoice s = some (i, id, c)) :
      Act g s (modifyRun id (·.setStanding c .launched) (claimSlot i c .sweep (.run id) s))
  | setAdmission {s : State} (x : Bool) : Act g s (setAdmission x s)
  | resetWork {s : State} : Act g s (resetPaths (clearSlots (resetScheduler s)))

/-- The grain of a row, with the long changes in pieces or as a whole. -/
def rowGrain (c : Instr) (s : State) (verdicts resets : Bool) : Grain where
  live := s.loop.receive ≠ [] ∧ loads c = false
  apart := (s.loop.outstanding.map (·.number)).Nodup
  stations := ∀ a ∈ s.loop.receive, a.stationsOk = true
  loads := loads c = true
  pins := movesPin c = true
  verdicts := verdicts
  resets := resets

/-- The one answer a row may end with. -/
inductive Answered : State → State → Prop
  | silent (s : State) : Answered s s
  | respond (s : State) (r : Response) : Answered s (s.setCtl { s.ctl with response := some r })
  | readReport (s : State) : Answered s (answer .readReport (serveReadReport s))
  | request (s : State) (port : Nat) (hrun : s.runState = .running) :
      Answered s (changeScanner (fun x => { x with request := some port }) s)

/-- Changes made one after the other. -/
abbrev Reach (g : Grain) : State → State → Prop := Relation.ReflTransGen (Act g)

end Sys2Proof.Machine
end

