-- ==== Sys2Proof/Proofs/BlockActs.lean ====
section
/-! The operations of the Window Unit, the Probe Unit, the Roster Unit and the Tag Scanner as atomic changes made one
after the other. -/

namespace Sys2Proof.Machine

variable {g : Grain} {s t u : State}

/-! ### Changes in a row -/

theorem Act.reach (h : Act g s t) : Reach g s t := .single h

/-- A fold makes its changes when each of its steps does, under a property that the steps keep. -/
theorem Reach.foldl_of {α : Type} (f : State → α → State) (l : List α) (I : State → Prop) (hs : I s)
    (hkeep : ∀ t, ∀ x ∈ l, I t → I (f t x)) (hstep : ∀ t, ∀ x ∈ l, I t → Reach g t (f t x)) :
    Reach g s (l.foldl f s) := by
  induction l generalizing s with
  | nil => exact .refl
  | cons a l ih =>
    have hfirst := hstep s a List.mem_cons_self hs
    exact hfirst.trans (ih (hkeep s a List.mem_cons_self hs)
      (fun t x hx => hkeep t x (List.mem_cons_of_mem _ hx))
      (fun t x hx => hstep t x (List.mem_cons_of_mem _ hx)))

theorem Reach.foldl {α : Type} (f : State → α → State) (l : List α)
    (hstep : ∀ t, ∀ x ∈ l, Reach g t (f t x)) : Reach g s (l.foldl f s) :=
  Reach.foldl_of f l (fun _ => True) trivial (fun _ _ _ _ => trivial) (fun t x hx _ => hstep t x hx)

/-! ### Flags and reports -/

theorem raiseAlert_act (a : Alert) (s : State) : Act g s (raiseAlert a s) := .flags _ rfl

theorem setFault_reach (f : FaultFlag) (s : State) : Reach g s (setFault f s) :=
  (Act.flags { s.ctl with faults := s.ctl.faults ||| BitVec.twoPow 6 f.bit } rfl).reach.tail (raiseAlert_act .fault _)

theorem advanceTo_act (t : Nat) (s : State) : Act g s (advanceTo t s) := .clock _ (le_max_left _ _)

/-! ### The Window Unit -/

theorem map_serial_ite (ser : Serial) {f : Window → Window} (hf : ∀ w, (f w).serial = w.serial) (l : List Window) :
    (l.map fun w => if w.serial = ser then f w else w).map (·.serial) = l.map (·.serial) := by
  rw [List.map_map]
  refine List.map_congr_left fun w _ => ?_
  rw [Function.comp_apply]
  split
  · exact hf w
  · rfl

theorem modifyWindow_act (ser : Serial) {f : Window → Window} (s : State)
    (hf : ∀ w, (f w).serial = w.serial := by intro; rfl) : Act g s (modifyWindow ser f s) :=
  .windows { s.windows with list := s.windows.list.map fun w => if w.serial = ser then f w else w }
    (by rw [map_serial_ite ser hf]) rfl fun _ hq => .inr ⟨_, hq, rfl⟩

theorem dropWindow_act (ser : Serial) (s : State) : Act g s (dropWindow ser s) :=
  .windows { s.windows with list := s.windows.list.filter (·.serial != ser) }
    (List.filter_sublist.map _) rfl fun _ hq => .inr ⟨_, hq, rfl⟩

theorem requestWindow_act (r : Request) (s : State)
    (hr : r.payload.kind ≠ 1 := by exact Nat.ne_of_beq_eq_false rfl) : Act g s (requestWindow r s) := by
  refine .windows _ (.refl _) rfl fun q hq => ?_
  dsimp only at hq
  split at hq
  · obtain ⟨x, hx, rfl⟩ := List.mem_map.1 hq
    refine .inr ⟨x, hx, ?_⟩
    split <;> rfl
  · rcases List.mem_append.1 hq with hold | hnew
    · exact .inr ⟨q, hold, rfl⟩
    · rw [List.mem_singleton] at hnew
      exact .inl (hnew ▸ hr)

theorem dropWindowRequests_act (ser : Serial) (s : State) : Act g s (dropWindowRequests ser s) :=
  .windows _ (.refl _) rfl fun _ hq => .inr ⟨_, List.mem_of_mem_filter hq, rfl⟩

theorem resetWindows_act (s : State) : Act g s (resetWindows s) :=
  .windows _ (List.nil_sublist _) rfl fun _ hq => absurd hq List.not_mem_nil

theorem releaseHolds_reach (ser : Serial) (s : State) : Reach g s (releaseHolds ser s) :=
  Reach.foldl _ _ fun _ c _ => (Act.removeHold ser c).reach

theorem cancelWindowEntry_reach (ser : Serial) (s : State) : Reach g s (cancelWindowEntry ser s) :=
  (((releaseHolds_reach ser s).tail (.dropOwed ser)).tail (dropWindowRequests_act ser _)).tail (dropWindow_act ser _)

theorem summaryTest_reach (ser : Serial) (s : State) : Reach g s (summaryTest ser s) := by
  unfold summaryTest
  split
  · exact .refl
  · split
    · exact (Act.post _).reach.tail (dropWindow_act ser _)
    · exact .refl

theorem serial_setTable (w : Window) (n : Nat) (x : TallyEntry) : (w.setTable n x).serial = w.serial := by
  unfold Window.setTable
  split <;> rfl

theorem recordTally_reach (ser : Serial) (y : Nat) (c : Tally) (s : State) :
    Reach g s (recordTally ser y c s) := by
  unfold recordTally
  split
  · exact .refl
  · split
    · exact (modifyWindow_act ser s fun w => serial_setTable w _ _).reach.trans (summaryTest_reach ser _)
    · exact .refl

theorem missingInTable_reach (x : Nat) (s : State) (ser : Serial) : Reach g s (missingInTable x s ser) := by
  unfold missingInTable
  split
  · exact .refl
  · split
    · exact (modifyWindow_act ser s fun w => serial_setTable w _ _).reach.trans (summaryTest_reach ser _)
    · exact .refl

theorem missingInTables_reach (x : Nat) (s : State) : Reach g s (missingInTables x s) :=
  Reach.foldl _ _ fun t ser _ => missingInTable_reach x t ser

theorem requestTally_reach (ser : Serial) (s : State) : Reach g s (requestTally ser s) := by
  unfold requestTally
  split
  · exact .refl
  · exact (modifyWindow_act ser s).reach.tail (requestWindow_act _ _)

theorem tallyTest_reach (ser : Serial) (s : State) : Reach g s (tallyTest ser s) := by
  unfold tallyTest
  repeat' split
  all_goals first | exact .refl | exact recordTally_reach _ _ _ _ | exact requestTally_reach _ _

theorem creditWindow_reach (c : Nat) (v : Verdict) (s : State) (ser : Serial) :
    Reach g s (creditWindow c v s ser) :=
  (modifyWindow_act ser s).reach.trans (tallyTest_reach ser _)

theorem closeOwn_reach (ser : Serial) (s : State) : Reach g s (closeOwn ser s) :=
  ((((modifyWindow_act ser s).reach.tail (requestWindow_act _ _)).tail
    (modifyWindow_act ser _)).trans (releaseHolds_reach ser _)).trans (tallyTest_reach ser _)

theorem leaveSettling_reach (ser : Serial) (s : State) : Reach g s (leaveSettling ser s) := by
  unfold leaveSettling
  split
  · exact .refl
  · split
    · exact closeOwn_reach ser s
    · exact .refl

theorem closeListed_reach (ser : Serial) (s : State) : Reach g s (closeListed ser s) :=
  ((modifyWindow_act ser s).reach.trans (releaseHolds_reach ser _)).trans (tallyTest_reach ser _)

theorem openOutcome_reach (ser : Serial) (b : BestMarks) (s : State) : Reach g s (openOutcome ser b s) := by
  unfold openOutcome
  split
  · exact .refl
  · have hreceived : Reach g s _ := (modifyWindow_act ser (f := fun w => { w with openReceived := true }) s).reach
    dsimp only
    split
    · exact (hreceived.tail (.post _)).trans (leaveSettling_reach ser _)
    · exact ((hreceived.trans (cancelWindowEntry_reach ser _)).tail (requestWindow_act _ _)).tail (.post _)

theorem closeOutcome_reach (ser : Serial) (b : BestMarks) (s : State) : Reach g s (closeOutcome ser b s) := by
  unfold closeOutcome
  split
  · exact .refl
  · split
    · exact (modifyWindow_act ser s).reach.trans (summaryTest_reach ser _)
    · exact .refl

theorem tallyOutcome_reach (ser : Serial) (b : BestMarks) (s : State) : Reach g s (tallyOutcome ser b s) := by
  unfold tallyOutcome
  split
  · exact .refl
  · split
    · split
      · exact (dropWindow_act ser s).reach
      · split
        · exact requestTally_reach ser s
        · exact (modifyWindow_act ser s).reach
    · exact .refl

theorem retryUnsent_reach (x : Nat) (s : State) : Reach g s (retryUnsent x s) :=
  Reach.foldl _ _ fun t ser _ => requestTally_reach ser t

theorem reannounce_reach (s : State) : Reach g s (reannounce s) :=
  Reach.foldl _ _ fun t _ _ => (requestWindow_act _ t).reach

theorem joinWindows_reach (x : Nat) (s : State) : Reach g s (joinWindows x s) :=
  ((Reach.foldl _ _ fun t ser _ => cancelWindowEntry_reach ser t).trans (missingInTables_reach x _)).trans
    (reannounce_reach _)

/-! ### Holds placed (R93) -/

/-- Circuit and baseline of the records, which no hold moves. -/
def baselines (s : State) : List (Nat × Option (List Hop)) := s.paths.map fun r => (r.circuit, r.baseline)

theorem baselines_modifyPath (c : Nat) {f : PathRecord → PathRecord} (s : State)
    (hf : ∀ r, ((f r).circuit, (f r).baseline) = (r.circuit, r.baseline) := by intro; rfl) :
    baselines (modifyPath c f s) = baselines s := by
  simp only [baselines, modifyPath, State.setPaths_fields, List.map_map]
  refine List.map_congr_left fun r _ => ?_
  rw [Function.comp_apply]
  split
  · exact hf r
  · rfl

theorem baselines_addHold (ser : Serial) (c : Nat) (s : State) : baselines (addHold ser c s) = baselines s := by
  unfold addHold
  split
  · rfl
  · split
    · rfl
    · rename_i r _ _
      have hpaths (st : RecordState) (u : State) : baselines (moveForHold c st u) = baselines u := by
        unfold baselines
        rw [moveForHold_paths]
        split
        · rfl
        · exact baselines_modifyPath c u
      rw [hpaths, baselines_modifyPath]

/-- A record of the circuit has a baseline. -/
def based (s : State) (c : Nat) : Prop := ∃ r ∈ s.paths, r.circuit = c ∧ r.baseline.isSome = true

theorem based_iff (s : State) (c : Nat) : based s c ↔ ∃ x ∈ baselines s, x.1 = c ∧ x.2.isSome = true := by
  simp [based, baselines]

theorem placeHolds_reach (ser : Serial) (scope : PortSet) (s : State) : Reach g s (placeHolds ser scope s) := by
  refine .tail (Reach.foldl_of _ _ (fun t => ∀ c ∈ holdSelection s ser scope, based t c) ?_ ?_ ?_)
    (modifyWindow_act ser _)
  · intro c hc
    obtain ⟨r, hr, rfl⟩ := List.mem_map.1 hc
    obtain ⟨hmem, hsel⟩ := List.mem_filter.1 hr
    rw [Bool.and_eq_true] at hsel
    refine ⟨r, hmem, rfl, ?_⟩
    cases hbase : r.baseline with
    | none => simp [PathRecord.crossesScope, hbase] at hsel
    | some l => rfl
  · intro t c _ ht d hd
    rw [based_iff, baselines_addHold, ← based_iff]
    exact ht d hd
  · intro t c hc ht
    exact (Act.addHold ser c (ht c hc)).reach

/-! ### The Probe Unit -/

theorem setSlots_map_act (f : Probe → Probe) (s : State) (hf : ∀ p, (f p).core = p.core := by intro; rfl) :
    Act g s (setSlots (s.probes.slots.map (Option.map f)) s) := by
  refine .slotFlags _ ?_
  rw [List.map_map]
  refine List.map_congr_left fun o _ => ?_
  cases o with
  | none => rfl
  | some p => exact congrArg some (hf p)

theorem modifyDriving_act (f : Probe → Probe) (s : State)
    (hf : ∀ p, (f p).core = p.core := by intro; rfl) : Act g s (modifyDriving f s) :=
  setSlots_map_act _ s fun p => by
    split
    · exact hf p
    · rfl

theorem modifySlot_act (i : Nat) (f : Probe → Probe) (s : State)
    (hf : ∀ p, (f p).core = p.core := by intro; rfl) : Act g s (modifySlot i f s) := by
  refine .slotFlags _ (List.ext_getElem? fun k => ?_)
  simp only [List.getElem?_map, List.getElem?_modify]
  split
  · cases s.probes.slots[k]? with
    | none => rfl
    | some o =>
      cases o with
      | none => rfl
      | some p => exact congrArg some (congrArg some (hf p))
  · cases s.probes.slots[k]? <;> rfl

theorem requestProbe_act (p : Payload) (s : State) : Act g s (requestProbe p s) := .probeRequests _

theorem recordVerdict_reach (hg : g.verdicts = true) (j : Judgement) (p : Probe) (r : PathRecord) (s : State) :
    Reach g s (recordVerdict j p r s) := by
  have hpath (c : Nat) {f : PathRecord → PathRecord} (u : State)
      (hf : ∀ x, (f x).core = x.core := by intro; rfl) : Act g u (modifyPath c f u) := by
    refine .verdictPaths _ hg ?_
    rw [List.map_map]
    refine List.map_congr_left fun x _ => ?_
    rw [Function.comp_apply]
    split
    · exact hf x
    · rfl
  have hhead (u : State) : Reach g u (followHead j u) := by
    unfold followHead
    split
    · split
      · exact (Act.hopChange _ _ (by intro; rfl)).reach
      · exact .refl
    · exact .refl
  have hmove (u : State) : Reach g u (moveForVerdict j r u) := by
    unfold moveForVerdict
    dsimp only
    repeat' split
    · exact (hpath _ u).reach
    · exact ((hpath _ u).reach.tail (hpath _ _)).trans
        (Reach.foldl _ _ fun t ser _ => creditWindow_reach _ _ t ser)
    · exact (hpath _ u).reach.tail (.lists _ _ hg)
    · exact (hpath _ u).reach
  have hcredit (u : State) : Reach g u (creditRun p j.record.verdict u) := by
    unfold creditRun
    split
    · exact .refl
    · split
      · exact (Act.creditRun _ _ _ hg).reach
      · exact .refl
  exact ((((hpath _ s).reach.trans (hhead _)).trans (hmove _)).tail (.post _)).trans (hcredit _)

theorem evaluate_reach (i : Nat) (p : Probe) (s : State) (hp : probeAt s i = some p) (hphase : p.phase ≠ .closing) :
    Reach g s (evaluate i s) := by
  cases hg : g.verdicts with
  | false => exact (Act.evaluate i p hg hp hphase).reach
  | true =>
    unfold evaluate
    split
    · exact .refl
    · split
      · exact .refl
      · exact (((recordVerdict_reach hg _ _ _ s).tail (.closeSlot i hg)).tail (.idleMarking _ hg)).tail
          (requestProbe_act _ _)

theorem evaluateWithdrawn_reach (i : Nat) (p : Probe) (s : State) (hp : probeAt s i = some p)
    (hphase : p.phase = .claiming) : Reach g s (evaluateWithdrawn i s) := by
  cases hg : g.verdicts with
  | false => exact (Act.evaluateWithdrawn i p hg hp hphase).reach
  | true =>
    unfold evaluateWithdrawn
    split
    · exact .refl
    · split
      · exact .refl
      · exact (recordVerdict_reach hg _ _ _ s).tail (.emptySlot i hg)

/-- A slot found by a search meets its condition. -/
theorem probeAt_of_findIdx {s : State} {q : Probe → Bool} {i : Nat}
    (h : s.probes.slots.findIdx? (fun o => o.any q) = some i) : ∃ p, probeAt s i = some p ∧ q p = true := by
  obtain ⟨hlt, hq, _⟩ := List.findIdx?_eq_some_iff_getElem.1 h
  obtain ⟨p, hp, hqp⟩ := (Option.any_eq_true _ _).1 hq
  exact ⟨p, by rw [probeAt, List.getD_eq_getElem _ _ hlt, hp], hqp⟩

theorem intake_reach (i : Nat) (p : Probe) (x : PoolRecord) (s : State) (hp : probeAt s i = some p)
    (hphase : p.phase = .driving) (hx : g.stations → stationOk x.station = true ∨ x.station = s.own) :
    Reach g s (intake i p x s) := by
  unfold intake
  split
  · exact .refl
  · rename_i hnew
    split
    · exact (modifySlot_act i _ s).reach.trans (setFault_reach .pool _)
    · rename_i hfree
      refine Relation.ReflTransGen.trans (Act.pool i p x hp hphase (Bool.eq_false_iff.2 hnew) hfree hx).reach ?_
      unfold testEarly
      split
      · exact .refl
      · rename_i q hq
        split
        · refine evaluate_reach i q _ hq ?_
          rw [probeAt_modifySlot, if_pos rfl, hp] at hq
          cases hq
          simp [hphase]
        · exact .refl

theorem offerItem_reach (x : Item) (s : State)
    (hx : g.stations → stationOk x.record.station = true ∨ x.record.station = s.own) :
    Reach g s (offerItem x s) := by
  unfold offerItem
  split
  · exact .refl
  · rename_i i hi
    obtain ⟨p, hp, hq⟩ := probeAt_of_findIdx hi
    simp only [Bool.and_eq_true, beq_iff_eq] at hq
    rw [hp]
    exact intake_reach i p x.record s hp hq.1.1 hx

theorem startOutcome_reach (c e : Nat) (b : BestMarks) (failed : Bool) (s : State) :
    Reach g s (startOutcome c e b failed s) := by
  unfold startOutcome
  split
  · rename_i i hi
    obtain ⟨p, hp, hq⟩ := probeAt_of_findIdx hi
    simp only [Bool.and_eq_true, beq_iff_eq] at hq
    exact (Act.enterDriving i p b failed hp hq.1.1).reach
  · exact .refl

theorem endOutcome_reach (c e : Nat) (s : State) : Reach g s (endOutcome c e s) := by
  unfold endOutcome
  split
  · rename_i i hi
    obtain ⟨p, hp, hq⟩ := probeAt_of_findIdx hi
    simp only [Bool.and_eq_true, beq_iff_eq] at hq
    exact (Act.freeSlot i p hp hq.1.1).reach
  · exact .refl

theorem conflictSlot_reach (i : Nat) (p : Probe) (s : State) (hp : probeAt s i = some p) :
    Reach g s (conflictSlot i p s) := by
  have hmarked (u : State) (hu : probeAt u i = some p) :
      probeAt (markConflict i u) i = some { p with conflict := true } := by
    rw [markConflict, probeAt_modifySlot, if_pos rfl, hu]
    rfl
  have hmark (u : State) : Reach g u (markConflict i u) := (modifySlot_act i _ u).reach
  unfold conflictSlot
  cases hphase : p.phase with
  | closing => exact .refl
  | driving => exact (hmark s).trans (evaluate_reach i _ _ (hmarked s hp) (by simp [hphase]))
  | claiming =>
    dsimp only
    split
    · refine .trans (.trans (.tail (.single (.probeRequests _)) (.withdraw _)) (hmark _))
        (evaluateWithdrawn_reach i _ _ (hmarked _ ?_) hphase)
      simpa [probeAt] using hp
    · exact (hmark s).trans (evaluate_reach i _ _ (hmarked s hp) (by simp [hphase]))

theorem duplicateHead_reach (c : Nat) (s : State) : Reach g s (duplicateHead c s) := by
  unfold duplicateHead
  split
  · exact .refl
  · dsimp only
    repeat' split
    · exact setFault_reach _ s
    · exact setFault_reach _ s
    · rename_i hp
      exact (setFault_reach _ s).trans (conflictSlot_reach _ _ _ hp)

theorem absentStation_act (x : Nat) (s : State) : Act g s (absentStation x s) :=
  modifyDriving_act _ s fun p => by split <;> rfl

theorem joinProbes_act (x : Nat) (s : State) : Act g s (joinProbes x s) :=
  setSlots_map_act _ s fun p => by
    unfold joinSlot
    repeat' split
    all_goals rfl

theorem loseLoop_act (s : State) : Act g s (loseLoop s) := modifyDriving_act _ s

/-! ### The Roster Unit -/

/-- An entry as `rosterAt` reads it after a change of it; a number without an entry reads as blank. -/
theorem rosterAt_modifyRoster_self (n : Nat) (f : RosterEntry → RosterEntry) (s : State) :
    rosterAt (modifyRoster n f s) n = f (rosterAt s n) ∨
      rosterAt s n = blankEntry ∧ rosterAt (modifyRoster n f s) n = blankEntry := by
  unfold modifyRoster
  split
  case isTrue hn =>
    simp only [rosterAt, hn, if_true, State.setRoster_fields, List.getD_eq_getElem?_getD, List.getElem?_modify]
    cases s.roster.entries[n - 1]? with
    | none => exact .inr ⟨rfl, rfl⟩
    | some e => exact .inl (by simp)
  case isFalse hn =>
    refine .inr ⟨?_, ?_⟩ <;> rw [rosterAt, if_neg hn]

theorem modifyRoster_modifyRoster (n : Nat) (f h : RosterEntry → RosterEntry) (s : State) :
    modifyRoster n h (modifyRoster n f s) = modifyRoster n (h ∘ f) s := by
  unfold modifyRoster
  split
  · simp [List.modify_modify_eq]
  · rfl

theorem blankEntry_ok : blankEntry.ok := by decide

theorem clearMisses_act (x : Nat) (s : State) : Act g s (clearMisses x s) := by
  refine .entry x _ (fun _ => rfl) fun h => ?_
  obtain ⟨_, _, hgrade⟩ := h
  exact ⟨Nat.zero_le _, fun _ => Nat.zero_le _, hgrade⟩

theorem missRun_clearMisses (x : Nat) (s : State) : (rosterAt (clearMisses x s) x).missRun = 0 := by
  unfold clearMisses
  rcases rosterAt_modifyRoster_self x (fun e => { e with missRun := 0 }) s with h | ⟨_, h⟩ <;> rw [h]
  rfl

theorem becomePresent_reach (x : Nat) (s : State) (hmiss : (rosterAt s x).missRun = 0) :
    Reach g s (becomePresent x s) := by
  refine .trans (.tail (.single (.presence x _ fun h => ?_)) (raiseAlert_act .roster _)) (retryUnsent_reach x _)
  obtain ⟨hle, _, hgrade⟩ := h
  exact ⟨hle, fun _ => hmiss.trans_le (Nat.zero_le _), hgrade⟩

theorem reportReceipt_reach (x : Nat) (s : State) : Reach g s (reportReceipt x s) := by
  unfold reportReceipt
  dsimp only
  split
  · exact (clearMisses_act x s).reach
  · exact (clearMisses_act x s).reach.trans (becomePresent_reach x _ (missRun_clearMisses x s))

theorem becomeAbsent_tail_reach (x : Nat) (s : State) :
    Reach g s (missingInTables x (absentStation x (raiseAlert .roster s))) :=
  ((raiseAlert_act .roster s).reach.tail (absentStation_act x _)).trans (missingInTables_reach x _)

theorem raiseMisses_reach (x : Nat) (s : State) (hpresent : isPresent s x = true) :
    Reach g s (raiseMisses x s) := by
  unfold raiseMisses
  dsimp only
  split
  · unfold becomeAbsent
    rw [modifyRoster_modifyRoster]
    refine .trans (.single (.presence x _ fun h => ?_)) (becomeAbsent_tail_reach x _)
    obtain ⟨_, hmiss, hgrade⟩ := h
    have hle := hmiss hpresent
    exact ⟨Nat.succ_le_succ hle, fun h => absurd h Bool.false_ne_true, hgrade⟩
  · rename_i hmiss
    refine .single (.entry x _ (fun _ => rfl) fun h => ?_)
    obtain ⟨hle, _, hgrade⟩ := h
    rcases rosterAt_modifyRoster_self x (fun e => { e with missRun := e.missRun + 1 }) s with hat | ⟨hblank, _⟩
    · rw [hat] at hmiss
      have hlt : (rosterAt s x).missRun + 1 ≤ 2 := Nat.le_of_lt_succ (Nat.lt_of_not_le hmiss)
      exact ⟨Nat.le_succ_of_le hlt, fun _ => hlt, hgrade⟩
    · rw [isPresent, hblank] at hpresent
      exact absurd hpresent Bool.false_ne_true

theorem feedMiss_reach (b : BestMarks) (attempts : Nat) (s : State) (x : Nat) :
    Reach g s (feedMiss b attempts s x) := by
  unfold feedMiss
  split
  · exact .refl
  · rename_i hx
    repeat' split
    · exact (clearMisses_act x s).reach
    · refine raiseMisses_reach x s ?_
      simpa using (not_or.1 hx).2
    · exact .refl

theorem feedOutcome_reach (e : Ending) (b : BestMarks) (attempts : Nat) (s : State) :
    Reach g s (feedOutcome e b attempts s) := by
  unfold feedOutcome
  split
  · exact Reach.foldl _ _ fun t x _ => feedMiss_reach b attempts t x
  · exact .refl

/-- A recorded grade is 1 or 2 (R161). -/
theorem recordedAdvert_grade (grade : Nat) (batch : Bool) :
    (recordedAdvert grade batch).grade = 1 ∨ (recordedAdvert grade batch).grade = 2 := by
  unfold recordedAdvert
  dsimp only
  split
  · exact .inr rfl
  · exact .inl rfl

theorem ownAdvert_grade (im : Image) : (ownAdvert im).grade = 1 ∨ (ownAdvert im).grade = 2 := by
  unfold ownAdvert
  split
  · exact .inr rfl
  · exact .inl rfl

theorem recordAdvert_act (x : Nat) (a : Advertisement) (ha : a.grade = 1 ∨ a.grade = 2) (s : State) :
    Act g s (recompute (recordAdvert x a s)) :=
  .presence x _ fun _ => ⟨Nat.zero_le _, fun _ => Nat.zero_le _, fun b hb => by cases hb; exact ha⟩

theorem joinRoster_reach (x : Nat) (a : Advertisement) (ha : a.grade = 1 ∨ a.grade = 2) (s : State) :
    Reach g s (joinRoster x a s) := by
  have hanswer (u : State) : Reach g u (answerJoin u) := by
    unfold answerJoin
    split
    · exact (Act.presentRequest _).reach
    · exact .refl
  have hroster : Reach g s (answerJoin (raiseAlert .roster (recompute (recordAdvert x a s)))) :=
    ((recordAdvert_act x a ha s).reach.tail (raiseAlert_act _ _)).trans (hanswer _)
  unfold joinRoster
  dsimp only
  split
  · exact hroster
  · exact hroster.trans (retryUnsent_reach x _)

theorem takePresent_reach (x : Nat) (a : Advertisement) (ha : a.grade = 1 ∨ a.grade = 2) (s : State) :
    Reach g s (takePresent x a s) := by
  unfold takePresent
  dsimp only
  split
  · exact (recordAdvert_act x a ha s).reach
  · exact ((recordAdvert_act x a ha s).reach.tail (raiseAlert_act _ _)).trans (retryUnsent_reach x _)

theorem requestAudits_reach (cs : List Nat) (m : Mode) (o : Origin) (hm : m ≠ .sweep) (s : State) :
    Reach g s (requestAudits cs m o s) :=
  Reach.foldl _ _ fun _ c _ => (Act.requestAudit c m o hm).reach

theorem takeJoin_reach (x : Nat) (a : Advertisement) (ha : a.grade = 1 ∨ a.grade = 2) (s : State) :
    Reach g s (takeJoin x a s) :=
  (((joinRoster_reach x a ha s).trans (joinWindows_reach x _)).tail (joinProbes_act x _)).trans
    (requestAudits_reach _ _ _ (by decide) _)

theorem keepPresent_reach (s : State) : Reach g s (keepPresent s) := by
  unfold keepPresent
  split
  · exact (Act.presentRequest _).reach
  · exact .refl

/-! ### The Tag Scanner -/

/-- A change of the scanner's lists that keeps request, dwell, watch list and monitors. -/
theorem scanLists_act (backlog : List Item) (strays : List Stray) (alarms : List Alarm) (s : State)
    (hbacklog : backlog.length ≤ max s.scanner.backlog.length Config.backlogCapacity)
    (hstrays : strays.length ≤ max s.scanner.strays.length Config.strayCapacity) :
    Act g s (s.setScanner { s.scanner with backlog := backlog, strays := strays, alarms := alarms }) :=
  .scan _ rfl (.refl _) hbacklog hstrays rfl

theorem pendAlarm_act (a : Alarm) (s : State) : Act g s (pendAlarm a s) :=
  .scan _ rfl (.refl _) (le_max_left _ _) (le_max_left _ _) rfl

theorem raiseSpanAlarm_reach (k : AlarmKind) (p : Nat) (s : State) : Reach g s (raiseSpanAlarm k p s) := by
  unfold raiseSpanAlarm
  split
  · exact .refl
  · exact (pendAlarm_act _ s).reach

theorem setMonitor_act (p : Nat) (m : LossMonitor) (s : State) : Act g s (setMonitor p m s) :=
  .scan _ rfl (.refl _) (le_max_left _ _) (le_max_left _ _) List.length_set

theorem enterLoss_reach (p : Nat) (s : State) : Reach g s (enterLoss p s) :=
  (setMonitor_act p .loss s).reach.trans (raiseSpanAlarm_reach .loss p _)

theorem enterClear_reach (p : Nat) (s : State) : Reach g s (enterClear p s) :=
  (setMonitor_act p .clear s).reach.trans (raiseSpanAlarm_reach .restore p _)

theorem monitorAsserted_reach (p : Nat) (s : State) : Reach g s (monitorAsserted p s) := by
  unfold monitorAsserted
  repeat' split
  · exact enterLoss_reach p s
  · exact (setMonitor_act p _ s).reach
  · exact (setMonitor_act p _ s).reach
  · exact .refl
  · exact .refl

theorem monitorReleased_reach (p : Nat) (s : State) : Reach g s (monitorReleased p s) := by
  unfold monitorReleased
  repeat' split
  · exact enterClear_reach p s
  · exact (setMonitor_act p _ s).reach
  · exact (setMonitor_act p _ s).reach
  · exact .refl
  · exact .refl

theorem watchFilter_act (q : WatchEntry → Bool) (s : State) :
    Act g s (s.setScanner { s.scanner with watch := s.scanner.watch.filter q }) :=
  .scan _ rfl (List.filter_sublist.map _) (le_max_left _ _) (le_max_left _ _) rfl

theorem setLatch_act (c : Nat) (s : State) : Act g s (setLatch c s) := .hopChange c _ fun _ => rfl

theorem raiseStray_reach (e : HopEntry) (k : StrayKind) (p : Nat) (s : State) :
    Reach g s (raiseStray e k p s) := by
  unfold raiseStray
  split
  · exact (setLatch_act _ s).reach.tail (.requestAudit _ _ _ (by decide))
  · split
    · rename_i hroom
      refine .tail (.single (scanLists_act _ (_ ++ [_]) _ s (le_max_left _ _) (le_max_of_le_right ?_))) (setLatch_act _ _)
      rw [List.length_append]
      exact hroom
    · exact .refl

theorem checkIdle_reach (p : Nat) (t : Tag) (s : State) : Reach g s (checkIdle p t s) := by
  unfold checkIdle
  split
  · exact .refl
  · split
    · exact raiseStray_reach _ _ _ s
    · exact .refl

theorem updateMissing_reach (r : DwellResult) (s : State) (c : Nat) : Reach g s (updateMissing r s c) := by
  have hmissing (d n : Nat) (u : State) : Act g u (setMissing d n u) := .hopChange d _ fun _ => rfl
  unfold updateMissing
  split
  · exact .refl
  · repeat' split
    · exact .refl
    · exact (hmissing _ _ s).reach
    · exact .refl
    · unfold countMissing
      dsimp only
      split
      · exact (hmissing _ _ s).reach.trans (raiseStray_reach _ _ _ _)
      · exact (hmissing _ _ s).reach

theorem watchTag_reach (p : Nat) (t : Tag) (s : State) : Reach g s (watchTag p t s) := by
  unfold watchTag
  split
  · exact .refl
  · rename_i w hw
    split
    · unfold backlogItem
      split
      · rename_i hroom
        refine .tail (.single (scanLists_act (_ ++ [_]) _ _ s (le_max_of_le_right ?_) (le_max_left _ _)))
          (.reportPort w p (List.mem_of_find?_eq_some hw))
        rw [List.length_append]
        exact hroom
      · exact .refl
    · exact .refl

theorem classifyTag_reach (p : Nat) (s : State) (t : Tag) : Reach g s (classifyTag p s t) := by
  unfold classifyTag
  split
  · exact checkIdle_reach p t s
  · unfold classifyProbe
    split
    · exact offerItem_reach _ s fun _ => .inr rfl
    · exact watchTag_reach p t s

theorem handleDwell_reach (r : DwellResult) (s : State) : Reach g s (handleDwell r s) :=
  (Reach.foldl _ _ fun t x _ => classifyTag_reach r.port t x).trans
    (Reach.foldl _ _ fun t c _ => updateMissing_reach r t c)

/-- A dwell's result moves neither request nor dwell. -/
theorem handleDwell_dwell (r : DwellResult) (s : State) : (handleDwell r s).scanner.dwell = s.scanner.dwell := by
  have hstray (e : HopEntry) (k : StrayKind) (p : Nat) (u : State) :
      (raiseStray e k p u).scanner.dwell = u.scanner.dwell := by
    unfold raiseStray changeScanner
    repeat' split
    all_goals simp
  have htag (u : State) (t : Tag) : (classifyTag r.port u t).scanner.dwell = u.scanner.dwell := by
    unfold classifyTag checkIdle classifyProbe watchTag backlogItem reportPort changeScanner
    repeat' split
    all_goals simp [hstray]
  have hmissing (u : State) (c : Nat) : (updateMissing r u c).scanner.dwell = u.scanner.dwell := by
    unfold updateMissing countMissing
    dsimp only
    repeat' split
    all_goals simp [hstray]
  unfold handleDwell
  dsimp only
  rw [foldl_keeps _ _ _ (·.scanner.dwell) hmissing, foldl_keeps _ _ _ (·.scanner.dwell) htag]

theorem endDwell_reach (d : Dwell) (found : List Tag) (s : State) (hd : s.scanner.dwell = some d) :
    Reach g s (endDwell d found s) := by
  refine .tail (.tail (.trans (.tail (.single (advanceTo_act d.ends s)) (watchFilter_act _ _))
    (handleDwell_reach _ _)) (.answerDwell d _ ?_)) .beginDwell
  rw [handleDwell_dwell]
  exact hd

end Sys2Proof.Machine
end

