-- ==== Sys2Proof/Proofs/RowActs.lean ====
section
/-! The rows as atomic changes: deliveries, receipt, the transmitter, LOOP RESET, the load, dispatch and commands. -/

namespace Sys2Proof.Machine

variable {g : Grain} {s t u : State}

/-! ### The outstanding list under an outcome -/

theorem changeLoop_outstanding (f : LoopPort → LoopPort) (s : State) :
    (changeLoop f s).loop.outstanding = (f s.loop).outstanding := by
  simp only [changeLoop, LoopPort.fair, State.setLoop_fields]
  split <;> rfl

theorem handOutcome_outstanding (r : Request) (e : Ending) (b : BestMarks) (s : State) :
    (handOutcome r e b s).loop.outstanding = s.loop.outstanding := by
  unfold handOutcome
  repeat' split
  all_goals simp

/-- An outcome leaves the entries of other numbers as they are. -/
theorem mem_giveOutcome {o x : Outstanding} (e : Ending) (hx : x ∈ s.loop.outstanding)
    (hne : x.number ≠ o.number) : x ∈ (giveOutcome o e s).loop.outstanding := by
  unfold giveOutcome
  dsimp only
  rw [leaveOutstanding, changeLoop_outstanding]
  refine List.mem_filter.2 ⟨?_, by simp [hne]⟩
  rw [(feedOutcome_frame _ _ _ _).2.2.2.2.2.2.2.2.2.2.2.2, handOutcome_outstanding, linger, changeLoop_outstanding]
  exact List.mem_map.2 ⟨x, hx, if_neg hne⟩

/-! ### Outcomes (R152) -/

/-- The entry waits for its outcome, when the numbers are known to differ. -/
def Grain.opens (g : Grain) (s : State) (o : Outstanding) : Prop :=
  g.apart → ∃ x ∈ s.loop.outstanding, x.number = o.number ∧ x.standing ≠ .lingering ∧
    x.request.payload = o.request.payload

theorem joinOutcome_reach (o : Outstanding) (s : State) (ho : g.opens s o) (hkind : o.request.payload.kind = 1) :
    Reach g s (joinOutcome (linger o.number s)) := by
  have hjoined : Reach g s (joinedRoster (linger o.number s)) := by
    refine .single (.joined o.number fun hg => ?_)
    obtain ⟨x, hx, hnum, hst, hpay⟩ := ho hg
    exact ⟨x, hx, hnum, hst, hpay ▸ hkind⟩
  have hsplit : joinOutcome (linger o.number s) =
      if isPresent (linger o.number s) (linger o.number s).own then joinedRoster (linger o.number s)
      else raiseAlert .roster (joinedRoster (linger o.number s)) := rfl
  rw [hsplit]
  split
  · exact hjoined
  · exact hjoined.tail (raiseAlert_act _ _)

theorem handOutcome_reach (o : Outstanding) (e : Ending) (b : BestMarks) (s : State) (ho : g.opens s o) :
    Reach g s (handOutcome o.request e b (linger o.number s)) := by
  have hlinger : Reach g s (linger o.number s) := .single (.linger _)
  unfold handOutcome
  cases hpay : o.request.payload with
  | probeStart c ep _ _ => exact hlinger.trans (startOutcome_reach _ _ _ _ _)
  | probeEnd c ep _ _ => exact hlinger.trans (endOutcome_reach _ _ _)
  | windowOpen ser _ =>
    dsimp only
    split
    · exact hlinger.trans (openOutcome_reach _ _ _)
    · exact hlinger
  | windowClose ser => exact hlinger.trans (closeOutcome_reach _ _ _)
  | tally ser _ =>
    dsimp only
    split
    · exact hlinger.trans (tallyOutcome_reach _ _ _)
    · exact hlinger
  | join _ _ => exact joinOutcome_reach o s ho (by rw [hpay]; rfl)
  | loopReset => exact hlinger.tail (.quarantine _)
  | windowCancel _ | present _ _ | sighting _ | stray _ _ _ _ | spanAlarm _ _ => exact hlinger

theorem giveOutcome_reach (o : Outstanding) (e : Ending) (s : State) (ho : g.opens s o) :
    Reach g s (giveOutcome o e s) :=
  ((handOutcome_reach o e _ s ho).trans (feedOutcome_reach _ _ _ _)).tail (.leave _)

theorem endAttempt_reach (o : Outstanding) (s : State) (ho : g.opens s o)
    (hflight : ∃ x ∈ s.loop.outstanding, x.number = o.number ∧ x.standing = .inFlight) :
    Reach g s (endAttempt o s) := by
  unfold endAttempt
  split
  · exact giveOutcome_reach o .delivered s ho
  · obtain ⟨x, hx, hnum, hst⟩ := hflight
    exact .single (hnum ▸ .waitRetry x hx hst)

/-- The entries that end keep waiting until their turn comes. -/
theorem endEntries_reach (e : Ending) (q : Outstanding → Bool) (s : State)
    (hapart : g.apart → (s.loop.outstanding.map (·.number)).Nodup) : Reach g s (endEntries e q s) := by
  have hfold (l : List Outstanding) : ∀ t : State,
      (g.apart → (l.map (·.number)).Nodup ∧ ∀ o ∈ l, o ∈ t.loop.outstanding ∧ o.standing ≠ .lingering) →
      Reach g t (l.foldl (fun t o => giveOutcome o e t) t) := by
    induction l with
    | nil => exact fun _ _ => .refl
    | cons o l ih =>
      intro t ht
      refine (giveOutcome_reach o e t fun hg => ?_).trans (ih _ fun hg => ?_)
      · obtain ⟨_, hmem⟩ := ht hg
        obtain ⟨ho, hst⟩ := hmem o List.mem_cons_self
        exact ⟨o, ho, rfl, hst, rfl⟩
      · obtain ⟨hnd, hmem⟩ := ht hg
        rw [List.map_cons, List.nodup_cons] at hnd
        refine ⟨hnd.2, fun x hx => ?_⟩
        obtain ⟨hin, hst⟩ := hmem x (List.mem_cons_of_mem _ hx)
        exact ⟨mem_giveOutcome e hin fun h => hnd.1 (h ▸ List.mem_map_of_mem hx), hst⟩
  refine hfold _ s fun hg => ⟨(hapart hg).sublist (List.filter_sublist.map _), fun o ho => ?_⟩
  obtain ⟨hmem, hq⟩ := List.mem_filter.1 ho
  rw [Bool.and_eq_true] at hq
  exact ⟨hmem, by simpa [Outstanding.active] using hq.1⟩

theorem loopDown_reach (s : State) (hapart : g.apart → (s.loop.outstanding.map (·.number)).Nodup) :
    Reach g s (loopDown s) := by
  refine .trans (.tail (.tail (.single .down) (loseLoop_act _)) (raiseAlert_act .loop _)) (endEntries_reach _ _ _ ?_)
  simpa [changeLoop_outstanding] using hapart

/-! ### Returning copies (R150) -/

theorem mem_returned {o : Outstanding} (m : BestMarks) (hmem : o ∈ s.loop.outstanding) :
    o.returning m ∈ (modifyEntry o.number (·.returning m) s).loop.outstanding := by
  rw [modifyEntry, changeLoop_outstanding]
  exact List.mem_map.2 ⟨o, hmem, if_pos rfl⟩

theorem returnCopy_reach (o : Outstanding) (m : BestMarks) (s : State) (hmem : o ∈ s.loop.outstanding) :
    Reach g s (returnCopy o m s) := by
  have hback := mem_returned m hmem
  refine .trans (.single (.returning o.number m)) ?_
  change Reach g _ (afterReturn _ _)
  unfold afterReturn
  cases hst : (o.returning m).standing with
  | inFlight =>
    exact endAttempt_reach _ _ (fun _ => ⟨_, hback, rfl, by rw [hst]; decide, rfl⟩) ⟨_, hback, rfl, hst⟩
  | retryWaiting =>
    dsimp only
    split
    · exact giveOutcome_reach _ _ _ fun _ => ⟨_, hback, rfl, by rw [hst]; decide, rfl⟩
    · exact .refl
  | lingering => exact .single (.leave _)

theorem mem_of_findEntry {n : Nat} {o : Outstanding} (h : findEntry s n = some o) :
    o ∈ s.loop.outstanding ∧ o.number = n :=
  ⟨List.mem_of_find?_eq_some h, by simpa using List.find?_some h⟩

/-! ### Receipt (R138 to R142) -/

theorem setAcceptance_act (x : Nat) (a : Option Acceptance) (s : State) : Act g s (setAcceptance x a s) :=
  .entry x _ (fun _ => rfl) fun h => h

/-- A well-formed notice names stations 1 to 24 in its items (R197). -/
theorem stationsOk_of_notice {c : Copy} {p : Payload} (hp : c.notice = some p)
    (hst : stationOk c.originator.toNat = true) (m now : Nat) :
    (⟨c.originator.toNat, m, p, now⟩ : Received).stationsOk = true := by
  obtain ⟨hrange, _⟩ := inRange_of_decodePayload hp
  unfold Received.stationsOk
  dsimp only
  rw [hst, Bool.true_and]
  split
  · rename_i items
    simp only [Payload.inRange, Bool.and_eq_true, List.all_eq_true] at hrange
    rw [List.all_eq_true]
    intro i hi
    exact ((inRange_item_iff i).1 (hrange.2 i hi)).2.2.1
  · rfl

theorem refusesCapacity_setAcceptance (x : Nat) (a : Option Acceptance) (p : Payload) (s : State) :
    refusesCapacity (setAcceptance x a s) p = refusesCapacity s p := by
  unfold refusesCapacity canWatch windowsFull waitingOpens findWindow
  simp

/-- A notice is taken only where there is room for it (R142). -/
theorem applyAnswer_reach (x m : Nat) (p : Payload) (s : State) (hrun : s.runState = .running)
    (hstations : ∀ now, (⟨x, m, p, now⟩ : Received).stationsOk = true) :
    Reach g s (applyAnswer x m p (answerTo s x m p) s) := by
  unfold answerTo
  repeat' split
  · exact .refl
  · exact .refl
  · unfold applyAnswer
    dsimp only
    split
    · exact .single (setAcceptance_act _ _ _)
    · exact .refl
  · rename_i hcapacity hroom
    refine .tail (.single (setAcceptance_act x _ s)) (.enqueueReceived x m p ?_ ?_ ?_ (hstations _))
    · simpa using hrun
    · rw [refusesCapacity_setAcceptance]
      simpa using hcapacity
    · simpa using hroom

theorem applyAnswer_forward (x m : Nat) (p : Payload) (a : Answer) (s : State) :
    (applyAnswer x m p a s).loop.forward = s.loop.forward := by
  unfold applyAnswer
  repeat' split
  all_goals simp [enqueueReceived]

theorem acceptNotice_reach (c : Copy) (s : State) (hrun : s.runState = .running)
    (hst : stationOk c.originator.toNat = true) (hroom : forwardFull s = false) :
    Reach g s (acceptNotice c s) := by
  have hlt : s.loop.forward.length < Config.noticeCapacity := by simpa [forwardFull] using hroom
  unfold acceptNotice
  cases hp : c.notice with
  | none => exact .single (.forwardCopy _ (by simp [hrun]) hlt)
  | some p =>
    refine .trans (.tail (applyAnswer_reach _ _ p s hrun (stationsOk_of_notice hp hst _))
      (.forwardCopy _ ?_ ?_)) (reportReceipt_reach _ _)
    · simp [hrun]
    · rw [applyAnswer_forward]
      exact hlt

theorem passReset_reach (c : Copy) (s : State) (hrun : s.runState = .running) (hroom : forwardFull s = false) :
    Reach g s (passReset c s) := by
  have hlt : s.loop.forward.length < Config.noticeCapacity := by simpa [forwardFull] using hroom
  unfold passReset
  dsimp only
  split
  · exact .trans (.single (.forwardCopy _ (by simp [hrun]) hlt)) (reportReceipt_reach _ _)
  · refine .trans (.tail (.single (setAcceptance_act _ _ s)) (.forwardCopy _ ?_ ?_)) (reportReceipt_reach _ _)
    · simp [hrun]
    · simpa using hlt

theorem takeCopy_reach (c : Copy) (s : State) (hrun : s.runState = .running) : Reach g s (takeCopy c s) := by
  unfold takeCopy
  split
  · unfold stripOwn
    split
    · exact setFault_reach _ s
    · rename_i o ho
      obtain ⟨hmem, _⟩ := mem_of_findEntry ho
      split
      · exact returnCopy_reach o _ s hmem
      · exact setFault_reach _ s
  · split
    · exact .refl
    · rename_i hst
      split
      · exact .refl
      · split
        · unfold quarantined
          split
          · split
            · exact .refl
            · rename_i hroom
              exact passReset_reach c s hrun (by simpa using hroom)
          · exact .refl
        · split
          · exact .refl
          · rename_i hroom
            exact acceptNotice_reach c s hrun (by simpa using hst) (by simpa using hroom)

theorem takeReception_reach (s : State) (hstart : s.runState ≠ .starting) : Reach g s (takeReception s) := by
  unfold takeReception
  dsimp only
  split
  · exact .single (.reception hstart)
  · exact .tail (.single (.reception hstart)) (raiseAlert_act _ _)

theorem receiveCopy_reach (c : Copy) (s : State) (hstart : s.runState ≠ .starting) :
    Reach g s (receiveCopy c s) := by
  unfold receiveCopy
  split
  · rename_i hrun
    exact (takeReception_reach s hstart).trans (takeCopy_reach c _ (by simpa using hrun))
  · refine (takeReception_reach s hstart).trans ?_
    unfold passiveCopy
    split
    · exact .refl
    · rename_i hroom
      refine .single (.forwardCopy _ (by simpa using hstart) ?_)
      simpa [forwardFull] using (not_or.1 hroom).2

theorem execNoticeReceived_reach (bytes : List Byte) (h : execNoticeReceived bytes s = .next t) : Reach g s t := by
  unfold execNoticeReceived at h
  split at h
  · cases h
    exact .single (.sending _)
  · rename_i hstart
    split at h
    · cases h
      exact takeReception_reach s hstart
    · split at h
      · cases h
        exact receiveCopy_reach _ s hstart
      · cases h
        exact .refl

theorem execIdleFillReceived_reach (h : execIdleFillReceived s = .next t) : Reach g s t := by
  unfold execIdleFillReceived at h
  split at h
  · cases h
    exact .single (.sending _)
  · rename_i hstart
    cases h
    exact takeReception_reach s hstart

theorem execTransmitComplete_reach (h : execTransmitComplete s = .next t) : Reach g s t := by
  unfold execTransmitComplete at h
  cases hrun : s.runState with
  | starting =>
    rw [hrun] at h
    cases h
    exact .refl
  | passive =>
    rw [hrun] at h
    cases h
    exact .single .transmitPassive
  | running =>
    rw [hrun] at h
    cases h
    exact .single (.transmit hrun)

theorem execInsertionPlaceGrant_reach (h : execInsertionPlaceGrant s = .next t) : Reach g s t := by
  unfold execInsertionPlaceGrant at h
  split at h
  · rename_i hfree
    split at h
    · rename_i c hc
      cases h
      exact .single (.grant c hfree hc)
    · cases h
      exact .refl
  · cases h
    exact .refl

/-! ### LOOP RESET (R155, R157) -/

theorem resetBlocks_reach (s : State) : Reach g s (resetBlocks s) := by
  have hscanner (u : State) : Act g u (resetScanner u) :=
    .scan _ rfl (List.nil_sublist _) (Nat.zero_le _) (le_max_left _ _) rfl
  exact .tail (.tail (.tail (.tail (.single .resetWork) (hscanner _)) (resetWindows_act _)) .dropJoinRequest)
    (raiseAlert_act .reset _)

theorem resetBlocks_outstanding (s : State) : (resetBlocks s).loop.outstanding = s.loop.outstanding := by
  simp [resetBlocks, clearSlots, changeLoop_outstanding]

theorem resetLoopOwn_reach (s : State) (hrun : s.runState = .running)
    (hapart : g.apart → (s.loop.outstanding.map (·.number)).Nodup) : Reach g s (resetLoopOwn s) := by
  cases hg : g.resets with
  | false => exact .single (.resetLoopOwn hg hrun)
  | true =>
    refine .tail (.trans (.single (.clearQueues hg)) (endEntries_reach .reset _ _ ?_)) (.queueReset hg ?_)
    · simpa using hapart
    · simpa using hrun

theorem ownLoopReset_reach (s : State) (hrun : s.runState = .running)
    (hapart : g.apart → (s.loop.outstanding.map (·.number)).Nodup) : Reach g s (ownLoopReset s) := by
  refine ((keepPresent_reach s).trans (resetBlocks_reach _)).trans (resetLoopOwn_reach _ ?_ ?_)
  · simpa using hrun
  · simpa [resetBlocks_outstanding] using hapart

theorem takeLoopReset_reach (s : State) (hapart : g.apart → (s.loop.outstanding.map (·.number)).Nodup) :
    Reach g s (takeLoopReset s) := by
  refine .trans (.tail (resetBlocks_reach s) (.withdraw _)) (endEntries_reach .reset _ _ ?_)
  simpa [changeLoop_outstanding, resetBlocks_outstanding] using hapart

/-! ### The load (R188 to R194) -/

theorem takeInputs_reach (s : State) : Reach g s (takeInputs s) :=
  Reach.foldl _ _ fun t p _ => monitorAsserted_reach p t

theorem endLoad_reach (bytes : List Byte) (s : State) (hstart : s.runState = .starting) (hloads : g.loads) :
    Reach g s (endLoad bytes s) := by
  have hload : Reach g s (loadTaken bytes s) := .single (.load bytes hstart hloads)
  unfold endLoad
  dsimp only
  split
  · rename_i hrunning
    rw [loadTaken] at hload
    rw [if_pos hrunning] at hload
    exact (hload.tail .beginDwell).trans (takeInputs_reach _)
  · rename_i hpassive
    rw [loadTaken] at hload
    rwa [if_neg hpassive] at hload

/-! ### Dispatch (R143) -/

theorem dispatchOldest_cases (act : Received → Option (State → State)) (s : State) :
    dispatchOldest act s = s ∨ ∃ a rest f, s.loop.receive = a :: rest ∧ act a = some f ∧
      dispatchOldest act s = f (popOldest s) := by
  unfold dispatchOldest
  split
  · exact .inl rfl
  · rename_i a rest ha
    split
    · rename_i f hf
      exact .inr ⟨a, rest, f, ha, hf, rfl⟩
    · exact .inl rfl

/-- A dispatch makes the changes of its notice, after the notice has left the queue. -/
theorem dispatchOldest_reach (act : Received → Option (State → State)) (s : State)
    (hact : ∀ a rest f, s.loop.receive = a :: rest → act a = some f → Reach g s (f (popOldest s))) :
    Reach g s (dispatchOldest act s) := by
  rcases dispatchOldest_cases act s with h | ⟨a, rest, f, ha, hf, h⟩
  · rw [h]
  · rw [h]
    exact hact a rest f ha hf

theorem popOldest_reach (f : State → State) (h : Reach g (popOldest s) (f (popOldest s))) :
    Reach g s (f (popOldest s)) := .trans (.single .popOldest) h

theorem takeWindowOpen_reach {a : Received} {rest : List Received} {ser : Serial} {scope : PortSet}
    (hreceive : s.loop.receive = a :: rest) (hpayload : a.payload = .windowOpen ser scope) :
    Reach g s (takeWindowOpen ser scope (popOldest s)) := by
  unfold takeWindowOpen
  split
  · exact .single .popOldest
  · rename_i hnew
    have hnone : findWindow s ser = none := by
      simpa [findWindow, popOldest] using hnew
    exact .trans (.single (.windowReceived a rest ser scope hreceive hpayload hnone)) (placeHolds_reach _ _ _)

theorem takeWindowClose_reach (ser : Serial) (s : State) : Reach g s (takeWindowClose ser s) := by
  unfold takeWindowClose
  split
  · exact .single (requestWindow_act _ s)
  · split
    · exact closeListed_reach ser s
    · exact .refl

theorem takeTally_reach (y : Nat) (ser : Serial) (c : Tally) (s : State) : Reach g s (takeTally y ser c s) := by
  unfold takeTally
  split
  · exact recordTally_reach ser y c s
  · unfold takePassingTally
    split
    · exact .refl
    · split
      · exact closeListed_reach ser s
      · exact .refl

theorem takeProbeEnd_reach (c e : Nat) (v : Verdict) (s : State) (hlive : g.live) :
    Reach g s (takeProbeEnd c e v s) := by
  unfold takeProbeEnd
  split
  · exact .refl
  · repeat' split
    · exact .tail (.single (.learnHop _ hlive)) (watchFilter_act _ _)
    · exact .single (watchFilter_act _ _)
    · exact .refl

theorem takeSighting_reach (items : List Item) (s : State)
    (hitems : g.stations → ∀ i ∈ items, stationOk i.record.station = true) : Reach g s (takeSighting items s) :=
  Reach.foldl _ _ fun t x hx => offerItem_reach x t fun hg => .inl (hitems hg x hx)

theorem takeStray_reach (c head : Nat) (s : State) : Reach g s (takeStray c head s) := by
  unfold takeStray
  split
  · exact .single (.requestAudit _ _ _ (by decide))
  · exact .refl

/-! ### Commands served (R174) -/

/-- The sequence numbers that a search for a free one has passed are all listed. -/
theorem listed_of_freeSequence (k : Nat) : ∀ n, (findWindow s ⟨s.own, freeSequence s k n⟩).isSome = true →
    ∀ i < k, (n + 1 + i) % 256 ∈ s.windows.list.map (·.serial.seq) := by
  have hlisted (n : Nat) (h : (findWindow s ⟨s.own, n⟩).isSome = true) :
      n ∈ s.windows.list.map (·.serial.seq) := by
    obtain ⟨w, hw⟩ := Option.isSome_iff_exists.1 h
    have hser : w.serial = ⟨s.own, n⟩ := by simpa using List.find?_some hw
    exact List.mem_map.2 ⟨w, List.mem_of_find?_eq_some hw, by rw [hser]⟩
  induction k with
  | zero => exact fun _ _ i hi => absurd hi (Nat.not_lt_zero i)
  | succ k ih =>
    intro n h i hi
    rw [freeSequence] at h
    split at h
    · have hnext := ih _ h
      cases i with
      | zero =>
        cases k with
        | zero =>
          rw [freeSequence] at h
          simpa using hlisted _ h
        | succ k =>
          rw [freeSequence] at h
          split at h
          · rename_i hsome
            simpa using hlisted _ hsome
          · rename_i hnone
            exact absurd h hnone
      | succ i =>
        have := hnext i (by omega)
        rwa [show ((n + 1) % 256 + 1 + i) % 256 = (n + 1 + (i + 1)) % 256 by omega] at this
    · rename_i hnone
      exact absurd h hnone

/-- With room in the list the next sequence number is free (R90): of nine numbers tried eight would be listed. -/
theorem findWindow_nextSequence (s : State) (hroom : windowsFull s = false) :
    findWindow s ⟨s.own, nextSequence s⟩ = none := by
  rw [← Option.not_isSome_iff_eq_none]
  intro h
  have hlisted := listed_of_freeSequence 8 s.windows.seq h
  have hnd : ((List.range 8).map fun i => (s.windows.seq + 1 + i) % 256).Nodup := by
    refine List.Nodup.map_on (fun i hi j hj hij => ?_) List.nodup_range
    rw [List.mem_range] at hi hj
    omega
  have hsub : ((List.range 8).map fun i => (s.windows.seq + 1 + i) % 256) ⊆ s.windows.list.map (·.serial.seq) := by
    intro x hx
    obtain ⟨i, hi, rfl⟩ := List.mem_map.1 hx
    exact hlisted i (List.mem_range.1 hi)
  have hlen := (hnd.subperm hsub).length_le
  simp only [List.length_map, List.length_range] at hlen
  have hlt : s.windows.list.length + waitingOpens s < Config.windowCapacity := by simpa [windowsFull] using hroom
  rw [Config.windowCapacity] at hlt
  omega

theorem openWindow_reach (ser : Serial) (scope : PortSet) (s : State) (hnew : findWindow s ser = none)
    (hroom : windowsFull s = false) : Reach g s (openWindow ser scope s) :=
  .tail (.trans (.single (.windowOpened ser scope hnew hroom)) (placeHolds_reach ser scope _))
    (requestWindow_act _ _)

/-- A command that is served changes the blocks, and is answered at the end. -/
def Served (g : Grain) (s t : State) : Prop := ∃ v, Reach g s v ∧ Answered v t

theorem answer_served (c : Instr) (r : Reply) (h : Reach g s r.state) : Served g s (answer c r) :=
  ⟨r.state, h, .respond _ _⟩

theorem gate_served {c : Instr} {inPassive : Bool} {serve : State → State}
    (h : s.runState = .running ∨ inPassive = true → Served g s (serve s)) : Served g s (gate c inPassive serve s) := by
  unfold gate
  split
  · exact ⟨s, .refl, .silent s⟩
  · rename_i hrun
    exact h (.inl hrun)
  · split
    · rename_i hpassive
      exact h (.inr hpassive)
    · exact answer_served c _ .refl

theorem flags_act (x : ControlPort)
    (hsame : (x.queue, x.reportNumber, x.response, x.reportHeld) =
      (s.ctl.queue, s.ctl.reportNumber, s.ctl.response, s.ctl.reportHeld)) : Reach g s (s.setCtl x) :=
  .single (.flags x hsame)

theorem serveOpenWindow_reach (scope : PortSet) (s : State) : Reach g s (serveOpenWindow scope s).state := by
  unfold serveOpenWindow
  repeat' split
  · exact .refl
  · exact .refl
  · exact .refl
  · rename_i hroom
    have hfree : windowsFull s = false := by simpa using hroom
    exact openWindow_reach _ scope s (findWindow_nextSequence s hfree) hfree

theorem serveCloseWindow_reach (q code : Nat) (s : State) : Reach g s (serveCloseWindow q code s).state := by
  unfold serveCloseWindow
  repeat' split
  · exact .refl
  · exact .refl
  · exact .single (modifyWindow_act _ s)

theorem serveCancelWindow_reach (q : Nat) (s : State) : Reach g s (serveCancelWindow q s).state := by
  unfold serveCancelWindow
  split
  · exact .refl
  · split
    · exact .refl
    · dsimp only
      split
      · exact .tail (cancelWindowEntry_reach _ s) (requestWindow_act _ _)
      · exact cancelWindowEntry_reach _ s

theorem serveRequest_reach (m : Mode) (w : BitVec 16) (s : State) (hm : m ≠ .sweep) :
    Reach g s (serveRequest m w s).state := by
  unfold serveRequest
  repeat' split
  · exact requestAudits_reach _ _ _ hm s
  · exact .refl
  · exact .refl
  · exact .single (.requestAudit _ _ _ hm)

theorem serveSweep_reach (sp : Span) (s : State) (hrun : s.runState = .running) :
    Reach g s (serveSweep sp s).state := by
  unfold serveSweep
  split
  · exact .refl
  · exact .tail (.single (pendAlarm_act _ s)) (.applyAlarm _ _ (.inr (by simpa using hrun)))

theorem serveLoopReset_reach (s : State) (hrun : s.runState = .running)
    (hapart : g.apart → (s.loop.outstanding.map (·.number)).Nodup) : Reach g s (serveLoopReset s).state := by
  unfold serveLoopReset
  split
  · exact ownLoopReset_reach s hrun hapart
  · exact .refl

theorem serveReadPort_served (port : Nat) (s : State) (hrun : s.runState = .running) :
    Served g s (serveReadPort port s) := by
  unfold serveReadPort
  split
  · exact answer_served _ _ .refl
  · exact ⟨s, .refl, .request s port hrun⟩

theorem running_of_gate (h : s.runState = .running ∨ false = true) : s.runState = .running :=
  h.resolve_right Bool.false_ne_true

/-- A command of the gate that is answered with `serve`. -/
theorem gate_answer_served {c : Instr} {inPassive : Bool} (serve : State → Reply)
    (h : s.runState = .running ∨ inPassive = true → Reach g s (serve s).state) :
    Served g s (gate c inPassive (fun s => answer c (serve s)) s) :=
  gate_served fun hgate => answer_served c _ (h hgate)

/-- Every command under the gate. -/
theorem serveHeld_served (c : Instr) (s : State)
    (hapart : g.apart → (s.loop.outstanding.map (·.number)).Nodup) : Served g s (serveHeld c s) := by
  cases c with
  | status => exact gate_answer_served serveStatus fun _ => .refl
  | clearAlerts f => exact gate_answer_served (serveClearAlerts f) fun _ => flags_act _ rfl
  | clearFaults f => exact gate_answer_served (serveClearFaults f) fun _ => flags_act _ rfl
  | setAlertMask f => exact gate_answer_served (serveSetAlertMask f) fun _ => flags_act _ rfl
  | openWindow scope => exact gate_answer_served (serveOpenWindow scope) fun _ => serveOpenWindow_reach scope s
  | closeWindow q code =>
    exact gate_answer_served (serveCloseWindow q.toNat code.toNat) fun _ => serveCloseWindow_reach _ _ s
  | cancelWindow q => exact gate_answer_served (serveCancelWindow q.toNat) fun _ => serveCancelWindow_reach _ s
  | audit w => exact gate_answer_served (serveRequest .routine w) fun _ => serveRequest_reach _ w s (by decide)
  | census w => exact gate_answer_served (serveRequest .census w) fun _ => serveRequest_reach _ w s (by decide)
  | holdAudits => exact gate_answer_served (serveAdmission false) fun _ => .single (.setAdmission false)
  | releaseAudits => exact gate_answer_served (serveAdmission true) fun _ => .single (.setAdmission true)
  | sweep st p =>
    exact gate_answer_served (serveSweep ⟨st.toNat, p.toNat⟩) fun h => serveSweep_reach _ s (running_of_gate h)
  | readReport =>
    exact gate_served (serve := fun s => answer .readReport (serveReadReport s)) fun _ => ⟨s, .refl, .readReport s⟩
  | readCircuit w =>
    refine gate_answer_served (serveReadCircuit w) fun _ => ?_
    unfold serveReadCircuit
    split <;> exact .refl
  | readWindows => exact gate_answer_served serveReadWindows fun _ => .refl
  | readRoster => exact gate_answer_served serveReadRoster fun _ => .refl
  | readPort p => exact gate_served fun h => serveReadPort_served p.toNat s (running_of_gate h)
  | loopReset =>
    exact gate_answer_served serveLoopReset fun h => serveLoopReset_reach s (running_of_gate h) hapart
  | restart => exact answer_served _ _ .refl
  | _ => exact ⟨s, .refl, .silent s⟩

end Sys2Proof.Machine
end

