-- ==== Sys2Proof/Proofs/Rows.lean ====
section
/-! Every row as atomic changes, and the rule for what every step keeps. -/

namespace Sys2Proof.Machine

variable {g : Grain} {s t u : State}

/-- A row: the frame taken, if it is one that comes with the row, not one held through a load; then changes; then, only after a state without a response, the answer. -/
def Row (g : Grain) (c : Instr) (s t : State) : Prop :=
  Reach g s t ∨
    ∃ u w, (u = s ∧ s.runState = .starting ∨ u = intakeCommand c s) ∧ Reach g u w ∧ w.ctl.response = none ∧ Served g w t

theorem row_of_command {c : Instr} (hexec : exec c s = .next (serveHeld c (intakeCommand c s)))
    (hapart : g.apart → (s.loop.outstanding.map (·.number)).Nodup) (h : exec c s = .next t) : Row g c s t := by
  rw [hexec] at h
  cases h
  exact .inr ⟨_, _, .inr rfl, .refl, rfl, serveHeld_served c _ hapart⟩

theorem boot_act (c : Option Instr) (s : State) (hboot : ¬g.live) (hloads : g.loads) :
    Act g s ((powerOn s).setCtl { ctlReset with command := c }) := .boot c hboot hloads

/-- The frames of the Control Port that are served under the gate. -/
theorem execInvalidCommandFrame_row {frame : List Byte} (h : execInvalidCommandFrame frame s = .next t) :
    Row g (.invalidCommandFrame frame) s t := by
  unfold execInvalidCommandFrame at h
  split at h
  · cases h
    exact .inl .refl
  · cases h
    exact .inr ⟨_, _, .inr rfl, .refl, rfl, answer_served _ (refuse _ _) .refl⟩

theorem endLoad_outstanding (bytes : List Byte) (s : State) :
    (endLoad bytes s).loop.outstanding = s.loop.outstanding := by
  unfold endLoad
  dsimp only
  split
  · simp [enterRunning, startServices, markLines]
  · simp [enterPassive]

/-- A held command is served when the load ends (R174, R188). -/
theorem execLoadEnd_row {bytes : List Byte} (hloads : g.loads)
    (hapart : g.apart → (s.loop.outstanding.map (·.number)).Nodup)
    (h : execLoadEnd bytes s = .next t) : Row g (.loadEnd bytes) s t := by
  unfold execLoadEnd at h
  split at h
  case h_1 hstart =>
    cases h
    have hload := endLoad_reach (g := g) bytes s hstart hloads
    unfold servePending
    split
    · rename_i c _ hresponse
      refine .inr ⟨s, endLoad bytes s, .inl ⟨rfl, hstart⟩, hload, hresponse, serveHeld_served c _ fun hg => ?_⟩
      rw [endLoad_outstanding]
      exact hapart hg
    · exact .inl hload
  all_goals
    cases h
    exact .inl .refl

theorem execReadTransaction_reach {n : Nat} (h : execReadTransaction n s = .next t) : Reach g s t := by
  cases h
  exact .single (.readTransaction n)

theorem execCoalescingTimerExpiry_reach (h : execCoalescingTimerExpiry s = .next t) : Reach g s t := by
  unfold execCoalescingTimerExpiry at h
  split at h
  · rename_i due _
    cases h
    exact .tail (.tail (.single (advanceTo_act due s)) (.flags { (advanceTo due s).ctl with coalescing := none } rfl))
      (raiseAlert_act .report _)
  · cases h
    exact .refl

/-! ### Expiries, dwells and launches -/

theorem advanceTo_reach {f : State → State} (due : Nat) (s : State)
    (h : Reach g (advanceTo due s) (f (advanceTo due s))) : Reach g s (f (advanceTo due s)) :=
  .trans (.single (advanceTo_act due s)) h

theorem execReturnTimeout_reach {n : Nat} (h : execReturnTimeout n s = .next t) : Reach g s t := by
  unfold execReturnTimeout at h
  split at h
  · cases h
    exact .refl
  · rename_i o ho
    obtain ⟨hmem, _⟩ := mem_of_findEntry ho
    split at h
    · rename_i hflight
      cases h
      have hin : o ∈ (advanceTo (o.lastSent + Config.returnMs) s).loop.outstanding := by simpa using hmem
      exact advanceTo_reach (f := endAttempt o) _ s
        (endAttempt_reach o _ (fun _ => ⟨o, hin, rfl, by rw [hflight]; decide, rfl⟩) ⟨o, hin, rfl, hflight⟩)
    · cases h
      exact .refl

theorem execLingerEnd_reach {n : Nat} (h : execLingerEnd n s = .next t) : Reach g s t := by
  unfold execLingerEnd at h
  split at h
  · cases h
    exact .refl
  · split at h
    · cases h
      exact advanceTo_reach (f := leaveOutstanding n) _ s (.single (.leave n))
    · cases h
      exact .refl

theorem execSilenceTimeout_reach (hapart : g.apart → (s.loop.outstanding.map (·.number)).Nodup)
    (h : execSilenceTimeout s = .next t) : Reach g s t := by
  unfold execSilenceTimeout at h
  split at h
  · split at h
    · cases h
      exact advanceTo_reach (f := loopDown) _ s (loopDown_reach _ (by simpa using hapart))
    · cases h
      exact .refl
  · cases h
    exact .refl

theorem execDwellEnd_reach {found : List Tag} (h : execDwellEnd found s = .next t) : Reach g s t := by
  unfold execDwellEnd at h
  split at h
  · rename_i d hd
    cases h
    exact endDwell_reach d found s hd
  · cases h
    exact .refl

theorem execWatchExpiry_reach {c : Nat} (h : execWatchExpiry c s = .next t) : Reach g s t := by
  unfold execWatchExpiry at h
  split at h
  · cases h
    exact advanceTo_reach (f := dropWatch c) _ s (.single (watchFilter_act _ _))
  · cases h
    exact .refl

theorem execLossInputAsserted_reach {p : Nat} (hpins : g.pins) (h : execLossInputAsserted p s = .next t) : Reach g s t := by
  unfold execLossInputAsserted at h
  cases h
  split
  · exact .trans (.single (.pins _ hpins)) (monitorAsserted_reach p _)
  · exact .single (.pins _ hpins)

theorem execLossInputReleased_reach {p : Nat} (hpins : g.pins) (h : execLossInputReleased p s = .next t) : Reach g s t := by
  unfold execLossInputReleased at h
  cases h
  split
  · exact .trans (.single (.pins _ hpins)) (monitorReleased_reach p _)
  · exact .single (.pins _ hpins)

theorem execHoldOffExpiry_reach {p : Nat} (h : execHoldOffExpiry p s = .next t) : Reach g s t := by
  unfold execHoldOffExpiry at h
  split at h
  · cases h
    exact advanceTo_reach (f := enterLoss p) _ s (enterLoss_reach p _)
  · cases h
    exact advanceTo_reach (f := enterClear p) _ s (enterClear_reach p _)
  all_goals
    cases h
    exact .refl

theorem execDeadlineExpiry_reach {i : Nat} (h : execDeadlineExpiry i s = .next t) : Reach g s t := by
  unfold execDeadlineExpiry at h
  split at h
  · cases h
    exact .refl
  · rename_i p hp
    split at h
    · rename_i hphase _
      cases h
      refine advanceTo_reach (f := evaluate i) _ s (evaluate_reach i p _ ?_ (by rw [hphase]; decide))
      simpa [probeAt] using hp
    · cases h
      exact .refl

theorem execSettleTimerExpiry_reach {seq : Nat} (h : execSettleTimerExpiry seq s = .next t) : Reach g s t := by
  unfold execSettleTimerExpiry at h
  split at h
  · cases h
    exact .refl
  · split at h
    · cases h
      exact .trans (.tail (.single (advanceTo_act _ s)) (modifyWindow_act _ _)) (leaveSettling_reach _ _)
    all_goals
      cases h
      exact .refl

theorem execBaseLaunch_reach (h : execBaseLaunch s = .next t) : Reach g s t := by
  unfold execBaseLaunch at h
  split at h
  · rename_i i m c hchoice
    cases h
    exact .single (.baseLaunch i m c hchoice)
  · cases h
    exact .refl

theorem execSweepLaunch_reach (h : execSweepLaunch s = .next t) : Reach g s t := by
  unfold execSweepLaunch at h
  split at h
  · rename_i i id c hchoice
    cases h
    exact .single (.sweepLaunch i id c hchoice)
  · cases h
    exact .refl

/-! ### The dispatch rows -/

/-- What is known of the state where a row begins. -/
structure Grain.Starts (g : Grain) (s : State) : Prop where
  live     : s.loop.receive ≠ [] → g.live
  stations : g.stations → ∀ a ∈ s.loop.receive, a.stationsOk = true
  apart    : g.apart → (s.loop.outstanding.map (·.number)).Nodup

theorem stationOk_of_sighting {a : Received} {items : List Item} (hpay : a.payload = .sighting items)
    (ha : a.stationsOk = true) : ∀ i ∈ items, stationOk i.record.station = true := by
  rw [Received.stationsOk, hpay, Bool.and_eq_true, List.all_eq_true] at ha
  exact ha.2

/-- The changes a dispatch row makes for its notice. -/
def Dispatches (g : Grain) (s : State) (act : Received → Option (State → State)) : Prop :=
  ∀ a rest f, s.loop.receive = a :: rest → act a = some f → Reach g s (f (popOldest s))

theorem reach_of_dispatch {act : Received → Option (State → State)} (hact : Dispatches g s act)
    (h : Host.Outcome.next (dispatchOldest act s) = (.next t : Host.Outcome State Fault Refusal)) : Reach g s t := by
  cases h
  exact dispatchOldest_reach act s hact

theorem Grain.Starts.live_of_cons (hs : g.Starts s) {a : Received} {rest : List Received}
    (ha : s.loop.receive = a :: rest) : g.live := hs.live (by rw [ha]; exact List.cons_ne_nil _ _)

theorem execJoinDispatch_reach (h : execJoinDispatch s = .next t) : Reach g s t := by
  refine reach_of_dispatch (fun a rest f ha hf => ?_) h
  split at hf
  · cases hf
    exact popOldest_reach _ (takeJoin_reach _ _ (recordedAdvert_grade _ _) _)
  · cases hf

theorem execPresentDispatch_reach (h : execPresentDispatch s = .next t) : Reach g s t := by
  refine reach_of_dispatch (fun a rest f ha hf => ?_) h
  split at hf
  · cases hf
    exact popOldest_reach _ (takePresent_reach _ _ (recordedAdvert_grade _ _) _)
  · cases hf

theorem execWindowOpenDispatch_reach (h : execWindowOpenDispatch s = .next t) : Reach g s t := by
  refine reach_of_dispatch (fun a rest f ha hf => ?_) h
  split at hf
  · rename_i hpay
    cases hf
    exact takeWindowOpen_reach ha hpay
  · cases hf

theorem execWindowCancelDispatch_reach (h : execWindowCancelDispatch s = .next t) : Reach g s t := by
  refine reach_of_dispatch (fun a rest f ha hf => ?_) h
  split at hf
  · cases hf
    refine popOldest_reach (takeWindowCancel _) ?_
    unfold takeWindowCancel
    split
    · exact cancelWindowEntry_reach _ _
    · exact .refl
  · cases hf

theorem execWindowCloseDispatch_reach (h : execWindowCloseDispatch s = .next t) : Reach g s t := by
  refine reach_of_dispatch (fun a rest f ha hf => ?_) h
  split at hf
  · cases hf
    exact popOldest_reach _ (takeWindowClose_reach _ _)
  · cases hf

theorem execTallyDispatch_reach (h : execTallyDispatch s = .next t) : Reach g s t := by
  refine reach_of_dispatch (fun a rest f ha hf => ?_) h
  split at hf
  · cases hf
    exact popOldest_reach _ (takeTally_reach _ _ _ _)
  · cases hf

theorem execProbeStartDispatch_reach (h : execProbeStartDispatch s = .next t) : Reach g s t := by
  refine reach_of_dispatch (fun a rest f ha hf => ?_) h
  split at hf
  · rename_i c e m d hpay
    cases hf
    exact .trans (.single (.watchStart a rest c e m d ha hpay)) (duplicateHead_reach _ _)
  · cases hf

theorem execSightingDispatch_reach (hs : g.Starts s) (h : execSightingDispatch s = .next t) : Reach g s t := by
  refine reach_of_dispatch (fun a rest f ha hf => ?_) h
  split at hf
  · rename_i items hpay
    cases hf
    exact popOldest_reach _ (takeSighting_reach _ _ fun hg =>
      stationOk_of_sighting hpay (hs.stations hg a (by rw [ha]; exact List.mem_cons_self)))
  · cases hf

theorem execProbeEndDispatch_reach (hs : g.Starts s) (h : execProbeEndDispatch s = .next t) : Reach g s t := by
  refine reach_of_dispatch (fun a rest f ha hf => ?_) h
  split at hf
  · cases hf
    exact popOldest_reach _ (takeProbeEnd_reach _ _ _ _ (hs.live_of_cons ha))
  · cases hf

theorem execStrayDispatch_reach (h : execStrayDispatch s = .next t) : Reach g s t := by
  refine reach_of_dispatch (fun a rest f ha hf => ?_) h
  split at hf
  · cases hf
    exact popOldest_reach _ (takeStray_reach _ _ _)
  · cases hf

theorem execSpanAlarmDispatch_reach (hs : g.Starts s) (h : execSpanAlarmDispatch s = .next t) : Reach g s t := by
  refine reach_of_dispatch (fun a rest f ha hf => ?_) h
  split at hf
  · cases hf
    exact popOldest_reach (applyAlarm _ .loss) (.single (.applyAlarm _ _ (.inl (hs.live_of_cons ha))))
  · cases hf
    exact popOldest_reach (applyAlarm _ .test) (.single (.applyAlarm _ _ (.inl (hs.live_of_cons ha))))
  · cases hf

theorem execSpanAlarmRestoreDispatch_reach (h : execSpanAlarmRestoreDispatch s = .next t) : Reach g s t := by
  refine reach_of_dispatch (fun a rest f ha hf => ?_) h
  split at hf
  · cases hf
    exact popOldest_reach (takeRestore _) (requestAudits_reach _ _ _ (by decide) _)
  · cases hf

theorem execLoopResetDispatch_reach (hs : g.Starts s) (h : execLoopResetDispatch s = .next t) : Reach g s t := by
  refine reach_of_dispatch (fun a rest f ha hf => ?_) h
  split at hf
  · cases hf
    exact popOldest_reach takeLoopReset (takeLoopReset_reach _ hs.apart)
  · cases hf

/-! ### Every row -/

theorem rowGrain_starts {c : Instr} (verdicts resets : Bool) (hc : loads c = false) :
    (rowGrain c s verdicts resets).Starts s :=
  ⟨fun h => ⟨h, hc⟩, id, id⟩

/-- A row is a frame taken, changes made one after the other, and at most one answer. -/
theorem exec_row {c : Instr} (verdicts resets : Bool) (h : exec c s = .next t) :
    Row (rowGrain c s verdicts resets) c s t := by
  cases c with
  | powerOn =>
    cases h
    exact .inl (.single (boot_act none s (by simp [rowGrain, loads]) rfl))
  | restart =>
    cases h
    exact .inl (.single (boot_act (some .restart) s (by simp [rowGrain, loads]) rfl))
  | loadEnd bytes => exact execLoadEnd_row rfl id h
  | invalidCommandFrame frame => exact execInvalidCommandFrame_row h
  | readTransaction n => exact .inl (execReadTransaction_reach h)
  | noticeReceived bytes => exact .inl (execNoticeReceived_reach bytes h)
  | idleFillReceived => exact .inl (execIdleFillReceived_reach h)
  | transmitComplete => exact .inl (execTransmitComplete_reach h)
  | insertionPlaceGrant => exact .inl (execInsertionPlaceGrant_reach h)
  | returnTimeout n => exact .inl (execReturnTimeout_reach h)
  | lingerEnd n => exact .inl (execLingerEnd_reach h)
  | silenceTimeout => exact .inl (execSilenceTimeout_reach id h)
  | joinDispatch => exact .inl (execJoinDispatch_reach h)
  | presentDispatch => exact .inl (execPresentDispatch_reach h)
  | windowOpenDispatch => exact .inl (execWindowOpenDispatch_reach h)
  | windowCancelDispatch => exact .inl (execWindowCancelDispatch_reach h)
  | windowCloseDispatch => exact .inl (execWindowCloseDispatch_reach h)
  | tallyDispatch => exact .inl (execTallyDispatch_reach h)
  | probeStartDispatch => exact .inl (execProbeStartDispatch_reach h)
  | sightingDispatch => exact .inl (execSightingDispatch_reach (rowGrain_starts _ _ rfl) h)
  | probeEndDispatch => exact .inl (execProbeEndDispatch_reach (rowGrain_starts _ _ rfl) h)
  | strayDispatch => exact .inl (execStrayDispatch_reach h)
  | spanAlarmDispatch => exact .inl (execSpanAlarmDispatch_reach (rowGrain_starts _ _ rfl) h)
  | spanAlarmRestoreDispatch => exact .inl (execSpanAlarmRestoreDispatch_reach h)
  | loopResetDispatch => exact .inl (execLoopResetDispatch_reach (rowGrain_starts _ _ rfl) h)
  | dwellEnd found => exact .inl (execDwellEnd_reach h)
  | watchExpiry circuit => exact .inl (execWatchExpiry_reach h)
  | lossInputAsserted p => exact .inl (execLossInputAsserted_reach rfl h)
  | lossInputReleased p => exact .inl (execLossInputReleased_reach rfl h)
  | holdOffExpiry p => exact .inl (execHoldOffExpiry_reach h)
  | deadlineExpiry slot => exact .inl (execDeadlineExpiry_reach h)
  | settleTimerExpiry seq => exact .inl (execSettleTimerExpiry_reach h)
  | coalescingTimerExpiry => exact .inl (execCoalescingTimerExpiry_reach h)
  | baseLaunch => exact .inl (execBaseLaunch_reach h)
  | sweepLaunch => exact .inl (execSweepLaunch_reach h)
  | _ => exact row_of_command rfl id h

/-! ### What every step keeps -/

/-- Apart from the clock, the queue of commands, the Control Port, the out-of-turn request, the dwell and the walk,
the states agree. -/
def Quiet (s t : State) : Prop :=
  ∃ pending now choices ctl request dwell walkPort,
    t = { s with
      pending := pending, now := now, choices := choices, ctl := ctl
      scanner := { s.scanner with request := request, dwell := dwell, walkPort := walkPort } }

theorem quiet_setPending (s : State) (x : List Instr) : Quiet s (s.setPending x) :=
  ⟨x, s.now, s.choices, s.ctl, s.scanner.request, s.scanner.dwell, s.scanner.walkPort, rfl⟩

theorem quiet_intakeCommand (c : Instr) (s : State) : Quiet s (intakeCommand c s) :=
  ⟨s.pending, s.now, s.choices, _, _, _, s.scanner.walkPort, rfl⟩

theorem Quiet.refl (s : State) : Quiet s s := quiet_setPending s s.pending

theorem Quiet.trans (h : Quiet s t) (h' : Quiet t u) : Quiet s u := by
  obtain ⟨_, _, _, _, _, _, _, rfl⟩ := h
  obtain ⟨a, b, c, d, e, f, g, rfl⟩ := h'
  exact ⟨a, b, c, d, e, f, g, rfl⟩

theorem quiet_idle (s : State) : Quiet s (idle s) := by
  unfold idle
  split
  · exact ⟨_, _, _, _, _, _, _, rfl⟩
  · exact quiet_setPending s _
  · exact ⟨_, _, _, _, _, _, _, rfl⟩

theorem Answered.quiet (h : Answered s t) : Quiet s t := by
  cases h with
  | silent => exact .refl s
  | respond r => exact ⟨_, _, _, _, _, _, _, rfl⟩
  | readReport =>
    unfold serveReadReport
    dsimp only
    split
    all_goals exact ⟨_, _, _, _, _, _, _, rfl⟩
  | request port => exact ⟨_, _, _, _, _, _, _, rfl⟩

/-- A step is quiet, or it is a row between two quiet changes. -/
theorem step_cases (verdicts resets : Bool) (h : step s = .next t) :
    Quiet s t ∨ ∃ c rest u w, s.pending = c :: rest ∧ (u = s.setPending rest ∨ u = intakeCommand c (s.setPending rest)) ∧
      Reach (rowGrain c (s.setPending rest) verdicts resets) u w ∧ Quiet w t := by
  unfold step at h
  split at h
  · rename_i c rest hpending
    refine .inr ?_
    rcases exec_row verdicts resets h with hreach | ⟨u, w, hu, hreach, _, v, hserve, hanswer⟩
    · exact ⟨c, rest, _, t, hpending, .inl rfl, hreach, .refl t⟩
    · exact ⟨c, rest, u, v, hpending, hu.imp_left And.left, hreach.trans hserve, hanswer.quiet⟩
  · cases h
    exact .inl (quiet_idle s)

/-- What a property needs so that every step keeps it: quiet changes keep it, a row's changes keep the property `I`
of the states in between, which follows from it at the start. -/
theorem step_keeps {P : State → Prop} (I : Grain → State → Prop) (verdicts resets : Bool)
    (hquiet : ∀ {s t}, Quiet s t → P s → P t)
    (hstart : ∀ c s, P s → I (rowGrain c s verdicts resets) s)
    (hintake : ∀ g c s, I g s → I g (intakeCommand c s))
    (hact : ∀ g u w, g.verdicts = verdicts → g.resets = resets → Act g u w → I g u → I g w)
    (hend : ∀ g s, I g s → P s)
    (hs : P s) (h : step s = .next t) : P t := by
  rcases step_cases verdicts resets h with hq | ⟨c, rest, u, w, _, hu, hreach, hq⟩
  · exact hquiet hq hs
  · refine hquiet hq (hend (rowGrain c (s.setPending rest) verdicts resets) w ?_)
    have hi := hstart c _ (hquiet (quiet_setPending s rest) hs)
    have hu' : I (rowGrain c (s.setPending rest) verdicts resets) u := by
      rcases hu with rfl | rfl
      · exact hi
      · exact hintake _ _ _ hi
    clear hq
    induction hreach with
    | refl => exact hu'
    | tail _ hlast ih => exact hact _ _ _ rfl rfl hlast ih

/-- The same for a property that every change keeps by itself. -/
theorem step_keeps_self {P : State → Prop} (verdicts resets : Bool)
    (hquiet : ∀ {s t}, Quiet s t → P s → P t)
    (hact : ∀ g u w, g.verdicts = verdicts → g.resets = resets → Act g u w → P u → P w)
    (hs : P s) (h : step s = .next t) : P t :=
  step_keeps (fun _ => P) verdicts resets hquiet (fun _ _ h => h) (fun _ c s => hquiet (quiet_intakeCommand c s))
    hact (fun _ _ h => h) hs h

end Sys2Proof.Machine
end

