-- ==== Sys2Proof/Proofs/ActFrames.lean ====
section
/-! What the atomic changes leave as it is. -/

namespace Sys2Proof.Machine

variable {g : Grain} {s t : State}

/-! ### The Loop Port -/

@[simp] theorem fair_fields (l : LoopPort) :
    l.fair.forward = l.forward ∧ l.fair.newNotices = l.newNotices ∧ l.fair.retries = l.retries ∧
    l.fair.outstanding = l.outstanding ∧ l.fair.receive = l.receive ∧ l.fair.number = l.number ∧
    l.fair.up = l.up ∧ l.fair.silence = l.silence ∧ l.fair.quarantine = l.quarantine ∧ l.fair.sending = l.sending := by
  unfold LoopPort.fair
  split <;> simp

@[simp] theorem changeLoop_loop (f : LoopPort → LoopPort) (s : State) : (changeLoop f s).loop = (f s.loop).fair := rfl

@[simp] theorem sendInsertion_keeps (own now : Nat) (l : LoopPort) :
    (sendInsertion own now l).forward = l.forward ∧ (sendInsertion own now l).receive = l.receive ∧
    (sendInsertion own now l).up = l.up ∧ (sendInsertion own now l).silence = l.silence := by
  unfold sendInsertion
  repeat' split
  all_goals simp [sendRetry, sendIdle, sendNew]

@[simp] theorem chooseNext_keeps (own now : Nat) (l : LoopPort) :
    (chooseNext own now l).receive = l.receive ∧ (chooseNext own now l).up = l.up ∧
    (chooseNext own now l).silence = l.silence := by
  unfold chooseNext
  repeat' split
  all_goals simp [sendForward, sendIdle]

@[simp] theorem choosePassive_keeps (l : LoopPort) :
    (choosePassive l).newNotices = l.newNotices ∧ (choosePassive l).retries = l.retries ∧
    (choosePassive l).outstanding = l.outstanding ∧ (choosePassive l).receive = l.receive ∧
    (choosePassive l).number = l.number ∧ (choosePassive l).up = l.up ∧ (choosePassive l).silence = l.silence := by
  unfold choosePassive
  split <;> simp [sendIdle]

@[simp] theorem takeClaim_loop (c : Claim) (s : State) : (takeClaim c s).loop = s.loop := by
  unfold takeClaim
  split <;> simp [takeWindowRequest]

@[simp] theorem noteGrant_windows (r : Request) (s : State) :
    (noteGrant r s).windows.list.map (·.serial) = s.windows.list.map (·.serial) ∧
    (noteGrant r s).windows.seq = s.windows.seq := by
  have hmodify (ser : Serial) {f : Window → Window} (hf : ∀ w, (f w).serial = w.serial) :
      (modifyWindow ser f s).windows.list.map (·.serial) = s.windows.list.map (·.serial) :=
    map_serial_ite ser hf s.windows.list
  unfold noteGrant
  split
  · exact ⟨hmodify _ fun _ => rfl, rfl⟩
  · refine ⟨hmodify _ fun w => ?_, rfl⟩
    split <;> rfl
  · exact ⟨rfl, rfl⟩

@[simp] theorem takeClaim_windows (c : Claim) (s : State) :
    (takeClaim c s).windows.list.map (·.serial) = s.windows.list.map (·.serial) ∧
    (takeClaim c s).windows.seq = s.windows.seq := by
  unfold takeClaim
  split <;> simp [takeWindowRequest]

@[simp] theorem takeClaim_roster (c : Claim) (s : State) :
    (takeClaim c s).roster.entries = s.roster.entries ∧ (takeClaim c s).roster.joined = s.roster.joined ∧
    (takeClaim c s).roster.grade = s.roster.grade ∧ (takeClaim c s).roster.batching = s.roster.batching := by
  unfold takeClaim
  split <;> simp [takeWindowRequest]

@[simp] theorem takeClaim_probes (c : Claim) (s : State) : (takeClaim c s).probes.slots = s.probes.slots := by
  unfold takeClaim
  split <;> simp [takeWindowRequest]

@[simp] theorem grant_keeps (c : Claim) (s : State) :
    (grant c s).windows.list.map (·.serial) = s.windows.list.map (·.serial) ∧
    (grant c s).windows.seq = s.windows.seq ∧
    (grant c s).roster.entries = s.roster.entries ∧ (grant c s).roster.joined = s.roster.joined ∧
    (grant c s).roster.grade = s.roster.grade ∧ (grant c s).roster.batching = s.roster.batching ∧
    (grant c s).probes.slots = s.probes.slots := by
  unfold grant
  simp

@[simp] theorem grant_loop (c : Claim) (s : State) :
    (grant c s).loop = { s.loop with newNotices := s.loop.newNotices ++ [claimNotice s c] }.fair := by
  unfold grant
  simp

@[simp] theorem modifyEntry_loop (n : Nat) (f : Outstanding → Outstanding) (s : State) :
    (modifyEntry n f s).loop = LoopPort.fair { s.loop with
      outstanding := s.loop.outstanding.map fun o => if o.number = n then f o else o } := rfl

@[simp] theorem leaveOutstanding_loop (n : Nat) (s : State) :
    (leaveOutstanding n s).loop = LoopPort.fair { s.loop with
      outstanding := s.loop.outstanding.filter fun o => !(o.number == n && o.over s.now) } := rfl

@[simp] theorem linger_loop (n : Nat) (s : State) :
    (linger n s).loop = LoopPort.fair { s.loop with
      retries := s.loop.retries.erase n
      outstanding := s.loop.outstanding.map fun o =>
        if o.number = n then { o with standing := .lingering } else o } := rfl

@[simp] theorem waitRetry_loop (n : Nat) (s : State) :
    (waitRetry n s).loop = LoopPort.fair { s.loop with
      retries := s.loop.retries ++ [n]
      outstanding := s.loop.outstanding.map fun o =>
        if o.number = n then { o with standing := .retryWaiting } else o } := rfl

@[simp] theorem forwardCopy_loop (c : Copy) (s : State) :
    (forwardCopy c s).loop = { s.loop with forward := s.loop.forward ++ [c] } := rfl

@[simp] theorem enqueueReceived_loop (x m : Nat) (p : Payload) (s : State) :
    (enqueueReceived x m p s).loop = { s.loop with receive := s.loop.receive ++ [⟨x, m, p, s.now⟩] } := rfl

@[simp] theorem popOldest_loop (s : State) :
    (popOldest s).loop = { s.loop with receive := s.loop.receive.tail } := rfl

@[simp] theorem popOldest_keeps (s : State) :
    (popOldest s).windows = s.windows ∧ (popOldest s).scanner = s.scanner ∧ (popOldest s).roster = s.roster ∧
    (popOldest s).ctl = s.ctl ∧ (popOldest s).image = s.image ∧ (popOldest s).runState = s.runState ∧
    (popOldest s).hops = s.hops ∧ (popOldest s).paths = s.paths ∧ (popOldest s).lines = s.lines ∧
    (popOldest s).probes = s.probes ∧ (popOldest s).sched = s.sched ∧ (popOldest s).now = s.now :=
  ⟨rfl, rfl, rfl, rfl, rfl, rfl, rfl, rfl, rfl, rfl, rfl, rfl⟩

/-! ### The other long changes -/

@[simp] theorem loadFlags_ctl (f : LoadFinding) (s : State) :
    (loadFlags f s).ctl.queue = s.ctl.queue ∧ (loadFlags f s).ctl.reportNumber = s.ctl.reportNumber ∧
    (loadFlags f s).ctl.response = s.ctl.response ∧ (loadFlags f s).ctl.reportHeld = s.ctl.reportHeld := by
  unfold loadFlags setFault raiseAlert
  dsimp only
  split
  all_goals
    split
    all_goals simp

@[simp] theorem loadTaken_keeps (bytes : List Byte) (s : State) :
    (loadTaken bytes s).windows = s.windows ∧ (loadTaken bytes s).scanner = s.scanner ∧
    (loadTaken bytes s).probes = s.probes ∧ (loadTaken bytes s).now = s.now ∧
    (loadTaken bytes s).ctl.queue = s.ctl.queue ∧ (loadTaken bytes s).ctl.reportNumber = s.ctl.reportNumber ∧
    (loadTaken bytes s).ctl.response = s.ctl.response ∧ (loadTaken bytes s).ctl.reportHeld = s.ctl.reportHeld ∧
    (loadTaken bytes s).loop = { s.loop with sending := .idleFill } := by
  unfold loadTaken
  dsimp only
  split
  · simp [startServices, markLines]
  · simp [enterPassive]

@[simp] theorem joinedRoster_keeps (s : State) :
    (joinedRoster s).windows = s.windows ∧ (joinedRoster s).scanner = s.scanner ∧
    (joinedRoster s).image = s.image ∧ (joinedRoster s).runState = s.runState ∧
    (joinedRoster s).hops = s.hops ∧ (joinedRoster s).paths = s.paths ∧ (joinedRoster s).lines = s.lines ∧
    (joinedRoster s).sched = s.sched ∧ (joinedRoster s).loop = s.loop := by
  simp [joinedRoster]

@[simp] theorem queueReset_keeps (s : State) :
    (queueReset s).windows = s.windows ∧ (queueReset s).scanner = s.scanner ∧ (queueReset s).roster = s.roster ∧
    (queueReset s).ctl = s.ctl ∧ (queueReset s).image = s.image ∧ (queueReset s).runState = s.runState ∧
    (queueReset s).hops = s.hops ∧ (queueReset s).paths = s.paths ∧ (queueReset s).lines = s.lines ∧
    (queueReset s).probes = s.probes ∧ (queueReset s).sched = s.sched := by
  simp [queueReset]

@[simp] theorem queueReset_loop (s : State) :
    (queueReset s).loop = { s.loop with
      receive := s.loop.receive.filter fun r => !(r.payload.cleared || r.payload.kind == 12)
      newNotices := [⟨.loopReset, .own⟩]
      fairness := 0
      quarantine := true } := rfl

@[simp] theorem clearSlots_loop (s : State) :
    (clearSlots s).loop = LoopPort.fair { s.loop with
      newNotices := s.loop.newNotices.filter (!·.payload.ofProbe) } := by
  simp [clearSlots]

end Sys2Proof.Machine
end

