-- ==== Sys2Proof/Proofs/InvWindows.lean ====
section
/-! Reservations: every notice taken for the window list or the watch list finds its place (R30, R31, R89, R94). -/

namespace Sys2Proof.Machine

variable {g : Grain} {s t : State}

/-! ### The window list -/

theorem waitingSerials_length (s : State) : (waitingSerials s).length = waitingOpens s := by
  unfold waitingSerials waitingOpens
  induction s.loop.receive with
  | nil => rfl
  | cons a l ih =>
    rw [List.filterMap_cons, List.countP_cons]
    cases hp : a.payload <;> simp [ih, Payload.kind]

theorem not_mem_serials {ser : Serial} (h : findWindow s ser = none) : ser ∉ s.windows.list.map (·.serial) := by
  unfold findWindow at h
  simpa [List.find?_eq_none] using h

theorem mem_serials {ser : Serial} {w : Window} (h : findWindow s ser = some w) :
    ser ∈ s.windows.list.map (·.serial) := by
  have hser : w.serial = ser := by simpa using List.find?_some h
  exact List.mem_map.2 ⟨w, List.mem_of_find?_eq_some h, hser⟩

/-- Fewer serials listed and waiting. -/
theorem windowsOk_of_sublist
    (hserials : (t.windows.list.map (·.serial)).Sublist (s.windows.list.map (·.serial)))
    (hreceive : t.loop.receive.Sublist s.loop.receive) (hseq : t.windows.seq = s.windows.seq)
    (h : WindowsOk s) : WindowsOk t := by
  obtain ⟨hnodup, hcard, hlt⟩ := h
  refine ⟨hnodup.sublist hserials, le_trans (Finset.card_le_card fun x hx => ?_) hcard, hseq ▸ hlt⟩
  rw [List.mem_toFinset, List.mem_append] at hx ⊢
  exact hx.imp (hserials.subset ·) ((hreceive.filterMap _).subset ·)

/-- A listed serial joins with its place reserved by the count of listed and waiting ones. -/
theorem windowsOk_of_opened {ser : Serial} {scope : PortSet} (hnew : findWindow s ser = none)
    (hroom : windowsFull s = false) (h : WindowsOk s) :
    WindowsOk (s.setWindows { s.windows with
      seq := (ser.seq + 1) % 256, list := s.windows.list ++ [newWindow ser scope] }) := by
  obtain ⟨hnodup, _, _⟩ := h
  have hserials : (s.windows.list ++ [newWindow ser scope]).map (·.serial) =
      s.windows.list.map (·.serial) ++ [ser] := by simp [newWindow]
  have hlt : s.windows.list.length + waitingOpens s < Config.windowCapacity := by simpa [windowsFull] using hroom
  refine ⟨?_, ?_, Nat.mod_lt _ (by decide)⟩
  · simp only [State.setWindows_fields, hserials]
    exact hnodup.append (List.nodup_singleton ser) (by simpa using not_mem_serials hnew)
  · simp only [State.setWindows_fields, hserials]
    refine (List.toFinset_card_le _).trans ?_
    have hwait : (waitingSerials (s.setWindows { s.windows with
        seq := (ser.seq + 1) % 256, list := s.windows.list ++ [newWindow ser scope] })).length = waitingOpens s :=
      waitingSerials_length s
    rw [List.length_append, hwait, List.length_append, List.length_map, List.length_singleton]
    omega

/-- A waiting serial becomes a listed one. -/
theorem windowsOk_of_received {a : Received} {rest : List Received} {ser : Serial} {scope : PortSet}
    (hreceive : s.loop.receive = a :: rest) (hpayload : a.payload = .windowOpen ser scope)
    (hnew : findWindow s ser = none) (h : WindowsOk s) :
    WindowsOk ((popOldest s).setWindows { s.windows with list := s.windows.list ++ [newWindow ser scope] }) := by
  obtain ⟨hnodup, hcard, hlt⟩ := h
  have hserials : (s.windows.list ++ [newWindow ser scope]).map (·.serial) =
      s.windows.list.map (·.serial) ++ [ser] := by simp [newWindow]
  have hwaits : waitingSerials s = ser :: waitingSerials (popOldest s) := by
    simp [waitingSerials, hreceive, hpayload]
  refine ⟨?_, ?_, hlt⟩
  · simp only [State.setWindows_fields, hserials]
    exact hnodup.append (List.nodup_singleton ser) (by simpa using not_mem_serials hnew)
  · rw [hwaits] at hcard
    simp only [State.setWindows_fields, hserials]
    rw [List.append_assoc]
    exact hcard

/-- A WINDOW OPEN is taken while its serial is listed, or while the lists have room (R94). -/
theorem windowsOk_of_enqueued {x m : Nat} {p : Payload} (hcapacity : refusesCapacity s p = false)
    (h : WindowsOk s) : WindowsOk (enqueueReceived x m p s) := by
  obtain ⟨hnodup, hcard, hlt⟩ := h
  refine ⟨hnodup, ?_, hlt⟩
  have hsame (hp : p.kind ≠ 3) : waitingSerials (enqueueReceived x m p s) = waitingSerials s := by
    simp only [waitingSerials, enqueueReceived_loop, List.filterMap_append]
    cases p <;> simp_all [Payload.kind]
  cases hp : p with
  | windowOpen ser scope =>
    have hwaits : waitingSerials (enqueueReceived x m (.windowOpen ser scope) s) = waitingSerials s ++ [ser] := by
      simp [waitingSerials, List.filterMap_append]
    have hlist : (enqueueReceived x m (.windowOpen ser scope) s).windows = s.windows := rfl
    rw [hwaits, hlist]
    cases hfind : findWindow s ser with
    | some w =>
      refine le_trans (Finset.card_le_card fun y hy => ?_) hcard
      have hmem := mem_serials hfind
      simp only [List.mem_toFinset, List.mem_append, List.mem_singleton] at hy ⊢
      rcases hy with hy | hy | rfl
      · exact .inl hy
      · exact .inr hy
      · exact .inl hmem
    | none =>
      rw [hp] at hcapacity
      have hroom : s.windows.list.length + waitingOpens s < Config.windowCapacity := by
        simpa [refusesCapacity, hfind, windowsFull] using hcapacity
      refine (List.toFinset_card_le _).trans ?_
      have hwait := waitingSerials_length s
      rw [List.length_append, List.length_append, List.length_map, List.length_singleton]
      omega
  | _ =>
    rw [← hp, hsame (by simp [hp, Payload.kind])]
    exact hcard

theorem windowsOk_act (hpieces : g.verdicts = true) (hresets : g.resets = true) (hact : Act g s t)
    (h : WindowsOk s) : WindowsOk t := by
  cases hact with
  | boot c => exact ⟨List.nodup_nil, Nat.zero_le _, Nat.zero_lt_succ 255⟩
  | windows x hlist hseq => exact windowsOk_of_sublist hlist (.refl _) hseq h
  | windowOpened ser scope hnew hroom => exact windowsOk_of_opened hnew hroom h
  | windowReceived a rest ser scope hreceive hpayload hnew => exact windowsOk_of_received hreceive hpayload hnew h
  | popOldest => exact windowsOk_of_sublist (s := s) (.refl _) (List.tail_sublist _) rfl h
  | watchStart => exact windowsOk_of_sublist (s := s) (.refl _) (List.tail_sublist _) rfl h
  | enqueueReceived x m p _ hcapacity => exact windowsOk_of_enqueued hcapacity h
  | queueReset => exact windowsOk_of_sublist (s := s) (.refl _) List.filter_sublist rfl h
  | evaluate i p hwhole => simp [hpieces] at hwhole
  | evaluateWithdrawn i p hwhole => simp [hpieces] at hwhole
  | resetLoopOwn hwhole => simp [hresets] at hwhole
  | _ => exact windowsOk_of_sublist (by simp) (by simp) (by simp) h

theorem windowsOk_quiet (hq : Quiet s t) (h : WindowsOk s) : WindowsOk t := by
  obtain ⟨_, _, _, _, _, _, _, rfl⟩ := hq
  exact h

theorem windowsOk_step (h : WindowsOk s) (hstep : step s = .next t) : WindowsOk t :=
  step_keeps_self true true windowsOk_quiet (fun _ _ _ hv hr => windowsOk_act hv hr) h hstep

/-! ### The watch list -/

theorem waitingStarts_length (s : State) :
    (waitingStarts s).length = s.loop.receive.countP (·.payload.kind == 7) := by
  unfold waitingStarts
  induction s.loop.receive with
  | nil => rfl
  | cons a l ih =>
    rw [List.filterMap_cons, List.countP_cons]
    cases hp : a.payload <;> simp [ih, Payload.kind]

/-- The circuits of the list with an entry put: the others', and its own. -/
theorem mem_putWatch_circuit (l : List WatchEntry) (e : WatchEntry) (c : Nat)
    (h : c ∈ (putWatch l e).map (·.circuit)) : c = e.circuit ∨ c ∈ l.map (·.circuit) := by
  induction l with
  | nil => simpa [putWatch] using h
  | cons w l ih =>
    unfold putWatch at h
    split at h
    · rw [List.map_cons, List.mem_cons] at h ⊢
      rcases h with h | h
      · exact .inr (.inl h)
      · exact (ih h).imp_right .inr
    · split at h
      · rw [List.map_cons, List.mem_cons] at h ⊢
        exact h.imp_right .inr
      · rw [List.map_cons, List.mem_cons] at h
        exact h

theorem putWatch_pairwise (l : List WatchEntry) (e : WatchEntry) (h : (l.map (·.circuit)).Pairwise (· < ·)) :
    ((putWatch l e).map (·.circuit)).Pairwise (· < ·) := by
  induction l with
  | nil => simp [putWatch]
  | cons w l ih =>
    rw [List.map_cons, List.pairwise_cons] at h
    obtain ⟨hw, hl⟩ := h
    unfold putWatch
    split
    · rename_i hlt
      rw [List.map_cons, List.pairwise_cons]
      refine ⟨fun c hc => ?_, ih hl⟩
      rcases mem_putWatch_circuit l e c hc with rfl | hc
      · exact hlt
      · exact hw c hc
    · split
      · rename_i heq
        rw [List.map_cons, List.pairwise_cons]
        exact ⟨heq ▸ hw, hl⟩
      · rename_i hlt hne
        have hgt : e.circuit < w.circuit := by omega
        rw [List.map_cons, List.map_cons, List.pairwise_cons, List.pairwise_cons]
        refine ⟨fun c hc => ?_, hw, hl⟩
        rcases List.mem_cons.1 hc with rfl | hc
        · exact hgt
        · exact hgt.trans (hw c hc)

/-- The scanner's lists within their capacities, with fewer circuits watched and waiting. -/
theorem scannerOk_of_subset (hwatch : (t.scanner.watch.map (·.circuit)).Pairwise (· < ·))
    (hsubset : t.scanner.watch.map (·.circuit) ++ waitingStarts t ⊆ s.scanner.watch.map (·.circuit) ++ waitingStarts s)
    (hbacklog : t.scanner.backlog.length ≤ max s.scanner.backlog.length Config.backlogCapacity)
    (hstrays : t.scanner.strays.length ≤ max s.scanner.strays.length Config.strayCapacity)
    (hmonitors : t.scanner.monitors.length = s.scanner.monitors.length) (h : ScannerOk s) : ScannerOk t := by
  obtain ⟨_, hcard, hb, hst, hm⟩ := h
  refine ⟨hwatch, le_trans (Finset.card_le_card fun c hc => ?_) hcard, ?_, ?_, hmonitors.trans hm⟩
  · rw [List.mem_toFinset] at hc ⊢
    exact hsubset hc
  · omega
  · omega

theorem scannerOk_of_sublist (hwatch : (t.scanner.watch.map (·.circuit)).Sublist (s.scanner.watch.map (·.circuit)))
    (hreceive : t.loop.receive.Sublist s.loop.receive)
    (hbacklog : t.scanner.backlog.length ≤ max s.scanner.backlog.length Config.backlogCapacity)
    (hstrays : t.scanner.strays.length ≤ max s.scanner.strays.length Config.strayCapacity)
    (hmonitors : t.scanner.monitors.length = s.scanner.monitors.length) (h : ScannerOk s) : ScannerOk t :=
  scannerOk_of_subset (h.1.sublist hwatch)
    (List.append_subset.2 ⟨fun _ hc => List.mem_append_left _ (hwatch.subset hc),
      fun _ hc => List.mem_append_right _ ((hreceive.filterMap _).subset hc)⟩) hbacklog hstrays hmonitors h

theorem scannerOk_of_same (hscanner : t.scanner = s.scanner) (hreceive : t.loop.receive = s.loop.receive)
    (h : ScannerOk s) : ScannerOk t :=
  scannerOk_of_sublist (by rw [hscanner]) (by rw [hreceive]) (by rw [hscanner]; exact le_max_left _ _)
    (by rw [hscanner]; exact le_max_left _ _) (by rw [hscanner]) h

/-- A PROBE START is taken while the lists have room for its circuit (R31). -/
theorem scannerOk_of_enqueued {x m : Nat} {p : Payload} (hcapacity : refusesCapacity s p = false)
    (h : ScannerOk s) : ScannerOk (enqueueReceived x m p s) := by
  obtain ⟨hsorted, hcard, hbacklog, hstrays, hmonitors⟩ := h
  refine ⟨hsorted, ?_, hbacklog, hstrays, hmonitors⟩
  have hsame (hp : p.kind ≠ 7) : waitingStarts (enqueueReceived x m p s) = waitingStarts s := by
    simp only [waitingStarts, enqueueReceived_loop, List.filterMap_append]
    cases p <;> simp_all [Payload.kind]
  cases hp : p with
  | probeStart c e md d =>
    have hwaits : waitingStarts (enqueueReceived x m (.probeStart c e md d) s) = waitingStarts s ++ [c] := by
      simp [waitingStarts, List.filterMap_append]
    have hscanner : (enqueueReceived x m (.probeStart c e md d) s).scanner = s.scanner := rfl
    rw [hwaits, hscanner]
    rw [hp] at hcapacity
    have hroom : s.scanner.watch.length + s.loop.receive.countP (·.payload.kind == 7) < Config.watchCapacity := by
      simpa [refusesCapacity, canWatch] using hcapacity
    refine (List.toFinset_card_le _).trans ?_
    have hwait := waitingStarts_length s
    rw [List.length_append, List.length_append, List.length_map, List.length_singleton]
    omega
  | _ =>
    rw [← hp, hsame (by simp [hp, Payload.kind])]
    exact hcard

/-- A waiting circuit becomes a watched one. -/
theorem scannerOk_of_watchStart {a : Received} {rest : List Received} {c e d : Nat} {m : Mode}
    (hreceive : s.loop.receive = a :: rest) (hpayload : a.payload = .probeStart c e m d) (h : ScannerOk s) :
    ScannerOk (writeWatch (watchOf c e a.originator m d a.receivedAt) (popOldest s)) := by
  have hwaits : waitingStarts s = c :: waitingStarts (popOldest s) := by
    simp [waitingStarts, hreceive, hpayload]
  refine scannerOk_of_subset (s := s) (putWatch_pairwise _ _ h.1) (List.append_subset.2 ⟨fun x hx => ?_, fun x hx => ?_⟩)
    (le_max_left _ _) (le_max_left _ _) rfl h
  · rcases mem_putWatch_circuit _ _ x hx with rfl | hx
    · rw [hwaits]
      simp
    · exact List.mem_append_left _ hx
  · rw [hwaits]
    exact List.mem_append_right _ (List.mem_cons_of_mem _ hx)

theorem scannerOk_of_reportPort {w : WatchEntry} {p : Nat} (hw : w ∈ s.scanner.watch) (h : ScannerOk s) :
    ScannerOk (reportPort w p s) := by
  refine scannerOk_of_subset (s := s) (putWatch_pairwise _ _ h.1) (List.append_subset.2 ⟨fun x hx => ?_, fun x hx => ?_⟩)
    (le_max_left _ _) (le_max_left _ _) rfl h
  · refine List.mem_append_left _ ?_
    rcases mem_putWatch_circuit _ _ x hx with rfl | hx
    · exact List.mem_map.2 ⟨w, hw, rfl⟩
    · exact hx
  · exact List.mem_append_right _ hx

/-- A grant takes from the scanner's lists. -/
theorem grant_scanner (c : Claim) (s : State) :
    (grant c s).scanner.watch = s.scanner.watch ∧ (grant c s).scanner.monitors = s.scanner.monitors ∧
    (grant c s).scanner.backlog.length ≤ s.scanner.backlog.length ∧
    (grant c s).scanner.strays.length ≤ s.scanner.strays.length := by
  unfold grant takeClaim
  split <;> simp [changeScanner, takeWindowRequest]

theorem scannerOk_of_grant (c : Claim) (h : ScannerOk s) : ScannerOk (grant c s) := by
  obtain ⟨hwatch, hmonitors, hbacklog, hstrays⟩ := grant_scanner c s
  exact scannerOk_of_sublist (by rw [hwatch]) (by simp) (le_max_of_le_left hbacklog) (le_max_of_le_left hstrays)
    (by rw [hmonitors]) h

theorem scannerOk_quiet (hq : Quiet s t) (h : ScannerOk s) : ScannerOk t := by
  obtain ⟨_, _, _, _, _, _, _, rfl⟩ := hq
  exact h

theorem quiet_beginDwell (s : State) : Quiet s (beginDwell s) := by
  unfold beginDwell
  split
  · exact ⟨_, _, _, _, _, _, _, rfl⟩
  · split
    · exact ⟨_, _, _, _, _, _, _, rfl⟩
    · exact .refl s

theorem scannerOk_act (hpieces : g.verdicts = true) (hresets : g.resets = true) (hact : Act g s t)
    (h : ScannerOk s) : ScannerOk t := by
  cases hact with
  | boot c => exact ⟨List.Pairwise.nil, Nat.zero_le _, Nat.zero_le _, Nat.zero_le _, rfl⟩
  | scan x _ hwatch hbacklog hstrays hmonitors =>
    exact scannerOk_of_sublist hwatch (.refl _) hbacklog hstrays hmonitors h
  | reportPort w p hw => exact scannerOk_of_reportPort hw h
  | beginDwell => exact scannerOk_quiet (quiet_beginDwell s) h
  | watchStart a rest c e m d hreceive hpayload => exact scannerOk_of_watchStart hreceive hpayload h
  | windowReceived => exact scannerOk_of_sublist (s := s) (.refl _) (List.tail_sublist _) (le_max_left _ _) (le_max_left _ _) rfl h
  | popOldest => exact scannerOk_of_sublist (s := s) (.refl _) (List.tail_sublist _) (le_max_left _ _) (le_max_left _ _) rfl h
  | enqueueReceived x m p _ hcapacity => exact scannerOk_of_enqueued hcapacity h
  | queueReset => exact scannerOk_of_sublist (s := s) (.refl _) List.filter_sublist (le_max_left _ _) (le_max_left _ _) rfl h
  | grant c => exact scannerOk_of_grant c h
  | evaluate i p hwhole => simp [hpieces] at hwhole
  | evaluateWithdrawn i p hwhole => simp [hpieces] at hwhole
  | resetLoopOwn hwhole => simp [hresets] at hwhole
  | _ => exact scannerOk_of_same (by simp) (by simp) h

theorem scannerOk_step (h : ScannerOk s) (hstep : step s = .next t) : ScannerOk t :=
  step_keeps_self true true scannerOk_quiet (fun _ _ _ hv hr => scannerOk_act hv hr) h hstep

/-- Settles O8, by the room that each taken notice has reserved. -/
theorem reservationsAlwaysFindRoom : Obligations.ReservationsAlwaysFindRoom :=
  ⟨fun _ _ => windowsOk_step, fun _ _ => scannerOk_step⟩

end Sys2Proof.Machine
end

