-- ==== Sys2Proof/Proofs/InvLoop.lean ====
section
/-! The collections of the Loop Port keep their capacities (R144, R150, R153). -/

namespace Sys2Proof.Machine

variable {g : Grain} {s t : State}

/-- A dispatch happens in RUNNING alone: what a row knows of the run state while it runs. -/
theorem live_act (hact : Act g s t) (h : g.live → s.runState = .running) : g.live → t.runState = .running := by
  intro hg
  cases hact with
  | boot c hboot => exact absurd hg hboot
  | load bytes hstart => simp [hstart] at h; exact absurd hg h
  | _ => simpa using h hg

/-- The collections hold no more than before, and the loop is UP or DOWN as before. -/
structure LoopPort.Fewer (l l' : LoopPort) : Prop where
  forward     : l'.forward.length ≤ l.forward.length
  newNotices  : l'.newNotices.length ≤ l.newNotices.length
  retries     : l'.retries.length ≤ l.retries.length
  outstanding : l'.outstanding.length ≤ l.outstanding.length
  receive     : l'.receive.length ≤ l.receive.length
  up          : l'.up = l.up
  silence     : l'.silence = l.silence

theorem eq_nil_of_fewer {α β : Type} {l : List α} {l' : List β} (hlen : l'.length ≤ l.length) (hnil : l = []) : l' = [] := by
  rw [hnil] at hlen
  exact List.length_eq_zero_iff.1 (Nat.le_zero.1 hlen)

theorem collectionsOk_of_fewer (hrun : t.runState = s.runState) (hf : s.loop.Fewer t.loop) (h : CollectionsOk s) :
    CollectionsOk t := by
  obtain ⟨hforward, hnew, hreceive, hout, hup, hbypass, hquiet⟩ := h
  refine ⟨hf.forward.trans hforward, hf.newNotices.trans hnew, hf.receive.trans hreceive,
    hf.outstanding.trans hout, ?_, fun hstart => ?_, fun hne => ?_⟩
  · rw [hf.up, hf.silence, hup]
  · obtain ⟨h1, h2, h3, h4, h5, h6⟩ := hbypass (hrun ▸ hstart)
    exact ⟨eq_nil_of_fewer hf.forward h1, eq_nil_of_fewer hf.newNotices h2, eq_nil_of_fewer hf.retries h3,
      eq_nil_of_fewer hf.outstanding h4, eq_nil_of_fewer hf.receive h5, hf.up.trans h6⟩
  · exact eq_nil_of_fewer hf.receive (hquiet (hrun ▸ hne))

/-- Outside bypass: the capacities, and nothing received unless RUNNING. -/
theorem collectionsOk_of_capacities (hstart : t.runState ≠ .starting) (hforward : t.loop.forward.length ≤ 8)
    (hnew : t.loop.newNotices.length ≤ 8) (hreceive : t.loop.receive.length ≤ 8)
    (hout : t.loop.outstanding.length ≤ 8) (hup : t.loop.up = t.loop.silence.isSome)
    (hquiet : t.runState ≠ .running → t.loop.receive = []) : CollectionsOk t :=
  ⟨hforward, hnew, hreceive, hout, hup, fun h => absurd h hstart, hquiet⟩

/-! ### The transmitter -/

/-- A new notice is sent only while the outstanding list has room for it (R148). -/
theorem numberFree_of_sent {l : LoopPort} (hmay : mayInsert l = true) (hretries : l.retries = []) :
    l.numberFree = true := by
  simp only [mayInsert, LoopPort.headSendable, hretries, Bool.and_eq_true, Bool.or_eq_true] at hmay
  obtain ⟨⟨_, hsend⟩, _⟩ := hmay
  rcases hsend with hsend | ⟨_, hfree⟩
  · simp at hsend
  · exact hfree

theorem sendInsertion_lengths (own now : Nat) (l : LoopPort) (hmay : mayInsert l = true)
    (hout : l.outstanding.length ≤ 8) :
    (sendInsertion own now l).newNotices.length ≤ l.newNotices.length ∧
      (sendInsertion own now l).outstanding.length ≤ 8 := by
  unfold sendInsertion
  split
  · split
    · simpa [sendRetry] using hout
    · simpa [sendIdle] using hout
  · rename_i hretries
    split
    · rename_i r rest hnew
      have hfree := numberFree_of_sent hmay hretries
      rw [LoopPort.numberFree, Bool.and_eq_true, decide_eq_true_eq] at hfree
      have hlt : l.outstanding.length < 8 := hfree.1
      simp only [sendNew, hnew, List.length_append, List.length_cons, List.length_nil]
      omega
    · simpa [sendIdle] using hout

theorem chooseNext_lengths (own now : Nat) (l : LoopPort) (hout : l.outstanding.length ≤ 8) :
    (chooseNext own now l).forward.length ≤ l.forward.length ∧
    (chooseNext own now l).newNotices.length ≤ l.newNotices.length ∧
      (chooseNext own now l).outstanding.length ≤ 8 := by
  unfold chooseNext
  split
  · rename_i c rest hforward
    split
    · rename_i hdue
      rw [insertionDue, Bool.and_eq_true] at hdue
      simpa using sendInsertion_lengths own now l hdue.1 hout
    · simpa [sendForward, hforward] using hout
  · split
    · rename_i hmay
      simpa using sendInsertion_lengths own now l hmay hout
    · simpa [sendIdle] using hout

theorem choosePassive_fewer (l : LoopPort) : l.Fewer (choosePassive l) := by
  refine ⟨?_, by simp, by simp, by simp, by simp, by simp, by simp⟩
  unfold choosePassive
  split <;> simp_all [sendIdle]

/-! ### Every change -/

theorem collectionsOk_act (hpieces : g.verdicts = true) (hresets : g.resets = true) (hact : Act g s t)
    (h : CollectionsOk s) : CollectionsOk t := by
  have hcaps := h
  obtain ⟨hforward, hnew, hreceive, hout, hup, hbypass, hquiet⟩ := hcaps
  cases hact with
  | boot c => exact ⟨Nat.zero_le _, Nat.zero_le _, Nat.zero_le _, Nat.zero_le _, rfl,
      fun _ => ⟨rfl, rfl, rfl, rfl, rfl, rfl⟩, fun _ => rfl⟩
  | load bytes hstart =>
    have hempty := hbypass hstart
    obtain ⟨_, _, _, _, hnone, _⟩ := hbypass hstart
    refine ⟨?_, ?_, ?_, ?_, ?_, fun _ => ?_, fun _ => ?_⟩
    all_goals simpa
  | enqueueReceived x m p hrun _ hroom =>
    refine collectionsOk_of_capacities (by simp [enqueueReceived, hrun]) hforward hnew ?_ hout hup ?_
    · have hlt : s.loop.receive.length < 8 := hroom
      simpa using hlt
    · simp [enqueueReceived, hrun]
  | reception hstart =>
    exact collectionsOk_of_capacities (by simpa using hstart) (by simpa using hforward) (by simpa using hnew)
      (by simpa using hreceive) (by simpa using hout) (by simp) (by simpa using hquiet)
  | forwardCopy c hstart hroom =>
    have hlt : s.loop.forward.length < 8 := hroom
    exact collectionsOk_of_capacities hstart (by simpa using hlt) hnew hreceive hout hup hquiet
  | down =>
    refine ⟨by simpa using hforward, by simpa using hnew, by simpa using hreceive, by simpa using hout, by simp,
      fun hstart => ?_, by simpa using hquiet⟩
    obtain ⟨h1, h2, h3, h4, h5, _⟩ := hbypass (by simpa using hstart)
    simp [LoopPort.bypassed, h1, h2, h3, h4, h5]
  | transmit hrun =>
    obtain ⟨hf, hn, ho⟩ := chooseNext_lengths s.own s.now s.loop hout
    refine collectionsOk_of_capacities (by simp [hrun]) ?_ ?_ (by simpa using hreceive) ?_ (by simpa using hup)
      (by simp [hrun])
    · simpa using hf.trans hforward
    · simpa using hn.trans hnew
    · simpa using ho
  | transmitPassive => exact collectionsOk_of_fewer (by simp) (choosePassive_fewer _) h
  | grant c hfree =>
    rw [placeFree, Bool.and_eq_true, decide_eq_true_eq, beq_iff_eq] at hfree
    obtain ⟨hrun, hroom⟩ := hfree
    have hlt : s.loop.newNotices.length < 8 := hroom
    exact collectionsOk_of_capacities (by simp [hrun]) (by simpa using hforward) (by simpa using hlt)
      (by simpa using hreceive) (by simpa using hout) (by simpa using hup) (by simp [hrun])
  | waitRetry o hmem =>
    refine ⟨by simpa using hforward, by simpa using hnew, by simpa using hreceive, by simpa using hout,
      by simpa using hup, fun hstart => ?_, by simpa using hquiet⟩
    obtain ⟨_, _, _, hnone, _, _⟩ := hbypass (by simpa using hstart)
    rw [hnone] at hmem
    cases hmem
  | queueReset _ hrun =>
    refine collectionsOk_of_capacities (by simp [hrun]) hforward ?_ ?_ hout hup (by simp [hrun])
    · simp [queueReset]
    · exact (List.length_filter_le _ _).trans hreceive
  | linger n =>
    exact collectionsOk_of_fewer (by simp) (by constructor <;> simp [List.length_erase_le]) h
  | joined n =>
    exact collectionsOk_of_fewer (by simp) (by constructor <;> simp [List.length_erase_le]) h
  | evaluate i p hwhole => simp [hpieces] at hwhole
  | evaluateWithdrawn i p hwhole => simp [hpieces] at hwhole
  | resetLoopOwn hwhole => simp [hresets] at hwhole
  | _ => exact collectionsOk_of_fewer (by simp) (by constructor <;> simp [List.length_filter_le]) h

theorem collectionsOk_quiet (hq : Quiet s t) (h : CollectionsOk s) : CollectionsOk t := by
  obtain ⟨_, _, _, _, _, _, _, rfl⟩ := hq
  exact h

theorem collectionsOk_step (h : CollectionsOk s) (hstep : step s = .next t) : CollectionsOk t :=
  step_keeps_self true true collectionsOk_quiet (fun _ _ _ hv hr => collectionsOk_act hv hr) h hstep

end Sys2Proof.Machine
end

