-- ==== Sys2Proof/Proofs/InvNumbers.lean ====
section
/-! The outstanding notices keep different numbers, the oldest at most 32 back, and the retry copies are those of the
entries that wait for one (R148, R151). -/

namespace Sys2Proof.Machine

variable {g : Grain} {s t : State} {l l' : LoopPort}

/-! ### The clauses, as properties of the Loop Port -/

/-- How many numbers a number lies before the own notice number. -/
def LoopPort.back (l : LoopPort) (n : Nat) : Nat := (l.number + 256 - n) % 256

/-- The numbers of the outstanding notices, oldest first. -/
def LoopPort.numbers (l : LoopPort) : List Nat := l.outstanding.map (·.number)

/-- Numbers in the order sent, and every retry copy of an entry that waits for it. -/
structure LoopPort.Numbered (l : LoopPort) : Prop where
  number  : l.number < 256
  order   : (l.numbers.map l.back).Pairwise (· > ·)
  range   : ∀ n ∈ l.numbers, n < 256 ∧ 1 ≤ l.back n ∧ l.back n ≤ 32
  once    : l.retries.Nodup
  retries : ∀ n ∈ l.retries, ∃ o ∈ l.outstanding, o.number = n ∧ o.standing = .retryWaiting

/-- Every entry that waits for a retry has its copy in the queue. -/
def LoopPort.Queued (l : LoopPort) : Prop :=
  ∀ o ∈ l.outstanding, o.standing = .retryWaiting → o.number ∈ l.retries

theorem numbersOk_iff (s : State) : NumbersOk s ↔ s.loop.Numbered ∧ s.loop.Queued := by
  have hages : s.loop.outstanding.map s.loop.age = s.loop.numbers.map s.loop.back := by
    rw [LoopPort.numbers, List.map_map]
    rfl
  constructor
  · rintro ⟨hnumber, horder, hrange, honce, hretries, hqueued⟩
    refine ⟨⟨hnumber, hages ▸ horder, fun n hn => ?_, honce, hretries⟩, hqueued⟩
    obtain ⟨o, ho, rfl⟩ := List.mem_map.1 hn
    exact hrange o ho
  · rintro ⟨⟨hnumber, horder, hrange, honce, hretries⟩, hqueued⟩
    exact ⟨hnumber, hages ▸ horder, fun o ho => hrange o.number (List.mem_map_of_mem ho), honce, hretries, hqueued⟩

theorem LoopPort.Numbered.nodup (h : l.Numbered) : l.numbers.Nodup :=
  .of_map l.back (h.order.imp fun hgt => (Nat.ne_of_lt hgt).symm)

theorem LoopPort.Numbered.eq_of_number (h : l.Numbered) {o x : Outstanding} (ho : o ∈ l.outstanding)
    (hx : x ∈ l.outstanding) (hn : x.number = o.number) : x = o :=
  List.inj_on_of_nodup_map h.nodup hx ho hn

/-! ### Changes that keep them -/

/-- Fewer numbers, with every retry copy still waited for. -/
theorem LoopPort.Numbered.of_sublist (h : l.Numbered) (hnumber : l'.number = l.number)
    (hsub : l'.numbers.Sublist l.numbers) (honce : l'.retries.Nodup)
    (hretries : ∀ n ∈ l'.retries, ∃ o ∈ l'.outstanding, o.number = n ∧ o.standing = .retryWaiting) :
    l'.Numbered := by
  have hback : l'.back = l.back := by
    funext n
    rw [LoopPort.back, LoopPort.back, hnumber]
  refine ⟨hnumber ▸ h.number, ?_, fun n hn => ?_, honce, hretries⟩
  · rw [hback]
    exact h.order.sublist (hsub.map _)
  · rw [hback]
    exact h.range n (hsub.subset hn)

theorem map_number_ite (n : Nat) {f : Outstanding → Outstanding} (hf : ∀ o, (f o).number = o.number)
    (os : List Outstanding) : (os.map fun o => if o.number = n then f o else o).map (·.number) = os.map (·.number) := by
  rw [List.map_map]
  refine List.map_congr_left fun o _ => ?_
  rw [Function.comp_apply]
  split
  · exact hf o
  · rfl

/-- One entry changed, with no retry copy of it left. -/
theorem LoopPort.Numbered.of_entry (h : l.Numbered) (n : Nat) {f : Outstanding → Outstanding}
    (hf : ∀ o, (f o).number = o.number) (hnumber : l'.number = l.number)
    (hout : l'.outstanding = l.outstanding.map fun o => if o.number = n then f o else o)
    (hretries : l'.retries.Sublist l.retries) (hgone : n ∉ l'.retries) : l'.Numbered := by
  refine h.of_sublist hnumber ?_ (h.once.sublist hretries) fun k hk => ?_
  · rw [LoopPort.numbers, hout, map_number_ite n hf]
    exact .refl _
  · obtain ⟨o, ho, hok, hst⟩ := h.retries k (hretries.subset hk)
    refine ⟨o, ?_, hok, hst⟩
    rw [hout]
    exact List.mem_map.2 ⟨o, ho, if_neg fun hn => hgone (by rwa [← hn, hok])⟩

/-- An entry that no longer waits has lost its copy alone. -/
theorem LoopPort.Queued.of_entry (h : l.Queued) (n : Nat) {f : Outstanding → Outstanding}
    (hf : ∀ o, (f o).standing ≠ .retryWaiting)
    (hout : l'.outstanding = l.outstanding.map fun o => if o.number = n then f o else o)
    (hretries : ∀ k ∈ l.retries, k ≠ n → k ∈ l'.retries) : l'.Queued := by
  intro x hx hst
  rw [hout] at hx
  obtain ⟨o, ho, rfl⟩ := List.mem_map.1 hx
  split at hst
  · exact absurd hst (hf o)
  · rename_i hne
    rw [if_neg hne]
    exact hretries _ (h o ho hst) hne

/-- A mark of a returned copy changes neither number nor standing. -/
theorem LoopPort.Numbered.of_same (h : l.Numbered) {f : Outstanding → Outstanding}
    (hf : ∀ o, (f o).number = o.number ∧ (f o).standing = o.standing) (hnumber : l'.number = l.number)
    (hout : l'.outstanding = l.outstanding.map f) (hretries : l'.retries = l.retries) : l'.Numbered := by
  refine h.of_sublist hnumber ?_ (hretries ▸ h.once) fun k hk => ?_
  · rw [LoopPort.numbers, hout, List.map_map]
    have hnumbers : (·.number) ∘ f = Outstanding.number := funext fun o => (hf o).1
    rw [hnumbers]
    exact .refl _
  · rw [hretries] at hk
    obtain ⟨o, ho, hok, hst⟩ := h.retries k hk
    exact ⟨f o, hout ▸ List.mem_map_of_mem ho, (hf o).1.trans hok, (hf o).2.trans hst⟩

theorem LoopPort.Queued.of_same (h : l.Queued) {f : Outstanding → Outstanding}
    (hf : ∀ o, (f o).number = o.number ∧ (f o).standing = o.standing)
    (hout : l'.outstanding = l.outstanding.map f) (hretries : l'.retries = l.retries) : l'.Queued := by
  intro x hx hst
  rw [hout] at hx
  obtain ⟨o, ho, rfl⟩ := List.mem_map.1 hx
  rw [hretries, (hf o).1]
  exact h o ho ((hf o).2 ▸ hst)

/-- Entries that do not wait for a retry leave. -/
theorem LoopPort.Numbered.of_filter (h : l.Numbered) {q : Outstanding → Bool}
    (hq : ∀ o, o.standing = .retryWaiting → q o = true) (hnumber : l'.number = l.number)
    (hout : l'.outstanding = l.outstanding.filter q) (hretries : l'.retries = l.retries) : l'.Numbered := by
  refine h.of_sublist hnumber ?_ (hretries ▸ h.once) fun k hk => ?_
  · rw [LoopPort.numbers, hout]
    exact List.filter_sublist.map _
  · rw [hretries] at hk
    obtain ⟨o, ho, hok, hst⟩ := h.retries k hk
    exact ⟨o, hout ▸ List.mem_filter.2 ⟨ho, hq o hst⟩, hok, hst⟩

theorem LoopPort.Queued.of_filter (h : l.Queued) {q : Outstanding → Bool}
    (hout : l'.outstanding = l.outstanding.filter q) (hretries : l'.retries = l.retries) : l'.Queued := by
  intro x hx hst
  rw [hout] at hx
  rw [hretries]
  exact h x (List.mem_filter.1 hx).1 hst

/-- A retry copy joins the queue for an entry that was in flight (R151). -/
theorem LoopPort.Numbered.of_waiting (h : l.Numbered) {o : Outstanding} (ho : o ∈ l.outstanding)
    (hflight : o.standing = .inFlight) (hnumber : l'.number = l.number)
    (hout : l'.outstanding =
      l.outstanding.map fun x => if x.number = o.number then { x with standing := .retryWaiting } else x)
    (hretries : l'.retries = l.retries ++ [o.number]) : l'.Numbered := by
  have hnew : o.number ∉ l.retries := by
    intro hin
    obtain ⟨x, hx, hn, hst⟩ := h.retries _ hin
    rw [h.eq_of_number ho hx hn, hflight] at hst
    cases hst
  refine h.of_sublist hnumber ?_ ?_ fun k hk => ?_
  · rw [LoopPort.numbers, hout, map_number_ite o.number (f := fun x => { x with standing := .retryWaiting }) fun _ => rfl]
    exact .refl _
  · rw [hretries]
    exact h.once.append (List.nodup_singleton _) (by simpa using hnew)
  · rw [hretries, List.mem_append, List.mem_singleton] at hk
    rw [hout]
    rcases hk with hk | rfl
    · obtain ⟨x, hx, hn, hst⟩ := h.retries k hk
      refine ⟨_, List.mem_map_of_mem hx, ?_⟩
      split
      · exact ⟨hn, rfl⟩
      · exact ⟨hn, hst⟩
    · exact ⟨_, List.mem_map_of_mem ho, by rw [if_pos rfl]; exact ⟨rfl, rfl⟩⟩

theorem LoopPort.Queued.of_waiting (h : l.Queued) {o : Outstanding}
    (hout : l'.outstanding =
      l.outstanding.map fun x => if x.number = o.number then { x with standing := .retryWaiting } else x)
    (hretries : l'.retries = l.retries ++ [o.number]) : l'.Queued := by
  intro y hy hst
  rw [hout] at hy
  obtain ⟨x, hx, rfl⟩ := List.mem_map.1 hy
  rw [hretries, List.mem_append, List.mem_singleton]
  split at hst
  · rename_i hn
    exact .inr (by rw [if_pos hn]; exact hn)
  · rename_i hn
    rw [if_neg hn]
    exact .inl (h x hx hst)

/-! ### The transmitter (R148, R151) -/

/-- One number further, the outstanding ones lie one number further back. -/
theorem back_succ {n k : Nat} (hn : n < 256) (hk : k < 256) (hback : (n + 256 - k) % 256 ≤ 31) :
    ((n + 1) % 256 + 256 - k) % 256 = (n + 256 - k) % 256 + 1 := by omega

/-- The oldest notice lies 31 numbers back at most, and the later ones less. -/
theorem back_le_of_numberFree (h : l.Numbered) (hfree : l.numberFree = true) : ∀ n ∈ l.numbers, l.back n ≤ 31 := by
  rw [LoopPort.numberFree, Bool.and_eq_true] at hfree
  obtain ⟨_, hfirst⟩ := hfree
  have horder := h.order
  unfold LoopPort.numbers at horder ⊢
  cases hout : l.outstanding with
  | nil => simp
  | cons o os =>
    rw [hout] at hfirst horder
    have hle : l.back o.number ≤ 31 := of_decide_eq_true hfirst
    rw [List.map_cons, List.map_cons, List.pairwise_cons] at horder
    intro n hn
    rcases List.mem_cons.1 hn with rfl | hn
    · exact hle
    · exact (Nat.le_of_lt (horder.1 _ (List.mem_map_of_mem hn))).trans hle

theorem numbered_sendNew (own now : Nat) (r : Request) (rest : List Request) (h : l.Numbered)
    (hfree : l.numberFree = true) (hretries : l.retries = []) : (sendNew own now r rest l).Numbered := by
  have hnumber := h.number
  have hle := back_le_of_numberFree h hfree
  have hsucc (n : Nat) (hn : n ∈ l.numbers) : (sendNew own now r rest l).back n = l.back n + 1 :=
    back_succ hnumber (h.range n hn).1 (hle n hn)
  have hself : (sendNew own now r rest l).back l.number = 1 := by
    simp only [LoopPort.back, sendNew]
    omega
  have hnumbers : (sendNew own now r rest l).numbers = l.numbers ++ [l.number] := by
    simp [LoopPort.numbers, sendNew, firstSent]
  have hbacks : (sendNew own now r rest l).numbers.map (sendNew own now r rest l).back =
      (l.numbers.map l.back).map (· + 1) ++ [1] := by
    rw [hnumbers, List.map_append, List.map_map, List.map_congr_left hsucc, List.map_singleton, hself]
    rfl
  refine ⟨Nat.mod_lt _ (by decide), ?_, fun n hn => ?_, ?_, ?_⟩
  · rw [hbacks, List.pairwise_append]
    refine ⟨List.pairwise_map.2 (h.order.imp fun hgt => Nat.succ_lt_succ hgt), List.pairwise_singleton _ _, ?_⟩
    intro b hb c hc
    obtain ⟨a, ha, rfl⟩ := List.mem_map.1 hb
    obtain ⟨n, hn, rfl⟩ := List.mem_map.1 ha
    rw [List.mem_singleton] at hc
    have := (h.range n hn).2.1
    omega
  · rw [hnumbers, List.mem_append, List.mem_singleton] at hn
    rcases hn with hn | rfl
    · rw [hsucc n hn]
      obtain ⟨hlt, hone, _⟩ := h.range n hn
      have := hle n hn
      exact ⟨hlt, by omega, by omega⟩
    · rw [hself]
      exact ⟨hnumber, by decide, by decide⟩
  · simp [sendNew, hretries]
  · simp [sendNew, hretries]

theorem queued_sendNew (own now : Nat) (r : Request) (rest : List Request) (h : l.Queued) :
    (sendNew own now r rest l).Queued := by
  intro o ho hst
  rcases List.mem_append.1 ho with ho | ho
  · exact h o ho hst
  · rw [List.mem_singleton.1 ho] at hst
    cases hst

theorem sendInsertion_numbered (own now : Nat) (h : l.Numbered) (hmay : mayInsert l = true) :
    (sendInsertion own now l).Numbered ∧ (l.Queued → (sendInsertion own now l).Queued) := by
  unfold sendInsertion
  split
  · rename_i n rest hretries
    have hnd := h.once
    rw [hretries, List.nodup_cons] at hnd
    obtain ⟨hgone, _⟩ := hnd
    obtain ⟨x, hx, hxn, hst⟩ := h.retries n (by rw [hretries]; exact List.mem_cons_self)
    split
    · rename_i o ho
      have hn : o.number = n := by simpa using List.find?_some ho
      have htail : (sendRetry own now o l).retries = rest := by simp [sendRetry, hretries]
      refine ⟨h.of_entry (f := (·.resent now)) o.number (fun _ => rfl) rfl rfl (List.tail_sublist _) ?_,
        fun hq => hq.of_entry (f := (·.resent now)) o.number (fun _ => by simp [Outstanding.resent]) rfl ?_⟩
      · rw [htail, hn]
        exact hgone
      · intro k hk hne
        rw [htail]
        rw [hretries, List.mem_cons] at hk
        exact hk.resolve_left fun h => hne (h.trans hn.symm)
    · rename_i hnone
      rw [List.find?_eq_none] at hnone
      exact absurd (beq_iff_eq.2 hxn) (hnone x hx)
  · rename_i hretries
    split
    · exact ⟨numbered_sendNew own now _ _ h (numberFree_of_sent hmay hretries) hretries, queued_sendNew own now _ _⟩
    · exact ⟨⟨h.number, h.order, h.range, h.once, h.retries⟩, id⟩

theorem chooseNext_numbered (own now : Nat) (h : l.Numbered) :
    (chooseNext own now l).Numbered ∧ (l.Queued → (chooseNext own now l).Queued) := by
  have hkeep (l' : LoopPort) (hn : l'.number = l.number) (ho : l'.outstanding = l.outstanding)
      (hr : l'.retries = l.retries) : l'.Numbered ∧ (l.Queued → l'.Queued) :=
    ⟨h.of_same (f := id) (fun _ => ⟨rfl, rfl⟩) hn (by simpa using ho) hr,
      fun hq => hq.of_same (f := id) (fun _ => ⟨rfl, rfl⟩) (by simpa using ho) hr⟩
  unfold chooseNext
  split
  · split
    · rename_i hdue
      rw [insertionDue, Bool.and_eq_true] at hdue
      exact sendInsertion_numbered own now h hdue.1
    · exact hkeep _ rfl rfl rfl
  · split
    · rename_i hmay
      exact sendInsertion_numbered own now h hmay
    · exact hkeep _ rfl rfl rfl

/-! ### Every change -/

/-- The numbers in order, and the retry copies complete when `whole`: in the middle of the station's own LOOP RESET the
copies are gone before their entries end. -/
def Numbering (whole : Bool) (s : State) : Prop := s.loop.Numbered ∧ (whole = true → s.loop.Queued)

theorem numbering_of_same {whole : Bool} (hnumber : t.loop.number = s.loop.number)
    (hout : t.loop.outstanding = s.loop.outstanding) (hretries : t.loop.retries = s.loop.retries)
    (h : Numbering whole s) : Numbering whole t :=
  ⟨h.1.of_same (f := id) (fun _ => ⟨rfl, rfl⟩) hnumber (by simpa using hout) hretries,
    fun hw => (h.2 hw).of_same (f := id) (fun _ => ⟨rfl, rfl⟩) (by simpa using hout) hretries⟩

theorem numbering_linger {whole : Bool} (n : Nat) (h : Numbering whole s) : Numbering whole (linger n s) := by
  obtain ⟨hn, hq⟩ := h
  have hretries : (linger n s).loop.retries = s.loop.retries.erase n := by simp
  have hout : (linger n s).loop.outstanding =
      s.loop.outstanding.map fun o => if o.number = n then { o with standing := .lingering } else o := by simp
  refine ⟨hn.of_entry n (f := fun o => { o with standing := .lingering }) (fun _ => rfl) (by simp) hout
      (hretries ▸ List.erase_sublist) ?_,
    fun hw => (hq hw).of_entry n (f := fun o => { o with standing := .lingering }) (fun _ => by simp) hout
      fun k hk hne => ?_⟩
  · rw [hretries]
    exact hn.once.not_mem_erase
  · rw [hretries]
    exact (List.mem_erase_of_ne hne).2 hk

theorem numbering_act {whole : Bool} (hpieces : g.verdicts = true) (hwhole : whole = !g.resets)
    (hown : g.resets = false → s.runState = .running → Numbering whole s → Numbering whole (resetLoopOwn s))
    (hact : Act g s t) (h : Numbering whole s) : Numbering whole t := by
  have hcopy := h
  obtain ⟨hn, hq⟩ := hcopy
  cases hact with
  | boot c =>
    refine ⟨⟨Nat.zero_lt_succ 255, List.Pairwise.nil, fun _ hn => absurd hn List.not_mem_nil, List.nodup_nil,
      fun _ hn => absurd hn List.not_mem_nil⟩, fun _ _ ho => absurd ho List.not_mem_nil⟩
  | transmit hrun =>
    obtain ⟨hn', hq'⟩ := chooseNext_numbered s.own s.now hn
    have hsent : Numbering whole (s.setLoop (chooseNext s.own s.now s.loop)) := ⟨hn', fun hw => hq' (hq hw)⟩
    exact numbering_of_same (by simp) (by simp) (by simp) hsent
  | returning n m =>
    have hf (o : Outstanding) : (if o.number = n then o.returning m else o).number = o.number ∧
        (if o.number = n then o.returning m else o).standing = o.standing := by
      split <;> exact ⟨rfl, rfl⟩
    exact ⟨hn.of_same hf (by simp) (by simp) (by simp), fun hw => (hq hw).of_same hf (by simp) (by simp)⟩
  | linger n => exact numbering_linger n h
  | joined n => exact numbering_of_same (by simp) (by simp) (by simp) (numbering_linger n h)
  | leave n =>
    refine ⟨hn.of_filter (q := fun o => !(o.number == n && o.over s.now)) (fun o ho => ?_) (by simp) (by simp) (by simp),
      fun hw => (hq hw).of_filter (q := fun o => !(o.number == n && o.over s.now)) (by simp) (by simp)⟩
    simp [Outstanding.over, ho]
  | waitRetry o hmem hflight =>
    exact ⟨hn.of_waiting hmem hflight (by simp) (by simp) (by simp), fun hw => (hq hw).of_waiting (o := o) (by simp) (by simp)⟩
  | clearQueues hresets =>
    refine ⟨hn.of_sublist rfl (.refl _) List.nodup_nil fun _ hk => absurd hk List.not_mem_nil, fun hw => ?_⟩
    rw [hwhole, hresets] at hw
    cases hw
  | resetLoopOwn hresets hrun => exact hown hresets hrun h
  | evaluate i p hv => simp [hpieces] at hv
  | evaluateWithdrawn i p hv => simp [hpieces] at hv
  | _ => exact numbering_of_same (by simp) (by simp) (by simp) h

theorem numbering_reach {whole : Bool} (hpieces : g.verdicts = true) (hwhole : whole = !g.resets)
    (hresets : g.resets = true) (hreach : Reach g s t) (h : Numbering whole s) : Numbering whole t := by
  induction hreach with
  | refl => exact h
  | tail _ hlast ih => exact numbering_act hpieces hwhole (fun hf => absurd (hresets.symm.trans hf) (by decide)) hlast ih

/-! ### The station's own LOOP RESET (R155) -/

/-- An outcome makes its entry LINGERING and leaves the others. -/
theorem of_mem_giveOutcome {o x : Outstanding} (e : Ending) (hx : x ∈ (giveOutcome o e s).loop.outstanding) :
    x.standing = .lingering ∨ x ∈ s.loop.outstanding ∧ x.number ≠ o.number := by
  unfold giveOutcome at hx
  dsimp only at hx
  rw [leaveOutstanding_loop, (fair_fields _).2.2.2.1] at hx
  have hin := (List.mem_filter.1 hx).1
  rw [(feedOutcome_frame _ _ _ _).2.2.2.2.2.2.2.2.2.2.2.2, handOutcome_outstanding, linger_loop,
    (fair_fields _).2.2.2.1] at hin
  obtain ⟨y, hy, rfl⟩ := List.mem_map.1 hin
  by_cases hn : y.number = o.number
  · exact .inl (by rw [if_pos hn])
  · rw [if_neg hn]
    exact .inr ⟨hy, hn⟩

/-- When every entry ends, only lingering ones remain. -/
theorem lingering_of_endEntries {x : Outstanding} (e : Ending)
    (hx : x ∈ (endEntries e (fun _ => true) s).loop.outstanding) : x.standing = .lingering := by
  have hfold (os : List Outstanding) : ∀ u : State,
      (∀ y ∈ u.loop.outstanding, y.standing = .lingering ∨ y.number ∈ os.map (·.number)) →
      ∀ y ∈ (os.foldl (fun v o => giveOutcome o e v) u).loop.outstanding, y.standing = .lingering := by
    induction os with
    | nil => exact fun u hu y hy => (hu y hy).resolve_right List.not_mem_nil
    | cons o os ih =>
      refine fun u hu => ih _ fun y hy => ?_
      rcases of_mem_giveOutcome e hy with hst | ⟨hin, hne⟩
      · exact .inl hst
      · exact (hu y hin).imp_right fun hmem => (List.mem_cons.1 hmem).resolve_left hne
  refine hfold _ s (fun y hy => ?_) x hx
  by_cases hst : y.standing = .lingering
  · exact .inl hst
  · exact .inr (List.mem_map_of_mem (List.mem_filter.2 ⟨hy, by simp [Outstanding.active, hst]⟩))

/-- The changes of the own LOOP RESET, told piece by piece. -/
def resetGrain : Grain where
  live := False
  apart := False
  stations := False
  loads := False
  pins := False
  verdicts := true
  resets := true

theorem numbering_resetLoopOwn (hrun : s.runState = .running) (h : Numbering true s) :
    Numbering true (resetLoopOwn s) := by
  have hreach : Reach resetGrain s (resetLoopOwn s) := resetLoopOwn_reach s hrun False.elim
  obtain ⟨hn, _⟩ := numbering_reach (whole := false) rfl rfl rfl hreach ⟨h.1, fun hw => absurd hw (by decide)⟩
  refine ⟨hn, fun _ o ho hst => ?_⟩
  rw [lingering_of_endEntries (x := o) .reset ho] at hst
  cases hst

theorem numbersOk_quiet (hq : Quiet s t) (h : NumbersOk s) : NumbersOk t := by
  obtain ⟨_, _, _, _, _, _, _, rfl⟩ := hq
  exact h

theorem numbersOk_act (hpieces : g.verdicts = true) (hresets : g.resets = false) (hact : Act g s t)
    (h : NumbersOk s) : NumbersOk t := by
  rw [numbersOk_iff] at h ⊢
  obtain ⟨hn, hq⟩ := numbering_act (whole := true) hpieces (by rw [hresets]; rfl)
    (fun _ hrun => numbering_resetLoopOwn hrun) hact ⟨h.1, fun _ => h.2⟩
  exact ⟨hn, hq rfl⟩

theorem numbersOk_step (h : NumbersOk s) (hstep : step s = .next t) : NumbersOk t :=
  step_keeps_self true false numbersOk_quiet (fun _ _ _ hv hr => numbersOk_act hv hr) h hstep

/-- Settles O5: every change keeps the capacities, and the numbers in order. -/
theorem loopPortStaysWithinItsLimits : Obligations.LoopPortStaysWithinItsLimits :=
  ⟨fun _ _ => collectionsOk_step, fun _ _ => numbersOk_step⟩

end Sys2Proof.Machine
end

