-- ==== Sys2Proof/Proofs/ImageLoad.lean ====
section
/-! An image that a load takes up: what the field checks know of it (R187, R190, R191). -/

namespace Sys2Proof.Machine

/-! ### Lists with empty places -/

theorem getD_none_eq_some {α : Type} {l : List (Option α)} {i : Nat} {a : α} (h : l.getD i none = some a) :
    ∃ hi : i < l.length, l[i] = some a := by
  by_cases hi : i < l.length
  · exact ⟨hi, by simpa [hi] using h⟩
  · simp [hi] at h

/-- The entries have different keys: no two places the same. -/
theorem keys_nodup_iff {α : Type} (l : List (Option α)) (key : α → Nat) : ((l.filterMap id).map key).Nodup ↔
    ∀ i j a b, l.getD i none = some a → l.getD j none = some b → key a = key b → i = j := by
  rw [List.Nodup, List.pairwise_map, List.pairwise_filterMap, List.pairwise_iff_getElem]
  constructor
  · intro h i j a b ha hb heq
    obtain ⟨hi, ha⟩ := getD_none_eq_some ha
    obtain ⟨hj, hb⟩ := getD_none_eq_some hb
    rcases Nat.lt_trichotomy i j with hlt | heq' | hgt
    · exact absurd heq (h i j hi hj hlt a ha b hb)
    · exact heq'
    · exact absurd heq.symm (h j i hj hi hgt b hb a ha)
  · intro h i j hi hj hlt a ha b hb heq
    rw [id_eq] at ha hb
    have := h i j a b (by simp [hi, ha]) (by simp [hj, hb]) heq
    omega

/-! ### The field checks (R190) -/

theorem mem_fatalSet (im : Image) (f : LoadFault) :
    f ∈ fatalSet im ↔ f ∈ fieldFaults ∧ (faultAt im f).isSome = true := List.mem_filter

theorem repeatsEarlier_iff (im : Image) (key : Originated → Nat) (i : Nat) : repeatsEarlier im key i = true ↔
    ∃ j a b, j < i ∧ im.positions.getD i none = some a ∧ im.positions.getD j none = some b ∧ key a = key b := by
  unfold repeatsEarlier Image.positionAt
  rw [Option.any_eq_true]
  constructor
  · rintro ⟨a, ha, hany⟩
    rw [List.any_eq_true] at hany
    obtain ⟨o, ho, hkey⟩ := hany
    rw [Option.any_eq_true] at hkey
    obtain ⟨b, rfl, hkey⟩ := hkey
    obtain ⟨j, hj, hget⟩ := List.mem_take_iff_getElem.1 ho
    have hlt : j < im.positions.length := by omega
    exact ⟨j, a, b, by omega, ha, by simp [hlt, hget], (beq_iff_eq.1 hkey).symm⟩
  · rintro ⟨j, a, b, hlt, ha, hb, hkey⟩
    refine ⟨a, ha, ?_⟩
    obtain ⟨hj, hb⟩ := getD_none_eq_some hb
    rw [List.any_eq_true]
    refine ⟨some b, ?_, by simp [hkey]⟩
    rw [List.mem_take_iff_getElem]
    exact ⟨j, by omega, hb⟩

/-- A position repeats an earlier one exactly when the entries' values are not all different. -/
theorem firstPosition_repeats (im : Image) (key : Originated → Nat) (hlen : im.positions.length = 32) :
    (firstPosition (repeatsEarlier im key)).isSome = true ↔ ¬(im.originated.map key).Nodup := by
  rw [firstPosition, List.find?_isSome, Image.originated, keys_nodup_iff]
  constructor
  · rintro ⟨i, _, hrep⟩ hall
    obtain ⟨j, a, b, hlt, ha, hb, hkey⟩ := (repeatsEarlier_iff im key i).1 hrep
    have := hall i j a b ha hb hkey
    omega
  · intro h
    push Not at h
    obtain ⟨i, j, a, b, ha, hb, hkey, hne⟩ := h
    obtain ⟨hi, _⟩ := getD_none_eq_some ha
    obtain ⟨hj, _⟩ := getD_none_eq_some hb
    rw [hlen] at hi hj
    rcases Nat.lt_or_gt_of_ne hne with hlt | hgt
    · exact ⟨j, List.mem_range.2 hj, (repeatsEarlier_iff im key j).2 ⟨i, b, a, hlt, hb, ha, hkey.symm⟩⟩
    · exact ⟨i, List.mem_range.2 hi, (repeatsEarlier_iff im key i).2 ⟨j, a, b, hgt, ha, hb, hkey⟩⟩

theorem mem_fatalSet_station (im : Image) : LoadFault.station ∈ fatalSet im ↔ stationOk im.station = false := by
  rw [mem_fatalSet]
  simp only [fieldFaults, faultAt, List.mem_cons, true_or, true_and]
  cases stationOk im.station <;> simp

theorem mem_fatalSet_duplicateCircuit (im : Image) (hlen : im.positions.length = 32) :
    LoadFault.duplicateCircuit ∈ fatalSet im ↔ ¬(im.originated.map (·.circuit)).Nodup := by
  rw [mem_fatalSet, faultAt, Option.isSome_map, firstPosition_repeats im _ hlen]
  simp [fieldFaults]

theorem mem_fatalSet_duplicateLine (im : Image) (hlen : im.positions.length = 32) :
    LoadFault.duplicateLine ∈ fatalSet im ↔ ¬(im.originated.map (·.line)).Nodup := by
  rw [mem_fatalSet, faultAt, Option.isSome_map, firstPosition_repeats im _ hlen]
  simp [fieldFaults]

/-! ### Defaults (R191) -/

theorem rawImage_positions (bs : List Byte) : (rawImage bs).positions.length = 32 := by simp [rawImage]

theorem takeDefault_keeps (im : Image) (w : LoadWarning) :
    (takeDefault im w).station = im.station ∧ (takeDefault im w).positions = im.positions ∧
    (takeDefault im w).ports = im.ports := by
  cases w <;> exact ⟨rfl, rfl, rfl⟩

/-- Defaults replace neither the station number nor the ports nor the originated list. -/
theorem defaults_keep (ws : List LoadWarning) : ∀ im : Image,
    (ws.foldl takeDefault im).station = im.station ∧ (ws.foldl takeDefault im).positions = im.positions ∧
    (ws.foldl takeDefault im).ports = im.ports := by
  induction ws with
  | nil => exact fun im => ⟨rfl, rfl, rfl⟩
  | cons w ws ih =>
    intro im
    obtain ⟨h1, h2, h3⟩ := ih (takeDefault im w)
    obtain ⟨k1, k2, k3⟩ := takeDefault_keeps im w
    exact ⟨h1.trans k1, h2.trans k2, h3.trans k3⟩

/-! ### A load that ends in RUNNING -/

/-- An image that is taken up passed every check. -/
theorem whole_of_running {bs : List Byte} (h : (checkImage bs).2.outcome = .running) :
    bs.getD 0 0 = 0x3C ∧ imageSum bs = 0 ∧ fatalSet (rawImage bs) = [] := by
  unfold checkImage at h
  split at h
  · cases h
  · rename_i hsig
    split at h
    · cases h
    · rename_i hsum
      refine ⟨not_not.1 hsig, not_not.1 hsum, ?_⟩
      by_contra hne
      simp [fieldFinding, hne] at h

theorem checkImage_of_whole {bs : List Byte} (hsig : bs.getD 0 0 = 0x3C) (hsum : imageSum bs = 0) :
    checkImage bs = ((warnedFields bs (rawImage bs)).foldl takeDefault (rawImage bs), fieldFinding bs (rawImage bs)) := by
  rw [checkImage, if_neg (not_not_intro hsig), if_neg (not_not_intro hsum)]

/-- What the checks know of an image that is taken up: its station number, and that its originated entries are of
different circuits and of different lines, each one of the 32. -/
structure Image.Sound (im : Image) : Prop where
  station  : stationOk im.station = true
  circuits : (im.originated.map (·.circuit)).Nodup
  lines    : (im.originated.map (·.line)).Nodup
  line     : ∀ o ∈ im.originated, o.line < 32
  count    : im.originated.length ≤ 32

theorem line_of_rawImage {bs : List Byte} {o : Originated} (ho : o ∈ (rawImage bs).originated) : o.line < 32 := by
  rw [Image.originated, List.mem_filterMap] at ho
  obtain ⟨x, hx, hox⟩ := ho
  obtain ⟨i, _, rfl⟩ := List.mem_map.1 hx
  rw [id_eq, imagePosition] at hox
  split at hox
  · cases hox
  · cases hox
    exact Nat.mod_lt _ (by decide)

theorem sound_of_running {bs : List Byte} (h : (checkImage bs).2.outcome = .running) : (checkImage bs).1.Sound := by
  obtain ⟨hsig, hsum, hfatal⟩ := whole_of_running h
  rw [checkImage_of_whole hsig hsum]
  obtain ⟨hstation, hpositions, _⟩ := defaults_keep (warnedFields bs (rawImage bs)) (rawImage bs)
  have horiginated : ((warnedFields bs (rawImage bs)).foldl takeDefault (rawImage bs)).originated =
      (rawImage bs).originated := by rw [Image.originated, Image.originated, hpositions]
  have hnone (f : LoadFault) : f ∉ fatalSet (rawImage bs) := by
    rw [hfatal]
    exact List.not_mem_nil
  have hlen := rawImage_positions bs
  constructor
  · rw [hstation]
    simpa [mem_fatalSet_station] using hnone .station
  · rw [horiginated]
    simpa only [mem_fatalSet_duplicateCircuit _ hlen, not_not] using hnone .duplicateCircuit
  · rw [horiginated]
    simpa only [mem_fatalSet_duplicateLine _ hlen, not_not] using hnone .duplicateLine
  · rw [horiginated]
    exact fun o => line_of_rawImage
  · rw [horiginated]
    exact (List.length_filterMap_le _ _).trans (le_of_eq hlen)

/-- The load ends in RUNNING with a sound image, or in PASSIVE. -/
theorem loadTaken_run (bytes : List Byte) (s : State) :
    (loadTaken bytes s).runState = .running ∧ (checkImage (readImage bytes)).2.outcome = .running ∧
        (loadTaken bytes s).image.Sound ∨
      (loadTaken bytes s).runState = .passive ∧ (loadTaken bytes s).paths = s.paths ∧
        (loadTaken bytes s).hops = s.hops ∧ (loadTaken bytes s).lines = s.lines ∧
        (loadTaken bytes s).sched = s.sched ∧ (loadTaken bytes s).roster = s.roster := by
  unfold loadTaken
  dsimp only
  split
  · rename_i hrun
    refine .inl ⟨by simp [startServices, markLines], hrun, ?_⟩
    simpa [startServices, markLines] using sound_of_running hrun
  · exact .inr ⟨rfl, by simp [enterPassive], by simp [enterPassive], by simp [enterPassive], by simp [enterPassive],
      by simp [enterPassive]⟩

end Sys2Proof.Machine
end

