-- ==== Sys2Proof/Proofs/Slots.lean ====
section
/-! The four slots: what a change of one slot, and a change of flags, does to the probes they hold. -/

namespace Sys2Proof.Machine

variable {g : Grain} {s t : State} {i : Nat} {p : Probe}

/-! ### Probes and slots -/

theorem mem_probesOf : p ∈ probesOf s ↔ ∃ i, probeAt s i = some p := by
  unfold probesOf probeAt
  rw [List.mem_filterMap]
  constructor
  · rintro ⟨o, ho, hp⟩
    obtain ⟨i, hi⟩ := List.getElem?_of_mem ho
    exact ⟨i, by rw [List.getD_eq_getElem?_getD, hi]; exact hp⟩
  · rintro ⟨i, hp⟩
    rw [List.getD_eq_getElem?_getD] at hp
    cases hi : s.probes.slots[i]? with
    | none => rw [hi] at hp; cases hp
    | some o => exact ⟨o, List.mem_of_getElem? hi, by rw [hi] at hp; exact hp⟩

theorem mem_probesOf_of_probeAt (hp : probeAt s i = some p) : p ∈ probesOf s := mem_probesOf.2 ⟨i, hp⟩

theorem lt_of_probeAt (hp : probeAt s i = some p) : i < s.probes.slots.length := by
  by_contra hge
  rw [probeAt, List.getD_eq_default _ _ (Nat.le_of_not_lt hge)] at hp
  cases hp

/-- The slots hold different circuits: no two slots the same. -/
theorem circuits_nodup_iff : ((probesOf s).map (·.circuit)).Nodup ↔
    ∀ i j p q, probeAt s i = some p → probeAt s j = some q → p.circuit = q.circuit → i = j :=
  keys_nodup_iff s.probes.slots (·.circuit)

/-! ### Changes of flags -/

/-- What of a probe neither a flag nor the adoption by a run changes. -/
def Probe.spine (p : Probe) : Phase × Nat × Nat × Option Nat × List PoolRecord :=
  (p.phase, p.circuit, p.epoch, p.deadline, p.pool)

/-- What of the slots neither a flag nor the adoption by a run changes. -/
def spines (s : State) : List (Option (Phase × Nat × Nat × Option Nat × List PoolRecord)) :=
  s.probes.slots.map (Option.map Probe.spine)

theorem spine_of_core {p q : Probe} (h : p.core = q.core) : p.spine = q.spine := by
  simp only [Probe.core, Prod.mk.injEq] at h
  obtain ⟨hphase, hcircuit, hepoch, _, hdeadline, hpool⟩ := h
  simp [Probe.spine, hphase, hcircuit, hepoch, hdeadline, hpool]

theorem spines_of_core {x : List (Option Probe)}
    (h : x.map (Option.map Probe.core) = s.probes.slots.map (Option.map Probe.core)) :
    spines (setSlots x s) = spines s := by
  have hproject (l : List (Option Probe)) : l.map (Option.map Probe.spine) =
      (l.map (Option.map Probe.core)).map (Option.map fun c => (c.1, c.2.1, c.2.2.1, c.2.2.2.2.1, c.2.2.2.2.2)) := by
    rw [List.map_map]
    refine List.map_congr_left fun o _ => ?_
    cases o <;> rfl
  change x.map (Option.map Probe.spine) = s.probes.slots.map (Option.map Probe.spine)
  rw [hproject, hproject, h]

theorem map_spine_probesOf (s : State) : (probesOf s).map Probe.spine = (spines s).filterMap id := by
  rw [probesOf, spines, List.map_filterMap, List.filterMap_map]
  rfl

theorem exists_spine_of_spines (h : spines t = spines s) (hp : p ∈ probesOf t) :
    ∃ q ∈ probesOf s, q.spine = p.spine := by
  have hmem : p.spine ∈ (probesOf t).map Probe.spine := List.mem_map_of_mem hp
  rw [map_spine_probesOf, h, ← map_spine_probesOf] at hmem
  exact List.mem_map.1 hmem

theorem circuits_of_spines (h : spines t = spines s) :
    (probesOf t).map (·.circuit) = (probesOf s).map (·.circuit) := by
  have hproject (u : State) : (probesOf u).map (·.circuit) = ((probesOf u).map Probe.spine).map (·.2.1) := by
    rw [List.map_map]
    rfl
  rw [hproject, hproject, map_spine_probesOf, map_spine_probesOf, h]

theorem spine_probeAt (s : State) (i : Nat) : (probeAt s i).map Probe.spine = (spines s).getD i none := by
  simp only [probeAt, spines, List.getD_eq_getElem?_getD, List.getElem?_map]
  cases s.probes.slots[i]? <;> rfl

theorem slots_length_of_spines (h : spines t = spines s) : t.probes.slots.length = s.probes.slots.length := by
  simpa [spines] using congrArg List.length h

theorem recordsHeld_of_spines (h : spines t = spines s) : recordsHeld t = recordsHeld s := by
  have hproject (u : State) : recordsHeld u =
      ((spines u).map fun o => match o with | some c => c.2.2.2.2.length | none => 0).sum := by
    rw [recordsHeld, spines, List.map_map]
    congr 2
    funext o
    cases o <;> rfl
  rw [hproject, hproject, h]

/-- A change of every probe that leaves its spine. -/
theorem spines_setSlots_map (f : Probe → Probe) (s : State) (hf : ∀ p, (f p).spine = p.spine) :
    spines (setSlots (s.probes.slots.map (Option.map f)) s) = spines s := by
  simp only [spines, setSlots, State.setProbes_fields, List.map_map]
  refine List.map_congr_left fun o _ => ?_
  cases o with
  | none => rfl
  | some p => exact congrArg some (hf p)

theorem spines_of_probes (h : t.probes.slots = s.probes.slots) : spines t = spines s := by
  rw [spines, spines, h]

theorem spines_applyGrade (n : Nat) (s : State) : spines (applyGrade n s) = spines s := by
  by_cases hfall : n < s.roster.grade
  · rw [spines_of_probes (congrArg _ (applyGrade_probes_of_fall n s hfall))]
    exact spines_setSlots_map _ s fun p => by split <;> rfl
  · exact spines_of_probes (congrArg _ (applyGrade_probes_of_no_fall n s hfall))

@[simp] theorem spines_recompute (s : State) : spines (recompute s) = spines s := by
  rw [recompute, spines_applyGrade]
  rfl

@[simp] theorem spines_addHold (ser : Serial) (c : Nat) (s : State) : spines (addHold ser c s) = spines s := by
  unfold addHold
  split
  · rfl
  · split
    · rfl
    · unfold moveForHold
      split
      · exact spines_of_probes (by simp)
      · exact spines_of_probes (by simp)
      · exact spines_of_probes (by simp)
      · exact spines_of_probes (by simp)
      · exact (spines_setSlots_map _ _ fun p => by split <;> rfl).trans (spines_of_probes (by simp))

theorem spines_modifyRun (id : Nat) (f : Run → Run) (s : State) : spines (modifyRun id f s) = spines s := rfl

theorem spines_completeSuspended (s : State) : spines (completeSuspended s) = spines s := spines_of_probes (by simp)

theorem spines_takeSelected (id : Nat) (sp : Span) (s : State) (c : Nat) :
    spines (takeSelected id sp s c) = spines s := by
  have hmove (st : RecordState) (u : State) : spines (moveIntoRun id c st u) = spines u := by
    unfold moveIntoRun
    split
    · split
      · exact spines_of_probes (by simp)
      · rfl
    · exact (spines_setSlots_map _ _ fun p => by split <;> rfl).trans (spines_of_probes (by simp))
    all_goals exact spines_of_probes (by simp)
  unfold takeSelected
  split
  · dsimp only
    split
    · exact spines_of_probes (by simp)
    · rw [spines_modifyRun, hmove]
      exact spines_of_probes (by simp)
  · rfl

@[simp] theorem spines_applyAlarm (sp : Span) (cause : Cause) (s : State) : spines (applyAlarm sp cause s) = spines s := by
  have hfold (id : Nat) (sel : List Nat) (u : State) : spines (sel.foldl (takeSelected id sp) u) = spines u :=
    foldl_keeps _ _ _ spines fun v c => spines_takeSelected id sp v c
  unfold applyAlarm
  dsimp only
  split
  · rfl
  · rw [newRun, spines_completeSuspended, hfold]
    exact spines_of_probes (by simp)
  · unfold mergeRun
    split
    · rfl
    · rw [spines_completeSuspended, spines_modifyRun, hfold]

/-! ### Changes of one slot -/

theorem modifySlot_eq_putSlot (f : Probe → Probe) (hp : probeAt s i = some p) :
    modifySlot i f s = putSlot i (some (f p)) s := by
  have hlt := lt_of_probeAt hp
  have hget : s.probes.slots[i] = some p := by simpa [probeAt, hlt] using hp
  rw [modifySlot, putSlot, List.modify_eq_set_getElem? , List.getElem?_eq_getElem hlt, hget]
  rfl

theorem modifySlot_of_idle (f : Probe → Probe) (hp : probeAt s i = none) : modifySlot i f s = s := by
  have hslots : s.probes.slots.modify i (Option.map f) = s.probes.slots := by
    refine List.ext_getElem? fun k => ?_
    rw [List.getElem?_modify]
    split
    · rename_i hk
      subst hk
      rw [probeAt, List.getD_eq_getElem?_getD] at hp
      cases hi : s.probes.slots[i]? with
      | none => rfl
      | some o =>
        rw [hi] at hp
        cases (show o = none from hp)
        rfl
    · cases s.probes.slots[k]? <;> rfl
  rw [modifySlot, setSlots, hslots]
  rfl

/-- The records that a slot holds. -/
def heldBySlot : Option Probe → Nat
  | some p => p.pool.length
  | none => 0

theorem recordsHeld_putSlot (o : Option Probe) (s : State) (hi : i < s.probes.slots.length) :
    recordsHeld (putSlot i o s) + heldBySlot (probeAt s i) = recordsHeld s + heldBySlot o := by
  have hset (l : List (Option Probe)) : ∀ i, i < l.length →
      ((l.set i o).map heldBySlot).sum + heldBySlot (l.getD i none) = (l.map heldBySlot).sum + heldBySlot o := by
    induction l with
    | nil => intro i hi; exact absurd hi (Nat.not_lt_zero i)
    | cons a l ih =>
      intro i hi
      cases i with
      | zero =>
        simp only [List.set_cons_zero, List.map_cons, List.sum_cons, List.getD_cons_zero]
        omega
      | succ i =>
        have := ih i (Nat.lt_of_succ_lt_succ hi)
        simp only [List.set_cons_succ, List.map_cons, List.sum_cons, List.getD_cons_succ]
        omega
  exact hset s.probes.slots i hi

@[simp] theorem putSlot_length (i : Nat) (o : Option Probe) (s : State) :
    (putSlot i o s).probes.slots.length = s.probes.slots.length := by
  simp [putSlot, setSlots]

/-! ### The slot that is launched into -/

theorem isNone_of_idleSlot (h : idleSlot s = some i) : i < s.probes.slots.length ∧ probeAt s i = none := by
  rw [idleSlot, List.findIdx?_eq_some_iff_getElem] at h
  obtain ⟨hi, hnone, _⟩ := h
  refine ⟨hi, ?_⟩
  rw [probeAt, List.getD_eq_getElem _ _ hi]
  simpa using hnone

theorem ne_of_slotOf_none {c : Nat} (h : slotOf s c = none) (hp : p ∈ probesOf s) : p.circuit ≠ c := by
  rw [slotOf, List.findIdx?_eq_none_iff] at h
  rw [probesOf, List.mem_filterMap] at hp
  obtain ⟨o, ho, rfl⟩ := hp
  simpa using h _ ho

end Sys2Proof.Machine
end

