-- ==== Sys2Proof/Proofs/InvSlots.lean ====
section
/-! Slots hold different circuits, share 128 records, and their timers run in DRIVING alone (R47, R56); pool records
name stations 1 to 24 (R139, R190, R197). -/

namespace Sys2Proof.Machine

variable {g : Grain} {s t : State} {i : Nat} {p : Probe}

/-! ### What keeps the slots -/

theorem probe_ok_of_spine {p q : Probe} (h : p.spine = q.spine) (hp : p.ok) : q.ok := by
  simp only [Probe.spine, Prod.mk.injEq] at h
  obtain ⟨hphase, _, _, hdeadline, hpool⟩ := h
  unfold Probe.ok at hp ⊢
  rwa [← hphase, ← hdeadline, ← hpool]

theorem slotsOk_of_spines (h : spines t = spines s) (hs : SlotsOk s) : SlotsOk t := by
  obtain ⟨hlen, hnodup, hheld, hok⟩ := hs
  refine ⟨(slots_length_of_spines h).trans hlen, (circuits_of_spines h) ▸ hnodup,
    (recordsHeld_of_spines h) ▸ hheld, fun p hp => ?_⟩
  obtain ⟨q, hq, hspine⟩ := exists_spine_of_spines h hp
  exact probe_ok_of_spine hspine (hok q hq)

/-- A slot changed: the probe it now holds is in order, of no other slot's circuit, and takes no more records than are
free. -/
theorem slotsOk_putSlot (o : Option Probe) (hi : i < s.probes.slots.length)
    (hcircuit : ∀ p ∈ o, ∀ j q, j ≠ i → probeAt s j = some q → q.circuit ≠ p.circuit)
    (hheld : recordsHeld s + heldBySlot o ≤ Config.poolSize + heldBySlot (probeAt s i)) (ho : ∀ p ∈ o, p.ok)
    (hs : SlotsOk s) : SlotsOk (putSlot i o s) := by
  obtain ⟨hlen, hnodup, _, hok⟩ := hs
  rw [circuits_nodup_iff] at hnodup
  refine ⟨by simpa using hlen, circuits_nodup_iff.2 fun j k p q hp hq heq => ?_, ?_, fun p hp => ?_⟩
  · rw [probeAt_putSlot _ _ _ _ hi] at hp hq
    split at hp
    · split at hq
      · omega
      · rename_i hik
        exact absurd heq.symm (hcircuit p hp k q (fun h => hik h.symm) hq)
    · rename_i hij
      split at hq
      · exact absurd heq (hcircuit q hq j p (fun h => hij h.symm) hp)
      · exact hnodup j k p q hp hq heq
  · have := recordsHeld_putSlot o s hi
    omega
  · obtain ⟨j, hj⟩ := mem_probesOf.1 hp
    rw [probeAt_putSlot _ _ _ _ hi] at hj
    split at hj
    · exact ho p hj
    · exact hok p (mem_probesOf_of_probeAt hj)

theorem slotsOk_free (i : Nat) (hs : SlotsOk s) : SlotsOk (putSlot i none s) := by
  by_cases hi : i < s.probes.slots.length
  · exact slotsOk_putSlot none hi (fun _ h => absurd h (by simp)) (by have := hs.2.2.1; simp [heldBySlot]; omega)
      (fun _ h => absurd h (by simp)) hs
  · have hsame : (putSlot i none s).probes = s.probes := by
      simp [putSlot, setSlots, List.set_eq_of_length_le (Nat.le_of_not_lt hi)]
    exact slotsOk_of_spines (by rw [spines, spines, hsame]) hs

/-- A slot's probe replaced by one of the same circuit. -/
theorem slotsOk_replace (q : Probe) (hp : probeAt s i = some p) (hcircuit : q.circuit = p.circuit)
    (hheld : recordsHeld s + q.pool.length ≤ Config.poolSize + p.pool.length) (hq : q.ok) (hs : SlotsOk s) :
    SlotsOk (putSlot i (some q) s) := by
  have hdistinct := circuits_nodup_iff.1 hs.2.1
  refine slotsOk_putSlot (some q) (lt_of_probeAt hp) ?_ (by simpa [hp, heldBySlot] using hheld) ?_ hs
  · rintro x ⟨rfl⟩ j y hj hy heq
    exact hj (hdistinct j i y p hy hp (heq.trans hcircuit))
  · rintro x ⟨rfl⟩
    exact hq

/-! ### The changes that touch a slot -/

theorem slotsOk_pool {x : PoolRecord} (hp : probeAt s i = some p) (hphase : p.phase = .driving)
    (hnew : (p.pool.any fun r => r.station == x.station && r.port == x.port) = false)
    (hfree : freeRecords s ≠ 0) (hs : SlotsOk s) :
    SlotsOk (modifySlot i (fun p => { p with pool := p.pool ++ [x] }) s) := by
  rw [modifySlot_eq_putSlot _ hp]
  obtain ⟨hdeadline, _, hnodup⟩ := hs.2.2.2 p (mem_probesOf_of_probeAt hp)
  refine slotsOk_replace _ hp rfl ?_ ⟨hdeadline, fun h => absurd hphase h, ?_⟩ hs
  · rw [freeRecords] at hfree
    simp only [List.length_append, List.length_singleton]
    omega
  · rw [List.map_append, List.map_singleton]
    refine hnodup.append (List.nodup_singleton _) ?_
    rw [List.disjoint_singleton]
    intro hin
    obtain ⟨r, hr, heq⟩ := List.mem_map.1 hin
    rw [Prod.mk.injEq] at heq
    rw [List.any_eq_false] at hnew
    exact hnew r hr (by simp [heq.1, heq.2])

theorem slotsOk_enterDriving {b : BestMarks} {failed : Bool} (hp : probeAt s i = some p)
    (hphase : p.phase = .claiming) (hs : SlotsOk s) : SlotsOk (enterDriving i b failed s) := by
  unfold enterDriving
  rw [hp]
  dsimp only
  split
  · exact hs
  · rename_i r _
    obtain ⟨_, hempty, _⟩ := hs.2.2.2 p (mem_probesOf_of_probeAt hp)
    have hpool : p.pool = [] := hempty (by simp [hphase])
    have hput : SlotsOk (putSlot i (some (drivingProbe s p r b failed)) s) := by
      refine slotsOk_replace _ hp rfl ?_ ?_ hs
      · have hheld := hs.2.2.1
        simp only [drivingProbe, hpool, List.length_nil]
        omega
      · simp [Probe.ok, drivingProbe, hpool]
    exact slotsOk_of_spines rfl hput

theorem slotsOk_closeSlot (i : Nat) (hs : SlotsOk s) : SlotsOk (closeSlot i s) := by
  unfold closeSlot
  cases hp : probeAt s i with
  | none => rwa [modifySlot_of_idle _ hp]
  | some p =>
    rw [modifySlot_eq_putSlot _ hp]
    refine slotsOk_replace _ hp rfl ?_ (by simp [Probe.ok]) hs
    have hheld := hs.2.2.1
    simp only [List.length_nil]
    omega

/-- A slot is launched into while it is IDLE, for a circuit that no slot holds. -/
theorem slotsOk_claimSlot {c : Nat} (m : Mode) (o : Owner) (hi : i < s.probes.slots.length)
    (hidle : probeAt s i = none) (hfree : slotOf s c = none) (hs : SlotsOk s) : SlotsOk (claimSlot i c m o s) := by
  unfold claimSlot
  split
  · exact hs
  · rename_i r _
    have hput : SlotsOk (putSlot i (some (claimedProbe c (nextEpoch r.lastEpoch) m o)) s) := by
      refine slotsOk_putSlot _ hi ?_ ?_ ?_ hs
      · rintro x ⟨rfl⟩ j q _ hq
        exact ne_of_slotOf_none hfree (mem_probesOf_of_probeAt hq)
      · have hheld := hs.2.2.1
        simp only [heldBySlot, hidle, claimedProbe, List.length_nil]
        omega
      · rintro x ⟨rfl⟩
        simp [Probe.ok, claimedProbe]
    exact slotsOk_of_spines rfl hput

/-- A launch of base work takes an IDLE slot for a launchable circuit of the list it names (R48, R120). -/
theorem baseLaunchChoice_spec {m : Mode} {c : Nat} (h : baseLaunchChoice s = some (i, m, c)) :
    s.runState = .running ∧ s.roster.joined = true ∧ s.sched.current = none ∧ idleSlot s = some i ∧
      launchable s c = true ∧ (m = .routine ∧ c ∈ s.sched.routine ∨ m = .census ∧ c ∈ s.sched.census) := by
  unfold baseLaunchChoice at h
  split at h
  · rename_i hmay
    simp only [mayLaunch, Bool.and_eq_true, beq_iff_eq, Option.isNone_iff_eq_none] at hmay
    obtain ⟨⟨⟨⟨hrun, hjoined⟩, _⟩, _⟩, hcurrent⟩ := hmay
    split at h
    · rename_i j m' c' hidle hchoice
      cases h
      refine ⟨hrun, hjoined, hcurrent, hidle, ?_⟩
      unfold baseChoice at hchoice
      split at hchoice
      · rename_i hroutine
        cases hchoice
        exact ⟨List.find?_some hroutine, .inl ⟨rfl, List.mem_of_find?_eq_some hroutine⟩⟩
      · rw [Option.map_eq_some_iff] at hchoice
        obtain ⟨x, hcensus, heq⟩ := hchoice
        cases heq
        exact ⟨List.find?_some hcensus, .inr ⟨rfl, List.mem_of_find?_eq_some hcensus⟩⟩
    · cases h
  · cases h

/-- A launch of the sweep takes an IDLE slot for a circuit of the current run that is QUEUED for it (R48, R127). -/
theorem sweepLaunchChoice_spec {id c : Nat} (h : sweepLaunchChoice s = some (i, id, c)) :
    s.runState = .running ∧ s.roster.joined = true ∧ idleSlot s = some i ∧ slotOf s c = none ∧
      queuedSweep s c = true ∧ ∃ r, s.sched.current = some r ∧ r.id = id ∧
        ∃ e ∈ r.entries, e.circuit = c ∧ e.standing = .waiting := by
  unfold sweepLaunchChoice at h
  split at h
  · rename_i hmay
    simp only [mayLaunch, Bool.and_eq_true, beq_iff_eq] at hmay
    obtain ⟨hrun, hjoined⟩ := hmay
    split at h
    · cases h
    · rename_i r hcurrent
      split at h
      · rename_i j c' hidle hchoice
        cases h
        rw [sweepChoice, Option.map_eq_some_iff] at hchoice
        obtain ⟨e, he, rfl⟩ := hchoice
        have hcond := List.find?_some he
        simp only [Bool.and_eq_true, beq_iff_eq, Option.isNone_iff_eq_none] at hcond
        obtain ⟨⟨hwaiting, hqueued⟩, hfree⟩ := hcond
        exact ⟨hrun, hjoined, hidle, hfree, hqueued, r, hcurrent, rfl, e, List.mem_of_find?_eq_some he, rfl, hwaiting⟩
      · cases h
  · cases h

theorem launchable_iff {c : Nat} : launchable s c = true ↔
    (findPath s c).any (·.state.isQueued) = true ∧ slotOf s c = none := by
  rw [launchable, Bool.and_eq_true, Option.isNone_iff_eq_none]

theorem slotsOk_reset {x : State} (hx : x.probes.slots = List.replicate Config.slotCount none) : SlotsOk x := by
  have hnone : probesOf x = [] := by
    rw [probesOf, hx]
    rfl
  refine ⟨by rw [hx]; rfl, by rw [hnone]; exact List.nodup_nil, ?_, fun p hp => ?_⟩
  · rw [recordsHeld, hx]
    decide
  · rw [hnone] at hp
    cases hp

theorem slotsOk_act (hpieces : g.verdicts = true) (hresets : g.resets = true) (hact : Act g s t)
    (h : SlotsOk s) : SlotsOk t := by
  cases hact with
  | boot c => exact slotsOk_reset rfl
  | slotFlags x hcore => exact slotsOk_of_spines (spines_of_core hcore) h
  | pool i p x hp hphase hnew hfree => exact slotsOk_pool hp hphase hnew hfree h
  | enterDriving i p b failed hp hphase => exact slotsOk_enterDriving hp hphase h
  | freeSlot i => exact slotsOk_free i h
  | emptySlot i => exact slotsOk_free i h
  | closeSlot i => exact slotsOk_closeSlot i h
  | baseLaunch i m c hchoice =>
    obtain ⟨_, _, _, hidle, hlaunch, _⟩ := baseLaunchChoice_spec hchoice
    obtain ⟨hi, hnone⟩ := isNone_of_idleSlot hidle
    have hleave : (leaveList m c s).probes = s.probes := by simp
    refine slotsOk_claimSlot m .base ?_ ?_ ?_ (slotsOk_of_spines (by rw [spines, spines, hleave]) h)
    · rwa [hleave]
    · rwa [probeAt, hleave]
    · rw [slotOf, hleave]
      exact (launchable_iff.1 hlaunch).2
  | sweepLaunch i id c hchoice =>
    obtain ⟨_, _, hidle, hfree, _⟩ := sweepLaunchChoice_spec hchoice
    obtain ⟨hi, hnone⟩ := isNone_of_idleSlot hidle
    exact slotsOk_of_spines (by simp [spines]) (slotsOk_claimSlot .sweep (.run id) hi hnone hfree h)
  | presence n f => exact slotsOk_of_spines (by rw [spines_recompute]; simp [spines]) h
  | joined n => exact slotsOk_of_spines (by rw [joinedRoster, spines_recompute]; simp [spines]) h
  | resetWork => exact slotsOk_reset (by simp [clearSlots, probesReset])
  | evaluate i p hwhole => simp [hpieces] at hwhole
  | evaluateWithdrawn i p hwhole => simp [hpieces] at hwhole
  | resetLoopOwn hwhole => simp [hresets] at hwhole
  | addHold => exact slotsOk_of_spines (spines_addHold _ _ s) h
  | applyAlarm => exact slotsOk_of_spines (spines_applyAlarm _ _ s) h
  | _ => exact slotsOk_of_spines (spines_of_probes (by simp)) h

theorem slotsOk_quiet (hq : Quiet s t) (h : SlotsOk s) : SlotsOk t := by
  obtain ⟨_, _, _, _, _, _, _, rfl⟩ := hq
  exact h

theorem slotsOk_step (h : SlotsOk s) (hstep : step s = .next t) : SlotsOk t :=
  step_keeps_self true true slotsOk_quiet (fun _ _ _ hv hr => slotsOk_act hv hr) h hstep

/-! ### Station numbers -/

/-- The pool records of the slots, and no slots outside RUNNING. -/
def PoolsOk (s : State) : Prop :=
  (s.runState ≠ .running → probesOf s = []) ∧ ∀ p ∈ probesOf s, ∀ r ∈ p.pool, stationOk r.station = true

theorem poolsOk_of_spines (hrun : t.runState = s.runState) (h : spines t = spines s) (hs : PoolsOk s) : PoolsOk t := by
  obtain ⟨hidle, hpools⟩ := hs
  refine ⟨fun hne => ?_, fun p hp r hr => ?_⟩
  · have hcircuits := circuits_of_spines h
    rw [hidle (hrun ▸ hne), List.map_nil, List.map_eq_nil_iff] at hcircuits
    exact hcircuits
  · obtain ⟨q, hq, hspine⟩ := exists_spine_of_spines h hp
    simp only [Probe.spine, Prod.mk.injEq] at hspine
    exact hpools q hq r (by rw [hspine.2.2.2.2]; exact hr)

theorem running_of_probeAt (hs : PoolsOk s) (hp : probeAt s i = some p) : s.runState = .running := by
  by_contra hne
  have hmem := mem_probesOf_of_probeAt hp
  rw [hs.1 hne] at hmem
  cases hmem

/-- The probes of the slots after a change of one. -/
theorem mem_probesOf_putSlot {o : Option Probe} (hp : p ∈ probesOf (putSlot i o s)) : p ∈ o ∨ p ∈ probesOf s := by
  obtain ⟨j, hj⟩ := mem_probesOf.1 hp
  by_cases hi : i < s.probes.slots.length
  · rw [probeAt_putSlot _ _ _ _ hi] at hj
    split at hj
    · exact .inl hj
    · exact .inr (mem_probesOf_of_probeAt hj)
  · have hsame : (putSlot i o s).probes.slots = s.probes.slots := by
      simp [putSlot, setSlots, List.set_eq_of_length_le (Nat.le_of_not_lt hi)]
    rw [probeAt, hsame] at hj
    exact .inr (mem_probesOf_of_probeAt hj)

theorem poolsOk_putSlot {o : Option Probe} (hrun : o.isSome = true → s.runState = .running)
    (ho : ∀ p ∈ o, ∀ r ∈ p.pool, stationOk r.station = true) (hs : PoolsOk s) : PoolsOk (putSlot i o s) := by
  obtain ⟨hidle, hpools⟩ := hs
  refine ⟨fun hne => List.eq_nil_iff_forall_not_mem.2 fun p hp => ?_, fun p hp => ?_⟩
  · have hstill : s.runState ≠ .running := by simpa using hne
    rcases mem_probesOf_putSlot hp with hp | hp
    · exact hstill (hrun (by rw [hp]; rfl))
    · rw [hidle hstill] at hp
      cases hp
  · rcases mem_probesOf_putSlot hp with hp | hp
    · exact ho p hp
    · exact hpools p hp

/-- A change of a slot that brings no record. -/
theorem poolsOk_modifySlot {f : Probe → Probe} (hf : ∀ p, (f p).pool = p.pool ∨ (f p).pool = []) (hs : PoolsOk s) :
    PoolsOk (modifySlot i f s) := by
  cases hp : probeAt s i with
  | none => rwa [modifySlot_of_idle _ hp]
  | some p =>
    rw [modifySlot_eq_putSlot _ hp]
    refine poolsOk_putSlot (fun _ => running_of_probeAt hs hp) ?_ hs
    rintro q ⟨rfl⟩ r hr
    rcases hf p with h | h
    · rw [h] at hr
      exact hs.2 p (mem_probesOf_of_probeAt hp) r hr
    · rw [h] at hr
      cases hr

theorem poolsOk_enterDriving {b : BestMarks} {failed : Bool} (hp : probeAt s i = some p) (hs : PoolsOk s) :
    PoolsOk (enterDriving i b failed s) := by
  unfold enterDriving
  rw [hp]
  dsimp only
  split
  · exact hs
  · rename_i r _
    have hput : PoolsOk (putSlot i (some (drivingProbe s p r b failed)) s) := by
      refine poolsOk_putSlot (fun _ => running_of_probeAt hs hp) ?_ hs
      rintro q ⟨rfl⟩
      exact hs.2 p (mem_probesOf_of_probeAt hp)
    exact poolsOk_of_spines rfl rfl hput

theorem poolsOk_claimSlot {c : Nat} (m : Mode) (o : Owner) (hrun : s.runState = .running) (hs : PoolsOk s) :
    PoolsOk (claimSlot i c m o s) := by
  unfold claimSlot
  split
  · exact hs
  · rename_i r _
    have hput : PoolsOk (putSlot i (some (claimedProbe c (nextEpoch r.lastEpoch) m o)) s) := by
      refine poolsOk_putSlot (fun _ => hrun) ?_ hs
      rintro q ⟨rfl⟩ x hx
      cases hx
    exact poolsOk_of_spines rfl rfl hput

theorem poolsOk_of_none (h : probesOf s = []) : PoolsOk s :=
  ⟨fun _ => h, fun _ hp => absurd (h ▸ hp) List.not_mem_nil⟩

theorem probesOf_of_reset {x : State} (hx : x.probes.slots = List.replicate Config.slotCount none) :
    probesOf x = [] := by
  rw [probesOf, hx]
  rfl

/-- The station of a record that joins a pool is one of a received notice, or this station. -/
theorem poolsOk_act (hpieces : g.verdicts = true) (hresets : g.resets = true) (hstations : g.stations)
    (hown : s.runState = .running → stationOk s.own = true) (hact : Act g s t) (h : PoolsOk s) : PoolsOk t := by
  cases hact with
  | boot c => exact poolsOk_of_none rfl
  | load bytes hstart =>
    have hnone := h.1 (by rw [hstart]; decide)
    exact poolsOk_of_none (by simpa [probesOf] using hnone)
  | slotFlags x hcore => exact poolsOk_of_spines (s := s) rfl (spines_of_core hcore) h
  | pool i p x hp _ _ _ hstation =>
    rw [modifySlot_eq_putSlot _ hp]
    have hrun := running_of_probeAt h hp
    refine poolsOk_putSlot (fun _ => hrun) ?_ h
    rintro q ⟨rfl⟩ r hr
    rcases List.mem_append.1 hr with hr | hr
    · exact h.2 p (mem_probesOf_of_probeAt hp) r hr
    · rw [List.mem_singleton.1 hr]
      rcases hstation hstations with hx | hx
      · exact hx
      · rw [hx]
        exact hown hrun
  | enterDriving i p b failed hp => exact poolsOk_enterDriving hp h
  | freeSlot i => exact poolsOk_putSlot (fun hn => absurd hn (by simp)) (fun _ hn => absurd hn (by simp)) h
  | emptySlot i => exact poolsOk_putSlot (fun hn => absurd hn (by simp)) (fun _ hn => absurd hn (by simp)) h
  | closeSlot i => exact poolsOk_modifySlot (fun _ => .inr rfl) h
  | baseLaunch i m c hchoice =>
    obtain ⟨hrun, _⟩ := baseLaunchChoice_spec hchoice
    exact poolsOk_claimSlot m .base (by simpa using hrun)
      (poolsOk_of_spines (by simp) (spines_of_probes (by simp)) h)
  | sweepLaunch i id c hchoice =>
    obtain ⟨hrun, _⟩ := sweepLaunchChoice_spec hchoice
    exact poolsOk_of_spines rfl rfl (poolsOk_claimSlot .sweep (.run id) hrun h)
  | presence n f =>
    exact poolsOk_of_spines (by simp) (by rw [spines_recompute]; exact spines_of_probes (by simp)) h
  | joined n =>
    exact poolsOk_of_spines (by simp) (by rw [joinedRoster, spines_recompute]; exact spines_of_probes (by simp)) h
  | addHold => exact poolsOk_of_spines (by simp) (spines_addHold _ _ s) h
  | applyAlarm => exact poolsOk_of_spines (by simp) (spines_applyAlarm _ _ s) h
  | resetWork => exact poolsOk_of_none (probesOf_of_reset (by simp [clearSlots, probesReset]))
  | evaluate i p hwhole => simp [hpieces] at hwhole
  | evaluateWithdrawn i p hwhole => simp [hpieces] at hwhole
  | resetLoopOwn hwhole => simp [hresets] at hwhole
  | _ => exact poolsOk_of_spines (by simp) (spines_of_probes (by simp)) h

/-- The station number is checked at the load and stays. -/
theorem ownStation_act (hact : Act g s t) (h : s.runState = .running → stationOk s.image.station = true) :
    t.runState = .running → stationOk t.image.station = true := by
  intro hrun
  cases hact with
  | boot c => cases hrun
  | load bytes =>
    rcases loadTaken_run bytes s with ⟨_, _, hsound⟩ | ⟨hpassive, _⟩
    · exact hsound.station
    · rw [hpassive] at hrun
      cases hrun
  | _ => simpa using h (by simpa using hrun)

theorem receivedStations_act (hresets : g.resets = true) (hact : Act g s t)
    (h : ∀ a ∈ s.loop.receive, a.stationsOk = true) : ∀ a ∈ t.loop.receive, a.stationsOk = true := by
  cases hact with
  | boot c => exact fun a ha => absurd ha List.not_mem_nil
  | enqueueReceived x m p _ _ _ hstations =>
    intro a ha
    rcases List.mem_append.1 ha with ha | ha
    · exact h a ha
    · rw [List.mem_singleton.1 ha]
      exact hstations
  | popOldest => exact fun a ha => h a (List.mem_of_mem_tail ha)
  | watchStart => exact fun a ha => h a (List.mem_of_mem_tail ha)
  | windowReceived => exact fun a ha => h a (List.mem_of_mem_tail ha)
  | queueReset => exact fun a ha => h a (List.mem_filter.1 ha).1
  | resetLoopOwn hwhole => simp [hresets] at hwhole
  | _ => simpa using h

theorem stationsOk_act (hpieces : g.verdicts = true) (hresets : g.resets = true) (hact : Act g s t)
    (h : g.stations ∧ StationsOk s) : g.stations ∧ StationsOk t := by
  obtain ⟨hg, hown, hidle, hpools, hreceive⟩ := h
  obtain ⟨hidle', hpools'⟩ := poolsOk_act hpieces hresets hg hown hact ⟨hidle, hpools⟩
  exact ⟨hg, ownStation_act hact hown, hidle', hpools', receivedStations_act hresets hact hreceive⟩

theorem stationsOk_quiet (hq : Quiet s t) (h : StationsOk s) : StationsOk t := by
  obtain ⟨_, _, _, _, _, _, _, rfl⟩ := hq
  exact h

theorem stationsOk_step (h : StationsOk s) (hstep : step s = .next t) : StationsOk t :=
  step_keeps (fun g u => g.stations ∧ StationsOk u) true true stationsOk_quiet
    (fun _ _ hs => ⟨hs.2.2.2, hs⟩) (fun _ c s hs => ⟨hs.1, stationsOk_quiet (quiet_intakeCommand c s) hs.2⟩)
    (fun _ _ _ hv hr => stationsOk_act hv hr) (fun _ _ hs => hs.2) h hstep

/-- Settles O6: what a change does to one slot, and where a pool record comes from. -/
theorem probeSlotsStayConsistent : Obligations.ProbeSlotsStayConsistent :=
  ⟨fun _ _ => slotsOk_step, fun _ _ => stationsOk_step⟩

end Sys2Proof.Machine
end

