-- ==== Sys2Proof/Proofs/PathCores.lean ====
section
/-! The records of the Path Store: which of them there are is set at the load, and every later change is of one
record's state, holds or evidence. -/

namespace Sys2Proof.Machine

variable {g : Grain} {s t : State}

/-- Circuit, line and add port of every record, in order. -/
def pathCores (s : State) : List (Nat × Nat × Nat) := s.paths.map PathRecord.core

theorem pathCores_of_paths (h : t.paths = s.paths) : pathCores t = pathCores s := by rw [pathCores, pathCores, h]

theorem pathOrder_of_pathCores (h : pathCores t = pathCores s) : pathOrder t = pathOrder s := by
  have hproject (u : State) : pathOrder u = (pathCores u).map (·.1) := by
    rw [pathOrder, pathCores, List.map_map]
    rfl
  rw [hproject, hproject, h]

theorem lines_of_pathCores (h : pathCores t = pathCores s) : t.paths.map (·.line) = s.paths.map (·.line) := by
  have hproject (u : State) : u.paths.map (·.line) = (pathCores u).map (·.2.1) := by
    rw [pathCores, List.map_map]
    rfl
  rw [hproject, hproject, h]

theorem exists_core_of_pathCores (h : pathCores t = pathCores s) {r : PathRecord} (hr : r ∈ t.paths) :
    ∃ x ∈ s.paths, x.core = r.core := by
  have hmem : r.core ∈ pathCores t := List.mem_map_of_mem hr
  rw [h] at hmem
  exact List.mem_map.1 hmem

/-! ### The operations on records -/

theorem pathCores_map (f : PathRecord → PathRecord) (s : State) (hf : ∀ r, (f r).core = r.core) :
    pathCores (s.setPaths (s.paths.map f)) = pathCores s := by
  simp only [pathCores, State.setPaths_fields, List.map_map]
  exact List.map_congr_left fun r _ => hf r

theorem pathCores_modifyPath (c : Nat) {f : PathRecord → PathRecord} (s : State)
    (hf : ∀ r, (f r).core = r.core := by intro; rfl) : pathCores (modifyPath c f s) = pathCores s :=
  pathCores_map _ s fun r => by
    split
    · exact hf r
    · rfl

@[simp] theorem pathCores_joinList (m : Mode) (c : Nat) (s : State) : pathCores (joinList m c s) = pathCores s :=
  pathCores_of_paths (by simp)

@[simp] theorem pathCores_leaveList (m : Mode) (c : Nat) (s : State) : pathCores (leaveList m c s) = pathCores s :=
  pathCores_of_paths (by simp)

@[simp] theorem pathCores_deferEntry (c : Nat) (s : State) : pathCores (deferEntry c s) = pathCores s :=
  pathCores_of_paths (by simp)

@[simp] theorem pathCores_modifyRun (id : Nat) (f : Run → Run) (s : State) :
    pathCores (modifyRun id f s) = pathCores s := rfl

@[simp] theorem pathCores_completeSuspended (s : State) : pathCores (completeSuspended s) = pathCores s :=
  pathCores_of_paths (by simp)

@[simp] theorem pathCores_setRecordState (c : Nat) (x : RecordState) (s : State) :
    pathCores (setRecordState c x s) = pathCores s := pathCores_modifyPath c s

theorem pathCores_enqueue (c : Nat) (m : Mode) (o : Origin) (s : State) :
    pathCores (enqueue c m o s) = pathCores s :=
  (pathCores_joinList m c _).trans (pathCores_modifyPath c s)

@[simp] theorem pathCores_requestAudit (c : Nat) (m : Mode) (o : Origin) (s : State) :
    pathCores (requestAudit c m o s) = pathCores s := by
  unfold requestAudit
  split
  · rfl
  · split
    · exact pathCores_enqueue c _ o s
    · rfl

theorem pathCores_requestAudits (cs : List Nat) (m : Mode) (o : Origin) (s : State) :
    pathCores (requestAudits cs m o s) = pathCores s :=
  foldl_keeps _ _ _ pathCores fun u c => pathCores_requestAudit c m o u

theorem pathCores_moveForHold (c : Nat) (st : RecordState) (s : State) :
    pathCores (moveForHold c st s) = pathCores s := by
  unfold moveForHold
  split
  · exact pathCores_setRecordState c _ s
  · rw [pathCores_deferEntry, pathCores_setRecordState]
  · rw [pathCores_leaveList, pathCores_setRecordState]
  · rfl
  · rfl

@[simp] theorem pathCores_addHold (ser : Serial) (c : Nat) (s : State) : pathCores (addHold ser c s) = pathCores s := by
  unfold addHold
  split
  · rfl
  · split
    · rfl
    · exact (pathCores_moveForHold c _ _).trans (pathCores_modifyPath c s)

@[simp] theorem pathCores_removeHold (ser : Serial) (c : Nat) (s : State) :
    pathCores (removeHold ser c s) = pathCores s := by
  unfold removeHold
  split
  · rfl
  · split
    · rfl
    · dsimp only
      split
      · exact (pathCores_enqueue c _ _ _).trans (pathCores_modifyPath c s)
      · exact pathCores_modifyPath c s

@[simp] theorem pathCores_dropOwed (ser : Serial) (s : State) : pathCores (dropOwed ser s) = pathCores s :=
  pathCores_map _ s fun _ => rfl

theorem pathCores_moveIntoRun (id c : Nat) (st : RecordState) (s : State) :
    pathCores (moveIntoRun id c st s) = pathCores s := by
  unfold moveIntoRun
  split
  · split
    · exact pathCores_of_paths (by simp)
    · rfl
  · exact pathCores_of_paths (by simp)
  · exact (pathCores_setRecordState c _ _).trans (pathCores_of_paths (by simp))
  · exact pathCores_setRecordState c _ s
  · rfl

theorem pathCores_takeSelected (id : Nat) (sp : Span) (s : State) (c : Nat) :
    pathCores (takeSelected id sp s c) = pathCores s := by
  unfold takeSelected
  split
  · dsimp only
    split
    · exact pathCores_modifyPath c s
    · exact (pathCores_of_paths rfl).trans
        ((pathCores_moveIntoRun id c _ _).trans (pathCores_modifyPath c s))
  · rfl

@[simp] theorem pathCores_applyAlarm (sp : Span) (cause : Cause) (s : State) :
    pathCores (applyAlarm sp cause s) = pathCores s := by
  have hfold (id : Nat) (sel : List Nat) (u : State) : pathCores (sel.foldl (takeSelected id sp) u) = pathCores u :=
    foldl_keeps _ _ _ pathCores fun v c => pathCores_takeSelected id sp v c
  unfold applyAlarm
  dsimp only
  split
  · rfl
  · rw [newRun, pathCores_completeSuspended, hfold]
    exact pathCores_of_paths (by simp)
  · unfold mergeRun
    split
    · rfl
    · rw [pathCores_completeSuspended, pathCores_modifyRun, hfold]

@[simp] theorem pathCores_claimSlot (i c : Nat) (m : Mode) (o : Owner) (s : State) :
    pathCores (claimSlot i c m o s) = pathCores s := by
  unfold claimSlot
  split
  · rfl
  · exact pathCores_modifyPath c s

@[simp] theorem pathCores_resetPaths (s : State) : pathCores (resetPaths s) = pathCores s := by
  unfold resetPaths
  exact (pathCores_requestAudits _ _ _ _).trans (pathCores_map _ s fun _ => rfl)

theorem pathCores_resetWork (s : State) : pathCores (resetPaths (clearSlots (resetScheduler s))) = pathCores s := by
  rw [pathCores_resetPaths]
  exact pathCores_of_paths (by simp)

/-- Outside power-on and the load, no record is added, and none leaves. -/
theorem pathCores_act (hpieces : g.verdicts = true) (hresets : g.resets = true) (hact : Act g s t) :
    pathCores t = pathCores s ∨ t.paths = [] ∨ s.runState = .starting ∧ ∃ bytes, t = loadTaken bytes s := by
  cases hact with
  | boot c => exact .inr (.inl rfl)
  | load bytes hstart => exact .inr (.inr ⟨hstart, bytes, rfl⟩)
  | verdictPaths x _ hcore => exact .inl hcore
  | requestAudit => exact .inl (pathCores_requestAudit _ _ _ s)
  | addHold => exact .inl (pathCores_addHold _ _ s)
  | removeHold => exact .inl (pathCores_removeHold _ _ s)
  | dropOwed => exact .inl (pathCores_dropOwed _ s)
  | applyAlarm => exact .inl (pathCores_applyAlarm _ _ s)
  | baseLaunch i m c => exact .inl ((pathCores_claimSlot _ _ _ _ _).trans (pathCores_leaveList _ _ s))
  | sweepLaunch i id c => exact .inl ((pathCores_modifyRun _ _ _).trans (pathCores_claimSlot _ _ _ _ s))
  | resetWork => exact .inl (pathCores_resetWork s)
  | evaluate i p hwhole => simp [hpieces] at hwhole
  | evaluateWithdrawn i p hwhole => simp [hpieces] at hwhole
  | resetLoopOwn hwhole => simp [hresets] at hwhole
  | _ => exact .inl (pathCores_of_paths (by simp))

/-! ### The records at a load -/

/-- The state in which a load that ends in RUNNING fills the tables. -/
def loadBase (bytes : List Byte) (s : State) : State :=
  (loadFlags (checkImage (readImage bytes)).2
    ((s.setImage (checkImage (readImage bytes)).1).setFinding (checkImage (readImage bytes)).2)).setRunState .running

theorem loadTaken_of_running {bytes : List Byte} (hrun : (checkImage (readImage bytes)).2.outcome = .running)
    (s : State) : loadTaken bytes s = startServices (autoCensus (markLines (loadTables (loadBase bytes s)))) := by
  rw [loadTaken, if_pos hrun]
  rfl

theorem loadBase_image (bytes : List Byte) (s : State) : (loadBase bytes s).image = (checkImage (readImage bytes)).1 := by
  simp [loadBase]

@[simp] theorem pathCores_autoCensus (s : State) : pathCores (autoCensus s) = pathCores s := by
  unfold autoCensus
  split
  · exact pathCores_requestAudits _ _ _ s
  · rfl

/-- The records of the originated list. -/
theorem pathCores_loadTaken {bytes : List Byte} (hrun : (checkImage (readImage bytes)).2.outcome = .running)
    (s : State) : pathCores (loadTaken bytes s) =
      (checkImage (readImage bytes)).1.originated.map fun o => (o.circuit, o.line, o.addPort) := by
  have hstart (u : State) : pathCores (startServices u) = pathCores u := rfl
  have hmark (u : State) : pathCores (markLines u) = pathCores u := rfl
  rw [loadTaken_of_running hrun, hstart, pathCores_autoCensus, hmark, ← loadBase_image bytes s]
  simp only [pathCores, loadTables, State.setPaths_fields, List.map_map]
  rfl

end Sys2Proof.Machine
end

