-- ==== Sys2Proof/Proofs/InvTables.lean ====
section
/-! One hop entry a circuit, in circuit order, 256 at most, and a HEAD entry for every record (R1, R4, R6, R7). -/

namespace Sys2Proof.Machine

variable {g : Grain} {s t : State}

/-! ### Entries put and removed -/

theorem mem_circuits_putHop (l : List HopEntry) (e : HopEntry) (c : Nat) :
    c ∈ (putHop l e).map (·.circuit) ↔ c = e.circuit ∨ c ∈ l.map (·.circuit) := by
  induction l with
  | nil => simp [putHop]
  | cons h l ih =>
    unfold putHop
    split
    · rw [List.map_cons, List.mem_cons, ih, List.map_cons, List.mem_cons]
      tauto
    · split
      · rename_i heq
        rw [List.map_cons, List.mem_cons, List.map_cons, List.mem_cons, heq]
        tauto
      · rw [List.map_cons, List.mem_cons]

theorem mem_putHop {l : List HopEntry} {e x : HopEntry} (h : x ∈ putHop l e) : x = e ∨ x ∈ l := by
  induction l with
  | nil => simpa [putHop] using h
  | cons a l ih =>
    unfold putHop at h
    split at h
    · rcases List.mem_cons.1 h with rfl | h
      · exact .inr List.mem_cons_self
      · exact (ih h).imp_right (List.mem_cons_of_mem _)
    · split at h
      · exact (List.mem_cons.1 h).imp_right (List.mem_cons_of_mem _)
      · exact List.mem_cons.1 h

theorem mem_putHop_of_ne {l : List HopEntry} {e x : HopEntry} (hx : x ∈ l) (hne : x.circuit ≠ e.circuit) :
    x ∈ putHop l e := by
  induction l with
  | nil => cases hx
  | cons a l ih =>
    unfold putHop
    split
    · rcases List.mem_cons.1 hx with rfl | hx
      · exact List.mem_cons_self
      · exact List.mem_cons_of_mem _ (ih hx)
    · split
      · rename_i heq
        rcases List.mem_cons.1 hx with rfl | hx
        · exact absurd heq hne
        · exact List.mem_cons_of_mem _ hx
      · exact List.mem_cons_of_mem _ hx

theorem putHop_pairwise (l : List HopEntry) (e : HopEntry) (h : (l.map (·.circuit)).Pairwise (· < ·)) :
    ((putHop l e).map (·.circuit)).Pairwise (· < ·) := by
  induction l with
  | nil => simp [putHop]
  | cons a l ih =>
    rw [List.map_cons, List.pairwise_cons] at h
    obtain ⟨ha, hl⟩ := h
    unfold putHop
    split
    · rename_i hlt
      rw [List.map_cons, List.pairwise_cons]
      refine ⟨fun c hc => ?_, ih hl⟩
      rcases (mem_circuits_putHop l e c).1 hc with rfl | hc
      · exact hlt
      · exact ha c hc
    · split
      · rename_i heq
        rw [List.map_cons, List.pairwise_cons]
        exact ⟨heq ▸ ha, hl⟩
      · rename_i hlt hne
        have hgt : e.circuit < a.circuit := by omega
        rw [List.map_cons, List.map_cons, List.pairwise_cons, List.pairwise_cons]
        refine ⟨fun c hc => ?_, ha, hl⟩
        rcases List.mem_cons.1 hc with rfl | hc
        · exact hgt
        · exact hgt.trans (ha c hc)

theorem putHop_length_le (l : List HopEntry) (e : HopEntry) : (putHop l e).length ≤ l.length + 1 := by
  induction l with
  | nil => simp [putHop]
  | cons a l ih =>
    unfold putHop
    split
    · simpa using ih
    · split <;> simp

/-- An entry of a listed circuit replaces the one there is. -/
theorem putHop_length_of_mem {l : List HopEntry} {e : HopEntry} (hsorted : (l.map (·.circuit)).Pairwise (· < ·))
    (hmem : e.circuit ∈ l.map (·.circuit)) : (putHop l e).length = l.length := by
  induction l with
  | nil => cases hmem
  | cons a l ih =>
    rw [List.map_cons, List.pairwise_cons] at hsorted
    rw [List.map_cons, List.mem_cons] at hmem
    unfold putHop
    split
    · rename_i hlt
      rw [List.length_cons, List.length_cons, ih hsorted.2 (hmem.resolve_left (Nat.ne_of_gt hlt))]
    · split
      · rfl
      · rename_i hlt hne
        rcases hmem with heq | hin
        · exact absurd heq.symm hne
        · exact absurd (hsorted.1 _ hin) hlt

/-! ### What keeps the table -/

/-- The table: circuit order, capacity, and a HEAD entry for every record. -/
def TableOk (s : State) : Prop :=
  (s.hops.map (·.circuit)).Pairwise (· < ·) ∧ s.hops.length ≤ Config.hopCapacity ∧
    ∀ r ∈ s.paths, ∃ e ∈ s.hops, e.circuit = r.circuit ∧ e.role = .head

theorem tableOk_of_same (hhops : t.hops = s.hops) (hpaths : pathCores t = pathCores s) (h : TableOk s) : TableOk t := by
  obtain ⟨hsorted, hlen, hheads⟩ := h
  rw [← hhops] at hsorted hlen hheads
  refine ⟨hsorted, hlen, fun r hr => ?_⟩
  obtain ⟨x, hx, hcore⟩ := exists_core_of_pathCores hpaths hr
  obtain ⟨e, he, hc, hrole⟩ := hheads x hx
  exact ⟨e, he, hc.trans (congrArg (·.1) hcore), hrole⟩

theorem tableOk_modifyHop {c : Nat} {f : HopEntry → HopEntry}
    (hf : ∀ e, ((f e).circuit, (f e).role) = (e.circuit, e.role)) (h : TableOk s) : TableOk (modifyHop c f s) := by
  obtain ⟨hsorted, hlen, hheads⟩ := h
  have hcircuit (e : HopEntry) : (if e.circuit = c then f e else e).circuit = e.circuit ∧
      (if e.circuit = c then f e else e).role = e.role := by
    split
    · exact Prod.mk.inj (hf e)
    · exact ⟨rfl, rfl⟩
  refine ⟨?_, ?_, fun r hr => ?_⟩
  · have hcircuits : (s.hops.map fun e => if e.circuit = c then f e else e).map (·.circuit) =
        s.hops.map (·.circuit) := by
      rw [List.map_map]
      exact List.map_congr_left fun e _ => (hcircuit e).1
    exact hcircuits ▸ hsorted
  · simpa [modifyHop] using hlen
  · obtain ⟨e, he, hc, hrole⟩ := hheads r hr
    exact ⟨_, List.mem_map_of_mem he, (hcircuit e).1.trans hc, (hcircuit e).2.trans hrole⟩

/-- No record is of a circuit that the update from a watch entry may write. -/
theorem ne_of_findPath_none {c : Nat} (h : findPath s c = none) {r : PathRecord} (hr : r ∈ s.paths) :
    r.circuit ≠ c := by
  unfold findPath at h
  rw [List.find?_eq_none] at h
  simpa using h r hr

theorem tableOk_writeHop {e : HopEntry} (hnew : findPath s e.circuit = none) (h : TableOk s) :
    TableOk (writeHop e s) := by
  unfold writeHop
  split
  · rename_i hroom
    obtain ⟨hsorted, hlen, hheads⟩ := h
    refine ⟨putHop_pairwise _ e hsorted, ?_, fun r hr => ?_⟩
    · rcases hroom with hlisted | hroom
      · obtain ⟨x, hx⟩ := Option.isSome_iff_exists.1 hlisted
        have hmem : e.circuit ∈ s.hops.map (·.circuit) :=
          List.mem_map.2 ⟨x, List.mem_of_find?_eq_some hx, by simpa using List.find?_some hx⟩
        exact (putHop_length_of_mem hsorted hmem).trans_le hlen
      · exact (putHop_length_le _ e).trans hroom
    · obtain ⟨x, hx, hc, hrole⟩ := hheads r hr
      exact ⟨x, mem_putHop_of_ne hx (hc ▸ ne_of_findPath_none hnew hr), hc, hrole⟩
  · exact tableOk_of_same (by simp) (pathCores_of_paths (by simp)) h

theorem tableOk_learnHop (w : WatchEntry) (h : TableOk s) : TableOk (learnHop w s) := by
  unfold learnHop
  split
  · exact h
  · rename_i hnone
    have hnew : findPath s w.circuit = none := by simpa using hnone
    split
    · exact tableOk_writeHop hnew h
    · obtain ⟨hsorted, hlen, hheads⟩ := h
      refine ⟨hsorted.sublist (List.filter_sublist.map _), (List.length_filter_le _ _).trans hlen, fun r hr => ?_⟩
      obtain ⟨x, hx, hc, hrole⟩ := hheads r hr
      exact ⟨x, List.mem_filter.2 ⟨hx, by simpa [hc] using ne_of_findPath_none hnew hr⟩, hc, hrole⟩

theorem learnHop_keeps (w : WatchEntry) (s : State) :
    (learnHop w s).runState = s.runState ∧ (learnHop w s).loop.receive = s.loop.receive := by simp

/-! ### The table at a load (R4) -/

/-- The head entries of a list of circuits, put one by one. -/
theorem heads_of_originated (own : Nat) (os : List Originated) : ∀ l : List HopEntry,
    (l.map (·.circuit)).Pairwise (· < ·) → (∀ e ∈ l, e.role = .head) →
    let l' := os.foldl (fun t o => putHop t (headEntry own o)) l
    (l'.map (·.circuit)).Pairwise (· < ·) ∧ l'.length ≤ l.length + os.length ∧ (∀ e ∈ l', e.role = .head) ∧
      (∀ c, c ∈ l.map (·.circuit) ∨ (∃ o ∈ os, o.circuit = c) → c ∈ l'.map (·.circuit)) := by
  induction os with
  | nil => exact fun l hl hheads => ⟨hl, le_refl _, hheads, fun c hc => hc.resolve_right (by simp)⟩
  | cons o os ih =>
    intro l hl hheads
    obtain ⟨h1, h2, h3, h4⟩ := ih (putHop l (headEntry own o)) (putHop_pairwise l _ hl) fun e he => by
      rcases mem_putHop he with rfl | he
      · rfl
      · exact hheads e he
    refine ⟨h1, ?_, h3, fun c hc => h4 c ?_⟩
    · have := putHop_length_le l (headEntry own o)
      rw [List.length_cons]
      exact h2.trans (by omega)
    · rw [mem_circuits_putHop]
      rcases hc with hc | ⟨x, hx, rfl⟩
      · exact .inl (.inr hc)
      · rcases List.mem_cons.1 hx with rfl | hx
        · exact .inl (.inl rfl)
        · exact .inr ⟨x, hx, rfl⟩

theorem loadTaken_hops {bytes : List Byte} (hrun : (checkImage (readImage bytes)).2.outcome = .running)
    (s : State) : (loadTaken bytes s).hops =
      (checkImage (readImage bytes)).1.originated.foldl
        (fun t o => putHop t (headEntry (checkImage (readImage bytes)).1.station o)) [] := by
  rw [loadTaken_of_running hrun, ← loadBase_image bytes s]
  have hkeeps (u : State) : (startServices (autoCensus (markLines u))).hops = u.hops := by
    simp [startServices, markLines]
  rw [hkeeps]
  rfl

theorem tableOk_loadTaken {bytes : List Byte} (hrun : (checkImage (readImage bytes)).2.outcome = .running)
    (s : State) : TableOk (loadTaken bytes s) := by
  have hsound := sound_of_running hrun
  obtain ⟨hsorted, hlen, hheads, hall⟩ := heads_of_originated (checkImage (readImage bytes)).1.station
    (checkImage (readImage bytes)).1.originated [] List.Pairwise.nil (fun _ he => absurd he List.not_mem_nil)
  rw [← loadTaken_hops hrun s] at hsorted hlen hheads hall
  refine ⟨hsorted, hlen.trans (hsound.count.trans' (by simp) |>.trans (by decide)), fun r hr => ?_⟩
  have hmem : r.core ∈ pathCores (loadTaken bytes s) := List.mem_map_of_mem hr
  rw [pathCores_loadTaken hrun s] at hmem
  obtain ⟨o, ho, hcore⟩ := List.mem_map.1 hmem
  obtain ⟨e, he, hc⟩ := List.mem_map.1 (hall r.circuit (.inr ⟨o, ho, congrArg (·.1) hcore⟩))
  exact ⟨e, he, hc, hheads e he⟩

/-! ### Every change -/

theorem tableOk_act (hpieces : g.verdicts = true) (hresets : g.resets = true) (hact : Act g s t) (h : TableOk s) :
    TableOk t := by
  cases hact with
  | boot c => exact ⟨List.Pairwise.nil, Nat.zero_le _, fun _ hr => absurd hr List.not_mem_nil⟩
  | load bytes =>
    rcases loadTaken_run bytes s with ⟨_, hrun, _⟩ | ⟨_, hpaths, hhops, _⟩
    · exact tableOk_loadTaken hrun s
    · exact tableOk_of_same hhops (pathCores_of_paths hpaths) h
  | hopChange c f hf => exact tableOk_modifyHop hf h
  | learnHop w => exact tableOk_learnHop w h
  | verdictPaths x _ hcore => exact tableOk_of_same (s := s) rfl hcore h
  | requestAudit => exact tableOk_of_same (by simp) (pathCores_requestAudit _ _ _ s) h
  | addHold => exact tableOk_of_same (by simp) (pathCores_addHold _ _ s) h
  | removeHold => exact tableOk_of_same (by simp) (pathCores_removeHold _ _ s) h
  | dropOwed => exact tableOk_of_same (by simp) (pathCores_dropOwed _ s) h
  | applyAlarm => exact tableOk_of_same (by simp) (pathCores_applyAlarm _ _ s) h
  | baseLaunch => exact tableOk_of_same (by simp) (by simp) h
  | sweepLaunch => exact tableOk_of_same (by simp) (by simp) h
  | resetWork => exact tableOk_of_same (by simp) (pathCores_resetWork s) h
  | evaluate i p hwhole => simp [hpieces] at hwhole
  | evaluateWithdrawn i p hwhole => simp [hpieces] at hwhole
  | resetLoopOwn hwhole => simp [hresets] at hwhole
  | _ => exact tableOk_of_same (by simp) (pathCores_of_paths (by simp)) h

/-- Outside RUNNING nothing is held of circuits and nothing is received. -/
def NoTables (s : State) : Prop := s.runState ≠ .running → s.hops = [] ∧ s.paths = [] ∧ s.loop.receive = []

theorem noTables_of_fewer (hrun : t.runState = s.runState) (hhops : s.hops = [] → t.hops = [])
    (hpaths : pathCores t = pathCores s) (hreceive : t.loop.receive.Sublist s.loop.receive) (h : NoTables s) :
    NoTables t := by
  intro hne
  obtain ⟨h1, h2, h3⟩ := h (hrun ▸ hne)
  refine ⟨hhops h1, ?_, List.sublist_nil.1 (h3 ▸ hreceive)⟩
  rw [pathCores, pathCores, h2, List.map_nil, List.map_eq_nil_iff] at hpaths
  exact hpaths

theorem noTables_of_running (hrun : t.runState = .running) : NoTables t := fun hne => absurd hrun hne

theorem noTables_act (hpieces : g.verdicts = true) (hresets : g.resets = true)
    (hlive : g.live → s.runState = .running) (hact : Act g s t) (h : NoTables s) : NoTables t := by
  cases hact with
  | boot c => exact fun _ => ⟨rfl, rfl, rfl⟩
  | load bytes hstart =>
    obtain ⟨h1, h2, h3⟩ := h (by rw [hstart]; decide)
    rcases loadTaken_run bytes s with ⟨hrun, _⟩ | ⟨_, hpaths, hhops, _⟩
    · exact noTables_of_running hrun
    · exact fun _ => ⟨hhops.trans h1, hpaths.trans h2, by simpa using h3⟩
  | hopChange c f => exact noTables_of_fewer (s := s) rfl (fun hnil => by simp [modifyHop, hnil]) rfl (.refl _) h
  | learnHop w hg => exact noTables_of_running (by simpa using hlive hg)
  | enqueueReceived x m p hrun => exact noTables_of_running hrun
  | popOldest => exact noTables_of_fewer (s := s) rfl id rfl (List.tail_sublist _) h
  | watchStart => exact noTables_of_fewer (s := s) rfl id rfl (List.tail_sublist _) h
  | windowReceived => exact noTables_of_fewer (s := s) rfl id rfl (List.tail_sublist _) h
  | queueReset => exact noTables_of_fewer (s := s) rfl id rfl List.filter_sublist h
  | verdictPaths x _ hcore => exact noTables_of_fewer (s := s) rfl id hcore (.refl _) h
  | requestAudit => exact noTables_of_fewer (by simp) (by simp) (pathCores_requestAudit _ _ _ s) (by simp) h
  | addHold => exact noTables_of_fewer (by simp) (by simp) (pathCores_addHold _ _ s) (by simp) h
  | removeHold => exact noTables_of_fewer (by simp) (by simp) (pathCores_removeHold _ _ s) (by simp) h
  | dropOwed => exact noTables_of_fewer (by simp) (by simp) (pathCores_dropOwed _ s) (by simp) h
  | applyAlarm => exact noTables_of_fewer (by simp) (by simp) (pathCores_applyAlarm _ _ s) (by simp) h
  | baseLaunch => exact noTables_of_fewer (by simp) (by simp) (by simp) (by simp) h
  | sweepLaunch => exact noTables_of_fewer (by simp) (by simp) (by simp) (by simp) h
  | resetWork => exact noTables_of_fewer (by simp) (by simp) (pathCores_resetWork s) (by simp) h
  | evaluate i p hwhole => simp [hpieces] at hwhole
  | evaluateWithdrawn i p hwhole => simp [hpieces] at hwhole
  | resetLoopOwn hwhole => simp [hresets] at hwhole
  | _ => exact noTables_of_fewer (by simp) (by simp) (pathCores_of_paths (by simp)) (by simp) h

theorem circuitTableOk_iff (s : State) : CircuitTableOk s ↔ TableOk s ∧ NoTables s :=
  ⟨fun ⟨h1, h2, h3, h4⟩ => ⟨⟨h1, h2, h3⟩, h4⟩, fun ⟨⟨h1, h2, h3⟩, h4⟩ => ⟨h1, h2, h3, h4⟩⟩

theorem circuitTableOk_act (hpieces : g.verdicts = true) (hresets : g.resets = true) (hact : Act g s t)
    (h : (g.live → s.runState = .running) ∧ CircuitTableOk s) :
    (g.live → t.runState = .running) ∧ CircuitTableOk t := by
  obtain ⟨hlive, hs⟩ := h
  obtain ⟨htable, hnone⟩ := (circuitTableOk_iff s).1 hs
  exact ⟨live_act hact hlive, (circuitTableOk_iff t).2
    ⟨tableOk_act hpieces hresets hact htable, noTables_act hpieces hresets hlive hact hnone⟩⟩

theorem circuitTableOk_quiet (hq : Quiet s t) (h : CircuitTableOk s) : CircuitTableOk t := by
  obtain ⟨_, _, _, _, _, _, _, rfl⟩ := hq
  exact h

/-- A received notice is there only in RUNNING. -/
theorem running_of_live {c : Instr} {verdicts resets : Bool} (hquiet : s.runState ≠ .running → s.loop.receive = [])
    (hlive : (rowGrain c s verdicts resets).live) : s.runState = .running := by
  by_contra hne
  exact hlive.1 (hquiet hne)

theorem circuitTableOk_step (h : CircuitTableOk s) (hstep : step s = .next t) : CircuitTableOk t :=
  step_keeps (fun g u => (g.live → u.runState = .running) ∧ CircuitTableOk u) true true circuitTableOk_quiet
    (fun _ _ hs => ⟨running_of_live fun hne => (hs.2.2.2 hne).2.2, hs⟩)
    (fun _ c s hs => ⟨hs.1, circuitTableOk_quiet (quiet_intakeCommand c s) hs.2⟩)
    (fun _ _ _ hv hr => circuitTableOk_act hv hr) (fun _ _ hs => hs.2) h hstep

/-- Settles O9: entries are put in circuit order, and those of records are never removed. -/
theorem circuitTableStaysOrdered : Obligations.CircuitTableStaysOrdered := fun _ _ => circuitTableOk_step

end Sys2Proof.Machine
end

