-- ==== Sys2Proof/Proofs/InvReports.lean ====
section
/-! The report queue holds 32 records at most, and a record that waits to leave is its head (R180, R181). -/

namespace Sys2Proof.Machine

variable {g : Grain} {s t : State} {c : Instr}

/-! ### Posts and flags -/

/-- What posts and flags do to the Control Port: the response stays, the queue grows at its tail, within its capacity. -/
structure ControlPort.Posted (c c' : ControlPort) : Prop where
  response : c'.response = c.response
  held     : c'.reportHeld = c.reportHeld
  queue    : c.queue <+: c'.queue
  length   : c'.queue.length ≤ max c.queue.length Config.reportCapacity
  number   : c.reportNumber < 256 → c'.reportNumber < 256

theorem ControlPort.Posted.refl (c : ControlPort) : c.Posted c :=
  ⟨rfl, rfl, List.prefix_rfl, le_max_left _ _, id⟩

theorem ControlPort.Posted.of_eq {c c' : ControlPort} (h : c' = c) : c.Posted c' := h ▸ .refl c

theorem ControlPort.Posted.trans {a b c : ControlPort} (h : a.Posted b) (h' : b.Posted c) : a.Posted c :=
  ⟨h'.response.trans h.response, h'.held.trans h.held, h.queue.trans h'.queue,
    h'.length.trans (max_le (h.length) (le_max_right _ _)), h'.number ∘ h.number⟩

theorem posted_raiseAlert (a : Alert) (s : State) : s.ctl.Posted (raiseAlert a s).ctl :=
  ⟨rfl, rfl, List.prefix_rfl, le_max_left _ _, id⟩

theorem posted_setFault (f : FaultFlag) (s : State) : s.ctl.Posted (setFault f s).ctl :=
  ⟨rfl, rfl, List.prefix_rfl, le_max_left _ _, id⟩

theorem postReport_response (r : Report) (s : State) :
    (postReport r s).ctl.response = s.ctl.response ∧ (postReport r s).ctl.reportHeld = s.ctl.reportHeld := by
  unfold postReport keepReport discardReport
  dsimp only
  repeat' split
  all_goals exact ⟨rfl, rfl⟩

theorem posted_postReport (r : Report) (s : State) : s.ctl.Posted (postReport r s).ctl := by
  obtain ⟨hresponse, hheld⟩ := postReport_response r s
  refine ⟨hresponse, hheld, ?_, ?_, fun _ => ?_⟩
  · rw [postReport_queue]
    split
    · exact List.prefix_append _ _
    · exact List.prefix_rfl
  · rw [postReport_queue]
    split
    · rename_i hlt
      rw [List.length_append]
      exact le_max_of_le_right hlt
    · exact le_max_left _ _
  · rw [postReport_number]
    exact Nat.mod_lt _ (by decide)

theorem posted_completeRun (id : Nat) (s : State) : s.ctl.Posted (completeRun id s).ctl := by
  unfold completeRun
  split
  · exact .refl _
  · rename_i r _
    split
    · exact .refl _
    · refine (posted_postReport (.sweepSummary r.summary) s).trans (.of_eq ?_)
      dsimp only
      split <;> simp

theorem posted_touchRun (id k : Nat) (x : RunStanding) (s : State) : s.ctl.Posted (touchRun id k x s).ctl :=
  posted_completeRun id (modifyRun id (·.setStanding k x) s)

theorem posted_addHold (ser : Serial) (k : Nat) (s : State) : s.ctl.Posted (addHold ser k s).ctl := by
  have hdefer (u : State) : u.ctl.Posted (deferEntry k u).ctl := by
    unfold deferEntry
    split
    · exact posted_touchRun _ k _ u
    · exact .refl _
  unfold addHold
  split
  · exact .refl _
  · split
    · exact .refl _
    · unfold moveForHold
      split
      · exact .refl _
      · refine (ControlPort.Posted.of_eq ?_).trans (hdefer _)
        rfl
      · exact .of_eq (by simp)
      · exact .refl _
      · exact .refl _

theorem posted_completeSuspended (s : State) : s.ctl.Posted (completeSuspended s).ctl := by
  have hfold (l : List Run) : ∀ u : State, u.ctl.Posted (l.foldl (fun v r => completeRun r.id v) u).ctl := by
    induction l with
    | nil => exact fun u => .refl _
    | cons r l ih => exact fun u => (posted_completeRun r.id u).trans (ih _)
  exact hfold _ s

theorem posted_applyAlarm (sp : Span) (cause : Cause) (s : State) : s.ctl.Posted (applyAlarm sp cause s).ctl := by
  have hfold (id : Nat) (sel : List Nat) (u : State) : (sel.foldl (takeSelected id sp) u).ctl = u.ctl :=
    foldl_keeps _ _ _ State.ctl fun v k => by simp
  unfold applyAlarm
  dsimp only
  split
  · exact .refl _
  · refine (ControlPort.Posted.of_eq ?_).trans (posted_completeSuspended _)
    rw [hfold]
    simp
  · unfold mergeRun
    split
    · exact .refl _
    · refine (ControlPort.Posted.of_eq ?_).trans (posted_completeSuspended _)
      exact hfold _ _ s

theorem posted_applyGrade (n : Nat) (s : State) : s.ctl.Posted (applyGrade n s).ctl := by
  unfold applyGrade
  split
  · exact .refl _
  · dsimp only
    split
    · exact posted_raiseAlert .grade s
    · exact posted_raiseAlert .grade s

theorem posted_recompute (s : State) : s.ctl.Posted (recompute s).ctl :=
  (ControlPort.Posted.of_eq (by rfl)).trans (posted_applyGrade _ _)

theorem posted_learnHop (w : WatchEntry) (s : State) : s.ctl.Posted (learnHop w s).ctl := by
  unfold learnHop
  split
  · exact .refl _
  · split
    · unfold writeHop
      split
      · exact .refl _
      · exact posted_setFault .ctFull s
    · exact .refl _

/-! ### What keeps the queue and its number -/

/-- The queue and the record held, without what STARTING adds. -/
def HeldOk (s : State) : Prop :=
  s.ctl.queue.length ≤ Config.reportCapacity ∧ s.ctl.reportNumber < 256 ∧
    (s.ctl.reportHeld = true → s.ctl.headAnswered = true ∧ s.scanner.noneWanted)

theorem headAnswered_of_posted {c c' : ControlPort} (hp : c.Posted c') (h : c.headAnswered = true) :
    c'.headAnswered = true := by
  obtain ⟨l, hl⟩ := hp.queue
  unfold ControlPort.headAnswered at h ⊢
  rw [hp.response, ← hl]
  cases hq : c.queue with
  | nil => rw [hq] at h; exact absurd h (by simp)
  | cons x q =>
    rw [hq] at h
    obtain ⟨n, r⟩ := x
    cases hr : c.response with
    | none => rw [hr] at h; exact h
    | some a => rw [hr] at h; exact h

theorem heldOk_of_posted (hp : s.ctl.Posted t.ctl) (hwanted : s.scanner.noneWanted → t.scanner.noneWanted)
    (h : HeldOk s) : HeldOk t := by
  obtain ⟨hlen, hnumber, hheld⟩ := h
  refine ⟨hp.length.trans (max_le hlen le_rfl), hp.number hnumber, fun hh => ?_⟩
  obtain ⟨hhead, hnone⟩ := hheld (hp.held ▸ hh)
  exact ⟨headAnswered_of_posted hp hhead, hwanted hnone⟩

/-- The scanner's lists are no reader's dwell. -/
theorem noneWanted_beginDwell (h : s.scanner.noneWanted) : (beginDwell s).scanner.noneWanted := by
  obtain ⟨hrequest, hdwell⟩ := h
  unfold beginDwell
  rw [hrequest]
  dsimp only
  split
  · exact ⟨hrequest, rfl⟩
  · exact ⟨hrequest, hdwell⟩

theorem noneWanted_act (hpieces : g.verdicts = true) (hresets : g.resets = true) (hact : Act g s t)
    (h : s.scanner.noneWanted) : t.scanner.noneWanted := by
  cases hact with
  | boot c => exact ⟨rfl, rfl⟩
  | scan x hsame =>
    obtain ⟨hrequest, hdwell⟩ := Prod.mk.inj hsame
    exact ⟨hrequest.trans h.1, hdwell ▸ h.2⟩
  | beginDwell => exact noneWanted_beginDwell h
  | reportPort => exact h
  | watchStart => exact h
  | grant c =>
    have hscanner : (grant c s).scanner.request = s.scanner.request ∧ (grant c s).scanner.dwell = s.scanner.dwell := by
      unfold grant takeClaim
      split <;> simp [changeScanner, takeWindowRequest]
    exact ⟨hscanner.1.trans h.1, hscanner.2 ▸ h.2⟩
  | evaluate i p hwhole => simp [hpieces] at hwhole
  | evaluateWithdrawn i p hwhole => simp [hpieces] at hwhole
  | resetLoopOwn hwhole => simp [hresets] at hwhole
  | _ => simpa using h

/-- A read of the whole frame takes the record off the queue (R181). -/
theorem heldOk_readTransaction (n : Nat) (h : HeldOk s) : HeldOk (s.setCtl
    (if s.ctl.reportHeld && readsWhole s n then
      { s.ctl with portOut := readBytes s n, queue := s.ctl.queue.tail, reportHeld := false }
    else { s.ctl with portOut := readBytes s n })) := by
  obtain ⟨hlen, hnumber, hheld⟩ := h
  split
  · refine ⟨?_, hnumber, fun hh => absurd hh (by simp)⟩
    simp only [State.setCtl_fields, List.length_tail]
    omega
  · exact ⟨hlen, hnumber, hheld⟩

/-- A dwell that a reader waits for ends only while no record is held. -/
theorem heldOk_answerDwell {d : Dwell} (r : DwellResult) (hd : s.scanner.dwell = some d) (h : HeldOk s) :
    HeldOk (answerDwell d r s) := by
  unfold answerDwell
  split
  · rename_i hwanted
    obtain ⟨hlen, hnumber, hheld⟩ := h
    refine ⟨hlen, hnumber, fun hh => ?_⟩
    have hnone := (hheld hh).2.2
    rw [hd] at hnone
    simp [hwanted] at hnone
  · exact h

theorem heldOk_act (hpieces : g.verdicts = true) (hresets : g.resets = true) (hact : Act g s t) (h : HeldOk s) :
    HeldOk t := by
  have hwanted := noneWanted_act hpieces hresets hact
  cases hact with
  | boot c => exact ⟨Nat.zero_le _, Nat.zero_lt_succ 255, fun hh => absurd hh Bool.false_ne_true⟩
  | load bytes =>
    refine heldOk_of_posted ⟨by simp, by simp, by simp, by simp, fun hn => by simpa using hn⟩ hwanted h
  | flags x hsame =>
    simp only [Prod.mk.injEq] at hsame
    obtain ⟨hqueue, hnumber, hresponse, hheld⟩ := hsame
    refine heldOk_of_posted (s := s) ⟨hresponse, hheld, hqueue ▸ List.prefix_rfl, ?_, fun hn => ?_⟩ hwanted h
    · simp only [State.setCtl_fields, hqueue]
      exact le_max_left _ _
    · simp only [State.setCtl_fields, hnumber]
      exact hn
  | post r => exact heldOk_of_posted (posted_postReport r s) hwanted h
  | readTransaction n => exact heldOk_readTransaction n h
  | answerDwell d r hdwell => exact heldOk_answerDwell r hdwell h
  | learnHop w => exact heldOk_of_posted (posted_learnHop w s) hwanted h
  | presence n f =>
    exact heldOk_of_posted ((ControlPort.Posted.of_eq (by simp)).trans (posted_recompute _)) hwanted h
  | joined n =>
    exact heldOk_of_posted ((ControlPort.Posted.of_eq (by simp)).trans (posted_recompute _)) hwanted h
  | creditRun id k x => exact heldOk_of_posted (posted_touchRun id k x s) hwanted h
  | addHold ser k => exact heldOk_of_posted (posted_addHold ser k s) hwanted h
  | applyAlarm sp cause => exact heldOk_of_posted (posted_applyAlarm sp cause s) hwanted h
  | evaluate i p hwhole => simp [hpieces] at hwhole
  | evaluateWithdrawn i p hwhole => simp [hpieces] at hwhole
  | resetLoopOwn hwhole => simp [hresets] at hwhole
  | _ => exact heldOk_of_posted (.of_eq (by simp)) hwanted h

/-! ### Rows and their answers -/

/-- No change takes a record on hold: a READ REPORT that is served does. -/
theorem reportHeld_act (hpieces : g.verdicts = true) (hresets : g.resets = true) (hact : Act g s t)
    (h : s.ctl.reportHeld = false) : t.ctl.reportHeld = false := by
  cases hact with
  | boot c => rfl
  | flags x hsame =>
    simp only [Prod.mk.injEq] at hsame
    exact hsame.2.2.2.trans h
  | post r => exact (posted_postReport r s).held.trans h
  | readTransaction n =>
    simp [h]
  | answerDwell d r =>
    unfold answerDwell
    split <;> exact h
  | learnHop w => exact (posted_learnHop w s).held.trans h
  | presence n f => exact (posted_recompute _).held.trans (by simpa using h)
  | joined n => exact (posted_recompute _).held.trans (by simpa using h)
  | creditRun id k x => exact (posted_touchRun id k x s).held.trans h
  | addHold ser k => exact (posted_addHold ser k s).held.trans h
  | applyAlarm sp cause => exact (posted_applyAlarm sp cause s).held.trans h
  | evaluate i p hwhole => simp [hpieces] at hwhole
  | evaluateWithdrawn i p hwhole => simp [hpieces] at hwhole
  | resetLoopOwn hwhole => simp [hresets] at hwhole
  | _ => simpa using h

theorem heldOk_reach (hpieces : g.verdicts = true) (hresets : g.resets = true) (hreach : Reach g s t)
    (h : HeldOk s) : HeldOk t := by
  induction hreach with
  | refl => exact h
  | tail _ hlast ih => exact heldOk_act hpieces hresets hlast ih

theorem noneWanted_reach (hpieces : g.verdicts = true) (hresets : g.resets = true) (hreach : Reach g s t)
    (h : s.scanner.noneWanted) : t.scanner.noneWanted := by
  induction hreach with
  | refl => exact h
  | tail _ hlast ih => exact noneWanted_act hpieces hresets hlast ih

theorem reportHeld_reach (hpieces : g.verdicts = true) (hresets : g.resets = true) (hreach : Reach g s t)
    (h : s.ctl.reportHeld = false) : t.ctl.reportHeld = false := by
  induction hreach with
  | refl => exact h
  | tail _ hlast ih => exact reportHeld_act hpieces hresets hlast ih

/-- No change but power-on enters STARTING, and power-on stops every dwell. -/
theorem starting_of_act (hact : Act g s t) (ht : t.runState = .starting) :
    s.runState = .starting ∨ t.scanner.noneWanted := by
  cases hact with
  | boot c => exact .inr ⟨rfl, rfl⟩
  | load bytes =>
    rcases loadTaken_run bytes s with ⟨hrun, _⟩ | ⟨hrun, _⟩
    · rw [hrun] at ht
      cases ht
    · rw [hrun] at ht
      cases ht
  | _ => exact .inl (by simpa using ht)

theorem reportsOk_iff (s : State) : ReportsOk s ↔ HeldOk s ∧ (s.runState = .starting → s.scanner.noneWanted) :=
  ⟨fun ⟨h1, h2, h3, h4⟩ => ⟨⟨h1, h2, h3⟩, h4⟩, fun ⟨⟨h1, h2, h3⟩, h4⟩ => ⟨h1, h2, h3, h4⟩⟩

theorem reportsOk_act (hpieces : g.verdicts = true) (hresets : g.resets = true) (hact : Act g s t) (h : ReportsOk s) :
    ReportsOk t := by
  rw [reportsOk_iff] at h ⊢
  refine ⟨heldOk_act hpieces hresets hact h.1, fun ht => ?_⟩
  rcases starting_of_act hact ht with hs | hnone
  · exact noneWanted_act hpieces hresets hact (h.2 hs)
  · exact hnone

theorem reportsOk_reach (hpieces : g.verdicts = true) (hresets : g.resets = true) (hreach : Reach g s t)
    (h : ReportsOk s) : ReportsOk t := by
  induction hreach with
  | refl => exact h
  | tail _ hlast ih => exact reportsOk_act hpieces hresets hlast ih

/-- An answer to a frame, with no record held before it and no reader waiting. -/
theorem reportsOk_answered (hanswer : Answered s t) (hheld : s.ctl.reportHeld = false) (hnone : s.scanner.noneWanted)
    (h : ReportsOk s) : ReportsOk t := by
  obtain ⟨hlen, hnumber, _, hstart⟩ := h
  cases hanswer with
  | silent => exact ⟨hlen, hnumber, fun hh => absurd (hheld.symm.trans hh) Bool.false_ne_true, hstart⟩
  | respond r => exact ⟨hlen, hnumber, fun hh => absurd (hheld.symm.trans hh) Bool.false_ne_true, hstart⟩
  | request port hrun =>
    exact ⟨hlen, hnumber, fun hh => absurd (hheld.symm.trans hh) Bool.false_ne_true,
      fun hs => absurd (hrun.symm.trans hs) (by decide)⟩
  | readReport =>
    unfold answer serveReadReport
    dsimp only
    cases hq : s.ctl.queue with
    | nil =>
      refine ⟨by simp, hnumber, fun hh => ?_, hstart⟩
      exact absurd (hheld.symm.trans hh) Bool.false_ne_true
    | cons x q =>
      obtain ⟨n, r⟩ := x
      refine ⟨by simpa [hq] using hlen, hnumber, fun _ => ⟨?_, hnone⟩, hstart⟩
      simp [ControlPort.headAnswered]

/-- A response goes with every record held. -/
theorem reportHeld_of_silent (hresponse : s.ctl.response = none) (h : ReportsOk s) : s.ctl.reportHeld = false := by
  cases hheld : s.ctl.reportHeld with
  | false => rfl
  | true =>
    have hhead := (h.2.2.1 hheld).1
    unfold ControlPort.headAnswered at hhead
    rw [hresponse] at hhead
    cases hq : s.ctl.queue with
    | nil => rw [hq] at hhead; cases hhead
    | cons x q => obtain ⟨n, r⟩ := x; rw [hq] at hhead; cases hhead

/-- A frame that comes leaves no record held and no reader waiting (R172, R29, R181). -/
theorem noneWanted_intake (c : Instr) (s : State) : (intakeCommand c s).scanner.noneWanted := by
  refine ⟨rfl, ?_⟩
  change (s.scanner.dwell.map Dwell.unwanted).all (!·.wanted) = true
  cases s.scanner.dwell <;> rfl

theorem reportsOk_intake (c : Instr) (h : ReportsOk s) : ReportsOk (intakeCommand c s) :=
  ⟨h.1, h.2.1, fun hh => absurd hh Bool.false_ne_true, fun _ => noneWanted_intake c s⟩

theorem reportsOk_row (hpieces : g.verdicts = true) (hresets : g.resets = true) (hrow : Row g c s t)
    (h : ReportsOk s) : ReportsOk t := by
  rcases hrow with hreach | ⟨u, w, hu, hreach, hresponse, v, hserve, hanswer⟩
  · exact reportsOk_reach hpieces hresets hreach h
  · have hstart : ReportsOk u ∧ u.scanner.noneWanted := by
      rcases hu with ⟨rfl, hs⟩ | rfl
      · exact ⟨h, h.2.2.2 hs⟩
      · exact ⟨reportsOk_intake c h, noneWanted_intake c s⟩
    have hw := reportsOk_reach hpieces hresets hreach hstart.1
    have hheld := reportHeld_of_silent hresponse hw
    exact reportsOk_answered hanswer (reportHeld_reach hpieces hresets hserve hheld)
      (noneWanted_reach hpieces hresets (hreach.trans hserve) hstart.2) (reportsOk_reach hpieces hresets hserve hw)

/-- Settles O4: posts join the tail, and the record held is answered by its own READ REPORT. -/
theorem reportQueueStaysInOrder : Obligations.ReportQueueStaysInOrder := by
  intro s t h hstep
  unfold step at hstep
  split at hstep
  · rename_i c rest _
    exact reportsOk_row rfl rfl (exec_row true true hstep) (show ReportsOk (s.setPending rest) from h)
  · cases hstep
    unfold idle
    split <;> exact h

end Sys2Proof.Machine
end

