-- ==== Sys2Proof/Proofs/InvRoster.lean ====
section
/-! The loop grade and the batching permission are those of the roster (R160, R168). -/

namespace Sys2Proof.Machine

variable {g : Grain} {s t : State}

/-! ### The roster recomputed -/

theorem applyGrade_roster (n : Nat) (s : State) :
    (applyGrade n s).roster = { s.roster with grade := n } := by
  unfold applyGrade
  split
  · rename_i heq
    rw [heq]
  · dsimp only
    split <;> rfl

theorem recompute_roster (s : State) : (recompute s).roster =
    { s.roster with grade := loopGradeOf s.roster.entries, batching := batchingOf s.roster.entries } := by
  rw [recompute, applyGrade_roster]
  rfl

/-! ### Lists changed in one place -/

theorem mem_modify {α : Type} {l : List α} {i : Nat} {f : α → α} {x : α} (h : x ∈ l.modify i f) :
    x ∈ l ∨ ∃ a, l[i]? = some a ∧ x = f a := by
  obtain ⟨k, hk⟩ := List.getElem?_of_mem h
  rw [List.getElem?_modify] at hk
  split at hk
  · rename_i hik
    subst hik
    obtain ⟨a, ha, rfl⟩ := Option.map_eq_some_iff.1 hk
    exact .inr ⟨a, ha, rfl⟩
  · rw [id_map'] at hk
    exact .inl (List.mem_of_getElem? hk)

theorem map_modify_of_eq {α β : Type} (l : List α) (i : Nat) (f : α → α) (key : α → β)
    (hf : ∀ a, key (f a) = key a) : (l.modify i f).map key = l.map key := by
  refine List.ext_getElem? fun k => ?_
  rw [List.getElem?_map, List.getElem?_modify, List.getElem?_map]
  split
  · cases l[k]? with
    | none => rfl
    | some a => exact congrArg some (hf a)
  · rw [id_map']

/-! ### What keeps the roster -/

/-- The loop grade and the batching permission depend on presence and advertisements alone. -/
theorem presentAdverts_congr {es es' : List RosterEntry}
    (h : es'.map (fun e => (e.present, e.advert)) = es.map fun e => (e.present, e.advert)) :
    presentAdverts es' = presentAdverts es := by
  have hproject (l : List RosterEntry) : presentAdverts l =
      ((l.map fun e => (e.present, e.advert)).filter (·.1)).map (·.2) := by
    rw [presentAdverts, List.filter_map, List.map_map]
    rfl
  rw [hproject, hproject, h]

theorem rosterOk_of_same (hentries : t.roster.entries = s.roster.entries) (hgrade : t.roster.grade = s.roster.grade)
    (hbatching : t.roster.batching = s.roster.batching) (h : RosterOk s) : RosterOk t := by
  unfold RosterOk
  rwa [hentries, hgrade, hbatching]

/-- The entries, changed in one place, are in order when the changed one is. -/
theorem entries_ok_modifyRoster {n : Nat} {f : RosterEntry → RosterEntry} (hlen : s.roster.entries.length = 24)
    (hall : ∀ e ∈ s.roster.entries, e.ok) (hok : (rosterAt s n).ok → (f (rosterAt s n)).ok) :
    (modifyRoster n f s).roster.entries.length = 24 ∧ ∀ e ∈ (modifyRoster n f s).roster.entries, e.ok := by
  unfold modifyRoster
  split
  · rename_i hn
    refine ⟨by simpa using hlen, fun e he => ?_⟩
    simp only [State.setRoster_fields] at he
    rcases mem_modify he with he | ⟨x, hx, rfl⟩
    · exact hall e he
    · have hat : rosterAt s n = x := by
        rw [rosterAt, if_pos hn, List.getD_eq_getElem?_getD, hx]
        rfl
      rw [hat] at hok
      exact hok (hall x (List.mem_of_getElem? hx))
  · exact ⟨hlen, hall⟩

theorem rosterOk_entry {n : Nat} {f : RosterEntry → RosterEntry}
    (hf : ∀ e, ((f e).present, (f e).advert) = (e.present, e.advert))
    (hok : (rosterAt s n).ok → (f (rosterAt s n)).ok) (h : RosterOk s) : RosterOk (modifyRoster n f s) := by
  obtain ⟨hlen, hgrade, hbatching, hall⟩ := h
  obtain ⟨hlen', hall'⟩ := entries_ok_modifyRoster hlen hall hok
  have hadverts : presentAdverts (modifyRoster n f s).roster.entries = presentAdverts s.roster.entries := by
    refine presentAdverts_congr ?_
    unfold modifyRoster
    split
    · exact map_modify_of_eq _ _ _ _ hf
    · rfl
  have hkeeps : (modifyRoster n f s).roster.grade = s.roster.grade ∧
      (modifyRoster n f s).roster.batching = s.roster.batching := by
    unfold modifyRoster
    split <;> exact ⟨rfl, rfl⟩
  refine ⟨hlen', ?_, ?_, hall'⟩
  · rw [hkeeps.1, hgrade, loopGradeOf, loopGradeOf, hadverts]
  · rw [hkeeps.2, hbatching, batchingOf, batchingOf, hadverts]

theorem rosterOk_presence {n : Nat} {f : RosterEntry → RosterEntry}
    (hok : (rosterAt s n).ok → (f (rosterAt s n)).ok) (h : RosterOk s) : RosterOk (recompute (modifyRoster n f s)) := by
  obtain ⟨hlen, _, _, hall⟩ := h
  obtain ⟨hlen', hall'⟩ := entries_ok_modifyRoster hlen hall hok
  unfold RosterOk
  rw [recompute_roster]
  exact ⟨hlen', rfl, rfl, hall'⟩

theorem rosterOk_joined (n : Nat) (h : RosterOk s) : RosterOk (joinedRoster (linger n s)) := by
  have hlinger : RosterOk ((linger n s).setRoster { (linger n s).roster with joined := true }) :=
    rosterOk_of_same (s := s) (by simp) (by simp) (by simp) h
  refine rosterOk_presence (fun _ => ⟨Nat.zero_le _, fun _ => Nat.zero_le _, fun a ha => ?_⟩) hlinger
  rw [Option.mem_some_iff] at ha
  rw [← ha]
  exact ownAdvert_grade _

theorem loadTaken_roster (bytes : List Byte) (s : State) :
    (loadTaken bytes s).roster.entries = s.roster.entries ∧ (loadTaken bytes s).roster.grade = s.roster.grade ∧
    (loadTaken bytes s).roster.batching = s.roster.batching ∧ (loadTaken bytes s).roster.joined = s.roster.joined := by
  unfold loadTaken
  dsimp only
  split
  · simp [startServices, markLines]
  · simp [enterPassive]

theorem rosterOk_act (hpieces : g.verdicts = true) (hresets : g.resets = true) (hact : Act g s t) (h : RosterOk s) :
    RosterOk t := by
  cases hact with
  | boot c =>
    refine ⟨rfl, rfl, rfl, fun e he => ?_⟩
    rw [List.eq_of_mem_replicate (show e ∈ List.replicate 24 blankEntry from he)]
    exact blankEntry_ok
  | load bytes =>
    obtain ⟨h1, h2, h3, _⟩ := loadTaken_roster bytes s
    exact rosterOk_of_same h1 h2 h3 h
  | entry n f hf hok => exact rosterOk_entry hf hok h
  | presence n f hok => exact rosterOk_presence hok h
  | joined n => exact rosterOk_joined n h
  | evaluate i p hwhole => simp [hpieces] at hwhole
  | evaluateWithdrawn i p hwhole => simp [hpieces] at hwhole
  | resetLoopOwn hwhole => simp [hresets] at hwhole
  | _ => exact rosterOk_of_same (by simp) (by simp) (by simp) h

theorem rosterOk_quiet (hq : Quiet s t) (h : RosterOk s) : RosterOk t := by
  obtain ⟨_, _, _, _, _, _, _, rfl⟩ := hq
  exact h

theorem rosterOk_step (h : RosterOk s) (hstep : step s = .next t) : RosterOk t :=
  step_keeps_self true true rosterOk_quiet (fun _ _ _ hv hr => rosterOk_act hv hr) h hstep

end Sys2Proof.Machine
end

