-- ==== Sys2Proof/Proofs/InvJoining.lean ====
section
/-! One JOIN at most is under way, and only while JOINING; no slot is taken before its outcome (R48, R147, R161, R162). -/

namespace Sys2Proof.Machine

variable {g : Grain} {s t : State}

/-! ### JOINs in the lists -/

/-- An outstanding JOIN without its outcome. -/
def Outstanding.openJoin (o : Outstanding) : Bool := o.standing != .lingering && o.request.payload.kind == 1

theorem openJoins_eq (s : State) : openJoins s = s.roster.joinRequest.toNat +
    s.loop.newNotices.countP (·.payload.kind == 1) + s.loop.outstanding.countP (·.openJoin) := rfl

theorem openJoins_of_same (hrequest : t.roster.joinRequest = s.roster.joinRequest)
    (hnew : t.loop.newNotices = s.loop.newNotices) (hout : t.loop.outstanding = s.loop.outstanding) :
    openJoins t = openJoins s := by
  rw [openJoins_eq, openJoins_eq, hrequest, hnew, hout]

theorem openJoins_le (hrequest : t.roster.joinRequest.toNat ≤ s.roster.joinRequest.toNat)
    (hnew : t.loop.newNotices.countP (·.payload.kind == 1) ≤ s.loop.newNotices.countP (·.payload.kind == 1))
    (hout : t.loop.outstanding.countP (·.openJoin) ≤ s.loop.outstanding.countP (·.openJoin)) :
    openJoins t ≤ openJoins s := by
  rw [openJoins_eq, openJoins_eq]
  omega

theorem countP_map_le {α : Type} (p : α → Bool) (f : α → α) (l : List α) (h : ∀ a ∈ l, p (f a) = true → p a = true) :
    (l.map f).countP p ≤ l.countP p := by
  rw [List.countP_map]
  exact List.countP_mono_left h

theorem countP_lt_of_mem {α : Type} {p q : α → Bool} {l : List α} (h : ∀ a ∈ l, q a = true → p a = true) {a : α}
    (ha : a ∈ l) (hp : p a = true) (hq : q a = false) : l.countP q < l.countP p := by
  obtain ⟨l₁, l₂, rfl⟩ := List.append_of_mem ha
  have hle (l' : List α) (hl : ∀ b ∈ l', q b = true → p b = true) : l'.countP q ≤ l'.countP p :=
    List.countP_mono_left hl
  have h₁ := hle l₁ fun b hb => h b (List.mem_append_left _ hb)
  have h₂ := hle l₂ fun b hb => h b (List.mem_append_right _ (List.mem_cons_of_mem _ hb))
  rw [List.countP_append, List.countP_append, List.countP_cons, List.countP_cons, hp, hq]
  simp only [if_true, Bool.false_eq_true, if_false]
  omega

/-! ### What keeps joining -/

/-- The station as JOINED as before, with no more JOINs under way, and no slot taken. -/
theorem joiningOk_of_fewer (hrun : t.runState = s.runState) (hjoined : t.roster.joined = s.roster.joined)
    (hopen : openJoins t ≤ openJoins s) (hslots : probesOf s = [] → probesOf t = [])
    (hrequests : ∀ q ∈ t.windows.requests, q.payload.kind ≠ 1) (h : JoiningOk s) : JoiningOk t := by
  obtain ⟨hle, hidle, hnone, _⟩ := h
  unfold JoiningOk
  rw [hrun, hjoined]
  exact ⟨hopen.trans hle, hidle, fun hj => hslots (hnone hj), hrequests⟩

theorem probesOf_nil_of_spines (h : spines t = spines s) (hs : probesOf s = []) : probesOf t = [] := by
  have hcircuits := circuits_of_spines h
  rw [hs, List.map_nil, List.map_eq_nil_iff] at hcircuits
  exact hcircuits

theorem probesOf_nil_of_slots (h : t.probes.slots = s.probes.slots) (hs : probesOf s = []) : probesOf t = [] :=
  probesOf_nil_of_spines (spines_of_probes h) hs

theorem probesOf_nil_putNone (i : Nat) (hs : probesOf s = []) : probesOf (putSlot i none s) = [] :=
  List.eq_nil_iff_forall_not_mem.2 fun p hp => by
    rcases mem_probesOf_putSlot hp with hp | hp
    · cases hp
    · rw [hs] at hp
      cases hp

theorem probesOf_nil_modifySlot (i : Nat) (f : Probe → Probe) (hs : probesOf s = []) :
    probesOf (modifySlot i f s) = [] := by
  cases hp : probeAt s i with
  | none => rwa [modifySlot_of_idle _ hp]
  | some p =>
    have hmem := mem_probesOf_of_probeAt hp
    rw [hs] at hmem
    cases hmem

theorem not_probesOf_nil {i : Nat} {p : Probe} (hp : probeAt s i = some p) : probesOf s ≠ [] := fun hs => by
  have hmem := mem_probesOf_of_probeAt hp
  rw [hs] at hmem
  cases hmem

/-! ### The changes of the lists -/

theorem openJoins_linger (n : Nat) (s : State) : openJoins (linger n s) ≤ openJoins s := by
  refine openJoins_le (by simp) (by simp) ?_
  rw [linger_loop, (fair_fields _).2.2.2.1]
  refine countP_map_le _ _ _ fun o _ ho => ?_
  split at ho
  · simp [Outstanding.openJoin] at ho
  · exact ho

/-- The outcome of an open JOIN counts it off. -/
theorem openJoins_linger_lt {n : Nat} {o : Outstanding} (ho : o ∈ s.loop.outstanding) (hn : o.number = n)
    (hst : o.standing ≠ .lingering) (hkind : o.request.payload.kind = 1) :
    openJoins (linger n s) < openJoins s := by
  have hout : (linger n s).loop.outstanding.countP (·.openJoin) < s.loop.outstanding.countP (·.openJoin) := by
    rw [linger_loop, (fair_fields _).2.2.2.1, List.countP_map]
    refine countP_lt_of_mem (fun x _ hx => ?_) ho ?_ ?_
    · rw [Function.comp_apply] at hx
      split at hx
      · simp [Outstanding.openJoin] at hx
      · exact hx
    · simp [Outstanding.openJoin, hst, hkind]
    · simp [Outstanding.openJoin, hn]
  have hkeeps : (linger n s).roster = s.roster ∧ (linger n s).loop.newNotices = s.loop.newNotices := by simp
  rw [openJoins_eq, openJoins_eq, hkeeps.1, hkeeps.2]
  omega

theorem openJoins_returning (n : Nat) (m : BestMarks) (s : State) :
    openJoins (modifyEntry n (·.returning m) s) ≤ openJoins s := by
  refine openJoins_le (by simp) (by simp) ?_
  rw [modifyEntry_loop, (fair_fields _).2.2.2.1]
  refine countP_map_le _ _ _ fun o _ ho => ?_
  split at ho <;> exact ho

theorem openJoins_waitRetry {o : Outstanding} (hn : s.loop.Numbered) (hmem : o ∈ s.loop.outstanding)
    (hflight : o.standing = .inFlight) : openJoins (waitRetry o.number s) ≤ openJoins s := by
  refine openJoins_le (by simp) (by simp) ?_
  rw [waitRetry_loop, (fair_fields _).2.2.2.1]
  refine countP_map_le _ _ _ fun x hx ho => ?_
  split at ho
  · rename_i hnum
    rw [hn.eq_of_number hmem hx hnum] at ho ⊢
    simp only [Outstanding.openJoin, Bool.and_eq_true] at ho ⊢
    exact ⟨by rw [hflight]; rfl, ho.2⟩
  · exact ho

theorem countP_sendInsertion (own now : Nat) {l : LoopPort} (hn : l.Numbered) :
    (sendInsertion own now l).newNotices.countP (·.payload.kind == 1) +
        (sendInsertion own now l).outstanding.countP (·.openJoin) ≤
      l.newNotices.countP (·.payload.kind == 1) + l.outstanding.countP (·.openJoin) := by
  unfold sendInsertion
  split
  · rename_i n rest hretries
    obtain ⟨y, hy, hyn, hst⟩ := hn.retries n (by rw [hretries]; exact List.mem_cons_self)
    split
    · rename_i o ho
      have hon : o.number = n := by simpa using List.find?_some ho
      refine Nat.add_le_add_left (countP_map_le _ _ _ fun x hx hopen => ?_) _
      split at hopen
      · rename_i hnum
        have hxy : x = y := hn.eq_of_number hy hx (hnum.trans (hon.trans hyn.symm))
        rw [hxy] at hopen ⊢
        simp only [Outstanding.openJoin, Outstanding.resent, Bool.and_eq_true] at hopen ⊢
        exact ⟨by rw [hst]; rfl, hopen.2⟩
      · exact hopen
    · exact le_refl _
  · split
    · rename_i r rest hnew
      have hsent (x : Nat) : (firstSent r x now).openJoin = (r.payload.kind == 1) := by
        simp [Outstanding.openJoin, firstSent]
      simp only [sendNew, hnew, List.countP_cons, List.countP_append, List.countP_nil, hsent]
      omega
    · exact le_refl _

theorem countP_chooseNext (own now : Nat) {l : LoopPort} (hn : l.Numbered) :
    (chooseNext own now l).newNotices.countP (·.payload.kind == 1) +
        (chooseNext own now l).outstanding.countP (·.openJoin) ≤
      l.newNotices.countP (·.payload.kind == 1) + l.outstanding.countP (·.openJoin) := by
  unfold chooseNext
  split
  · split
    · exact countP_sendInsertion own now hn
    · exact le_refl _
  · split
    · exact countP_sendInsertion own now hn
    · exact le_refl _

theorem openJoins_transmit (s : State) (hn : s.loop.Numbered) :
    openJoins (changeLoop (chooseNext s.own s.now) s) ≤ openJoins s := by
  have hcount := countP_chooseNext s.own s.now hn
  rw [openJoins_eq, openJoins_eq]
  simp only [changeLoop_loop, fair_fields, changeLoop_frame]
  omega

/-! ### Grants (R147) -/

/-- A place granted to a JOIN is the Roster Unit's own request; no other claim is a JOIN. -/
theorem claim_kind {c : Claim} (hclaim : nextClaim s = some c)
    (hrequests : ∀ q ∈ s.windows.requests, q.payload.kind ≠ 1) :
    c = .join ∧ s.roster.joinRequest = true ∨ c ≠ .join ∧ (claimNotice s c).payload.kind ≠ 1 := by
  have hroster (h : rosterClaim s = some c) : c = .join ∧ s.roster.joinRequest = true ∨
      c ≠ .join ∧ (claimNotice s c).payload.kind ≠ 1 := by
    unfold rosterClaim at h
    split at h
    · rename_i hjoin
      cases h
      exact .inl ⟨rfl, hjoin⟩
    · split at h
      · cases h
        exact .inr ⟨by simp, by simp [claimNotice, Payload.kind]⟩
      · cases h
  unfold nextClaim at hclaim
  split at hclaim
  · simp only [Option.orElse_eq_orElse, Option.orElse_eq_or, Option.or_eq_some_iff] at hclaim
    rcases hclaim with halarm | ⟨_, hprobe | ⟨_, hsighting | ⟨_, hwindow | ⟨_, hstray | ⟨_, hlast⟩⟩⟩⟩⟩
    · obtain ⟨a, _, rfl⟩ := Option.map_eq_some_iff.1 halarm
      exact .inr ⟨by simp, by simp [claimNotice, Payload.kind]⟩
    · obtain ⟨r, hr, rfl⟩ := Option.map_eq_some_iff.1 hprobe
      rw [Option.orElse_eq_orElse, Option.orElse_eq_or, Option.or_eq_some_iff] at hr
      refine .inr ⟨by simp, ?_⟩
      change r.payload.kind ≠ 1
      rcases hr with hr | ⟨_, hr⟩
      · have hkind : r.payload.kind = 9 := by simpa using List.find?_some hr
        omega
      · have hkind : r.payload.kind = 7 := by simpa using List.find?_some hr
        omega
    · unfold sightingClaim at hsighting
      split at hsighting
      · cases hsighting
      · cases hsighting
        exact .inr ⟨by simp, by simp [claimNotice, Payload.kind]⟩
    · obtain ⟨r, hr, rfl⟩ := Option.map_eq_some_iff.1 hwindow
      exact .inr ⟨by simp, hrequests r (List.mem_of_find?_eq_some hr)⟩
    · obtain ⟨x, _, rfl⟩ := Option.map_eq_some_iff.1 hstray
      exact .inr ⟨by simp, by simp [claimNotice, Payload.kind]⟩
    · exact hroster hlast
  · exact hroster hclaim

theorem takeClaim_joinRequest (c : Claim) (s : State) :
    (takeClaim c s).roster.joinRequest = if c = .join then false else s.roster.joinRequest := by
  unfold takeClaim
  split <;> simp [takeWindowRequest]

theorem mem_requests_takeClaim {c : Claim} {q : Request} (hq : q ∈ (takeClaim c s).windows.requests) :
    q ∈ s.windows.requests := by
  have hnote (r : Request) (u : State) : (noteGrant r u).windows.requests = u.windows.requests := by
    unfold noteGrant
    split <;> rfl
  unfold takeClaim at hq
  split at hq
  case h_4 =>
    rw [takeWindowRequest, hnote] at hq
    exact List.mem_of_mem_erase hq
  all_goals simpa using hq

theorem openJoins_grant {c : Claim} (hclaim : nextClaim s = some c)
    (hrequests : ∀ q ∈ s.windows.requests, q.payload.kind ≠ 1) : openJoins (grant c s) = openJoins s := by
  have hrequest : (grant c s).roster.joinRequest = if c = .join then false else s.roster.joinRequest := by
    rw [grant, ← takeClaim_joinRequest c s]
    simp
  rw [openJoins_eq, openJoins_eq, hrequest, grant_loop]
  simp only [fair_fields, List.countP_append, List.countP_singleton]
  rcases claim_kind hclaim hrequests with ⟨rfl, hjoin⟩ | ⟨hne, hkind⟩
  · simp [hjoin, claimNotice, Payload.kind]
    omega
  · simp [hne, hkind]

theorem joiningOk_grant {c : Claim} (hclaim : nextClaim s = some c) (h : JoiningOk s) : JoiningOk (grant c s) := by
  refine joiningOk_of_fewer (by simp) (by simp) (openJoins_grant hclaim h.2.2.2).le
    (probesOf_nil_of_slots (by simp)) (fun q hq => h.2.2.2 q (mem_requests_takeClaim (c := c) ?_)) h
  rw [grant] at hq
  simpa using hq

/-! ### The load and the outcome of the JOIN -/

theorem loadTaken_joinRequest (bytes : List Byte) (s : State) (hrun : (loadTaken bytes s).runState ≠ .running) :
    (loadTaken bytes s).roster.joinRequest = s.roster.joinRequest := by
  rcases loadTaken_run bytes s with ⟨h, _⟩ | ⟨_, _, _, _, _, hroster⟩
  · exact absurd h hrun
  · rw [hroster]

theorem joiningOk_load (bytes : List Byte) (hstart : s.runState = .starting) (h : JoiningOk s) :
    JoiningOk (loadTaken bytes s) := by
  obtain ⟨hle, hidle, hnone, hrequests⟩ := h
  have hclosed : openJoins s = 0 := by
    rw [hstart] at hle
    simpa using hle
  have hjoined : (loadTaken bytes s).roster.joined = false := by
    rw [(loadTaken_roster bytes s).2.2.2]
    exact hidle (by rw [hstart]; decide)
  have hslots : probesOf (loadTaken bytes s) = probesOf s := by simp [probesOf]
  refine ⟨?_, fun _ => hjoined, fun _ => ?_, by simpa using hrequests⟩
  · rw [openJoins_eq] at hclosed
    by_cases hrun : (loadTaken bytes s).runState = .running
    · rw [if_pos ⟨hrun, hjoined⟩, openJoins_eq]
      have hbit : (loadTaken bytes s).roster.joinRequest.toNat ≤ 1 := Bool.toNat_le _
      simp only [loadTaken_keeps]
      omega
    · rw [openJoins_eq, loadTaken_joinRequest bytes s hrun]
      simp only [loadTaken_keeps]
      omega
  · rw [hslots]
    exact hnone (hidle (by rw [hstart]; decide))

theorem joinedRoster_roster (s : State) : (joinedRoster s).roster.joined = true ∧
    (joinedRoster s).roster.joinRequest = s.roster.joinRequest := by
  rw [joinedRoster, recompute_roster]
  unfold modifyRoster
  split <;> exact ⟨rfl, rfl⟩

/-- The outcome of the one JOIN under way makes the station JOINED (R162). -/
theorem joiningOk_joined {n : Nat} (hopen : ∃ o ∈ s.loop.outstanding,
      o.number = n ∧ o.standing ≠ .lingering ∧ o.request.payload.kind = 1) (h : JoiningOk s) :
    JoiningOk (joinedRoster (linger n s)) := by
  obtain ⟨o, ho, hn, hst, hkind⟩ := hopen
  obtain ⟨hle, hidle, hnone, hrequests⟩ := h
  obtain ⟨hjoined, hrequest⟩ := joinedRoster_roster (linger n s)
  have hlt := openJoins_linger_lt ho hn hst hkind
  have hsame : openJoins (joinedRoster (linger n s)) = openJoins (linger n s) :=
    openJoins_of_same hrequest (by simp) (by simp)
  have hbound : openJoins s ≤ 1 := hle.trans (by split <;> omega)
  have hrun : s.runState = .running := by
    by_contra hne
    rw [if_neg fun hc => hne hc.1] at hle
    omega
  refine ⟨?_, fun hne => absurd (by simpa using hrun) hne, fun hf => ?_, by simpa using hrequests⟩
  · rw [hsame]
    omega
  · rw [hjoined] at hf
    cases hf

/-! ### Launches and the roster's other changes -/

/-- Slots are taken while JOINED. -/
theorem joiningOk_of_joined (hrun : t.runState = s.runState) (hroster : t.roster = s.roster) (hloop : t.loop = s.loop)
    (hwindows : t.windows = s.windows) (hjoined : s.roster.joined = true) (h : JoiningOk s) : JoiningOk t := by
  obtain ⟨hle, hidle, _, hrequests⟩ := h
  unfold JoiningOk
  rw [openJoins_of_same (t := t) (s := s) (by rw [hroster]) (by rw [hloop]) (by rw [hloop]), hrun, hroster, hwindows]
  exact ⟨hle, hidle, fun hf => absurd (hjoined.symm.trans hf) (by decide), hrequests⟩

theorem modifyRoster_joining (n : Nat) (f : RosterEntry → RosterEntry) (s : State) :
    (modifyRoster n f s).roster.joined = s.roster.joined ∧
      (modifyRoster n f s).roster.joinRequest = s.roster.joinRequest := by
  unfold modifyRoster
  split <;> exact ⟨rfl, rfl⟩

theorem recompute_joining (s : State) : (recompute s).roster.joined = s.roster.joined ∧
    (recompute s).roster.joinRequest = s.roster.joinRequest := by
  rw [recompute_roster]
  exact ⟨rfl, rfl⟩

theorem joiningOk_resetWork (h : JoiningOk s) : JoiningOk (resetPaths (clearSlots (resetScheduler s))) := by
  refine joiningOk_of_fewer (by simp) (by simp) (openJoins_le (by simp) ?_ (by simp)) (fun _ => ?_)
    (by simpa using h.2.2.2) h
  · simpa using List.filter_sublist.countP_le
  · exact probesOf_of_reset (by simp [clearSlots, probesReset])

/-! ### Every change -/

theorem joiningOk_act (hpieces : g.verdicts = true) (hresets : g.resets = true) (hapart : g.apart)
    (hn : s.loop.Numbered) (hact : Act g s t) (h : JoiningOk s) : JoiningOk t := by
  have hrequests := h.2.2.2
  cases hact with
  | boot c => exact ⟨Nat.zero_le _, fun _ => rfl, fun _ => rfl, fun _ hq => absurd hq List.not_mem_nil⟩
  | load bytes hstart => exact joiningOk_load bytes hstart h
  | windows x _ _ hreq =>
    refine joiningOk_of_fewer (s := s) rfl rfl (le_refl _) id (fun q hq => ?_) h
    rcases hreq q hq with hkind | ⟨r, hr, heq⟩
    · exact hkind
    · rw [← heq]
      exact hrequests r hr
  | transmit =>
    exact joiningOk_of_fewer (by simp) (by simp) (openJoins_transmit s hn)
      (probesOf_nil_of_slots (by simp)) (by simpa using hrequests) h
  | grant c _ hclaim => exact joiningOk_grant hclaim h
  | returning n m =>
    exact joiningOk_of_fewer (by simp) (by simp) (openJoins_returning n m s)
      (probesOf_nil_of_slots (by simp)) (by simpa using hrequests) h
  | linger n =>
    exact joiningOk_of_fewer (by simp) (by simp) (openJoins_linger n s)
      (probesOf_nil_of_slots (by simp)) (by simpa using hrequests) h
  | leave n =>
    exact joiningOk_of_fewer (by simp) (by simp)
      (openJoins_le (by simp) (by simp) (by rw [leaveOutstanding_loop]; simpa using List.filter_sublist.countP_le))
      (probesOf_nil_of_slots (by simp)) (by simpa using hrequests) h
  | waitRetry o hmem hflight =>
    exact joiningOk_of_fewer (by simp) (by simp) (openJoins_waitRetry hn hmem hflight)
      (probesOf_nil_of_slots (by simp)) (by simpa using hrequests) h
  | withdraw keep =>
    exact joiningOk_of_fewer (by simp) (by simp)
      (openJoins_le (by simp) (by simpa using List.filter_sublist.countP_le) (by simp))
      (probesOf_nil_of_slots (by simp)) (by simpa using hrequests) h
  | clearQueues =>
    exact joiningOk_of_fewer (by simp) (by simp) (openJoins_le (by simp) (by simp) (by simp))
      (probesOf_nil_of_slots (by simp)) (by simpa using hrequests) h
  | queueReset =>
    exact joiningOk_of_fewer (by simp) (by simp)
      (openJoins_le (by simp) (by simp [Payload.kind]) (by simp))
      (probesOf_nil_of_slots (by simp)) (by simpa using hrequests) h
  | entry n f =>
    obtain ⟨hjoined, hrequest⟩ := modifyRoster_joining n f s
    exact joiningOk_of_fewer (by simp) hjoined (openJoins_of_same hrequest (by simp) (by simp)).le
      (probesOf_nil_of_slots (by simp)) (by simpa using hrequests) h
  | presence n f =>
    obtain ⟨hjoined, hrequest⟩ := modifyRoster_joining n f s
    obtain ⟨hjoined', hrequest'⟩ := recompute_joining (modifyRoster n f s)
    refine joiningOk_of_fewer (by simp) (hjoined'.trans hjoined)
      (openJoins_of_same (hrequest'.trans hrequest) (by simp) (by simp)).le (probesOf_nil_of_spines ?_)
      (by simpa using hrequests) h
    rw [spines_recompute]
    exact spines_of_probes (by simp)
  | dropJoinRequest =>
    exact joiningOk_of_fewer (by simp) (by simp) (openJoins_le (by simp) (by simp) (by simp))
      (probesOf_nil_of_slots (by simp)) (by simpa using hrequests) h
  | joined n hopen => exact joiningOk_joined (hopen hapart) h
  | slotFlags x hcore =>
    exact joiningOk_of_fewer (s := s) rfl rfl (le_refl _)
      (probesOf_nil_of_spines (spines_of_core hcore)) hrequests h
  | pool i p x hp => exact joiningOk_of_fewer (s := s) rfl rfl (le_refl _) (probesOf_nil_modifySlot i _) hrequests h
  | closeSlot i => exact joiningOk_of_fewer (s := s) rfl rfl (le_refl _) (probesOf_nil_modifySlot i _) hrequests h
  | enterDriving i p b failed hp =>
    exact joiningOk_of_fewer (by simp) (by simp)
      (openJoins_of_same (by simp) (by simp) (by simp)).le (fun hs => absurd hs (not_probesOf_nil hp))
      (by simpa using hrequests) h
  | freeSlot i => exact joiningOk_of_fewer (s := s) rfl rfl (le_refl _) (probesOf_nil_putNone i) hrequests h
  | emptySlot i => exact joiningOk_of_fewer (s := s) rfl rfl (le_refl _) (probesOf_nil_putNone i) hrequests h
  | addHold =>
    exact joiningOk_of_fewer (by simp) (by simp) (openJoins_of_same (by simp) (by simp) (by simp)).le
      (probesOf_nil_of_spines (spines_addHold _ _ s)) (by simpa using hrequests) h
  | applyAlarm =>
    exact joiningOk_of_fewer (by simp) (by simp) (openJoins_of_same (by simp) (by simp) (by simp)).le
      (probesOf_nil_of_spines (spines_applyAlarm _ _ s)) (by simpa using hrequests) h
  | baseLaunch i m c hchoice =>
    obtain ⟨_, hjoined, _⟩ := baseLaunchChoice_spec hchoice
    exact joiningOk_of_joined (by simp) (by simp) (by simp) (by simp) hjoined h
  | sweepLaunch i id c hchoice =>
    obtain ⟨_, hjoined, _⟩ := sweepLaunchChoice_spec hchoice
    exact joiningOk_of_joined (by simp) (by simp) (by simp) (by simp) hjoined h
  | resetWork => exact joiningOk_resetWork h
  | evaluate i p hwhole => simp [hpieces] at hwhole
  | evaluateWithdrawn i p hwhole => simp [hpieces] at hwhole
  | resetLoopOwn hwhole => simp [hresets] at hwhole
  | _ =>
    exact joiningOk_of_fewer (by simp) (by simp) (openJoins_of_same (by simp) (by simp) (by simp)).le
      (probesOf_nil_of_slots (by simp)) (by simpa using hrequests) h

theorem joiningOk_quiet (hq : Quiet s t) (h : JoiningOk s) : JoiningOk t := by
  obtain ⟨_, _, _, _, _, _, _, rfl⟩ := hq
  exact h

theorem numbered_quiet (hq : Quiet s t) (h : s.loop.Numbered) : t.loop.Numbered := by
  obtain ⟨_, _, _, _, _, _, _, rfl⟩ := hq
  exact h

/-- What a row keeps while it runs: the numbers in order, and joining. -/
def JoiningRow (g : Grain) (s : State) : Prop := g.apart ∧ s.loop.Numbered ∧ JoiningOk s

theorem joiningRow_act (hpieces : g.verdicts = true) (hresets : g.resets = true) (hact : Act g s t)
    (h : JoiningRow g s) : JoiningRow g t := by
  obtain ⟨hapart, hn, hs⟩ := h
  have hnumbering := numbering_act (whole := false) hpieces (by rw [hresets]; rfl)
    (fun hf => absurd (hresets.symm.trans hf) (by decide)) hact ⟨hn, fun hw => absurd hw (by decide)⟩
  exact ⟨hapart, hnumbering.1, joiningOk_act hpieces hresets hapart hn hact hs⟩

theorem joiningOk_step (hn : NumbersOk s) (h : JoiningOk s) (hstep : step s = .next t) : JoiningOk t :=
  (step_keeps (P := fun u => u.loop.Numbered ∧ JoiningOk u) JoiningRow true true
    (fun hq hs => ⟨numbered_quiet hq hs.1, joiningOk_quiet hq hs.2⟩)
    (fun _ _ hs => ⟨hs.1.nodup, hs⟩)
    (fun _ c s hs => ⟨hs.1, numbered_quiet (quiet_intakeCommand c s) hs.2.1, joiningOk_quiet (quiet_intakeCommand c s) hs.2.2⟩)
    (fun _ _ _ hv hr => joiningRow_act hv hr) (fun _ _ hs => hs.2) ⟨((numbersOk_iff s).1 hn).1, h⟩ hstep).2

/-- Settles O11: the grade is recomputed with every change of presence, and a JOIN is counted off at its outcome. -/
theorem loopGradeFollowsTheRoster : Obligations.LoopGradeFollowsTheRoster :=
  ⟨fun _ _ => rosterOk_step, fun _ _ => joiningOk_step⟩

end Sys2Proof.Machine
end

