-- ==== Sys2Proof/Proofs/InvScheduler.lean ====
section
/-! The suspension stack, the admission flag and the sweep runs (R122, R124, R125, R131, log 8). -/

namespace Sys2Proof.Machine

variable {g : Grain} {s t : State} {x y : Scheduler} {runs : List Run}

/-! ### The scheduler and its runs -/

/-- The scheduler's current run and suspended runs are these, over BASE: four at most, each in order, of different
identities that have been given out; while there is one, the admission flag is clear. -/
structure Scheduler.Shaped (x : Scheduler) (runs : List Run) : Prop where
  current   : x.current = runs.head?
  stack     : x.stack = if runs = [] then [] else runs.tail.map .sweep ++ [.base]
  depth     : runs.length ≤ Config.stackCapacity
  admission : runs ≠ [] → x.admission = false
  ok        : ∀ r ∈ runs, r.ok ∧ r.id < x.nextRun
  distinct  : (runs.map (·.id)).Nodup

theorem Scheduler.Shaped.allRuns (h : s.sched.Shaped runs) : allRuns s = runs := by
  rw [Machine.allRuns, suspended, h.current, h.stack]
  cases runs with
  | nil => rfl
  | cons r rest => exact congrArg (r :: ·) (filterMap_run_overBase rest)

theorem Scheduler.Shaped.stack_length (h : x.Shaped runs) : x.stack.length = runs.length := by
  rw [h.stack]
  cases runs <;> simp

theorem Scheduler.Shaped.stack_nil_iff (h : x.Shaped runs) : x.stack = [] ↔ runs = [] := by
  rw [← List.length_eq_zero_iff, h.stack_length, List.length_eq_zero_iff]

/-- The slots' runs are no runs to come. -/
def OwnersOk (n : Nat) (s : State) : Prop := ∀ p ∈ probesOf s, p.ownedBefore n = true

theorem schedulerOk_iff (s : State) : SchedulerOk s ↔ (∃ runs, s.sched.Shaped runs) ∧ OwnersOk s.sched.nextRun s ∧
    (s.runState ≠ .running → s.sched.stack = [] ∧ s.loop.receive = []) := by
  constructor
  · intro h
    have hcopy := h
    obtain ⟨hdepth, hempty, hadmission, _, hruns, hids, howners, hquiet⟩ := hcopy
    refine ⟨⟨allRuns s, ?_⟩, howners, hquiet⟩
    have hform := withRuns_allRuns h
    have hstack : s.sched.stack = if allRuns s = [] then [] else (allRuns s).tail.map .sweep ++ [.base] := by
      rw [← hform]
      simp [Scheduler.withRuns]
    have hlen : s.sched.stack.length = (allRuns s).length := by
      rw [hstack]
      cases allRuns s <;> simp
    refine ⟨?_, hstack, hlen ▸ hdepth, fun hne => hadmission fun hnil => hne ?_, hruns, hids⟩
    · rw [← hform]
      simp [Scheduler.withRuns]
    · rw [hnil] at hlen
      exact List.length_eq_zero_iff.1 hlen.symm
  · rintro ⟨⟨runs, h⟩, howners, hquiet⟩
    have hall := h.allRuns
    refine ⟨h.stack_length ▸ h.depth, ?_, fun hne => h.admission fun hnil => hne (h.stack_nil_iff.2 hnil), ?_,
      hall ▸ h.ok, hall ▸ h.distinct, howners, hquiet⟩
    · rw [h.stack_nil_iff, h.current]
      cases runs <;> simp
    · rw [h.stack]
      cases runs with
      | nil => rfl
      | cons r rest =>
        have hsweep : rest.map (StackEntry.isBase ∘ StackEntry.sweep) = List.replicate rest.length false := by
          rw [List.eq_replicate_iff]
          refine ⟨by simp, fun b hb => ?_⟩
          obtain ⟨a, _, rfl⟩ := List.mem_map.1 hb
          rfl
        simp [hsweep, StackEntry.isBase, StackEntry.run]

/-! ### Changes of the runs -/

/-- The scheduler apart from its launch lists and its shadow. -/
theorem Scheduler.Shaped.congr (h : x.Shaped runs) (hcurrent : y.current = x.current) (hstack : y.stack = x.stack)
    (hadmission : y.admission = x.admission) (hnext : y.nextRun = x.nextRun) : y.Shaped runs :=
  ⟨hcurrent.trans h.current, hstack.trans h.stack, h.depth, fun hne => hadmission.trans (h.admission hne),
    hnext ▸ h.ok, h.distinct⟩

/-- One run changed in place. -/
theorem shaped_modifyRun (id : Nat) {f : Run → Run} (hid : ∀ r, (f r).id = r.id) (hok : ∀ r, r.ok → (f r).ok)
    (h : s.sched.Shaped runs) : (modifyRun id f s).sched.Shaped (runsChanged id f runs) := by
  have hnil : runsChanged id f runs = [] ↔ runs = [] := List.map_eq_nil_iff
  refine ⟨?_, ?_, ?_, fun hne => h.admission fun hr => hne (hnil.2 hr), fun r hr => ?_, ?_⟩
  · simp only [modifyRun, State.setSched_fields, h.current, runsChanged, List.head?_map]
  · simp only [modifyRun, State.setSched_fields, h.stack, runsChanged]
    cases runs <;> simp [StackEntry.modify]
  · simpa [runsChanged] using h.depth
  · obtain ⟨a, ha, rfl⟩ := List.mem_map.1 hr
    obtain ⟨haok, halt⟩ := h.ok a ha
    split
    · exact ⟨hok a haok, (hid a).trans_lt halt⟩
    · exact ⟨haok, halt⟩
  · have hids : (runsChanged id f runs).map (·.id) = runs.map (·.id) := by
      rw [runsChanged, List.map_map]
      refine List.map_congr_left fun r _ => ?_
      rw [Function.comp_apply]
      split
      · exact hid r
      · rfl
    exact hids ▸ h.distinct

/-- The current run goes, and the newest suspended one is current again. -/
theorem shaped_popRun {r : Run} {rest : List Run} (h : s.sched.Shaped (r :: rest)) : (popRun s).sched.Shaped rest := by
  have hstack : s.sched.stack = rest.map .sweep ++ [.base] := h.stack
  obtain ⟨_, hdistinct⟩ := List.nodup_cons.1 h.distinct
  have hok : ∀ a ∈ rest, a.ok ∧ a.id < s.sched.nextRun := fun a ha => h.ok a (List.mem_cons_of_mem _ ha)
  have hdepth : rest.length ≤ Config.stackCapacity := (Nat.le_succ _).trans h.depth
  unfold popRun
  rw [hstack]
  cases rest with
  | nil => exact ⟨rfl, rfl, Nat.zero_le _, fun hne => absurd rfl hne, hok, List.nodup_nil⟩
  | cons a rest => exact ⟨rfl, rfl, hdepth, fun _ => h.admission (by simp), hok, hdistinct⟩

theorem shaped_dropSuspended (id : Nat) {r : Run} {rest : List Run} (h : s.sched.Shaped (r :: rest)) :
    (dropSuspended id s).sched.Shaped (r :: runsWithout id rest) := by
  have hstack : s.sched.stack = rest.map .sweep ++ [.base] := h.stack
  have hsub : (r :: runsWithout id rest).Sublist (r :: rest) := List.filter_sublist.cons_cons r
  have hrest : (rest.map StackEntry.sweep).filter (fun e => !e.isRun id) = (runsWithout id rest).map .sweep := by
    rw [List.filter_map]
    rfl
  have hbase : [StackEntry.base].filter (fun e => !e.isRun id) = [.base] := rfl
  refine ⟨h.current, ?_, hsub.length_le.trans h.depth, fun _ => h.admission (by simp),
    fun a ha => h.ok a (hsub.subset ha), h.distinct.sublist (hsub.map _)⟩
  simp [dropSuspended, hstack, hrest, hbase]

theorem shaped_completeRun (id : Nat) (h : s.sched.Shaped runs) : ∃ runs', (completeRun id s).sched.Shaped runs' := by
  unfold completeRun
  split
  · exact ⟨runs, h⟩
  · rename_i a ha
    split
    · exact ⟨runs, h⟩
    · rw [h.allRuns] at ha
      cases runs with
      | nil => cases ha
      | cons r rest =>
        have hpost : (postReport (.sweepSummary a.summary) s).sched.Shaped (r :: rest) := by simpa using h
        dsimp only
        split
        · exact ⟨rest, shaped_popRun hpost⟩
        · exact ⟨_, shaped_dropSuspended id hpost⟩

theorem completeRun_nextRun (id : Nat) (s : State) : (completeRun id s).sched.nextRun = s.sched.nextRun := by
  have hpop (u : State) : (popRun u).sched.nextRun = u.sched.nextRun := by
    unfold popRun
    split <;> rfl
  unfold completeRun
  split
  · rfl
  · split
    · rfl
    · dsimp only
      split
      · rw [hpop]
        simp
      · simp [dropSuspended]

theorem ok_setStanding (r : Run) (c : Nat) (v : RunStanding) (h : r.ok) : (r.setStanding c v).ok := by
  obtain ⟨hnodup, hmerged, hoverflow⟩ := h
  have hcircuits : (r.setStanding c v).entries.map (·.circuit) = r.entries.map (·.circuit) := by
    simp only [Run.setStanding, List.map_map]
    refine List.map_congr_left fun e _ => ?_
    rw [Function.comp_apply]
    split <;> rfl
  exact ⟨hcircuits ▸ hnodup, hmerged, hoverflow⟩

theorem shaped_touchRun (id c : Nat) (v : RunStanding) (h : s.sched.Shaped runs) :
    ∃ runs', (touchRun id c v s).sched.Shaped runs' :=
  shaped_completeRun id (shaped_modifyRun id (f := (·.setStanding c v)) (fun _ => rfl) (fun r => ok_setStanding r c v) h)

theorem ok_openEntry (r : Run) (c : Nat) (v : RunStanding) (h : r.ok) : (r.openEntry c v).ok := by
  unfold Run.openEntry
  split
  · rename_i hnone
    obtain ⟨hnodup, hmerged, hoverflow⟩ := h
    refine ⟨?_, hmerged, hoverflow⟩
    rw [Run.standingOf, Option.map_eq_none_iff, List.find?_eq_none] at hnone
    rw [List.map_append, List.map_singleton]
    refine hnodup.append (List.nodup_singleton _) ?_
    rw [List.disjoint_singleton]
    intro hin
    obtain ⟨e, he, hc⟩ := List.mem_map.1 hin
    exact hnone e he (beq_iff_eq.2 hc)
  · exact ok_setStanding r c v h

theorem ok_addMerged (r : Run) (sp : Span) (h : r.ok) : (r.addMerged sp).ok := by
  obtain ⟨hnodup, hmerged, hoverflow⟩ := h
  unfold Run.addMerged
  split
  · exact ⟨hnodup, hmerged, hoverflow⟩
  · split
    · rename_i hlt
      exact ⟨hnodup, by simpa using hlt, hoverflow⟩
    · exact ⟨hnodup, hmerged, min_le_left _ _⟩

/-! ### The owners of the slots -/

theorem ownersOk_mono {m n : Nat} (hle : m ≤ n) (h : OwnersOk m s) : OwnersOk n s := by
  intro p hp
  have hbefore := h p hp
  unfold Probe.ownedBefore at hbefore ⊢
  cases hown : p.owner with
  | base => rfl
  | run id =>
    rw [hown] at hbefore
    exact decide_eq_true ((of_decide_eq_true hbefore).trans_le hle)

/-- Every probe's owner is one there was, or an older run. -/
theorem ownersOk_of_owners {n : Nat} (h : OwnersOk n s)
    (hfrom : ∀ p ∈ probesOf t, (∃ q ∈ probesOf s, q.owner = p.owner) ∨ p.ownedBefore n = true) : OwnersOk n t := by
  intro p hp
  rcases hfrom p hp with ⟨q, hq, howner⟩ | hbefore
  · have hq' := h q hq
    unfold Probe.ownedBefore at hq' ⊢
    rwa [← howner]
  · exact hbefore

theorem ownersOk_of_slots {n : Nat} (hslots : t.probes.slots = s.probes.slots) (h : OwnersOk n s) : OwnersOk n t := by
  unfold OwnersOk probesOf at h ⊢
  rwa [hslots]

theorem mem_probesOf_map {f : Probe → Probe} {p : Probe}
    (hp : p ∈ probesOf (setSlots (s.probes.slots.map (Option.map f)) s)) : ∃ q ∈ probesOf s, p = f q := by
  unfold probesOf at hp ⊢
  obtain ⟨o, ho, hop⟩ := List.mem_filterMap.1 hp
  obtain ⟨o', ho', rfl⟩ := List.mem_map.1 ho
  cases o' with
  | none => cases hop
  | some q => exact ⟨q, List.mem_filterMap.2 ⟨_, ho', rfl⟩, (Option.some.inj hop).symm⟩

theorem ownersOk_setSlots_map {n : Nat} {f : Probe → Probe}
    (hf : ∀ p, (f p).owner = p.owner ∨ (f p).ownedBefore n = true) (h : OwnersOk n s) :
    OwnersOk n (setSlots (s.probes.slots.map (Option.map f)) s) := by
  refine ownersOk_of_owners h fun p hp => ?_
  obtain ⟨q, hq, rfl⟩ := mem_probesOf_map hp
  exact (hf q).imp (fun ho => ⟨q, hq, ho.symm⟩) id

theorem ownersOk_slotFlags {n : Nat} {l : List (Option Probe)}
    (hcore : l.map (Option.map Probe.core) = s.probes.slots.map (Option.map Probe.core)) (h : OwnersOk n s) :
    OwnersOk n (setSlots l s) := by
  refine ownersOk_of_owners h fun p hp => .inl ?_
  obtain ⟨o, ho, hop⟩ := List.mem_filterMap.1 hp
  have hmem : some p.core ∈ l.map (Option.map Probe.core) :=
    List.mem_map.2 ⟨o, ho, by rw [show o = some p from hop]; rfl⟩
  rw [hcore] at hmem
  obtain ⟨o', ho', heq⟩ := List.mem_map.1 hmem
  obtain ⟨q, rfl, hq⟩ := Option.map_eq_some_iff.1 heq
  refine ⟨q, List.mem_filterMap.2 ⟨_, ho', rfl⟩, ?_⟩
  simp only [Probe.core, Prod.mk.injEq] at hq
  exact hq.2.2.2.1

theorem ownersOk_applyGrade {n : Nat} (k : Nat) (h : OwnersOk n s) : OwnersOk n (applyGrade k s) := by
  by_cases hfall : k < s.roster.grade
  · refine ownersOk_of_slots (congrArg _ (applyGrade_probes_of_fall k s hfall)) ?_
    exact ownersOk_setSlots_map (fun p => .inl (by split <;> rfl)) h
  · exact ownersOk_of_slots (congrArg _ (applyGrade_probes_of_no_fall k s hfall)) h

theorem ownersOk_recompute {n : Nat} (h : OwnersOk n s) : OwnersOk n (recompute s) := ownersOk_applyGrade _ h

theorem ownersOk_putSlot {n i : Nat} {o : Option Probe}
    (ho : ∀ p ∈ o, (∃ q ∈ probesOf s, q.owner = p.owner) ∨ p.ownedBefore n = true) (h : OwnersOk n s) :
    OwnersOk n (putSlot i o s) := by
  refine ownersOk_of_owners h fun p hp => ?_
  rcases mem_probesOf_putSlot hp with hp | hp
  · exact ho p hp
  · exact .inl ⟨p, hp, rfl⟩

theorem ownersOk_modifySlot {n i : Nat} {f : Probe → Probe} (hf : ∀ p, (f p).owner = p.owner) (h : OwnersOk n s) :
    OwnersOk n (modifySlot i f s) := by
  cases hp : probeAt s i with
  | none => rwa [modifySlot_of_idle _ hp]
  | some p =>
    rw [modifySlot_eq_putSlot _ hp]
    refine ownersOk_putSlot ?_ h
    rintro q ⟨rfl⟩
    exact .inl ⟨p, mem_probesOf_of_probeAt hp, (hf p).symm⟩

theorem ownersOk_enterDriving {n i : Nat} {b : BestMarks} {failed : Bool} (h : OwnersOk n s) :
    OwnersOk n (enterDriving i b failed s) := by
  unfold enterDriving
  split
  · exact h
  · rename_i p hp
    split
    · exact h
    · rename_i r _
      have hput : OwnersOk n (putSlot i (some (drivingProbe s p r b failed)) s) := by
        refine ownersOk_putSlot ?_ h
        rintro q ⟨rfl⟩
        exact .inl ⟨p, mem_probesOf_of_probeAt hp, rfl⟩
      exact ownersOk_of_slots rfl hput

theorem ownersOk_claimSlot {n i c : Nat} {m : Mode} {o : Owner}
    (ho : (claimedProbe c 0 m o).ownedBefore n = true) (h : OwnersOk n s) : OwnersOk n (claimSlot i c m o s) := by
  unfold claimSlot
  split
  · exact h
  · rename_i r _
    have hput : OwnersOk n (putSlot i (some (claimedProbe c (nextEpoch r.lastEpoch) m o)) s) := by
      refine ownersOk_putSlot ?_ h
      rintro q ⟨rfl⟩
      exact .inr ho
    exact ownersOk_of_slots rfl hput

theorem ownersOk_of_none {n : Nat} (h : probesOf s = []) : OwnersOk n s := fun p hp => by
  rw [h] at hp
  cases hp

/-! ### A sweep run taken or merged (R123 to R125) -/

/-- The scheduler shaped, with n the next identity, and the slots' runs older. -/
def SchedAt (n : Nat) (s : State) : Prop := s.sched.nextRun = n ∧ (∃ runs, s.sched.Shaped runs) ∧ OwnersOk n s

theorem schedAt_of_same {n : Nat} (hsched : t.sched = s.sched) (hslots : t.probes.slots = s.probes.slots)
    (h : SchedAt n s) : SchedAt n t := by
  obtain ⟨hn, hshaped, howners⟩ := h
  exact ⟨hsched ▸ hn, hsched ▸ hshaped, ownersOk_of_slots hslots howners⟩

/-- A circuit joined or left a launch list, or the shadow was written. -/
theorem schedAt_of_lists {n : Nat} (hcurrent : t.sched.current = s.sched.current) (hstack : t.sched.stack = s.sched.stack)
    (hadmission : t.sched.admission = s.sched.admission) (hnext : t.sched.nextRun = s.sched.nextRun)
    (hslots : t.probes.slots = s.probes.slots) (h : SchedAt n s) : SchedAt n t := by
  obtain ⟨hn, ⟨runs, hshaped⟩, howners⟩ := h
  exact ⟨hnext.trans hn, ⟨runs, hshaped.congr hcurrent hstack hadmission hnext⟩, ownersOk_of_slots hslots howners⟩

theorem schedAt_joinList {n : Nat} (m : Mode) (c : Nat) (h : SchedAt n s) : SchedAt n (joinList m c s) := by
  cases m <;> exact schedAt_of_lists (s := s) rfl rfl rfl rfl rfl h

theorem schedAt_leaveList {n : Nat} (m : Mode) (c : Nat) (h : SchedAt n s) : SchedAt n (leaveList m c s) := by
  cases m <;> exact schedAt_of_lists (s := s) rfl rfl rfl rfl rfl h

theorem schedAt_modifyRun {n : Nat} (id : Nat) {f : Run → Run} (hid : ∀ r, (f r).id = r.id)
    (hok : ∀ r, r.ok → (f r).ok) (h : SchedAt n s) : SchedAt n (modifyRun id f s) := by
  obtain ⟨hn, ⟨runs, hshaped⟩, howners⟩ := h
  exact ⟨hn, ⟨_, shaped_modifyRun id hid hok hshaped⟩, ownersOk_of_slots rfl howners⟩

theorem schedAt_setStanding {n : Nat} (id c : Nat) (v : RunStanding) (h : SchedAt n s) :
    SchedAt n (modifyRun id (·.setStanding c v) s) :=
  schedAt_modifyRun id (fun _ => rfl) (fun r => ok_setStanding r c v) h

theorem schedAt_completeRun {n : Nat} (id : Nat) (h : SchedAt n s) : SchedAt n (completeRun id s) := by
  obtain ⟨hn, ⟨runs, hshaped⟩, howners⟩ := h
  exact ⟨(completeRun_nextRun id s).trans hn, shaped_completeRun id hshaped, ownersOk_of_slots (by simp) howners⟩

theorem schedAt_touchRun {n : Nat} (id c : Nat) (v : RunStanding) (h : SchedAt n s) : SchedAt n (touchRun id c v s) :=
  schedAt_completeRun id (schedAt_setStanding id c v h)

theorem schedAt_deferEntry {n : Nat} (c : Nat) (h : SchedAt n s) : SchedAt n (deferEntry c s) := by
  unfold deferEntry
  split
  · exact schedAt_touchRun _ c _ h
  · exact h

theorem schedAt_addHold {n : Nat} (ser : Serial) (c : Nat) (h : SchedAt n s) : SchedAt n (addHold ser c s) := by
  have hadded : SchedAt n (modifyPath c (fun r => { r with hold := r.hold ++ [ser], owed := addSerial ser r.owed }) s) :=
    schedAt_of_same rfl rfl h
  unfold addHold
  split
  · exact h
  · split
    · exact h
    · unfold moveForHold
      split
      · exact schedAt_of_same rfl rfl hadded
      · exact schedAt_deferEntry c (schedAt_of_same rfl rfl hadded)
      · exact schedAt_leaveList _ c (schedAt_of_same rfl rfl hadded)
      · exact hadded
      · obtain ⟨hn, hshaped, howners⟩ := hadded
        exact ⟨hn, hshaped, ownersOk_setSlots_map (fun p => .inl (by split <;> rfl)) howners⟩

theorem schedAt_enqueue {n : Nat} (c : Nat) (m : Mode) (o : Origin) (h : SchedAt n s) : SchedAt n (enqueue c m o s) :=
  schedAt_joinList m c (schedAt_of_same (s := s) rfl rfl h)

/-- The runs, the admission flag and the next identity: what no request for an audit touches. -/
def runsKey (s : State) : Option Run × List StackEntry × Bool × Nat :=
  (s.sched.current, s.sched.stack, s.sched.admission, s.sched.nextRun)

theorem runsKey_requestAudit (c : Nat) (m : Mode) (o : Origin) (s : State) :
    runsKey (requestAudit c m o s) = runsKey s := by
  have hjoin (k : Mode) (u : State) : runsKey (joinList k c u) = runsKey u := by cases k <;> rfl
  unfold requestAudit
  split
  · rfl
  · split
    · exact hjoin _ _
    · rfl

theorem runsKey_requestAudits (cs : List Nat) (m : Mode) (o : Origin) (s : State) :
    runsKey (requestAudits cs m o s) = runsKey s :=
  foldl_keeps _ _ _ runsKey fun u c => runsKey_requestAudit c m o u

theorem schedAt_of_runsKey {n : Nat} (hkey : runsKey t = runsKey s) (hslots : t.probes.slots = s.probes.slots)
    (h : SchedAt n s) : SchedAt n t := by
  simp only [runsKey, Prod.mk.injEq] at hkey
  obtain ⟨hcurrent, hstack, hadmission, hnext⟩ := hkey
  exact schedAt_of_lists hcurrent hstack hadmission hnext hslots h

theorem schedAt_removeHold {n : Nat} (ser : Serial) (c : Nat) (h : SchedAt n s) : SchedAt n (removeHold ser c s) := by
  unfold removeHold
  split
  · exact h
  · split
    · exact h
    · dsimp only
      split
      · exact schedAt_enqueue c _ _ (schedAt_of_same (s := s) rfl rfl h)
      · exact schedAt_of_same (s := s) rfl rfl h

theorem schedAt_handOnOwner {n : Nat} (c : Nat) (h : SchedAt n s) : SchedAt n (handOnOwner c s) := by
  unfold handOnOwner
  repeat' split
  · exact schedAt_setStanding _ c _ h
  · exact h
  · exact h

theorem schedAt_adoptSlot {n id : Nat} (c : Nat) (hid : id < n) (h : SchedAt n s) : SchedAt n (adoptSlot id c s) := by
  obtain ⟨hn, hshaped, howners⟩ := h
  refine ⟨hn, hshaped, ownersOk_setSlots_map (fun p => ?_) howners⟩
  split
  · exact .inr (decide_eq_true hid)
  · exact .inl rfl

theorem schedAt_moveIntoRun {n id : Nat} (c : Nat) (st : RecordState) (hid : id < n) (h : SchedAt n s) :
    SchedAt n (moveIntoRun id c st s) := by
  unfold moveIntoRun
  split
  · split
    · exact schedAt_setStanding _ c _ h
    · exact h
  · exact schedAt_adoptSlot c hid (schedAt_handOnOwner c h)
  · exact schedAt_of_same rfl rfl (schedAt_leaveList _ c h)
  · exact schedAt_of_same rfl rfl h
  · exact h

theorem schedAt_takeSelected {n id : Nat} (sp : Span) (c : Nat) (hid : id < n) (h : SchedAt n s) :
    SchedAt n (takeSelected id sp s c) := by
  have horigin : SchedAt n (setOrigin c (.sweep sp) s) := schedAt_of_same rfl rfl h
  unfold takeSelected
  split
  · rename_i r _ _ _
    dsimp only
    split
    · exact horigin
    · refine schedAt_modifyRun id (fun a => ?_) (fun a => ok_openEntry a c _) (schedAt_moveIntoRun c r.state hid horigin)
      unfold Run.openEntry
      split <;> rfl
  · exact h

theorem schedAt_takeAll {n id : Nat} (sp : Span) (sel : List Nat) (hid : id < n) : ∀ {s : State}, SchedAt n s →
    SchedAt n (sel.foldl (takeSelected id sp) s) := by
  induction sel with
  | nil => exact fun h => h
  | cons c sel ih => exact fun h => ih (schedAt_takeSelected sp c hid h)

theorem schedAt_completeSuspended {n : Nat} (h : SchedAt n s) : SchedAt n (completeSuspended s) := by
  have hfold (l : List Run) : ∀ {u : State}, SchedAt n u → SchedAt n (l.foldl (fun v r => completeRun r.id v) u) := by
    induction l with
    | nil => exact fun h => h
    | cons r l ih => exact fun h => ih (schedAt_completeRun r.id h)
  exact hfold _ h

/-- A new run stands over the runs there are (steps 1 and 2 of R124). -/
theorem schedAt_startRun {n : Nat} (sp : Span) (cause : Cause) (hroom : s.sched.stack.length < Config.stackCapacity)
    (h : SchedAt n s) : SchedAt (n + 1) (startRun sp cause (suspendCurrent s)) := by
  obtain ⟨rfl, ⟨runs, hshaped⟩, howners⟩ := h
  refine ⟨?_, ⟨⟨s.sched.nextRun, sp, cause, [], [], 0⟩ :: runs, ?_⟩, ?_⟩
  · unfold suspendCurrent
    split <;> rfl
  · have hdepth : runs.length + 1 ≤ Config.stackCapacity := by
      rw [← hshaped.stack_length]
      exact hroom
    have hok : ∀ r ∈ (⟨s.sched.nextRun, sp, cause, [], [], 0⟩ : Run) :: runs, r.ok ∧ r.id < s.sched.nextRun + 1 := by
      intro r hr
      rcases List.mem_cons.1 hr with rfl | hr
      · exact ⟨⟨List.nodup_nil, Nat.zero_le _, Nat.zero_le _⟩, Nat.lt_succ_self _⟩
      · exact ⟨(hshaped.ok r hr).1, Nat.lt_succ_of_lt (hshaped.ok r hr).2⟩
    have hdistinct : (((⟨s.sched.nextRun, sp, cause, [], [], 0⟩ : Run) :: runs).map (·.id)).Nodup := by
      rw [List.map_cons, List.nodup_cons]
      refine ⟨fun hin => ?_, hshaped.distinct⟩
      obtain ⟨r, hr, hid⟩ := List.mem_map.1 hin
      exact absurd hid (Nat.ne_of_lt (hshaped.ok r hr).2)
    have hstack := hshaped.stack
    have hcurrent := hshaped.current
    cases runs with
    | nil =>
      rw [List.head?_nil] at hcurrent
      rw [if_pos rfl] at hstack
      unfold suspendCurrent
      rw [hcurrent]
      exact ⟨rfl, by simp [startRun, hstack], hdepth, fun _ => rfl, hok, hdistinct⟩
    | cons a rest =>
      rw [List.head?_cons] at hcurrent
      rw [if_neg (List.cons_ne_nil _ _)] at hstack
      have hadmission := hshaped.admission (List.cons_ne_nil _ _)
      unfold suspendCurrent
      rw [hcurrent]
      exact ⟨rfl, by simp [startRun, hstack], hdepth, fun _ => hadmission, hok, hdistinct⟩
  · refine ownersOk_of_slots ?_ (ownersOk_mono (Nat.le_succ _) howners)
    simp [startRun]

theorem schedAt_applyAlarm {n : Nat} (sp : Span) (cause : Cause) (h : SchedAt n s) :
    ∃ k, SchedAt k (applyAlarm sp cause s) := by
  obtain ⟨hn, ⟨runs, hshaped⟩, _⟩ := id h
  unfold applyAlarm sweepResult
  dsimp only
  split
  · exact ⟨n, h⟩
  · rename_i hres
    split at hres
    · cases hres
    · split at hres
      · rename_i hroom
        refine ⟨n + 1, schedAt_completeSuspended (schedAt_takeAll sp _ ?_ (schedAt_startRun sp cause hroom h))⟩
        omega
      · cases hres
  · refine ⟨n, ?_⟩
    unfold mergeRun
    split
    · exact h
    · rename_i run hrun
      have hmem : run ∈ runs := by
        rw [hshaped.current] at hrun
        exact List.mem_of_head? hrun
      have hid : run.id < n := hn ▸ (hshaped.ok run hmem).2
      refine schedAt_completeSuspended (schedAt_modifyRun run.id (fun a => ?_) (fun a => ok_addMerged a sp)
        (schedAt_takeAll sp _ hid h))
      unfold Run.addMerged
      repeat' split
      all_goals rfl

/-! ### Every change -/

/-- The scheduler and the slots' runs, whatever the next identity is. -/
def SchedShaped (s : State) : Prop := SchedAt s.sched.nextRun s

theorem SchedAt.shaped {n : Nat} (h : SchedAt n s) : SchedShaped s := by
  unfold SchedShaped
  rwa [h.1]

theorem shaped_setAdmission (b : Bool) (h : SchedShaped s) : SchedShaped (setAdmission b s) := by
  obtain ⟨hn, ⟨runs, hshaped⟩, howners⟩ := h
  unfold setAdmission
  split
  · rename_i hcurrent
    have hnone : runs = [] := by
      rw [hshaped.current] at hcurrent
      exact List.head?_eq_none_iff.1 hcurrent
    subst hnone
    exact ⟨hn, ⟨[], hshaped.current, hshaped.stack, hshaped.depth, fun hne => absurd rfl hne, hshaped.ok,
      hshaped.distinct⟩, howners⟩
  · exact schedAt_of_lists (s := s) rfl rfl rfl rfl rfl ⟨hn, ⟨runs, hshaped⟩, howners⟩

theorem shaped_resetScheduler (h : SchedShaped s) : SchedShaped (resetScheduler s) := by
  obtain ⟨hn, _, howners⟩ := h
  exact ⟨hn, ⟨[], rfl, rfl, Nat.zero_le _, fun hne => absurd rfl hne, fun _ hr => absurd hr List.not_mem_nil,
    List.nodup_nil⟩, howners⟩

theorem shaped_of_empty (hcurrent : s.sched.current = none) (hstack : s.sched.stack = []) (hslots : OwnersOk s.sched.nextRun s) :
    SchedShaped s :=
  ⟨rfl, ⟨[], hcurrent, hstack, Nat.zero_le _, fun hne => absurd rfl hne, fun _ hr => absurd hr List.not_mem_nil,
    List.nodup_nil⟩, hslots⟩

theorem schedShaped_of_same (hsched : t.sched = s.sched) (hslots : t.probes.slots = s.probes.slots)
    (h : SchedShaped s) : SchedShaped t := (schedAt_of_same hsched hslots h).shaped

theorem schedShaped_of_runsKey (hkey : runsKey t = runsKey s) (hslots : t.probes.slots = s.probes.slots)
    (h : SchedShaped s) : SchedShaped t := (schedAt_of_runsKey hkey hslots h).shaped

/-- A load writes the admission flag while no run is there (R136). -/
theorem loadTaken_stack (bytes : List Byte) (s : State) :
    (loadTaken bytes s).sched.stack = s.sched.stack ∧ (loadTaken bytes s).sched.current = s.sched.current ∧
      (loadTaken bytes s).sched.nextRun = s.sched.nextRun := by
  rcases loadTaken_run bytes s with ⟨_, hrun, _⟩ | ⟨_, _, _, _, hsched, _⟩
  · rw [loadTaken_of_running hrun]
    have hbase : runsKey (markLines (loadTables (loadBase bytes s))) = runsKey s := by
      simp [runsKey, markLines, loadBase]
    have hcensus (u : State) : runsKey (autoCensus u) = runsKey u := by
      unfold autoCensus
      split
      · exact runsKey_requestAudits _ _ _ u
      · rfl
    have hkey := (hcensus _).trans hbase
    simp only [runsKey, Prod.mk.injEq] at hkey
    exact ⟨hkey.2.1, hkey.1, hkey.2.2.2⟩
  · rw [hsched]
    exact ⟨rfl, rfl, rfl⟩

theorem shaped_load (bytes : List Byte) (hempty : s.sched.stack = []) (h : SchedShaped s) :
    SchedShaped (loadTaken bytes s) := by
  obtain ⟨hstack, hcurrent, hnext⟩ := loadTaken_stack bytes s
  obtain ⟨_, ⟨runs, hshaped⟩, howners⟩ := h
  have hnone : s.sched.current = none := by
    rw [hshaped.current, hshaped.stack_nil_iff.1 hempty]
    rfl
  refine shaped_of_empty (hcurrent.trans hnone) (hstack.trans hempty) ?_
  rw [hnext]
  exact ownersOk_of_slots (by simp) howners

/-- A launch of the sweep is of the current run. -/
theorem shaped_sweepLaunch {i id c : Nat} (hchoice : sweepLaunchChoice s = some (i, id, c)) (h : SchedShaped s) :
    SchedShaped (modifyRun id (·.setStanding c .launched) (claimSlot i c .sweep (.run id) s)) := by
  obtain ⟨_, _, _, _, _, r, hcurrent, rfl, _⟩ := sweepLaunchChoice_spec hchoice
  obtain ⟨_, ⟨runs, hshaped⟩, howners⟩ := h
  have hmem : r ∈ runs := by
    rw [hshaped.current] at hcurrent
    exact List.mem_of_head? hcurrent
  have hclaimed : SchedAt s.sched.nextRun (claimSlot i c .sweep (.run r.id) s) :=
    ⟨by simp, ⟨runs, by simpa using hshaped⟩, ownersOk_claimSlot (decide_eq_true (hshaped.ok r hmem).2) howners⟩
  exact (schedAt_setStanding r.id c .launched hclaimed).shaped

theorem shaped_baseLaunch (i c : Nat) (m : Mode) (h : SchedShaped s) :
    SchedShaped (claimSlot i c m .base (leaveList m c s)) := by
  obtain ⟨hn, ⟨runs, hshaped⟩, howners⟩ := schedAt_leaveList m c h
  have hclaimed : SchedAt s.sched.nextRun (claimSlot i c m .base (leaveList m c s)) :=
    ⟨by simpa using hn, ⟨runs, by simpa using hshaped⟩, ownersOk_claimSlot rfl howners⟩
  exact hclaimed.shaped

/-- Owners change with slots of the same scheduler. -/
theorem schedShaped_of_owners (hsched : t.sched = s.sched) (howners : ∀ n, OwnersOk n s → OwnersOk n t)
    (h : SchedShaped s) : SchedShaped t := by
  obtain ⟨_, hshaped, hown⟩ := h
  exact ⟨rfl, hsched ▸ hshaped, hsched ▸ howners _ hown⟩

theorem schedShaped_act (hpieces : g.verdicts = true) (hresets : g.resets = true)
    (hstopped : s.runState = .starting → s.sched.stack = []) (hact : Act g s t) (h : SchedShaped s) :
    SchedShaped t := by
  cases hact with
  | boot c => exact shaped_of_empty rfl rfl (ownersOk_of_none rfl)
  | load bytes hstart => exact shaped_load bytes (hstopped hstart) h
  | slotFlags x hcore => exact schedShaped_of_owners (s := s) rfl (fun _ => ownersOk_slotFlags hcore) h
  | pool i p x => exact schedShaped_of_owners (s := s) rfl (fun _ => ownersOk_modifySlot fun _ => rfl) h
  | closeSlot i => exact schedShaped_of_owners (s := s) rfl (fun _ => ownersOk_modifySlot fun _ => rfl) h
  | enterDriving i p b failed => exact schedShaped_of_owners (by simp) (fun _ => ownersOk_enterDriving) h
  | freeSlot i =>
    exact schedShaped_of_owners (s := s) rfl (fun _ => ownersOk_putSlot fun _ hp => absurd hp (by simp)) h
  | emptySlot i =>
    exact schedShaped_of_owners (s := s) rfl (fun _ => ownersOk_putSlot fun _ hp => absurd hp (by simp)) h
  | presence n f =>
    exact schedShaped_of_owners (by simp) (fun _ ho => ownersOk_recompute (ownersOk_of_slots (by simp) ho)) h
  | joined n =>
    exact schedShaped_of_owners (by simp) (fun _ ho => ownersOk_recompute (ownersOk_of_slots (by simp) ho)) h
  | lists m c => exact (schedAt_joinList m c h).shaped
  | creditRun id c x => exact (schedAt_touchRun id c x h).shaped
  | requestAudit c m o => exact schedShaped_of_runsKey (runsKey_requestAudit c m o s) (by simp) h
  | addHold ser c => exact (schedAt_addHold ser c h).shaped
  | removeHold ser c => exact (schedAt_removeHold ser c h).shaped
  | applyAlarm sp cause =>
    obtain ⟨k, hk⟩ := schedAt_applyAlarm sp cause h
    exact hk.shaped
  | baseLaunch i m c => exact shaped_baseLaunch i c m h
  | sweepLaunch i id c hchoice => exact shaped_sweepLaunch hchoice h
  | setAdmission b => exact shaped_setAdmission b h
  | resetWork =>
    have hreset := shaped_resetScheduler h
    have hcleared : SchedShaped (clearSlots (resetScheduler s)) :=
      schedShaped_of_owners (by simp) (fun _ _ => ownersOk_of_none (probesOf_of_reset (by simp [clearSlots, probesReset])))
        hreset
    exact schedShaped_of_runsKey (runsKey_requestAudits _ _ _ _) (by simp)
      (schedShaped_of_same (s := clearSlots (resetScheduler s)) rfl rfl hcleared)
  | evaluate i p hwhole => simp [hpieces] at hwhole
  | evaluateWithdrawn i p hwhole => simp [hpieces] at hwhole
  | resetLoopOwn hwhole => simp [hresets] at hwhole
  | _ => exact schedShaped_of_same (by simp) (by simp) h

/-! ### Outside RUNNING -/

/-- Outside RUNNING nothing is suspended and nothing is received. -/
def NoRuns (s : State) : Prop := s.runState ≠ .running → s.sched.stack = [] ∧ s.loop.receive = []

theorem noRuns_of_fewer (hrun : t.runState = s.runState) (hstack : s.sched.stack = [] → t.sched.stack = [])
    (hreceive : t.loop.receive.Sublist s.loop.receive) (h : NoRuns s) : NoRuns t := by
  intro hne
  obtain ⟨h1, h2⟩ := h (hrun ▸ hne)
  exact ⟨hstack h1, List.sublist_nil.1 (h2 ▸ hreceive)⟩

theorem noRuns_of_running (hrun : t.runState = .running) : NoRuns t := fun hne => absurd hrun hne

theorem stack_nil_completeRun (id : Nat) (h : s.sched.stack = []) : (completeRun id s).sched.stack = [] := by
  unfold completeRun
  split
  · exact h
  · split
    · exact h
    · dsimp only
      split
      · unfold popRun
        rw [(postReport_frame _ s).2.2.2.2.2.2.2.2.2.2.2.2.2.1, h]
        simpa using h
      · simp [dropSuspended, h]

theorem stack_nil_touchRun (id c : Nat) (v : RunStanding) (h : s.sched.stack = []) :
    (touchRun id c v s).sched.stack = [] :=
  stack_nil_completeRun id (by simp [modifyRun, h])

theorem stack_leaveList (m : Mode) (c : Nat) (s : State) : (leaveList m c s).sched.stack = s.sched.stack := by
  cases m <;> rfl

theorem stack_joinList (m : Mode) (c : Nat) (s : State) : (joinList m c s).sched.stack = s.sched.stack := by
  cases m <;> rfl

theorem stack_nil_addHold (ser : Serial) (c : Nat) (h : s.sched.stack = []) : (addHold ser c s).sched.stack = [] := by
  unfold addHold
  split
  · exact h
  · split
    · exact h
    · unfold moveForHold
      split
      · exact h
      · unfold deferEntry
        split
        · exact stack_nil_touchRun _ c _ h
        · exact h
      · rw [stack_leaveList]
        exact h
      · exact h
      · exact h

theorem stack_removeHold (ser : Serial) (c : Nat) (s : State) : (removeHold ser c s).sched.stack = s.sched.stack := by
  unfold removeHold
  split
  · rfl
  · split
    · rfl
    · dsimp only
      split
      · rw [enqueue, stack_joinList]
        rfl
      · rfl

theorem stack_setAdmission (b : Bool) (s : State) : (setAdmission b s).sched.stack = s.sched.stack := by
  unfold setAdmission
  split <;> rfl

theorem noRuns_act (hpieces : g.verdicts = true) (hresets : g.resets = true)
    (hlive : g.live → s.runState = .running) (hact : Act g s t) (h : NoRuns s) : NoRuns t := by
  cases hact with
  | boot c => exact fun _ => ⟨rfl, rfl⟩
  | load bytes hstart =>
    obtain ⟨hstack, _⟩ := loadTaken_stack bytes s
    obtain ⟨h1, h2⟩ := h (by rw [hstart]; decide)
    exact fun _ => ⟨hstack.trans h1, by simpa using h2⟩
  | enqueueReceived x m p hrun => exact noRuns_of_running hrun
  | popOldest => exact noRuns_of_fewer (s := s) rfl id (List.tail_sublist _) h
  | watchStart => exact noRuns_of_fewer (s := s) rfl id (List.tail_sublist _) h
  | windowReceived => exact noRuns_of_fewer (s := s) rfl id (List.tail_sublist _) h
  | queueReset => exact noRuns_of_fewer (s := s) rfl id List.filter_sublist h
  | lists m c => exact noRuns_of_fewer (by simp) (fun hs => (stack_joinList m c s).trans hs) (by simp) h
  | creditRun id c x => exact noRuns_of_fewer (by simp) (stack_nil_touchRun id c x) (by simp) h
  | requestAudit c m o =>
    have hkey := runsKey_requestAudit c m o s
    simp only [runsKey, Prod.mk.injEq] at hkey
    exact noRuns_of_fewer (by simp) (fun hs => hkey.2.1.trans hs) (by simp) h
  | addHold ser c => exact noRuns_of_fewer (by simp) (stack_nil_addHold ser c) (by simp) h
  | removeHold ser c => exact noRuns_of_fewer (by simp) (fun hs => (stack_removeHold ser c s).trans hs) (by simp) h
  | applyAlarm sp cause hrun => exact noRuns_of_running (by simpa using hrun.elim hlive id)
  | baseLaunch i m c hchoice => exact noRuns_of_running (by simpa using (baseLaunchChoice_spec hchoice).1)
  | sweepLaunch i id c hchoice => exact noRuns_of_running (by simpa using (sweepLaunchChoice_spec hchoice).1)
  | setAdmission b => exact noRuns_of_fewer (by simp) (fun hs => (stack_setAdmission b s).trans hs) (by simp) h
  | resetWork =>
    refine noRuns_of_fewer (by simp) (fun _ => ?_) (by simp) h
    have hkey := runsKey_requestAudits ((clearSlots (resetScheduler s)).paths.filter (·.baseline.isSome) |>.map (·.circuit))
      .routine .reset ((clearSlots (resetScheduler s)).setPaths
        ((clearSlots (resetScheduler s)).paths.map fun r => { r with state := .idle, hold := [], owed := [] }))
    simp only [runsKey, Prod.mk.injEq] at hkey
    exact hkey.2.1.trans (by simp [resetScheduler])
  | evaluate i p hwhole => simp [hpieces] at hwhole
  | evaluateWithdrawn i p hwhole => simp [hpieces] at hwhole
  | resetLoopOwn hwhole => simp [hresets] at hwhole
  | _ => exact noRuns_of_fewer (by simp) (by simp) (by simp) h

theorem schedulerOk_iff_shaped (s : State) : SchedulerOk s ↔ SchedShaped s ∧ NoRuns s := by
  rw [schedulerOk_iff]
  exact ⟨fun ⟨h1, h2, h3⟩ => ⟨⟨rfl, h1, h2⟩, h3⟩, fun ⟨⟨_, h1, h2⟩, h3⟩ => ⟨h1, h2, h3⟩⟩

theorem schedulerOk_act (hpieces : g.verdicts = true) (hresets : g.resets = true) (hact : Act g s t)
    (h : (g.live → s.runState = .running) ∧ SchedulerOk s) : (g.live → t.runState = .running) ∧ SchedulerOk t := by
  obtain ⟨hlive, hs⟩ := h
  obtain ⟨hshaped, hnone⟩ := (schedulerOk_iff_shaped s).1 hs
  refine ⟨live_act hact hlive, (schedulerOk_iff_shaped t).2
    ⟨schedShaped_act hpieces hresets (fun hstart => ?_) hact hshaped, noRuns_act hpieces hresets hlive hact hnone⟩⟩
  exact (hnone (by rw [hstart]; decide)).1

theorem schedulerOk_quiet (hq : Quiet s t) (h : SchedulerOk s) : SchedulerOk t := by
  obtain ⟨_, _, _, _, _, _, _, rfl⟩ := hq
  exact h

theorem schedulerOk_step (h : SchedulerOk s) (hstep : step s = .next t) : SchedulerOk t :=
  step_keeps (fun g u => (g.live → u.runState = .running) ∧ SchedulerOk u) true true schedulerOk_quiet
    (fun _ _ hs => ⟨running_of_live fun hne => (hs.2.2.2.2.2.2.2 hne).2, hs⟩)
    (fun _ c s hs => ⟨hs.1, schedulerOk_quiet (quiet_intakeCommand c s) hs.2⟩)
    (fun _ _ _ hv hr => schedulerOk_act hv hr) (fun _ _ hs => hs.2) h hstep

/-- Settles O7: a run is pushed, popped or dropped, and no other change touches the stack. -/
theorem suspensionStackStaysInShape : Obligations.SuspensionStackStaysInShape := fun _ _ => schedulerOk_step

end Sys2Proof.Machine
end

