-- ==== Sys2Proof/Proofs/InvRecords.lean ====
section
/-! HELD goes with a hold, and holds, owed audits and queued routine or sweep work with a baseline (R14, R15, R17, R77). -/

namespace Sys2Proof.Machine

variable {g : Grain} {s t : State} {c : Nat} {r : PathRecord}

/-! ### One record changed -/

theorem modifyPath_comp (c : Nat) {f : PathRecord → PathRecord} (h : PathRecord → PathRecord) (s : State)
    (hf : ∀ r, (f r).circuit = r.circuit := by intro; rfl) :
    (modifyPath c h (modifyPath c f s)).paths = (modifyPath c (fun r => h (f r)) s).paths := by
  simp only [modifyPath, State.setPaths_fields, List.map_map]
  refine List.map_congr_left fun r _ => ?_
  rw [Function.comp_apply]
  by_cases hc : r.circuit = c
  · rw [if_pos hc, if_pos hc, if_pos ((hf r).trans hc)]
  · rw [if_neg hc, if_neg hc, if_neg hc]

theorem findPath_of_paths (h : t.paths = s.paths) (c : Nat) : findPath t c = findPath s c := by
  rw [findPath, findPath, h]

/-! ### The record after an evaluation (R11, R20, R54) -/

theorem judgeProbe_circuit (s : State) (p : Probe) (r : PathRecord) : (judgeProbe s p r).record.circuit = p.circuit := by
  unfold judgeProbe judge judgeChain judgeConflict
  dsimp only
  repeat' split
  all_goals rfl

/-- A record after a verdict: its evidence, then its move, by the holds and the owed serials of the record judged. -/
def afterVerdict (j : Judgement) (r x : PathRecord) : PathRecord :=
  if r.hold ≠ [] then { takeVerdict j x with state := .held }
  else if j.record.flags.overlap = false then { takeVerdict j x with state := .idle, owed := [] }
  else match r.owed with
    | ser :: _ => { takeVerdict j x with state := .queued .routine, origin := some (.window ser) }
    | [] => { takeVerdict j x with state := .idle }

theorem afterVerdict_circuit (j : Judgement) (r x : PathRecord) : (afterVerdict j r x).circuit = x.circuit := by
  unfold afterVerdict
  split
  · rfl
  · split
    · rfl
    · split <;> rfl

theorem recordVerdict_paths (j : Judgement) (p : Probe) (r : PathRecord) (s : State) :
    (recordVerdict j p r s).paths = (modifyPath j.record.circuit (afterVerdict j r) s).paths := by
  have hcredit (u : State) : (creditRun p j.record.verdict u).paths = u.paths := by simp
  have hwindows (l : List Serial) (u : State) :
      (l.foldl (creditWindow j.record.circuit j.record.verdict) u).paths = u.paths :=
    foldl_keeps _ _ _ State.paths fun v ser => by simp
  have hmove (f : PathRecord → PathRecord) :
      (modifyPath j.record.circuit f (followHead j (modifyPath j.record.circuit (takeVerdict j) s))).paths =
        (modifyPath j.record.circuit (fun x => f (takeVerdict j x)) s).paths := by
    rw [← modifyPath_comp (f := takeVerdict j)]
    change List.map _ (followHead j (modifyPath j.record.circuit (takeVerdict j) s)).paths = List.map _ _
    rw [(followHead_frame _ _).2.2.2.2.2.2.2.1]
  rw [recordVerdict, hcredit, (postReport_frame _ _).2.2.2.2.2.2.2.2.1]
  unfold moveForVerdict afterVerdict
  dsimp only
  split
  · exact hmove _
  · split
    · rename_i hoverlap
      have hclear : j.record.flags.overlap = false := by simpa using hoverlap
      rw [creditOwed, hwindows, setRecordState]
      rw [modifyPath_comp, hmove]
      simp [hclear]
    · rename_i hoverlap
      have hset : j.record.flags.overlap = true := by simpa using hoverlap
      simp only [hset, Bool.true_eq_false, if_false]
      cases r.owed with
      | nil => exact hmove _
      | cons ser rest =>
        change (joinList _ _ _).paths = _
        rw [(joinList_frame _ _ _).2.2.2.2.2.2.2.2.1]
        exact hmove _

/-- Where the evaluation of a slot finds the record of its circuit. -/
theorem evaluate_paths {i : Nat} {p : Probe} (hp : probeAt s i = some p) (hr : findPath s p.circuit = some r) :
    (evaluate i s).paths = (modifyPath p.circuit (afterVerdict (judgeProbe s p r) r) s).paths := by
  unfold evaluate
  rw [hp]
  dsimp only
  rw [hr]
  dsimp only
  rw [(requestProbe_frame _ _).2.2.2.2.2.2.2.2.1, (idleMarking_frame _ _).2.2.2.2.2.2.2.2.1,
    (closeSlot_frame _ _).2.2.2.2.2.2.2.2.1, recordVerdict_paths, judgeProbe_circuit]

theorem evaluateWithdrawn_paths {i : Nat} {p : Probe} (hp : probeAt s i = some p)
    (hr : findPath s p.circuit = some r) :
    (evaluateWithdrawn i s).paths = (modifyPath p.circuit (afterVerdict (judgeProbe s p r) r) s).paths := by
  unfold evaluateWithdrawn
  rw [hp]
  dsimp only
  rw [hr]
  dsimp only
  rw [(putSlot_frame _ _ _).2.2.2.2.2.2.2.2.1, recordVerdict_paths, judgeProbe_circuit]

theorem evaluate_of_no_record {i : Nat} {p : Probe} (hp : probeAt s i = some p) (hr : findPath s p.circuit = none) :
    evaluate i s = s ∧ evaluateWithdrawn i s = s := by
  unfold evaluate evaluateWithdrawn
  rw [hp]
  dsimp only
  rw [hr]
  exact ⟨rfl, rfl⟩

/-! ### What keeps the records -/

theorem recordsOk_of_paths (h : t.paths = s.paths) (hs : RecordsOk s) : RecordsOk t := by
  unfold RecordsOk pathOrder at hs ⊢
  rwa [h]

theorem recordsOk_of_map {f : PathRecord → PathRecord} (hpaths : t.paths = s.paths.map f)
    (hcircuit : ∀ r, (f r).circuit = r.circuit) (hok : ∀ r ∈ s.paths, r.ok → (f r).ok) (hs : RecordsOk s) :
    RecordsOk t := by
  obtain ⟨hnodup, hall⟩ := hs
  refine ⟨?_, fun r hr => ?_⟩
  · have horder : pathOrder t = pathOrder s := by
      rw [pathOrder, hpaths, List.map_map]
      exact List.map_congr_left fun r _ => hcircuit r
    exact horder ▸ hnodup
  · rw [hpaths] at hr
    obtain ⟨x, hx, rfl⟩ := List.mem_map.1 hr
    exact hok x hx (hall x hx)

/-- The record of one circuit changed. -/
theorem recordsOk_modify {f : PathRecord → PathRecord} (hpaths : t.paths = (modifyPath c f s).paths)
    (hcircuit : ∀ r, (f r).circuit = r.circuit) (hok : ∀ r, findPath s c = some r → r.ok → (f r).ok)
    (hs : RecordsOk s) : RecordsOk t := by
  have hmap : t.paths = s.paths.map fun r => if r.circuit = c then f r else r := hpaths
  refine recordsOk_of_map hmap (fun r => ?_) (fun r hr hrok => ?_) hs
  · split
    · exact hcircuit r
    · rfl
  · split
    · rename_i hc
      exact hok r (hc ▸ findPath_of_mem hs.1 hr) hrok
    · exact hrok

/-! ### Records in order -/

theorem hold_nil_of_idle (h : r.ok) (hst : r.state = .idle) : r.hold = [] := by
  by_contra hne
  rcases h.2.1 hne with hheld | hprobing
  · rw [hst] at hheld
    cases hheld
  · rw [hst] at hprobing
    cases hprobing

theorem hold_nil_of_queued {m : Mode} (h : r.ok) (hst : r.state = .queued m) : r.hold = [] := by
  by_contra hne
  rcases h.2.1 hne with hheld | hprobing
  · rw [hst] at hheld
    cases hheld
  · rw [hst] at hprobing
    cases hprobing

/-- A record that takes a state of no holds: QUEUED for a census, or for other work while it has a baseline. -/
theorem ok_of_queued {m : Mode} {o : Option Origin} (h : r.ok) (hhold : r.hold = [])
    (hbased : m = .census ∨ r.baseline.isSome = true) : ({ r with state := .queued m, origin := o } : PathRecord).ok := by
  obtain ⟨_, _, hbaseline, _, _, howed⟩ := h
  refine ⟨fun hst => absurd hst (by simp), fun hne => absurd hhold hne, hbaseline, fun hst => ?_,
    hhold ▸ List.nodup_nil, howed⟩
  rcases hbased with rfl | hbased
  · simp at hst
  · exact hbased

theorem ok_afterVerdict (j : Judgement) (h : r.ok) : (afterVerdict j r r).ok := by
  obtain ⟨_, _, hbaseline, _, hhold, howed⟩ := h
  have hbased : r.hold ≠ [] ∨ r.owed ≠ [] → (takeVerdict j r).baseline.isSome = true := by
    intro hne
    unfold takeVerdict
    dsimp only
    split
    · rfl
    · exact hbaseline hne
  unfold afterVerdict
  split
  · rename_i hne
    exact ⟨fun _ => hne, fun _ => .inl rfl, hbased, fun hst => absurd hst (by simp), hhold, howed⟩
  · rename_i hnil
    have hnone : r.hold = [] := not_not.1 hnil
    split
    · exact ⟨fun hst => absurd hst (by simp), fun hne => absurd hnone hne,
        fun hne => absurd hnone (hne.resolve_right fun h => h rfl), fun hst => absurd hst (by simp), hhold,
        List.nodup_nil⟩
    · split
      · rename_i ser rest howes
        have hsome : (takeVerdict j r).baseline.isSome = true :=
          hbased (.inr (by rw [howes]; exact List.cons_ne_nil _ _))
        exact ⟨fun hst => absurd hst (by simp), fun hne => absurd hnone hne, hbased, fun _ => hsome, hhold, howed⟩
      · exact ⟨fun hst => absurd hst (by simp), fun hne => absurd hnone hne, hbased,
          fun hst => absurd hst (by simp), hhold, howed⟩

theorem ok_heldFor {ser : Serial} (h : r.ok) (hser : ser ∉ r.hold) (hbased : r.baseline.isSome = true) :
    (heldFor ser r).ok := by
  obtain ⟨_, _, _, _, hhold, howed⟩ := h
  refine ⟨fun _ => by simp [heldFor], fun _ => ?_, fun _ => hbased, fun hst => ?_, ?_, ?_⟩
  · unfold heldFor
    dsimp only
    split
    · exact .inr rfl
    · exact .inl rfl
  · exact hbased
  · exact hhold.append (List.nodup_singleton _) (by simpa using hser)
  · unfold heldFor
    dsimp only
    split
    · exact howed
    · rename_i hnot
      exact howed.append (List.nodup_singleton _) (by simpa using hnot)

theorem ok_released (ser : Serial) (h : r.ok) : (released ser r).ok := by
  obtain ⟨hheld, hstates, hbaseline, hqueued, hhold, howed⟩ := h
  have hsub : r.hold.erase ser ≠ [] → r.hold ≠ [] := fun hne hnil => hne (by rw [hnil]; rfl)
  cases hfreed : freed ser r with
  | true =>
    obtain ⟨hmem, _, hempty⟩ := (freed_iff ser r).1 hfreed
    have hsome : r.baseline.isSome = true := hbaseline (.inl (List.ne_nil_of_mem hmem))
    refine ⟨fun hst => ?_, fun hne => absurd hempty hne, fun _ => hsome, fun _ => hsome, hhold.erase _, howed⟩
    simp [released, hfreed] at hst
  | false =>
    refine ⟨fun hst => ?_, fun hne => ?_, fun hne => hbaseline (hne.imp_left hsub), fun hst => ?_, hhold.erase _, howed⟩
    · have hst' : r.state = .held := by simpa [released, hfreed] using hst
      intro hempty
      have hmem : ser ∈ r.hold := by
        by_contra hnot
        rw [released_of_not_mem hnot] at hempty
        exact hheld hst' hempty
      exact absurd ((freed_iff ser r).2 ⟨hmem, hst', hempty⟩) (by simp [hfreed])
    · simpa [released, hfreed] using hstates (hsub hne)
    · exact hqueued (by simpa [released, hfreed] using hst)

/-! ### The operations -/

theorem recordsOk_addHold (ser : Serial) (c : Nat) (hbased : ∃ r ∈ s.paths, r.circuit = c ∧ r.baseline.isSome = true)
    (h : RecordsOk s) : RecordsOk (addHold ser c s) := by
  cases hr : findPath s c with
  | none => simpa [addHold, hr] using h
  | some r =>
    by_cases hser : ser ∈ r.hold
    · simpa [addHold, hr, hser] using h
    · refine recordsOk_modify (f := heldFor ser) (addHold_paths h.1 hr hser) (fun _ => rfl) (fun x hx hok => ?_) h
      obtain rfl : r = x := Option.some.inj (hr.symm.trans hx)
      obtain ⟨y, hy, hyc, hsome⟩ := hbased
      rw [eq_of_findPath h.1 hr hy hyc] at hsome
      exact ok_heldFor hok hser hsome

theorem recordsOk_removeHold (ser : Serial) (c : Nat) (h : RecordsOk s) : RecordsOk (removeHold ser c s) := by
  cases hr : findPath s c with
  | none => simpa [removeHold, hr] using h
  | some r =>
    have hmem : r ∈ s.paths := List.mem_of_find?_eq_some hr
    obtain ⟨before, after, hs⟩ := List.append_of_mem hmem
    have hc := circuit_of_findPath hr
    have hsplit := removeHold_of_split ser hs h.1
    rw [hc] at hsplit
    have hpaths : (removeHold ser c s).paths = before ++ released ser r :: after := by
      rw [hsplit]
      rfl
    refine ⟨?_, fun x hx => ?_⟩
    · have horder : pathOrder (removeHold ser c s) = pathOrder s := pathOrder_of_pathCores (pathCores_removeHold ser c s)
      exact horder ▸ h.1
    · rw [hpaths] at hx
      rcases List.mem_append.1 hx with hx | hx
      · exact h.2 x (hs ▸ List.mem_append_left _ hx)
      · rcases List.mem_cons.1 hx with rfl | hx
        · exact ok_released ser (h.2 r hmem)
        · exact h.2 x (hs ▸ List.mem_append_right _ (List.mem_cons_of_mem _ hx))

theorem recordsOk_dropOwed (ser : Serial) (h : RecordsOk s) : RecordsOk (dropOwed ser s) := by
  refine recordsOk_of_map (f := fun r => { r with owed := r.owed.erase ser }) rfl (fun _ => rfl) (fun r _ hok => ?_) h
  obtain ⟨hheld, hstates, hbaseline, hqueued, hhold, howed⟩ := hok
  refine ⟨hheld, hstates, fun hne => hbaseline (hne.imp_right fun hne hnil => hne ?_), hqueued, hhold, howed.erase _⟩
  rw [hnil]
  rfl

theorem enqueue_paths (c : Nat) (m : Mode) (o : Origin) (s : State) : (enqueue c m o s).paths =
    (modifyPath c (fun r => { r with state := .queued m, origin := some o }) s).paths := by
  rw [enqueue, (joinList_frame _ _ _).2.2.2.2.2.2.2.2.1]

/-- A request queues an IDLE record, with a mode that its baseline allows (R17). -/
theorem recordsOk_requestAudit (c : Nat) {m : Mode} (o : Origin) (hm : m ≠ .sweep) (h : RecordsOk s) :
    RecordsOk (requestAudit c m o s) := by
  unfold requestAudit
  split
  · exact h
  · rename_i r hr
    split
    · rename_i hidle
      refine recordsOk_modify (enqueue_paths c _ o s) (fun _ => rfl) (fun x hx hok => ?_) h
      obtain rfl : r = x := Option.some.inj (hr.symm.trans hx)
      refine ok_of_queued hok (hold_nil_of_idle hok hidle) ?_
      unfold requestMode
      split
      · exact .inl rfl
      · rename_i hbased
        cases m with
        | census => exact .inl rfl
        | routine => exact .inr (Option.isSome_iff_ne_none.2 fun hn => hbased ⟨rfl, hn⟩)
        | sweep => exact absurd rfl hm
    · exact h

/-- The record of the circuit judged changes, whatever the judgement. -/
theorem recordsOk_evaluated {j : Judgement} (hpaths : t.paths = (modifyPath c (afterVerdict j r) s).paths)
    (hr : findPath s c = some r) (h : RecordsOk s) : RecordsOk t := by
  refine recordsOk_modify hpaths (fun x => afterVerdict_circuit j r x) (fun x hx hok => ?_) h
  obtain rfl : r = x := Option.some.inj (hr.symm.trans hx)
  exact ok_afterVerdict j hok

theorem recordsOk_requestAudits (cs : List Nat) {m : Mode} (o : Origin) (hm : m ≠ .sweep) :
    ∀ {s : State}, RecordsOk s → RecordsOk (requestAudits cs m o s) := by
  induction cs with
  | nil => exact fun h => h
  | cons c cs ih => exact fun h => ih (recordsOk_requestAudit c o hm h)

theorem recordsOk_claimSlot (i c : Nat) (m : Mode) (o : Owner) (h : RecordsOk s) : RecordsOk (claimSlot i c m o s) := by
  unfold claimSlot
  split
  · exact h
  · rename_i r _
    refine recordsOk_modify (c := c) (f := fun x => { x with state := .probing, lastEpoch := nextEpoch r.lastEpoch })
      rfl (fun _ => rfl) (fun x _ hok => ?_) h
    obtain ⟨_, _, hbaseline, _, hhold, howed⟩ := hok
    exact ⟨fun hst => absurd hst (by simp), fun _ => .inr rfl, hbaseline, fun hst => absurd hst (by simp), hhold, howed⟩

theorem recordsOk_resetPaths (h : RecordsOk s) : RecordsOk (resetPaths s) := by
  unfold resetPaths
  refine recordsOk_requestAudits _ _ (by decide) (recordsOk_of_map (s := s)
    (f := fun r => { r with state := .idle, hold := [], owed := [] }) rfl (fun _ => rfl) (fun r _ _ => ?_) h)
  exact ⟨fun hst => absurd hst (by simp), fun hne => absurd rfl hne, fun hne => absurd hne (by simp),
    fun hst => absurd hst (by simp), List.nodup_nil, List.nodup_nil⟩

/-! ### A selection (R18, R123 to R125) -/

/-- A selected record's origin names the alarm, and an IDLE or QUEUED one is queued for the sweep. -/
theorem takeSelected_paths {id : Nat} {sp : Span} (hr : findPath s c = some r) :
    (takeSelected id sp s c).paths = s.paths ∨
    (takeSelected id sp s c).paths = (modifyPath c (fun x => { x with origin := some (.sweep sp) }) s).paths ∨
    (r.state = .idle ∨ ∃ m, r.state = .queued m) ∧ (takeSelected id sp s c).paths =
      (modifyPath c (fun x => { x with state := .queued .sweep, origin := some (.sweep sp) }) s).paths := by
  have hset (u : State) (hu : u.paths = (setOrigin c (.sweep sp) s).paths) :
      (setRecordState c (.queued .sweep) u).paths =
        (modifyPath c (fun x => { x with state := .queued .sweep, origin := some (.sweep sp) }) s).paths := by
    have hcomp := modifyPath_comp (f := fun x => { x with origin := some (.sweep sp) }) c
      (fun x => { x with state := .queued .sweep }) s
    rw [← hcomp]
    exact congrArg (List.map _) hu
  unfold takeSelected
  rw [hr]
  split
  · rename_i x _ hx _
    obtain rfl : r = x := Option.some.inj hx
    dsimp only
    split
    · exact .inr (.inl rfl)
    · rw [(modifyRun_frame _ _ _).2.2.2.2.2.2.2.2.1]
      unfold moveIntoRun
      split
      · refine .inr (.inl ?_)
        split
        · simp [setOrigin]
        · rfl
      · refine .inr (.inl ?_)
        simp [setOrigin]
      · rename_i m _ hst
        exact .inr (.inr ⟨.inr ⟨m, hst⟩, hset _ (by simp)⟩)
      · rename_i hst
        exact .inr (.inr ⟨.inl hst, hset _ rfl⟩)
      · exact .inr (.inl rfl)
  · exact .inl rfl

/-- The records of these circuits have a baseline. -/
def BasedAt (cs : List Nat) (s : State) : Prop :=
  ∀ c ∈ cs, ∀ r, findPath s c = some r → r.baseline.isSome = true

theorem basedAt_of_modify {cs : List Nat} {f : PathRecord → PathRecord} (hpaths : t.paths = (modifyPath c f s).paths)
    (hf : ∀ r, (f r).circuit = r.circuit ∧ (f r).baseline = r.baseline) (h : BasedAt cs s) : BasedAt cs t := by
  intro d hd r hr
  rw [findPath_of_paths hpaths, findPath_modifyPath c d f (fun r => (hf r).1)] at hr
  obtain ⟨x, hx, rfl⟩ := Option.map_eq_some_iff.1 hr
  split
  · rw [(hf x).2]
    exact h d hd x hx
  · exact h d hd x hx

theorem recordsOk_takeSelected {id : Nat} {sp : Span} {cs : List Nat} (hc : c ∈ cs)
    (h : RecordsOk s ∧ BasedAt cs s) : RecordsOk (takeSelected id sp s c) ∧ BasedAt cs (takeSelected id sp s c) := by
  obtain ⟨hs, hbased⟩ := h
  cases hr : findPath s c with
  | none => simpa [takeSelected, hr] using ⟨hs, hbased⟩
  | some r =>
    rcases takeSelected_paths (id := id) (sp := sp) hr with hpaths | hpaths | ⟨hst, hpaths⟩
    · refine ⟨recordsOk_of_paths hpaths hs, fun d hd x hx => hbased d hd x ?_⟩
      rwa [findPath_of_paths hpaths] at hx
    · exact ⟨recordsOk_modify hpaths (fun _ => rfl) (fun x _ hok => hok) hs,
        basedAt_of_modify hpaths (fun _ => ⟨rfl, rfl⟩) hbased⟩
    · refine ⟨recordsOk_modify hpaths (fun _ => rfl) (fun x hx hok => ?_) hs,
        basedAt_of_modify hpaths (fun _ => ⟨rfl, rfl⟩) hbased⟩
      obtain rfl : r = x := Option.some.inj (hr.symm.trans hx)
      refine ok_of_queued hok ?_ (.inr (hbased c hc r hr))
      rcases hst with hidle | ⟨m, hqueued⟩
      · exact hold_nil_of_idle hok hidle
      · exact hold_nil_of_queued hok hqueued

theorem recordsOk_takeAll {id : Nat} {sp : Span} {cs : List Nat} (l : List Nat) (hl : l ⊆ cs) :
    ∀ {s : State}, RecordsOk s ∧ BasedAt cs s → RecordsOk (l.foldl (takeSelected id sp) s) := by
  induction l with
  | nil => exact fun h => h.1
  | cons c l ih =>
    exact fun h => ih (fun d hd => hl (List.mem_cons_of_mem _ hd)) (recordsOk_takeSelected (hl List.mem_cons_self) h)

/-- An alarm selects records whose baseline crosses its span. -/
theorem basedAt_selection (sp : Span) (hs : RecordsOk s) : BasedAt (selection s sp) s := by
  intro c hc r hr
  obtain ⟨x, hx, hxc⟩ := List.mem_map.1 hc
  obtain ⟨hmem, hsel⟩ := List.mem_filter.1 hx
  obtain rfl := eq_of_findPath hs.1 hr hmem hxc
  rw [selectable, Bool.and_eq_true] at hsel
  have henters := hsel.1
  unfold PathRecord.entersAt at henters
  cases hb : x.baseline with
  | none => rw [hb] at henters; simp at henters
  | some b => rfl

theorem recordsOk_applyAlarm (sp : Span) (cause : Cause) (h : RecordsOk s) : RecordsOk (applyAlarm sp cause s) := by
  have hbased := basedAt_selection sp h
  unfold applyAlarm
  dsimp only
  split
  · exact h
  · have hstart : (startRun sp cause (suspendCurrent s)).paths = s.paths := by simp
    refine recordsOk_of_paths (by simp [newRun]) (recordsOk_takeAll (selection s sp) (fun _ hc => hc)
      (s := startRun sp cause (suspendCurrent s)) (id := s.sched.nextRun) (sp := sp)
      ⟨recordsOk_of_paths hstart h, fun d hd r hr => hbased d hd r ?_⟩)
    rwa [findPath_of_paths hstart] at hr
  · unfold mergeRun
    split
    · exact h
    · rename_i run _
      exact recordsOk_of_paths (by simp) (recordsOk_takeAll (id := run.id) (sp := sp) (selection s sp) (fun _ hc => hc)
        ⟨h, hbased⟩)

/-! ### The load -/

theorem ok_newRecord (o : Originated) : (newRecord o).ok :=
  ⟨fun hst => absurd hst (by simp [newRecord]), fun hne => absurd rfl hne, fun hne => absurd hne (by simp [newRecord]),
    fun hst => absurd hst (by simp [newRecord]), List.nodup_nil, List.nodup_nil⟩

theorem recordsOk_load (bytes : List Byte) (h : RecordsOk s) : RecordsOk (loadTaken bytes s) := by
  rcases loadTaken_run bytes s with ⟨_, hrun, _⟩ | ⟨_, hpaths, _⟩
  · have htables : RecordsOk (markLines (loadTables (loadBase bytes s))) := by
      refine ⟨?_, fun r hr => ?_⟩
      · have horder : pathOrder (markLines (loadTables (loadBase bytes s))) =
            (checkImage (readImage bytes)).1.originated.map (·.circuit) := by
          rw [← loadBase_image bytes s]
          simp only [pathOrder, markLines, loadTables, State.setLines_fields, State.setPaths_fields, List.map_map]
          rfl
        rw [horder]
        exact (sound_of_running hrun).circuits
      · obtain ⟨o, _, rfl⟩ := List.mem_map.1 (show r ∈ (loadBase bytes s).image.originated.map newRecord from hr)
        exact ok_newRecord o
    rw [loadTaken_of_running hrun]
    refine recordsOk_of_paths (s := autoCensus (markLines (loadTables (loadBase bytes s)))) (by simp) ?_
    unfold autoCensus
    split
    · exact recordsOk_requestAudits _ _ (by decide) htables
    · exact htables
  · exact recordsOk_of_paths hpaths h

/-! ### Every change -/

theorem recordsOk_act (hwhole : g.verdicts = false) (hresets : g.resets = true) (hact : Act g s t) (h : RecordsOk s) :
    RecordsOk t := by
  cases hact with
  | boot c => exact ⟨List.nodup_nil, fun _ hr => absurd hr List.not_mem_nil⟩
  | load bytes => exact recordsOk_load bytes h
  | evaluate i p _ hp =>
    cases hr : findPath s p.circuit with
    | none =>
      rw [(evaluate_of_no_record hp hr).1]
      exact h
    | some r => exact recordsOk_evaluated (evaluate_paths hp hr) hr h
  | evaluateWithdrawn i p _ hp =>
    cases hr : findPath s p.circuit with
    | none =>
      rw [(evaluate_of_no_record hp hr).2]
      exact h
    | some r => exact recordsOk_evaluated (evaluateWithdrawn_paths hp hr) hr h
  | requestAudit c m o hm => exact recordsOk_requestAudit c o hm h
  | addHold ser c hbased => exact recordsOk_addHold ser c hbased h
  | removeHold ser c => exact recordsOk_removeHold ser c h
  | dropOwed ser => exact recordsOk_dropOwed ser h
  | applyAlarm sp cause => exact recordsOk_applyAlarm sp cause h
  | baseLaunch i m c => exact recordsOk_claimSlot i c m .base (recordsOk_of_paths (by simp) h)
  | sweepLaunch i id c => exact recordsOk_of_paths (by simp) (recordsOk_claimSlot i c .sweep (.run id) h)
  | resetWork => exact recordsOk_resetPaths (recordsOk_of_paths (by simp) h)
  | verdictPaths x hpieces => simp [hwhole] at hpieces
  | resetLoopOwn hpieces => simp [hresets] at hpieces
  | _ => exact recordsOk_of_paths (by simp) h

theorem recordsOk_quiet (hq : Quiet s t) (h : RecordsOk s) : RecordsOk t := by
  obtain ⟨_, _, _, _, _, _, _, rfl⟩ := hq
  exact h

/-- Settles O10: each operation leaves the record it changes in order. -/
theorem pathRecordsStayConsistent : Obligations.PathRecordsStayConsistent := fun _ _ h hstep =>
  step_keeps_self false true recordsOk_quiet (fun _ _ _ hv hr => recordsOk_act hv hr) h hstep

end Sys2Proof.Machine
end

