-- ==== Sys2Proof/Proofs/InvMarkers.lean ====
section
/-! A marker line carries its circuit's tag, with the epoch of a DRIVING slot (R23, R24, R69). -/

namespace Sys2Proof.Machine

variable {g : Grain} {s t : State} {i c : Nat} {p : Probe} {r : PathRecord}

/-! ### The epoch a line carries -/

theorem markedEpoch_of_spines (h : spines t = spines s) (c : Nat) : markedEpoch t c = markedEpoch s c := by
  have hspine (u : State) : markedEpoch u c =
      (((spines u).filterMap id).find? (fun q => q.2.1 == c && q.1 == .driving)).elim 0 (·.2.2.1) := by
    rw [← map_spine_probesOf, List.find?_map, markedEpoch, Option.elim_map]
    change _ = ((probesOf u).find? (fun p => p.circuit == c && p.phase == .driving)).elim 0 (·.epoch)
    cases (probesOf u).find? (fun p => p.circuit == c && p.phase == .driving) <;> rfl
  rw [hspine, hspine, h]

theorem markedEpoch_of_driving (hnd : ((probesOf s).map (·.circuit)).Nodup) (hp : p ∈ probesOf s)
    (hphase : p.phase = .driving) : markedEpoch s p.circuit = p.epoch := by
  unfold markedEpoch
  split
  · rename_i q hq
    have hqc := List.find?_some hq
    simp only [Bool.and_eq_true, beq_iff_eq] at hqc
    rw [List.inj_on_of_nodup_map hnd (List.mem_of_find?_eq_some hq) hp hqc.1]
  · rename_i hnone
    exact absurd (List.find?_eq_none.1 hnone p hp) (by simp [hphase])

theorem markedEpoch_of_idle (h : ∀ p ∈ probesOf s, p.circuit = c → p.phase ≠ .driving) : markedEpoch s c = 0 := by
  unfold markedEpoch
  split
  · rename_i q hq
    have hqc := List.find?_some hq
    simp only [Bool.and_eq_true, beq_iff_eq] at hqc
    exact absurd hqc.2 (h q (List.mem_of_find?_eq_some hq) hqc.1)
  · rfl

/-- The epoch of a line is that of the circuit's DRIVING probes. -/
theorem markedEpoch_congr (hs : ((probesOf s).map (·.circuit)).Nodup) (ht : ((probesOf t).map (·.circuit)).Nodup)
    (h : ∀ p : Probe, p.circuit = c → p.phase = .driving → (p ∈ probesOf t ↔ p ∈ probesOf s)) :
    markedEpoch t c = markedEpoch s c := by
  by_cases hdriven : ∃ p ∈ probesOf s, p.circuit = c ∧ p.phase = .driving
  · obtain ⟨p, hp, rfl, hphase⟩ := hdriven
    rw [markedEpoch_of_driving hs hp hphase, markedEpoch_of_driving ht ((h p rfl hphase).2 hp) hphase]
  · have hidle : ∀ p ∈ probesOf s, p.circuit = c → p.phase ≠ .driving :=
      fun p hp hc hphase => hdriven ⟨p, hp, hc, hphase⟩
    rw [markedEpoch_of_idle hidle, markedEpoch_of_idle fun p hp hc hphase => hidle p ((h p hc hphase).1 hp) hc hphase]

/-! ### The probes after a change of one slot -/

theorem mem_probesOf_putSlot_iff (o : Option Probe) (hi : i < s.probes.slots.length) :
    p ∈ probesOf (putSlot i o s) ↔ o = some p ∨ ∃ j, j ≠ i ∧ probeAt s j = some p := by
  rw [mem_probesOf]
  constructor
  · rintro ⟨j, hj⟩
    rw [probeAt_putSlot _ _ _ _ hi] at hj
    split at hj
    · exact .inl hj
    · rename_i hne
      exact .inr ⟨j, fun h => hne h.symm, hj⟩
  · rintro (rfl | ⟨j, hne, hj⟩)
    · exact ⟨i, by rw [probeAt_putSlot _ _ _ _ hi, if_pos rfl]⟩
    · exact ⟨j, by rw [probeAt_putSlot _ _ _ _ hi, if_neg fun h => hne h.symm]; exact hj⟩

/-- A slot takes a probe of a circuit that no other slot holds. -/
theorem circuits_nodup_putSlot (o : Option Probe) (hi : i < s.probes.slots.length)
    (hcircuit : ∀ p, o = some p → ∀ j q, j ≠ i → probeAt s j = some q → q.circuit ≠ p.circuit)
    (hs : ((probesOf s).map (·.circuit)).Nodup) : ((probesOf (putSlot i o s)).map (·.circuit)).Nodup := by
  rw [circuits_nodup_iff] at hs ⊢
  intro j k p q hp hq heq
  rw [probeAt_putSlot _ _ _ _ hi] at hp hq
  split at hp
  · split at hq
    · omega
    · rename_i hik
      exact absurd heq.symm (hcircuit p hp k q (fun h => hik h.symm) hq)
  · rename_i hij
    split at hq
    · exact absurd heq (hcircuit q hq j p (fun h => hij h.symm) hp)
    · exact hs j k p q hp hq heq

/-- A slot emptied, or its probe replaced by one of its circuit. -/
theorem circuits_nodup_replace (o : Option Probe) (hp : probeAt s i = some p)
    (ho : ∀ q, o = some q → q.circuit = p.circuit)
    (hs : ((probesOf s).map (·.circuit)).Nodup) : ((probesOf (putSlot i o s)).map (·.circuit)).Nodup := by
  have hdistinct := circuits_nodup_iff.1 hs
  exact circuits_nodup_putSlot o (lt_of_probeAt hp)
    (fun q hq j x hj hx heq => hj (hdistinct j i x p hx hp (heq.trans (ho q hq)))) hs

/-- Nor do the lines of other circuits see it. -/
theorem markedEpoch_replace (o : Option Probe) (hp : probeAt s i = some p)
    (ho : ∀ q, o = some q → q.circuit = p.circuit) (hs : ((probesOf s).map (·.circuit)).Nodup)
    (hc : c ≠ p.circuit) : markedEpoch (putSlot i o s) c = markedEpoch s c := by
  refine markedEpoch_congr hs (circuits_nodup_replace o hp ho hs) fun x hx _ => ?_
  rw [mem_probesOf_putSlot_iff o (lt_of_probeAt hp), mem_probesOf]
  constructor
  · rintro (rfl | ⟨j, _, hj⟩)
    · exact absurd (hx.symm.trans (ho x rfl)) hc
    · exact ⟨j, hj⟩
  · rintro ⟨j, hj⟩
    refine .inr ⟨j, ?_, hj⟩
    rintro rfl
    rw [hp] at hj
    cases hj
    exact hc hx.symm

/-- The circuit of a slot that drives none before and after. -/
theorem markedEpoch_replace_idle (o : Option Probe) (hp : probeAt s i = some p)
    (ho : ∀ q, o = some q → q.circuit = p.circuit ∧ q.phase ≠ .driving)
    (hs : ((probesOf s).map (·.circuit)).Nodup) : markedEpoch (putSlot i o s) p.circuit = 0 := by
  refine markedEpoch_of_idle fun q hq hqc => ?_
  rcases (mem_probesOf_putSlot_iff o (lt_of_probeAt hp)).1 hq with rfl | ⟨j, hj, hq⟩
  · exact (ho q rfl).2
  · exact absurd (circuits_nodup_iff.1 hs j i q p hq hp hqc) hj

theorem markedEpoch_of_probeAt (hp : probeAt s i = some p) (hphase : p.phase ≠ .driving)
    (hs : ((probesOf s).map (·.circuit)).Nodup) : markedEpoch s p.circuit = 0 := by
  refine markedEpoch_of_idle fun q hq hqc => ?_
  rwa [List.inj_on_of_nodup_map hs hq (mem_probesOf_of_probeAt hp) hqc]

/-! ### What keeps the markers -/

theorem markersOk_of_same (hlines : t.lines = s.lines) (hcores : pathCores t = pathCores s)
    (hepoch : ∀ c, markedEpoch t c = markedEpoch s c)
    (hcircuits : ((probesOf t).map (·.circuit)).Nodup) (hrun : t.runState = s.runState)
    (hslots : s.runState ≠ .running → probesOf t = []) (h : MarkersOk s) : MarkersOk t := by
  obtain ⟨hlen, horder, hline, hmarked, _, hidle⟩ := h
  refine ⟨hlines ▸ hlen, pathOrder_of_pathCores hcores ▸ horder, lines_of_pathCores hcores ▸ hline, fun r hr => ?_,
    hcircuits, fun hne => ?_⟩
  · obtain ⟨x, hx, hcore⟩ := exists_core_of_pathCores hcores hr
    simp only [PathRecord.core, Prod.mk.injEq] at hcore
    obtain ⟨hxc, hxl, _⟩ := hcore
    obtain ⟨hlt, hmark⟩ := hmarked x hx
    rw [hlines, hepoch, ← hxc, ← hxl]
    exact ⟨hlt, hmark⟩
  · obtain ⟨hblank, _, hpaths⟩ := hidle (hrun ▸ hne)
    refine ⟨hlines ▸ hblank, hslots (hrun ▸ hne), ?_⟩
    have hnil : pathCores t = [] := by rw [hcores, pathCores, hpaths, List.map_nil]
    exact List.map_eq_nil_iff.1 hnil

theorem markersOk_of_spines (hlines : t.lines = s.lines) (hcores : pathCores t = pathCores s)
    (hspines : spines t = spines s) (hrun : t.runState = s.runState) (h : MarkersOk s) : MarkersOk t :=
  markersOk_of_same hlines hcores (markedEpoch_of_spines hspines) (circuits_of_spines hspines ▸ h.2.2.2.2.1) hrun
    (fun hne => probesOf_nil_of_spines hspines (h.2.2.2.2.2 hne).2.1) h

/-- One record's line driven anew. -/
theorem markersOk_of_drive (hr : r ∈ s.paths)
    (hlines : t.lines = s.lines.set r.line (some (r.circuit, markedEpoch t r.circuit)))
    (hcores : pathCores t = pathCores s) (hepoch : ∀ c, c ≠ r.circuit → markedEpoch t c = markedEpoch s c)
    (hcircuits : ((probesOf t).map (·.circuit)).Nodup) (hrun : t.runState = s.runState) (h : MarkersOk s) :
    MarkersOk t := by
  obtain ⟨hlen, horder, hline, hmarked, _, hidle⟩ := h
  have hrunning : s.runState = .running := by
    by_contra hne
    rw [(hidle hne).2.2] at hr
    cases hr
  refine ⟨by rw [hlines, List.length_set, hlen], pathOrder_of_pathCores hcores ▸ horder,
    lines_of_pathCores hcores ▸ hline, fun y hy => ?_, hcircuits, fun hne => absurd hrunning (hrun ▸ hne)⟩
  obtain ⟨x, hx, hcore⟩ := exists_core_of_pathCores hcores hy
  simp only [PathRecord.core, Prod.mk.injEq] at hcore
  obtain ⟨hxc, hxl, _⟩ := hcore
  obtain ⟨hlt, hmark⟩ := hmarked x hx
  rw [← hxc, ← hxl, hlines, List.getD_eq_getElem?_getD, List.getElem?_set]
  refine ⟨hlt, ?_⟩
  by_cases hc : x.circuit = r.circuit
  · obtain rfl := List.inj_on_of_nodup_map horder hx hr hc
    rw [if_pos rfl, if_pos (hlen ▸ hlt)]
    rfl
  · rw [if_neg fun hl => hc (congrArg _ (List.inj_on_of_nodup_map hline hx hr hl.symm)), hepoch _ hc,
      ← List.getD_eq_getElem?_getD]
    exact hmark

theorem running_of_probe (hp : probeAt s i = some p) (h : MarkersOk s) : s.runState = .running := by
  by_contra hne
  exact not_probesOf_nil hp (h.2.2.2.2.2 hne).2.1

/-- A slot whose line idles is emptied. -/
theorem markersOk_putNone (hp : probeAt s i = some p) (hphase : p.phase ≠ .driving) (h : MarkersOk s) :
    MarkersOk (putSlot i none s) := by
  have hrun := running_of_probe hp h
  have hnd := h.2.2.2.2.1
  refine markersOk_of_same (s := s) rfl rfl (fun c => ?_) (circuits_nodup_replace none hp (fun _ hn => by cases hn) hnd) rfl
    (fun hne => absurd hrun hne) h
  by_cases hc : c = p.circuit
  · rw [hc, markedEpoch_replace_idle none hp (fun _ hn => by cases hn) hnd, markedEpoch_of_probeAt hp hphase hnd]
  · exact markedEpoch_replace none hp (fun _ hn => by cases hn) hnd hc

theorem markersOk_pool {x : PoolRecord} (hp : probeAt s i = some p) (hphase : p.phase = .driving) (h : MarkersOk s) :
    MarkersOk (modifySlot i (fun p => { p with pool := p.pool ++ [x] }) s) := by
  have hrun := running_of_probe hp h
  have hnd := h.2.2.2.2.1
  rw [modifySlot_eq_putSlot _ hp]
  have hcircuits := circuits_nodup_replace (some { p with pool := p.pool ++ [x] }) hp
    (fun q hq => by cases hq; rfl) hnd
  refine markersOk_of_same (s := s) rfl rfl (fun c => ?_) hcircuits rfl (fun hne => absurd hrun hne) h
  by_cases hc : c = p.circuit
  · rw [hc, markedEpoch_of_driving hnd (mem_probesOf_of_probeAt hp) hphase]
    exact markedEpoch_of_driving (p := { p with pool := p.pool ++ [x] }) hcircuits
      ((mem_probesOf_putSlot_iff _ (lt_of_probeAt hp)).2 (.inl rfl)) hphase
  · exact markedEpoch_replace _ hp (fun q hq => by cases hq; rfl) hnd hc

/-- The line of a slot entering DRIVING takes the probe's epoch (R24, R50). -/
theorem markersOk_enterDriving {b : BestMarks} {failed : Bool} (hp : probeAt s i = some p) (h : MarkersOk s) :
    MarkersOk (enterDriving i b failed s) := by
  unfold enterDriving
  rw [hp]
  dsimp only
  split
  · exact h
  · rename_i r hr
    have hnd := h.2.2.2.2.1
    have hc := circuit_of_findPath hr
    have hsame : ∀ q, some (drivingProbe s p r b failed) = some q → q.circuit = p.circuit := by
      rintro q ⟨rfl⟩
      rfl
    have hcircuits := circuits_nodup_replace _ hp hsame hnd
    have hspines (u : State) : spines (drive r.line p.circuit p.epoch u) = spines u := rfl
    have hmark : markedEpoch (putSlot i (some (drivingProbe s p r b failed)) s) r.circuit = p.epoch := by
      rw [hc]
      exact markedEpoch_of_driving (p := drivingProbe s p r b failed) hcircuits
        ((mem_probesOf_putSlot_iff _ (lt_of_probeAt hp)).2 (.inl rfl)) rfl
    refine markersOk_of_drive (s := s) (List.mem_of_find?_eq_some hr) ?_ rfl (fun c hne => ?_) hcircuits rfl h
    · rw [markedEpoch_of_spines (hspines _), hmark, hc]
      rfl
    · rw [markedEpoch_of_spines (hspines _)]
      exact markedEpoch_replace _ hp hsame hnd (hc ▸ hne)

/-- A probe enters CLAIMING in an IDLE slot; its line idles (R48). -/
theorem markersOk_claimSlot (m : Mode) (o : Owner) (hrun : s.runState = .running) (hi : i < s.probes.slots.length)
    (hidle : probeAt s i = none) (hfree : slotOf s c = none) (h : MarkersOk s) : MarkersOk (claimSlot i c m o s) := by
  unfold claimSlot
  split
  · exact h
  · rename_i r hr
    have hnd := h.2.2.2.2.1
    have hcircuits : ((probesOf (putSlot i (some (claimedProbe c (nextEpoch r.lastEpoch) m o)) s)).map
        (·.circuit)).Nodup := by
      refine circuits_nodup_putSlot _ hi ?_ hnd
      rintro x ⟨rfl⟩ j q _ hq
      exact ne_of_slotOf_none hfree (mem_probesOf_of_probeAt hq)
    refine markersOk_of_same (s := s) rfl (pathCores_modifyPath c s) (fun d => ?_) hcircuits rfl
      (fun hne => absurd hrun hne) h
    refine (markedEpoch_of_spines (s := putSlot i (some (claimedProbe c (nextEpoch r.lastEpoch) m o)) s) rfl d).trans
      (markedEpoch_congr hnd hcircuits fun x _ hphase => ?_)
    rw [mem_probesOf_putSlot_iff _ hi, mem_probesOf]
    constructor
    · rintro (hx | ⟨j, _, hj⟩)
      · cases hx
        cases hphase
      · exact ⟨j, hj⟩
    · rintro ⟨j, hj⟩
      refine .inr ⟨j, ?_, hj⟩
      rintro rfl
      rw [hidle] at hj
      cases hj

/-! ### Evaluations (R54, R62) -/

theorem recordVerdict_quiet (j : Judgement) (p : Probe) (r : PathRecord) (s : State) :
    (recordVerdict j p r s).lines = s.lines ∧ spines (recordVerdict j p r s) = spines s ∧
      (recordVerdict j p r s).runState = s.runState ∧ (recordVerdict j p r s).probes.slots = s.probes.slots := by
  have hprobes : (recordVerdict j p r s).probes.slots = s.probes.slots := by simp
  exact ⟨by simp, spines_of_probes hprobes, by simp, hprobes⟩

theorem pathCores_recordVerdict (j : Judgement) (p : Probe) (r : PathRecord) (s : State) :
    pathCores (recordVerdict j p r s) = pathCores s := by
  rw [pathCores_of_paths (recordVerdict_paths j p r s)]
  refine pathCores_modifyPath _ s fun x => ?_
  unfold afterVerdict
  split
  · rfl
  · split
    · rfl
    · split <;> rfl

theorem markersOk_recordVerdict (j : Judgement) (p : Probe) (r : PathRecord) (h : MarkersOk s) :
    MarkersOk (recordVerdict j p r s) := by
  obtain ⟨hlines, hspines, hrun, _⟩ := recordVerdict_quiet j p r s
  exact markersOk_of_spines hlines (pathCores_recordVerdict j p r s) hspines hrun h

theorem markersOk_evaluateWithdrawn (hp : probeAt s i = some p) (hphase : p.phase = .claiming) (h : MarkersOk s) :
    MarkersOk (evaluateWithdrawn i s) := by
  unfold evaluateWithdrawn
  rw [hp]
  dsimp only
  split
  · exact h
  · rename_i r _
    have hslots := (recordVerdict_quiet (judgeProbe s p r) p r s).2.2.2
    refine markersOk_putNone (p := p) ?_ (by simp [hphase]) (markersOk_recordVerdict _ p r h)
    rw [probeAt, hslots]
    exact hp

/-- Closing a slot returns its line to idle marking. -/
theorem markersOk_closed (hp : probeAt s i = some p) (hr : findPath s p.circuit = some r) (h : MarkersOk s) :
    MarkersOk (idleMarking p.circuit (closeSlot i s)) := by
  have hnd := h.2.2.2.2.1
  have hc := circuit_of_findPath hr
  have hput : closeSlot i s = putSlot i (some { p with phase := .closing, deadline := none, pool := [] }) s :=
    modifySlot_eq_putSlot _ hp
  have hsame : ∀ q, some { p with phase := Phase.closing, deadline := none, pool := [] } = some q →
      q.circuit = p.circuit ∧ q.phase ≠ .driving := by
    rintro q ⟨rfl⟩
    exact ⟨rfl, by simp⟩
  have hidle : idleMarking p.circuit (closeSlot i s) = drive r.line p.circuit 0 (closeSlot i s) := by
    unfold idleMarking
    rw [show findPath (closeSlot i s) p.circuit = some r from hr]
  have hspines : spines (drive r.line p.circuit 0 (closeSlot i s)) = spines (closeSlot i s) := rfl
  have hmark : markedEpoch (closeSlot i s) r.circuit = 0 := by
    rw [hput, hc]
    exact markedEpoch_replace_idle _ hp hsame hnd
  rw [hidle]
  refine markersOk_of_drive (s := s) (List.mem_of_find?_eq_some hr) ?_ rfl (fun c hne => ?_) ?_ rfl h
  · rw [markedEpoch_of_spines hspines, hmark, hc]
    rfl
  · rw [markedEpoch_of_spines hspines, hput]
    exact markedEpoch_replace _ hp (fun q hq => (hsame q hq).1) hnd (hc ▸ hne)
  · rw [circuits_of_spines hspines, hput]
    exact circuits_nodup_replace _ hp (fun q hq => (hsame q hq).1) hnd

theorem markersOk_evaluate (hp : probeAt s i = some p) (h : MarkersOk s) : MarkersOk (evaluate i s) := by
  unfold evaluate
  rw [hp]
  dsimp only
  split
  · exact h
  · rename_i r hr
    have hslots := (recordVerdict_quiet (judgeProbe s p r) p r s).2.2.2
    have hr' : findPath (recordVerdict (judgeProbe s p r) p r s) p.circuit =
        some (afterVerdict (judgeProbe s p r) r r) := by
      rw [findPath_of_paths (recordVerdict_paths _ p r s), judgeProbe_circuit,
        findPath_modifyPath _ _ _ (fun x => afterVerdict_circuit _ r x), hr]
      simp
    refine markersOk_of_spines (s := idleMarking p.circuit (closeSlot i (recordVerdict (judgeProbe s p r) p r s)))
      rfl rfl rfl rfl (markersOk_closed ?_ hr' (markersOk_recordVerdict _ p r h))
    rw [probeAt, hslots]
    exact hp

/-! ### The load and LOOP RESET (R23, R68) -/

/-- The lines that a load marks. -/
theorem getD_markLines {os : List Originated} (hnd : (os.map (·.line)).Nodup) {o : Originated} (ho : o ∈ os) :
    ∀ {l : List (Option (Nat × Nat))}, o.line < l.length →
      (os.foldl (fun l o => l.set o.line (some (o.circuit, 0))) l).getD o.line none = some (o.circuit, 0) := by
  induction os with
  | nil => cases ho
  | cons a os ih =>
    intro l hlt
    rw [List.map_cons, List.nodup_cons] at hnd
    obtain ⟨hnotin, hrest⟩ := hnd
    rw [List.foldl_cons]
    by_cases hin : o ∈ os
    · exact ih hrest hin (by simpa using hlt)
    · obtain rfl := (List.mem_cons.1 ho).resolve_right hin
      have hkeep (os : List Originated) : ∀ (l : List (Option (Nat × Nat))), o.line ∉ os.map (·.line) →
          (os.foldl (fun l o => l.set o.line (some (o.circuit, 0))) l).getD o.line none = l.getD o.line none := by
        induction os with
        | nil => exact fun _ _ => rfl
        | cons b os ih =>
          intro l hb
          rw [List.map_cons, List.mem_cons, not_or] at hb
          rw [List.foldl_cons, ih _ hb.2, List.getD_eq_getElem?_getD, List.getElem?_set, if_neg fun h => hb.1 h.symm,
            ← List.getD_eq_getElem?_getD]
      rw [hkeep os _ hnotin]
      simp [hlt]

theorem markersOk_load (bytes : List Byte) (hstart : s.runState = .starting) (h : MarkersOk s) :
    MarkersOk (loadTaken bytes s) := by
  obtain ⟨hlen, horder, hline, hmarked, hcircuits, hidle⟩ := h
  obtain ⟨hblank, hslots, hpaths⟩ := hidle (by rw [hstart]; decide)
  have hnone : probesOf (loadTaken bytes s) = [] := probesOf_nil_of_slots (by simp) hslots
  rcases loadTaken_run bytes s with ⟨hrunning, hrun, _⟩ | ⟨_, hpaths', _, hlines, _⟩
  · have hsound := sound_of_running hrun
    have hcores := pathCores_loadTaken hrun s
    have hmarks : (loadTaken bytes s).lines = (checkImage (readImage bytes)).1.originated.foldl
        (fun l o => l.set o.line (some (o.circuit, 0))) (List.replicate 32 none) := by
      rw [loadTaken_of_running hrun, ← loadBase_image bytes s]
      simp [markLines, loadTables]
    have horder' : pathOrder (loadTaken bytes s) = (checkImage (readImage bytes)).1.originated.map (·.circuit) := by
      have hproject : pathOrder (loadTaken bytes s) = (pathCores (loadTaken bytes s)).map (·.1) := by
        rw [pathOrder, pathCores, List.map_map]
        rfl
      rw [hproject, hcores, List.map_map]
      rfl
    have hline' : (loadTaken bytes s).paths.map (·.line) = (checkImage (readImage bytes)).1.originated.map (·.line) := by
      have hproject : (loadTaken bytes s).paths.map (·.line) = (pathCores (loadTaken bytes s)).map (·.2.1) := by
        rw [pathCores, List.map_map]
        rfl
      rw [hproject, hcores, List.map_map]
      rfl
    refine ⟨?_, horder' ▸ hsound.circuits, hline' ▸ hsound.lines, fun r hr => ?_,
      by rw [hnone]; exact List.nodup_nil, fun hne => absurd hrunning hne⟩
    · rw [hmarks]
      exact List.foldlRecOn _ _ (motive := fun l : List (Option (Nat × Nat)) => l.length = 32) rfl
        fun l hl o _ => by rw [List.length_set, hl]
    · have hcore : r.core ∈ pathCores (loadTaken bytes s) := List.mem_map_of_mem hr
      rw [hcores] at hcore
      obtain ⟨o, ho, heq⟩ := List.mem_map.1 hcore
      simp only [PathRecord.core, Prod.mk.injEq] at heq
      obtain ⟨hoc, hol, _⟩ := heq
      have hlt := hsound.line o ho
      rw [markedEpoch_of_idle (c := r.circuit) fun p hp => absurd (hnone ▸ hp) List.not_mem_nil, ← hol, ← hoc, hmarks]
      exact ⟨hlt, getD_markLines hsound.lines ho (by simpa using hlt)⟩
  · refine ⟨hlines ▸ hlen, by rw [pathOrder, hpaths', hpaths]; exact List.nodup_nil,
      by rw [hpaths', hpaths]; exact List.nodup_nil, fun r hr => ?_, by rw [hnone]; exact List.nodup_nil,
      fun _ => ⟨hlines.trans hblank, hnone, hpaths'.trans hpaths⟩⟩
    rw [hpaths', hpaths] at hr
    cases hr

/-- Idle marking on the circuits of some slots: their lines idle, and the other lines stay. -/
theorem getD_idleLines (l : List (Option Probe)) : ∀ {u : State} {e : Nat}, (u.paths.map (·.line)).Nodup →
    u.lines.length = 32 → (pathOrder u).Nodup → r ∈ u.paths → r.line < 32 →
    u.lines.getD r.line none = some (r.circuit, e) → (e = 0 ∨ ∃ p, some p ∈ l ∧ p.circuit = r.circuit) →
    (l.foldl (fun t o => match o with
      | some p => idleMarking p.circuit t
      | none => t) u).lines.getD r.line none = some (r.circuit, 0) := by
  induction l with
  | nil =>
    intro u e _ _ _ _ _ hold he
    rcases he with rfl | ⟨p, hp, _⟩
    · exact hold
    · cases hp
  | cons o l ih =>
    intro u e hline hlen horder hr hlt hold he
    rw [List.foldl_cons]
    cases o with
    | none => exact ih hline hlen horder hr hlt hold (he.imp_right fun ⟨p, hp, hc⟩ => ⟨p, by simpa using hp, hc⟩)
    | some p =>
      dsimp only
      unfold idleMarking
      cases hx : findPath u p.circuit with
      | none =>
        refine ih hline hlen horder hr hlt hold (he.imp_right fun ⟨q, hq, hc⟩ => ⟨q, ?_, hc⟩)
        rcases List.mem_cons.1 hq with heq | hq
        · cases heq
          rw [hc, findPath_of_mem horder hr] at hx
          cases hx
        · exact hq
      | some x =>
        have hxc := circuit_of_findPath hx
        have hxmem : x ∈ u.paths := List.mem_of_find?_eq_some hx
        by_cases hc : p.circuit = r.circuit
        · obtain rfl := eq_of_findPath horder hx hr hc.symm
          refine ih (u := drive r.line p.circuit 0 u) (e := 0) hline ?_ horder hr hlt ?_ (.inl rfl)
          · simpa [drive] using hlen
          · simp [drive, hlen, hlt, hc]
        · refine ih (u := drive x.line p.circuit 0 u) (e := e) hline ?_ horder hr hlt ?_
            (he.imp_right fun ⟨q, hq, hqc⟩ => ⟨q, ?_, hqc⟩)
          · simpa [drive] using hlen
          · have hne : x.line ≠ r.line := fun hl =>
              hc (hxc.symm.trans (congrArg _ (List.inj_on_of_nodup_map hline hxmem hr hl)))
            simpa [drive, List.getD_eq_getElem?_getD, List.getElem?_set, hne] using hold
          · rcases List.mem_cons.1 hq with heq | hq
            · cases heq
              exact absurd hqc hc
            · exact hq

theorem mem_slots_of_probesOf (hp : p ∈ probesOf s) : some p ∈ s.probes.slots := by
  obtain ⟨o, ho, hop⟩ := List.mem_filterMap.1 hp
  cases (show o = some p from hop)
  exact ho

theorem idleSlotLines_length (s : State) : (idleSlotLines s).lines.length = s.lines.length := by
  refine foldl_keeps _ _ _ (fun u : State => u.lines.length) fun u o => ?_
  cases o with
  | none => rfl
  | some p =>
    dsimp only
    unfold idleMarking
    split
    · simp [drive]
    · rfl

theorem markersOk_idleSlotLines (h : MarkersOk s) (hlines : t.lines = (idleSlotLines s).lines)
    (hcores : pathCores t = pathCores s) (hslots : probesOf t = []) (hrun : t.runState = s.runState) : MarkersOk t := by
  obtain ⟨hlen, horder, hline, hmarked, _, hidle⟩ := h
  refine ⟨by rw [hlines, idleSlotLines_length, hlen], pathOrder_of_pathCores hcores ▸ horder,
    lines_of_pathCores hcores ▸ hline, fun y hy => ?_, by rw [hslots]; exact List.nodup_nil, fun hne => ?_⟩
  · obtain ⟨r, hr, hcore⟩ := exists_core_of_pathCores hcores hy
    simp only [PathRecord.core, Prod.mk.injEq] at hcore
    obtain ⟨hrc, hrl, _⟩ := hcore
    obtain ⟨hlt, hmark⟩ := hmarked r hr
    rw [← hrc, ← hrl, markedEpoch_of_idle (s := t) fun p hp => absurd (hslots ▸ hp) List.not_mem_nil, hlines]
    refine ⟨hlt, getD_idleLines s.probes.slots hline hlen horder hr hlt hmark ?_⟩
    by_cases hheld : ∃ p, some p ∈ s.probes.slots ∧ p.circuit = r.circuit
    · exact .inr hheld
    · exact .inl (markedEpoch_of_idle fun p hp hc => absurd ⟨p, mem_slots_of_probesOf hp, hc⟩ hheld)
  · obtain ⟨hblank, hnone, hpaths⟩ := hidle (hrun ▸ hne)
    have hkeep : (idleSlotLines s).lines = s.lines := by
      have hstill : idleSlotLines s = s := by
        refine List.foldlRecOn s.probes.slots _ (motive := fun u => u = s) rfl fun u hu o ho => ?_
        cases o with
        | none => exact hu
        | some p =>
          have hp : p ∈ probesOf s := List.mem_filterMap.2 ⟨_, ho, rfl⟩
          rw [hnone] at hp
          cases hp
      rw [hstill]
    have hnil : pathCores t = [] := by rw [hcores, pathCores, hpaths, List.map_nil]
    exact ⟨by rw [hlines, hkeep, hblank], hslots, List.map_eq_nil_iff.1 hnil⟩

/-! ### Every change -/

theorem markersOk_act (hwhole : g.verdicts = false) (hresets : g.resets = true) (hact : Act g s t) (h : MarkersOk s) :
    MarkersOk t := by
  cases hact with
  | boot c => exact ⟨rfl, List.nodup_nil, List.nodup_nil, fun _ hr => absurd hr List.not_mem_nil, List.nodup_nil,
      fun _ => ⟨rfl, rfl, rfl⟩⟩
  | load bytes hstart => exact markersOk_load bytes hstart h
  | slotFlags x hcore => exact markersOk_of_spines (s := s) rfl rfl (spines_of_core hcore) rfl h
  | pool i p x hp hphase => exact markersOk_pool hp hphase h
  | enterDriving i p b failed hp => exact markersOk_enterDriving hp h
  | freeSlot i p hp hphase => exact markersOk_putNone hp (by simp [hphase]) h
  | evaluate i p _ hp => exact markersOk_evaluate hp h
  | evaluateWithdrawn i p _ hp hphase => exact markersOk_evaluateWithdrawn hp hphase h
  | baseLaunch i m c hchoice =>
    obtain ⟨hrun, _, _, hidle, hlaunch, _⟩ := baseLaunchChoice_spec hchoice
    obtain ⟨hi, hnone⟩ := isNone_of_idleSlot hidle
    have hleave : (leaveList m c s).probes = s.probes := by simp
    refine markersOk_claimSlot m .base (by simpa using hrun) ?_ ?_ ?_
      (markersOk_of_spines (by simp) (by simp) (by rw [spines, spines, hleave]) (by simp) h)
    · rwa [hleave]
    · rwa [probeAt, hleave]
    · rw [slotOf, hleave]
      exact (launchable_iff.1 hlaunch).2
  | sweepLaunch i id c hchoice =>
    obtain ⟨hrun, _, hidle, hfree, _⟩ := sweepLaunchChoice_spec hchoice
    obtain ⟨hi, hnone⟩ := isNone_of_idleSlot hidle
    exact markersOk_of_spines (s := claimSlot i c .sweep (.run id) s) rfl rfl rfl rfl
      (markersOk_claimSlot .sweep (.run id) hrun hi hnone hfree h)
  | presence n f =>
    exact markersOk_of_spines (by simp) (pathCores_of_paths (by simp)) (by rw [spines_recompute]; simp [spines])
      (by simp) h
  | joined n =>
    exact markersOk_of_spines (by simp) (pathCores_of_paths (by simp))
      (by rw [joinedRoster, spines_recompute]; simp [spines]) (by simp) h
  | addHold => exact markersOk_of_spines (by simp) (by simp) (spines_addHold _ _ s) (by simp) h
  | applyAlarm => exact markersOk_of_spines (by simp) (by simp) (spines_applyAlarm _ _ s) (by simp) h
  | resetWork =>
    have hsched : MarkersOk (resetScheduler s) := markersOk_of_spines (s := s) rfl rfl rfl rfl h
    exact markersOk_idleSlotLines hsched (by simp [clearSlots]) (pathCores_resetWork s)
      (probesOf_of_reset (by simp [clearSlots, probesReset])) (by simp)
  | requestAudit => exact markersOk_of_spines (by simp) (by simp) (spines_of_probes (by simp)) (by simp) h
  | removeHold => exact markersOk_of_spines (by simp) (by simp) (spines_of_probes (by simp)) (by simp) h
  | dropOwed => exact markersOk_of_spines (by simp) (by simp) (spines_of_probes (by simp)) (by simp) h
  | verdictPaths x hpieces => simp [hwhole] at hpieces
  | lists m c hpieces => simp [hwhole] at hpieces
  | creditRun id c x hpieces => simp [hwhole] at hpieces
  | closeSlot i hpieces => simp [hwhole] at hpieces
  | idleMarking c hpieces => simp [hwhole] at hpieces
  | emptySlot i hpieces => simp [hwhole] at hpieces
  | resetLoopOwn hpieces => simp [hresets] at hpieces
  | _ => exact markersOk_of_spines (by simp) (pathCores_of_paths (by simp)) (spines_of_probes (by simp)) (by simp) h

theorem markersOk_quiet (hq : Quiet s t) (h : MarkersOk s) : MarkersOk t := by
  obtain ⟨_, _, _, _, _, _, _, rfl⟩ := hq
  exact h

/-- Settles O12: what a change does to one slot and to the line of its circuit. -/
theorem markerLinesFollowTheSlots : Obligations.MarkerLinesFollowTheSlots := fun _ _ h hstep =>
  step_keeps_self false true markersOk_quiet (fun _ _ _ hv hr => markersOk_act hv hr) h hstep

end Sys2Proof.Machine
end

