-- ==== Sys2Proof/Proofs/InvWork.lean ====
section
/-! The census and routine lists hold the QUEUED circuits, and a slot before CLOSING a PROBING one (R19, R47, R115). -/

namespace Sys2Proof.Machine

variable {g : Grain} {s t : State} {i c : Nat} {p : Probe} {r : PathRecord} {m : Mode} {old new : RecordState}

/-! ### The two lists -/

/-- The list of a mode; a SWEEP circuit stands in a run. -/
def workList (m : Mode) (s : State) : List Nat :=
  match m with
  | .census => s.sched.census
  | .routine => s.sched.routine
  | .sweep => []

theorem workList_of_sched (hcensus : t.sched.census = s.sched.census) (hroutine : t.sched.routine = s.sched.routine)
    (m : Mode) : workList m t = workList m s := by
  cases m with
  | census => exact hcensus
  | routine => exact hroutine
  | sweep => rfl

@[simp] theorem workList_modifyPath (m : Mode) (c : Nat) (f : PathRecord → PathRecord) (s : State) :
    workList m (modifyPath c f s) = workList m s := workList_of_sched rfl rfl m

@[simp] theorem workList_setRecordState (m : Mode) (c : Nat) (x : RecordState) (s : State) :
    workList m (setRecordState c x s) = workList m s := workList_of_sched rfl rfl m

@[simp] theorem workList_modifyRun (m : Mode) (id : Nat) (f : Run → Run) (s : State) :
    workList m (modifyRun id f s) = workList m s := workList_of_sched rfl rfl m

theorem workList_joinList (hm : m ≠ .sweep) (m' : Mode) (c : Nat) (s : State) :
    workList m (joinList m' c s) = if m' = m then workList m s ++ [c] else workList m s := by
  cases m with
  | sweep => exact absurd rfl hm
  | census => cases m' <;> rfl
  | routine => cases m' <;> rfl

theorem workList_leaveList (hm : m ≠ .sweep) (m' : Mode) (c : Nat) (s : State) :
    workList m (leaveList m' c s) = if m' = m then (workList m s).erase c else workList m s := by
  cases m with
  | sweep => exact absurd rfl hm
  | census => cases m' <;> rfl
  | routine => cases m' <;> rfl

@[simp] theorem workList_completeRun (m : Mode) (id : Nat) (s : State) :
    workList m (completeRun id s) = workList m s := by
  unfold completeRun
  split
  · rfl
  · split
    · rfl
    · dsimp only
      split
      · unfold popRun
        split
        all_goals exact workList_of_sched (by simp) (by simp) m
      · exact workList_of_sched (by simp [dropSuspended]) (by simp [dropSuspended]) m

@[simp] theorem workList_touchRun (m : Mode) (id c : Nat) (x : RunStanding) (s : State) :
    workList m (touchRun id c x s) = workList m s := by
  rw [touchRun, workList_completeRun, workList_modifyRun]

@[simp] theorem workList_deferEntry (m : Mode) (c : Nat) (s : State) :
    workList m (deferEntry c s) = workList m s := by
  unfold deferEntry
  split
  · exact workList_touchRun m _ c _ s
  · rfl

@[simp] theorem workList_completeSuspended (m : Mode) (s : State) :
    workList m (completeSuspended s) = workList m s :=
  foldl_keeps _ _ _ (workList m) fun u r => workList_completeRun m r.id u

/-! ### States of records -/

theorem stateOf_of_paths (h : t.paths = s.paths) (c : Nat) : stateOf t c = stateOf s c := by
  rw [stateOf, stateOf, findPath_of_paths h]

theorem stateOf_of_findPath (hr : findPath s c = some r) : stateOf s c = some r.state := by
  rw [stateOf, hr]
  rfl

/-- One record changed. -/
theorem stateOf_of_modify {f : PathRecord → PathRecord} (hpaths : t.paths = (modifyPath c f s).paths)
    (hf : ∀ x, (f x).circuit = x.circuit) (hr : findPath s c = some r) (d : Nat) :
    stateOf t d = if d = c then some (f r).state else stateOf s d := by
  rw [stateOf, findPath_of_paths hpaths, findPath_modifyPath c d f hf]
  by_cases hd : d = c
  · rw [hd, hr, if_pos rfl]
    simp
  · rw [if_neg hd, stateOf, Option.map_map]
    refine congrArg (Option.map · _) (funext fun x => ?_)
    simp [hd]

/-- Records changed without their states. -/
theorem stateOf_of_map {f : PathRecord → PathRecord} (hpaths : t.paths = s.paths.map f)
    (hcircuit : ∀ x, (f x).circuit = x.circuit) (hstate : ∀ x, (f x).state = x.state) (d : Nat) :
    stateOf t d = stateOf s d := by
  rw [stateOf, stateOf, findPath, findPath, hpaths, List.find?_map, Option.map_map]
  have hkey : (fun x : PathRecord => x.circuit == d) ∘ f = fun x => x.circuit == d :=
    funext fun x => by simp [hcircuit]
  rw [hkey]
  exact congrArg (Option.map · _) (funext hstate)

/-! ### Work in order -/

/-- The lists hold the circuits QUEUED for them. -/
def ListsOk (s : State) : Prop :=
  ∀ m, m ≠ .sweep → (workList m s).Nodup ∧ ∀ c, c ∈ workList m s ↔ stateOf s c = some (.queued m)

/-- A slot before CLOSING holds a PROBING circuit. -/
def ProbingOk (s : State) : Prop := ∀ p ∈ probesOf s, p.phase ≠ .closing → stateOf s p.circuit = some .probing

theorem workOk_iff : WorkOk s ↔ (pathOrder s).Nodup ∧ ListsOk s ∧ ((probesOf s).map (·.circuit)).Nodup ∧
    ProbingOk s ∧ (s.runState ≠ .running →
      s.sched.census = [] ∧ s.sched.routine = [] ∧ probesOf s = [] ∧ s.paths = []) := by
  have hstates (horder : (pathOrder s).Nodup) (m : Mode) (l : List Nat) :
      ((∀ c ∈ l, stateOf s c = some (.queued m)) ∧ ∀ r ∈ s.paths, r.state = .queued m → r.circuit ∈ l) ↔
        ∀ c, c ∈ l ↔ stateOf s c = some (.queued m) := by
    constructor
    · rintro ⟨hin, hall⟩ c
      refine ⟨hin c, fun hst => ?_⟩
      obtain ⟨r, hr, hstate⟩ := Option.map_eq_some_iff.1 hst
      exact circuit_of_findPath hr ▸ hall r (List.mem_of_find?_eq_some hr) hstate
    · intro h
      refine ⟨fun c hc => (h c).1 hc, fun r hr hst => (h _).2 ?_⟩
      rw [stateOf_of_findPath (findPath_of_mem horder hr), hst]
  constructor
  · rintro ⟨horder, hcensus, hroutine, hinCensus, hinRoutine, hallCensus, hallRoutine, hcircuits, hprobing, hidle⟩
    refine ⟨horder, fun m hm => ?_, hcircuits, hprobing, hidle⟩
    cases m with
    | census => exact ⟨hcensus, (hstates horder _ _).1 ⟨hinCensus, hallCensus⟩⟩
    | routine => exact ⟨hroutine, (hstates horder _ _).1 ⟨hinRoutine, hallRoutine⟩⟩
    | sweep => exact absurd rfl hm
  · rintro ⟨horder, hlists, hcircuits, hprobing, hidle⟩
    obtain ⟨hcensus, hc⟩ := hlists .census (by decide)
    obtain ⟨hroutine, hr⟩ := hlists .routine (by decide)
    obtain ⟨hinCensus, hallCensus⟩ := (hstates horder _ _).2 hc
    obtain ⟨hinRoutine, hallRoutine⟩ := (hstates horder _ _).2 hr
    exact ⟨horder, hcensus, hroutine, hinCensus, hinRoutine, hallCensus, hallRoutine, hcircuits, hprobing, hidle⟩

/-- The probes as before, or fewer of them before CLOSING. -/
def ProbesWithin (t s : State) : Prop :=
  ((probesOf t).map (·.circuit)).Nodup ∧
    ∀ p ∈ probesOf t, p.phase ≠ .closing → ∃ q ∈ probesOf s, q.circuit = p.circuit ∧ q.phase ≠ .closing

theorem probesWithin_of_spines (h : spines t = spines s) (hnd : ((probesOf s).map (·.circuit)).Nodup) :
    ProbesWithin t s := by
  refine ⟨circuits_of_spines h ▸ hnd, fun p hp hphase => ?_⟩
  obtain ⟨q, hq, hspine⟩ := exists_spine_of_spines h hp
  simp only [Probe.spine, Prod.mk.injEq] at hspine
  exact ⟨q, hq, hspine.2.1, hspine.1 ▸ hphase⟩

/-- A change of neither the lists nor a record's state. -/
theorem workOk_of_same (hcores : pathCores t = pathCores s) (hstate : ∀ d, stateOf t d = stateOf s d)
    (hlists : ∀ m, workList m t = workList m s) (hprobes : ProbesWithin t s) (hrun : t.runState = s.runState)
    (hslots : s.runState ≠ .running → probesOf t = []) (h : WorkOk s) : WorkOk t := by
  obtain ⟨horder, hl, hcircuits, hprobing, hidle⟩ := workOk_iff.1 h
  refine workOk_iff.2 ⟨pathOrder_of_pathCores hcores ▸ horder, fun m hm => ?_, hprobes.1, fun p hp hphase => ?_,
    fun hne => ?_⟩
  · rw [hlists]
    simpa only [hstate] using hl m hm
  · obtain ⟨q, hq, hc, hq'⟩ := hprobes.2 p hp hphase
    rw [hstate, ← hc]
    exact hprobing q hq hq'
  · obtain ⟨hcensus, hroutine, _, hpaths⟩ := hidle (hrun ▸ hne)
    have hnil : pathCores t = [] := by rw [hcores, pathCores, hpaths, List.map_nil]
    exact ⟨(hlists .census).trans hcensus, (hlists .routine).trans hroutine, hslots (hrun ▸ hne),
      List.map_eq_nil_iff.1 hnil⟩

theorem workOk_of_spines (hcores : pathCores t = pathCores s) (hstate : ∀ d, stateOf t d = stateOf s d)
    (hlists : ∀ m, workList m t = workList m s) (hspines : spines t = spines s) (hrun : t.runState = s.runState)
    (h : WorkOk s) : WorkOk t := by
  obtain ⟨_, _, hcircuits, _, hidle⟩ := workOk_iff.1 h
  exact workOk_of_same hcores hstate hlists (probesWithin_of_spines hspines hcircuits) hrun
    (fun hne => probesOf_nil_of_spines hspines (hidle hne).2.2.1) h

theorem workOk_of_work (hpaths : t.paths = s.paths) (hcensus : t.sched.census = s.sched.census)
    (hroutine : t.sched.routine = s.sched.routine) (hspines : spines t = spines s) (hrun : t.runState = s.runState)
    (h : WorkOk s) : WorkOk t :=
  workOk_of_spines (pathCores_of_paths hpaths) (stateOf_of_paths hpaths) (workList_of_sched hcensus hroutine) hspines
    hrun h

/-- The record of one circuit moves from one state to another, and leaves and joins the lists of these. -/
structure Moved (c : Nat) (old new : RecordState) (s t : State) : Prop where
  cores : pathCores t = pathCores s
  before : stateOf s c = some old
  states : ∀ d, stateOf t d = if d = c then some new else stateOf s d
  leaves : ∀ m, m ≠ .sweep → old = .queued m → new ≠ .queued m → workList m t = (workList m s).erase c
  joins  : ∀ m, m ≠ .sweep → new = .queued m → old ≠ .queued m → workList m t = workList m s ++ [c]
  stays  : ∀ m, m ≠ .sweep → (old = .queued m ↔ new = .queued m) → workList m t = workList m s
  run    : t.runState = s.runState

theorem Moved.lists (hmove : Moved c old new s t) (h : ListsOk s) : ListsOk t := by
  intro m hm
  obtain ⟨hnd, hmem⟩ := h m hm
  have hc : c ∈ workList m s ↔ old = .queued m := by rw [hmem, hmove.before, Option.some.injEq]
  have hother (d : Nat) (hd : d ≠ c) : stateOf t d = some (.queued m) ↔ d ∈ workList m s := by
    rw [hmove.states, if_neg hd, hmem]
  have hself : stateOf t c = some (.queued m) ↔ new = .queued m := by
    rw [hmove.states, if_pos rfl, Option.some.injEq]
  by_cases hold : old = .queued m
  · by_cases hnew : new = .queued m
    · rw [hmove.stays m hm ⟨fun _ => hnew, fun _ => hold⟩]
      refine ⟨hnd, fun d => ?_⟩
      by_cases hd : d = c
      · rw [hd, hself, hc]
        exact ⟨fun _ => hnew, fun _ => hold⟩
      · exact (hother d hd).symm
    · rw [hmove.leaves m hm hold hnew]
      refine ⟨hnd.erase c, fun d => ?_⟩
      rw [hnd.mem_erase_iff]
      by_cases hd : d = c
      · rw [hd, hself]
        exact ⟨fun hx => absurd rfl hx.1, fun hx => absurd hx hnew⟩
      · rw [hother d hd]
        exact ⟨fun hx => hx.2, fun hx => ⟨hd, hx⟩⟩
  · by_cases hnew : new = .queued m
    · rw [hmove.joins m hm hnew hold]
      refine ⟨hnd.append (List.nodup_singleton _) ?_, fun d => ?_⟩
      · simpa using mt hc.1 hold
      · rw [List.mem_append, List.mem_singleton]
        by_cases hd : d = c
        · rw [hd, hself]
          exact ⟨fun _ => hnew, fun _ => .inr rfl⟩
        · rw [hother d hd]
          exact ⟨fun hx => hx.resolve_right hd, .inl⟩
    · rw [hmove.stays m hm ⟨fun hx => absurd hx hold, fun hx => absurd hx hnew⟩]
      refine ⟨hnd, fun d => ?_⟩
      by_cases hd : d = c
      · rw [hd, hself, hc]
        exact ⟨fun hx => absurd hx hold, fun hx => absurd hx hnew⟩
      · exact (hother d hd).symm

/-- A circuit's record moves; its slot, if a slot before CLOSING holds it after the move, is PROBING. -/
theorem workOk_of_moved (hmove : Moved c old new s t) (hcircuits : ((probesOf t).map (·.circuit)).Nodup)
    (hprobes : ∀ p ∈ probesOf t, p.phase ≠ .closing → p.circuit = c ∧ new = .probing ∨
      p.circuit ≠ c ∧ ∃ q ∈ probesOf s, q.circuit = p.circuit ∧ q.phase ≠ .closing) (h : WorkOk s) : WorkOk t := by
  obtain ⟨horder, hl, _, hprobing, hidle⟩ := workOk_iff.1 h
  have hrunning : s.runState = .running := by
    by_contra hne
    have hbefore := hmove.before
    rw [stateOf, findPath, (hidle hne).2.2.2] at hbefore
    cases hbefore
  refine workOk_iff.2 ⟨pathOrder_of_pathCores hmove.cores ▸ horder, hmove.lists hl, hcircuits, fun p hp hphase => ?_,
    fun hne => absurd hrunning (hmove.run ▸ hne)⟩
  rw [hmove.states]
  rcases hprobes p hp hphase with ⟨hc, rfl⟩ | ⟨hc, q, hq, hqc, hq'⟩
  · rw [if_pos hc]
  · rw [if_neg hc, ← hqc]
    exact hprobing q hq hq'

/-- The record of no slot before CLOSING. -/
theorem workOk_of_moved_spines (hmove : Moved c old new s t) (hspines : spines t = spines s) (hold : old ≠ .probing)
    (h : WorkOk s) : WorkOk t := by
  obtain ⟨_, _, hnd, hprobing, _⟩ := workOk_iff.1 h
  obtain ⟨hcircuits, hwithin⟩ := probesWithin_of_spines hspines hnd
  refine workOk_of_moved hmove hcircuits (fun p hp hphase => ?_) h
  obtain ⟨q, hq, hqc, hq'⟩ := hwithin p hp hphase
  refine .inr ⟨fun hc => ?_, q, hq, hqc, hq'⟩
  have hst := hprobing q hq hq'
  rw [hqc, hc, hmove.before, Option.some.injEq] at hst
  exact hold hst

end Sys2Proof.Machine
end

