-- ==== Sys2Proof/Proofs/InvWorkActs.lean ====
section
/-! What each operation on records moves, and into which list (R15 to R21, R48, R54). -/

namespace Sys2Proof.Machine

variable {g : Grain} {s t : State} {i c : Nat} {p : Probe} {r : PathRecord} {m : Mode} {old new : RecordState}

/-! ### Requests and holds -/

theorem moved_enqueue {o : Origin} (hr : findPath s c = some r) (hst : ∀ m', r.state ≠ .queued m') :
    Moved c r.state (.queued m) s (enqueue c m o s) where
  cores := pathCores_enqueue c m o s
  before := stateOf_of_findPath hr
  states := stateOf_of_modify (enqueue_paths c m o s) (fun _ => rfl) hr
  leaves m' _ hold := absurd hold (hst m')
  joins m' hm' hnew _ := by
    cases hnew
    rw [enqueue, workList_joinList hm', if_pos rfl, workList_modifyPath]
  stays m' hm' hsame := by
    have hne : m ≠ m' := fun h => hst m' (hsame.2 (h ▸ rfl))
    rw [enqueue, workList_joinList hm', if_neg hne, workList_modifyPath]
  run := by simp

theorem workOk_requestAudit (c : Nat) (m : Mode) (o : Origin) (h : WorkOk s) : WorkOk (requestAudit c m o s) := by
  unfold requestAudit
  split
  · exact h
  · rename_i r hr
    split
    · rename_i hidle
      exact workOk_of_moved_spines (moved_enqueue hr fun m' => by simp [hidle]) (spines_of_probes (by simp))
        (by simp [hidle]) h
    · exact h

theorem workOk_requestAudits (cs : List Nat) (m : Mode) (o : Origin) : ∀ {s : State}, WorkOk s →
    WorkOk (requestAudits cs m o s) := by
  induction cs with
  | nil => exact fun h => h
  | cons c cs ih => exact fun h => ih (workOk_requestAudit c m o h)

/-- A record's holds and owed serials change. -/
theorem workOk_modifyPath {f : PathRecord → PathRecord} (c : Nat)
    (hf : ∀ x, (f x).core = x.core ∧ (f x).state = x.state) (h : WorkOk s) : WorkOk (modifyPath c f s) := by
  have hkey (x : PathRecord) : (f x).circuit = x.circuit := by
    have hcore := (hf x).1
    simp only [PathRecord.core, Prod.mk.injEq] at hcore
    exact hcore.1
  refine workOk_of_spines (s := s) (pathCores_modifyPath c s fun x => (hf x).1) (fun d => ?_) (fun m => by simp) rfl rfl h
  refine stateOf_of_map (f := fun x => if x.circuit = c then f x else x) rfl (fun x => ?_) (fun x => ?_) d
  · split
    · exact hkey x
    · rfl
  · split
    · exact (hf x).2
    · rfl

/-- A record that is not PROBING is HELD and leaves its list. -/
theorem workOk_held (hr : findPath s c = some r) (hprobing : r.state ≠ .probing) (hpaths : t.paths = (setRecordState c .held s).paths)
    (hlists : ∀ m', m' ≠ .sweep → workList m' t =
      if r.state = .queued m' then (workList m' s).erase c else workList m' s)
    (hspines : spines t = spines s) (hrun : t.runState = s.runState) (h : WorkOk s) : WorkOk t := by
  have hmoved : Moved c r.state .held s t :=
    { cores := (pathCores_of_paths hpaths).trans (pathCores_setRecordState c .held s)
      before := stateOf_of_findPath hr
      states := stateOf_of_modify hpaths (fun _ => rfl) hr
      leaves := fun m' hm' hold _ => by rw [hlists m' hm', if_pos hold]
      joins := fun _ _ hnew => by cases hnew
      stays := fun m' hm' hsame => by rw [hlists m' hm', if_neg fun hold => by cases hsame.1 hold]
      run := hrun }
  exact workOk_of_moved_spines hmoved hspines hprobing h

theorem workOk_moveForHold {st : RecordState} (hr : findPath s c = some r) (hst : r.state = st) (h : WorkOk s) :
    WorkOk (moveForHold c st s) := by
  subst hst
  unfold moveForHold
  split
  · rename_i hst
    exact workOk_held hr (by simp [hst]) rfl (fun m' _ => by simp [hst]) rfl rfl h
  · rename_i hst
    refine workOk_held hr (by simp [hst]) (by simp) (fun m' hm' => ?_) (spines_of_probes (by simp)) (by simp) h
    rw [workList_deferEntry, workList_setRecordState, hst, if_neg fun he => hm' (by cases he; rfl)]
  · rename_i m _ hst
    refine workOk_held hr (by simp [hst]) (by simp) (fun m' hm' => ?_) (spines_of_probes (by simp)) (by simp) h
    rw [workList_leaveList hm', workList_setRecordState, hst]
    simp
  · exact h
  · exact workOk_of_spines (s := s) rfl (fun _ => rfl) (fun _ => workList_of_sched rfl rfl _)
      (spines_setSlots_map _ _ fun p => by split <;> rfl) rfl h

theorem workOk_addHold (ser : Serial) (c : Nat) (h : WorkOk s) : WorkOk (addHold ser c s) := by
  unfold addHold
  split
  · exact h
  · rename_i r hr
    split
    · exact h
    · have hr' : findPath (modifyPath c (fun r => { r with hold := r.hold ++ [ser], owed := addSerial ser r.owed }) s) c =
          some { r with hold := r.hold ++ [ser], owed := addSerial ser r.owed } := by
        rw [findPath_modifyPath, hr]
        · simp
        · exact fun _ => rfl
      exact workOk_moveForHold hr' rfl (workOk_modifyPath c (fun _ => ⟨rfl, rfl⟩) h)

theorem workOk_removeHold (ser : Serial) (c : Nat) (h : WorkOk s) : WorkOk (removeHold ser c s) := by
  unfold removeHold
  split
  · exact h
  · rename_i r hr
    split
    · exact h
    · dsimp only
      have hless : WorkOk (modifyPath c (fun r => { r with hold := r.hold.erase ser }) s) :=
        workOk_modifyPath c (fun _ => ⟨rfl, rfl⟩) h
      split
      · rename_i hheld
        have hr' : findPath (modifyPath c (fun r => { r with hold := r.hold.erase ser }) s) c =
            some { r with hold := r.hold.erase ser } := by
          rw [findPath_modifyPath, hr]
          · simp
          · exact fun _ => rfl
        exact workOk_of_moved_spines (moved_enqueue hr' fun m' => by simp [hheld.1]) (spines_of_probes (by simp))
          (by simp [hheld.1]) hless
      · exact hless

theorem workOk_dropOwed (ser : Serial) (h : WorkOk s) : WorkOk (dropOwed ser s) :=
  workOk_of_spines (s := s) (pathCores_dropOwed ser s) (stateOf_of_map rfl (fun _ => rfl) fun _ => rfl)
    (fun _ => workList_of_sched rfl rfl _) rfl rfl h

/-! ### Selections (R18, R124, R125) -/

/-- A selected IDLE or QUEUED record is queued for the sweep. -/
theorem workOk_swept (hr : findPath s c = some r) (hstate : r.state = .idle ∨ ∃ m, r.state = .queued m)
    (hcores : pathCores t = pathCores s) (hpaths : t.paths = (setRecordState c (.queued .sweep) s).paths)
    (hlists : ∀ m', m' ≠ .sweep → workList m' t =
      if r.state = .queued m' then (workList m' s).erase c else workList m' s)
    (hspines : spines t = spines s) (hrun : t.runState = s.runState) (h : WorkOk s) : WorkOk t := by
  have hmoved : Moved c r.state (.queued .sweep) s t :=
    { cores := hcores
      before := stateOf_of_findPath hr
      states := stateOf_of_modify hpaths (fun _ => rfl) hr
      leaves := fun m' hm' hold _ => by rw [hlists m' hm', if_pos hold]
      joins := fun m' hm' hnew => absurd (RecordState.queued.inj hnew).symm hm'
      stays := fun m' hm' hsame => by
        rw [hlists m' hm', if_neg fun hold => hm' (RecordState.queued.inj (hsame.1 hold)).symm]
      run := hrun }
  refine workOk_of_moved_spines hmoved hspines ?_ h
  rcases hstate with hst | ⟨m, hst⟩ <;> simp [hst]

theorem workOk_moveIntoRun {st : RecordState} (id : Nat) (hr : findPath s c = some r) (hst : r.state = st)
    (h : WorkOk s) : WorkOk (moveIntoRun id c st s) := by
  subst hst
  have hhand (run : Nat) (u : State) (m : Mode) : workList m (handOn run c u) = workList m u := by
    rw [handOn]
    simp
  unfold moveIntoRun
  split
  · split
    · exact workOk_of_spines (pathCores_of_paths (by simp)) (stateOf_of_paths (by simp)) (fun m => hhand _ _ m)
        (spines_of_probes (by simp)) (by simp) h
    · exact h
  · refine workOk_of_spines (s := s) (pathCores_of_paths (by simp)) (stateOf_of_paths (by simp)) (fun m => ?_) ?_ (by simp) h
    · have hadopt (u : State) : workList m (adoptSlot id c u) = workList m u := workList_of_sched rfl rfl m
      rw [hadopt]
      unfold handOnOwner
      split
      · split
        · exact hhand _ _ m
        · rfl
      · rfl
    · exact (spines_setSlots_map _ _ fun p => by split <;> rfl).trans (spines_of_probes (by simp))
  · rename_i m hne hst
    have hmove : pathCores (setRecordState c (.queued .sweep) (leaveList m c s)) = pathCores s := by simp
    refine workOk_swept hr (.inr ⟨m, hst⟩) hmove ?_ (fun m' hm' => ?_) (spines_of_probes (by simp)) (by simp) h
    · exact congrArg (List.map _) (leaveList_frame m c s).2.2.2.2.2.2.2.2.1
    · rw [workList_setRecordState, workList_leaveList hm', hst]
      simp
  · rename_i hst
    exact workOk_swept hr (.inl hst) (pathCores_setRecordState c _ s) rfl (fun m' _ => by simp [hst]) rfl rfl h
  · exact h

theorem workOk_takeSelected (id : Nat) (sp : Span) (c : Nat) (h : WorkOk s) : WorkOk (takeSelected id sp s c) := by
  unfold takeSelected
  split
  · rename_i r run hr _
    have horigin : WorkOk (setOrigin c (.sweep sp) s) := workOk_modifyPath c (fun _ => ⟨rfl, rfl⟩) h
    dsimp only
    split
    · exact horigin
    · have hr' : findPath (setOrigin c (.sweep sp) s) c = some { r with origin := some (.sweep sp) } := by
        rw [setOrigin, findPath_modifyPath, hr]
        · simp
        · exact fun _ => rfl
      exact workOk_of_work (s := moveIntoRun id c r.state (setOrigin c (.sweep sp) s)) rfl rfl rfl rfl rfl
        (workOk_moveIntoRun id hr' rfl horigin)
  · exact h

theorem workOk_applyAlarm (sp : Span) (cause : Cause) (h : WorkOk s) : WorkOk (applyAlarm sp cause s) := by
  have hfold (id : Nat) (sel : List Nat) : ∀ {u : State}, WorkOk u → WorkOk (sel.foldl (takeSelected id sp) u) := by
    induction sel with
    | nil => exact fun hu => hu
    | cons c sel ih => exact fun hu => ih (workOk_takeSelected id sp c hu)
  have hclosed {u : State} (hu : WorkOk u) : WorkOk (completeSuspended u) :=
    workOk_of_spines (s := u) (pathCores_completeSuspended u) (stateOf_of_paths (by simp)) (fun m => by simp)
      (spines_completeSuspended u) (by simp) hu
  unfold applyAlarm
  dsimp only
  split
  · exact h
  · have hstart : WorkOk (startRun sp cause (suspendCurrent s)) := by
      refine workOk_of_work (s := s) (by simp) ?_ ?_ (spines_of_probes (by simp)) (by simp) h
      all_goals
        unfold startRun suspendCurrent
        split <;> rfl
    exact hclosed (hfold _ _ hstart)
  · unfold mergeRun
    split
    · exact h
    · rename_i run _
      exact hclosed (workOk_of_work (s := (selection s sp).foldl (takeSelected run.id sp) s) rfl rfl rfl rfl rfl
        (hfold _ _ h))

/-! ### Launches (R19, R48) -/

/-- A launch: the record of a QUEUED circuit that left its list is PROBING, in an IDLE slot. -/
theorem workOk_launch {u : State} {o : Owner} (hst : stateOf s c = some (.queued m))
    (hpaths : u.paths = s.paths) (hlists : ∀ m', m' ≠ .sweep → workList m' u =
      if m = m' then (workList m' s).erase c else workList m' s)
    (hslots : u.probes = s.probes) (hrun : u.runState = s.runState) (hi : i < s.probes.slots.length)
    (hfree : slotOf s c = none) (h : WorkOk s) : WorkOk (claimSlot i c m o u) := by
  obtain ⟨r, hr, hrst⟩ := Option.map_eq_some_iff.1 hst
  have hru : findPath u c = some r := (findPath_of_paths hpaths c).trans hr
  have hiu : i < u.probes.slots.length := hslots ▸ hi
  obtain ⟨_, _, hnd, _, _⟩ := workOk_iff.1 h
  have hother {p : Probe} (hp : p ∈ probesOf u) : p.circuit ≠ c ∧ p ∈ probesOf s := by
    have hp' : p ∈ probesOf s := by rwa [probesOf, ← hslots]
    exact ⟨ne_of_slotOf_none hfree hp', hp'⟩
  unfold claimSlot
  rw [hru]
  dsimp only
  have hcircuits : ((probesOf (putSlot i (some (claimedProbe c (nextEpoch r.lastEpoch) m o)) u)).map
      (·.circuit)).Nodup := by
    refine circuits_nodup_putSlot _ hiu ?_ (by rwa [probesOf, hslots])
    rintro x ⟨rfl⟩ j q _ hq
    exact (hother (mem_probesOf_of_probeAt hq)).1
  refine workOk_of_moved (s := s) (c := c) (old := .queued m) (new := .probing) ?_ hcircuits (fun p hp _ => ?_) h
  · exact
      { cores := (pathCores_modifyPath c u).trans (pathCores_of_paths hpaths)
        before := hst
        states := fun d => by
          rw [← stateOf_of_paths hpaths d]
          exact stateOf_of_modify (s := u)
            (f := fun x => { x with state := .probing, lastEpoch := nextEpoch r.lastEpoch }) rfl (fun _ => rfl) hru d
        leaves := fun m' hm' hold _ => (hlists m' hm').trans (if_pos (RecordState.queued.inj hold))
        joins := fun _ _ hnew => by cases hnew
        stays := fun m' hm' hsame => (hlists m' hm').trans (if_neg fun hmm => by cases hsame.1 (congrArg _ hmm))
        run := hrun }
  · rcases (mem_probesOf_putSlot_iff (s := u) _ hiu).1 hp with heq | ⟨j, _, hj⟩
    · cases heq
      exact .inl ⟨rfl, rfl⟩
    · obtain ⟨hne, hmem⟩ := hother (mem_probesOf_of_probeAt hj)
      exact .inr ⟨hne, p, hmem, rfl, by assumption⟩

/-! ### Evaluations (R20, R54) -/

theorem workList_recordVerdict (j : Judgement) (p : Probe) (r : PathRecord) (s : State) (hm : m ≠ .sweep) :
    workList m (recordVerdict j p r s) =
      if (afterVerdict j r r).state = .queued m then workList m s ++ [j.record.circuit] else workList m s := by
  have hcredit (v : Verdict) (u : State) : workList m (creditRun p v u) = workList m u := by
    unfold creditRun
    split
    · rfl
    · split
      · exact workList_touchRun m _ _ _ u
      · rfl
  have hhead (u : State) : workList m (followHead j u) = workList m u := workList_of_sched (by simp) (by simp) m
  have hpost (x : Report) (u : State) : workList m (postReport x u) = workList m u :=
    workList_of_sched (by simp) (by simp) m
  have howed (l : List Serial) (u : State) : workList m (creditOwed j l u) = workList m u :=
    workList_of_sched (by simp) (by simp) m
  rw [recordVerdict, hcredit, hpost]
  unfold moveForVerdict afterVerdict
  dsimp only
  split
  · simp [hhead]
  · split
    · rename_i hoverlap
      have hclear : j.record.flags.overlap = false := by simpa using hoverlap
      rw [howed]
      simp [hhead, hclear]
    · rename_i hoverlap
      have hset : j.record.flags.overlap = true := by simpa using hoverlap
      simp only [hset, Bool.true_eq_false, if_false]
      cases r.owed with
      | nil => simp [hhead]
      | cons ser rest =>
        dsimp only
        rw [enqueue, workList_joinList hm]
        simp [hhead]

/-- The record evaluated leaves PROBING, and its slot CLAIMING or DRIVING. -/
theorem workOk_evaluated {u : State} (hp : probeAt s i = some p) (hphase : p.phase ≠ .closing)
    (hr : findPath s p.circuit = some r) {j : Judgement} (hj : j.record.circuit = p.circuit)
    (hpaths : u.paths = (recordVerdict j p r s).paths) (hsched : u.sched = (recordVerdict j p r s).sched)
    (hrun : u.runState = s.runState) {o : Option Probe}
    (hslots : u.probes.slots = (putSlot i o s).probes.slots)
    (ho : ∀ q, o = some q → q.circuit = p.circuit ∧ q.phase = .closing) (h : WorkOk s) : WorkOk u := by
  obtain ⟨_, _, hnd, hprobing, _⟩ := workOk_iff.1 h
  have hmem := mem_probesOf_of_probeAt hp
  have hnot : (afterVerdict j r r).state ≠ .probing := by
    unfold afterVerdict
    split
    · simp
    · split
      · simp
      · split <;> simp
  have hprobes : probesOf u = probesOf (putSlot i o s) := by rw [probesOf, hslots, ← probesOf]
  have hlists (m : Mode) : workList m u = workList m (recordVerdict j p r s) :=
    workList_of_sched (by rw [hsched]) (by rw [hsched]) m
  have hbefore := hprobing p hmem hphase
  refine workOk_of_moved (s := s) (c := p.circuit) (old := .probing) (new := (afterVerdict j r r).state) ?_ ?_
    (fun q hq hq' => ?_) h
  · exact
      { cores := (pathCores_of_paths hpaths).trans (pathCores_recordVerdict j p r s)
        before := hbefore
        states := stateOf_of_modify (hpaths.trans (hj ▸ recordVerdict_paths j p r s))
          (fun x => afterVerdict_circuit j r x) hr
        leaves := fun _ _ hold => by cases hold
        joins := fun m hm hnew _ => by rw [hlists, workList_recordVerdict j p r s hm, if_pos hnew, hj]
        stays := fun m hm hsame => by
          rw [hlists, workList_recordVerdict j p r s hm, if_neg fun hnew => by cases hsame.2 hnew]
        run := hrun }
  · rw [hprobes]
    exact circuits_nodup_replace o hp (fun q hq => (ho q hq).1) hnd
  · rw [hprobes] at hq
    rcases (mem_probesOf_putSlot_iff o (lt_of_probeAt hp)).1 hq with heq | ⟨k, hk, hq⟩
    · exact absurd (ho q heq).2 hq'
    · exact .inr ⟨fun hc => hk (circuits_nodup_iff.1 hnd k i q p hq hp hc), q, mem_probesOf_of_probeAt hq, rfl, hq'⟩

theorem workOk_evaluate (hp : probeAt s i = some p) (hphase : p.phase ≠ .closing) (h : WorkOk s) :
    WorkOk (evaluate i s) := by
  cases hr : findPath s p.circuit with
  | none =>
    rw [(evaluate_of_no_record hp hr).1]
    exact h
  | some r =>
    have hslots := (recordVerdict_quiet (judgeProbe s p r) p r s).2.2.2
    unfold evaluate
    rw [hp]
    dsimp only
    rw [hr]
    refine workOk_evaluated hp hphase hr (judgeProbe_circuit s p r) (by simp [closeSlot, modifySlot])
      (by simp [closeSlot, modifySlot]) (by simp)
      (o := some { p with phase := .closing, deadline := none, pool := [] }) ?_ ?_ h
    · have hclose : closeSlot i (recordVerdict (judgeProbe s p r) p r s) =
          putSlot i (some { p with phase := .closing, deadline := none, pool := [] })
            (recordVerdict (judgeProbe s p r) p r s) :=
        modifySlot_eq_putSlot _ (by rw [probeAt, hslots]; exact hp)
      simp only [requestProbe, State.setProbes_fields]
      rw [(idleMarking_frame _ _).2.2.2.2.2.2.2.2.2.2.1, hclose, putSlot, putSlot, setSlots, setSlots, hslots]
      rfl
    · rintro q ⟨rfl⟩
      exact ⟨rfl, rfl⟩

theorem workOk_evaluateWithdrawn (hp : probeAt s i = some p) (hphase : p.phase ≠ .closing) (h : WorkOk s) :
    WorkOk (evaluateWithdrawn i s) := by
  cases hr : findPath s p.circuit with
  | none =>
    rw [(evaluate_of_no_record hp hr).2]
    exact h
  | some r =>
    have hslots := (recordVerdict_quiet (judgeProbe s p r) p r s).2.2.2
    unfold evaluateWithdrawn
    rw [hp]
    dsimp only
    rw [hr]
    refine workOk_evaluated hp hphase hr (judgeProbe_circuit s p r) rfl rfl (by simp) (o := none) ?_
      (fun q hq => by cases hq) h
    simp only [putSlot, setSlots, State.setProbes_fields]
    rw [hslots]

/-! ### The load and LOOP RESET -/

/-- Every record IDLE, and no list holds a circuit. -/
theorem workOk_of_idle (horder : (pathOrder s).Nodup) (hidle : ∀ r ∈ s.paths, r.state = .idle)
    (hcensus : s.sched.census = []) (hroutine : s.sched.routine = []) (hslots : probesOf s = [])
    (hrun : s.runState ≠ .running → s.paths = []) : WorkOk s := by
  refine workOk_iff.2 ⟨horder, fun m hm => ?_, by rw [hslots]; exact List.nodup_nil,
    fun p hp => absurd (hslots ▸ hp) List.not_mem_nil, fun hne => ⟨hcensus, hroutine, hslots, hrun hne⟩⟩
  have hnil : workList m s = [] := by
    cases m with
    | census => exact hcensus
    | routine => exact hroutine
    | sweep => rfl
  refine ⟨hnil ▸ List.nodup_nil, fun c => ?_⟩
  rw [hnil]
  refine ⟨fun hc => absurd hc List.not_mem_nil, fun hst => ?_⟩
  obtain ⟨r, hr, hstate⟩ := Option.map_eq_some_iff.1 hst
  rw [hidle r (List.mem_of_find?_eq_some hr)] at hstate
  cases hstate

theorem workOk_load (bytes : List Byte) (hstart : s.runState = .starting) (h : WorkOk s) :
    WorkOk (loadTaken bytes s) := by
  obtain ⟨_, _, _, _, hidle⟩ := workOk_iff.1 h
  obtain ⟨hcensus, hroutine, hslots, hpaths⟩ := hidle (by rw [hstart]; decide)
  have hnone : probesOf (loadTaken bytes s) = [] := probesOf_nil_of_slots (by simp) hslots
  rcases loadTaken_run bytes s with ⟨hrunning, hrun, _⟩ | ⟨_, hpaths', _, _, hsched, _⟩
  · have htables : WorkOk (markLines (loadTables (loadBase bytes s))) := by
      have hidleAll : ∀ r ∈ (markLines (loadTables (loadBase bytes s))).paths, r.state = .idle := by
        intro r hr
        obtain ⟨o, _, rfl⟩ :=
          List.mem_map.1 (show r ∈ (loadBase bytes s).image.originated.map newRecord from hr)
        rfl
      refine workOk_of_idle ?_ hidleAll (by simpa [markLines, loadTables, loadBase] using hcensus)
        (by simpa [markLines, loadTables, loadBase] using hroutine)
        (probesOf_nil_of_slots (by simp [markLines, loadTables, loadBase]) hslots)
        (fun hne => absurd (by simp [markLines, loadTables, loadBase]) hne)
      have horder : pathOrder (markLines (loadTables (loadBase bytes s))) =
          (checkImage (readImage bytes)).1.originated.map (·.circuit) := by
        rw [← loadBase_image bytes s]
        simp only [pathOrder, markLines, loadTables, State.setLines_fields, State.setPaths_fields, List.map_map]
        rfl
      rw [horder]
      exact (sound_of_running hrun).circuits
    rw [loadTaken_of_running hrun]
    refine workOk_of_work (s := autoCensus (markLines (loadTables (loadBase bytes s)))) (by simp)
      (by simp [startServices]) (by simp [startServices]) (spines_of_probes (by simp)) (by simp) ?_
    unfold autoCensus
    split
    · exact workOk_requestAudits _ _ _ htables
    · exact htables
  · refine workOk_of_idle (by rw [pathOrder, hpaths', hpaths]; exact List.nodup_nil) (fun r hr => ?_)
      (by rw [hsched, hcensus]) (by rw [hsched, hroutine]) hnone (fun _ => hpaths'.trans hpaths)
    rw [hpaths', hpaths] at hr
    cases hr

theorem workOk_resetWork (h : WorkOk s) : WorkOk (resetPaths (clearSlots (resetScheduler s))) := by
  obtain ⟨horder, _, _, _, hidle⟩ := workOk_iff.1 h
  unfold resetPaths
  refine workOk_requestAudits _ _ _ (workOk_of_idle ?_ (fun r hr => ?_) (by simp [resetScheduler])
    (by simp [resetScheduler]) (probesOf_of_reset (by simp [clearSlots, probesReset])) fun hne => ?_)
  · have hsame : (pathOrder s).Nodup → ((s.paths.map fun r =>
        { r with state := .idle, hold := [], owed := [] }).map (·.circuit)).Nodup := by
      rw [List.map_map]
      exact id
    simpa [pathOrder] using hsame horder
  · obtain ⟨x, _, rfl⟩ := List.mem_map.1 hr
    rfl
  · have hpaths := (hidle (by simpa using hne)).2.2.2
    simp [hpaths]

/-! ### Changes of a slot -/

/-- A slot emptied, or its probe replaced by one of its circuit that is no further from CLOSING. -/
theorem workOk_replace (o : Option Probe) (hp : probeAt s i = some p)
    (ho : ∀ q, o = some q → q.circuit = p.circuit ∧ (q.phase ≠ .closing → p.phase ≠ .closing)) (h : WorkOk s) :
    WorkOk (putSlot i o s) := by
  obtain ⟨_, _, hnd, _, hidle⟩ := workOk_iff.1 h
  refine workOk_of_same (s := s) rfl (fun _ => rfl) (fun _ => workList_of_sched rfl rfl _)
    ⟨circuits_nodup_replace o hp (fun q hq => (ho q hq).1) hnd, fun q hq hphase => ?_⟩ rfl
    (fun hne => absurd (hidle hne).2.2.1 (not_probesOf_nil hp)) h
  rcases (mem_probesOf_putSlot_iff o (lt_of_probeAt hp)).1 hq with heq | ⟨k, _, hk⟩
  · obtain ⟨hc, hp'⟩ := ho q heq
    exact ⟨p, mem_probesOf_of_probeAt hp, hc.symm, hp' hphase⟩
  · exact ⟨q, mem_probesOf_of_probeAt hk, rfl, hphase⟩

theorem workOk_enterDriving {b : BestMarks} {failed : Bool} (hp : probeAt s i = some p) (hphase : p.phase = .claiming)
    (h : WorkOk s) : WorkOk (enterDriving i b failed s) := by
  unfold enterDriving
  rw [hp]
  dsimp only
  split
  · exact h
  · rename_i r _
    refine workOk_of_work (s := putSlot i (some (drivingProbe s p r b failed)) s) rfl rfl rfl rfl rfl
      (workOk_replace _ hp ?_ h)
    rintro q ⟨rfl⟩
    exact ⟨rfl, fun _ => by simp [hphase]⟩

/-- The circuit a base launch takes is QUEUED for the mode whose list it stood in. -/
theorem stateOf_of_baseLaunch (hchoice : baseLaunchChoice s = some (i, m, c)) (h : WorkOk s) :
    stateOf s c = some (.queued m) := by
  obtain ⟨_, hlists, _, _, _⟩ := workOk_iff.1 h
  obtain ⟨_, _, _, _, _, hlist⟩ := baseLaunchChoice_spec hchoice
  rcases hlist with ⟨rfl, hc⟩ | ⟨rfl, hc⟩
  · exact ((hlists .routine (by decide)).2 c).1 hc
  · exact ((hlists .census (by decide)).2 c).1 hc

theorem stateOf_of_queuedSweep (h : queuedSweep s c = true) : stateOf s c = some (.queued .sweep) := by
  unfold queuedSweep at h
  rw [stateOf]
  cases hr : findPath s c with
  | none => simp [hr] at h
  | some r => simpa [hr] using h

/-! ### Every change -/

theorem workOk_act (hwhole : g.verdicts = false) (hresets : g.resets = true) (hact : Act g s t) (h : WorkOk s) :
    WorkOk t := by
  cases hact with
  | boot c => exact workOk_of_idle List.nodup_nil (fun _ hr => absurd hr List.not_mem_nil) rfl rfl rfl fun _ => rfl
  | load bytes hstart => exact workOk_load bytes hstart h
  | slotFlags x hcore => exact workOk_of_work (s := s) rfl rfl rfl (spines_of_core hcore) rfl h
  | pool i p x hp =>
    rw [modifySlot_eq_putSlot _ hp]
    refine workOk_replace _ hp ?_ h
    rintro q ⟨rfl⟩
    exact ⟨rfl, id⟩
  | enterDriving i p b failed hp hphase => exact workOk_enterDriving hp hphase h
  | freeSlot i p hp => exact workOk_replace none hp (fun q hq => by cases hq) h
  | evaluate i p _ hp hphase => exact workOk_evaluate hp hphase h
  | evaluateWithdrawn i p _ hp hphase => exact workOk_evaluateWithdrawn hp (by simp [hphase]) h
  | requestAudit c m o => exact workOk_requestAudit c m o h
  | addHold ser c => exact workOk_addHold ser c h
  | removeHold ser c => exact workOk_removeHold ser c h
  | dropOwed ser => exact workOk_dropOwed ser h
  | applyAlarm sp cause => exact workOk_applyAlarm sp cause h
  | baseLaunch i m c hchoice =>
    obtain ⟨_, _, _, hidle, hlaunch, _⟩ := baseLaunchChoice_spec hchoice
    exact workOk_launch (stateOf_of_baseLaunch hchoice h) (by simp) (fun m' hm' => workList_leaveList hm' m c s)
      (by simp) (by simp) (isNone_of_idleSlot hidle).1 (launchable_iff.1 hlaunch).2 h
  | sweepLaunch i id c hchoice =>
    obtain ⟨_, _, hidle, hfree, hqueued, _⟩ := sweepLaunchChoice_spec hchoice
    exact workOk_of_work (s := claimSlot i c .sweep (.run id) s) rfl rfl rfl rfl rfl
      (workOk_launch (stateOf_of_queuedSweep hqueued) rfl (fun m' hm' => (if_neg fun he => hm' he.symm).symm) rfl rfl
        (isNone_of_idleSlot hidle).1 hfree h)
  | presence n f =>
    exact workOk_of_work (by simp) (by simp) (by simp) (by rw [spines_recompute]; simp [spines]) (by simp) h
  | joined n =>
    exact workOk_of_work (by simp) (by simp) (by simp) (by rw [joinedRoster, spines_recompute]; simp [spines])
      (by simp) h
  | resetWork => exact workOk_resetWork h
  | setAdmission x =>
    unfold setAdmission
    split
    all_goals exact workOk_of_work (s := s) rfl rfl rfl rfl rfl h
  | verdictPaths x hpieces => simp [hwhole] at hpieces
  | lists m c hpieces => simp [hwhole] at hpieces
  | creditRun id c x hpieces => simp [hwhole] at hpieces
  | closeSlot i hpieces => simp [hwhole] at hpieces
  | idleMarking c hpieces => simp [hwhole] at hpieces
  | emptySlot i hpieces => simp [hwhole] at hpieces
  | resetLoopOwn hpieces => simp [hresets] at hpieces
  | _ => exact workOk_of_work (by simp) (by simp) (by simp) (spines_of_probes (by simp)) (by simp) h

theorem workOk_quiet (hq : Quiet s t) (h : WorkOk s) : WorkOk t := by
  obtain ⟨_, _, _, _, _, _, _, rfl⟩ := hq
  exact h

/-- Settles O13: each operation moves one record, with the lists and the slot of its circuit. -/
theorem workListsMatchTheRecords : Obligations.WorkListsMatchTheRecords := fun _ _ h hstep =>
  step_keeps_self false true workOk_quiet (fun _ _ _ hv hr => workOk_act hv hr) h hstep

end Sys2Proof.Machine
end

