-- ==== Sys2Proof/Proofs/LoadFields.lean ====
section
/-! The field checks, the defaults and the flags of a load that passes the first check (R190 to R192). -/

namespace Sys2Proof.Machine

variable {bs : List Byte} {im : Image} {s : State}

/-! ### The end of a load without a held command -/

theorem endLoad_ctl (bytes : List Byte) (s : State) : (endLoad bytes s).ctl =
    (loadFlags (checkImage (readImage bytes)).2
      ((s.setImage (checkImage (readImage bytes)).1).setFinding (checkImage (readImage bytes)).2)).ctl := by
  simp only [endLoad]
  split
  · simp [enterRunning, startServices, markLines]
  · rfl

theorem command_endLoad (bytes : List Byte) (s : State) : (endLoad bytes s).ctl.command = s.ctl.command := by
  rw [endLoad_ctl, loadFlags]
  split <;> split <;> rfl

theorem exec_loadEnd_of_no_command (bytes : List Byte) (hstart : s.runState = .starting)
    (hcommand : s.ctl.command = none) : exec (.loadEnd bytes) s = .next (endLoad bytes s) := by
  rw [exec_loadEnd_of_starting bytes hstart, servePending, command_endLoad, hcommand]

/-! ### The faults and their places (R190, R192, log 17) -/

theorem stationOk_eq_false_iff (n : Nat) : stationOk n = false ↔ n = 0 ∨ 24 < n := by
  rw [← Bool.not_eq_true, stationOk_iff]
  omega

theorem farEndFault_eq (im : Image) (p : Nat) : farEndFault im p =
    decide ((im.portAt p).cls = .lineOut ∧ ((im.portAt p).farStation = 0 ∨
      (im.portAt p).farStation = im.station ∨ 24 < (im.portAt p).farStation)) := by
  rw [Bool.eq_iff_iff]
  simp [farEndFault, or_assoc]

theorem mem_fatalSet_farEnd (im : Image) : LoadFault.farEnd ∈ fatalSet im ↔ ∃ p ∈ List.range 16,
    (im.portAt p).cls = .lineOut ∧ ((im.portAt p).farStation = 0 ∨
      (im.portAt p).farStation = im.station ∨ 24 < (im.portAt p).farStation) := by
  rw [mem_fatalSet, faultAt, Option.isSome_map, List.find?_isSome]
  simp only [farEndFault_eq, decide_eq_true_eq, fieldFaults, List.mem_cons, true_or, or_true, true_and]

theorem mem_fatalSet_addPort (im : Image) (hlen : im.positions.length = 32) : LoadFault.addPort ∈ fatalSet im ↔
    ∃ o ∈ im.originated, im.classAt o.addPort ≠ .add := by
  rw [mem_fatalSet, faultAt, Option.isSome_map, firstPosition, List.find?_isSome]
  constructor
  · rintro ⟨_, i, _, hfault⟩
    rw [addPortFault, Option.any_eq_true] at hfault
    obtain ⟨o, ho, hclass⟩ := hfault
    obtain ⟨hi, hget⟩ := getD_none_eq_some ho
    exact ⟨o, List.mem_filterMap.2 ⟨_, List.getElem_mem hi, hget⟩, by simpa using hclass⟩
  · rintro ⟨o, ho, hclass⟩
    obtain ⟨x, hx, hxo⟩ := List.mem_filterMap.1 ho
    obtain ⟨i, hi, hget⟩ := List.mem_iff_getElem.1 hx
    refine ⟨by simp [fieldFaults], i, List.mem_range.2 (hlen ▸ hi), ?_⟩
    have hat : im.positionAt i = some o := by
      rw [Image.positionAt, List.getD_eq_getElem _ _ hi, hget]
      exact hxo
    simpa [addPortFault, hat] using hclass

theorem fatalSet_sublist (im : Image) :
    (fatalSet im).Sublist [.station, .farEnd, .duplicateCircuit, .duplicateLine, .addPort] := List.filter_sublist

theorem position_of_reason {f : LoadFault} (h : (fieldFinding bs im).reason = some f) :
    (fieldFinding bs im).position = (faultAt im f).getD none := by
  have hhead : (fatalSet im).head? = some f := h
  simp only [fieldFinding, hhead, Option.bind_some]

theorem getD_map_some {α : Type} (o : Option α) : (o.map some).getD none = o := by cases o <;> rfl

theorem position_of_no_place (h : (fieldFinding bs im).reason = none ∨ (fieldFinding bs im).reason = some .station) :
    (fieldFinding bs im).position = none := by
  rcases h with hnone | hstation
  · have hhead : (fatalSet im).head? = none := hnone
    simp only [fieldFinding, hhead, Option.bind_none]
  · rw [position_of_reason hstation, faultAt]
    split <;> rfl

theorem position_of_farEnd (h : (fieldFinding bs im).reason = some .farEnd) : (fieldFinding bs im).position =
    (List.range 16).find? fun p => decide ((im.portAt p).cls = .lineOut ∧ ((im.portAt p).farStation = 0 ∨
      (im.portAt p).farStation = im.station ∨ 24 < (im.portAt p).farStation)) := by
  rw [position_of_reason h, faultAt, getD_map_some]
  simp only [← farEndFault_eq]

/-! ### Defaults and warnings (R187, R191) -/

theorem rawClass_isNone (bs : List Byte) (p : Nat) :
    (rawClass bs p).isNone = decide (4 < imageByte bs (2 + 2 * p) % 8) := by
  have hcode (n : Nat) : (decodeClass n).isNone = decide (4 < n) := by
    unfold decodeClass
    split
    iterate 5 rfl
    rename_i h0 h1 h2 h3 h4
    simp only [Option.isNone_none]
    symm
    rw [decide_eq_true_eq]
    by_contra hle
    interval_cases n <;> simp_all
  exact hcode _

theorem unassignedPort_eq (bs : List Byte) : unassignedPort bs =
    (List.range 16).find? fun p => decide (4 < imageByte bs (2 + 2 * p) % 8) := by
  simp only [unassignedPort, rawClass_isNone]

theorem rawImage_classAt (bs : List Byte) {p : Nat} (hp : p < 16) :
    (rawImage bs).classAt p = (rawClass bs p).getD .unused := by
  simp [Image.classAt, Image.portAt, rawImage, imagePort, hp]

/-- The image with each field of the warning set at its default. -/
theorem defaults_eq (w : LoadWarning → Bool) (im : Image) : (warningOrder.filter w).foldl takeDefault im =
    { im with
      dwellCode := if w .dwellCode then 1 else im.dwellCode
      batchLimit := if w .batchLimit then 1 else im.batchLimit
      reportThreshold := if w .reportThreshold then 4 else im.reportThreshold
      degradeMargin := if w .degradeMargin then 2 else im.degradeMargin
      settleCode := if w .settleCode then 30 else im.settleCode } := by
  have hdwell (x : Image) : (if w .dwellCode then takeDefault x .dwellCode else x) =
      { x with dwellCode := if w .dwellCode then 1 else x.dwellCode } := by split <;> rfl
  have hbatch (x : Image) : (if w .batchLimit then takeDefault x .batchLimit else x) =
      { x with batchLimit := if w .batchLimit then 1 else x.batchLimit } := by split <;> rfl
  have hreport (x : Image) : (if w .reportThreshold then takeDefault x .reportThreshold else x) =
      { x with reportThreshold := if w .reportThreshold then 4 else x.reportThreshold } := by split <;> rfl
  have hmargin (x : Image) : (if w .degradeMargin then takeDefault x .degradeMargin else x) =
      { x with degradeMargin := if w .degradeMargin then 2 else x.degradeMargin } := by split <;> rfl
  have hsettle (x : Image) : (if w .settleCode then takeDefault x .settleCode else x) =
      { x with settleCode := if w .settleCode then 30 else x.settleCode } := by split <;> rfl
  have hclass (x : Image) : (if w .portClass then takeDefault x .portClass else x) = x := by split <;> rfl
  rw [List.foldl_filter]
  simp only [warningOrder, List.foldl_cons, List.foldl_nil, hdwell, hbatch, hreport, hmargin, hsettle, hclass]

theorem warned_batchLimit (bs : List Byte) (im : Image) :
    warned bs im .batchLimit = true ↔ im.batchLimit ∉ [1, 2, 4, 8] := by
  simp [warned, and_assoc]

/-- The defaults, with the ranges written out. -/
theorem defaults_of_raw (bs : List Byte) (im : Image) : (warnedFields bs im).foldl takeDefault im =
    { im with
      dwellCode := if 3 < im.dwellCode then 1 else im.dwellCode
      batchLimit := if im.batchLimit ∈ [1, 2, 4, 8] then im.batchLimit else 1
      reportThreshold := if im.reportThreshold = 0 ∨ 16 < im.reportThreshold then 4 else im.reportThreshold
      degradeMargin := if 3 < im.degradeMargin then 2 else im.degradeMargin
      settleCode := if im.settleCode = 255 then 30 else im.settleCode } := by
  have hbatch : (if warned bs im .batchLimit then 1 else im.batchLimit) =
      if im.batchLimit ∈ [1, 2, 4, 8] then im.batchLimit else 1 := by
    by_cases h : im.batchLimit ∈ [1, 2, 4, 8]
    · rw [if_pos h, if_neg (mt (warned_batchLimit bs im).1 (not_not_intro h))]
    · rw [if_neg h, if_pos ((warned_batchLimit bs im).2 h)]
  rw [warnedFields, defaults_eq, hbatch]
  simp only [warned, decide_eq_true_eq, Bool.or_eq_true, beq_iff_eq]

/-- The warning set, field by field. -/
theorem warningSet_eq (bs : List Byte) (im : Image) : warningSet bs im =
    (if 3 < im.dwellCode then [⟨.dwellCode, im.dwellCode⟩] else []) ++
    (if im.batchLimit ∉ [1, 2, 4, 8] then [⟨.batchLimit, im.batchLimit⟩] else []) ++
    (if im.reportThreshold = 0 ∨ 16 < im.reportThreshold then [⟨.reportThreshold, im.reportThreshold⟩] else []) ++
    (if 3 < im.degradeMargin then [⟨.degradeMargin, im.degradeMargin⟩] else []) ++
    (if im.settleCode = 255 then [⟨.settleCode, 255⟩] else []) ++
    (((List.range 16).find? fun p => decide (4 < imageByte bs (2 + 2 * p) % 8)).map
      fun p => ⟨.portClass, imageByte bs (2 + 2 * p) % 8⟩).toList := by
  have hpieces (l : List LoadWarning) (w : LoadWarning → Bool) (f : LoadWarning → Replaced) :
      (l.filter w).map f = l.flatMap fun x => if w x then [f x] else [] := by
    induction l with
    | nil => rfl
    | cons x l ih =>
      rw [List.filter_cons, List.flatMap_cons]
      split
      · rw [List.map_cons, ih, List.singleton_append]
      · rw [ih, List.nil_append]
  have hsettle : (if im.settleCode = 255 then [(⟨.settleCode, im.settleCode⟩ : Replaced)] else []) =
      if im.settleCode = 255 then [⟨.settleCode, 255⟩] else [] := by
    split
    · rename_i h
      rw [h]
    · rfl
  have hclass : (if warned bs im .portClass = true then
      [(⟨.portClass, configuredValue bs im .portClass⟩ : Replaced)] else []) =
      (((List.range 16).find? fun p => decide (4 < imageByte bs (2 + 2 * p) % 8)).map
        fun p => ⟨.portClass, imageByte bs (2 + 2 * p) % 8⟩).toList := by
    have hany : warned bs im .portClass = (unassignedPort bs).isSome := by
      rw [Bool.eq_iff_iff, warned, unassignedPort, List.find?_isSome, List.any_eq_true]
    rw [← unassignedPort_eq, hany, configuredValue]
    cases unassignedPort bs <;> rfl
  rw [warningSet, warnedFields, hpieces]
  simp only [warningOrder, List.flatMap_cons, List.flatMap_nil, hclass, warned_batchLimit, List.append_nil, ← List.append_assoc]
  simp only [warned, configuredValue, decide_eq_true_eq, Bool.or_eq_true, beq_iff_eq, hsettle]

/-! ### The flags and the tables of a load (R188, R192) -/

theorem alertSet_loadFlags_of_warnings {f : LoadFinding} (s : State) (h : f.warnings ≠ []) :
    (loadFlags f s).ctl.alertSet .configWarn = true := by
  rw [loadFlags, if_neg h, alertSet_raiseAlert]
  simp

theorem flags_of_passive {f : LoadFinding} (s : State) (h : f.outcome = .passive) :
    (loadFlags f s).ctl.faultSet .config = true ∧ (loadFlags f s).ctl.alertSet .fault = true := by
  have hset : (setFault .config s).ctl.faultSet .config = true ∧ (setFault .config s).ctl.alertSet .fault = true := by
    rw [faultSet_setFault, alertSet_setFault]
    simp
  rw [loadFlags, if_pos h]
  split
  · exact hset
  · rw [alertSet_raiseAlert, hset.2]
    exact ⟨hset.1, rfl⟩

theorem loadFlags_loop (f : LoadFinding) (s : State) : (loadFlags f s).loop = s.loop := by simp

/-- A load that ends in PASSIVE leaves the tables; the bypass ends. -/
theorem endLoad_of_fatal {bytes : List Byte} (h : (checkImage (readImage bytes)).2.outcome ≠ .running) (s : State) :
    (endLoad bytes s).hops = s.hops ∧ (endLoad bytes s).paths = s.paths ∧ (endLoad bytes s).lines = s.lines ∧
    (endLoad bytes s).scanner = s.scanner ∧ (endLoad bytes s).loop = { s.loop with sending := .idleFill } := by
  simp only [endLoad, if_neg h, enterPassive]
  simp

theorem endLoad_runState (bytes : List Byte) (s : State) : (endLoad bytes s).runState =
    if (checkImage (readImage bytes)).2.outcome = .running then .running else .passive := by
  simp only [endLoad]
  split
  · simp [enterRunning, startServices, markLines]
  · rfl

/-- Settles O20: the finding is that of the field checks, and the image that of the defaults. -/
theorem fieldsAreCheckedAndDefaulted : Obligations.FieldsAreCheckedAndDefaulted := by
  constructor
  · intro image s hstart hcommand hsig hsum
    have hcheck := checkImage_of_whole hsig hsum
    have hfinding : (endLoad image s).finding = fieldFinding (readImage image) (rawImage (readImage image)) := by
      rw [endLoad_finding, hcheck]
    have hlen := rawImage_positions (readImage image)
    refine ⟨_, exec_loadEnd_of_no_command image hstart hcommand, ?_⟩
    rw [endLoad_runState, endLoad_ctl, hfinding]
    rw [hcheck]
    refine ⟨?_, mem_fatalSet_farEnd _, mem_fatalSet_duplicateCircuit _ hlen, mem_fatalSet_duplicateLine _ hlen,
      mem_fatalSet_addPort _ hlen, fatalSet_sublist _, rfl, position_of_no_place, position_of_farEnd,
      fun h => ?_, fun h => ?_, fun h => ?_, ?_, rfl, fun h => ?_⟩
    · rw [← stationOk_eq_false_iff]
      exact mem_fatalSet_station _
    · rw [position_of_reason h, faultAt, getD_map_some]
      rfl
    · rw [position_of_reason h, faultAt, getD_map_some]
      rfl
    · rw [position_of_reason h, faultAt, getD_map_some]
      rfl
    · by_cases hfatal : fatalSet (rawImage (readImage image)) = []
      · simp [fieldFinding, hfatal]
      · simp [fieldFinding, hfatal]
    · have houtcome : (fieldFinding (readImage image) (rawImage (readImage image))).outcome = .passive := by
        simp only [fieldFinding]
        exact if_neg h
      obtain ⟨hconfig, hfault⟩ := flags_of_passive
        ((s.setImage ((warnedFields (readImage image) (rawImage (readImage image))).foldl takeDefault
          (rawImage (readImage image)))).setFinding
          (fieldFinding (readImage image) (rawImage (readImage image)))) houtcome
      refine ⟨hconfig, hfault, endLoad_of_fatal ?_ s⟩
      rw [hcheck, houtcome]
      decide
  · intro image s hstart hcommand hsig hsum
    have hcheck := checkImage_of_whole hsig hsum
    have hfinding : (endLoad image s).finding = fieldFinding (readImage image) (rawImage (readImage image)) := by
      rw [endLoad_finding, hcheck]
    refine ⟨_, exec_loadEnd_of_no_command image hstart hcommand, ?_⟩
    rw [endLoad_image, endLoad_ctl, hfinding, hcheck]
    refine ⟨defaults_of_raw _ _, warningSet_eq _ _, fun p hp h => ?_, unassignedPort_eq _,
      alertSet_loadFlags_of_warnings _, alertSet_loadFlags_configWarn _⟩
    have hp' := List.mem_range.1 hp
    obtain ⟨_, _, hports⟩ := defaults_keep (warnedFields (readImage image) (rawImage (readImage image)))
      (rawImage (readImage image))
    have hnone : rawClass (readImage image) p = none := by
      rw [← Option.isNone_iff_eq_none, rawClass_isNone, decide_eq_true_eq]
      exact h
    rw [Image.classAt, Image.portAt, hports]
    have hclass := rawImage_classAt (readImage image) hp'
    rwa [hnone] at hclass

end Sys2Proof.Machine
end

