-- ==== Sys2Proof/Proofs/Queue.lean ====
section
/-! A step runs the front of the queue, the values at power-on and reset, and what rows leave alone. -/

namespace Sys2Proof.Machine

variable {g : Grain} {s t u : State}

/-- Settles O1: the definition of a step. -/
theorem stepRunsTheFrontOfTheQueue : Obligations.StepRunsTheFrontOfTheQueue := by
  intro c rest s hpending
  rw [step, hpending]

/-- Settles O3: each invariant of the reset state is a finite fact. -/
theorem invariantsHoldAtReset : Obligations.InvariantsHoldAtReset := by
  unfold Obligations.InvariantsHoldAtReset
  refine ⟨?_, ?_, ?_, ?_, ?_, ?_, ?_, ?_, ?_, ?_, ?_, ?_, ?_, ?_⟩
  all_goals decide

/-- Settles O18: the power-on values, field by field. -/
theorem powerOnAndRestartGiveThePowerOnValues : Obligations.PowerOnAndRestartGiveThePowerOnValues := by
  refine ⟨fun s => ⟨rfl, rfl⟩, ?_⟩
  rintro s rfl
  decide

/-! ### What rows leave alone -/

/-- What only some rows write stays: the queue, the choice count, the image and its finding, the pins. -/
structure Framed (g : Grain) (s t : State) : Prop where
  pending : t.pending = s.pending
  choices : t.choices = s.choices
  now     : s.now ≤ t.now
  loaded  : ¬ g.loads → t.image = s.image ∧ t.finding = s.finding ∧ t.runState = s.runState
  pins    : ¬ g.pins → t.lossInputs = s.lossInputs

theorem Framed.trans (h : Framed g s t) (h' : Framed g t u) : Framed g s u where
  pending := h'.pending.trans h.pending
  choices := h'.choices.trans h.choices
  now     := h.now.trans h'.now
  loaded hg := by
    obtain ⟨himage, hfinding, hrun⟩ := h.loaded hg
    obtain ⟨himage', hfinding', hrun'⟩ := h'.loaded hg
    exact ⟨himage'.trans himage, hfinding'.trans hfinding, hrun'.trans hrun⟩
  pins hg := (h'.pins hg).trans (h.pins hg)

theorem framed_load (bytes : List Byte) (hloads : g.loads) : Framed g s (loadTaken bytes s) := by
  have hkeeps : (loadTaken bytes s).pending = s.pending ∧ (loadTaken bytes s).choices = s.choices ∧
      (loadTaken bytes s).lossInputs = s.lossInputs := by
    unfold loadTaken
    dsimp only
    split
    · simp [startServices, markLines]
    · simp [enterPassive]
  obtain ⟨hpending, hchoices, hpins⟩ := hkeeps
  exact ⟨hpending, hchoices, by simp, fun hn => absurd hloads hn, fun _ => hpins⟩

theorem framed_act (hact : Act g s t) : Framed g s t := by
  cases hact with
  | boot c _ hloads => exact ⟨rfl, rfl, le_rfl, fun hn => absurd hloads hn, fun _ => rfl⟩
  | load bytes _ hloads => exact framed_load bytes hloads
  | pins x hpins => exact ⟨rfl, rfl, le_rfl, fun _ => ⟨rfl, rfl, rfl⟩, fun hn => absurd hpins hn⟩
  | clock n hle => exact ⟨rfl, rfl, hle, fun _ => ⟨rfl, rfl, rfl⟩, fun _ => rfl⟩
  | queueReset => exact ⟨rfl, rfl, le_rfl, fun _ => ⟨rfl, rfl, rfl⟩, fun _ => rfl⟩
  | joined n =>
    exact ⟨by simp [joinedRoster], by simp [joinedRoster], by simp [joinedRoster],
      fun _ => ⟨by simp, by simp [joinedRoster], by simp⟩, fun _ => by simp [joinedRoster]⟩
  | _ => exact ⟨by simp, by simp, by simp, fun _ => ⟨by simp, by simp, by simp⟩, fun _ => by simp⟩

theorem framed_reach (h : Reach g s t) : Framed g s t := by
  induction h with
  | refl => exact ⟨rfl, rfl, le_rfl, fun _ => ⟨rfl, rfl, rfl⟩, fun _ => rfl⟩
  | tail _ hlast ih => exact ih.trans (framed_act hlast)

theorem framed_intake (c : Instr) (s : State) : Framed g s (intakeCommand c s) :=
  ⟨rfl, rfl, le_rfl, fun _ => ⟨rfl, rfl, rfl⟩, fun _ => rfl⟩

theorem framed_answered (h : Answered s t) : Framed g s t := by
  cases h with
  | silent => exact framed_reach .refl
  | respond r => exact ⟨rfl, rfl, le_rfl, fun _ => ⟨rfl, rfl, rfl⟩, fun _ => rfl⟩
  | readReport =>
    unfold serveReadReport
    dsimp only
    split
    all_goals exact ⟨rfl, rfl, le_rfl, fun _ => ⟨rfl, rfl, rfl⟩, fun _ => rfl⟩
  | request port => exact ⟨rfl, rfl, le_rfl, fun _ => ⟨rfl, rfl, rfl⟩, fun _ => rfl⟩

theorem framed_row {c : Instr} (h : Row g c s t) : Framed g s t := by
  rcases h with hreach | ⟨u, w, hu, hreach, _, v, hserve, hanswer⟩
  · exact framed_reach hreach
  · have hframe : Framed g s u := by
      rcases hu with ⟨rfl, _⟩ | rfl
      · exact framed_reach .refl
      · exact framed_intake c s
    exact hframe.trans ((framed_reach (hreach.trans hserve)).trans (framed_answered hanswer))

/-- No row faults and none is refused. -/
theorem exec_next (c : Instr) (s : State) : ∃ t, exec c s = .next t := by
  cases c
  case loadEnd | invalidCommandFrame | noticeReceived | idleFillReceived | transmitComplete | insertionPlaceGrant |
      returnTimeout | lingerEnd | silenceTimeout | dwellEnd | watchExpiry | holdOffExpiry | deadlineExpiry |
      settleTimerExpiry | coalescingTimerExpiry | baseLaunch | sweepLaunch =>
    simp only [exec, execLoadEnd, execInvalidCommandFrame, execNoticeReceived, execIdleFillReceived,
      execTransmitComplete, execInsertionPlaceGrant, execReturnTimeout, execLingerEnd, execSilenceTimeout, execDwellEnd,
      execWatchExpiry, execHoldOffExpiry, execDeadlineExpiry, execSettleTimerExpiry, execCoalescingTimerExpiry,
      execBaseLaunch, execSweepLaunch]
    repeat' split
    all_goals exact ⟨_, rfl⟩
  all_goals exact ⟨_, rfl⟩

/-- Settles O2: each change leaves alone what only some rows write. -/
theorem rowsLeaveTheQueueAndTheLoadedImage : Obligations.RowsLeaveTheQueueAndTheLoadedImage := by
  intro c s
  obtain ⟨t, ht⟩ := exec_next c s
  have hframe := framed_row (exec_row false false ht)
  exact ⟨t, ht, hframe.pending, hframe.choices, hframe.now, fun hc => hframe.loaded (by simp [rowGrain, hc]),
    fun hc => hframe.pins (by simp [rowGrain, hc])⟩

end Sys2Proof.Machine
end

