-- ==== Sys2Proof/Proofs/Running.lean ====
section
/-! What a load that ends in RUNNING gives to every block (R4, R9, R22, R23, R43, R44, R193). -/

namespace Sys2Proof.Machine

variable {s u : State} {p : Nat}

/-! ### The Circuit Table -/

theorem length_putHop {l : List HopEntry} {e : HopEntry} (h : findHop l e.circuit = none) :
    (putHop l e).length = l.length + 1 := by
  induction l with
  | nil => rfl
  | cons a l ih =>
    have hne : a.circuit ≠ e.circuit := by
      intro heq
      rw [findHop, List.find?_cons_of_pos (by simpa using heq)] at h
      cases h
    have htail : findHop l e.circuit = none := by
      rwa [findHop, List.find?_cons_of_neg (by simpa using hne)] at h
    unfold putHop
    split
    · rw [List.length_cons, ih htail, List.length_cons]
    · rw [List.length_cons, List.length_cons]

/-- Head entries of different circuits, put into a table that has none of them. -/
theorem foldl_putHop (e : Originated → HopEntry) (he : ∀ o, (e o).circuit = o.circuit) (os : List Originated)
    (hnd : (os.map (·.circuit)).Nodup) : ∀ l : List HopEntry, (∀ o ∈ os, findHop l o.circuit = none) →
    (os.foldl (fun t o => putHop t (e o)) l).length = l.length + os.length ∧
      (∀ o ∈ os, findHop (os.foldl (fun t o => putHop t (e o)) l) o.circuit = some (e o)) ∧
      ∀ c, c ∉ os.map (·.circuit) → findHop (os.foldl (fun t o => putHop t (e o)) l) c = findHop l c := by
  induction os with
  | nil => exact fun l _ => ⟨rfl, fun _ ho => absurd ho List.not_mem_nil, fun _ _ => rfl⟩
  | cons a os ih =>
    intro l hnew
    rw [List.map_cons, List.nodup_cons] at hnd
    obtain ⟨hnotin, hnd⟩ := hnd
    have hfind (c : Nat) : findHop (putHop l (e a)) c = if c = a.circuit then some (e a) else findHop l c := by
      rw [findHop_putHop, he]
    obtain ⟨hlen, hheads, hothers⟩ := ih hnd (putHop l (e a)) fun o ho => by
      have hne : o.circuit ≠ a.circuit := fun heq => hnotin (List.mem_map.2 ⟨o, ho, heq⟩)
      rw [hfind, if_neg hne, hnew o (List.mem_cons_of_mem _ ho)]
    refine ⟨?_, fun o ho => ?_, fun c hc => ?_⟩
    · rw [List.foldl_cons, hlen, length_putHop (by rw [he]; exact hnew a List.mem_cons_self), List.length_cons]
      omega
    · rcases List.mem_cons.1 ho with rfl | ho
      · rw [List.foldl_cons, hothers _ hnotin, hfind, if_pos rfl]
      · exact hheads o ho
    · rw [List.map_cons, List.mem_cons, not_or] at hc
      rw [List.foldl_cons, hothers c hc.2, hfind, if_neg hc.1]

/-! ### The monitors take their inputs (R43, R44, log 27) -/

/-- The state a monitor in CLEAR enters when its input is asserted. -/
def assertedMonitor (s : State) : LossMonitor :=
  if s.image.holdOffCode = 0 then .loss else .lossPending (s.now + s.image.holdOffCode * 50)

/-- The alarms that these ports raise at once. -/
def assertedAlarms (s : State) (ps : List Nat) : List Alarm :=
  (if s.image.holdOffCode = 0 then ps.filter (!inOwnWindow s ·) else []).map fun p => ⟨.loss, ⟨s.image.station, p⟩⟩

theorem pendAlarm_of_new {a : Alarm} (h : ∀ b ∈ s.scanner.alarms, b.replacedBy a = false) :
    pendAlarm a s = s.setScanner { s.scanner with alarms := s.scanner.alarms ++ [a] } := by
  have hany : s.scanner.alarms.any (·.replacedBy a) = false := List.any_eq_false.2 fun b hb => by simp [h b hb]
  simp [pendAlarm, changeScanner, hany]

theorem monitorAsserted_of_clear (hclear : s.scanner.monitors.getD p .clear = .clear)
    (halarms : ∀ b ∈ s.scanner.alarms, b.span.port ≠ p) : monitorAsserted p s = s.setScanner { s.scanner with
      monitors := s.scanner.monitors.set p (assertedMonitor s)
      alarms := s.scanner.alarms ++ assertedAlarms s [p] } := by
  unfold monitorAsserted
  rw [hclear]
  by_cases hzero : s.image.holdOffCode = 0
  · simp only [holdOffMs, hzero, Nat.zero_mul, if_true, enterLoss, raiseSpanAlarm, assertedMonitor, assertedAlarms]
    have hown : inOwnWindow (setMonitor p .loss s) p = inOwnWindow s p := rfl
    rw [hown]
    split
    · rename_i hin
      simp [setMonitor, changeScanner, hin]
    · rename_i hout
      rw [pendAlarm_of_new]
      · simp [setMonitor, changeScanner, hout, State.own]
      · intro b hb
        simp [Alarm.replacedBy, halarms b hb]
  · simp [setMonitor, changeScanner, assertedMonitor, assertedAlarms, hzero, holdOffMs]

/-- Ports whose monitors are in CLEAR take their inputs one after the other. -/
theorem foldl_monitorAsserted (ps : List Nat) (hnd : ps.Nodup) : ∀ {s : State},
    (∀ p ∈ ps, s.scanner.monitors.getD p .clear = .clear) → (∀ b ∈ s.scanner.alarms, b.span.port ∉ ps) →
    ps.foldl (fun t p => monitorAsserted p t) s = s.setScanner { s.scanner with
      monitors := ps.foldl (fun l p => l.set p (assertedMonitor s)) s.scanner.monitors
      alarms := s.scanner.alarms ++ assertedAlarms s ps } := by
  induction ps with
  | nil =>
    intro s _ _
    simp [assertedAlarms]
    rfl
  | cons p ps ih =>
    intro s hclear halarms
    rw [List.nodup_cons] at hnd
    obtain ⟨hnotin, hnd⟩ := hnd
    have hfirst := monitorAsserted_of_clear (hclear p List.mem_cons_self)
      (fun b hb hport => halarms b hb (hport ▸ List.mem_cons_self))
    rw [List.foldl_cons, hfirst, ih hnd]
    · have hsplit : assertedAlarms s (p :: ps) = assertedAlarms s [p] ++ assertedAlarms s ps := by
        unfold assertedAlarms
        split
        · rw [← List.map_append, ← List.filter_append, List.singleton_append]
        · rfl
      rw [hsplit, List.foldl_cons, ← List.append_assoc]
      rfl
    · intro q hq
      have hne : p ≠ q := fun heq => hnotin (heq ▸ hq)
      simpa [List.getD_eq_getElem?_getD, List.getElem?_set, hne] using hclear q (List.mem_cons_of_mem _ hq)
    · intro b hb hport
      rcases List.mem_append.1 hb with hb | hb
      · exact halarms b hb (List.mem_cons_of_mem _ hport)
      · obtain ⟨q, hq, rfl⟩ := List.mem_map.1 hb
        have hqp : q = p := by
          split at hq
          · simpa using (List.mem_filter.1 hq).1
          · cases hq
        exact hnotin (hqp ▸ hport)

theorem foldl_set_clear (ps : List Nat) (m : LossMonitor) :
    ps.foldl (fun l p => l.set p m) (List.replicate 16 .clear) =
      (List.range 16).map fun p => if p ∈ ps then m else .clear := by
  have hget (ps : List Nat) : ∀ (l : List LossMonitor) (i : Nat), i < l.length →
      (ps.foldl (fun l p => l.set p m) l)[i]? = if i ∈ ps then some m else l[i]? := by
    induction ps with
    | nil => simp
    | cons p ps ih =>
      intro l i hi
      rw [List.foldl_cons, ih _ _ (by simpa using hi), List.getElem?_set]
      by_cases hin : i ∈ ps
      · simp [hin]
      · by_cases hp : p = i
        · subst hp
          simp [hi]
        · simp [hin, hp, Ne.symm hp]
  have hlen : (ps.foldl (fun l p => l.set p m) (List.replicate 16 LossMonitor.clear)).length = 16 :=
    List.foldlRecOn ps _ (motive := fun l : List LossMonitor => l.length = 16) rfl fun l hl p _ => by
      rw [List.length_set, hl]
  refine List.ext_getElem? fun i => ?_
  by_cases hi : i < 16
  · rw [hget ps _ i (by simpa using hi)]
    by_cases hin : i ∈ ps
    · simp [hi, hin]
    · rw [if_neg hin, List.getElem?_replicate, if_pos hi, List.getElem?_map, List.getElem?_range hi]
      simp [hin]
  · rw [List.getElem?_eq_none (by omega), List.getElem?_eq_none (by simp; omega)]

/-! ### The load -/

theorem endLoad_of_running {bytes : List Byte} (hrun : (checkImage (readImage bytes)).2.outcome = .running)
    (s : State) : endLoad bytes s = takeInputs (beginDwell (loadTaken bytes s)) := by
  simp only [endLoad, if_pos hrun, enterRunning, loadTaken]

/-- A new record, or the first census request for it (R22). -/
def startedRecord (im : Image) (o : Originated) : PathRecord :=
  { circuit := o.circuit, line := o.line, addPort := o.addPort
    state := if im.autoCensus then .queued .census else .idle
    origin := if im.autoCensus then some .start else none
    lastEpoch := 0, baseline := none, lastChain := none, lastVerdict := none, hold := [], owed := [] }

/-- The records and lists after the automatic census requests. -/
theorem autoCensus_of_new {os : List Originated} (hpaths : s.paths = os.map newRecord)
    (hnd : (os.map (·.circuit)).Nodup) : (autoCensus s).paths = os.map (startedRecord s.image) ∧
      (autoCensus s).sched = { s.sched with
        census := s.sched.census ++ if s.image.autoCensus then os.map (·.circuit) else [] } := by
  have horder : (pathOrder s).Nodup := by
    rw [pathOrder, hpaths, List.map_map]
    exact hnd
  unfold autoCensus
  split
  · rename_i hauto
    have hidle (o : Originated) : (newRecord o).state = .idle := rfl
    rw [requestAudits_pathOrder _ _ _ horder]
    constructor
    · simp only [afterRequests, State.setSched_fields, State.setPaths_fields, hpaths, List.map_map]
      refine List.map_congr_left fun o _ => ?_
      simp [newRecord, startedRecord, hauto]
    · simp [afterRequests, hpaths, List.filter_map, Function.comp_def, hidle]
      exact fun _ _ => rfl
  · rename_i hauto
    refine ⟨hpaths.trans (List.map_congr_left fun o _ => ?_), ?_⟩
    · simp [newRecord, startedRecord, hauto]
    · simp

theorem loadTaken_image (bytes : List Byte) (s : State) :
    (loadTaken bytes s).image = (checkImage (readImage bytes)).1 := by
  unfold loadTaken
  dsimp only
  split
  · simp [startServices, markLines]
  · simp [enterPassive]

section Loaded

variable {bytes : List Byte} (hrun : (checkImage (readImage bytes)).2.outcome = .running)
include hrun

/-- The tables that a load fills. -/
theorem loadTaken_tables (s : State) :
    (loadTaken bytes s).paths = (checkImage (readImage bytes)).1.originated.map
        (startedRecord (checkImage (readImage bytes)).1) ∧
      (loadTaken bytes s).sched = { s.sched with
        census := s.sched.census ++ (if (checkImage (readImage bytes)).1.autoCensus then
          (checkImage (readImage bytes)).1.originated.map (·.circuit) else [])
        admission := !(checkImage (readImage bytes)).1.startHeld
        shadow := !(checkImage (readImage bytes)).1.startHeld } ∧
      (loadTaken bytes s).lines = (checkImage (readImage bytes)).1.originated.foldl
        (fun l o => l.set o.line (some (o.circuit, 0))) (List.replicate 32 none) := by
  have himage : (markLines (loadTables (loadBase bytes s))).image = (checkImage (readImage bytes)).1 :=
    loadBase_image bytes s
  have hpaths : (markLines (loadTables (loadBase bytes s))).paths =
      (checkImage (readImage bytes)).1.originated.map newRecord := by
    rw [← loadBase_image bytes s]
    simp [markLines, loadTables]
  obtain ⟨hrecords, hsched⟩ := autoCensus_of_new hpaths (sound_of_running hrun).circuits
  have hbase : (markLines (loadTables (loadBase bytes s))).sched = s.sched := by
    simp [markLines, loadTables, loadBase]
  rw [himage] at hrecords hsched
  rw [hbase] at hsched
  rw [loadTaken_of_running hrun]
  refine ⟨(startServices_frame _).2.2.2.2.2.2.2.2.1.trans hrecords, ?_, ?_⟩
  · have hstart (u : State) : (startServices u).sched =
        { u.sched with admission := !u.image.startHeld, shadow := !u.image.startHeld } := rfl
    have hcensus (u : State) : (autoCensus u).image = u.image := by simp
    rw [hstart, hcensus, himage, hsched]
  · rw [← loadBase_image bytes s]
    simp [markLines, loadTables]

theorem loadTaken_rosterUnit (s : State) : (loadTaken bytes s).roster = { s.roster with joinRequest := true } := by
  rw [loadTaken_of_running hrun]
  have hstart (u : State) : (startServices u).roster = { u.roster with joinRequest := true } := rfl
  rw [hstart]
  simp [markLines, loadTables, loadBase]

end Loaded

/-- The walk begins, from a scanner at its power-on values. -/
theorem beginDwell_of_reset (h : s.scanner = scannerReset) : beginDwell s = s.setScanner { s.scanner with
    walkPort := (List.range 16).find? (fun p => s.image.classAt p != .unused)
    dwell := ((List.range 16).find? (fun p => s.image.classAt p != .unused)).map fun p =>
      { port := p, outOfTurn := false, wanted := false, ends := s.now + dwellMs s.image.dwellCode } } := by
  have hrequest : s.scanner.request = none := by rw [h]; rfl
  have hnext : nextWalkPort s.image s.scanner.walkPort =
      (List.range 16).find? (fun p => s.image.classAt p != .unused) := by
    rw [h]
    exact List.head?_filter
  unfold beginDwell
  rw [hrequest]
  dsimp only
  rw [hnext]
  cases (List.range 16).find? (fun p => s.image.classAt p != .unused) with
  | some p => rfl
  | none =>
    have hsame : { s.scanner with walkPort := none, dwell := none } = s.scanner := by rw [h]; rfl
    exact (congrArg s.setScanner hsame).symm

/-- The LINE-IN ports whose input is asserted. -/
def assertedPorts (s : State) : List Nat :=
  (List.range 16).filter fun p => s.image.classAt p == .lineIn && portIn s.lossInputs p

theorem takeInputs_of_reset (h : s.scanner.monitors = List.replicate 16 .clear) (halarms : s.scanner.alarms = []) :
    takeInputs s = s.setScanner { s.scanner with
      monitors := (List.range 16).map fun p => if p ∈ assertedPorts s then assertedMonitor s else .clear
      alarms := assertedAlarms s (assertedPorts s) } := by
  have hnd : (assertedPorts s).Nodup := List.nodup_range.filter _
  rw [takeInputs]
  change (assertedPorts s).foldl (fun t p => monitorAsserted p t) s = _
  rw [foldl_monitorAsserted _ hnd (fun p hp => ?_) (by simp [halarms]), h, halarms,
    foldl_set_clear, List.nil_append]
  rw [h, List.getD_replicate _ (List.mem_range.1 (List.mem_filter.1 hp).1)]

theorem scanner_rest {x y : TagScanner} (hrequest : x.request = y.request) (hwatch : x.watch = y.watch)
    (hbacklog : x.backlog = y.backlog) (hstrays : x.strays = y.strays) : x = { y with
      walkPort := x.walkPort, dwell := x.dwell, monitors := x.monitors, alarms := x.alarms } := by
  cases x
  cases y
  simp_all

theorem getD_untouched {os : List Originated} {n : Nat} (h : ∀ o ∈ os, o.line ≠ n) :
    ∀ l : List (Option (Nat × Nat)),
      (os.foldl (fun l o => l.set o.line (some (o.circuit, 0))) l).getD n none = l.getD n none := by
  induction os with
  | nil => exact fun _ => rfl
  | cons o os ih =>
    intro l
    rw [List.foldl_cons, ih (fun x hx => h x (List.mem_cons_of_mem _ hx)), List.getD_eq_getElem?_getD,
      List.getElem?_set, if_neg (h o List.mem_cons_self), ← List.getD_eq_getElem?_getD]

/-- Settles O21: each block after the load, in the order in which the load fills them. -/
theorem runningTakesUpTheImage : Obligations.RunningTakesUpTheImage := by
  intro image s hstart hcommand hsched hscanner hrun
  have hsound := sound_of_running hrun
  obtain ⟨hpaths, hlists, hlines⟩ := loadTaken_tables hrun s
  have himage := loadTaken_image image s
  have hkeeps := loadTaken_keeps image s
  obtain ⟨hwindows, hscan, hprobes, hnow, _, _, _, _, hloop⟩ := hkeeps
  have hpins : (loadTaken image s).lossInputs = s.lossInputs := by
    rw [loadTaken_of_running hrun]
    simp [markLines, loadTables, loadBase]
  have hbegin := beginDwell_of_reset (hscan.trans hscanner)
  have hmonitors : (beginDwell (loadTaken image s)).scanner.monitors = List.replicate 16 .clear := by
    rw [hbegin, hscan, hscanner]
    rfl
  have halarms : (beginDwell (loadTaken image s)).scanner.alarms = [] := by
    rw [hbegin, hscan, hscanner]
    rfl
  have htaken := takeInputs_of_reset hmonitors halarms
  obtain ⟨hlen, hheads, _⟩ := foldl_putHop (headEntry (checkImage (readImage image)).1.station) (fun _ => rfl) _
    hsound.circuits [] fun _ _ => rfl
  rw [← loadTaken_hops hrun s] at hlen hheads
  refine ⟨_, (exec_loadEnd_of_no_command image hstart hcommand).trans (congrArg _ (endLoad_of_running hrun s)), ?_⟩
  have hafter : (takeInputs (beginDwell (loadTaken image s))).image = (checkImage (readImage image)).1 := by
    simp [himage]
  have hports : assertedPorts (beginDwell (loadTaken image s)) = (List.range 16).filter fun p =>
      (checkImage (readImage image)).1.classAt p == .lineIn && portIn s.lossInputs p := by
    simp [assertedPorts, himage, hpins]
  have hmonitor : assertedMonitor (beginDwell (loadTaken image s)) =
      if (checkImage (readImage image)).1.holdOffCode = 0 then .loss
      else .lossPending (s.now + (checkImage (readImage image)).1.holdOffCode * 50) := by
    simp [assertedMonitor, himage]
  have hwalk : (takeInputs (beginDwell (loadTaken image s))).scanner.walkPort =
      (List.range 16).find? fun p => (checkImage (readImage image)).1.classAt p != .unused := by
    rw [htaken, hbegin, himage]
    rfl
  have hhops : (takeInputs (beginDwell (loadTaken image s))).hops = (loadTaken image s).hops := by simp
  have hpins' : (takeInputs (beginDwell (loadTaken image s))).paths = (loadTaken image s).paths ∧
      (takeInputs (beginDwell (loadTaken image s))).lines = (loadTaken image s).lines ∧
      (takeInputs (beginDwell (loadTaken image s))).sched = (loadTaken image s).sched := by simp
  obtain ⟨hpathsEnd, hlinesEnd, hschedEnd⟩ := hpins'
  rw [hafter, hhops, hpathsEnd, hlinesEnd, hschedEnd, hlines, hlists, hwalk]
  refine ⟨?_, ?_, ?_, ?_, ?_, ?_, ?_, ?_, ?_, ?_, ?_, ?_, ?_, ?_, ?_, ?_, ?_⟩
  · rw [loadTaken_of_running hrun]
    simp [markLines, loadTables, loadBase]
  · rw [← endLoad_of_running hrun s, endLoad_finding]
    exact hrun
  · simpa using hlen
  · exact hheads
  · exact hpaths
  · rw [hsched]
    rfl
  · intro o ho
    exact getD_markLines hsound.lines ho (by simpa using hsound.line o ho)
  · intro n hlt hn
    rw [getD_untouched hn, List.getD_replicate _ (List.mem_range.1 hlt)]
  · rfl
  · rw [htaken, hbegin, himage, hnow]
    rfl
  · rw [htaken, hports, hmonitor]
    refine List.map_congr_left fun p hp => ?_
    simp [List.mem_range.1 hp]
  · have hown (p : Nat) : inOwnWindow (takeInputs (beginDwell (loadTaken image s))) p =
        inOwnWindow (beginDwell (loadTaken image s)) p := by simp [inOwnWindow, State.own]
    simp only [hown]
    rw [htaken]
    simp only [State.setScanner_fields, assertedAlarms, hports, List.filter_filter, beginDwell_frame, himage]
    split
    · refine congrArg (List.map _) (congrArg (List.filter · _) (funext fun p => ?_))
      rw [Bool.and_comm]
    · rfl
  · rw [← hwalk]
    exact scanner_rest (by rw [htaken, hbegin, hscan]; rfl) (by rw [htaken, hbegin, hscan]; rfl)
      (by rw [htaken, hbegin, hscan]; rfl) (by rw [htaken, hbegin, hscan]; rfl)
  · rw [← loadTaken_rosterUnit hrun s]
    simp
  · simp
  · simp
  · simp

end Sys2Proof.Machine
end

