-- ==== Sys2Proof/Proofs/Gate.lean ====
section
/-! The run-state gate, and a command held through a load (R172, R174, R179, R188). -/

namespace Sys2Proof.Machine

variable {s t : State} {c : Instr}

/-! ### Commands and the gate -/

/-- Each command of the Control Port but RESTART is served under the gate. -/
theorem serveHeld_gate (hc : controlCommand c = true) (hne : c ≠ .restart) :
    ∃ serve, ∀ s, serveHeld c s = gate c (servedInPassive c) serve s := by
  cases c
  case restart => exact absurd rfl hne
  case status | clearAlerts | clearFaults | setAlertMask | openWindow | closeWindow | cancelWindow | audit | census |
      holdAudits | releaseAudits | sweep | readReport | readCircuit | readWindows | readRoster | readPort |
      loopReset => exact ⟨_, fun _ => rfl⟩
  all_goals exact absurd hc (by simp [controlCommand, frameOfCommand])

theorem exec_command (hc : controlCommand c = true) (hne : c ≠ .restart) (s : State) :
    exec c s = .next (serveHeld c (intakeCommand c s)) := by
  cases c
  case restart => exact absurd rfl hne
  case status | clearAlerts | clearFaults | setAlertMask | openWindow | closeWindow | cancelWindow | audit | census |
      holdAudits | releaseAudits | sweep | readReport | readCircuit | readWindows | readRoster | readPort |
      loopReset => rfl
  all_goals exact absurd hc (by simp [controlCommand, frameOfCommand])

theorem heldCommand_eq (c : Instr) (s : State) : heldCommand c s = intakeCommand c s := rfl

theorem answered_eq (c : Instr) (r : ResultCode) (d : ResponseData) (s : State) :
    answered c (((frameOfCommand c).getD []).headD 0) r d s =
      answer c ⟨r, d, intakeCommand c s⟩ := rfl

/-! ### The load does not look at the Control Port -/

/-- The Control Port is no part of what a function reads or changes. -/
def PortBlind (f : State → State) : Prop := ∀ s x, f (s.setCtl x) = (f s).setCtl x

theorem PortBlind.comp {f h : State → State} (hf : PortBlind f) (hh : PortBlind h) : PortBlind fun s => f (h s) :=
  fun s x => (congrArg f (hh s x)).trans (hf _ x)

theorem PortBlind.foldl {α : Type} {f : State → α → State} (hf : ∀ a, PortBlind fun s => f s a) (l : List α) :
    PortBlind fun s => l.foldl f s := by
  induction l with
  | nil => exact fun _ _ => rfl
  | cons a l ih =>
    intro s x
    simp only [List.foldl_cons]
    rw [show f (s.setCtl x) a = (f s a).setCtl x from hf a s x]
    exact ih _ x

theorem portBlind_requestAudit (c : Nat) (m : Mode) (o : Origin) : PortBlind (requestAudit c m o) := by
  intro s x
  have hfind : findPath (s.setCtl x) c = findPath s c := rfl
  unfold requestAudit
  rw [hfind]
  cases findPath s c with
  | none => rfl
  | some r =>
    dsimp only
    split
    · cases requestMode r m <;> rfl
    · rfl

theorem portBlind_autoCensus : PortBlind autoCensus := by
  intro s x
  unfold autoCensus
  have hsame : (s.setCtl x).image = s.image := rfl
  rw [hsame]
  split
  · exact PortBlind.foldl (fun c => portBlind_requestAudit c .census .start) (pathOrder s) s x
  · rfl

theorem portBlind_beginDwell : PortBlind beginDwell := by
  intro s x
  unfold beginDwell
  simp only [State.setCtl_fields]
  split
  · rfl
  · split <;> rfl

theorem portBlind_monitorAsserted (p : Nat) : PortBlind (monitorAsserted p) := by
  intro s x
  have hraise (u : State) : raiseSpanAlarm .loss p (u.setCtl x) = (raiseSpanAlarm .loss p u).setCtl x := by
    unfold raiseSpanAlarm
    have hown : inOwnWindow (u.setCtl x) p = inOwnWindow u p := rfl
    rw [hown]
    split <;> rfl
  unfold monitorAsserted
  simp only [State.setCtl_fields]
  split
  · split
    · exact hraise (setMonitor p .loss s)
    · rfl
  · rfl
  · rfl
  · rfl

theorem portBlind_takeInputs : PortBlind takeInputs := fun s x =>
  PortBlind.foldl (fun p => portBlind_monitorAsserted p)
    ((List.range 16).filter fun p => s.image.classAt p == .lineIn && portIn s.lossInputs p) s x

theorem portBlind_enterRunning : PortBlind enterRunning := by
  have hfill : PortBlind fun s => markLines (loadTables (s.setRunState .running)) := fun _ _ => rfl
  have hstart : PortBlind startServices := fun _ _ => rfl
  exact portBlind_takeInputs.comp (portBlind_beginDwell.comp (hstart.comp (portBlind_autoCensus.comp hfill)))

/-- A state with another held command. -/
def withCommand (x : Option Instr) (s : State) : State := s.setCtl { s.ctl with command := x }

theorem enterRunning_ctl (s : State) : (enterRunning s).ctl = s.ctl := by
  simp [enterRunning, startServices, markLines]

theorem endLoad_withCommand (bytes : List Byte) (x : Option Instr) (s : State) :
    endLoad bytes (withCommand x s) = withCommand x (endLoad bytes s) := by
  have hflags (f : LoadFinding) (u : State) : loadFlags f (withCommand x u) = withCommand x (loadFlags f u) := by
    unfold loadFlags
    split <;> split <;> rfl
  simp only [endLoad]
  have hbase : ((withCommand x s).setImage (checkImage (readImage bytes)).1).setFinding (checkImage (readImage bytes)).2 =
      withCommand x ((s.setImage (checkImage (readImage bytes)).1).setFinding (checkImage (readImage bytes)).2) := rfl
  rw [hbase, hflags]
  split
  · rw [withCommand, portBlind_enterRunning, withCommand, enterRunning_ctl]
  · rfl

/-- At the end of a load no dwell is wanted by a READ PORT. -/
theorem noneWanted_endLoad (bytes : List Byte) (h : s.scanner.noneWanted) : (endLoad bytes s).scanner.noneWanted := by
  obtain ⟨hrequest, hdwell⟩ := h
  by_cases hrun : (checkImage (readImage bytes)).2.outcome = .running
  · have hscan := (loadTaken_keeps bytes s).2.1
    have hbegin : (beginDwell (loadTaken bytes s)).scanner.noneWanted := by
      unfold beginDwell
      rw [hscan, hrequest]
      dsimp only
      split
      · exact ⟨by simp [startDwell, changeScanner, hrequest], rfl⟩
      · rw [hscan]
        exact ⟨hrequest, hdwell⟩
    rw [endLoad_of_running hrun]
    have hkeeps : (takeInputs (beginDwell (loadTaken bytes s))).scanner.request =
          (beginDwell (loadTaken bytes s)).scanner.request ∧
        (takeInputs (beginDwell (loadTaken bytes s))).scanner.dwell =
          (beginDwell (loadTaken bytes s)).scanner.dwell := by
      refine ⟨foldl_keeps _ _ _ (fun u : State => u.scanner.request) fun u p => ?_,
        foldl_keeps _ _ _ (fun u : State => u.scanner.dwell) fun u p => ?_⟩
      all_goals
        unfold monitorAsserted enterLoss raiseSpanAlarm
        repeat' split
        all_goals rfl
    unfold TagScanner.noneWanted
    rw [hkeeps.1, hkeeps.2]
    exact hbegin
  · have hscan := (endLoad_of_fatal hrun s).2.2.2.1
    rw [hscan]
    exact ⟨hrequest, hdwell⟩

theorem endLoad_port (bytes : List Byte) (s : State) : (endLoad bytes s).ctl.response = s.ctl.response ∧
    (endLoad bytes s).ctl.reportHeld = s.ctl.reportHeld := by
  rw [endLoad_ctl, loadFlags]
  split <;> split <;> exact ⟨rfl, rfl⟩

/-- A held command is served as one taken at the end of the load. -/
theorem intakeCommand_endLoad (bytes : List Byte) (hcommand : s.ctl.command = some c) (hresponse : s.ctl.response = none)
    (hheld : s.ctl.reportHeld = false) (hwanted : s.scanner.noneWanted) :
    intakeCommand c (endLoad bytes (withCommand none s)) = endLoad bytes s := by
  obtain ⟨hrequest, hdwell⟩ := noneWanted_endLoad bytes hwanted
  obtain ⟨hresponse', hheld'⟩ := endLoad_port bytes s
  have hcommand' := command_endLoad bytes s
  rw [endLoad_withCommand]
  have hdwell' : (endLoad bytes s).scanner.dwell.map Dwell.unwanted = (endLoad bytes s).scanner.dwell := by
    cases hd : (endLoad bytes s).scanner.dwell with
    | none => rfl
    | some d =>
      have hnot : d.wanted = false := by simpa [hd] using hdwell
      simp [Dwell.unwanted, ← hnot]
  have hscan : { (endLoad bytes s).scanner with
      request := none, dwell := (endLoad bytes s).scanner.dwell.map Dwell.unwanted } = (endLoad bytes s).scanner := by
    rw [hdwell', ← hrequest]
  have hctl : { (endLoad bytes s).ctl with command := some c, response := none, reportHeld := false } =
      (endLoad bytes s).ctl := by
    rw [← hcommand, ← hcommand', ← hresponse, ← hresponse', ← hheld, ← hheld']
  calc intakeCommand c (withCommand none (endLoad bytes s))
      = ((endLoad bytes s).setScanner { (endLoad bytes s).scanner with
          request := none, dwell := (endLoad bytes s).scanner.dwell.map Dwell.unwanted }).setCtl
          { (endLoad bytes s).ctl with command := some c, response := none, reportHeld := false } := rfl
    _ = endLoad bytes s := by
      rw [hscan, hctl]
      rfl

/-- The command that was held is served at the end of the load. -/
theorem exec_loadEnd_of_held (bytes : List Byte) (hstart : s.runState = .starting) (hresponse : s.ctl.response = none)
    (hcommand : s.ctl.command = some c) : exec (.loadEnd bytes) s = .next (serveHeld c (endLoad bytes s)) := by
  rw [exec_loadEnd_of_starting bytes hstart, servePending, command_endLoad, (endLoad_port bytes s).1, hcommand, hresponse]

theorem runState_endLoad_ne (bytes : List Byte) (s : State) : (endLoad bytes s).runState ≠ .starting := by
  rw [endLoad_runState]
  split <;> decide

/-- No record is held while there is no response. -/
theorem reportHeld_of_no_response (h : ReportsOk s) (hresponse : s.ctl.response = none) : s.ctl.reportHeld = false := by
  obtain ⟨_, _, hheld, _⟩ := h
  by_contra hne
  have hhead := (hheld (by simpa using hne)).1
  unfold ControlPort.headAnswered at hhead
  rw [hresponse] at hhead
  simp at hhead

/-- Settles O22: the gate in each run state, and the held command as one taken after the load. -/
theorem commandsPassTheRunStateGate : Obligations.CommandsPassTheRunStateGate := by
  refine ⟨fun c s hc hne hstart => ?_, fun c s hc hserved hpassive => ?_, fun f s hf hvalid => ?_,
    fun image c s hstart hresponse hcommand hc => ?_⟩
  · obtain ⟨serve, hserve⟩ := serveHeld_gate hc hne
    rw [exec_command hc hne, hserve, heldCommand_eq, gate]
    simp [intakeCommand, changeScanner, hstart]
  · have hne : c ≠ .restart := fun he => by simp [he, servedInPassive] at hserved
    obtain ⟨serve, hserve⟩ := serveHeld_gate hc hne
    have hrun : (intakeCommand c s).runState = .passive := hpassive
    rw [exec_command hc hne, hserve, answered_eq, gate, hrun, hserved]
    rfl
  · change execInvalidCommandFrame f s = _
    rw [execInvalidCommandFrame, if_neg (by simp [hf, hvalid])]
    rfl
  · refine ⟨_, exec_loadEnd_of_held image hstart hresponse hcommand, fun he => ?_, fun hne hok => ?_,
      fun hserved hpassive => ?_⟩
    · rw [he]
      rfl
    · have hblind := exec_loadEnd_of_no_command image (s := withCommand none s) hstart rfl
      refine ⟨_, hblind, runState_endLoad_ne image _, ?_⟩
      rw [exec_command hc hne, intakeCommand_endLoad image hcommand hresponse (reportHeld_of_no_response hok hresponse)
        (hok.2.2.2 hstart)]
      exact exec_loadEnd_of_held image hstart hresponse hcommand
    · have hne : c ≠ .restart := fun he => by simp [he, servedInPassive] at hserved
      obtain ⟨serve, hserve⟩ := serveHeld_gate hc hne
      obtain ⟨hrun, _⟩ := loaded_eq_iff.1 (serveHeld_loaded c (endLoad image s))
      rw [hrun] at hpassive
      rw [hserve, gate, hpassive, hserved]
      rfl

end Sys2Proof.Machine
end

