-- ==== Sys2Proof/Proofs/Reading.lean ====
section
/-! The commands that read, the flags and masks, the report queue and its frames (R172, R173, R175, R180 to R185, R198). -/

namespace Sys2Proof.Machine

variable {s : State} {c : Instr}

/-! ### The gate taken -/

/-- A command served in PASSIVE is served in every run state but STARTING. -/
theorem gate_of_taken {serve : State → State} (h : s.runState ≠ .starting) : gate c true serve s = serve s := by
  unfold gate
  cases hrun : s.runState with
  | starting => exact absurd hrun h
  | running => rfl
  | passive => rfl

/-! ### STATUS, READ CIRCUIT, READ WINDOWS and READ ROSTER -/

theorem runView_eq (r : Run) : runView r =
    { span := r.span, entries := r.entries.length
      waiting := r.entries.countP (·.standing == .waiting)
      launched := r.entries.countP (·.standing == .launched)
      survived := r.entries.countP fun e => e.standing == .credited .pass ||
        e.standing == .credited .degraded || e.standing == .credited .rerouted
      broken := r.entries.countP fun e => e.standing == .credited .broken ||
        e.standing == .credited .misrouted || e.standing == .credited .conflict
      incomplete := r.entries.countP (·.standing == .credited .incomplete)
      handedOn := r.entries.countP (·.standing == .handedOn)
      deferred := r.entries.countP (·.standing == .deferred) } := by
  have hcount (p : Verdict → Bool) (q : RunStanding → Bool) (h : ∀ x, x.verdict.any p = q x) :
      r.countVerdicts p = r.entries.countP fun e => q e.standing := by
    simp only [Run.countVerdicts, h]
  rw [runView, hcount Verdict.survived
      (fun x => x == .credited .pass || x == .credited .degraded || x == .credited .rerouted),
    hcount Verdict.countsBroken
      (fun x => x == .credited .broken || x == .credited .misrouted || x == .credited .conflict),
    hcount (· == .incomplete) (fun x => x == .credited .incomplete)]
  · rfl
  · rintro (_ | _ | v | _ | _)
    case credited => cases v <;> rfl
    all_goals rfl
  · rintro (_ | _ | v | _ | _)
    case credited => cases v <;> rfl
    all_goals rfl
  · rintro (_ | _ | v | _ | _)
    case credited => cases v <;> rfl
    all_goals rfl

/-- Settles O23: each answer is of the state as it stands. -/
theorem readingCommandsChangeNothing : Obligations.ReadingCommandsChangeNothing := by
  refine ⟨fun s hs => ⟨?_, ?_⟩, fun s hrun => ?_, fun w s hrun => ⟨fun hlo hhi => ?_, fun hout => ?_⟩⟩
  · have htaken : exec .status s = .next (answer .status (serveStatus (intakeCommand .status s))) :=
      congrArg Host.Outcome.next (gate_of_taken (s := intakeCommand .status s) hs)
    rw [htaken, serveStatus, statusData]
    simp only [← runView_eq]
    rfl
  · exact congrArg Host.Outcome.next (gate_of_taken (s := intakeCommand .readRoster s) hs)
  · exact congrArg Host.Outcome.next (gate_of_running hrun)
  · have htaken : exec (.readCircuit w) s = .next (answer (.readCircuit w)
        (serveReadCircuit w (intakeCommand (.readCircuit w) s))) := congrArg Host.Outcome.next (gate_of_running hrun)
    have hok : circuitOk w = true := by simp [circuitOk, hlo, hhi]
    rw [htaken, serveReadCircuit, hok]
    rfl
  · have htaken : exec (.readCircuit w) s = .next (answer (.readCircuit w)
        (serveReadCircuit w (intakeCommand (.readCircuit w) s))) := congrArg Host.Outcome.next (gate_of_running hrun)
    have hbad : circuitOk w = false := by
      simp only [circuitOk, Bool.and_eq_false_iff, decide_eq_false_iff_not]
      omega
    rw [htaken, serveReadCircuit, hbad]
    rfl

/-! ### Flags and masks -/

/-- The named flags that stay: FAULT over a fault flag, REPORT at the threshold (R182). -/
theorem clearable_bit (f : Byte) (s : State) (x : Alert) : (clearable s (f.setWidth 7)).getLsbD x.bit =
    (f.getLsbD x.bit && !(x == .fault && s.ctl.faults != 0) &&
      !(x == .report && decide (s.image.reportThreshold ≤ s.ctl.queue.length))) := by
  have hfault : (if s.ctl.faults = 0 then 0 else BitVec.twoPow 7 Alert.fault.bit).getLsbD x.bit =
      (x == .fault && s.ctl.faults != 0) := by
    split
    · rename_i h
      simp [h]
    · rename_i h
      have hne : (s.ctl.faults != 0) = true := by simpa using h
      rw [hne]
      cases x <;> rfl
  have hreport : (if atThreshold s then BitVec.twoPow 7 Alert.report.bit else 0).getLsbD x.bit =
      (x == .report && decide (s.image.reportThreshold ≤ s.ctl.queue.length)) := by
    rw [atThreshold]
    split
    · rename_i h
      rw [h]
      cases x <;> rfl
    · rename_i h
      simp [h]
  have hlt : x.bit < 7 := by cases x <;> decide
  rw [clearable, BitVec.getLsbD_and, BitVec.getLsbD_and, BitVec.getLsbD_not, BitVec.getLsbD_not, hfault, hreport,
    BitVec.getLsbD_setWidth]
  simp [hlt]

theorem alertLine_eq (x : ControlPort) :
    x.alertLine = alertFlags.any fun a => x.alertSet a && x.masks.getLsbD a.bit := by
  rw [Bool.eq_iff_iff, ControlPort.alertLine, bne_iff_ne, List.any_eq_true]
  constructor
  · intro hne
    by_contra hnone
    refine hne (BitVec.eq_of_getLsbD_eq fun i hi => ?_)
    have hbit (a : Alert) : (x.alerts &&& x.masks).getLsbD a.bit = false := by
      rw [BitVec.getLsbD_and]
      by_contra hset
      exact hnone ⟨a, by cases a <;> decide, by simpa [ControlPort.alertSet] using hset⟩
    change _ = (0#7).getLsbD i
    rw [BitVec.getLsbD_zero]
    obtain ⟨a, rfl⟩ : ∃ a : Alert, a.bit = i := by
      interval_cases i
      exacts [⟨.report, rfl⟩, ⟨.fault, rfl⟩, ⟨.loop, rfl⟩, ⟨.roster, rfl⟩, ⟨.grade, rfl⟩, ⟨.reset, rfl⟩,
        ⟨.configWarn, rfl⟩]
    exact hbit a
  · rintro ⟨a, _, hset⟩ hzero
    have hbit : (x.alerts &&& x.masks).getLsbD a.bit = true := by rwa [BitVec.getLsbD_and]
    rw [hzero] at hbit
    exact absurd hbit (by simp)

/-- Settles O24: the flags bit by bit. -/
theorem clearsAndMasksActOnTheNamedFlags : Obligations.ClearsAndMasksActOnTheNamedFlags := by
  refine ⟨fun f s hs => ⟨?_, ?_⟩, fun f s hrun => ?_, fun s => ?_⟩
  · refine ⟨_, congrArg Host.Outcome.next (gate_of_taken (s := intakeCommand (.clearAlerts f) s) hs), rfl,
      fun x _ => ?_⟩
    change (s.ctl.alerts &&& ~~~(clearable (intakeCommand (.clearAlerts f) s) (f.setWidth 7))).getLsbD x.bit = _
    have hlt : x.bit < 7 := by cases x <;> decide
    rw [BitVec.getLsbD_and, BitVec.getLsbD_not, clearable_bit, decide_eq_true hlt, Bool.true_and, Bool.not_and,
      Bool.not_and, Bool.not_not, Bool.not_not]
    rfl
  · refine ⟨_, congrArg Host.Outcome.next (gate_of_taken (s := intakeCommand (.clearFaults f) s) hs), rfl,
      fun x _ => ?_⟩
    change (s.ctl.faults &&& ~~~(f.setWidth 6)).getLsbD x.bit = _
    have hlt : x.bit < 6 := by cases x <;> decide
    rw [BitVec.getLsbD_and, BitVec.getLsbD_not, BitVec.getLsbD_setWidth]
    simp [hlt, ControlPort.faultSet]
  · refine ⟨_, congrArg Host.Outcome.next (gate_of_running hrun), rfl, fun x _ => ?_⟩
    change (f.setWidth 7).getLsbD x.bit = _
    have hlt : x.bit < 7 := by cases x <;> decide
    rw [BitVec.getLsbD_setWidth]
    simp [hlt]
  · exact alertLine_eq s.ctl

/-! ### Posts (R180, R183) -/

/-- Settles O25: a post with room, a post to a full queue, and the timer's end. -/
theorem postsJoinTheReportQueue : Obligations.PostsJoinTheReportQueue := by
  refine ⟨fun r s hroom => ?_, fun r s hfull => ?_, fun due s hdue => ?_⟩
  · rw [postReport, if_pos (show s.ctl.queue.length < Config.reportCapacity from hroom), keepReport]
    have hthreshold (u : State) : atThreshold (u.setCtl { u.ctl with
        queue := u.ctl.queue ++ [(u.ctl.reportNumber, r)]
        reportNumber := (u.ctl.reportNumber + 1) % 256
        coalescing := coalesceAfterPost u
        postedSinceRead := true }) = decide (u.image.reportThreshold ≤ u.ctl.queue.length + 1) := by
      simp [atThreshold]
    dsimp only
    rw [hthreshold]
    simp only [coalesceAfterPost, Nat.pos_iff_ne_zero, decide_eq_true_eq]
    split
    · rfl
    · rfl
  · rw [postReport, if_neg (show ¬ s.ctl.queue.length < Config.reportCapacity from Nat.not_lt.2 hfull)]
    rfl
  · change execCoalescingTimerExpiry s = _
    rw [execCoalescingTimerExpiry, hdue]
    rfl

/-! ### Records and frames (R173, R181, R198) -/

theorem partBytes_eq {α : Type} (f : α → List Byte) (o : Option α) : partBytes f o = o.toList.flatMap f := by
  cases o with
  | none => rfl
  | some x => simp [partBytes]

theorem serveReadReport_of_cons {n : Nat} {r : Report} {rest : List (Nat × Report)} (h : s.ctl.queue = (n, r) :: rest) :
    serveReadReport s = ⟨.done, .report n r, s.setCtl { s.ctl with
      coalescing := none, postedSinceRead := false, reportHeld := true }⟩ := by
  simp only [serveReadReport]
  split
  · rename_i hnil
    rw [h] at hnil
    cases hnil
  · rename_i hcons
    rw [h] at hcons
    cases hcons
    rfl

theorem serveReadReport_of_nil (h : s.ctl.queue = []) : serveReadReport s =
    ⟨.done, .noReport s.ctl.reportNumber, s.setCtl { s.ctl with coalescing := none, postedSinceRead := false }⟩ := by
  simp only [serveReadReport]
  split
  · rfl
  · rename_i hcons
    rw [h] at hcons
    cases hcons

theorem readBytes_of_response {a : Response} (k : Nat) (h : s.ctl.response = some a) :
    readBytes s k = (List.range k).map fun i => (a.frame s.image.station).getD i 0 := by
  rw [readBytes, h]
  rfl

/-- A read returns the frame, as far as it reaches. -/
theorem take_padded (l : List Byte) (k : Nat) : ((List.range k).map fun i => l.getD i 0).take l.length = l.take k := by
  refine List.ext_getElem (by simp [Nat.min_comm]) fun i hi hi' => ?_
  have hlt : i < l.length := by simp at hi; omega
  simp [hlt]

/-- Beyond the frame a read returns 00h. -/
theorem drop_padded (l : List Byte) (k : Nat) :
    ∀ b ∈ ((List.range k).map fun i => l.getD i 0).drop l.length, b = 0 := by
  intro b hb
  obtain ⟨i, hi, rfl⟩ := List.mem_iff_getElem.1 hb
  simp

theorem boolNat_eq (b : Bool) : boolNat b = b.toNat := by cases b <;> rfl

theorem partBytes_map {α : Type} (f : α → Byte) (o : Option α) : partBytes (fun x => [f x]) o = o.toList.map f := by
  cases o <;> rfl

theorem verdictBody_eq (v : VerdictRecord) : (Report.verdict v).body =
    [byte ((v.epoch * 4096 + v.circuit) / 256), byte ((v.epoch * 4096 + v.circuit) % 256),
     match v.mode with
      | .census => 0 | .routine => 1 | .sweep => 2,
     match v.verdict with
      | .conflict => 0 | .misrouted => 1 | .pass => 2 | .degraded => 3 | .rerouted => 4 | .incomplete => 5
      | .broken => 6 | .baselined => 7,
     byte (v.flags.leak.toNat + 2 * v.flags.overlap.toNat + 4 * v.flags.poolShort.toNat +
       8 * v.flags.lowGrade.toNat)] ++
    (match v.origin with
      | none => [0, 0, 0] | some .start => [1, 0, 0] | some .command => [2, 0, 0]
      | some (.window ser) => [3, byte ser.opener, byte ser.seq]
      | some .stray => [4, 0, 0] | some .restore => [5, 0, 0] | some .rejoin => [6, 0, 0]
      | some .reset => [7, 0, 0] | some (.sweep sp) => [8, byte sp.station, byte sp.port]) ++
    [byte v.hopCount, byte v.mismatches,
     byte (v.landing.isSome.toNat + 2 * v.loopStation.isSome.toNat + 4 * v.lastGood.isSome.toNat +
       8 * v.hopsShort.isSome.toNat + 16 * v.stubPoint.isSome.toNat + 32 * v.reason.isSome.toNat +
       64 * (v.blind != 0).toNat + 128 * (v.leaks != []).toNat)] ++
    (v.landing.toList.flatMap fun x => [byte x.1, byte x.2]) ++ v.loopStation.toList.map byte ++
    (v.lastGood.toList.flatMap fun x => [byte x.1, byte x.2]) ++ v.hopsShort.toList.map byte ++
    (v.stubPoint.toList.flatMap fun x => [byte x.1, byte x.2]) ++
    (v.reason.toList.map fun x => byte (match x with
      | .blind => 0 | .absent => 1 | .pool => 2 | .loop => 3)) ++
    (if v.blind = 0 then []
      else [byte (v.blind.toNat / 65536), byte (v.blind.toNat / 256), byte v.blind.toNat]) ++
    (if v.leaks = [] then [] else byte v.leaks.length :: v.leaks.flatMap fun x => [byte x.1, byte x.2]) := by
  have hmode : byte v.mode.code = (match v.mode with
      | .census => 0 | .routine => 1 | .sweep => 2 : Byte) := by cases v.mode <;> rfl
  have hverdict : byte v.verdict.code = (match v.verdict with
      | .conflict => 0 | .misrouted => 1 | .pass => 2 | .degraded => 3 | .rerouted => 4 | .incomplete => 5
      | .broken => 6 | .baselined => 7 : Byte) := by cases v.verdict <;> rfl
  have horigin : originBytes v.origin = (match v.origin with
      | none => [0, 0, 0] | some .start => [1, 0, 0] | some .command => [2, 0, 0]
      | some (.window ser) => [3, byte ser.opener, byte ser.seq]
      | some .stray => [4, 0, 0] | some .restore => [5, 0, 0] | some .rejoin => [6, 0, 0]
      | some .reset => [7, 0, 0] | some (.sweep sp) => [8, byte sp.station, byte sp.port] : List Byte) := by
    rcases v.origin with _ | (_ | _ | _ | _ | _ | _ | _ | _) <;> rfl
  have hreason (x : IncompleteReason) : byte x.code = byte (match x with
      | .blind => 0 | .absent => 1 | .pool => 2 | .loop => 3) := by cases x <;> rfl
  rw [Report.body, VerdictRecord.body, hmode, hverdict, horigin, VerdictFlags.code, VerdictRecord.presence]
  simp only [boolNat_eq, partBytes_map, partBytes_eq pairBytes, hreason]
  rfl

/-- Settles O26: READ REPORT, the read of a frame, and the bytes of each record. -/
theorem readReportThenAWholeReadRemovesTheRecord : Obligations.ReadReportThenAWholeReadRemovesTheRecord := by
  refine ⟨fun n r rest s hrun hqueue => ?_, fun s hrun hqueue => ?_, fun k s hresponse hheld => ?_,
    fun k a s hresponse => ?_, fun own a => ?_, fun own n r => ⟨rfl, ?_⟩, fun v => ?_, fun v => ?_,
    fun ser x => ⟨rfl, rfl⟩, fun v => ?_⟩
  · have htaken : exec .readReport s = .next (answer .readReport (serveReadReport (intakeCommand .readReport s))) :=
      congrArg Host.Outcome.next (gate_of_running hrun)
    rw [htaken, serveReadReport_of_cons (s := intakeCommand .readReport s) hqueue]
    rfl
  · have htaken : exec .readReport s = .next (answer .readReport (serveReadReport (intakeCommand .readReport s))) :=
      congrArg Host.Outcome.next (gate_of_running hrun)
    rw [htaken, serveReadReport_of_nil (s := intakeCommand .readReport s) hqueue]
    rfl
  · change execReadTransaction k s = _
    simp only [execReadTransaction, readBytes, hresponse, hheld, Bool.false_and]
    rfl
  · have hbytes := readBytes_of_response k hresponse
    have hwhole : readsWhole s k = decide ((a.frame s.image.station).length ≤ k) := by
      rw [readsWhole, hresponse]
      rfl
    have hkeep (x : ControlPort) : (if s.ctl.reportHeld && readsWhole s k then
        { x with portOut := readBytes s k, queue := x.queue.tail, reportHeld := false }
      else { x with portOut := readBytes s k } : ControlPort).portOut = readBytes s k := by split <;> rfl
    refine ⟨_, rfl, ?_⟩
    simp only [State.setCtl_fields]
    rw [hkeep s.ctl, hbytes]
    refine ⟨take_padded _ k, by simp, drop_padded _ k, ?_⟩
    rw [← hbytes, hwhole]
    refine congrArg s.setCtl ?_
    cases hheld : s.ctl.reportHeld with
    | false => simp
    | true =>
      by_cases hle : (a.frame s.image.station).length ≤ k
      · simp [hle]
      · simp [hle, Nat.not_le.1 hle]
  · obtain ⟨result, code, data⟩ := a
    cases result <;> rfl
  · cases r <;> rfl
  · exact verdictBody_eq v
  · obtain ⟨span, cause⟩ := v
    cases cause <;> rfl
  · rfl

end Sys2Proof.Machine
end

