-- ==== Sys2Proof/Proofs/OpenWindow.lean ====
section
/-! OPEN WINDOW: the free sequence number, the window and its holds (R90, R92, R93). -/

namespace Sys2Proof.Machine

variable {s : State} {scope : PortSet}

/-! ### The free sequence number (R90) -/

/-- The search passes listed numbers alone, one after the other. -/
theorem freeSequence_spec (s : State) (fuel : Nat) : ∀ n < 256, ∃ j ≤ fuel, freeSequence s fuel n = (n + j) % 256 ∧
    ∀ i < j, (findWindow s ⟨s.own, (n + i) % 256⟩).isSome = true := by
  induction fuel with
  | zero => exact fun n hn => ⟨0, le_rfl, (Nat.mod_eq_of_lt hn).symm, fun i hi => absurd hi (Nat.not_lt_zero i)⟩
  | succ fuel ih =>
    intro n hn
    rw [freeSequence]
    split
    · rename_i hlisted
      obtain ⟨j, hj, hfree, hpassed⟩ := ih ((n + 1) % 256) (Nat.mod_lt _ (by decide))
      refine ⟨j + 1, by omega, by rw [hfree]; omega, fun i hi => ?_⟩
      cases i with
      | zero => rwa [Nat.add_zero, Nat.mod_eq_of_lt hn]
      | succ i =>
        have hnext := hpassed i (by omega)
        rwa [show ((n + 1) % 256 + i) % 256 = (n + (i + 1)) % 256 by omega] at hnext
    · exact ⟨0, Nat.zero_le _, (Nat.mod_eq_of_lt hn).symm, fun i hi => absurd hi (Nat.not_lt_zero i)⟩

theorem nextSequence_spec (h : s.windows.seq < 256) : nextSequence s ∈ List.range 256 ∧
    ∀ k ∈ List.range ((nextSequence s + 256 - s.windows.seq) % 256),
      (findWindow s ⟨s.image.station, (s.windows.seq + k) % 256⟩).isSome = true := by
  obtain ⟨j, hj, hfree, hpassed⟩ := freeSequence_spec s Config.windowCapacity s.windows.seq h
  have hcapacity : Config.windowCapacity = 8 := rfl
  rw [nextSequence, hfree]
  refine ⟨List.mem_range.2 (Nat.mod_lt _ (by decide)), fun k hk => hpassed k ?_⟩
  rw [List.mem_range] at hk
  omega

/-! ### The command taken and refused -/

theorem exec_openWindow_of_running (scope : PortSet) (s : State) (hrun : s.runState = .running) :
    exec (.openWindow scope) s = .next (answer (.openWindow scope)
      (serveOpenWindow scope (heldCommand (.openWindow scope) s))) :=
  congrArg Host.Outcome.next (gate_of_running hrun)

theorem namesUnused_iff (im : Image) (scope : PortSet) :
    namesUnused im scope = true ↔ ∃ p ∈ List.range 16, portIn scope p = true ∧ im.classAt p = .unused := by
  simp only [namesUnused, portsOf, List.any_eq_true, List.mem_filter, beq_iff_eq, and_assoc]

theorem namesUnused_eq_false {im : Image} (h : ∀ p ∈ List.range 16, portIn scope p = true → im.classAt p ≠ .unused) :
    namesUnused im scope = false := by
  rw [← Bool.not_eq_true, namesUnused_iff]
  rintro ⟨p, hp, hin, hunused⟩
  exact h p hp hin hunused

theorem windowsFull_iff (s : State) : windowsFull s = true ↔
    8 ≤ s.windows.list.length + s.loop.receive.countP (fun r => r.payload.kind == 3) := by
  rw [windowsFull, decide_eq_true_eq]
  rfl

theorem runs_joined {c : Instr} (hrun : s.runState = .running) (hjoined : s.roster.joined = true) :
    ¬ ((heldCommand c s).runState ≠ .running ∨ (!(heldCommand c s).roster.joined) = true) := by
  simp only [heldCommand_frame, hjoined]
  simp [heldCommand, requestEnded, hrun]

/-- The reply to an OPEN WINDOW that is taken. -/
theorem serveOpenWindow_of_taken (hrun : s.runState = .running) (hjoined : s.roster.joined = true) (hscope : scope ≠ 0)
    (hused : namesUnused s.image scope = false) (hroom : windowsFull s = false) : serveOpenWindow scope s =
      ⟨.done, .opened (nextSequence s), openWindow ⟨s.own, nextSequence s⟩ scope s⟩ := by
  have hbad : ¬ (scope = 0 ∨ namesUnused s.image scope = true) := not_or.2 ⟨hscope, by simp [hused]⟩
  have hrefused : ¬ (s.runState ≠ .running ∨ (!s.roster.joined) = true) := by simp [hrun, hjoined]
  rw [serveOpenWindow, if_neg hrefused, if_neg hbad, if_neg (by simp [hroom])]

/-- The state in which the holds of a window opened here are placed. -/
def windowEntered (ser : Serial) (scope : PortSet) (s : State) : State :=
  s.setWindows { s.windows with seq := (ser.seq + 1) % 256, list := s.windows.list ++ [newWindow ser scope] }

theorem openWindow_eq (ser : Serial) (scope : PortSet) (s : State) : openWindow ser scope s =
    requestWindow ⟨.windowOpen ser scope, .own⟩ (modifyWindow ser
      (fun w => { w with counts := { w.counts with held := (heldBy ser scope s).length } })
      (holdAll ser (heldBy ser scope s) (windowEntered ser scope s))) := rfl

theorem requestWindow_of_new {p : Payload} (h : ∀ q ∈ s.windows.requests, q.payload.windowSerial ≠ p.windowSerial) :
    (requestWindow ⟨p, .own⟩ s).windows.requests = s.windows.requests ++ [⟨p, .own⟩] := by
  have hnone : (s.windows.requests.any fun q => Request.sameNotice ⟨p, .own⟩ q) = false :=
    List.any_eq_false.2 fun q hq => by
      have := (h q hq).symm
      simp [Request.sameNotice, this]
  rw [requestWindow, hnone]
  rfl

/-! ### The report queue under a command taken -/

/-- The Control Port as a command is taken (R172). -/
def taken (c : Instr) (x : ControlPort) : ControlPort :=
  { x with command := some c, response := none, reportHeld := false }

theorem postReport_taken {u : State} {c : Instr} (r : Report) (hnow : u.now = s.now) (himage : u.image = s.image)
    (hctl : u.ctl = taken c s.ctl) : (postReport r u).ctl = taken c (postReport r s).ctl := by
  simp only [postReport, keepReport, discardReport, setFault, raiseAlert, atThreshold, coalesceAfterPost,
    apply_ite State.ctl, State.setCtl_fields, hnow, himage, hctl, taken]
  split
  · split <;> rfl
  · rfl

theorem summariesPosted_taken {u : State} {c : Instr} (runs : List Run) (hnow : u.now = s.now)
    (himage : u.image = s.image) (hctl : u.ctl = taken c s.ctl) :
    summariesPosted runs u = taken c (summariesPosted runs s) := by
  induction runs using List.reverseRecOn with
  | nil => exact hctl
  | append_singleton runs r ih =>
    rw [summariesPosted_concat, summariesPosted_concat]
    exact postReport_taken _ (by simpa using hnow) (by simpa using himage) ih

/-- Settles O27: the refusals of R92, the search of R90, and the walk of R93. -/
theorem openWindowListsTheWindowWithItsHolds : Obligations.OpenWindowListsTheWindowWithItsHolds := by
  refine ⟨fun scope s hrun => ⟨fun hjoined => ?_, fun hjoined hbad => ?_, fun hjoined hscope hused hfull => ?_⟩,
    fun scope s hrun hjoined hscope hused hroom hseq hnd => ?_⟩
  · have hreply : serveOpenWindow scope (heldCommand (.openWindow scope) s) =
        refuse .refusedState (heldCommand (.openWindow scope) s) := by
      simp [serveOpenWindow, hjoined]
    rw [exec_openWindow_of_running scope s hrun, hreply]
    rfl
  · have hwrong : scope = 0 ∨ namesUnused (heldCommand (.openWindow scope) s).image scope = true := by
      rw [namesUnused_iff]
      exact hbad
    have hreply : serveOpenWindow scope (heldCommand (.openWindow scope) s) =
        refuse .refusedParam (heldCommand (.openWindow scope) s) := by
      rw [serveOpenWindow, if_neg (runs_joined hrun hjoined), if_pos hwrong]
    rw [exec_openWindow_of_running scope s hrun, hreply]
    rfl
  · have hright : ¬ (scope = 0 ∨ namesUnused (heldCommand (.openWindow scope) s).image scope = true) := by
      refine not_or.2 ⟨hscope, ?_⟩
      simp [namesUnused_eq_false hused]
    have hfull' : windowsFull (heldCommand (.openWindow scope) s) = true := (windowsFull_iff _).2 hfull
    have hreply : serveOpenWindow scope (heldCommand (.openWindow scope) s) =
        refuse .refusedFull (heldCommand (.openWindow scope) s) := by
      rw [serveOpenWindow, if_neg (runs_joined hrun hjoined), if_neg hright, if_pos hfull']
    rw [exec_openWindow_of_running scope s hrun, hreply]
    rfl
  · have hroom' : windowsFull (heldCommand (.openWindow scope) s) = false := by
      rw [← Bool.not_eq_true, windowsFull_iff]
      exact Nat.not_le.2 hroom
    have hnew : findWindow s ⟨s.own, nextSequence s⟩ = none := findWindow_nextSequence s hroom'
    have hreply : serveOpenWindow scope (heldCommand (.openWindow scope) s) = ⟨.done, .opened (nextSequence s),
        openWindow ⟨s.own, nextSequence s⟩ scope (heldCommand (.openWindow scope) s)⟩ :=
      serveOpenWindow_of_taken hrun hjoined hscope (namesUnused_eq_false hused) hroom'
    obtain ⟨hrange, hpassed⟩ := nextSequence_spec hseq
    have hheld : Holdable ⟨s.own, nextSequence s⟩ (heldBy ⟨s.own, nextSequence s⟩ scope s)
        (windowEntered ⟨s.own, nextSequence s⟩ scope (heldCommand (.openWindow scope) s)) :=
      holdable_heldBy ⟨s.own, nextSequence s⟩ scope
        (windowEntered ⟨s.own, nextSequence s⟩ scope (heldCommand (.openWindow scope) s)) hnd
    refine ⟨_, (exec_openWindow_of_running scope s hrun).trans (by rw [hreply]), nextSequence s, hrange, rfl, ?_,
      hnew, hpassed, ?_, fun hfresh => ?_, ?_, ?_, fun held hsel hwork hok => ?_, ?_, ?_, ?_, ?_, ?_, ?_⟩
    · simp [answer, openWindow_eq, requestWindow, modifyWindow, windowEntered]
    · have hcount : s.paths.countP (takesHold ⟨s.own, nextSequence s⟩ scope) =
          (heldBy ⟨s.own, nextSequence s⟩ scope s).length := by
        rw [heldBy, List.length_map, List.countP_eq_length_filter]
      have hlist := modifyWindow_listed (scope := scope) hnew (heldBy ⟨s.own, nextSequence s⟩ scope s).length
      rw [← State.own, hcount]
      simp only [answer, openWindow_eq, requestWindow, modifyWindow, windowEntered, holdAll_frame,
        State.setWindows_fields, State.setCtl_fields, heldCommand_frame]
      exact hlist
    · have hlast := requestWindow_of_new (p := .windowOpen ⟨s.own, nextSequence s⟩ scope)
        (s := modifyWindow ⟨s.own, nextSequence s⟩ (fun w => { w with counts := { w.counts with
            held := (heldBy ⟨s.own, nextSequence s⟩ scope s).length } })
          (holdAll ⟨s.own, nextSequence s⟩ (heldBy ⟨s.own, nextSequence s⟩ scope s)
            (windowEntered ⟨s.own, nextSequence s⟩ scope (heldCommand (.openWindow scope) s))))
        (by simpa [modifyWindow, windowEntered, Payload.windowSerial, State.own] using hfresh)
      refine hlast.trans ?_
      simp [modifyWindow, windowEntered]
      rfl
    · simp only [answer, openWindow_eq, requestWindow_frame, modifyWindow_frame, State.setCtl_fields]
      exact (holdAll_paths _ _ _ hheld).trans (recordsHeldFor_heldBy _ scope s hnd)
    · simp only [answer, openWindow_eq, requestWindow_frame, modifyWindow_frame, State.setCtl_fields]
      exact (congrArg (·.slots) (holdAll_probes _ _ _ hheld)).trans (slotsHeld_heldBy _ scope s hnd)
    · obtain rfl : held = heldBy ⟨s.own, nextSequence s⟩ scope s := hsel
      have hholds := holdsTo_holdAll (s := windowEntered ⟨s.own, nextSequence s⟩ scope
        (heldCommand (.openWindow scope) s)) hok hwork _ hheld
      simp only [answer, openWindow_eq, requestWindow_frame, modifyWindow_frame, State.setCtl_fields]
      refine ⟨hholds.sched, ?_⟩
      have hctl := hholds.ctl.trans (summariesPosted_taken (c := .openWindow scope) _ (s := s) rfl rfl rfl)
      have hsame : heldBy ⟨s.own, nextSequence s⟩ scope (heldCommand (.openWindow scope) s) =
          heldBy ⟨s.own, nextSequence s⟩ scope s := rfl
      rw [hsame, hctl]
      rfl
    all_goals simp [answer, openWindow_eq, requestWindow, windowEntered]
    all_goals rfl

end Sys2Proof.Machine
end

