-- ==== Sys2Proof/Proofs/Launches.lean ====
section
/-! A dispatched STRAY (R118), and the launches of base work and of the current sweep (R19, R48, R49, R120, R127). -/

namespace Sys2Proof.Machine

variable {s : State} {i c : Nat} {m : Mode} {o : Owner} {r : PathRecord} {run : Run}

/-! ### STRAY -/

theorem exec_strayDispatch {a : Received} {head kind port : Nat} {rest : List Received}
    (hs : s.loop.receive = a :: rest) (ha : a.payload = .stray c head kind port) :
    exec .strayDispatch s = .next (takeStray c head (dispatched s)) := by
  have harm : exec .strayDispatch s = execStrayDispatch s := rfl
  rw [harm, execStrayDispatch, dispatchOldest_of_act hs (f := takeStray c head) (by simp only [ha])]

theorem takeStray_of_unknown {head : Nat} (h : findPath s c = none) : takeStray c head s = s := by
  rw [takeStray, requestAudit, h, ite_self]

theorem afterRequests_of_unselected {sel : PathRecord → Bool} {m : Mode} {o : Origin} (hnd : (pathOrder s).Nodup)
    (h : ∀ r ∈ s.paths, sel r = false) : afterRequests sel m o s = s := by
  rw [← requestAudits_eq_afterRequests _ _ _ s hnd, List.filter_eq_nil_iff.2 fun r hr => by simp [h r hr]]
  rfl

theorem takeStray_own (hnd : (pathOrder s).Nodup) :
    takeStray c s.image.station s = afterRequests (·.circuit == c) .routine .stray s := by
  cases hr : findPath s c with
  | some r =>
    rw [takeStray, State.own, if_pos rfl]
    exact requestAudit_eq_afterRequests c .routine .stray hnd hr
  | none =>
    rw [takeStray_of_unknown hr]
    have hother : ∀ r ∈ s.paths, (r.circuit == c) = false := by simpa [findPath] using hr
    exact (afterRequests_of_unselected hnd hother).symm

/-- Settles O38: the request of R118 is the one routine request of R17, for a record of this station alone. -/
theorem strayRequestsAnAuditAtItsHead : Obligations.StrayRequestsAnAuditAtItsHead := by
  intro a c head kind port rest s hs ha hnd
  rw [exec_strayDispatch hs ha]
  refine ⟨fun hhead => ?_, fun h => congrArg Host.Outcome.next ?_⟩
  · subst hhead
    exact congrArg Host.Outcome.next (takeStray_own (s := dispatched s) hnd)
  · rcases h with hother | hnone
    · exact if_neg hother
    · exact takeStray_of_unknown hnone

/-! ### The choices of the launches -/

theorem launchable_eq (s : State) (c : Nat) : launchable s c =
    ((findPath s c).any (fun r => r.state == .queued .routine || r.state == .queued .census ||
      r.state == .queued .sweep) && (probesOf s).all (·.circuit != c)) := by
  have hqueued (x : RecordState) :
      x.isQueued = (x == .queued .routine || x == .queued .census || x == .queued .sweep) := by
    cases x with
    | queued m => cases m <;> rfl
    | idle => rfl
    | held => rfl
    | probing => rfl
  have hfree : (slotOf s c).isNone = (probesOf s).all (·.circuit != c) := by
    rw [Bool.eq_iff_iff, Option.isNone_iff_eq_none, List.all_eq_true]
    simp only [slotOf, probesOf, List.findIdx?_eq_none_iff, List.mem_filterMap]
    constructor
    · rintro hnone p ⟨o, ho, rfl⟩
      simpa using hnone _ ho
    · intro hall o ho
      cases o with
      | none => rfl
      | some p => simpa using hall p ⟨_, ho, rfl⟩
  simp only [launchable, hqueued, hfree]

theorem baseLaunchChoice_of_choice (hrun : s.runState = .running) (hjoined : s.roster.joined = true)
    (hup : s.loop.up = true) (hadmission : s.sched.admission = true) (hbase : s.sched.current = none)
    (hidle : idleSlot s = some i) (hchoice : baseChoice s = some (m, c)) : baseLaunchChoice s = some (i, m, c) := by
  simp [baseLaunchChoice, mayLaunch, hrun, hjoined, hup, hadmission, hbase, hidle, hchoice]

theorem baseChoice_of_lists
    (h : (m = .routine ∧ s.sched.routine.find? (launchable s) = some c) ∨
      (m = .census ∧ s.sched.routine.find? (launchable s) = none ∧
        s.sched.census.find? (launchable s) = some c)) : baseChoice s = some (m, c) := by
  rcases h with ⟨rfl, hroutine⟩ | ⟨rfl, hroutine, hcensus⟩
  · rw [baseChoice, hroutine]
  · rw [baseChoice, hroutine, hcensus]
    rfl

theorem sweepLaunchChoice_of_entry {e : RunEntry} (hrun : s.runState = .running) (hjoined : s.roster.joined = true)
    (hcurrent : s.sched.current = some run) (hidle : idleSlot s = some i)
    (hentry : run.entries.find? (fun x => x.standing == .waiting &&
      stateOf s x.circuit == some (.queued .sweep) && (slotOf s x.circuit).isNone) = some e) :
    sweepLaunchChoice s = some (i, run.id, e.circuit) := by
  have hqueued : ∀ k, queuedSweep s k = (stateOf s k == some (.queued .sweep)) := by
    intro k
    rw [queuedSweep, stateOf]
    cases findPath s k <;> rfl
  have hchoice : sweepChoice s run = some e.circuit := by
    simp only [sweepChoice, hqueued, hentry, Option.map_some]
  simp [sweepLaunchChoice, mayLaunch, hrun, hjoined, hcurrent, hidle, hchoice]

/-! ### A slot claimed (R12, R19, R48, R49) -/

theorem nextEpoch_of_lt {last : Nat} (h : last < 16) :
    nextEpoch last = if last = 0 ∨ last = 15 then 1 else last + 1 := by
  have hlast : (last = 0 ∨ 15 ≤ last) ↔ (last = 0 ∨ last = 15) := by omega
  simp only [nextEpoch, hlast]

theorem claimSlot_of_findPath (hr : findPath s c = some r) : claimSlot i c m o s =
    (s.setPaths (s.paths.map fun x => if x.circuit = c then
      { x with state := .probing, lastEpoch := nextEpoch r.lastEpoch } else x)).setProbes
      { slots := s.probes.slots.set i (some (claimedProbe c (nextEpoch r.lastEpoch) m o))
        requests := s.probes.requests ++
          [⟨.probeStart c (nextEpoch r.lastEpoch) m s.image.deadlineCode, .own⟩] } := by
  rw [claimSlot, hr]
  rfl

theorem leaveList_of_base (hm : m = .routine ∨ m = .census) : leaveList m c s = s.setSched { s.sched with
    routine := if m = .routine then s.sched.routine.erase c else s.sched.routine
    census := if m = .census then s.sched.census.erase c else s.sched.census } := by
  rcases hm with rfl | rfl <;> rfl

/-- A run's entry becomes LAUNCHED, its own run's alone when the runs' identities differ (R127, R131). -/
theorem modifyRun_of_current {f : Run → Run} (hok : SchedulerOk s) (hcurrent : s.sched.current = some run) :
    (modifyRun run.id f s).sched = { s.sched with current := some (f run) } := by
  obtain ⟨⟨runs, hshaped⟩, _⟩ := (schedulerOk_iff s).1 hok
  have hstack : s.sched.stack.map (StackEntry.modify run.id f) = s.sched.stack := by
    have hhead := hshaped.current
    rw [hcurrent] at hhead
    cases runs with
    | nil => cases hhead
    | cons a rest =>
      cases hhead
      have hdistinct := hshaped.distinct
      rw [List.map_cons, List.nodup_cons] at hdistinct
      refine (List.map_congr_left fun e he => ?_).trans (List.map_id _)
      rw [hshaped.stack] at he
      have he' : e ∈ rest.map .sweep ++ [StackEntry.base] := he
      rw [List.mem_append, List.mem_map, List.mem_singleton] at he'
      rcases he' with ⟨b, hb, rfl⟩ | rfl
      · have hne : b.id ≠ run.id := fun heq => hdistinct.1 (heq ▸ List.mem_map_of_mem hb)
        simp [StackEntry.modify, hne]
      · rfl
  simp [modifyRun, hcurrent, hstack]

theorem standingOf_setStanding {x : RunStanding} (h : ∃ e ∈ run.entries, e.circuit = c) :
    (run.setStanding c x).standingOf c = some x := by
  obtain ⟨e, he, hc⟩ := h
  have hsame : ((fun y : RunEntry => y.circuit == c) ∘
      fun y => if y.circuit = c then { y with standing := x } else y) = (·.circuit == c) := by
    funext y
    rw [Function.comp_apply]
    split <;> rfl
  rw [Run.standingOf, Run.setStanding, List.find?_map, hsame]
  cases hfound : run.entries.find? (·.circuit == c) with
  | none => exact absurd hc (by simpa using List.find?_eq_none.1 hfound e he)
  | some y =>
    have hy : y.circuit = c := by simpa using List.find?_some hfound
    simp [hy]

/-- Settles O39: one launch is the choice, its list left, and the slot claimed. -/
theorem launchesClaimTheLowestSlot : Obligations.LaunchesClaimTheLowestSlot := by
  refine ⟨fun i c e m r s hrun hjoined hidle hr hlast he => ?_, fun c s => launchable_eq s c⟩
  obtain rfl : e = nextEpoch r.lastEpoch := he.trans (nextEpoch_of_lt hlast).symm
  refine ⟨fun hup hadmission hbase hlists => ?_, fun run hcurrent hentry => ?_⟩
  · have hm : m = .routine ∨ m = .census := hlists.imp And.left And.left
    have hexec : exec .baseLaunch s = .next (claimSlot i c m .base (leaveList m c s)) := by
      have harm : exec .baseLaunch s = execBaseLaunch s := rfl
      rw [harm, execBaseLaunch, baseLaunchChoice_of_choice hrun hjoined hup hadmission hbase hidle
        (baseChoice_of_lists hlists)]
    have hleft : findPath (leaveList m c s) c = some r := by rwa [leaveList_of_base hm]
    refine ⟨_, hexec, ?_⟩
    rw [claimSlot_of_findPath hleft, leaveList_of_base hm]
    exact ⟨rfl, rfl, rfl, rfl⟩
  · have hexec : exec .sweepLaunch s = .next
        (modifyRun run.id (·.setStanding c .launched) (claimSlot i c .sweep (.run run.id) s)) := by
      have harm : exec .sweepLaunch s = execSweepLaunch s := rfl
      rw [harm, execSweepLaunch, sweepLaunchChoice_of_entry hrun hjoined hcurrent hidle hentry]
    refine ⟨_, hexec, ?_⟩
    have hin : ∃ x ∈ run.entries, x.circuit = c := ⟨_, List.mem_of_find?_eq_some hentry, rfl⟩
    rw [claimSlot_of_findPath hr]
    refine ⟨rfl, rfl, fun hok => modifyRun_of_current (s := s) hok hcurrent, rfl,
      ⟨run.setStanding c .launched, ?_, standingOf_setStanding hin, ?_⟩, rfl, rfl, rfl, rfl, rfl⟩
    · simp [modifyRun, hcurrent]
    · simp only [Run.setStanding, List.map_map]
      refine List.map_congr_left fun e _ => ?_
      rw [Function.comp_apply]
      split <;> rfl

end Sys2Proof.Machine
end

