-- ==== Sys2Proof/Proofs/Timers.lean ====
section
/-! The loss monitors and their span alarms (R43 to R45), and the expiries of a watch entry (R33) and of a lingering
entry of the delivery list (R152). -/

namespace Sys2Proof.Machine

variable {s : State} {p n : Nat} {k : AlarmKind}

/-! ### Span alarms (R44, R45) -/

theorem pendAlarm_eq {a : Alarm} (ha : a.kind ≠ .test) :
    pendAlarm a s = s.setScanner { s.scanner with alarms := alarmsWith a s.scanner.alarms } := by
  have hreplaced (b : Alarm) : b.replacedBy a = (b.kind != .test && b.span.port == a.span.port) := by
    rw [Alarm.replacedBy, if_neg ha]
  have hcond (b : Alarm) : (b.kind != .test && b.span.port == a.span.port) = true ↔
      b.kind ≠ .test ∧ b.span.port = a.span.port := by simp
  simp only [pendAlarm, changeScanner, alarmsWith, hreplaced, hcond]

theorem raiseSpanAlarm_eq (hk : k ≠ .test) :
    raiseSpanAlarm k p s = s.setScanner { s.scanner with alarms := alarmsRaised k p s } := by
  unfold raiseSpanAlarm alarmsRaised
  split
  · rfl
  · exact pendAlarm_eq hk

theorem enterLoss_eq : enterLoss p s = s.setScanner { s.scanner with
    monitors := s.scanner.monitors.set p .loss, alarms := alarmsRaised .loss p s } :=
  raiseSpanAlarm_eq (s := setMonitor p .loss s) (by decide)

theorem enterClear_eq : enterClear p s = s.setScanner { s.scanner with
    monitors := s.scanner.monitors.set p .clear, alarms := alarmsRaised .restore p s } :=
  raiseSpanAlarm_eq (s := setMonitor p .clear s) (by decide)

/-! ### The table of R43 -/

theorem monitorAsserted_eq : monitorAsserted p s = s.setScanner (match s.scanner.monitors.getD p .clear with
    | .clear => if s.image.holdOffCode = 0 then { s.scanner with
          monitors := s.scanner.monitors.set p .loss, alarms := alarmsRaised .loss p s }
        else { s.scanner with
          monitors := s.scanner.monitors.set p (.lossPending (s.now + s.image.holdOffCode * 50)) }
    | .clearPending _ => { s.scanner with monitors := s.scanner.monitors.set p .loss }
    | .lossPending _ | .loss => s.scanner) := by
  have hcode : holdOffMs s.image = 0 ↔ s.image.holdOffCode = 0 := by simp [holdOffMs]
  unfold monitorAsserted
  cases s.scanner.monitors.getD p .clear with
  | clear =>
    simp only [hcode]
    split
    · exact enterLoss_eq
    · rfl
  | lossPending due => rfl
  | loss => rfl
  | clearPending due => rfl

theorem monitorReleased_eq : monitorReleased p s = s.setScanner (match s.scanner.monitors.getD p .clear with
    | .loss => if s.image.holdOffCode = 0 then { s.scanner with
          monitors := s.scanner.monitors.set p .clear, alarms := alarmsRaised .restore p s }
        else { s.scanner with
          monitors := s.scanner.monitors.set p (.clearPending (s.now + s.image.holdOffCode * 50)) }
    | .lossPending _ => { s.scanner with monitors := s.scanner.monitors.set p .clear }
    | .clear | .clearPending _ => s.scanner) := by
  have hcode : holdOffMs s.image = 0 ↔ s.image.holdOffCode = 0 := by simp [holdOffMs]
  unfold monitorReleased
  cases s.scanner.monitors.getD p .clear with
  | loss =>
    simp only [hcode]
    split
    · exact enterClear_eq
    · rfl
  | lossPending due => rfl
  | clear => rfl
  | clearPending due => rfl

theorem monitorRuns_of_lineIn (hrun : s.runState = .running) (hclass : s.image.classAt p = .lineIn) :
    monitorRuns s p = true := by
  simp [monitorRuns, hrun, hclass]

theorem exec_lossInputAsserted (hruns : monitorRuns s p = true) : exec (.lossInputAsserted p) s =
    .next (monitorAsserted p (s.setLossInputs (s.lossInputs ||| BitVec.twoPow 16 p))) := by
  have harm : exec (.lossInputAsserted p) s = execLossInputAsserted p s := rfl
  rw [harm, execLossInputAsserted, hruns]
  rfl

theorem exec_lossInputReleased (hruns : monitorRuns s p = true) : exec (.lossInputReleased p) s =
    .next (monitorReleased p (s.setLossInputs (s.lossInputs &&& ~~~(BitVec.twoPow 16 p)))) := by
  have harm : exec (.lossInputReleased p) s = execLossInputReleased p s := rfl
  rw [harm, execLossInputReleased, hruns]
  rfl

theorem exec_holdOffExpiry_of_timer {due : Nat} {m : LossMonitor} (hm : s.scanner.monitors.getD p .clear = m)
    (htimer : m.timer = some due) : exec (.holdOffExpiry p) s =
      .next ((s.setNow (max s.now due)).setScanner { s.scanner with
        monitors := s.scanner.monitors.set p (if m = .lossPending due then .loss else .clear)
        alarms := alarmsRaised (if m = .lossPending due then .loss else .restore) p s }) := by
  have harm : exec (.holdOffExpiry p) s = execHoldOffExpiry p s := rfl
  rw [harm, execHoldOffExpiry]
  cases m with
  | clear => cases htimer
  | loss => cases htimer
  | lossPending d =>
    cases htimer
    rw [hm, if_pos rfl, if_pos rfl]
    exact congrArg Host.Outcome.next (enterLoss_eq (s := advanceTo due s))
  | clearPending d =>
    cases htimer
    rw [hm, if_neg (by simp), if_neg (by simp)]
    exact congrArg Host.Outcome.next (enterClear_eq (s := advanceTo due s))

/-- Settles O60: the monitor's row of R43 for the input, and the alarm of R44 at LOSS and CLEAR. -/
theorem lossMonitorsFollowTheirInputs : Obligations.LossMonitorsFollowTheirInputs := by
  intro p m s _ _ hrun hclass hm
  have hruns := monitorRuns_of_lineIn hrun hclass
  refine ⟨⟨_, exec_lossInputAsserted hruns, ?_⟩, ⟨_, exec_lossInputReleased hruns, ?_⟩,
    fun due => exec_holdOffExpiry_of_timer hm⟩
  · rw [monitorAsserted_eq]
    have hm' : (s.setLossInputs (s.lossInputs ||| BitVec.twoPow 16 p)).scanner.monitors.getD p .clear = m := hm
    simp only [hm']
    refine ⟨rfl, fun h hcode => ?_, fun h hcode => ?_, fun due _ h => ?_, fun h => ?_, rfl⟩
    · subst h
      exact if_neg hcode
    · subst h
      exact if_pos hcode
    · subst h
      rfl
    · cases m with
      | loss => rfl
      | lossPending due => rfl
      | clear => simp [LossMonitor.timer] at h
      | clearPending due => simp [LossMonitor.timer] at h
  · rw [monitorReleased_eq]
    have hm' : (s.setLossInputs (s.lossInputs &&& ~~~(BitVec.twoPow 16 p))).scanner.monitors.getD p .clear = m := hm
    simp only [hm']
    refine ⟨rfl, fun h hcode => ?_, fun h hcode => ?_, fun due _ h => ?_, fun h => ?_, rfl⟩
    · subst h
      exact if_neg hcode
    · subst h
      exact if_pos hcode
    · subst h
      rfl
    · cases m with
      | clear => rfl
      | clearPending due => rfl
      | loss => simp [LossMonitor.timer] at h
      | lossPending due => simp [LossMonitor.timer] at h

/-! ### The end of a lingering entry (R152) -/

theorem exec_lingerEnd_of_lingering {o : Outstanding} (ho : findEntry s n = some o) (hlinger : o.standing = .lingering) :
    exec (.lingerEnd n) s = .next (leaveOutstanding n (s.setNow (max s.now (o.lastSent + 20)))) := by
  have harm : exec (.lingerEnd n) s = execLingerEnd n s := rfl
  rw [harm, execLingerEnd, ho]
  exact if_pos hlinger

/-- The entry of a number, among entries of different numbers, is the one found. -/
theorem eq_of_findEntry {o x : Outstanding} (hnodup : (s.loop.outstanding.map (·.number)).Nodup)
    (ho : findEntry s n = some o) (hx : x ∈ s.loop.outstanding) (hn : x.number = n) : x = o := by
  have hnumber : o.number = n := by simpa using List.find?_some ho
  exact List.inj_on_of_nodup_map hnodup hx (List.mem_of_find?_eq_some ho) (hn.trans hnumber.symm)

/-- Settles O48: the entry found is the only one of its number and is over at its timer; a watch entry leaves. -/
theorem lingerAndWatchExpiriesRemoveTheirEntry : Obligations.LingerAndWatchExpiriesRemoveTheirEntry := by
  refine ⟨fun n o s ho hlinger hnodup => ⟨_, exec_lingerEnd_of_lingering ho hlinger, rfl, ?_, ?_⟩, fun c w s hw => ?_⟩
  · rw [leaveOutstanding, changeLoop_loop]
    simp only [fair_fields]
    refine List.filter_congr fun x hx => ?_
    cases hxn : x.number == n with
    | false => simp [bne, hxn]
    | true =>
      obtain rfl := eq_of_findEntry hnodup ho hx (by simpa using hxn)
      simp [bne, hxn, Outstanding.over, hlinger, Config.returnMs]
  · unfold leaveOutstanding changeLoop LoopPort.fair
    split <;> rfl
  · have harm : exec (.watchExpiry c) s = execWatchExpiry c s := rfl
    rw [harm, execWatchExpiry, hw]
    rfl

end Sys2Proof.Machine
end

