-- ==== Sys2Proof/Proofs/Receptions.lean ====
section
/-! Receptions (R138, R139, R144, R153, R154, R156) and the transmitter's choice (R144 to R146, R148, R150, R151). -/

namespace Sys2Proof.Machine

variable {s : State} {c : Copy}

/-! ### A reception (R153, R154) -/

/-- The fairness count after a change of the Loop Port (R146). -/
theorem fair_eq (l : LoopPort) : l.fair = { l with fairness := if l.headSendable then l.fairness else 0 } := by
  unfold LoopPort.fair
  split <;> rfl

theorem fair_of_zero {l : LoopPort} (h : l.fairness = 0) : l.fair = l := by
  rw [fair_eq, h, ite_self, ← h]

theorem takeReception_eq (s : State) : takeReception s = heard s := by
  have hbit : BitVec.twoPow 7 Alert.loop.bit = 0b0000100#7 := by decide
  unfold takeReception heard changeLoop raiseAlert
  rw [fair_eq, hbit]
  rfl

@[simp] theorem heard_frame (s : State) :
    (heard s).now = s.now ∧ (heard s).runState = s.runState ∧ (heard s).image = s.image ∧
    (heard s).hops = s.hops ∧ (heard s).paths = s.paths ∧ (heard s).lines = s.lines ∧
    (heard s).scanner = s.scanner ∧ (heard s).probes = s.probes ∧ (heard s).sched = s.sched ∧
    (heard s).windows = s.windows ∧ (heard s).roster = s.roster := by
  unfold heard
  dsimp only
  split <;> simp

@[simp] theorem heard_loop (s : State) :
    (heard s).loop.forward = s.loop.forward ∧ (heard s).loop.newNotices = s.loop.newNotices ∧
    (heard s).loop.retries = s.loop.retries ∧ (heard s).loop.outstanding = s.loop.outstanding ∧
    (heard s).loop.receive = s.loop.receive ∧ (heard s).loop.number = s.loop.number ∧
    (heard s).loop.up = true ∧ (heard s).loop.silence = some (s.now + 50) ∧
    (heard s).loop.quarantine = s.loop.quarantine ∧ (heard s).loop.sending = s.loop.sending := by
  unfold heard
  dsimp only
  split <;> simp

theorem exec_idleFillReceived (h : s.runState ≠ .starting) : exec .idleFillReceived s = .next (heard s) := by
  have harm : exec .idleFillReceived s = execIdleFillReceived s := rfl
  rw [harm, execIdleFillReceived, if_neg h, takeReception_eq]

theorem exec_noticeReceived_of_corrupt {bytes : List Byte} (h : s.runState ≠ .starting) (hkind : bytes.headD 0 ≠ 0)
    (hnone : parseCopy bytes = none) : exec (.noticeReceived bytes) s = .next s := by
  have hhead : bytes.head? ≠ some 0 := by
    intro heq
    rw [List.headD_eq_head?_getD, heq] at hkind
    exact hkind rfl
  have harm : exec (.noticeReceived bytes) s = execNoticeReceived bytes s := rfl
  rw [harm, execNoticeReceived, if_neg h, if_neg hhead, hnone]

/-- A sound copy is a reception, then it is handled. -/
theorem exec_noticeReceived_of_copy (h : s.runState ≠ .starting) (hlen : c.payload.length < 256) (hkind : c.kind ≠ 0) :
    exec (.noticeReceived c.bytes) s =
      .next (if s.runState = .running then takeCopy c (heard s) else passiveCopy c (heard s)) := by
  have hhead : c.bytes.head? ≠ some 0 := by
    rw [bytes_eq]
    simpa using hkind
  have harm : exec (.noticeReceived c.bytes) s = execNoticeReceived c.bytes s := rfl
  rw [harm, execNoticeReceived, if_neg h, if_neg hhead, parseCopy_bytes c hlen]
  simp only [receiveCopy, takeReception_eq]

theorem exec_noticeReceived_of_running (hrun : s.runState = .running) (hlen : c.payload.length < 256)
    (hkind : c.kind ≠ 0) : exec (.noticeReceived c.bytes) s = .next (takeCopy c (heard s)) := by
  rw [exec_noticeReceived_of_copy (by simp [hrun]) hlen hkind, if_pos hrun]

theorem forwardFull_iff (s : State) : forwardFull s = true ↔ 8 ≤ s.loop.forward.length := by
  rw [forwardFull, decide_eq_true_eq]
  rfl

/-- The steps of R139 before the answer, at which a copy of another station stops. -/
theorem takeCopy_of_stopped (hother : c.originator.toNat ≠ s.own)
    (h : stationOk c.originator.toNat = false ∨ 23 ≤ c.hops.toNat ∨ 8 ≤ s.loop.forward.length ∨
      (s.loop.quarantine = true ∧ c.notice ≠ some .loopReset)) : takeCopy c s = s := by
  rw [takeCopy, if_neg hother]
  split
  · rfl
  · rename_i hok
    split
    · rfl
    · rename_i hhops
      split
      · rename_i hquarantine
        unfold quarantined
        split
        · rename_i hreset
          refine if_pos ((forwardFull_iff s).2 ?_)
          rcases h with h | h | h | ⟨_, h⟩
          · exact absurd h (by simpa using hok)
          · exact absurd h hhops
          · exact h
          · exact absurd hreset h
        · rfl
      · rename_i hquarantine
        refine if_pos ((forwardFull_iff s).2 ?_)
        rcases h with h | h | h | ⟨h, _⟩
        · exact absurd h (by simpa using hok)
        · exact absurd h hhops
        · exact h
        · exact absurd h hquarantine

/-- Settles O41: the order of the steps of R139, and R144 in bypass and PASSIVE. -/
theorem receptionsDriveTheLoopState : Obligations.ReceptionsDriveTheLoopState := by
  refine ⟨fun s h => exec_idleFillReceived h, fun bytes s h => ⟨?_, ?_⟩,
    fun bytes s => exec_noticeReceived_of_corrupt, fun c s hrun hlen hkind hother h => ?_,
    fun c s hpassive hlen hkind => ?_⟩
  · exact if_pos h
  · exact if_pos h
  · rw [exec_noticeReceived_of_running hrun hlen hkind, takeCopy_of_stopped (by simpa [State.own] using hother)]
    simpa using h
  · rw [exec_noticeReceived_of_copy (by simp [hpassive]) hlen hkind, if_neg (by simp [hpassive])]
    simp only [passiveCopy, forwardFull_iff, forwardCopy, heard_loop]
    rfl

/-! ### The transmitter (R145, R146, R148) -/

theorem headSendable_eq (l : LoopPort) : l.headSendable = (l.up && (l.retries != [] || (l.newNotices != [] &&
    l.outstanding.length < 8 && l.outstanding.head?.all fun o => (l.number + 256 - o.number) % 256 ≤ 31))) := by
  have hcapacity : Config.noticeCapacity = 8 := rfl
  unfold LoopPort.headSendable LoopPort.numberFree
  rw [hcapacity]
  cases l.outstanding with
  | nil => simp
  | cons o rest => simp [Bool.and_assoc]

theorem exec_transmitComplete_of_running (hrun : s.runState = .running) :
    exec .transmitComplete s = .next (s.setLoop (chooseNext s.own s.now s.loop).fair) := by
  have harm : exec .transmitComplete s = execTransmitComplete s := rfl
  rw [harm, execTransmitComplete, hrun]
  rfl

theorem exec_transmitComplete_of_passive (hpassive : s.runState = .passive) :
    exec .transmitComplete s = .next (s.setLoop (choosePassive s.loop)) := by
  have harm : exec .transmitComplete s = execTransmitComplete s := rfl
  rw [harm, execTransmitComplete, hpassive]

section Choice

variable {own now : Nat} {l : LoopPort}

/-- An insertion goes out next: it may be sent, there is room to forward, and nothing is forwarded first (R145, R146). -/
def insertsNext (l : LoopPort) : Bool :=
  l.headSendable && l.forward.length < 8 && (l.forward == [] || 4 ≤ l.fairness)

theorem chooseNext_of_inserts (h : insertsNext l = true) : chooseNext own now l = sendInsertion own now l := by
  simp only [insertsNext, Bool.and_eq_true, Bool.or_eq_true, decide_eq_true_eq, beq_iff_eq] at h
  obtain ⟨⟨hhead, hroom⟩, hturn⟩ := h
  have hmay : mayInsert l = true := by
    rw [mayInsert, hhead]
    exact decide_eq_true hroom
  unfold chooseNext
  split
  · rename_i c rest hforward
    have hfair : Config.fairnessLimit ≤ l.fairness := hturn.resolve_left (by simp [hforward])
    rw [if_pos (by simp [insertionDue, hmay, hfair])]
  · rw [if_pos hmay]

theorem chooseNext_of_forward {rest : List Copy} (hforward : l.forward = c :: rest) (h : insertsNext l = false) :
    chooseNext own now l = sendForward c rest l := by
  have hdue : insertionDue l = false := by
    rw [← h, insertsNext, insertionDue, mayInsert, hforward]
    rfl
  rw [chooseNext, hforward]
  dsimp only
  rw [hdue]
  rfl

theorem chooseNext_of_nothing (hforward : l.forward = []) (h : insertsNext l = false) :
    l.headSendable = false ∧ chooseNext own now l = sendIdle l := by
  have hhead : l.headSendable = false := by simpa [insertsNext, hforward] using h
  refine ⟨hhead, ?_⟩
  rw [chooseNext, hforward]
  exact if_neg (by simp [mayInsert, hhead])

theorem sendForward_fair {rest : List Copy} : (sendForward c rest l).fair = { l with
    forward := rest, sending := .copy c, fairness := if l.headSendable then l.fairness + 1 else 0 } := by
  have hsame : (sendForward c rest l).headSendable = l.headSendable := rfl
  rw [fair_eq, hsame, sendForward]
  cases l.headSendable <;> rfl

end Choice

/-- Settles O45: the three choices of R145 in the order R146 gives them, each leaving the fairness count of R146. -/
theorem theTransmitterChoosesInOrder : Obligations.TheTransmitterChoosesInOrder := by
  refine ⟨fun s h => ?_, fun s h => ?_, fun sendable insert s hrun hsendable hinsert => ?_⟩
  · have harm : exec .transmitComplete s = execTransmitComplete s := rfl
    rw [harm, execTransmitComplete, h]
  · rw [exec_transmitComplete_of_passive h, choosePassive]
    cases hforward : s.loop.forward with
    | nil => simp [sendIdle, hforward]
    | cons c rest => rfl
  · rw [← headSendable_eq] at hsendable
    subst hsendable
    have hinserts : insert = insertsNext s.loop := hinsert
    subst hinserts
    rw [exec_transmitComplete_of_running hrun]
    refine ⟨fun c rest hforward h => ?_, fun h hforward => ?_, fun n rest hretries h o ho => ?_,
      fun q rest hnew hretries h => ?_⟩
    · rw [chooseNext_of_forward hforward h, sendForward_fair]
    · obtain ⟨hhead, hchoose⟩ := chooseNext_of_nothing hforward h
      have hidle : (sendIdle s.loop).headSendable = false := hhead
      rw [hchoose, fair_eq, hidle]
      rfl
    · have hnumber : o.number = n := by simpa using List.find?_some ho
      have hfound : s.loop.outstanding.find? (·.number == n) = some o := ho
      rw [chooseNext_of_inserts h, sendInsertion, hretries]
      dsimp only
      rw [hfound]
      dsimp only
      rw [fair_of_zero rfl, sendRetry, hnumber, hretries]
      rfl
    · rw [chooseNext_of_inserts h, sendInsertion, hretries]
      dsimp only
      rw [hnew]
      dsimp only
      rw [fair_of_zero rfl]
      rfl

end Sys2Proof.Machine
end

