-- ==== Sys2Proof/Proofs/Grants.lean ====
section
/-! The grant of a place of the insertion queue (R37, R38, R45, R91, R98, R106, R147). -/

namespace Sys2Proof.Machine

variable {s : State} {c : Claim} {q : Request}

/-! ### One grant -/

theorem placeFree_of_room (hrun : s.runState = .running) (hroom : s.loop.newNotices.length < 8) :
    placeFree s = true := by
  simp [placeFree, hrun, Config.noticeCapacity, hroom]

theorem exec_grant (hfree : placeFree s = true) (hc : nextClaim s = some c) :
    exec .insertionPlaceGrant s = .next (grant c s) := by
  have harm : exec .insertionPlaceGrant s = execInsertionPlaceGrant s := rfl
  rw [harm, execInsertionPlaceGrant, if_pos hfree, hc]

theorem exec_grant_of_no_claim (hc : nextClaim s = none) : exec .insertionPlaceGrant s = .next s := by
  have harm : exec .insertionPlaceGrant s = execInsertionPlaceGrant s := rfl
  rw [harm, execInsertionPlaceGrant, hc, ite_self]

theorem exec_grant_of_no_place (h : s.runState ≠ .running ∨ 8 ≤ s.loop.newNotices.length) :
    exec .insertionPlaceGrant s = .next s := by
  have harm : exec .insertionPlaceGrant s = execInsertionPlaceGrant s := rfl
  rw [harm, execInsertionPlaceGrant, if_neg]
  intro hfree
  obtain ⟨hrun, hroom⟩ := Bool.and_eq_true_iff.1 hfree
  rcases h with hstopped | hfull
  · exact hstopped (beq_iff_eq.1 hrun)
  · exact Nat.not_lt.2 hfull (of_decide_eq_true hroom)

/-- The notice joins the queue, and nothing else of the Loop Port changes but the fairness count. -/
theorem granted_grant (hq : claimNotice s c = q) : Granted q s (grant c s) := by
  subst hq
  rw [Granted, grant, changeLoop_loop, takeClaim_loop, fair_eq]

/-- A grant is the claim taken, apart from the Loop Port. -/
theorem grant_eq (c : Claim) (s : State) : grant c s = (takeClaim c s).setLoop (grant c s).loop := rfl

/-- What a grant of a claim is to the statement: its notice, and the claim's block without the claim. -/
theorem exec_granted {P : State → Prop} (hfree : placeFree s = true) (hc : nextClaim s = some c)
    (hq : claimNotice s c = q) (hP : P (grant c s)) :
    ∃ t, exec .insertionPlaceGrant s = .next t ∧ Granted q s t ∧ P t :=
  ⟨_, exec_grant hfree hc, granted_grant hq, hP⟩

theorem claimNotice_join (s : State) :
    claimNotice s .join = ⟨if s.image.gradeLimit = 2 then .join 2 true else .join 1 false, .own⟩ := by
  rw [claimNotice, ownAdvert]
  split <;> rfl

theorem claimNotice_present (s : State) :
    claimNotice s .present = ⟨if s.image.gradeLimit = 2 then .present 2 true else .present 1 false, .own⟩ := by
  rw [claimNotice, ownAdvert]
  split <;> rfl

theorem drop_length_take {α : Type} (l : List α) (n : Nat) : l.drop (l.take n).length = l.drop n := by
  rw [List.length_take]
  rcases Nat.le_total n l.length with hle | hle
  · rw [Nat.min_eq_left hle]
  · rw [Nat.min_eq_right hle, List.drop_length, List.drop_eq_nil_of_le hle]

/-- The window of a granted notice: a WINDOW OPEN is announced (R98), a PENDING tally is SENT (R106). -/
theorem noteGrant_eq (q : Request) (s : State) : noteGrant q s = s.setWindows { s.windows with
    list := s.windows.list.map fun w =>
      if q.payload.windowSerial = some w.serial then
        { w with
          announced := w.announced || q.payload.kind == 3
          tally := if q.payload.kind = 6 ∧ w.tally = .pending then .sent else w.tally }
      else w } := by
  have hsame {f : Window → Window} (hf : ∀ w, f w = w) :
      s.setWindows { s.windows with list := s.windows.list.map f } = s := by
    rw [(funext hf : f = id), List.map_id]
    rfl
  obtain ⟨payload, purpose⟩ := q
  cases payload with
  | windowOpen ser scope => simp [noteGrant, modifyWindow, Payload.windowSerial, Payload.kind, eq_comm]
  | tally ser x =>
    simp only [noteGrant, modifyWindow, Payload.windowSerial, Payload.kind, Option.some.injEq]
    refine congrArg (fun l => s.setWindows { s.windows with list := l }) (List.map_congr_left fun w _ => ?_)
    by_cases hser : w.serial = ser
    · subst hser
      by_cases hpending : w.tally = .pending <;> simp [hpending]
    · simp [hser, Ne.symm hser]
  | windowCancel ser | windowClose ser | join g b | present g b | probeStart c e m d | probeEnd c e v f
  | sighting items | stray c x k p | spanAlarm k sp | loopReset =>
    exact (hsame fun w => by split <;> simp [Payload.kind]).symm

theorem takeWindowRequest_eq (q : Request) (s : State) : takeWindowRequest q s = s.setWindows { s.windows with
    requests := s.windows.requests.erase q
    list := s.windows.list.map fun w =>
      if q.payload.windowSerial = some w.serial then
        { w with
          announced := w.announced || q.payload.kind == 3
          tally := if q.payload.kind = 6 ∧ w.tally = .pending then .sent else w.tally }
      else w } := noteGrant_eq _ _

/-! ### The first claimant -/

theorem nextClaim_of_joining (hjoined : s.roster.joined = false) : nextClaim s = rosterClaim s := by
  simp [nextClaim, hjoined]

theorem rosterClaim_join (hjoin : s.roster.joinRequest = true) : rosterClaim s = some .join := by
  simp [rosterClaim, hjoin]

theorem rosterClaim_present (hjoin : s.roster.joinRequest = false) (hpresent : s.roster.presentRequest = true) :
    rosterClaim s = some .present := by
  simp [rosterClaim, hjoin, hpresent]

theorem rosterClaim_none (hjoin : s.roster.joinRequest = false) (hpresent : s.roster.presentRequest = false) :
    rosterClaim s = none := by
  simp [rosterClaim, hjoin, hpresent]

section Joined

variable (hjoined : s.roster.joined = true)
include hjoined

theorem nextClaim_alarm {a : Alarm} {rest : List Alarm} (h : s.scanner.alarms = a :: rest) :
    nextClaim s = some (.alarm a) := by
  simp [nextClaim, hjoined, h]

variable (halarms : s.scanner.alarms = [])
include halarms

theorem nextClaim_probe (h : s.probes.requests.find? (fun q => q.payload.kind == 9) = some q ∨
    (s.probes.requests.find? (fun q => q.payload.kind == 9) = none ∧
      s.probes.requests.find? (fun q => q.payload.kind == 7) = some q)) : nextClaim s = some (.probe q) := by
  have hclaim : probeClaim s = some (.probe q) := by
    rcases h with hend | ⟨hend, hstart⟩
    · simp [probeClaim, hend]
    · simp [probeClaim, hend, hstart]
  simp [nextClaim, hjoined, halarms, hclaim]

variable (hprobes : ∀ q ∈ s.probes.requests, q.payload.kind ≠ 9 ∧ q.payload.kind ≠ 7)
include hprobes

theorem nextClaim_of_no_probe : nextClaim s = (sightingClaim s <|> (eligibleRequest s).map .window <|>
    s.scanner.strays.head?.map .stray <|> rosterClaim s) := by
  have hend : s.probes.requests.find? (fun q => q.payload.kind == 9) = none :=
    List.find?_eq_none.2 fun q hq => by simpa using (hprobes q hq).1
  have hstart : s.probes.requests.find? (fun q => q.payload.kind == 7) = none :=
    List.find?_eq_none.2 fun q hq => by simpa using (hprobes q hq).2
  simp [nextClaim, hjoined, halarms, probeClaim, hend, hstart]

theorem nextClaim_sighting (hbacklog : s.scanner.backlog ≠ []) :
    nextClaim s = some (.sighting (sightingItems s)) := by
  rw [nextClaim_of_no_probe hjoined halarms hprobes, sightingClaim, if_neg hbacklog]
  rfl

variable (hbacklog : s.scanner.backlog = [])
include hbacklog

theorem nextClaim_of_no_backlog : nextClaim s = ((s.windows.requests.find? (eligible s)).map .window <|>
    s.scanner.strays.head?.map .stray <|> rosterClaim s) := by
  rw [nextClaim_of_no_probe hjoined halarms hprobes, sightingClaim, if_pos hbacklog]
  rfl

end Joined

theorem eligible_cancel (ser : Serial) (s : State) : eligible s ⟨.windowCancel ser, .own⟩ =
    !((s.loop.newNotices.any fun q => q.payload.kind == 3 && q.payload.windowSerial == some ser) ||
      (s.loop.outstanding.any fun o => o.standing != .lingering && o.request.payload.kind == 3 &&
        o.request.payload.windowSerial == some ser)) := by
  simp only [Bool.and_assoc]
  rfl

theorem eligible_of_kind (h : q.payload.kind ≠ 4) : eligible s q = true := by
  unfold eligible
  split
  · rename_i ser hpayload
    exact absurd (by rw [hpayload]; rfl) h
  · rfl

/-- Settles O46: the claimants in the order of R147; a grant takes the first claim from its block. -/
theorem placesGoToTheFirstClaimant : Obligations.PlacesGoToTheFirstClaimant := by
  refine ⟨fun s hrun hroom => ?_, fun ser s => eligible_cancel ser s, fun q s => eligible_of_kind,
    fun s => exec_grant_of_no_place⟩
  have hfree := placeFree_of_room hrun hroom
  refine ⟨fun hjoining => ?_, fun hjoined => ?_⟩
  · have hnext := nextClaim_of_joining hjoining
    exact ⟨fun hjoin => exec_granted hfree (hnext.trans (rosterClaim_join hjoin)) (claimNotice_join s) rfl,
      fun hjoin hpresent =>
        exec_granted hfree (hnext.trans (rosterClaim_present hjoin hpresent)) (claimNotice_present s) rfl,
      fun hjoin hpresent => exec_grant_of_no_claim (hnext.trans (rosterClaim_none hjoin hpresent))⟩
  · refine ⟨fun a rest ha => exec_granted hfree (nextClaim_alarm hjoined ha) rfl ?_, fun halarms =>
      ⟨fun q hq => exec_granted hfree (nextClaim_probe hjoined halarms hq) rfl rfl, fun hprobes hbacklog =>
        exec_granted hfree (nextClaim_sighting hjoined halarms hprobes hbacklog) rfl ?_, fun hprobes hbacklog => ?_⟩⟩
    · obtain rfl : rest = s.scanner.alarms.tail := by rw [ha, List.tail_cons]
      rfl
    · rw [← drop_length_take]
      rfl
    · have hnext := nextClaim_of_no_backlog hjoined halarms hprobes hbacklog
      refine ⟨fun q hq => exec_granted (c := .window q) hfree (by simp [hnext, hq]) rfl ?_, fun hwindow => ?_⟩
      · rw [grant_eq, takeClaim, takeWindowRequest_eq]
        rfl
      · refine ⟨fun x rest hx => exec_granted (c := .stray x) hfree (by simp [hnext, hwindow, hx]) rfl ?_,
          fun hstrays hjoin => ?_, fun hstrays hjoin hpresent => ?_, fun hstrays hjoin hpresent => ?_⟩
        · obtain rfl : rest = s.scanner.strays.tail := by rw [hx, List.tail_cons]
          rfl
        · exact exec_granted (c := .join) hfree
            (by simp [hnext, hwindow, hstrays, rosterClaim_join hjoin]) (claimNotice_join s) rfl
        · exact exec_granted (c := .present) hfree
            (by simp [hnext, hwindow, hstrays, rosterClaim_present hjoin hpresent]) (claimNotice_present s) rfl
        · exact exec_grant_of_no_claim (by simp [hnext, hwindow, hstrays, rosterClaim_none hjoin hpresent])

end Sys2Proof.Machine
end

