-- ==== Sys2Proof/Proofs/Presence.lean ====
section
/-! A station becomes PRESENT: grade, batching and alerts (R66, R167 to R169), and its UNSENT tallies (R107). -/

namespace Sys2Proof.Machine

variable {s t u : State} {x : Nat}

/-! ### The grade and the batching permission recomputed (R66, R168, R169) -/

theorem applyGrade_probes (n : Nat) (s : State) : (applyGrade n s).probes = { s.probes with
    slots := s.probes.slots.map fun o => o.map fun p =>
      if p.phase = .driving ∧ n < s.roster.grade then { p with lowGrade := true } else p } := by
  by_cases hfall : n < s.roster.grade
  · rw [applyGrade_probes_of_fall n s hfall]
    simp only [hfall, and_true]
    rfl
  · rw [applyGrade_probes_of_no_fall n s hfall]
    simp only [hfall, and_false, if_false, Option.map_id', List.map_id']

theorem recompute_probes (s : State) : (recompute s).probes = { s.probes with
    slots := s.probes.slots.map fun o => o.map fun p =>
      if p.phase = .driving ∧ loopGradeOf s.roster.entries < s.roster.grade then { p with lowGrade := true } else p } :=
  applyGrade_probes _ _

theorem applyGrade_ctl (n : Nat) (s : State) : (applyGrade n s).ctl =
    if n = s.roster.grade then s.ctl else (raiseAlert .grade s).ctl := by
  unfold applyGrade
  split
  · rfl
  · dsimp only
    split <;> rfl

theorem recompute_ctl (s : State) : (recompute s).ctl =
    if loopGradeOf s.roster.entries = s.roster.grade then s.ctl else (raiseAlert .grade s).ctl :=
  applyGrade_ctl _ _

theorem recompute_ctl_alerts (s : State) :
    (recompute s).ctl = { s.ctl with alerts := (recompute s).ctl.alerts } := by
  rw [recompute_ctl]
  split <;> rfl

theorem alertSet_recompute (a : Alert) (s : State) : (recompute s).ctl.alertSet a =
    (s.ctl.alertSet a || (a == .grade && loopGradeOf s.roster.entries != s.roster.grade)) := by
  rw [recompute_ctl]
  by_cases hsame : loopGradeOf s.roster.entries = s.roster.grade
  · rw [if_pos hsame, bne_eq_false_iff_eq.2 hsame, Bool.and_false, Bool.or_false]
  · rw [if_neg hsame, alertSet_raiseAlert, bne_iff_ne.2 hsame, Bool.and_true]

/-! ### Tallies requested again (R106, R107) -/

theorem findWindow_of_mem {w : Window} (hnodup : (s.windows.list.map (·.serial)).Nodup) (hw : w ∈ s.windows.list) :
    findWindow s w.serial = some w := by
  cases hfound : findWindow s w.serial with
  | none => exact absurd (List.find?_eq_none.1 hfound w hw) (by simp)
  | some v =>
    have hser : v.serial = w.serial := by simpa using List.find?_some hfound
    exact congrArg some (List.inj_on_of_nodup_map hnodup (List.mem_of_find?_eq_some hfound) hw hser)

theorem serial_of_findWindow {ser : Serial} {w : Window} (h : findWindow s ser = some w) : w.serial = ser := by
  simpa using List.find?_some h

theorem requestTally_eq {ser : Serial} {w : Window} (hw : findWindow s ser = some w) : requestTally ser s =
    s.setWindows { s.windows with
      list := rewritten ser (fun w => { w with tally := .pending }) s
      requests := tallyAsked ser w.counts s.windows.requests } := by
  have hser := serial_of_findWindow hw
  subst hser
  rw [requestTally, hw]
  dsimp only
  rw [tallyRequest, requestWindow_own_eq]
  rfl

/-- The tallies of several windows requested one after the other. -/
theorem foldl_requestTally (l : List Window) : ∀ s : State, (∀ w ∈ l, findWindow s w.serial = some w) →
    (l.map (·.serial)).Nodup → (l.map (·.serial)).foldl (fun t ser => requestTally ser t) s =
      s.setWindows { s.windows with
        list := s.windows.list.map fun v => if v.serial ∈ l.map (·.serial) then { v with tally := .pending } else v
        requests := l.foldl (fun q w => tallyAsked w.serial w.counts q) s.windows.requests } := by
  induction l with
  | nil =>
    intro s _ _
    simp only [List.map_nil, List.foldl_nil, List.not_mem_nil, if_false, List.map_id']
    rfl
  | cons w l ih =>
    intro s hlisted hnodup
    rw [List.map_cons, List.nodup_cons] at hnodup
    obtain ⟨hfresh, hnodup⟩ := hnodup
    have hrest : ∀ v ∈ l, findWindow (requestTally w.serial s) v.serial = some v := by
      intro v hv
      have hne : v.serial ≠ w.serial := fun heq => hfresh (heq ▸ List.mem_map_of_mem hv)
      rw [requestTally_eq (hlisted w List.mem_cons_self)]
      have hmodify := findWindow_modifyWindow w.serial v.serial (fun w => { w with tally := .pending }) (fun _ => rfl) s
      rw [hlisted v (List.mem_cons_of_mem _ hv), Option.map_some, if_neg hne] at hmodify
      exact hmodify
    rw [List.map_cons, List.foldl_cons, ih _ hrest hnodup, requestTally_eq (hlisted w List.mem_cons_self)]
    simp only [State.setWindows_fields, rewritten, List.map_map, List.foldl_cons, List.mem_cons]
    have hmap : ((fun v : Window => if v.serial ∈ l.map (·.serial) then { v with tally := .pending } else v) ∘
        fun v => if v.serial = w.serial then { v with tally := .pending } else v) =
        fun v : Window => if v.serial = w.serial ∨ v.serial ∈ l.map (·.serial) then { v with tally := .pending } else v := by
      funext v
      by_cases hv : v.serial = w.serial
      · simp [hv, hfresh]
      · simp [hv]
    rw [hmap]
    rfl

/-- The UNSENT tallies of an opener that is PRESENT again (R107). -/
theorem retryUnsent_eq (hnodup : (s.windows.list.map (·.serial)).Nodup) : retryUnsent x s =
    s.setWindows { s.windows with
      list := s.windows.list.map fun w =>
        if w.serial.opener = x ∧ w.tally = .unsent then { w with tally := .pending } else w
      requests := (s.windows.list.filter fun w => w.serial.opener == x && w.tally == .unsent).foldl
        (fun l w => tallyAsked w.serial w.counts l) s.windows.requests } := by
  have hsub : (s.windows.list.filter fun w => w.serial.opener == x && w.tally == .unsent).Sublist s.windows.list :=
    List.filter_sublist
  rw [retryUnsent, serialsWhere, foldl_requestTally _ s (fun w hw => findWindow_of_mem hnodup (hsub.subset hw))
    (hnodup.sublist (hsub.map _))]
  have hlist : (s.windows.list.map fun v => if v.serial ∈ (s.windows.list.filter fun w =>
        w.serial.opener == x && w.tally == .unsent).map (·.serial) then { v with tally := .pending } else v) =
      s.windows.list.map fun w =>
        if w.serial.opener = x ∧ w.tally = .unsent then { w with tally := .pending } else w := by
    refine List.map_congr_left fun v hv => ?_
    have hiff : v.serial ∈ (s.windows.list.filter fun w =>
        w.serial.opener == x && w.tally == .unsent).map (·.serial) ↔ v.serial.opener = x ∧ v.tally = .unsent := by
      rw [List.mem_map]
      constructor
      · rintro ⟨w, hw, hser⟩
        obtain ⟨hwin, hcond⟩ := List.mem_filter.1 hw
        obtain rfl := List.inj_on_of_nodup_map hnodup hwin hv hser
        simpa using hcond
      · intro hcond
        exact ⟨v, List.mem_filter.2 ⟨hv, by simpa using hcond⟩, rfl⟩
    simp only [hiff]
  rw [hlist]

/-! ### A receipt (R165, R167) -/

theorem becomePresent_roster (x : Nat) (s : State) : (becomePresent x s).roster =
    (recompute (modifyRoster x (fun e => { e with present := true }) s)).roster := by
  simp [becomePresent, raiseAlert]

theorem becomePresent_ctl (x : Nat) (s : State) : (becomePresent x s).ctl =
    (raiseAlert .roster (recompute (modifyRoster x (fun e => { e with present := true }) s))).ctl := by
  simp [becomePresent]

@[simp] theorem length_modifyRoster (x : Nat) (f : RosterEntry → RosterEntry) (s : State) :
    (modifyRoster x f s).roster.entries.length = s.roster.entries.length := by
  unfold modifyRoster
  split <;> simp

theorem modifyRoster_grade (x : Nat) (f : RosterEntry → RosterEntry) (s : State) :
    (modifyRoster x f s).roster = { s.roster with entries := (modifyRoster x f s).roster.entries } := by
  unfold modifyRoster
  split <;> rfl

/-- What is told of a station that becomes PRESENT, from a state with the same blocks but the roster's entries. -/
theorem turnedPresent_becomePresent (hctl : u.ctl = s.ctl) (hprobes : u.probes = s.probes)
    (hwindows : u.windows = s.windows) (hgrade : u.roster.grade = s.roster.grade) :
    TurnedPresent x s (becomePresent x u) := by
  have hgrade' : (modifyRoster x (fun e => { e with present := true }) u).roster.grade = s.roster.grade := by
    rw [modifyRoster_grade, hgrade]
  have hentries : (becomePresent x u).roster.entries =
      (modifyRoster x (fun e => { e with present := true }) u).roster.entries := by
    rw [becomePresent_roster, recompute_roster]
  have hnew : (becomePresent x u).roster.grade = loopGradeOf (becomePresent x u).roster.entries := by
    rw [hentries, becomePresent_roster, recompute_roster]
  refine ⟨hnew, ?_, ?_, ?_, ?_, ?_, fun hok => ?_⟩
  · rw [hentries, becomePresent_roster, recompute_roster]
  · rw [becomePresent_ctl, raiseAlert]
    simp only [State.setCtl_fields]
    rw [recompute_ctl_alerts]
    simp [hctl]
  · rw [becomePresent_ctl, alertSet_raiseAlert]
    simp
  · rw [becomePresent_ctl, alertSet_raiseAlert, alertSet_recompute, hnew, hentries, hgrade']
    simp [hctl]
  · have hslots : (becomePresent x u).probes =
        (recompute (modifyRoster x (fun e => { e with present := true }) u)).probes := by
      simp [becomePresent, raiseAlert]
    rw [hslots, recompute_probes, hnew, hentries, hgrade']
    simp [hprobes]
  · have hsame : (raiseAlert .roster (recompute
        (modifyRoster x (fun e => { e with present := true }) u))).windows = s.windows := by
      simp [raiseAlert, hwindows]
    rw [becomePresent, retryUnsent_eq (by rw [hsame]; exact hok.1), hsame]
    rfl

end Sys2Proof.Machine
end

