-- ==== Sys2Proof/Proofs/PresentDispatch.lean ====
section
/-! A dispatched PRESENT (R66, R107, R164, R167 to R169). -/

namespace Sys2Proof.Machine

variable {s : State} {x : Nat} {a : Advertisement}

theorem exec_presentDispatch {r : Received} {g : Nat} {b : Bool} {rest : List Received}
    (hs : s.loop.receive = r :: rest) (hr : r.payload = .present g b) :
    exec .presentDispatch s = .next (takePresent r.originator (recordedAdvert g b) (dispatched s)) := by
  have harm : exec .presentDispatch s = execPresentDispatch s := rfl
  rw [harm, execPresentDispatch,
    dispatchOldest_of_act hs (f := takePresent r.originator (recordedAdvert g b)) (by simp only [hr])]

/-- The roster with the sender's advertisement, presence and miss run (R163, R164). -/
theorem rosterAt_recordAdvert {n : Nat} (hlen : s.roster.entries.length = 24) (hn : stationOk n = true) :
    rosterAt (recordAdvert x a s) n = if n = x then
      { rosterAt s n with present := true, missRun := 0, advert := some a } else rosterAt s n := by
  rw [recordAdvert, rosterAt_modifyRoster _ _ _ _ hlen hn]

theorem rosterAt_of_entries {t : State} (h : t.roster.entries = s.roster.entries) (n : Nat) :
    rosterAt t n = rosterAt s n := by
  rw [rosterAt, h, rosterAt]

theorem recordAdvert_roster (x : Nat) (a : Advertisement) (s : State) :
    (recordAdvert x a s).roster = { s.roster with entries := (recordAdvert x a s).roster.entries } :=
  modifyRoster_grade _ _ _

theorem takePresent_of_present (h : isPresent s x = true) : takePresent x a s = recompute (recordAdvert x a s) := by
  rw [takePresent, if_pos h]

theorem takePresent_of_absent (h : isPresent s x = false) :
    takePresent x a s = retryUnsent x (raiseAlert .roster (recompute (recordAdvert x a s))) := by
  rw [takePresent, if_neg (by simp [h])]

/-- A dispatched PRESENT on the Roster Unit and the slots: the same whether the sender was PRESENT or not. -/
theorem takePresent_roster : (takePresent x a s).roster = (recompute (recordAdvert x a s)).roster := by
  cases h : isPresent s x with
  | true => rw [takePresent_of_present h]
  | false =>
    rw [takePresent_of_absent h]
    simp [raiseAlert]

theorem takePresent_probes : (takePresent x a s).probes = (recompute (recordAdvert x a s)).probes := by
  cases h : isPresent s x with
  | true => rw [takePresent_of_present h]
  | false =>
    rw [takePresent_of_absent h]
    simp [raiseAlert]

theorem alertSet_takePresent (k : Alert) : (takePresent x a s).ctl.alertSet k =
    ((recompute (recordAdvert x a s)).ctl.alertSet k || (k == .roster && !isPresent s x)) := by
  cases h : isPresent s x with
  | true =>
    rw [takePresent_of_present h]
    simp
  | false =>
    have hctl : (takePresent x a s).ctl = (raiseAlert .roster (recompute (recordAdvert x a s))).ctl := by
      rw [takePresent_of_absent h]
      simp
    rw [hctl, alertSet_raiseAlert]
    simp

@[simp] theorem recordAdvert_ctl : (recordAdvert x a s).ctl = s.ctl := by
  simp [recordAdvert]

@[simp] theorem recordAdvert_probes : (recordAdvert x a s).probes = s.probes := by
  simp [recordAdvert]

/-- Settles O51: the entry recorded, the roster recomputed, and the tallies of a sender that was ABSENT. -/
theorem presentDispatchRecordsTheAdvertisement : Obligations.PresentDispatchRecordsTheAdvertisement := by
  intro r g b rest s hs hr hok hlen
  refine ⟨_, exec_presentDispatch hs hr, ?_⟩
  have hlen' : (dispatched s).roster.entries.length = 24 := hlen
  have hloop : (dispatched s).loop = { s.loop with receive := rest } := by
    rw [dispatched, hs]
    rfl
  have hentries : (takePresent r.originator (recordedAdvert g b) (dispatched s)).roster.entries =
      (recordAdvert r.originator (recordedAdvert g b) (dispatched s)).roster.entries := by
    rw [takePresent_roster, recompute_roster]
  have hold : (recordAdvert r.originator (recordedAdvert g b) (dispatched s)).roster.grade = s.roster.grade := by
    rw [recordAdvert_roster]
    rfl
  have hgrade : (takePresent r.originator (recordedAdvert g b) (dispatched s)).roster.grade =
      loopGradeOf (recordAdvert r.originator (recordedAdvert g b) (dispatched s)).roster.entries := by
    rw [takePresent_roster, recompute_roster]
  have hslots := recompute_probes (recordAdvert r.originator (recordedAdvert g b) (dispatched s))
  rw [← hgrade, hold, ← takePresent_probes, recordAdvert_probes] at hslots
  have halerts (k : Alert) : (takePresent r.originator (recordedAdvert g b) (dispatched s)).ctl.alertSet k =
      (s.ctl.alertSet k || (k == .grade && (takePresent r.originator (recordedAdvert g b) (dispatched s)).roster.grade
        != s.roster.grade) || (k == .roster && !isPresent s r.originator)) := by
    rw [alertSet_takePresent, alertSet_recompute, recordAdvert_ctl, hold, ← hgrade]
    rfl
  refine ⟨?_, ?_, fun n hn hne => ?_, ?_, ?_, ?_, ?_, ?_, fun h => ?_, fun h hwin => ?_, fun _ hsame => ?_, hslots, ?_⟩
  · rw [← hloop]
    simp
  · rw [rosterAt_of_entries hentries, rosterAt_recordAdvert hlen' hok, if_pos rfl]
    rfl
  · rw [rosterAt_of_entries hentries, rosterAt_recordAdvert hlen' ((mem_stationNumbers n).1 hn), if_neg hne]
    rfl
  · rw [hgrade, hentries]
  · rw [hentries, takePresent_roster, recompute_roster]
  · rw [takePresent_roster, recompute_roster, recordAdvert_roster]
    rfl
  · have hother : (Alert.roster == Alert.grade) = false := rfl
    rw [halerts, hother, Bool.false_and, Bool.or_false, beq_self_eq_true, Bool.true_and]
  · have hother : (Alert.grade == Alert.roster) = false := rfl
    rw [halerts, hother, Bool.false_and, Bool.or_false, beq_self_eq_true, Bool.true_and]
  · rw [takePresent_of_present (s := dispatched s) h]
    simp [recordAdvert, dispatched]
  · have hwindows : (raiseAlert .roster (recompute
        (recordAdvert r.originator (recordedAdvert g b) (dispatched s)))).windows = s.windows := by
      simp [raiseAlert, recordAdvert, dispatched]
    rw [takePresent_of_absent (s := dispatched s) h, retryUnsent_eq (by rw [hwindows]; exact hwin.1), hwindows]
    rfl
  · simp only [hsame, Nat.lt_irrefl, and_false, if_false, Option.map_id', List.map_id'] at hslots
    exact hslots
  · simp [dispatched]

end Sys2Proof.Machine
end

