-- ==== Sys2Proof/Proofs/Acceptance.lean ====
section
/-! Acceptance records (R141): the taken set as a set of numbers, the record after a notice, and its repeats. -/

namespace Sys2Proof.Machine

variable {a : Acceptance} {m n : Nat}

/-! ### The taken set -/

theorem liesBefore_iff : liesBefore m n = true ↔ 1 ≤ (m + 256 - n) % 256 ∧ (m + 256 - n) % 256 ≤ 31 := by
  simp [liesBefore]

/-- Bit d of the taken set stands for the number d before the last one. -/
theorem inTakenSet_eq (ha : a.last < 256) (hn : n < 256) : a.inTakenSet n =
    (liesBefore a.last n && a.taken.getLsbD ((a.last + 256 - n) % 256)) := by
  rw [Bool.eq_iff_iff, Bool.and_eq_true, liesBefore_iff, Acceptance.inTakenSet, List.any_eq_true]
  simp only [List.mem_range, Bool.and_eq_true, beq_iff_eq]
  constructor
  · rintro ⟨k, hk, hbit, hnk⟩
    have hd : (a.last + 256 - n) % 256 = k + 1 := by omega
    rw [hd]
    exact ⟨⟨by omega, by omega⟩, hbit⟩
  · rintro ⟨⟨h1, h31⟩, hbit⟩
    refine ⟨(a.last + 256 - n) % 256 - 1, by omega, ?_, by omega⟩
    rwa [Nat.sub_add_cancel h1]

theorem isRepeat_eq (old : Option Acceptance) (m : Nat) (isJoin : Bool) (hm : m < 256)
    (hold : ∀ a, old = some a → a.last < 256) : isRepeat old m isJoin = classedRepeat old m isJoin := by
  cases old with
  | none => rfl
  | some a =>
    have ha := hold a rfl
    have hzero : (distanceBefore a.last m == 0) = (m == a.last) := by
      rw [Bool.eq_iff_iff, beq_iff_eq, beq_iff_eq, distanceBefore]
      omega
    have hset : (m == a.last || (decide (distanceBefore a.last m ≤ 31) && a.taken.getLsbD (distanceBefore a.last m))) =
        (m == a.last || a.inTakenSet m) := by
      rw [inTakenSet_eq ha hm, ← hzero, liesBefore]
      unfold distanceBefore
      cases hd : (a.last + 256 - m) % 256 with
      | zero => rfl
      | succ d => simp
    simp only [isRepeat, classedRepeat, hzero, hset]

/-! ### The record after a notice is taken -/

theorem takeNumber_of_late (h : liesBefore a.last m = true) :
    takeNumber (some a) m = { a with taken := a.taken ||| BitVec.twoPow 32 ((a.last + 256 - m) % 256) } :=
  if_pos (liesBefore_iff.1 h)

theorem takeNumber_of_newer (h : liesBefore a.last m = false) :
    takeNumber (some a) m = ⟨m, false, (a.taken ||| 1#32) <<< ((m + 256 - a.last) % 256)⟩ :=
  if_neg fun hlies => by simp [liesBefore_iff.2 hlies] at h

/-- A late number joins the taken set (R141). -/
theorem inTakenSet_of_late (ha : a.last < 256) (hm : m < 256) (hn : n < 256) (h : liesBefore a.last m = true) :
    (takeNumber (some a) m).inTakenSet n = (a.inTakenSet n || n == m) := by
  rw [takeNumber_of_late h, inTakenSet_eq (by exact ha) hn, inTakenSet_eq ha hn]
  have hlies := liesBefore_iff.1 h
  have hbit : (BitVec.twoPow 32 ((a.last + 256 - m) % 256)).getLsbD ((a.last + 256 - n) % 256) =
      (n == m) := by
    rw [BitVec.getLsbD_twoPow, Bool.eq_iff_iff, Bool.and_eq_true, decide_eq_true_eq, decide_eq_true_eq, beq_iff_eq]
    omega
  rw [BitVec.getLsbD_or, hbit]
  by_cases hnm : n = m
  · subst hnm
    simp [h]
  · rw [beq_false_of_ne hnm, Bool.or_false, Bool.or_false]

/-- A newer number keeps of the taken set what lies 1 to 31 before it (R141). -/
theorem inTakenSet_of_newer (ha : a.last < 256) (hm : m < 256) (hn : n < 256) (h : liesBefore a.last m = false) :
    (takeNumber (some a) m).inTakenSet n = (liesBefore m n && (n == a.last || a.inTakenSet n)) := by
  rw [takeNumber_of_newer h, inTakenSet_eq (by exact hm) hn, inTakenSet_eq ha hn]
  cases hmn : liesBefore m n with
  | false => rfl
  | true =>
    obtain ⟨h1, h31⟩ := liesBefore_iff.1 hmn
    have hfar : ¬ (1 ≤ (a.last + 256 - m) % 256 ∧ (a.last + 256 - m) % 256 ≤ 31) := by
      rw [← liesBefore_iff, h]
      exact Bool.false_ne_true
    dsimp only
    rw [Bool.true_and, Bool.true_and, BitVec.getLsbD_shiftLeft, BitVec.getLsbD_or, decide_eq_true (by omega),
      Bool.true_and]
    by_cases hlast : n = a.last
    · subst hlast
      simp
    · by_cases hlow : (m + 256 - n) % 256 < (m + 256 - a.last) % 256
      · have hout : liesBefore a.last n = false := by
          rw [← Bool.not_eq_true, liesBefore_iff]
          omega
        simp [hlow, hout, hlast]
      · have hj : (m + 256 - n) % 256 - (m + 256 - a.last) % 256 = (a.last + 256 - n) % 256 := by omega
        have hin : liesBefore a.last n = true := liesBefore_iff.2 (by omega)
        have hone : (1#32).getLsbD ((a.last + 256 - n) % 256) = false := by
          rw [BitVec.getLsbD_one]
          simp
          omega
        simp [hlow, hj, hin, hlast, hone]

theorem takenInto_recordTaken (old : Option Acceptance) (m : Nat) (isJoin : Bool) (hm : m < 256) :
    TakenInto m isJoin old (some (recordTaken old m isJoin)) := by
  refine ⟨fun h => by rw [recordTaken, if_pos h], fun h hold => by rw [recordTaken, if_neg (by simp [h]), hold, takeNumber],
    fun h a hold ha => ⟨_, rfl, ?_⟩⟩
  rw [recordTaken, if_neg (by simp [h]), hold]
  refine ⟨fun hlate => ⟨?_, ?_, fun n hn => ?_⟩, fun hnewer => ⟨?_, ?_, fun n hn => ?_⟩⟩
  · rw [takeNumber_of_late hlate]
  · rw [takeNumber_of_late hlate]
  · exact inTakenSet_of_late ha hm (List.mem_range.1 hn) hlate
  · rw [takeNumber_of_newer hnewer]
  · rw [takeNumber_of_newer hnewer]
  · exact inTakenSet_of_newer ha hm (List.mem_range.1 hn) hnewer

/-- A notice taken repeats from then on. -/
theorem isRepeat_recordTaken (old : Option Acceptance) (m : Nat) (isJoin : Bool) :
    isRepeat (some (recordTaken old m isJoin)) m isJoin = true := by
  have hself : (m + 256 - m) % 256 = 0 := by omega
  cases isJoin with
  | true => simp [recordTaken, isRepeat, distanceBefore]
  | false =>
    rw [recordTaken, if_neg Bool.false_ne_true]
    cases old with
    | none => simp [takeNumber, isRepeat, distanceBefore]
    | some a =>
      cases h : liesBefore a.last m with
      | false =>
        rw [takeNumber_of_newer h]
        simp [isRepeat, distanceBefore]
      | true =>
        obtain ⟨h1, h31⟩ := liesBefore_iff.1 h
        rw [takeNumber_of_late h]
        have hlt : (a.last + 256 - m) % 256 < 32 := by omega
        simp [isRepeat, distanceBefore, h31, hlt]

end Sys2Proof.Machine
end

