-- ==== Sys2Proof/Proofs/Notices.lean ====
section
/-! A notice of another station: its answer, its mark, the forward buffer, and its originator's receipt (R139, R141 to
R143, R156, R165). -/

namespace Sys2Proof.Machine

variable {s u : State} {c : Copy} {p : Payload} {x n m : Nat}

/-! ### The receipt at the roster (R165, R167) -/

theorem reportReceipt_of_present (h : isPresent u x = true) : reportReceipt x u = clearMisses x u := if_pos h

theorem reportReceipt_of_absent (h : isPresent u x = false) :
    reportReceipt x u = becomePresent x (clearMisses x u) := if_neg (by simp [h])

/-- The originator of a notice is PRESENT, with no miss run (R165). -/
theorem rosterAt_reportReceipt (hlen : u.roster.entries.length = 24) (hn : stationOk n = true) :
    rosterAt (reportReceipt x u) n =
      if n = x then { rosterAt u n with present := true, missRun := 0 } else rosterAt u n := by
  have hclear : rosterAt (clearMisses x u) n = if n = x then { rosterAt u n with missRun := 0 } else rosterAt u n :=
    rosterAt_modifyRoster _ _ _ _ hlen hn
  cases hp : isPresent u x with
  | true =>
    rw [reportReceipt_of_present hp, hclear]
    by_cases hnx : n = x
    · subst hnx
      have hpresent : (rosterAt u n).present = true := hp
      rw [if_pos rfl, if_pos rfl, ← hpresent]
    · rw [if_neg hnx, if_neg hnx]
  | false =>
    have hlen' : (clearMisses x u).roster.entries.length = 24 := (length_modifyRoster _ _ _).trans hlen
    have hentries : (becomePresent x (clearMisses x u)).roster.entries =
        (modifyRoster x (fun e => { e with present := true }) (clearMisses x u)).roster.entries := by
      rw [becomePresent_roster, recompute_roster]
    rw [reportReceipt_of_absent hp, rosterAt_of_entries hentries, rosterAt_modifyRoster _ _ _ _ hlen' hn, hclear]
    by_cases hnx : n = x
    · simp only [if_pos hnx]
    · simp only [if_neg hnx]

theorem clearMisses_roster (x : Nat) (s : State) :
    (clearMisses x s).roster = { s.roster with entries := (clearMisses x s).roster.entries } :=
  modifyRoster_grade _ _ _

theorem reportReceipt_roster (x : Nat) (u : State) : (reportReceipt x u).roster = { u.roster with
    entries := (reportReceipt x u).roster.entries, grade := (reportReceipt x u).roster.grade
    batching := (reportReceipt x u).roster.batching } := by
  cases hp : isPresent u x with
  | true =>
    rw [reportReceipt_of_present hp, clearMisses_roster]
  | false =>
    rw [reportReceipt_of_absent hp, becomePresent_roster, recompute_roster, modifyRoster_grade, clearMisses_roster]

theorem turnedPresent_reportReceipt (hctl : u.ctl = s.ctl) (hprobes : u.probes = s.probes)
    (hwindows : u.windows = s.windows) (hgrade : u.roster.grade = s.roster.grade) (h : isPresent u x = false) :
    TurnedPresent x s (reportReceipt x u) := by
  rw [reportReceipt_of_absent h]
  exact turnedPresent_becomePresent (by simpa using hctl) (by simpa using hprobes) (by simpa using hwindows)
    (by rw [clearMisses_roster, hgrade])

/-! ### The answer (R31, R94, R142) -/

theorem isJoin_eq (p : Payload) : p.isJoin = (p.kind == 1) := rfl

theorem refusesCapacity_eq (s : State) (p : Payload) : refusesCapacity s p = ((p.kind == 7 &&
      16 ≤ s.scanner.watch.length + s.loop.receive.countP (fun r => r.payload.kind == 7)) ||
    (p.kind == 3 && !(s.windows.list.any fun w => p.windowSerial == some w.serial) &&
      8 ≤ s.windows.list.length + s.loop.receive.countP (fun r => r.payload.kind == 3))) := by
  have hroom (a b : Nat) : (!decide (a < b)) = decide (b ≤ a) := by
    rw [← decide_not]
    exact decide_eq_decide.2 Nat.not_lt
  cases p with
  | probeStart c e md d =>
    rw [refusesCapacity, canWatch, hroom]
    exact (Bool.or_false _).symm
  | windowOpen ser scope =>
    have hlisted : (findWindow s ser).isNone = !(s.windows.list.any fun w => some ser == some w.serial) := by
      rw [Bool.eq_iff_iff, Option.isNone_iff_eq_none, findWindow, List.find?_eq_none, Bool.not_eq_true',
        List.any_eq_false]
      simp only [beq_iff_eq, Option.some.injEq, eq_comm (a := ser)]
    rw [refusesCapacity, hlisted]
    rfl
  | join g b | present g b | windowCancel ser | windowClose ser | tally ser k | sighting items | probeEnd c e v f
  | stray a b d e | spanAlarm k sp | loopReset => rfl

theorem answerTo_eq (s : State) (x m : Nat) (p : Payload) : answerTo s x m p =
    if isRepeat (rosterAt s x).acceptance m (p.kind == 1) = true then .repeated
    else if refusesCapacity s p = true then .refused
    else if 8 ≤ s.loop.receive.length then .noRoom else .taken := rfl

/-- The acceptance record of the originator after an answer (R141, R142). -/
def acceptanceAfter (a : Answer) (m : Nat) (p : Payload) (old : Option Acceptance) : Option Acceptance :=
  match a with
  | .repeated | .refused => old
  | .noRoom => if p.kind = 1 then none else old
  | .taken => some (recordTaken old m (p.kind == 1))

theorem rosterAt_setAcceptance {a : Option Acceptance} (hlen : s.roster.entries.length = 24) (hn : stationOk n = true) :
    rosterAt (setAcceptance x a s) n = if n = x then { rosterAt s n with acceptance := a } else rosterAt s n :=
  rosterAt_modifyRoster _ _ _ _ hlen hn

theorem rosterAt_applyAnswer (a : Answer) (hlen : s.roster.entries.length = 24) (hn : stationOk n = true) :
    rosterAt (applyAnswer x m p a s) n = if n = x then
      { rosterAt s n with acceptance := acceptanceAfter a m p (rosterAt s n).acceptance } else rosterAt s n := by
  cases a with
  | repeated => exact (ite_self _).symm
  | refused => exact (ite_self _).symm
  | noRoom =>
    have hjoin : p.isJoin = true ↔ p.kind = 1 := beq_iff_eq
    simp only [applyAnswer, acceptanceAfter, hjoin]
    by_cases hkind : p.kind = 1
    · rw [if_pos hkind, if_pos hkind, rosterAt_setAcceptance hlen hn]
    · rw [if_neg hkind, if_neg hkind, ite_self]
  | taken =>
    have hset := rosterAt_setAcceptance (x := x) (a := some (recordTaken (rosterAt s x).acceptance m p.isJoin)) hlen hn
    refine Eq.trans (?_ : _ = rosterAt (setAcceptance x (some (recordTaken (rosterAt s x).acceptance m p.isJoin)) s) n) ?_
    · rfl
    · rw [hset]
      by_cases hnx : n = x
      · subst hnx
        rfl
      · rw [if_neg hnx, if_neg hnx]

theorem setAcceptance_roster (x : Nat) (a : Option Acceptance) (s : State) :
    (setAcceptance x a s).roster = { s.roster with entries := (setAcceptance x a s).roster.entries } :=
  modifyRoster_grade _ _ _

theorem applyAnswer_roster (x m : Nat) (p : Payload) (a : Answer) (s : State) : (applyAnswer x m p a s).roster =
    { s.roster with entries := (applyAnswer x m p a s).roster.entries } := by
  cases a with
  | repeated => rfl
  | refused => rfl
  | noRoom =>
    unfold applyAnswer
    dsimp only
    split
    · exact setAcceptance_roster _ _ _
    · rfl
  | taken => exact setAcceptance_roster _ _ _

theorem length_applyAnswer (x m : Nat) (p : Payload) (a : Answer) (s : State) :
    (applyAnswer x m p a s).roster.entries.length = s.roster.entries.length := by
  cases a with
  | repeated => rfl
  | refused => rfl
  | noRoom =>
    unfold applyAnswer
    dsimp only
    split
    · exact length_modifyRoster _ _ _
    · rfl
  | taken => exact length_modifyRoster _ _ _

/-- A notice that is taken joins the receive queue (R143). -/
theorem applyAnswer_loop (x m : Nat) (p : Payload) (a : Answer) (s : State) : (applyAnswer x m p a s).loop =
    { s.loop with receive := s.loop.receive ++ if a = .taken then [⟨x, m, p, s.now⟩] else [] } := by
  cases a with
  | repeated | refused => simp [applyAnswer]
  | noRoom =>
    unfold applyAnswer
    dsimp only
    split <;> simp [setAcceptance]
  | taken => simp [applyAnswer, enqueueReceived, setAcceptance]

/-! ### A notice that reaches step 6 of R139 -/

theorem takeCopy_of_accepted (hother : c.originator.toNat ≠ s.own) (hok : stationOk c.originator.toNat = true)
    (hhops : c.hops.toNat < 23) (hquarantine : s.loop.quarantine = false) (hroom : s.loop.forward.length < 8) :
    takeCopy c s = acceptNotice c s := by
  have hfull : ¬ forwardFull s = true := by
    rw [forwardFull_iff]
    omega
  rw [takeCopy, if_neg hother, if_neg (by simp [hok]), if_neg (Nat.not_le.2 hhops), if_neg (by simp [hquarantine]),
    if_neg hfull]

/-- The state in which the originator's receipt is told: the notice answered, and its copy marked and forwarded. -/
def noticed (c : Copy) (p : Payload) (s : State) : State :=
  forwardCopy (c.passMarked s.own (answerTo s c.originator.toNat c.number.toNat p).mark)
    (applyAnswer c.originator.toNat c.number.toNat p (answerTo s c.originator.toNat c.number.toNat p) s)

theorem acceptNotice_of_formed (hp : c.notice = some p) :
    acceptNotice c s = reportReceipt c.originator.toNat (noticed c p s) := by
  rw [acceptNotice, hp]
  rfl

theorem acceptNotice_of_malformed (hp : c.notice = none) : acceptNotice c s = forwardCopy c.passOn s := by
  rw [acceptNotice, hp]

/-! ### What a receipt leaves (R141, R165, R167) -/

/-- The state u is s with another Loop Port and the acceptance record A at the originator x. -/
structure Noted (x : Nat) (A : Option Acceptance) (s u : State) : Prop where
  entry    : ∀ n, stationOk n = true → rosterAt u n =
    if n = x then { rosterAt s n with acceptance := A } else rosterAt s n
  length   : u.roster.entries.length = 24
  roster   : u.roster = { s.roster with entries := u.roster.entries }
  ctl      : u.ctl = s.ctl
  probes   : u.probes = s.probes
  windows  : u.windows = s.windows
  records  : u.hops = s.hops ∧ u.paths = s.paths ∧ u.lines = s.lines ∧ u.scanner = s.scanner ∧ u.sched = s.sched

section Noted

variable {A : Option Acceptance} (h : Noted x A s u) (hx : stationOk x = true)
include h

theorem Noted.isPresent (hx : stationOk x = true) : isPresent u x = isPresent s x := by
  simp only [Machine.isPresent, h.entry x hx, if_pos]

theorem Noted.rosterAt_self (hx : stationOk x = true) : rosterAt (reportReceipt x u) x =
    { rosterAt s x with acceptance := A, present := true, missRun := 0 } := by
  rw [rosterAt_reportReceipt h.length hx, if_pos rfl, h.entry x hx, if_pos rfl]

theorem Noted.rosterAt_other (hn : stationOk n = true) (hne : n ≠ x) :
    rosterAt (reportReceipt x u) n = rosterAt s n := by
  rw [rosterAt_reportReceipt h.length hn, if_neg hne, h.entry n hn, if_neg hne]

theorem Noted.roster_receipt : (reportReceipt x u).roster = { s.roster with
    entries := (reportReceipt x u).roster.entries, grade := (reportReceipt x u).roster.grade
    batching := (reportReceipt x u).roster.batching } := by
  rw [reportReceipt_roster, h.roster]

theorem Noted.grade_receipt (hx : stationOk x = true) (hp : Machine.isPresent s x = true) :
    (reportReceipt x u).roster.grade = s.roster.grade ∧ (reportReceipt x u).roster.batching = s.roster.batching := by
  rw [reportReceipt_of_present ((h.isPresent hx).trans hp), clearMisses_roster, h.roster]
  exact ⟨rfl, rfl⟩

theorem Noted.blocks_receipt (hx : stationOk x = true) (hp : Machine.isPresent s x = true) :
    (reportReceipt x u).windows = s.windows ∧ (reportReceipt x u).probes = s.probes ∧
      (reportReceipt x u).ctl = s.ctl := by
  rw [reportReceipt_of_present ((h.isPresent hx).trans hp)]
  simp [h.windows, h.probes, h.ctl]

theorem Noted.turnedPresent (hx : stationOk x = true) (hp : Machine.isPresent s x = false) :
    TurnedPresent x s (reportReceipt x u) :=
  turnedPresent_reportReceipt h.ctl h.probes h.windows (by rw [h.roster]) ((h.isPresent hx).trans hp)

theorem Noted.records_receipt : (reportReceipt x u).hops = s.hops ∧ (reportReceipt x u).paths = s.paths ∧
    (reportReceipt x u).lines = s.lines ∧ (reportReceipt x u).scanner = s.scanner ∧
    (reportReceipt x u).sched = s.sched := by
  simpa using h.records

end Noted

theorem noted_noticed (hlen : s.roster.entries.length = 24) : Noted c.originator.toNat
    (acceptanceAfter (answerTo s c.originator.toNat c.number.toNat p) c.number.toNat p
      (rosterAt s c.originator.toNat).acceptance) s (noticed c p s) where
  entry n hn := by
    refine (rosterAt_applyAnswer _ hlen hn).trans ?_
    by_cases hnx : n = c.originator.toNat
    · rw [if_pos hnx, if_pos hnx, hnx]
    · rw [if_neg hnx, if_neg hnx]
  length := (length_applyAnswer _ _ _ _ _).trans hlen
  roster := applyAnswer_roster _ _ _ _ _
  ctl := by simp [noticed]
  probes := by simp [noticed]
  windows := by simp [noticed]
  records := by simp [noticed]

theorem noticed_loop (c : Copy) (p : Payload) (s : State) : (noticed c p s).loop = { s.loop with
    forward := s.loop.forward ++ [{ c with
      hops := c.hops + 1
      accept := writeMark c.accept s.image.station (answerTo s c.originator.toNat c.number.toNat p).mark }]
    receive := s.loop.receive ++ if answerTo s c.originator.toNat c.number.toNat p = .taken then
      [⟨c.originator.toNat, c.number.toNat, p, s.now⟩] else [] } := by
  have hloop := applyAnswer_loop c.originator.toNat c.number.toNat p
    (answerTo s c.originator.toNat c.number.toNat p) s
  rw [noticed, forwardCopy]
  simp only [State.setLoop_fields, hloop]
  rfl

/-! ### The answer as the statement gives it -/

section Answers

variable {repeated refused : Bool} {full : Prop} [Decidable full] {a : Answer} {mark : Nat}
variable (ha : a = if repeated = true then .repeated else if refused = true then .refused
  else if full then .noRoom else .taken)
variable (hmark : mark = if repeated = true then 1 else if refused = true then 2 else if full then 0 else 1)
include ha hmark

theorem mark_of_answer : a.mark = mark := by
  rw [ha, hmark]
  repeat' split
  all_goals rfl

theorem taken_iff_of_answer : (!repeated && mark == 1) = true ↔ a = .taken := by
  rw [ha, hmark]
  cases repeated with
  | true => simp
  | false =>
    cases refused with
    | true => simp
    | false =>
      by_cases hfull : full
      · simp [hfull]
      · simp [hfull]

theorem acceptanceAfter_of_kept {old : Option Acceptance}
    (h : (repeated || mark == 2 || (mark == 0 && p.kind != 1)) = true) : acceptanceAfter a m p old = old := by
  rw [hmark] at h
  rw [ha]
  cases repeated with
  | true => rfl
  | false =>
    cases refused with
    | true => rfl
    | false =>
      by_cases hfull : full
      · have hkind : p.kind ≠ 1 := by simpa [hfull] using h
        simp [hfull, acceptanceAfter, hkind]
      · simp [hfull] at h

theorem acceptanceAfter_of_unmarked_join {old : Option Acceptance} (hzero : mark = 0) (hkind : p.kind = 1) :
    acceptanceAfter a m p old = none := by
  rw [hmark] at hzero
  rw [ha]
  cases repeated with
  | true => simp at hzero
  | false =>
    cases refused with
    | true => simp at hzero
    | false =>
      by_cases hfull : full
      · simp [hfull, acceptanceAfter, hkind]
      · simp [hfull] at hzero

end Answers

end Sys2Proof.Machine
end

