-- ==== Sys2Proof/Proofs/NoticeRules.lean ====
section
/-! The notices of other stations at a RUNNING station, settled from their answer and their receipt (R139, R141 to R143,
R156, R165). -/

namespace Sys2Proof.Machine

variable {s : State} {c : Copy} {p : Payload} {x n m : Nat}

@[simp] theorem rosterAt_heard (s : State) (n : Nat) : rosterAt (heard s) n = rosterAt s n :=
  rosterAt_of_entries (by simp) n

@[simp] theorem isPresent_heard (s : State) (n : Nat) : isPresent (heard s) n = isPresent s n := by
  rw [isPresent, rosterAt_heard, isPresent]

theorem kind_ne_zero_of_notice (hp : c.notice = some p) : c.kind ≠ 0 := by
  intro hkind
  rw [Copy.notice, hkind] at hp
  cases hp

theorem alertSet_of_turnedPresent {t : State} (h : TurnedPresent x s t) : t.ctl.alertSet .roster = true := by
  obtain ⟨_, _, _, halert, _⟩ := h
  exact halert

/-! ### A LOOP RESET in quarantine (R156) -/

/-- The acceptance record after a LOOP RESET in quarantine. -/
def acceptanceAfterReset (m : Nat) (old : Option Acceptance) : Option Acceptance :=
  if isRepeat old m false then old else some (recordTaken old m false)

theorem isRepeat_acceptanceAfterReset (m : Nat) (old : Option Acceptance) :
    isRepeat (acceptanceAfterReset m old) m false = true := by
  unfold acceptanceAfterReset
  split
  case isTrue h => exact h
  case isFalse => exact isRepeat_recordTaken old m false

/-- The state in which the receipt of a LOOP RESET in quarantine is told. -/
def resetNoticed (c : Copy) (s : State) : State :=
  forwardCopy (c.passMarked s.own 1)
    (if isRepeat (rosterAt s c.originator.toNat).acceptance c.number.toNat false then s
    else setAcceptance c.originator.toNat
      (some (takeNumber (rosterAt s c.originator.toNat).acceptance c.number.toNat)) s)

theorem takeCopy_of_reset (hother : c.originator.toNat ≠ s.own) (hok : stationOk c.originator.toNat = true)
    (hhops : c.hops.toNat < 23) (hquarantine : s.loop.quarantine = true) (hroom : s.loop.forward.length < 8)
    (hp : c.notice = some .loopReset) : takeCopy c s = reportReceipt c.originator.toNat (resetNoticed c s) := by
  have hfull : ¬ forwardFull s = true := by
    rw [forwardFull_iff]
    omega
  rw [takeCopy, if_neg hother, if_neg (by simp [hok]), if_neg (Nat.not_le.2 hhops), if_pos hquarantine, quarantined,
    hp]
  exact if_neg hfull

theorem resetNoticed_loop (c : Copy) (s : State) : (resetNoticed c s).loop = { s.loop with
    forward := s.loop.forward ++ [{ c with
      hops := c.hops + 1, accept := writeMark c.accept s.image.station 1 }] } := by
  have hloop : (if isRepeat (rosterAt s c.originator.toNat).acceptance c.number.toNat false = true then s
      else setAcceptance c.originator.toNat
        (some (takeNumber (rosterAt s c.originator.toNat).acceptance c.number.toNat)) s).loop = s.loop := by
    split <;> simp [setAcceptance]
  rw [resetNoticed, forwardCopy]
  simp only [State.setLoop_fields, hloop]
  rfl

theorem noted_resetNoticed (hlen : s.roster.entries.length = 24) : Noted c.originator.toNat
    (acceptanceAfterReset c.number.toNat (rosterAt s c.originator.toNat).acceptance) s (resetNoticed c s) := by
  unfold resetNoticed acceptanceAfterReset
  by_cases h : isRepeat (rosterAt s c.originator.toNat).acceptance c.number.toNat false = true
  · rw [if_pos h, if_pos h]
    refine ⟨fun n _ => ?_, hlen, rfl, by simp, by simp, by simp, by simp⟩
    by_cases hn : n = c.originator.toNat
    · rw [if_pos hn, hn]
      rfl
    · rw [if_neg hn]
      rfl
  · rw [if_neg h, if_neg h]
    exact ⟨fun n hn => rosterAt_setAcceptance hlen hn, (length_modifyRoster _ _ _).trans hlen, setAcceptance_roster _ _ _,
      by simp [setAcceptance], by simp [setAcceptance], by simp [setAcceptance], by simp [setAcceptance]⟩

/-! ### The rules settled -/

/-- Step 6 of R139 for a well-formed notice. -/
theorem exec_noticeReceived_of_accepted (hrun : s.runState = .running) (hlen : c.payload.length < 256)
    (hkind : c.kind ≠ 0) (hp : c.notice = some p) (hother : c.originator.toNat ≠ s.image.station)
    (hok : stationOk c.originator.toNat = true) (hhops : c.hops.toNat < 23) (hquarantine : s.loop.quarantine = false)
    (hroom : s.loop.forward.length < 8) : exec (.noticeReceived c.bytes) s =
      .next (reportReceipt c.originator.toNat (noticed c p (heard s))) := by
  rw [exec_noticeReceived_of_running hrun hlen hkind,
    takeCopy_of_accepted (by simpa [State.own] using hother) hok hhops (by simpa using hquarantine) (by simpa using hroom),
    acceptNotice_of_formed hp]

/-- Settles O42: the answer of R142 marks the copy, writes the record of R141 and fills the receive queue; then the
originator's receipt (R165). -/
theorem noticesAreMarkedAndForwarded : Obligations.NoticesAreMarkedAndForwarded := by
  refine ⟨fun c p repeated refused mark s hrun hlen hkind hp hother hok hhops hquarantine hroom hentries hrepeated
      hrefused hmark => ?_, fun c s hrun hlen hkind hp hother hok hhops hquarantine hroom => ?_,
    fun c s hrun hlen hp hother hok hhops hquarantine hroom hentries => ?_,
    fun old m isJoin hm hold => isRepeat_eq old m isJoin hm hold⟩
  · refine ⟨_, exec_noticeReceived_of_accepted hrun hlen hkind hp hother hok hhops hquarantine hroom, ?_⟩
    have ha : answerTo (heard s) c.originator.toNat c.number.toNat p = if repeated = true then .repeated
        else if refused = true then .refused else if 8 ≤ s.loop.receive.length then .noRoom else .taken := by
      rw [answerTo_eq, refusesCapacity_eq, hrepeated, hrefused]
      simp only [rosterAt_heard, heard_frame, heard_loop]
    have htaken := taken_iff_of_answer ha hmark
    have hnoted : Noted c.originator.toNat _ (heard s) (noticed c p (heard s)) := noted_noticed (by simpa using hentries)
    have hloop : (reportReceipt c.originator.toNat (noticed c p (heard s))).loop = (noticed c p (heard s)).loop := by
      simp
    rw [noticed_loop, mark_of_answer ha hmark] at hloop
    have hself := hnoted.rosterAt_self hok
    rw [rosterAt_heard] at hself
    refine ⟨?_, ?_, fun h => ?_, fun h => ?_, fun h => ?_, fun hzero hjoin => ?_, ?_, ?_, ?_, fun y hy hne => ?_,
      fun hp => ?_, ?_, ?_, fun hp => ?_, fun hp => ?_, ?_, ?_, ?_, ?_⟩
    · rw [hloop]
      simp
    · rw [hloop]
      simp only [htaken, heard_loop, heard_frame]
    · rw [hself, htaken.1 h]
      exact isRepeat_recordTaken _ _ _
    · rw [hself, htaken.1 h]
      exact takenInto_recordTaken _ _ _ c.number.isLt
    · rw [hself]
      exact acceptanceAfter_of_kept ha hmark h
    · rw [hself]
      exact acceptanceAfter_of_unmarked_join ha hmark hzero hjoin
    · rw [hself]
    · rw [hself]
    · rw [hself]
    · rw [hnoted.rosterAt_other ((mem_stationNumbers y).1 hy) hne, rosterAt_heard]
    · have hturned := hnoted.turnedPresent hok (by simpa using hp)
      exact ⟨alertSet_of_turnedPresent hturned, hturned⟩
    · simpa using hnoted.roster_receipt
    · rw [hloop]
    · simpa using hnoted.grade_receipt hok (by simpa using hp)
    · simpa using hnoted.blocks_receipt hok (by simpa using hp)
    · rw [hloop]
      simp
    · rw [hloop]
      simp
    · rw [hloop]
      simp
    · simpa using hnoted.records_receipt
  · rw [exec_noticeReceived_of_running hrun hlen hkind,
      takeCopy_of_accepted (by simpa [State.own] using hother) hok hhops (by simpa using hquarantine) (by simpa using hroom),
      acceptNotice_of_malformed hp, forwardCopy, (heard_loop s).1]
    rfl
  · have hexec : exec (.noticeReceived c.bytes) s =
        .next (reportReceipt c.originator.toNat (resetNoticed c (heard s))) := by
      rw [exec_noticeReceived_of_running hrun hlen (kind_ne_zero_of_notice hp),
        takeCopy_of_reset (by simpa [State.own] using hother) hok hhops (by simpa using hquarantine)
          (by simpa using hroom) hp]
    have hnoted : Noted c.originator.toNat _ (heard s) (resetNoticed c (heard s)) :=
      noted_resetNoticed (by simpa using hentries)
    have hself := hnoted.rosterAt_self hok
    rw [rosterAt_heard] at hself
    refine ⟨_, hexec, ?_, ?_, fun h => ?_, fun h => ?_, ?_, ?_, ?_, fun y hy hne => ?_, fun hp => ?_, ?_, fun hp => ?_,
      fun hp => ?_, ?_⟩
    · have hloop : (reportReceipt c.originator.toNat (resetNoticed c (heard s))).loop =
          (resetNoticed c (heard s)).loop := by simp
      rw [hloop, resetNoticed_loop]
      simp
    · rw [hself]
      exact isRepeat_acceptanceAfterReset _ _
    · rw [hself]
      exact if_pos h
    · rw [hself]
      have hafter : acceptanceAfterReset c.number.toNat (rosterAt s c.originator.toNat).acceptance =
          some (recordTaken (rosterAt s c.originator.toNat).acceptance c.number.toNat false) := if_neg (by simp [h])
      dsimp only
      rw [hafter]
      exact takenInto_recordTaken _ _ _ c.number.isLt
    · rw [hself]
    · rw [hself]
    · rw [hself]
    · rw [hnoted.rosterAt_other ((mem_stationNumbers y).1 hy) hne, rosterAt_heard]
    · exact hnoted.turnedPresent hok (by simpa using hp)
    · simpa using hnoted.roster_receipt
    · simpa using hnoted.grade_receipt hok (by simpa using hp)
    · simpa using hnoted.blocks_receipt hok (by simpa using hp)
    · simpa using hnoted.records_receipt

end Sys2Proof.Machine
end

