-- ==== Sys2Proof/Proofs/WindowClose.lean ====
section
/-! Windows that close: a dispatched WINDOW CLOSE (R103, R106) and the end of a settle time (R101, R106). -/

namespace Sys2Proof.Machine

variable {s : State} {ser : Serial} {w : Window} {n : Nat}

/-! ### The tally test (R106) -/

theorem tallyTest_of_owed (h : owesSerial s ser = true) : tallyTest ser s = s := by
  unfold tallyTest
  split
  · rfl
  · exact if_pos h

theorem tallyTest_away (hw : findWindow s ser = some w) (hother : ser.opener ≠ s.image.station)
    (hfree : owesSerial s ser = false) :
    tallyTest ser s = if w.state = .closed ∧ w.tally = .notDue then requestTally ser s else s := by
  rw [tallyTest, hw]
  dsimp only
  rw [if_neg (by simp [hfree]), State.own, if_neg hother]

theorem tallyTest_here (hw : findWindow s ser = some w) (hown : ser.opener = s.image.station)
    (hfree : owesSerial s ser = false) :
    tallyTest ser s = if w.collects then recordTally ser s.image.station w.counts s else s := by
  rw [tallyTest, hw]
  dsimp only
  rw [if_neg (by simp [hfree]), State.own, if_pos hown]

theorem owed_released (r : PathRecord) : (released ser r).owed = r.owed := rfl

/-- A release leaves what the records owe. -/
theorem owesSerial_afterRelease (a b : Serial) (s : State) : owesSerial (afterRelease a s) b = owesSerial s b := by
  simp only [owesSerial, afterRelease, State.setSched_fields, State.setPaths_fields, List.any_map]
  rfl

/-! ### The window lists -/

/-- Among different serials a window rewritten is one window. -/
theorem rewritten_of_listed {f : Window → Window} (hnodup : (s.windows.list.map (·.serial)).Nodup)
    (hw : findWindow s ser = some w) : rewritten ser f s = rewritten ser (fun _ => f w) s := by
  refine List.map_congr_left fun v hv => ?_
  by_cases hser : v.serial = ser
  · have hfound := findWindow_of_mem hnodup hv
    rw [hser, hw] at hfound
    rw [if_pos hser, if_pos hser, Option.some.inj hfound]
  · rw [if_neg hser, if_neg hser]

theorem findWindow_rewritten {t : State} {f : Window → Window} (hf : ∀ v, (f v).serial = v.serial)
    (hlist : t.windows.list = rewritten ser f s) (hw : findWindow s ser = some w) : findWindow t ser = some (f w) := by
  have hmodify := findWindow_modifyWindow ser ser f hf s
  rw [hw, Option.map_some, if_pos rfl] at hmodify
  rw [← hmodify, findWindow, hlist]
  rfl

theorem rewritten_rewritten {t : State} {f g : Window → Window} (hf : ∀ v, (f v).serial = v.serial)
    (hlist : t.windows.list = rewritten ser f s) : rewritten ser g t = rewritten ser (fun v => g (f v)) s := by
  rw [rewritten, hlist, rewritten, List.map_map]
  refine List.map_congr_left fun v _ => ?_
  rw [Function.comp_apply]
  by_cases hser : v.serial = ser
  · rw [if_pos hser, if_pos ((hf v).trans hser), if_pos hser]
  · rw [if_neg hser, if_neg hser, if_neg hser]

/-! ### WINDOW CLOSE of another opener (R103) -/

/-- The state in which the tally test of a closed window of another opener runs. -/
def listedClosed (ser : Serial) (s : State) : State :=
  (afterRelease ser s).setWindows { s.windows with
    list := rewritten ser (fun w => { w with state := .closed }) s }

theorem closeListed_eq (hnd : (pathOrder s).Nodup) : closeListed ser s = tallyTest ser (listedClosed ser s) :=
  congrArg (tallyTest ser)
    (releaseHolds_eq_afterRelease ser (modifyWindow ser (fun w => { w with state := .closed }) s) hnd)

theorem findWindow_listedClosed (hw : findWindow s ser = some w) :
    findWindow (listedClosed ser s) ser = some { w with state := .closed } :=
  findWindow_rewritten (f := fun w => { w with state := .closed }) (fun _ => rfl) rfl hw

theorem owesSerial_listedClosed : owesSerial (listedClosed ser s) ser = owesSerial s ser :=
  owesSerial_afterRelease ser ser s

/-- The tally of a window that closes away from its opener: due now, or later (R106). -/
theorem closeListed_cases (hnd : (pathOrder s).Nodup) (hother : ser.opener ≠ s.image.station)
    (hw : findWindow s ser = some w) : closeListed ser s =
      if owesSerial s ser = false ∧ w.tally = .notDue then
        (listedClosed ser s).setWindows { s.windows with
          list := rewritten ser (fun w => { w with state := .closed, tally := .pending }) s
          requests := tallyAsked ser w.counts s.windows.requests }
      else listedClosed ser s := by
  have hfound := findWindow_listedClosed hw
  rw [closeListed_eq hnd]
  cases howed : owesSerial s ser with
  | true =>
    rw [tallyTest_of_owed (owesSerial_listedClosed.trans howed), if_neg (fun h => Bool.noConfusion h.1)]
  | false =>
    rw [tallyTest_away (s := listedClosed ser s) hfound hother (owesSerial_listedClosed.trans howed)]
    by_cases hdue : w.tally = .notDue
    · rw [if_pos ⟨rfl, hdue⟩, if_pos ⟨rfl, hdue⟩, requestTally_eq hfound,
        rewritten_rewritten (s := s) (f := fun w => { w with state := .closed }) (fun _ => rfl) rfl]
      rfl
    · rw [if_neg fun h => hdue h.2, if_neg fun h => hdue h.2]

theorem owesSerial_eq_false (h : s.paths.all (fun r => !r.owed.contains ser) = true) : owesSerial s ser = false := by
  rw [owesSerial, List.any_eq_false]
  intro r hr
  simpa using List.all_eq_true.1 h r hr

/-- Settles O31: an unlisted serial gets a zero TALLY; a listed window of another opener closes, and its tally is due
when nothing owes it. -/
theorem windowCloseDispatchReleasesTheHolds : Obligations.WindowCloseDispatchReleasesTheHolds := by
  intro r ser rest s hs hr hnd hother
  have hloop : (dispatched s).loop = { s.loop with receive := rest } := by
    rw [dispatched, hs]
    rfl
  refine ⟨fun hnone hnew => ?_, fun w hw => ⟨fun hstate => ?_, fun hopened => ?_⟩⟩
  · rw [exec_windowCloseDispatch hs hr, takeWindowClose, show findWindow (dispatched s) ser = none from hnone]
    have hunasked : s.windows.requests.any
        (Request.sameNotice ⟨.tally ser zeroTally, .unlisted⟩ ·) = false := by
      rw [List.any_eq_false]
      intro q hq hsame
      rw [Request.sameNotice, Bool.and_eq_true, beq_iff_eq, beq_iff_eq] at hsame
      exact hnew q hq hsame.2.symm
    refine congrArg Host.Outcome.next ?_
    dsimp only
    rw [answerUnlisted, requestWindow, if_neg (by simpa [dispatched] using hunasked)]
    rfl
  · rw [exec_windowCloseDispatch hs hr, takeWindowClose, show findWindow (dispatched s) ser = some w from hw]
    exact congrArg Host.Outcome.next (if_neg hstate)
  · have hexec : exec .windowCloseDispatch s = .next (closeListed ser (dispatched s)) := by
      rw [exec_windowCloseDispatch hs hr, takeWindowClose, show findWindow (dispatched s) ser = some w from hw]
      exact congrArg Host.Outcome.next (if_pos hopened)
    refine ⟨_, hexec, ?_⟩
    have hcases := closeListed_cases (s := dispatched s) hnd hother hw
    by_cases hdue : owesSerial s ser = false ∧ w.tally = .notDue
    · rw [if_pos (show owesSerial (dispatched s) ser = false ∧ w.tally = .notDue from hdue)] at hcases
      rw [hcases]
      refine ⟨{ w with state := .closed, tally := .pending }, ?_, rfl, rfl, rfl, rfl, fun _ _ => ⟨rfl, ?_⟩,
        fun howed => ?_, fun hnodup => ?_, rfl, hloop, ?_⟩
      · exact findWindow_rewritten (s := s) (f := fun w => { w with state := .closed, tally := .pending })
          (fun _ => rfl) rfl hw
      · simp [dispatched]
      · rw [owesSerial, howed] at hdue
        exact absurd hdue.1 (by decide)
      · exact rewritten_of_listed (f := fun w => { w with state := .closed, tally := .pending }) hnodup hw
      · simp [listedClosed, afterRelease, dispatched]
    · rw [if_neg (show ¬ (owesSerial (dispatched s) ser = false ∧ w.tally = .notDue) from hdue)] at hcases
      rw [hcases]
      refine ⟨{ w with state := .closed }, findWindow_listedClosed (s := dispatched s) hw, rfl, rfl, rfl, rfl,
        fun hnot hfree => absurd ⟨owesSerial_eq_false hfree, hnot⟩ hdue, fun _ => ⟨rfl, rfl⟩, fun hnodup => ?_,
        rfl, hloop, rfl, rfl, rfl, rfl, rfl, rfl⟩
      exact rewritten_of_listed (f := fun w => { w with state := .closed }) hnodup hw

end Sys2Proof.Machine
end

