-- ==== Sys2Proof/Proofs/Settling.lean ====
section
/-! The end of a settle time: a window of this station leaves SETTLING (R101, R106). -/

namespace Sys2Proof.Machine

variable {s : State} {ser : Serial} {w : Window} {n : Nat}

/-! ### Tally tables written for every station -/

theorem tableAt_map {f : Nat → TallyEntry} (hw : w.table = stationNumbers.map f) (hn : stationOk n = true) :
    w.tableAt n = f n := by
  obtain ⟨h1, h24⟩ := (stationOk_iff n).1 hn
  have hlt : n - 1 < 24 := by omega
  simp only [Window.tableAt, hw, if_pos h1, stationNumbers, List.getD_eq_getElem?_getD, List.getElem?_map,
    List.getElem?_range hlt, Option.map_some, Option.getD_some, Nat.sub_add_cancel h1]

theorem tableAt_of_not_station {f : Nat → TallyEntry} (hw : w.table = stationNumbers.map f)
    (hn : stationOk n = false) : w.tableAt n = .notExpected := by
  unfold Window.tableAt
  split
  case isTrue h1 =>
    have hge : 24 ≤ n - 1 := by
      rw [← Bool.not_eq_true, stationOk_iff] at hn
      omega
    simp [hw, stationNumbers, hge]
  case isFalse => rfl

theorem set_map_stationNumbers (f : Nat → TallyEntry) (x : TallyEntry) (hn : stationOk n = true) :
    (stationNumbers.map f).set (n - 1) x = stationNumbers.map fun k => if k = n then x else f k := by
  obtain ⟨h1, h24⟩ := (stationOk_iff n).1 hn
  refine List.ext_getElem (by simp) fun k hk hk' => ?_
  have hkn : n - 1 = k ↔ k + 1 = n := by omega
  simp only [stationNumbers, List.getElem_set, List.getElem_map, List.getElem_range, hkn]

/-! ### Leaving SETTLING (R101) -/

/-- The state after a window of this list has left SETTLING: the table of the expected set, the WINDOW CLOSE requested,
the holds released, and its own tally recorded when no record owes it. -/
def settled (ser : Serial) (w : Window) (s : State) : State :=
  (afterRelease ser s).setWindows { s.windows with
    list := rewritten ser (fun v => { v with state := .closing, settle := .stopped, table := (w.leaving s).table }) s
    requests := noticeAsked (.windowClose ser) s.windows.requests }

/-- A CLOSING window with the expected set in its table. -/
def Window.expecting (s : State) (w : Window) : Window :=
  { w with state := .closing, settle := .stopped, table := expectedTable s }

theorem expecting_table (s : State) (w : Window) : (w.expecting s).table =
    stationNumbers.map fun n => if isPresent s n then .awaited else .notExpected := rfl

/-- The same before the own tally. -/
def closing (ser : Serial) (s : State) : State :=
  (afterRelease ser s).setWindows { s.windows with
    list := rewritten ser (·.expecting s) s
    requests := noticeAsked (.windowClose ser) s.windows.requests }

theorem closeOwn_eq_tallyTest (hnd : (pathOrder s).Nodup) : closeOwn ser s = tallyTest ser (closing ser s) := by
  have hlist : rewritten ser (fun v => { v with state := .closing, settle := .stopped })
      (modifyWindow ser (fun w => { w with table := expectedTable s }) s) =
        rewritten ser (·.expecting s) s :=
    rewritten_rewritten (f := fun w => { w with table := expectedTable s }) (fun _ => rfl) rfl
  rw [closeOwn, requestWindow_own_eq]
  refine congrArg (tallyTest ser) ((releaseHolds_eq_afterRelease ser _ (by exact hnd)).trans ?_)
  rw [closing, ← hlist]
  rfl

theorem findWindow_closing (hw : findWindow s ser = some w) : findWindow (closing ser s) ser = some (w.expecting s) :=
  findWindow_rewritten (fun _ => rfl) rfl hw

theorem closing_eq_settled (h : (w.leaving s).table = expectedTable s) : closing ser s = settled ser w s := by
  rw [settled, h]
  rfl

theorem leaving_of_untold (hser : w.serial = ser)
    (h : ¬ (ser.opener = s.image.station ∧ owesSerial s ser = false ∧ stationOk s.image.station = true ∧
      isPresent s s.image.station = true)) : (w.leaving s).table = expectedTable s := by
  refine List.map_congr_left fun n hn => ?_
  cases hp : isPresent s n with
  | false => rfl
  | true =>
    refine (if_neg Bool.noConfusion).trans (if_neg ?_)
    rintro ⟨rfl, hown, hall⟩
    rw [hser] at hown hall
    exact h ⟨hown, owesSerial_eq_false hall, (mem_stationNumbers _).1 hn, hp⟩

theorem leaving_of_told (hser : w.serial = ser) (hown : ser.opener = s.image.station)
    (hfree : owesSerial s ser = false) (hp : isPresent s s.image.station = true)
    (hok : stationOk s.image.station = true) :
    (w.leaving s).table = (expectedTable s).set (s.image.station - 1) (.received w.counts) := by
  rw [expectedTable, set_map_stationNumbers _ _ hok]
  have hall : s.paths.all (fun r => !r.owed.contains w.serial) = true := by
    rw [hser, List.all_eq_true]
    intro r hr
    simpa using List.any_eq_false.1 hfree r hr
  refine List.map_congr_left fun n _ => ?_
  by_cases hn : n = s.image.station
  · subst hn
    rw [if_neg (by simp [hp]), if_pos ⟨rfl, by rw [hser, hown], hall⟩, if_pos rfl]
  · rw [if_neg (c := n = s.image.station) hn, if_neg (c := n = s.image.station ∧ _) fun h => hn h.1]
    cases hpn : isPresent s n <;> simp

/-- The own tally of a CLOSING window brings no summary (R110). -/
theorem recordTally_closing (hw : findWindow s ser = some w) (hok : stationOk s.image.station = true)
    (hp : isPresent s s.image.station = true) : recordTally ser s.image.station w.counts (closing ser s) =
      modifyWindow ser (·.setTable s.image.station (.received w.counts)) (closing ser s) := by
  have hfound := findWindow_closing hw
  have hentry : (w.expecting s).tableAt s.image.station = .awaited := by
    rw [tableAt_map (expecting_table s w) hok, if_pos hp]
  have hmodified := findWindow_modifyWindow ser ser (·.setTable s.image.station (.received w.counts))
    (fun v => serial_setTable v _ _) (closing ser s)
  rw [hfound, Option.map_some, if_pos rfl, setTable_of_stationOk _ _ hok] at hmodified
  rw [recordTally_of_expected hfound (.inl rfl) (by rw [hentry]; exact List.mem_cons_self),
    summaryTest_of_not_due hmodified fun h => WindowState.noConfusion h.1]

theorem modifyWindow_closing (hser : w.serial = ser) (hown : ser.opener = s.image.station)
    (hfree : owesSerial s ser = false) (hok : stationOk s.image.station = true)
    (hp : isPresent s s.image.station = true) :
    modifyWindow ser (·.setTable s.image.station (.received w.counts)) (closing ser s) = settled ser w s := by
  have hset : (fun v : Window => (v.expecting s).setTable s.image.station (.received w.counts)) =
      fun v => { v with state := .closing, settle := .stopped, table := (w.leaving s).table } := by
    funext v
    rw [setTable_of_stationOk _ _ hok, leaving_of_told hser hown hfree hp hok]
    rfl
  have hlist : rewritten ser (·.setTable s.image.station (.received w.counts)) (closing ser s) =
      rewritten ser (fun v => { v with state := .closing, settle := .stopped, table := (w.leaving s).table }) s := by
    rw [← hset]
    exact rewritten_rewritten (s := s) (f := (·.expecting s)) (fun _ => rfl) rfl
  rw [settled, ← hlist]
  rfl

theorem tallyTest_closing (hw : findWindow s ser = some w) : tallyTest ser (closing ser s) = settled ser w s := by
  have hser := serial_of_findWindow hw
  have hfound := findWindow_closing hw
  have howes : owesSerial (closing ser s) ser = owesSerial s ser := owesSerial_afterRelease ser ser s
  cases howed : owesSerial s ser with
  | true =>
    rw [tallyTest_of_owed (howes.trans howed), closing_eq_settled (leaving_of_untold hser (by simp [howed]))]
  | false =>
    by_cases hown : ser.opener = s.image.station
    · have hcollects : (w.expecting s).collects = true := rfl
      rw [tallyTest_here hfound hown (howes.trans howed), if_pos hcollects]
      by_cases htold : stationOk s.image.station = true ∧ isPresent s s.image.station = true
      · obtain ⟨hok, hp⟩ := htold
        exact (recordTally_closing hw hok hp).trans (modifyWindow_closing hser hown howed hok hp)
      · have hentry : (w.expecting s).tableAt s.image.station = .notExpected := by
          cases hok : stationOk s.image.station with
          | false => exact tableAt_of_not_station (expecting_table s w) hok
          | true => rw [tableAt_map (expecting_table s w) hok, if_neg fun hp => htold ⟨hok, hp⟩]
        have hunexpected : recordTally ser (closing ser s).image.station (w.expecting s).counts (closing ser s) =
            closing ser s :=
          recordTally_of_unexpected hfound (.inr (by
            rw [show (closing ser s).image.station = s.image.station from rfl, hentry]
            decide))
        rw [hunexpected, closing_eq_settled (leaving_of_untold hser fun h => htold h.2.2)]
    · have hopen : ¬ ((w.expecting s).state = .closed ∧ (w.expecting s).tally = .notDue) :=
        fun h => WindowState.noConfusion h.1
      rw [tallyTest_away hfound hown (howes.trans howed), if_neg hopen,
        closing_eq_settled (leaving_of_untold hser fun h => hown h.1)]

theorem closeOwn_eq (hnd : (pathOrder s).Nodup) (hw : findWindow s ser = some w) :
    closeOwn ser s = settled ser w s := by
  rw [closeOwn_eq_tallyTest hnd, tallyTest_closing hw]

/-! ### SETTLE_TIMER_EXPIRY (R101) -/

/-- The state in which an expired settle time is read. -/
def settleExpired (ser : Serial) (due : Nat) (s : State) : State :=
  (s.setNow (max s.now due)).setWindows { s.windows with
    list := rewritten ser (fun v => { v with settle := .expired }) s }

theorem exec_settleTimerExpiry {q due : Nat} (hw : findWindow s ⟨s.image.station, q⟩ = some w)
    (hdue : w.settle = .running due) : exec (.settleTimerExpiry q) s =
      .next (leaveSettling ⟨s.image.station, q⟩ (settleExpired ⟨s.image.station, q⟩ due s)) := by
  have harm : exec (.settleTimerExpiry q) s = execSettleTimerExpiry q s := rfl
  rw [harm, execSettleTimerExpiry, State.own, hw]
  dsimp only
  rw [hdue]
  rfl

theorem findWindow_settleExpired {due : Nat} (hw : findWindow s ser = some w) :
    findWindow (settleExpired ser due s) ser = some { w with settle := .expired } :=
  findWindow_rewritten (f := fun v => { v with settle := .expired }) (fun _ => rfl) rfl hw

theorem leaveSettling_of_waiting (hw : findWindow s ser = some w) (h : w.openReceived = false) :
    leaveSettling ser s = s := by
  rw [leaveSettling, hw]
  exact if_neg (by simp [h])

theorem leaveSettling_of_ready (hw : findWindow s ser = some w) (hstate : w.state = .settling)
    (hsettle : w.settle = .expired) (hopen : w.openReceived = true) : leaveSettling ser s = closeOwn ser s := by
  rw [leaveSettling, hw]
  exact if_pos ⟨hstate, hsettle, hopen⟩

/-- The settle time is no part of a window that has left SETTLING. -/
theorem settled_settleExpired {due : Nat} : settled ser { w with settle := .expired } (settleExpired ser due s) =
    (settled ser w s).setNow (max s.now due) := by
  have hlist : rewritten ser (fun v => { v with
        state := .closing, settle := .stopped
        table := (Window.leaving (settleExpired ser due s) { w with settle := .expired }).table })
      (settleExpired ser due s) =
        rewritten ser (fun v => { v with state := .closing, settle := .stopped, table := (w.leaving s).table }) s :=
    rewritten_rewritten (f := fun v => { v with settle := .expired }) (fun _ => rfl) rfl
  rw [settled, hlist]
  rfl

theorem findWindow_settled (hw : findWindow s ser = some w) : findWindow (settled ser w s) ser = some (w.leaving s) :=
  findWindow_rewritten (f := fun v => { v with state := .closing, settle := .stopped, table := (w.leaving s).table })
    (fun _ => rfl) rfl hw

theorem leaving_table (s : State) (w : Window) : (w.leaving s).table = stationNumbers.map fun n =>
    if isPresent s n = false then .notExpected
    else if n = s.image.station ∧ w.serial.opener = n ∧ s.paths.all (fun r => !r.owed.contains w.serial) = true then
      .received w.counts
    else .awaited := rfl

theorem windowClose_of_kind {p : Payload} (hkind : p.kind = 5) (hser : p.windowSerial = some ser) :
    p = .windowClose ser := by
  cases p with
  | windowClose x =>
    cases hser
    rfl
  | _ => cases hkind

/-- A WINDOW CLOSE that is requested stands among the pending notices. -/
theorem any_noticeAsked_windowClose (ser : Serial) (l : List Request) :
    ((noticeAsked (.windowClose ser) l).any fun x => x.payload == .windowClose ser) = true := by
  unfold noticeAsked
  split
  case isTrue h =>
    obtain ⟨q, hq, hsame⟩ := List.any_eq_true.1 h
    rw [Bool.and_eq_true, beq_iff_eq, beq_iff_eq] at hsame
    refine List.any_eq_true.2 ⟨_, List.mem_map_of_mem hq, ?_⟩
    rw [if_pos hsame, windowClose_of_kind hsame.1 hsame.2, beq_self_eq_true]
  case isFalse => simp

theorem noticeAsked_windowClose_of_new {l : List Request} (h : ∀ x ∈ l, x.payload ≠ .windowClose ser) :
    noticeAsked (.windowClose ser) l = l ++ [⟨.windowClose ser, .own⟩] := by
  refine if_neg fun hany => ?_
  obtain ⟨q, hq, hsame⟩ := List.any_eq_true.1 hany
  rw [Bool.and_eq_true, beq_iff_eq, beq_iff_eq] at hsame
  exact h q hq (windowClose_of_kind hsame.1 hsame.2)

/-- Settles O33: without the open outcome the window waits; with it, it leaves SETTLING. -/
theorem settleExpiryClosesTheWindow : Obligations.SettleExpiryClosesTheWindow := by
  intro q due w s hw hdue hstate hnd
  have hser := serial_of_findWindow hw
  have hfound := findWindow_settleExpired (due := due) hw
  refine ⟨fun hopen => ?_, fun hopen => ?_⟩
  · rw [exec_settleTimerExpiry hw hdue, leaveSettling_of_waiting hfound hopen]
    rfl
  · have hexec : exec (.settleTimerExpiry q) s =
        .next ((settled ⟨s.image.station, q⟩ w s).setNow (max s.now due)) := by
      rw [exec_settleTimerExpiry hw hdue, leaveSettling_of_ready hfound hstate rfl hopen,
        closeOwn_eq (s := settleExpired ⟨s.image.station, q⟩ due s) hnd hfound, settled_settleExpired]
    refine ⟨_, hexec, w.leaving s, findWindow_settled hw, rfl, rfl, rfl, fun n hn hne => ?_, fun hp hok => ?_,
      any_noticeAsked_windowClose _ _, noticeAsked_windowClose_of_new, fun hnodup => ?_, rfl, rfl, rfl, rfl, rfl, rfl,
      rfl, rfl, rfl, rfl, rfl⟩
    · rw [tableAt_map (leaving_table s w) ((mem_stationNumbers n).1 hn)]
      cases isPresent s n <;> simp [hne]
    · rw [tableAt_map (leaving_table s w) hok, if_neg (by simp [hp])]
      have hall : s.paths.all (fun r => !r.owed.contains w.serial) =
          !(s.paths.any fun r => r.owed.contains ⟨s.image.station, q⟩) := by
        rw [hser, List.not_any_eq_all_not]
      rw [hall, hser]
      cases s.paths.any fun r => r.owed.contains ⟨s.image.station, q⟩ <;> simp
    · exact rewritten_of_listed (f := fun v => { v with
        state := .closing, settle := .stopped, table := (w.leaving s).table }) hnodup hw

end Sys2Proof.Machine
end

