-- ==== Sys2Proof/Proofs/LoopReset.lean ====
section
/-! LOOP RESET (R21, R46, R68, R114, R135, R155, R157, R171): the blocks reset, and the ends of the outstanding notices
at blocks that hold nothing any more. -/

namespace Sys2Proof.Machine

variable {s t u : State} {n : Nat}

/-! ### Outcomes at blocks that hold nothing -/

/-- No window is listed and no slot is taken. -/
structure Blank (s : State) : Prop where
  windows : s.windows.list = []
  slots   : s.probes.slots = List.replicate Config.slotCount none

theorem Blank.probeAt (h : Blank s) (i : Nat) : probeAt s i = none := by
  rw [Machine.probeAt, h.slots, List.getD_eq_getElem?_getD, List.getElem?_replicate]
  split <;> rfl

theorem Blank.findWindow (h : Blank s) (ser : Serial) : findWindow s ser = none := by
  rw [Machine.findWindow, h.windows]
  rfl

theorem Blank.slotIn (h : Blank s) (ph : Phase) (c e : Nat) : slotIn s ph c e = none := by
  rw [Machine.slotIn, List.findIdx?_eq_none_iff, h.slots]
  intro o ho
  rw [List.eq_of_mem_replicate ho]
  rfl

/-- There a JOIN and a LOOP RESET alone have an outcome that anything reads (R156, R162). -/
theorem handOutcome_of_blank (h : Blank s) (r : Request) (e : Ending) (b : BestMarks) : handOutcome r e b s =
    match r.payload with
    | .join _ _ => joinOutcome s
    | .loopReset => s.setLoop { s.loop with quarantine := false }
    | _ => s := by
  unfold handOutcome
  cases r.payload with
  | probeStart c ep m d => simp only [startOutcome, h.slotIn]
  | probeEnd c ep v f => simp only [endOutcome, h.slotIn]
  | windowOpen ser scope => simp [openOutcome, h.findWindow]
  | windowClose ser => simp only [closeOutcome, h.findWindow]
  | tally ser x => simp [tallyOutcome, h.findWindow]
  | join g b | present g b | windowCancel ser | sighting items | stray c x k p | spanAlarm k sp | loopReset => rfl

theorem giveOutcome_reset (o : Outstanding) (s : State) : giveOutcome o .reset s =
    leaveOutstanding o.number (handOutcome o.request .reset o.best (linger o.number s)) := rfl

/-- One roster entry changed is no other station's. -/
theorem rosterAt_modifyRoster_other {k : Nat} {f : RosterEntry → RosterEntry} (hk : 1 ≤ k) (hne : k ≠ n) :
    rosterAt (modifyRoster n f s) k = rosterAt s k := by
  unfold modifyRoster
  split
  · rename_i hn
    have hidx : n - 1 ≠ k - 1 := by omega
    simp [rosterAt, hk, List.getD_eq_getElem?_getD, hidx]
  · rfl

/-- What a JOIN's outcome does to the own entry. -/
def joinedEntry (im : Image) (e : RosterEntry) : RosterEntry :=
  { e with present := true, advert := some (ownAdvert im), missRun := 0 }

/-- The roster as the outcome of the JOIN writes it, before the grade. -/
def joinedEntries (s : State) : State :=
  modifyRoster s.own (joinedEntry s.image) (s.setRoster { s.roster with joined := true })

theorem joinOutcome_eq (s : State) : joinOutcome s =
    if isPresent s s.own then recompute (joinedEntries s) else raiseAlert .roster (recompute (joinedEntries s)) := rfl

theorem joinedEntries_roster (s : State) : (joinedEntries s).roster =
    { s.roster with joined := true, entries := (joinedEntries s).roster.entries } := modifyRoster_grade _ _ _

theorem joinedEntries_eq (s : State) : joinedEntries s = s.setRoster (joinedEntries s).roster := by
  unfold joinedEntries modifyRoster
  split <;> rfl

theorem recompute_probes_of_blank (h : Blank s) : (recompute s).probes = s.probes := by
  have hslots : (s.probes.slots.map fun o => o.map fun p =>
      if p.phase = .driving ∧ loopGradeOf s.roster.entries < s.roster.grade then { p with lowGrade := true } else p) =
        s.probes.slots := by
    rw [h.slots]
    rfl
  rw [recompute_probes, hslots]

/-- The blocks but the Loop Port and the Roster Unit are as before; of those, what an outcome leaves. -/
structure BlocksKept (s t : State) : Prop where
  records    : t.paths = s.paths ∧ t.sched = s.sched ∧ t.hops = s.hops ∧ t.lines = s.lines
  units      : t.scanner = s.scanner ∧ t.probes = s.probes ∧ t.windows = s.windows
  place      : t.image = s.image ∧ t.runState = s.runState
  alert      : s.ctl.alertSet .reset = true → t.ctl.alertSet .reset = true
  loop       : t.loop = { s.loop with
    outstanding := t.loop.outstanding, retries := t.loop.retries, fairness := t.loop.fairness
    quarantine := t.loop.quarantine }
  retries    : s.loop.retries = [] → t.loop.retries = []
  entries    : ∀ k, 1 ≤ k → (rosterAt t k).acceptance = (rosterAt s k).acceptance ∧
    (k ≠ s.image.station → rosterAt t k = rosterAt s k)
  requests   : t.roster.joinRequest = s.roster.joinRequest ∧ t.roster.presentRequest = s.roster.presentRequest

theorem BlocksKept.refl (s : State) : BlocksKept s s :=
  ⟨⟨rfl, rfl, rfl, rfl⟩, ⟨rfl, rfl, rfl⟩, ⟨rfl, rfl⟩, id, rfl, id, fun _ _ => ⟨rfl, fun _ => rfl⟩, rfl, rfl⟩

theorem BlocksKept.trans (h : BlocksKept s t) (h' : BlocksKept t u) : BlocksKept s u := by
  obtain ⟨⟨hp, hs, hh, hl⟩, ⟨hscan, hprobes, hwin⟩, ⟨him, hrun⟩, halert, hloop, hretries, hentries, hj, hpr⟩ := h
  obtain ⟨⟨hp', hs', hh', hl'⟩, ⟨hscan', hprobes', hwin'⟩, ⟨him', hrun'⟩, halert', hloop', hretries', hentries', hj', hpr'⟩ := h'
  refine ⟨⟨hp'.trans hp, hs'.trans hs, hh'.trans hh, hl'.trans hl⟩,
    ⟨hscan'.trans hscan, hprobes'.trans hprobes, hwin'.trans hwin⟩, ⟨him'.trans him, hrun'.trans hrun⟩,
    halert' ∘ halert, ?_, hretries' ∘ hretries, fun k hk => ?_, hj'.trans hj, hpr'.trans hpr⟩
  · rw [hloop', hloop]
  · obtain ⟨hacc, hother⟩ := hentries k hk
    obtain ⟨hacc', hother'⟩ := hentries' k hk
    exact ⟨hacc'.trans hacc, fun hne => (hother' (him.symm ▸ hne)).trans (hother hne)⟩

theorem BlocksKept.blank (h : BlocksKept s t) (hb : Blank s) : Blank t := by
  obtain ⟨_, ⟨_, hprobes, hwin⟩, _⟩ := h
  exact ⟨by rw [hwin, hb.windows], by rw [hprobes, hb.slots]⟩

/-- A change of the Loop Port's outstanding list, retries and quarantine alone. -/
theorem blocksKept_of_loop (l : LoopPort) (hl : l = { s.loop with
      outstanding := l.outstanding, retries := l.retries, fairness := l.fairness, quarantine := l.quarantine })
    (hretries : s.loop.retries = [] → l.retries = []) : BlocksKept s (s.setLoop l) :=
  ⟨⟨rfl, rfl, rfl, rfl⟩, ⟨rfl, rfl, rfl⟩, ⟨rfl, rfl⟩, id, hl, hretries, fun _ _ => ⟨rfl, fun _ => rfl⟩, rfl, rfl⟩

theorem blocksKept_linger (n : Nat) (s : State) : BlocksKept s (linger n s) := by
  refine blocksKept_of_loop _ ?_ fun h => ?_
  · rw [fair_eq]
  · simp [h]

theorem blocksKept_leaveOutstanding (n : Nat) (s : State) : BlocksKept s (leaveOutstanding n s) := by
  refine blocksKept_of_loop _ ?_ fun h => ?_
  · rw [fair_eq]
  · simpa using h

theorem entry_joinedEntries {k : Nat} (hk : 1 ≤ k) :
    (rosterAt (joinedEntries s) k).acceptance = (rosterAt s k).acceptance ∧
      (k ≠ s.image.station → rosterAt (joinedEntries s) k = rosterAt s k) := by
  have hself : rosterAt (s.setRoster { s.roster with joined := true }) k = rosterAt s k := rosterAt_of_entries rfl k
  refine ⟨?_, fun hne => (rosterAt_modifyRoster_other hk hne).trans hself⟩
  by_cases hown : k = s.image.station
  · subst hown
    rcases rosterAt_modifyRoster_self s.image.station (joinedEntry s.image)
        (s.setRoster { s.roster with joined := true }) with hentry | ⟨hblank, hentry⟩
    · have hjoined : rosterAt (joinedEntries s) s.image.station = joinedEntry s.image (rosterAt s s.image.station) :=
        hentry.trans (congrArg _ hself)
      rw [hjoined]
      rfl
    · have hjoined : rosterAt (joinedEntries s) s.image.station = rosterAt s s.image.station :=
        hentry.trans (hblank.symm.trans hself)
      rw [hjoined]
  · have hjoined : rosterAt (joinedEntries s) k = rosterAt s k := (rosterAt_modifyRoster_other hk hown).trans hself
    rw [hjoined]

theorem blocksKept_raiseAlert (a : Alert) (s : State) : BlocksKept s (raiseAlert a s) := by
  refine ⟨⟨rfl, rfl, rfl, rfl⟩, ⟨rfl, rfl, rfl⟩, ⟨rfl, rfl⟩, fun h => ?_, rfl, id, fun _ _ => ⟨rfl, fun _ => rfl⟩, rfl, rfl⟩
  rw [alertSet_raiseAlert, h, Bool.true_or]

theorem blocksKept_joinOutcome (h : Blank s) : BlocksKept s (joinOutcome s) := by
  have hbase := joinedEntries_eq s
  have hblank : Blank (joinedEntries s) := by
    rw [hbase]
    exact ⟨h.windows, h.slots⟩
  have hrecomputed : BlocksKept s (recompute (joinedEntries s)) := by
    refine ⟨by rw [hbase]; simp, ⟨by rw [hbase]; simp, ?_, by rw [hbase]; simp⟩, by rw [hbase]; simp, fun halert => ?_,
      by rw [hbase]; simp, fun hretries => by rw [hbase]; simpa using hretries, fun k hk => ?_, ?_⟩
    · rw [recompute_probes_of_blank hblank, hbase]
      rfl
    · rw [alertSet_recompute, hbase]
      exact Bool.or_eq_true_iff.2 (.inl halert)
    · rw [rosterAt_of_entries (s := joinedEntries s) (by rw [recompute_roster])]
      exact entry_joinedEntries hk
    · rw [recompute_roster, joinedEntries_roster]
      exact ⟨rfl, rfl⟩
  rw [joinOutcome_eq]
  split
  · exact hrecomputed
  · exact hrecomputed.trans (blocksKept_raiseAlert _ _)

theorem blocksKept_giveOutcome (h : Blank s) (o : Outstanding) : BlocksKept s (giveOutcome o .reset s) := by
  have hlinger := blocksKept_linger o.number s
  refine (hlinger.trans ?_).trans (blocksKept_leaveOutstanding _ _)
  rw [Ending.marks, if_neg (by decide), feedOutcome, if_neg (by decide), handOutcome_of_blank (hlinger.blank h)]
  split
  · exact blocksKept_joinOutcome (hlinger.blank h)
  · exact blocksKept_of_loop _ rfl id
  · exact .refl _

/-- The ends of outstanding notices, at blank blocks. -/
theorem blocksKept_foldl (os : List Outstanding) : ∀ {s : State}, Blank s →
    BlocksKept s (os.foldl (fun t o => giveOutcome o .reset t) s) := by
  induction os with
  | nil => exact fun _ => .refl _
  | cons o os ih =>
    intro s h
    have hfirst := blocksKept_giveOutcome h o
    exact hfirst.trans (ih (hfirst.blank h))

theorem blocksKept_endEntries (h : Blank s) (p : Outstanding → Bool) : BlocksKept s (endEntries .reset p s) :=
  blocksKept_foldl _ h

/-! ### Ends of notices that neither the roster nor the quarantine reads -/

theorem giveOutcome_roster (h : Blank s) {o : Outstanding} (ho : o.request.payload.kind ≠ 1) :
    (giveOutcome o .reset s).roster = s.roster := by
  have hblank := (blocksKept_linger o.number s).blank h
  have hleave (v : State) : (leaveOutstanding o.number v).roster = v.roster := by simp
  rw [giveOutcome_reset, hleave, handOutcome_of_blank hblank]
  split
  · rename_i hp
    exact absurd (by rw [hp]; rfl) ho
  · simp
  · simp

theorem giveOutcome_quarantine (h : Blank s) {o : Outstanding} (ho : o.request.payload.kind ≠ 12) :
    (giveOutcome o .reset s).loop.quarantine = s.loop.quarantine := by
  have hblank := (blocksKept_linger o.number s).blank h
  rw [giveOutcome_reset, leaveOutstanding_loop, handOutcome_of_blank hblank]
  split
  · simp
  · rename_i hp
    exact absurd (by rw [hp]; rfl) ho
  · simp

theorem endEntries_roster (h : Blank s) {p : Outstanding → Bool}
    (hp : ∀ o ∈ s.loop.outstanding, o.active = true → p o = true → o.request.payload.kind ≠ 1) :
    (endEntries .reset p s).roster = s.roster := by
  have hfold (os : List Outstanding) : ∀ {u : State}, Blank u → (∀ o ∈ os, o.request.payload.kind ≠ 1) →
      (os.foldl (fun t o => giveOutcome o .reset t) u).roster = u.roster := by
    induction os with
    | nil => exact fun _ _ => rfl
    | cons o os ih =>
      intro u hu hos
      rw [List.foldl_cons, ih ((blocksKept_giveOutcome hu o).blank hu) fun x hx => hos x (List.mem_cons_of_mem _ hx),
        giveOutcome_roster hu (hos o List.mem_cons_self)]
  refine hfold _ h fun o ho => ?_
  obtain ⟨hin, hcond⟩ := List.mem_filter.1 ho
  rw [Bool.and_eq_true] at hcond
  exact hp o hin hcond.1 hcond.2

theorem endEntries_quarantine (h : Blank s) {p : Outstanding → Bool}
    (hp : ∀ o ∈ s.loop.outstanding, p o = true → o.request.payload.kind ≠ 12) :
    (endEntries .reset p s).loop.quarantine = s.loop.quarantine := by
  have hfold (os : List Outstanding) : ∀ {u : State}, Blank u → (∀ o ∈ os, o.request.payload.kind ≠ 12) →
      (os.foldl (fun t o => giveOutcome o .reset t) u).loop.quarantine = u.loop.quarantine := by
    induction os with
    | nil => exact fun _ _ => rfl
    | cons o os ih =>
      intro u hu hos
      rw [List.foldl_cons, ih ((blocksKept_giveOutcome hu o).blank hu) fun x hx => hos x (List.mem_cons_of_mem _ hx),
        giveOutcome_quarantine hu (hos o List.mem_cons_self)]
  refine hfold _ h fun o ho => ?_
  obtain ⟨hin, hcond⟩ := List.mem_filter.1 ho
  rw [Bool.and_eq_true] at hcond
  exact hp o hin hcond.2

/-- The entries that a condition ends are LINGERING, when it reads the request alone. -/
theorem lingering_of_endEntries_of {x : Outstanding} {e : Ending} {p : Outstanding → Bool}
    (hx : x ∈ (endEntries e p s).loop.outstanding) (hpx : p x = true) : x.standing = .lingering := by
  have hfold (os : List Outstanding) : ∀ u : State,
      (∀ y ∈ u.loop.outstanding, p y = true → y.standing = .lingering ∨ y.number ∈ os.map (·.number)) →
      ∀ y ∈ (os.foldl (fun v o => giveOutcome o e v) u).loop.outstanding, p y = true → y.standing = .lingering := by
    induction os with
    | nil => exact fun u hu y hy hpy => (hu y hy hpy).resolve_right List.not_mem_nil
    | cons o os ih =>
      refine fun u hu => ih _ fun y hy hpy => ?_
      rcases of_mem_giveOutcome e hy with hst | ⟨hin, hne⟩
      · exact .inl hst
      · exact (hu y hin hpy).imp_right fun hmem => (List.mem_cons.1 hmem).resolve_left hne
  refine hfold _ s (fun y hy hpy => ?_) x hx hpx
  by_cases hst : y.standing = .lingering
  · exact .inl hst
  · exact .inr (List.mem_map_of_mem (List.mem_filter.2 ⟨hy, by simp [Outstanding.active, hst, hpy]⟩))

/-! ### The blocks reset (R21, R46, R68, R114, R135) -/

theorem getD_idleSlotLines {r : PathRecord} (h : MarkersOk s) (hr : r ∈ s.paths) :
    (idleSlotLines s).lines.getD r.line none = some (r.circuit, 0) := by
  obtain ⟨hlen, horder, hline, hmarked, _⟩ := h
  obtain ⟨hlt, hmark⟩ := hmarked r hr
  refine getD_idleLines s.probes.slots hline hlen horder hr hlt hmark ?_
  by_cases hheld : ∃ p, some p ∈ s.probes.slots ∧ p.circuit = r.circuit
  · exact .inr hheld
  · exact .inl (markedEpoch_of_idle fun p hp hc => absurd ⟨p, mem_slots_of_probesOf hp, hc⟩ hheld)

/-- A record as a LOOP RESET leaves it (R21). -/
def resetRecord (r : PathRecord) : PathRecord :=
  { r with
    hold := [], owed := []
    state := if r.baseline.isSome then .queued .routine else .idle
    origin := if r.baseline.isSome then some .reset else r.origin }

/-- The records before they are queued anew. -/
def idledRecord (r : PathRecord) : PathRecord := { r with state := .idle, hold := [], owed := [] }

theorem afterRequests_idled (s : State) :
    afterRequests (·.baseline.isSome) .routine .reset (s.setPaths (s.paths.map idledRecord)) =
      (s.setPaths (s.paths.map resetRecord)).setSched { s.sched with
        routine := s.sched.routine ++ (s.paths.filter (·.baseline.isSome)).map (·.circuit) } := by
  have hrecords : (s.paths.map idledRecord).map (fun r => if (r.baseline.isSome && r.state == .idle) = true then
      { r with state := .queued (if Mode.routine = .routine ∧ r.baseline = none then .census else .routine),
               origin := some .reset } else r) = s.paths.map resetRecord := by
    rw [List.map_map]
    refine List.map_congr_left fun r _ => ?_
    obtain ⟨circuit, line, add, state, origin, epoch, baseline, chain, verdict, hold, owed⟩ := r
    cases baseline <;> rfl
  have hcensus : (s.paths.map idledRecord).filter (fun r => r.baseline.isSome && r.state == .idle &&
      (Mode.routine == .census || Mode.routine == .routine && r.baseline.isNone)) = [] := by
    rw [List.filter_eq_nil_iff]
    intro r _
    cases r.baseline <;> simp
  have hroutine : ((s.paths.map idledRecord).filter fun r => r.baseline.isSome && r.state == .idle &&
      (Mode.routine == .routine && r.baseline.isSome)).map (·.circuit) =
        (s.paths.filter (·.baseline.isSome)).map (·.circuit) := by
    rw [List.filter_map, List.map_map]
    refine congrArg _ (List.filter_congr fun r _ => ?_)
    cases hb : r.baseline <;> simp [idledRecord, hb]
  have hpaths : (s.setPaths (s.paths.map idledRecord)).paths = s.paths.map idledRecord := rfl
  rw [afterRequests, hpaths, hrecords, hcensus, hroutine, List.map_nil, List.append_nil]
  rfl

theorem resetPaths_eq (hnd : (pathOrder s).Nodup) : resetPaths s =
    (s.setPaths (s.paths.map resetRecord)).setSched { s.sched with
      routine := s.sched.routine ++ (s.paths.filter (·.baseline.isSome)).map (·.circuit) } := by
  have horder : pathOrder (s.setPaths (s.paths.map idledRecord)) = pathOrder s := by
    rw [pathOrder, State.setPaths, List.map_map]
    rfl
  have hbased : ((s.paths.map idledRecord).filter (·.baseline.isSome)).map (·.circuit) =
      (s.paths.filter (·.baseline.isSome)).map (·.circuit) := by
    rw [List.filter_map, List.map_map]
    rfl
  rw [← afterRequests_idled, ← requestAudits_eq_afterRequests _ _ _ _ (horder.symm ▸ hnd)]
  exact congrArg (fun l => requestAudits l .routine .reset (s.setPaths (s.paths.map idledRecord))) hbased.symm

theorem idleMarking_eq (c : Nat) (s : State) : idleMarking c s = s.setLines (idleMarking c s).lines := by
  unfold idleMarking
  split <;> rfl

theorem idleSlotLines_eq (s : State) : idleSlotLines s = s.setLines (idleSlotLines s).lines := by
  refine List.foldlRecOn s.probes.slots _ (motive := fun v => v = s.setLines v.lines) rfl fun v hv o _ => ?_
  cases o with
  | none => exact hv
  | some p => exact (idleMarking_eq p.circuit v).trans (by rw [hv]; rfl)

/-- The Path Store, the Audit Scheduler and the Probe Unit after a LOOP RESET (R21, R68, R135). -/
theorem resetWork_eq (hnd : (pathOrder s).Nodup) : resetPaths (clearSlots (resetScheduler s)) =
    (((((s.setPaths (s.paths.map resetRecord)).setSched { s.sched with
      census := [], routine := (s.paths.filter (·.baseline.isSome)).map (·.circuit), current := none, stack := []
      admission := if s.sched.current = none then s.sched.admission else s.sched.shadow }).setProbes probesReset).setLines
        (idleSlotLines (resetScheduler s)).lines).setLoop
          (LoopPort.fair { s.loop with newNotices := s.loop.newNotices.filter (!·.payload.ofProbe) })) := by
  have hcleared : clearSlots (resetScheduler s) = (((resetScheduler s).setLines
      (idleSlotLines (resetScheduler s)).lines).setProbes probesReset).setLoop
        (LoopPort.fair { s.loop with newNotices := s.loop.newNotices.filter (!·.payload.ofProbe) }) := by
    rw [clearSlots, changeLoop, idleSlotLines_eq]
    rfl
  rw [hcleared, resetPaths_eq (by exact hnd)]
  rfl

/-- The Tag Scanner, the Window Unit, the Roster Unit and the alert, after them (R46, R114, R171, R182). -/
def resetUnits (s : State) : State :=
  raiseAlert .reset (((s.setScanner { s.scanner with watch := [], backlog := [] }).setWindows
    { s.windows with list := [], requests := [] }).setRoster { s.roster with joinRequest := false })

theorem resetBlocks_eq (s : State) : resetBlocks s = resetUnits (resetPaths (clearSlots (resetScheduler s))) := rfl

@[simp] theorem resetUnits_fields (s : State) :
    (resetUnits s).paths = s.paths ∧ (resetUnits s).sched = s.sched ∧ (resetUnits s).probes = s.probes ∧
    (resetUnits s).scanner = { s.scanner with watch := [], backlog := [] } ∧
    (resetUnits s).windows = { s.windows with list := [], requests := [] } ∧
    (resetUnits s).lines = s.lines ∧ (resetUnits s).hops = s.hops ∧ (resetUnits s).loop = s.loop := by
  simp [resetUnits, raiseAlert]

theorem resetWork_fields (hnd : (pathOrder s).Nodup) :
    (resetPaths (clearSlots (resetScheduler s))).paths = s.paths.map resetRecord ∧
    (resetPaths (clearSlots (resetScheduler s))).sched = { s.sched with
      census := [], routine := (s.paths.filter (·.baseline.isSome)).map (·.circuit), current := none, stack := []
      admission := if s.sched.current = none then s.sched.admission else s.sched.shadow } ∧
    (resetPaths (clearSlots (resetScheduler s))).probes = probesReset ∧
    (resetPaths (clearSlots (resetScheduler s))).scanner = s.scanner ∧
    (resetPaths (clearSlots (resetScheduler s))).windows = s.windows ∧
    (resetPaths (clearSlots (resetScheduler s))).lines = (idleSlotLines (resetScheduler s)).lines ∧
    (resetPaths (clearSlots (resetScheduler s))).hops = s.hops ∧
    (resetPaths (clearSlots (resetScheduler s))).loop = LoopPort.fair { s.loop with
      newNotices := s.loop.newNotices.filter (!·.payload.ofProbe) } := by
  rw [resetWork_eq hnd]
  simp

theorem blank_resetBlocks (s : State) : Blank (resetBlocks s) := by
  rw [resetBlocks_eq]
  refine ⟨by simp, ?_⟩
  have hslots : (resetPaths (clearSlots (resetScheduler s))).probes = (clearSlots (resetScheduler s)).probes := by simp
  simp only [resetUnits_fields, hslots]
  rfl

/-- What the statement asks of the blocks holds before the Loop Port's part, and what keeps the blocks keeps it. -/
theorem blocksReset_resetBlocks (h : MarkersOk s) : BlocksReset s (resetBlocks s) := by
  have hmarkers := h
  obtain ⟨_, hnd, _⟩ := hmarkers
  have hsched : MarkersOk (resetScheduler s) := markersOk_of_spines (s := s) rfl rfl rfl rfl h
  obtain ⟨hpaths, hscheduler, hprobes, hscanner, hwindows, hlines, hhops, _⟩ := resetWork_fields hnd
  rw [resetBlocks_eq]
  unfold BlocksReset
  simp only [resetUnits_fields, hpaths, hscheduler, hprobes, hscanner, hwindows, hlines, hhops]
  refine ⟨rfl, trivial, rfl, rfl, trivial, trivial, trivial, trivial, trivial, trivial, trivial, trivial, trivial,
    fun r hr => getD_idleSlotLines hsched hr, ?_⟩
  rw [resetUnits, alertSet_raiseAlert]
  exact Bool.or_true _

theorem blocksReset_of_kept (hkept : BlocksKept t u) (h : BlocksReset s t) : BlocksReset s u := by
  obtain ⟨⟨hp, hs, hh, hl⟩, ⟨hscan, hprobes, hwin⟩, _, halert, _⟩ := hkept
  unfold BlocksReset at h ⊢
  rw [hp, hs, hh, hl, hscan, hprobes, hwin]
  obtain ⟨h1, h2, h3, h4, h5, h6, h7, h8, h9, h10, h11, h12, h13, h14, hreset⟩ := h
  exact ⟨h1, h2, h3, h4, h5, h6, h7, h8, h9, h10, h11, h12, h13, h14, halert hreset⟩

/-! ### A dispatched LOOP RESET (R157) -/

theorem cleared_eq (p : Payload) : p.cleared = (3 ≤ p.kind && p.kind ≤ 9) := rfl

/-- The kinds that a LOOP RESET withdraws take in those that the Probe Unit withdraws (R68, R157). -/
theorem filter_cleared (l : List Request) : (l.filter (!·.payload.ofProbe)).filter (!·.payload.cleared) =
    l.filter fun q => !(3 ≤ q.payload.kind && q.payload.kind ≤ 9) := by
  rw [List.filter_filter]
  refine List.filter_congr fun q _ => ?_
  cases q.payload <;> rfl

/-- The state in which a dispatched LOOP RESET ends the outstanding notices. -/
def withdrawn (s : State) : State :=
  (resetBlocks s).setLoop (LoopPort.fair { (resetBlocks s).loop with
    newNotices := (resetBlocks s).loop.newNotices.filter (!·.payload.cleared) })

theorem takeLoopReset_eq (s : State) :
    takeLoopReset s = endEntries .reset (·.request.payload.cleared) (withdrawn s) := rfl

theorem resetBlocks_loop (hnd : (pathOrder s).Nodup) : (resetBlocks s).loop =
    LoopPort.fair { s.loop with newNotices := s.loop.newNotices.filter (!·.payload.ofProbe) } := by
  obtain ⟨_, _, _, _, _, _, _, hloop⟩ := resetWork_fields hnd
  rw [resetBlocks_eq]
  simp only [resetUnits_fields, hloop]

theorem withdrawn_loop (hnd : (pathOrder s).Nodup) : (withdrawn s).loop = { s.loop with
    newNotices := s.loop.newNotices.filter fun q => !(3 ≤ q.payload.kind && q.payload.kind ≤ 9)
    fairness := (withdrawn s).loop.fairness } := by
  rw [withdrawn, resetBlocks_loop hnd, State.setLoop, fair_eq, fair_eq]
  simp only [filter_cleared]

theorem kind_of_cleared {p : Payload} (h : p.cleared = true) : p.kind ≠ 1 ∧ p.kind ≠ 12 := by
  rw [cleared_eq, Bool.and_eq_true, decide_eq_true_eq, decide_eq_true_eq] at h
  omega

theorem exec_loopResetDispatch {r : Received} {rest : List Received} (hs : s.loop.receive = r :: rest)
    (hr : r.payload = .loopReset) : exec .loopResetDispatch s = .next (takeLoopReset (dispatched s)) := by
  have harm : exec .loopResetDispatch s = execLoopResetDispatch s := rfl
  rw [harm, execLoopResetDispatch, dispatchOldest_of_act hs (f := takeLoopReset) (by simp only [hr])]

/-! ### The command (R155) -/

/-- The state in which the own LOOP RESET ends the outstanding notices. -/
def emptied (s : State) : State :=
  (resetBlocks (keepPresent s)).setLoop
    { (resetBlocks (keepPresent s)).loop with newNotices := [], retries := [] }

theorem keepPresent_eq (s : State) : keepPresent s = s.setRoster { s.roster with
    presentRequest := s.roster.presentRequest || presentQueued s } := by
  unfold keepPresent
  cases presentQueued s with
  | true => simp
  | false =>
    rw [Bool.or_false]
    rfl

theorem ownLoopReset_eq (s : State) : ownLoopReset s = (endEntries .reset (fun _ => true) (emptied s)).setLoop
    { (endEntries .reset (fun _ => true) (emptied s)).loop with
      receive := (endEntries .reset (fun _ => true) (emptied s)).loop.receive.filter fun r =>
        !(r.payload.cleared || r.payload.kind == 12)
      newNotices := [⟨.loopReset, .own⟩]
      fairness := 0
      quarantine := true } := rfl

theorem filter_passed (l : List Received) : (l.filter fun r => !(r.payload.cleared || r.payload.kind == 12)) =
    l.filter fun r => r.payload.kind ∈ [1, 2, 10, 11] := by
  refine List.filter_congr fun r _ => ?_
  cases r.payload <;> rfl

theorem emptied_roster (s : State) : (emptied s).roster = { s.roster with
    joinRequest := false, presentRequest := s.roster.presentRequest || presentQueued s } := by
  rw [emptied, State.setLoop]
  dsimp only
  rw [resetBlocks_roster, keepPresent_eq]
  rfl

theorem emptied_loop (hnd : (pathOrder s).Nodup) : (emptied s).loop = { s.loop with
    newNotices := [], retries := [], fairness := (emptied s).loop.fairness } := by
  have hloop : (resetBlocks (keepPresent s)).loop = _ := resetBlocks_loop (s := keepPresent s) (by
    rw [keepPresent_eq]
    exact hnd)
  rw [emptied, State.setLoop]
  dsimp only
  rw [hloop, fair_eq, keepPresent_eq]
  rfl

theorem blank_emptied (s : State) : Blank (emptied s) := by
  have hblank := blank_resetBlocks (keepPresent s)
  exact ⟨hblank.windows, hblank.slots⟩

theorem blocksReset_emptied (h : MarkersOk s) : BlocksReset s (emptied s) := by
  have hmarkers : MarkersOk (keepPresent s) := by
    rw [keepPresent_eq]
    exact h
  have hreset := blocksReset_resetBlocks hmarkers
  unfold emptied
  rw [keepPresent_eq] at hreset ⊢
  exact hreset

end Sys2Proof.Machine
end

