-- ==== Sys2Proof/Proofs/LoopResetRules.lean ====
section
/-! LOOP RESET, commanded and dispatched (R155, R157, R171), and CLOSE WINDOW (R100), whose window it ends. -/

namespace Sys2Proof.Machine

variable {s : State} {n : Nat}

/-! ### LOOP RESET -/

theorem exec_loopReset_of_running (hrun : s.runState = .running) :
    exec .loopReset s = .next (answer .loopReset (serveLoopReset (heldCommand .loopReset s))) :=
  congrArg Host.Outcome.next (gate_of_running hrun)

theorem mayReset_iff (s : State) : mayReset s = true ↔ s.runState = .running ∧ s.roster.joined = true ∧
    s.loop.up = true ∧ s.loop.quarantine = false := by
  simp [mayReset, and_assoc]

theorem exec_loopReset_of_taken (hrun : s.runState = .running) (hjoined : s.roster.joined = true)
    (hup : s.loop.up = true) (hquarantine : s.loop.quarantine = false) : exec .loopReset s =
      .next (answer .loopReset ⟨.done, .empty, ownLoopReset (heldCommand .loopReset s)⟩) := by
  have hmay : mayReset (heldCommand .loopReset s) = true := (mayReset_iff _).2 ⟨hrun, hjoined, hup, hquarantine⟩
  rw [exec_loopReset_of_running hrun, serveLoopReset, if_pos hmay]

theorem exec_loopReset_of_refused (hrun : s.runState = .running)
    (h : s.roster.joined = false ∨ s.loop.up = false ∨ s.loop.quarantine = true) :
    exec .loopReset s = .next (answered .loopReset 0x40 .refusedState .empty s) := by
  have hmay : ¬ mayReset (heldCommand .loopReset s) = true := by
    rw [mayReset_iff]
    rintro ⟨_, hjoined, hup, hquarantine⟩
    have hjoined' : s.roster.joined = true := hjoined
    have hup' : s.loop.up = true := hup
    have hquarantine' : s.loop.quarantine = false := hquarantine
    simp [hjoined', hup', hquarantine'] at h
  rw [exec_loopReset_of_running hrun, serveLoopReset, if_neg hmay]
  rfl

/-- The entries that the own command ends are of no JOIN, once the station is JOINED (R162). -/
theorem kind_ne_one_of_joined (hjoined : s.roster.joined = true) (h : JoiningOk s) :
    ∀ o ∈ s.loop.outstanding, o.active = true → o.request.payload.kind ≠ 1 := by
  obtain ⟨hopen, _⟩ := h
  rw [if_neg (by simp [hjoined])] at hopen
  intro o ho hactive hkind
  have hnone : s.loop.outstanding.countP (fun o => o.standing != .lingering && o.request.payload.kind == 1) = 0 := by
    unfold openJoins at hopen
    omega
  rw [List.countP_eq_zero] at hnone
  refine hnone o ho ?_
  have hstanding : (o.standing != .lingering) = true := hactive
  simp [hstanding, hkind]

/-- The own LOOP RESET, block by block. -/
structure OwnReset (s t : State) : Prop where
  blocks      : BlocksReset s t
  loop        : t.loop = { s.loop with
    newNotices := [⟨.loopReset, .own⟩], retries := [], quarantine := true, fairness := 0
    outstanding := t.loop.outstanding
    receive := s.loop.receive.filter fun r => r.payload.kind ∈ [1, 2, 10, 11] }
  outstanding : ∀ o ∈ t.loop.outstanding, o.standing = .lingering
  entries     : ∀ k, 1 ≤ k → (rosterAt t k).acceptance = (rosterAt s k).acceptance ∧
    (k ≠ s.image.station → rosterAt t k = rosterAt s k)
  requests    : t.roster.joinRequest = false ∧
    t.roster.presentRequest = (s.roster.presentRequest || presentQueued s)
  roster      : s.roster.joined = true → JoiningOk s → t.roster = { s.roster with
    joinRequest := false, presentRequest := t.roster.presentRequest }

theorem ownReset_ownLoopReset (h : MarkersOk s) : OwnReset s (ownLoopReset s) := by
  have hmarkers := h
  obtain ⟨_, hnd, _⟩ := hmarkers
  have hblank := blank_emptied s
  have hkept : BlocksKept (emptied s) _ := blocksKept_endEntries hblank fun _ => true
  have hloop := emptied_loop hnd
  have hroster := emptied_roster s
  rw [ownLoopReset_eq]
  refine ⟨?_, ?_, ?_, ?_, ?_, ?_⟩
  · have hreset := blocksReset_of_kept hkept (blocksReset_emptied h)
    exact hreset
  · have hretries := hkept.retries (by rw [hloop])
    have hrest := hkept.loop
    rw [hretries, hloop] at hrest
    rw [State.setLoop]
    dsimp only
    rw [hrest]
    simp only [filter_passed]
  · exact fun o ho => lingering_of_endEntries .reset ho
  · intro k hk
    have hsame : rosterAt (emptied s) k = rosterAt s k := rosterAt_of_entries (by rw [hroster]) k
    have himage : (emptied s).image.station = s.image.station := by simp [emptied, keepPresent_eq]
    have hentries := hkept.entries k hk
    rw [hsame, himage] at hentries
    exact hentries
  · have hrequests := hkept.requests
    rw [hroster] at hrequests
    exact hrequests
  · intro hjoined hok
    have hsame : (endEntries .reset (fun _ => true) (emptied s)).roster = (emptied s).roster := by
      refine endEntries_roster hblank fun o ho hactive _ => ?_
      rw [hloop] at ho
      exact kind_ne_one_of_joined hjoined hok o ho hactive
    rw [State.setLoop]
    dsimp only
    rw [hsame, hroster]

theorem presentQueued_or (s : State) : (s.roster.presentRequest || presentQueued s) = (s.roster.presentRequest ||
    (s.loop.newNotices.any fun q => q.payload.kind == 2) ||
    (s.loop.outstanding.any fun o => o.standing == .retryWaiting && o.request.payload.kind == 2)) :=
  (Bool.or_assoc _ _ _).symm

/-- The state that an answered command leaves. -/
theorem blocksReset_of_command {c : Instr} {t : State} (h : BlocksReset (heldCommand c s) t) : BlocksReset s t := by
  unfold BlocksReset at h ⊢
  simp only [heldCommand_frame] at h
  exact h

/-- A dispatched LOOP RESET, block by block. -/
structure DispatchedReset (s t : State) : Prop where
  blocks      : BlocksReset s t
  loop        : t.loop = { s.loop with
    newNotices := s.loop.newNotices.filter fun q => !(3 ≤ q.payload.kind && q.payload.kind ≤ 9)
    retries := t.loop.retries, fairness := t.loop.fairness, outstanding := t.loop.outstanding }
  outstanding : ∀ o ∈ t.loop.outstanding, o.request.payload.cleared = true → o.standing = .lingering
  roster      : t.roster = { s.roster with joinRequest := false }

theorem dispatchedReset_takeLoopReset (h : MarkersOk s) : DispatchedReset s (takeLoopReset s) := by
  have hmarkers := h
  obtain ⟨_, hnd, _⟩ := hmarkers
  have hresetBlank := blank_resetBlocks s
  have hblank : Blank (withdrawn s) := ⟨hresetBlank.windows, hresetBlank.slots⟩
  have hkept : BlocksKept (withdrawn s) _ := blocksKept_endEntries hblank (·.request.payload.cleared)
  have hquarantine : (endEntries .reset (·.request.payload.cleared) (withdrawn s)).loop.quarantine = _ :=
    endEntries_quarantine hblank fun o _ ho => (kind_of_cleared ho).2
  have hroster : (endEntries .reset (·.request.payload.cleared) (withdrawn s)).roster = _ :=
    endEntries_roster hblank fun o _ _ ho => (kind_of_cleared ho).1
  have hloop := withdrawn_loop hnd
  rw [takeLoopReset_eq]
  refine ⟨?_, ?_, fun o ho hcleared => ?_, ?_⟩
  · have hreset := blocksReset_resetBlocks h
    have hwithdrawn : BlocksReset s (withdrawn s) := hreset
    exact blocksReset_of_kept hkept hwithdrawn
  · have hrest := hkept.loop
    rw [hquarantine, hloop] at hrest
    exact hrest
  · exact lingering_of_endEntries_of (p := (·.request.payload.cleared)) ho hcleared
  · rw [hroster]
    exact resetBlocks_roster s

/-- Settles O40: the command refused and taken, and a LOOP RESET dispatched. -/
theorem loopResetClearsTheBlocks : Obligations.LoopResetClearsTheBlocks := by
  refine ⟨fun s hrun h => exec_loopReset_of_refused hrun h, fun s hrun hjoined hup hquarantine hmarkers => ?_,
    fun r rest s hs hr hmarkers hrun => ?_⟩
  · have hexec := exec_loopReset_of_taken hrun hjoined hup hquarantine
    have hreset : OwnReset (heldCommand .loopReset s) _ := ownReset_ownLoopReset hmarkers
    generalize ownLoopReset (heldCommand .loopReset s) = x at hexec hreset
    obtain ⟨hblocks, hloop, houtstanding, hentries, ⟨hjoin, hpresent⟩, hroster⟩ := hreset
    refine ⟨_, hexec, blocksReset_of_command hblocks, rfl, ?_⟩
    have hanswer : (answer .loopReset ⟨.done, .empty, x⟩).loop = x.loop := rfl
    rw [hanswer]
    refine ⟨by rw [hloop], by rw [hloop], by rw [hloop], houtstanding, by rw [hloop]; rfl, by rw [hloop]; rfl,
      by rw [hloop]; rfl, by rw [hloop]; exact hup, fun k hk => ?_, hjoin, ?_, fun hok => hroster hjoined hok⟩
    · exact hentries k ((stationOk_iff k).1 ((mem_stationNumbers k).1 hk)).1
    · rw [← presentQueued_or]
      exact hpresent
  · have hreset : DispatchedReset (dispatched s) _ := dispatchedReset_takeLoopReset (s := dispatched s) hmarkers
    have hexec := exec_loopResetDispatch hs hr
    generalize takeLoopReset (dispatched s) = t at hexec hreset
    obtain ⟨hblocks, hloop, houtstanding, hroster⟩ := hreset
    have hreceive : (dispatched s).loop.receive = rest := by simp [dispatched, hs]
    refine ⟨t, hexec, hblocks, by rw [hloop]; rfl, fun o ho hlow hhigh => houtstanding o ho ?_,
      by rw [hloop]; exact hreceive, by rw [hloop]; rfl, by rw [hloop]; rfl, by rw [hloop]; rfl, by rw [hloop]; rfl,
      hroster⟩
    rw [cleared_eq, Bool.and_eq_true, decide_eq_true_eq, decide_eq_true_eq]
    exact ⟨hlow, hhigh⟩

/-! ### CLOSE WINDOW (R100) -/

theorem exec_closeWindow_of_running (q code : Byte) (hrun : s.runState = .running) :
    exec (.closeWindow q code) s = .next (answer (.closeWindow q code)
      (serveCloseWindow q.toNat code.toNat (heldCommand (.closeWindow q code) s))) :=
  congrArg Host.Outcome.next (gate_of_running hrun)

theorem settleMs_eq (im : Image) (code : Nat) : settleMs im code = settleTimeMs im.settleCode code := by
  have hcode (c : Nat) : settleCodeMs c =
      if c ≤ 120 then c * 1000 else if c ≤ 180 then (120 + (c - 120) * 10) * 1000 else (720 + (c - 180) * 60) * 1000 := by
    unfold settleCodeMs
    split
    · rfl
    · split <;> omega
  unfold settleMs settleTimeMs
  rw [hcode, hcode]
  dsimp only
  by_cases h : code = 255
  · simp only [if_pos h]
  · simp only [if_neg h]

theorem inOwnWindow_of_settling {w : Window} {q : Nat} (hw : findWindow s ⟨s.image.station, q⟩ = some w)
    (hstate : w.state = .settling) {p : Nat} (hp : portIn w.scope p = true) : inOwnWindow s p = true := by
  refine List.any_eq_true.2 ⟨w, List.mem_of_find?_eq_some hw, ?_⟩
  simp [serial_of_findWindow hw, State.own, hstate, hp]

theorem findWindow_cancelled (ser : Serial) (announced : Bool) (s : State) :
    findWindow (cancelled ser announced s) ser = none := by
  have hentry : findWindow (cancelWindowEntry ser s) ser = none := by
    rw [cancelWindowEntry, findWindow_dropWindow, if_pos rfl]
  unfold cancelled
  split
  · exact hentry
  · exact hentry

theorem windows_ownLoopReset (s : State) : (ownLoopReset s).windows.list = [] := by
  have hblank := (blocksKept_endEntries (blank_emptied s) fun _ => true).blank (blank_emptied s)
  exact hblank.windows

/-- Settles O28: the command's refusals, its timer, and the two commands that end a SETTLING window. -/
theorem closeWindowStartsTheSettleTimer : Obligations.CloseWindowStartsTheSettleTimer := by
  intro q code s hrun
  refine ⟨fun hnone => ?_, fun w hw hstate => ?_, fun w hw hstate => ?_, fun w hw hstate =>
    ⟨fun p _ hp => inOwnWindow_of_settling hw hstate hp, ?_⟩, fun hjoined hup hquarantine => ?_⟩
  · have hfound : findWindow (heldCommand (.closeWindow q code) s) ⟨(heldCommand (.closeWindow q code) s).own, q.toNat⟩ =
        none := hnone
    rw [exec_closeWindow_of_running q code hrun, serveCloseWindow, hfound]
    rfl
  · have hfound : findWindow (heldCommand (.closeWindow q code) s) ⟨(heldCommand (.closeWindow q code) s).own, q.toNat⟩ =
        some w := hw
    rw [exec_closeWindow_of_running q code hrun, serveCloseWindow, hfound]
    dsimp only
    rw [if_pos hstate]
    rfl
  · have hfound : findWindow (heldCommand (.closeWindow q code) s) ⟨(heldCommand (.closeWindow q code) s).own, q.toNat⟩ =
        some w := hw
    rw [exec_closeWindow_of_running q code hrun, serveCloseWindow, hfound]
    dsimp only
    rw [if_neg (not_not.2 hstate), settleMs_eq]
    rfl
  · have hfound : findWindow (heldCommand (.cancelWindow q) s) ⟨(heldCommand (.cancelWindow q) s).own, q.toNat⟩ =
        some w := hw
    refine ⟨_, exec_cancelWindow_of_running q s hrun, ?_⟩
    rw [serveCancelWindow_of_inForce q.toNat w _ hfound (by simp [Window.inForce, hstate])]
    exact findWindow_cancelled _ _ _
  · exact ⟨_, exec_loopReset_of_taken hrun hjoined hup hquarantine, windows_ownLoopReset _⟩

end Sys2Proof.Machine
end

