-- ==== Sys2Proof/Proofs/ProbeEnd.lean ====
section
/-! A dispatched PROBE END: the hop entry from two reported ports, and the watch entry that goes (R2, R6, R7, R33,
R70). -/

namespace Sys2Proof.Machine

variable {s : State} {c e : Nat} {v : Verdict} {w : WatchEntry}

/-! ### Two reported ports -/

theorem portsOf_pair : ∀ i ∈ List.range 16, ∀ o ∈ List.range 16, i ≠ o →
    portsOf (addPort (addPort 0 i) o) = if i < o then [i, o] else [o, i] := by
  decide

theorem mem_portsOf {x : PortSet} {p : Nat} : p ∈ portsOf x ↔ p < 16 ∧ portIn x p = true := by
  rw [portsOf, List.mem_filter, List.mem_range]

theorem isIn_ne_isOut {k : PortClass} (hin : k.isIn = true) : k.isOut = false := by
  cases k <;> simp_all [PortClass.isIn, PortClass.isOut]

theorem addPort_comm (i o : Nat) : addPort (addPort 0 i) o = addPort (addPort 0 o) i := by
  rw [addPort, addPort, BitVec.or_assoc, BitVec.or_comm (BitVec.twoPow 16 i), ← BitVec.or_assoc]
  rfl

/-- Two ports of opposite sides are reported. -/
def SidesReported (im : Image) (reported : PortSet) (i o : Nat) : Prop :=
  i < 16 ∧ o < 16 ∧ (im.classAt i).isIn = true ∧ (im.classAt o).isOut = true ∧
    reported = addPort (addPort 0 i) o

theorem reportedPair_of_sides {im : Image} {x : PortSet} {i o : Nat} (h : SidesReported im x i o) :
    reportedPair im x = some (i, o) := by
  obtain ⟨hi, ho, hin, hout, rfl⟩ := h
  have hne : i ≠ o := by
    rintro rfl
    simp [isIn_ne_isOut hin] at hout
  have hcross : ((im.classAt o).isIn && (im.classAt i).isOut) = false := by simp [isIn_ne_isOut hin]
  rw [reportedPair, portsOf_pair i (List.mem_range.2 hi) o (List.mem_range.2 ho) hne]
  split
  · rename_i a b hlist
    split at hlist
    · cases hlist
      rw [hin, hout]
      rfl
    · cases hlist
      rw [hcross, hin, hout]
      rfl
  · rename_i hlist
    split at hlist
    · exact absurd rfl (hlist i o)
    · exact absurd rfl (hlist o i)

/-- A port set is the two ports that it lists. -/
theorem eq_addPort_of_portsOf {x : PortSet} {a b : Nat} (h : portsOf x = [a, b]) :
    a < 16 ∧ b < 16 ∧ x = addPort (addPort 0 a) b := by
  have hmem (p : Nat) : (p < 16 ∧ portIn x p = true) ↔ p = a ∨ p = b := by
    rw [← mem_portsOf, h]
    simp
  obtain ⟨ha, _⟩ := (hmem a).2 (.inl rfl)
  obtain ⟨hb, _⟩ := (hmem b).2 (.inr rfl)
  refine ⟨ha, hb, BitVec.eq_of_getLsbD_eq fun p hp => ?_⟩
  have hbit : portIn x p = portIn (addPort (addPort 0 a) b) p := by
    rw [portIn_addPort, portIn_addPort, Bool.eq_iff_iff]
    have hiff := hmem p
    simp only [hp, true_and] at hiff
    rw [hiff]
    simp [hp, portIn]
  exact hbit

theorem reportedPair_eq_none {im : Image} {x : PortSet} (h : ∀ i o, ¬ SidesReported im x i o) :
    reportedPair im x = none := by
  unfold reportedPair
  split
  · rename_i a b hlist
    obtain ⟨ha, hb, hx⟩ := eq_addPort_of_portsOf hlist
    split
    · rename_i hsides
      rw [Bool.and_eq_true] at hsides
      exact absurd ⟨ha, hb, hsides.1, hsides.2, hx⟩ (h a b)
    · split
      · rename_i hsides
        rw [Bool.and_eq_true] at hsides
        exact absurd ⟨hb, ha, hsides.2, hsides.1, hx.trans (addPort_comm a b)⟩ (h b a)
      · rfl
  · rfl

theorem length_portsOf_of_sides {im : Image} {x : PortSet} {i o : Nat} (h : SidesReported im x i o) :
    (portsOf x).length = 2 := by
  obtain ⟨hi, ho, hin, hout, rfl⟩ := h
  have hne : i ≠ o := by
    rintro rfl
    simp [isIn_ne_isOut hin] at hout
  rw [portsOf_pair i (List.mem_range.2 hi) o (List.mem_range.2 ho) hne]
  split <;> rfl

/-! ### PROBE_END_DISPATCH -/

theorem positive_iff (v : Verdict) : v.positive = true ↔ v ∈ [.pass, .degraded, .rerouted, .baselined] := by
  cases v <;> simp [Verdict.positive]

theorem exec_probeEndDispatch {a : Received} {f : VerdictFlags} {rest : List Received}
    (hs : s.loop.receive = a :: rest) (ha : a.payload = .probeEnd c e v f) :
    exec .probeEndDispatch s = .next (takeProbeEnd c e v (dispatched s)) := by
  have harm : exec .probeEndDispatch s = execProbeEndDispatch s := rfl
  rw [harm, execProbeEndDispatch, dispatchOldest_of_act hs (f := takeProbeEnd c e v) (by simp only [ha])]

theorem takeProbeEnd_of_unmatched (h : ∀ w, findWatch s c = some w → w.epoch ≠ e) : takeProbeEnd c e v s = s := by
  unfold takeProbeEnd
  split
  · rfl
  · rename_i w hw
    exact if_neg (h w hw)

theorem takeProbeEnd_of_matched (hw : findWatch s c = some w) (he : w.epoch = e) :
    takeProbeEnd c e v s = dropWatch c (if v.positive then learnHop w s else s) := by
  rw [takeProbeEnd, hw]
  exact if_pos he

theorem learnHop_of_sides {i o : Nat} (hpath : findPath s w.circuit = none)
    (hsides : SidesReported s.image w.reported i o) : learnHop w s = writeHop (learnedHop s.image w i o) s := by
  rw [learnHop, if_neg (by simp [hpath]), reportedPair_of_sides hsides]

theorem learnHop_of_none (hpath : findPath s w.circuit = none)
    (hnone : ∀ i o, ¬ SidesReported s.image w.reported i o) :
    learnHop w s = s.setHops (removeHop s.hops w.circuit) := by
  rw [learnHop, if_neg (by simp [hpath]), reportedPair_eq_none hnone]

/-- Settles O55: the entry goes with the matching PROBE END, and the table follows a positive one. -/
theorem probeEndDispatchUpdatesTheTable : Obligations.ProbeEndDispatchUpdatesTheTable := by
  refine ⟨⟨rfl, rfl, rfl, rfl⟩, fun a c e v f rest s hs ha => ⟨fun hnone => ?_, fun w hw he => ?_⟩⟩
  · rw [exec_probeEndDispatch hs ha, takeProbeEnd_of_unmatched (s := dispatched s) hnone]
  · have hexec := exec_probeEndDispatch hs ha
    have hloop : (dispatched s).loop = { s.loop with receive := rest } := by
      rw [dispatched, hs]
      rfl
    rw [takeProbeEnd_of_matched (s := dispatched s) hw he] at hexec
    have hrest (x : State) (hx : x = if v.positive then learnHop w (dispatched s) else dispatched s) :
        x.loop = { s.loop with receive := rest } ∧ x.scanner = s.scanner ∧ x.paths = s.paths ∧ x.probes = s.probes ∧
          x.windows = s.windows ∧ x.sched = s.sched ∧ x.roster = s.roster ∧ x.lines = s.lines := by
      rw [hx, ← hloop]
      split <;> simp [dispatched]
    obtain ⟨hl, hscan, hblocks⟩ := hrest _ rfl
    refine ⟨_, hexec, by simpa using hl, by rw [dropWatch, hscan]; rfl, fun hkeep => ?_, fun hv hpath hwc => ?_,
      by simpa using hblocks⟩
    · have hsame : (if v.positive then learnHop w (dispatched s) else dispatched s) = dispatched s := by
        rcases hkeep with hv | hpath
        · exact if_neg fun hpos => hv ((positive_iff v).1 hpos)
        · have hwc : w.circuit = c := by simpa using List.find?_some hw
          have hown : (findPath (dispatched s) w.circuit).isSome = true := hwc.symm ▸ hpath
          rw [learnHop, if_pos hown, ite_self]
      rw [hsame]
      exact ⟨rfl, rfl⟩
    · have hpath' : findPath (dispatched s) w.circuit = none := by rw [hwc]; exact hpath
      have hremoved (hnone : ∀ i o, ¬ SidesReported s.image w.reported i o) :
          (dropWatch c (learnHop w (dispatched s))).ctl = s.ctl ∧
            (dropWatch c (learnHop w (dispatched s))).hops = s.hops.filter fun x => x.circuit != c := by
        rw [learnHop_of_none (s := dispatched s) hpath' hnone, hwc]
        exact ⟨rfl, rfl⟩
      rw [if_pos ((positive_iff v).2 hv)]
      refine ⟨fun i hi o ho hin hout hrep => ?_, fun hnone => hremoved fun i o hsides => ?_,
        fun hlen => hremoved fun i o hsides => hlen (length_portsOf_of_sides hsides)⟩
      · rw [learnHop_of_sides (s := dispatched s) hpath'
          ⟨List.mem_range.1 hi, List.mem_range.1 ho, hin, hout, hrep⟩, writeHop]
        have hcircuit : (learnedHop s.image w i o).circuit = c := hwc
        refine ⟨fun hroom => ?_, fun hnew hfull => ?_⟩
        · rw [if_pos (by simpa [hcircuit, dispatched, Config.hopCapacity, learnedHop, hwc] using hroom)]
          refine ⟨rfl, ?_⟩
          rw [← hwc]
          rfl
        · rw [if_neg (by simp [dispatched, Config.hopCapacity, learnedHop, hwc, hnew, hfull])]
          refine ⟨rfl, ?_⟩
          have hctl (u : State) : (dropWatch c u).ctl = u.ctl := by simp
          rw [hctl, faultSet_setFault]
          exact Bool.or_true _
      · obtain ⟨hi, ho, hin, hout, hrep⟩ := hsides
        exact hnone i (List.mem_range.2 hi) o (List.mem_range.2 ho) hin hout hrep

end Sys2Proof.Machine
end

