-- ==== Sys2Proof/Proofs/Dwells.lean ====
section
/-! The end of a dwell: the order of its result, the walk, and the answer to READ PORT (R25, R26, R28, R29). -/

namespace Sys2Proof.Machine

variable {s : State}

/-! ### The tags of a result, in order (R26) -/

/-- The order of a result's tags. -/
def Precedes (x y : Tag) : Prop := x.circuit < y.circuit ∨ (x.circuit = y.circuit ∧ x.epoch < y.epoch)

/-- One marking: the same circuit and the same epoch. -/
def SameMark (x y : Tag) : Prop := x.circuit = y.circuit ∧ x.epoch = y.epoch

theorem tagBefore_iff (x y : Tag) : tagBefore x y = true ↔ Precedes x y := by
  simp [tagBefore, Precedes]

theorem sameMark_of_incomparable {x y : Tag} (h : ¬ Precedes x y) (h' : ¬ Precedes y x) : SameMark x y := by
  unfold Precedes at h h'
  unfold SameMark
  omega

theorem Precedes.trans {x y z : Tag} (h : Precedes x y) (h' : Precedes y z) : Precedes x z := by
  unfold Precedes at *
  omega

theorem insertTag_before {t x : Tag} (rest : List Tag) (h : Precedes t x) :
    insertTag t (x :: rest) = t :: x :: rest := if_pos ((tagBefore_iff t x).2 h)

theorem insertTag_after {t x : Tag} (rest : List Tag) (h : ¬ Precedes t x) (h' : Precedes x t) :
    insertTag t (x :: rest) = x :: insertTag t rest := by
  rw [insertTag, if_neg (mt (tagBefore_iff t x).1 h), if_pos ((tagBefore_iff x t).2 h')]

theorem insertTag_same {t x : Tag} (rest : List Tag) (h : ¬ Precedes t x) (h' : ¬ Precedes x t) :
    insertTag t (x :: rest) = { x with level := max x.level t.level } :: rest := by
  rw [insertTag, if_neg (mt (tagBefore_iff t x).1 h), if_neg (mt (tagBefore_iff x t).1 h')]

/-- A tag taken in precedes nothing that the list and the tag did not. -/
theorem precedes_insertTag {z t : Tag} (hz : Precedes z t) : ∀ l : List Tag, (∀ x ∈ l, Precedes z x) →
    ∀ x ∈ insertTag t l, Precedes z x
  | [], _, x, hx => by rwa [List.mem_singleton.1 hx]
  | a :: rest, hl, x, hx => by
    have ha := hl a (List.mem_cons_self ..)
    have hrest (y) (hy : y ∈ rest) : Precedes z y := hl y (List.mem_cons_of_mem _ hy)
    by_cases h : Precedes t a
    · rw [insertTag_before rest h] at hx
      obtain rfl | hx := List.mem_cons.1 hx
      · exact hz
      · exact hl x hx
    by_cases h' : Precedes a t
    · rw [insertTag_after rest h h'] at hx
      obtain rfl | hx := List.mem_cons.1 hx
      · exact ha
      · exact precedes_insertTag hz rest hrest x hx
    · rw [insertTag_same rest h h'] at hx
      obtain rfl | hx := List.mem_cons.1 hx
      · exact ha
      · exact hrest x hx

theorem insertTag_pairwise (t : Tag) : ∀ l : List Tag, l.Pairwise Precedes →
    (insertTag t l).Pairwise Precedes
  | [], _ => List.pairwise_singleton ..
  | a :: rest, hl => by
    obtain ⟨ha, hrest⟩ := List.pairwise_cons.1 hl
    by_cases h : Precedes t a
    · rw [insertTag_before rest h]
      exact List.pairwise_cons.2 ⟨fun y hy => (List.mem_cons.1 hy).elim (· ▸ h) fun hy => h.trans (ha y hy), hl⟩
    by_cases h' : Precedes a t
    · rw [insertTag_after rest h h']
      exact List.pairwise_cons.2 ⟨precedes_insertTag h' rest ha, insertTag_pairwise t rest hrest⟩
    · rw [insertTag_same rest h h']
      exact List.pairwise_cons.2 ⟨ha, hrest⟩

theorem not_sameMark_of_precedes {x y : Tag} (h : Precedes x y) : ¬ SameMark y x := by
  unfold Precedes at h
  unfold SameMark
  omega

/-- A tag of an ordered list after one is taken in: an old one of another marking, the new one where its marking
is new, or the stronger of the two. -/
theorem mem_insertTag {t x : Tag} : ∀ l : List Tag, l.Pairwise Precedes → x ∈ insertTag t l →
    (x ∈ l ∧ ¬ SameMark x t) ∨ (x = t ∧ ∀ y ∈ l, ¬ SameMark y t) ∨
      ∃ y ∈ l, SameMark y t ∧ x = { y with level := max y.level t.level }
  | [], _, hx => .inr (.inl ⟨List.mem_singleton.1 hx, by simp⟩)
  | a :: rest, hl, hx => by
    obtain ⟨ha, hrest⟩ := List.pairwise_cons.1 hl
    by_cases h : Precedes t a
    · have hnew (y) (hy : y ∈ a :: rest) : ¬ SameMark y t :=
        not_sameMark_of_precedes ((List.mem_cons.1 hy).elim (· ▸ h) fun hy => h.trans (ha y hy))
      rw [insertTag_before rest h] at hx
      obtain rfl | hx := List.mem_cons.1 hx
      · exact .inr (.inl ⟨rfl, hnew⟩)
      · exact .inl ⟨hx, hnew x hx⟩
    by_cases h' : Precedes a t
    · have hne : ¬ SameMark a t := fun hs => not_sameMark_of_precedes h' ⟨hs.1.symm, hs.2.symm⟩
      rw [insertTag_after rest h h'] at hx
      obtain rfl | hx := List.mem_cons.1 hx
      · exact .inl ⟨List.mem_cons_self .., hne⟩
      obtain ⟨hold, hother⟩ | ⟨rfl, hnew⟩ | ⟨y, hy, hsame, rfl⟩ := mem_insertTag rest hrest hx
      · exact .inl ⟨List.mem_cons_of_mem _ hold, hother⟩
      · exact .inr (.inl ⟨rfl, List.forall_mem_cons.2 ⟨hne, hnew⟩⟩)
      · exact .inr (.inr ⟨y, List.mem_cons_of_mem _ hy, hsame, rfl⟩)
    · have hsame := sameMark_of_incomparable h' h
      rw [insertTag_same rest h h'] at hx
      obtain rfl | hx := List.mem_cons.1 hx
      · exact .inr (.inr ⟨a, List.mem_cons_self .., hsame, rfl⟩)
      · refine .inl ⟨List.mem_cons_of_mem _ hx, fun hs => not_sameMark_of_precedes (ha x hx) ?_⟩
        exact ⟨hs.1.trans hsame.1.symm, hs.2.trans hsame.2.symm⟩

theorem exists_insertTag {t y : Tag} : ∀ l : List Tag, y = t ∨ y ∈ l → ∃ x ∈ insertTag t l, SameMark x y
  | [], hy => ⟨t, List.mem_singleton.2 rfl, by obtain rfl | hy := hy; exacts [⟨rfl, rfl⟩, absurd hy (by simp)]⟩
  | a :: rest, hy => by
    have hself (z : Tag) : SameMark z z := ⟨rfl, rfl⟩
    by_cases h : Precedes t a
    · rw [insertTag_before rest h]
      exact ⟨y, by simpa using hy, hself y⟩
    by_cases h' : Precedes a t
    · rw [insertTag_after rest h h']
      have hy' : y = a ∨ y = t ∨ y ∈ rest := by simpa [or_left_comm] using hy
      obtain rfl | hin := hy'
      · exact ⟨y, List.mem_cons_self .., hself y⟩
      · obtain ⟨x, hx, hsame⟩ := exists_insertTag rest hin
        exact ⟨x, List.mem_cons_of_mem _ hx, hsame⟩
    · have hsame := sameMark_of_incomparable h' h
      rw [insertTag_same rest h h']
      obtain rfl | hy := hy
      · exact ⟨_, List.mem_cons_self .., hsame⟩
      obtain rfl | hy := List.mem_cons.1 hy
      · exact ⟨_, List.mem_cons_self .., rfl, rfl⟩
      · exact ⟨y, List.mem_cons_of_mem _ hy, hself y⟩

/-- An ordered list that holds each marking found once, at its strongest level. -/
structure Gathered (found l : List Tag) : Prop where
  ordered : l.Pairwise Precedes
  strongest : ∀ x ∈ l, x ∈ found ∧ ∀ y ∈ found, SameMark y x → y.level ≤ x.level
  listed : ∀ y ∈ found, ∃ x ∈ l, SameMark x y

theorem gathered_insertTag {found l : List Tag} (t : Tag) (h : Gathered found l) :
    Gathered (found ++ [t]) (insertTag t l) where
  ordered := insertTag_pairwise t l h.ordered
  strongest x hx := by
    have hlevel {z : Tag} (hz : z ∈ l) {y : Tag} (hy : y ∈ found) (hs : SameMark y z) : y.level ≤ z.level :=
      (h.strongest z hz).2 y hy hs
    obtain ⟨hold, hother⟩ | ⟨rfl, hnew⟩ | ⟨z, hz, hsame, rfl⟩ := mem_insertTag l h.ordered hx
    · refine ⟨List.mem_append_left _ (h.strongest x hold).1, fun y hy hs => ?_⟩
      obtain hy | hy := List.mem_append.1 hy
      · exact hlevel hold hy hs
      · rw [List.mem_singleton.1 hy] at hs
        exact absurd ⟨hs.1.symm, hs.2.symm⟩ hother
    · refine ⟨by simp, fun y hy hs => ?_⟩
      obtain hy | hy := List.mem_append.1 hy
      · obtain ⟨z, hz, hzy⟩ := h.listed y hy
        exact absurd ⟨hzy.1.trans hs.1, hzy.2.trans hs.2⟩ (hnew z hz)
      · rw [List.mem_singleton.1 hy]
    · refine ⟨List.mem_append.2 ?_, fun y hy hs => ?_⟩
      · obtain hle | hle := Nat.le_total t.level z.level
        · rw [Nat.max_eq_left hle]
          exact .inl (h.strongest z hz).1
        · rw [Nat.max_eq_right hle, hsame.1, hsame.2]
          exact .inr (List.mem_singleton.2 rfl)
      · obtain hy | hy := List.mem_append.1 hy
        · exact (hlevel hz hy hs).trans (Nat.le_max_left ..)
        · rw [List.mem_singleton.1 hy]
          exact Nat.le_max_right ..
  listed y hy := by
    obtain hy | hy := List.mem_append.1 hy
    · obtain ⟨x, hx, hxy⟩ := h.listed y hy
      obtain ⟨z, hz, hzx⟩ := exists_insertTag (t := t) l (.inr hx)
      exact ⟨z, hz, hzx.1.trans hxy.1, hzx.2.trans hxy.2⟩
    · rw [List.mem_singleton.1 hy]
      exact exists_insertTag l (.inl rfl)

theorem gathered_foldl (found : List Tag) : ∀ {done l : List Tag}, Gathered done l →
    Gathered (done ++ found) (found.foldl (fun l t => insertTag t l) l) := by
  induction found with
  | nil => intro done l h; simpa using h
  | cons t rest ih =>
    intro done l h
    have h' := ih (gathered_insertTag t h)
    rwa [List.append_assoc] at h'

theorem gathered_orderedTags (found : List Tag) :
    Gathered (found.filter (·.circuit != 0)) (orderedTags found) :=
  gathered_foldl _ (done := []) ⟨List.Pairwise.nil, by simp, by simp⟩

/-! ### The next port (R25, R28) -/

theorem nextWalkPort_some (im : Image) (q : Nat) : nextWalkPort im (some q) =
    ((List.range 16).filter (fun x => im.classAt x != .unused && decide (q < x)) ++
      (List.range 16).filter (fun x => im.classAt x != .unused)).head? := by
  rw [nextWalkPort, Image.dwelled, List.head?_append, List.head?_filter, List.head?_filter, List.find?_filter]
  simp only [Bool.decide_and, Bool.decide_eq_true]
  cases List.find? (fun x => im.classAt x != .unused && decide (q < x)) (List.range 16) <;> rfl

theorem beginDwell_of_request {p : Nat} (h : s.scanner.request = some p) : beginDwell s = s.setScanner
    { s.scanner with request := none, dwell := some ⟨p, true, true, s.now + dwellMs s.image.dwellCode⟩ } := by
  rw [beginDwell, h]
  rfl

theorem beginDwell_of_walk {p : Nat} (h : s.scanner.request = none)
    (hnext : nextWalkPort s.image s.scanner.walkPort = some p) : beginDwell s = s.setScanner
    { s.scanner with
      walkPort := some p, dwell := some ⟨p, false, false, s.now + dwellMs s.image.dwellCode⟩ } := by
  rw [beginDwell, h]
  dsimp only
  rw [hnext]
  rfl

theorem beginDwell_monitors (s : State) : (beginDwell s).scanner.monitors = s.scanner.monitors := by
  unfold beginDwell startDwell changeScanner
  repeat' split
  all_goals rfl

/-! ### What a result leaves unchanged -/

theorem response_creditRun (p : Probe) (v : Verdict) (s : State) :
    (creditRun p v s).ctl.response = s.ctl.response := by
  unfold creditRun
  repeat' split
  exacts [rfl, (posted_touchRun _ _ _ s).response, rfl]

/-- The response and the sequence number of windows. -/
def answerView (s : State) : Option Response × Nat := (s.ctl.response, s.windows.seq)

theorem answerView_summaryTest (ser : Serial) (s : State) : answerView (summaryTest ser s) = answerView s := by
  unfold summaryTest
  split
  · rfl
  split
  · refine Prod.ext ?_ ?_
    · exact (postReport_response _ s).1
    · exact congrArg (·.seq) (by simp : (postReport _ s).windows = s.windows)
  · rfl

theorem answerView_tallyTest (ser : Serial) (s : State) : answerView (tallyTest ser s) = answerView s := by
  have hrecord (t : Tally) : answerView (recordTally ser s.own t s) = answerView s := by
    unfold recordTally
    repeat' split
    · rfl
    · rw [answerView_summaryTest]
      rfl
    · rfl
  have hrequest : answerView (requestTally ser s) = answerView s := by
    unfold requestTally
    split <;> rfl
  unfold tallyTest
  repeat' split
  all_goals simp only [hrecord, hrequest]

theorem answerView_moveForVerdict (j : Judgement) (r : PathRecord) (s : State) :
    answerView (moveForVerdict j r s) = answerView s := by
  have hcredit (t : State) (ser : Serial) :
      answerView (creditWindow j.record.circuit j.record.verdict t ser) = answerView t := by
    rw [creditWindow, answerView_tallyTest]
    rfl
  have howed (owed : List Serial) (t : State) : answerView (creditOwed j owed t) = answerView t := by
    rw [creditOwed, foldl_keeps _ _ _ answerView hcredit]
    rfl
  unfold moveForVerdict
  dsimp only
  repeat' split
  · rfl
  · rw [howed]
    rfl
  · exact Prod.ext (by simp [answerView]) (by simp [answerView])
  · rfl

theorem answerView_evaluate (i : Nat) (s : State) : answerView (evaluate i s) = answerView s := by
  have hcredit (p : Probe) (v : Verdict) (t : State) : answerView (creditRun p v t) = answerView t :=
    Prod.ext (response_creditRun p v t) (by simp [answerView])
  have hpost (r : Report) (t : State) : answerView (postReport r t) = answerView t :=
    Prod.ext (postReport_response r t).1 (by simp [answerView])
  have hrecord (j : Judgement) (p : Probe) (r : PathRecord) (t : State) :
      answerView (recordVerdict j p r t) = answerView t := by
    rw [recordVerdict, hcredit, hpost, answerView_moveForVerdict]
    simp [answerView]
  unfold evaluate
  repeat' split
  · rfl
  · rfl
  · rename_i p _ _ r _
    dsimp only
    rw [← hrecord (judgeProbe s p r) p r s]
    simp [answerView]

theorem answerView_offerItem (x : Item) (s : State) : answerView (offerItem x s) = answerView s := by
  have htest (i : Nat) (t : State) : answerView (testEarly i t) = answerView t := by
    unfold testEarly
    repeat' split
    exacts [rfl, answerView_evaluate i t, rfl]
  unfold offerItem intake
  repeat' split
  · rfl
  · rfl
  · rfl
  · rfl
  · rw [htest]
    rfl

/-- What a dwell's result does not touch of the scanner, the response and the window sequence. -/
def dwellView (s : State) : Option Nat × Option Dwell × Option Nat × List LossMonitor × Option Response × Nat :=
  (s.scanner.request, s.scanner.dwell, s.scanner.walkPort, s.scanner.monitors, answerView s)

theorem dwellView_raiseStray (e : HopEntry) (k : StrayKind) (p : Nat) (s : State) :
    dwellView (raiseStray e k p s) = dwellView s := by
  unfold raiseStray changeScanner
  repeat' split
  all_goals simp [dwellView, answerView]

theorem dwellView_classifyTag (p : Nat) (s : State) (t : Tag) : dwellView (classifyTag p s t) = dwellView s := by
  have hoffer (x : Item) : dwellView (offerItem x s) = dwellView s := by
    simp [dwellView, answerView_offerItem]
  unfold classifyTag checkIdle classifyProbe watchTag backlogItem reportPort changeScanner
  repeat' split
  all_goals simp only [dwellView_raiseStray, hoffer]
  all_goals rfl

theorem dwellView_updateMissing (r : DwellResult) (s : State) (c : Nat) :
    dwellView (updateMissing r s c) = dwellView s := by
  have hcount (e : HopEntry) : dwellView (countMissing e r.port s) = dwellView s := by
    unfold countMissing
    dsimp only
    split
    · rw [dwellView_raiseStray]
      rfl
    · rfl
  unfold updateMissing
  repeat' split
  exacts [rfl, rfl, rfl, rfl, hcount _]

theorem dwellView_handleDwell (r : DwellResult) (s : State) : dwellView (handleDwell r s) = dwellView s := by
  unfold handleDwell
  dsimp only
  rw [foldl_keeps _ _ _ dwellView (dwellView_updateMissing r), foldl_keeps _ _ _ dwellView (dwellView_classifyTag _)]

/-! ### The end of a dwell -/

/-- The result of a dwell, in the words of R26. -/
theorem dwellResult_spec (port : Nat) (found : List Tag) {r : DwellResult} (hr : r = dwellResult port found) :
    r.port = port ∧ r.tags.Pairwise Precedes ∧
    (∀ x ∈ r.tags, x ∈ found ∧ ∀ y ∈ found, y.circuit = x.circuit → y.epoch = x.epoch → y.level ≤ x.level) ∧
    (∀ y ∈ found, y.circuit ≠ 0 → (∃ x ∈ r.tags, x.circuit = y.circuit ∧ x.epoch = y.epoch) ∨
      (r.overflow = true ∧ ∀ x ∈ r.tags, Precedes x y)) ∧
    (r.overflow = true → r.tags.length = 64 ∧ ∃ y ∈ found, y.circuit ≠ 0 ∧
      ∀ x ∈ r.tags, x.circuit ≠ y.circuit ∨ x.epoch ≠ y.epoch) := by
  subst hr
  have hg := gathered_orderedTags found
  have hfound (x : Tag) : x ∈ found.filter (·.circuit != 0) ↔ x ∈ found ∧ x.circuit ≠ 0 := by simp
  have hsplit : (orderedTags found).take 64 ++ (orderedTags found).drop 64 = orderedTags found :=
    List.take_append_drop ..
  have hlate : ∀ x ∈ (orderedTags found).take 64, ∀ y ∈ (orderedTags found).drop 64, Precedes x y :=
    (List.pairwise_append.1 (hsplit.symm ▸ hg.ordered)).2.2
  refine ⟨rfl, hg.ordered.sublist (List.take_sublist ..), fun x hx => ?_, fun y hy hne => ?_, fun hover => ?_⟩
  · obtain ⟨hin, hlevel⟩ := hg.strongest x (List.mem_of_mem_take hx)
    obtain ⟨hxf, hxne⟩ := (hfound x).1 hin
    exact ⟨hxf, fun y hy hc he => hlevel y ((hfound y).2 ⟨hy, hc ▸ hxne⟩) ⟨hc, he⟩⟩
  · obtain ⟨x, hx, hc, he⟩ := hg.listed y ((hfound y).2 ⟨hy, hne⟩)
    rw [← hsplit] at hx
    obtain hx | hx := List.mem_append.1 hx
    · exact .inl ⟨x, hx, hc, he⟩
    · refine .inr ⟨?_, fun z hz => ?_⟩
      · have hlen := List.length_pos_of_mem hx
        rw [List.length_drop] at hlen
        exact decide_eq_true (by omega : 64 < (orderedTags found).length)
      · have hzx := hlate z hz x hx
        unfold Precedes at hzx ⊢
        rwa [← hc, ← he]
  · have hlt : 64 < (orderedTags found).length := of_decide_eq_true hover
    refine ⟨List.length_take_of_le (Nat.le_of_lt hlt), ?_⟩
    have hin : (orderedTags found)[64] ∈ (orderedTags found).drop 64 := by
      rw [List.mem_drop_iff_getElem]
      exact ⟨0, by simpa using hlt, rfl⟩
    obtain ⟨hyf, hyne⟩ := (hfound _).1 (hg.strongest _ (List.getElem_mem hlt)).1
    refine ⟨_, hyf, hyne, fun x hx => ?_⟩
    have hxy := hlate x hx _ hin
    unfold Precedes at hxy
    omega

/-- A dwell's end before the next dwell begins. -/
def dwellHandled (d : Dwell) (found : List Tag) (s : State) : State :=
  answerDwell d (dwellResult d.port found) (handleDwell (dwellResult d.port found) (atDwellEnd d s))

theorem exec_dwellEnd {d : Dwell} (found : List Tag) (h : s.scanner.dwell = some d) :
    exec (.dwellEnd found) s = .next (beginDwell (dwellHandled d found s)) := by
  have harm : exec (.dwellEnd found) s = execDwellEnd found s := rfl
  rw [harm, execDwellEnd, h]
  rfl

/-- What stands when the next dwell begins. -/
structure HandledView (d : Dwell) (found : List Tag) (s t : State) : Prop where
  now : t.now = max s.now d.ends
  image : t.image = s.image
  roster : t.roster = s.roster
  request : t.scanner.request = s.scanner.request
  walkPort : t.scanner.walkPort = s.scanner.walkPort
  monitors : t.scanner.monitors = s.scanner.monitors
  seq : t.windows.seq = s.windows.seq
  response : t.ctl.response = if d.wanted then
    some ⟨.done, 0x34, .dwell d.port (dwellResult d.port found).tags (dwellResult d.port found).overflow
      (monitorState s d.port)⟩ else s.ctl.response

theorem handledView (d : Dwell) (found : List Tag) (s : State) : HandledView d found s (dwellHandled d found s) := by
  have hview : dwellView (handleDwell (dwellResult d.port found) (atDwellEnd d s)) = dwellView s :=
    dwellView_handleDwell (dwellResult d.port found) (atDwellEnd d s)
  simp only [dwellView, answerView, Prod.mk.injEq] at hview
  obtain ⟨hrequest, -, hwalk, hmonitors, hresponse, hseq⟩ := hview
  have himage : (handleDwell (dwellResult d.port found) (atDwellEnd d s)).image = s.image := by simp; rfl
  have hnow : (handleDwell (dwellResult d.port found) (atDwellEnd d s)).now = max s.now d.ends := by simp; rfl
  have hroster : (handleDwell (dwellResult d.port found) (atDwellEnd d s)).roster = s.roster := by simp; rfl
  refine ⟨by rw [dwellHandled]; simpa using hnow, by rw [dwellHandled]; simpa using himage,
    by rw [dwellHandled]; simpa using hroster, by rw [dwellHandled]; simpa using hrequest,
    by rw [dwellHandled]; simpa using hwalk, by rw [dwellHandled]; simpa using hmonitors,
    by rw [dwellHandled]; simpa using hseq, ?_⟩
  rw [dwellHandled, answerDwell]
  split
  · rw [monitorState, himage, hmonitors]
    rfl
  · exact hresponse

/-! ### READ PORT (R28, R29) -/

theorem exec_readPort_of_running {p : Byte} (h : s.runState = .running) :
    exec (.readPort p) s = .next (serveReadPort p.toNat (heldCommand (.readPort p) s)) :=
  congrArg Host.Outcome.next (gate_of_running h)

theorem classAt_of_beyond {im : Image} {p : Nat} (hlen : im.ports.length = 16) (hp : 15 < p) :
    im.classAt p = .unused := by
  rw [Image.classAt, Image.portAt, List.getD_eq_default _ _ (by omega)]
  rfl

theorem byte_toNat (p : Byte) : byte p.toNat = p := by
  simp [byte]

/-- Settles O58: the next dwell, the answer, the order of the result, and READ PORT. -/
theorem dwellsWalkThePorts : Obligations.DwellsWalkThePorts := by
  refine ⟨fun found d s hd => ⟨_, exec_dwellEnd found hd, ?_⟩, fun p s hrun => ⟨fun hbad hlen => ?_, fun _ hclass => ?_⟩⟩
  · have hview := handledView d found s
    generalize dwellHandled d found s = u at hview
    have hspec {r : DwellResult} (hr : r = dwellResult d.port found) := dwellResult_spec d.port found hr
    refine ⟨by simpa using hview.now, fun p hp => ?_, fun q hq hnone p hnext => ?_, fun hwanted => ?_, ?_,
      fun x hx => ?_, fun r hr => hspec hr, fun hunwanted => ?_, by simpa using hview.roster, by simpa using hview.seq, ?_⟩
    · rw [beginDwell_of_request (hview.request.trans hp), ← hview.image, ← hview.walkPort]
      exact ⟨rfl, rfl, rfl⟩
    · rw [← nextWalkPort_some, ← hq, ← hview.image, ← hview.walkPort] at hnext
      rw [beginDwell_of_walk (hview.request.trans hnone) hnext, ← hview.image]
      exact ⟨rfl, rfl⟩
    · have hctl : (beginDwell u).ctl = u.ctl := by simp
      rw [hctl, hview.response, if_pos hwanted, monitorState]
      split
      · cases s.scanner.monitors.getD d.port .clear <;> rfl
      · rfl
    · exact List.length_take_le ..
    · obtain ⟨-, -, hmem, -⟩ := hspec rfl
      have hin := (gathered_orderedTags found).strongest x (List.mem_of_mem_take hx)
      exact ⟨by simpa using (List.mem_filter.1 hin.1).2, x, (hmem x hx).1, rfl, rfl⟩
    · have hctl : (beginDwell u).ctl = u.ctl := by simp
      rw [hctl, hview.response, if_neg (by simp [hunwanted])]
    · rw [beginDwell_monitors, hview.monitors]
  · have hclass : s.image.classAt p.toNat = .unused := hbad.elim (classAt_of_beyond hlen) id
    have himage : (heldCommand (.readPort p) s).image = s.image := rfl
    rw [exec_readPort_of_running hrun, serveReadPort, himage, if_pos hclass, byte_toNat]
    rfl
  · have himage : (heldCommand (.readPort p) s).image = s.image := rfl
    rw [exec_readPort_of_running hrun, serveReadPort, himage, if_neg hclass]
    rfl

end Sys2Proof.Machine
end

