-- ==== Sys2Proof/Proofs/Chains.lean ====
section
/-! The chain of a pool: how it grows from the head's hop, and where it ends (R73 to R75). -/

namespace Sys2Proof.Machine

variable {pool : List PoolRecord}

/-! ### The hop at a station (R73) -/

theorem ingresses_eq (pool : List PoolRecord) (x : Nat) :
    (pool.filter (·.station == x)).filter (·.cls.isIn) = inRecords pool x := by
  rw [List.filter_filter, inRecords]
  exact List.filter_congr fun r _ => by rw [Bool.and_comm]; rfl

theorem egresses_eq (pool : List PoolRecord) (x : Nat) :
    (pool.filter (·.station == x)).filter (·.cls.isOut) = outRecords pool x := by
  rw [List.filter_filter, outRecords]
  exact List.filter_congr fun r _ => by rw [Bool.and_comm]; rfl

theorem formAt_whole_iff {x : Nat} {i e : PoolRecord} :
    formAt pool x = .whole i e ↔ inRecords pool x = [i] ∧ outRecords pool x = [e] := by
  simp only [formAt, ingresses_eq, egresses_eq]
  constructor
  · intro h
    split at h
    · rename_i hin hout
      cases h
      exact ⟨hin, hout⟩
    · cases h
    · cases h
  · rintro ⟨hin, hout⟩
    rw [hin, hout]

theorem formAt_stub_iff {x : Nat} {i : PoolRecord} :
    formAt pool x = .stub i ↔ inRecords pool x = [i] ∧ outRecords pool x = [] := by
  simp only [formAt, ingresses_eq, egresses_eq]
  constructor
  · intro h
    split at h
    · cases h
    · rename_i hin hout
      cases h
      exact ⟨hin, hout⟩
    · cases h
  · rintro ⟨hin, hout⟩
    rw [hin, hout]

theorem not_whole_of_formAt_nothing {x : Nat} (h : formAt pool x = .nothing) :
    ¬ ((inRecords pool x).length = 1 ∧ ((outRecords pool x).length = 1 ∨ outRecords pool x = [])) := by
  rintro ⟨hin, hout⟩
  obtain ⟨i, hi⟩ := List.length_eq_one_iff.1 hin
  obtain hout | hnil := hout
  · obtain ⟨e, he⟩ := List.length_eq_one_iff.1 hout
    exact absurd (h.symm.trans (formAt_whole_iff.2 ⟨hi, he⟩)) (by simp)
  · exact absurd (h.symm.trans (formAt_stub_iff.2 ⟨hi, hnil⟩)) (by simp)

theorem station_of_inRecords {x : Nat} {i : PoolRecord} (h : inRecords pool x = [i]) : i ∈ pool ∧ i.station = x := by
  have hmem : i ∈ inRecords pool x := h ▸ List.mem_singleton_self i
  obtain ⟨hin, hcls⟩ := List.mem_filter.1 hmem
  exact ⟨hin, by simpa using (Bool.and_eq_true_iff.1 hcls).1⟩

theorem station_of_outRecords {x : Nat} {e : PoolRecord} (h : outRecords pool x = [e]) : e ∈ pool ∧ e.station = x := by
  have hmem : e ∈ outRecords pool x := h ▸ List.mem_singleton_self e
  obtain ⟨hin, hcls⟩ := List.mem_filter.1 hmem
  exact ⟨hin, by simpa using (Bool.and_eq_true_iff.1 hcls).1⟩

/-! ### A chain's links (R74, R75) -/

/-- The links lead from the head along the far ends to `last`, one station once. -/
structure Grown (pool : List PoolRecord) (head : Nat) (links : List Link) (last : Link) : Prop where
  ends : links.getLast? = some last
  formed : ∀ l ∈ links, inRecords pool l.ingress.station = [l.ingress] ∧
    outRecords pool l.ingress.station = [l.egress]
  starts : ∀ l, links.head? = some l → l.ingress.station = head ∧ l.ingress.cls = .add
  joined : ∀ k a, links[k]? = some a → ∀ b, links[k + 1]? = some b →
    a.egress.cls ≠ .drop ∧ a.egress.far = some (b.ingress.station, b.ingress.port)
  once : (links.map (·.ingress.station)).Nodup

theorem Grown.length_le {head : Nat} {links : List Link} {last : Link} (h : Grown pool head links last)
    (hok : ∀ r ∈ pool, stationOk r.station = true) : links.length ≤ 24 := by
  have hsub : links.map (·.ingress.station) ⊆ stationNumbers := by
    intro x hx
    obtain ⟨l, hl, rfl⟩ := List.mem_map.1 hx
    exact (mem_stationNumbers _).2 (hok _ (station_of_inRecords (h.formed l hl).1).1)
  simpa [stationNumbers] using (h.once.subperm hsub).length_le

/-- The chain grows by the hop at the last link's far end. -/
theorem Grown.snoc {head x : Nat} {links : List Link} {last : Link} {i e : PoolRecord}
    (h : Grown pool head links last) (hdrop : last.egress.cls ≠ .drop) (hfar : last.egress.far = some (x, i.port))
    (hnew : links.any (·.ingress.station == x) = false) (hform : formAt pool x = .whole i e) :
    Grown pool head (links ++ [⟨i, e⟩]) ⟨i, e⟩ := by
  obtain ⟨hin, hout⟩ := formAt_whole_iff.1 hform
  have hx : i.station = x := (station_of_inRecords hin).2
  have hne : links ≠ [] := by
    rintro rfl
    exact absurd h.ends (by simp)
  refine ⟨by simp, fun l hl => ?_, fun l hl => ?_, fun k a ha b hb => ?_, ?_⟩
  · obtain hl | hl := List.mem_append.1 hl
    · exact h.formed l hl
    · rw [List.mem_singleton.1 hl]
      exact ⟨hx ▸ hin, hx ▸ hout⟩
  · rw [List.head?_append_of_ne_nil _ hne] at hl
    exact h.starts l hl
  · obtain hlt | hge := Nat.lt_or_ge (k + 1) links.length
    · rw [List.getElem?_append_left hlt] at hb
      rw [List.getElem?_append_left (by omega)] at ha
      exact h.joined k a ha b hb
    · have hlen : k + 1 < (links ++ [Link.mk i e]).length := (List.getElem?_eq_some_iff.1 hb).1
      have hk : k + 1 = links.length := by simp at hlen; omega
      rw [List.getElem?_append_left (by omega), show k = links.length - 1 by omega, ← List.getLast?_eq_getElem?,
        h.ends] at ha
      rw [hk, List.getElem?_concat_length] at hb
      cases ha
      cases hb
      exact ⟨hdrop, by rw [hx]; exact hfar⟩
  · rw [List.map_append, List.nodup_append]
    refine ⟨h.once, List.nodup_singleton _, fun y hy z hz hyz => ?_⟩
    obtain ⟨l, hl, rfl⟩ := List.mem_map.1 hy
    have hz' : z = x := by simpa [hx] using hz
    have hany : links.any (·.ingress.station == x) = true :=
      List.any_eq_true.2 ⟨l, hl, by simpa using hyz.trans hz'⟩
    rw [hnew] at hany
    cases hany

/-- What ends a chain at its last link. -/
structure Ends (pool : List PoolRecord) (links : List Link) (l : Link) (ending : ChainEnd) : Prop where
  drop : l.egress.cls = .drop → ending = .landing l.egress.station l.egress.port
  dark : l.egress.cls ≠ .drop → l.egress.far = none → ending = .stopped
  looped : l.egress.cls ≠ .drop → ∀ f, l.egress.far = some f →
    links.any (·.ingress.station == f.1) = true → ending = .looped f.1
  stub : l.egress.cls ≠ .drop → ∀ f, l.egress.far = some f → links.any (·.ingress.station == f.1) = false →
    ∀ i, inRecords pool f.1 = [i] → outRecords pool f.1 = [] → ending = if i.port = f.2 then .stub i else .stopped
  stopped : l.egress.cls ≠ .drop → ∀ f, l.egress.far = some f → links.any (·.ingress.station == f.1) = false →
    (inRecords pool f.1).length ≠ 1 ∨ outRecords pool f.1 ≠ [] → ending = .stopped
  whole : l.egress.cls ≠ .drop → ∀ f, l.egress.far = some f → links.any (·.ingress.station == f.1) = false →
    (inRecords pool f.1).length = 1 → (outRecords pool f.1).length = 1 →
      (inRecords pool f.1).all (·.port != f.2) = true

theorem ends_of_drop {links : List Link} {l : Link} (h : l.egress.cls = .drop) :
    Ends pool links l (.landing l.egress.station l.egress.port) :=
  ⟨fun _ => rfl, fun hne => absurd h hne, fun hne => absurd h hne, fun hne => absurd h hne, fun hne => absurd h hne,
    fun hne => absurd h hne⟩

theorem ends_of_dark {links : List Link} {l : Link} (h : l.egress.cls ≠ .drop) (hfar : l.egress.far = none) :
    Ends pool links l .stopped := by
  constructor
  all_goals intros
  all_goals simp_all

theorem ends_of_looped {links : List Link} {l : Link} {f : Nat × Nat} (h : l.egress.cls ≠ .drop)
    (hfar : l.egress.far = some f) (hany : links.any (·.ingress.station == f.1) = true) :
    Ends pool links l (.looped f.1) := by
  have hf {g : Nat × Nat} (hg : l.egress.far = some g) : g = f := Option.some.inj (hg.symm.trans hfar)
  have hno {P : Prop} {g : Nat × Nat} (hg : l.egress.far = some g)
      (hnone : links.any (·.ingress.station == g.1) = false) : P := by
    rw [hf hg, hany] at hnone
    cases hnone
  exact ⟨fun hd => absurd hd h, fun _ hn => absurd (hn.symm.trans hfar) (by simp), fun _ g hg _ => by rw [hf hg],
    fun _ g hg hnone => hno hg hnone, fun _ g hg hnone => hno hg hnone, fun _ g hg hnone => hno hg hnone⟩

/-- The chain ends before its far end's station, where no hop continues it. -/
theorem ends_of_far {links : List Link} {l : Link} {x q : Nat} {ending : ChainEnd} (h : l.egress.cls ≠ .drop)
    (hfar : l.egress.far = some (x, q)) (hany : links.any (·.ingress.station == x) = false)
    (hend : match formAt pool x with
      | .whole i _ => i.port ≠ q ∧ ending = .stopped
      | .stub i => ending = if i.port = q then .stub i else .stopped
      | .nothing => ending = .stopped) : Ends pool links l ending := by
  have hf {g : Nat × Nat} (hg : l.egress.far = some g) : g = (x, q) := Option.some.inj (hg.symm.trans hfar)
  refine ⟨fun hd => absurd hd h, fun _ hn => absurd (hn.symm.trans hfar) (by simp), fun _ g hg hsome => ?_,
    fun _ g hg _ i hin hout => ?_, fun _ g hg _ hbad => ?_, fun _ g hg _ hin hout => ?_⟩
  all_goals cases hf hg
  · rw [hany] at hsome
    cases hsome
  · rw [formAt_stub_iff.2 ⟨hin, hout⟩] at hend
    exact hend
  · cases hform : formAt pool x with
    | whole i e =>
      rw [hform] at hend
      exact hend.2
    | stub i =>
      obtain ⟨hin, hout⟩ := formAt_stub_iff.1 hform
      simp [hin, hout] at hbad
    | nothing =>
      rw [hform] at hend
      exact hend
  · obtain ⟨i, hi⟩ := List.length_eq_one_iff.1 hin
    obtain ⟨e, he⟩ := List.length_eq_one_iff.1 hout
    rw [formAt_whole_iff.2 ⟨hi, he⟩] at hend
    simpa [hi] using hend.1

/-- A chain that grew from its head's hop, and how it ended when its stations are numbered. -/
structure Followed (pool : List PoolRecord) (head : Nat) (c : Chain) (last : Link) : Prop where
  grown : Grown pool head c.links last
  ends : (∀ r ∈ pool, stationOk r.station = true) → Ends pool c.links last c.ending

theorem followed_follow {head : Nat} : ∀ (fuel : Nat) {links : List Link} {last : Link},
    Grown pool head links last → 25 ≤ fuel + links.length →
      ∃ l, Followed pool head (follow pool fuel links last) l
  | 0, _, last, h, hfuel =>
    ⟨last, h, fun hok => absurd (h.length_le hok) (by omega)⟩
  | fuel + 1, links, last, h, hfuel => by
    rw [follow]
    split
    · rename_i hdrop
      exact ⟨last, h, fun _ => ends_of_drop hdrop⟩
    rename_i hdrop
    split
    · rename_i hfar
      exact ⟨last, h, fun _ => ends_of_dark hdrop hfar⟩
    rename_i x q hfar
    split
    · rename_i hany
      exact ⟨last, h, fun _ => ends_of_looped (f := (x, q)) hdrop hfar hany⟩
    rename_i hany
    have hnew : links.any (·.ingress.station == x) = false := Bool.eq_false_iff.2 hany
    split
    · rename_i i e hform
      split
      · rename_i hport
        exact followed_follow fuel (h.snoc hdrop (hport ▸ hfar) hnew hform) (by simp; omega)
      · rename_i hport
        exact ⟨last, h, fun _ => ends_of_far hdrop hfar hnew (by rw [hform]; exact ⟨hport, rfl⟩)⟩
    · rename_i i hform
      split
      · rename_i hport
        exact ⟨last, h, fun _ => ends_of_far hdrop hfar hnew (by rw [hform]; exact (if_pos hport).symm)⟩
      · rename_i hport
        exact ⟨last, h, fun _ => ends_of_far hdrop hfar hnew (by rw [hform]; exact (if_neg hport).symm)⟩
    · rename_i hform
      exact ⟨last, h, fun _ => ends_of_far hdrop hfar hnew (by rw [hform])⟩

/-- The head's hop forms and enters at an ADD port, or there is no chain (R74). -/
theorem assemble_cases (head : Nat) (pool : List PoolRecord) :
    (∃ l, Followed pool head (assemble head pool) l) ∨
      (assemble head pool = ⟨[], .stopped⟩ ∧ ¬ ((inRecords pool head).length = 1 ∧
        (inRecords pool head).all (·.cls == .add) = true ∧ (outRecords pool head).length = 1)) := by
  rw [assemble]
  split
  · rename_i i e hform
    obtain ⟨hin, hout⟩ := formAt_whole_iff.1 hform
    have hstation := (station_of_inRecords hin).2
    split
    · rename_i hadd
      refine .inl (followed_follow 24 ⟨rfl, ?_, ?_, ?_, List.nodup_singleton _⟩ (by simp))
      · simp [hstation, hin, hout]
      · simp [hstation, hadd]
      · intro k a _ b hb
        simp at hb
    · rename_i hadd
      exact .inr ⟨rfl, by simp [hin, hadd]⟩
  · rename_i i hform
    obtain ⟨hin, hout⟩ := formAt_stub_iff.1 hform
    exact .inr ⟨rfl, by simp [hout]⟩
  · rename_i hform
    exact .inr ⟨rfl, fun h => not_whole_of_formAt_nothing hform ⟨h.1, .inl h.2.2⟩⟩

theorem assemble_stations_nodup (head : Nat) (pool : List PoolRecord) :
    ((assemble head pool).hops.map (·.station)).Nodup := by
  have hstations : (assemble head pool).hops.map (·.station) =
      (assemble head pool).links.map (·.ingress.station) := by
    rw [Chain.hops, List.map_map]
    rfl
  rw [hstations]
  obtain ⟨l, hf⟩ | ⟨hnone, -⟩ := assemble_cases head pool
  · exact hf.grown.once
  · rw [hnone]
    exact List.nodup_nil

theorem assemble_length_le (head : Nat) {pool : List PoolRecord} (hok : ∀ r ∈ pool, stationOk r.station = true) :
    (assemble head pool).hops.length ≤ 24 := by
  rw [Chain.hops, List.length_map]
  obtain ⟨l, hf⟩ | ⟨hnone, -⟩ := assemble_cases head pool
  · exact hf.grown.length_le hok
  · rw [hnone]
    exact Nat.zero_le _

end Sys2Proof.Machine
end

