-- ==== Sys2Proof/Proofs/Verdicts.lean ====
section
/-! The verdict on a chain: the rows of R77, the level test, the parts of the record (R76 to R86). -/

namespace Sys2Proof.Machine

variable {head margin : Nat} {p : Probe} {base : Option (List Hop)} {o : Option Origin}

/-! ### The judgement by its verdict -/

theorem judge_of_conflict (h : p.conflict = true) : judge head margin p base o = judgeConflict p o := if_pos h

theorem judge_of_chain (h : p.conflict = false) :
    judge head margin p base o = judgeChain margin p base o (assemble head p.pool) := if_neg (by simp [h])

theorem verdict_of_census (h : p.conflict = false) (hm : p.mode = .census) :
    (judge head margin p base o).record.verdict = censusVerdict (assemble head p.pool) := by
  rw [judge_of_chain h]
  change (classify margin p (base.getD []) (assemble head p.pool)).1 = _
  rw [classify, if_pos hm]

theorem verdict_of_routine (h : p.conflict = false) (hm : p.mode ≠ .census) :
    (judge head margin p base o).record.verdict =
      (routineVerdict margin p (base.getD []) (assemble head p.pool)).1 := by
  rw [judge_of_chain h]
  change (classify margin p (base.getD []) (assemble head p.pool)).1 = _
  rw [classify, if_neg hm]

theorem censusVerdict_baselined_iff (c : Chain) : censusVerdict c = .baselined ↔ c.landing.isSome = true := by
  rw [censusVerdict, Chain.landing]
  cases c.ending <;> simp

theorem censusVerdict_broken_iff (c : Chain) : censusVerdict c = .broken ↔ c.landing = none := by
  rw [censusVerdict, Chain.landing]
  cases c.ending <;> simp

/-- A chain loops, lands, or does neither. -/
theorem routineVerdict_of_landing {c : Chain} {b : List Hop} {x : Nat × Nat} (h : c.landing = some x) :
    (routineVerdict margin p b c) =
      if tailOf b = some x then (tailVerdict margin b c.hops, none) else (.misrouted, none) := by
  rw [Chain.landing] at h
  rw [routineVerdict, Chain.landsAt]
  cases hend : c.ending with
  | landing y q =>
    rw [hend] at h
    cases h
    simp
  | looped | stub | stopped =>
    rw [hend] at h
    cases h

theorem routineVerdict_of_loop {c : Chain} {b : List Hop} (h : c.loopStation.isSome = true) :
    routineVerdict margin p b c = (.misrouted, none) := by
  rw [Chain.loopStation] at h
  rw [routineVerdict]
  cases hend : c.ending with
  | looped x => rfl
  | landing | stub | stopped =>
    rw [hend] at h
    cases h

theorem routineVerdict_of_short {c : Chain} {b : List Hop} (hland : c.landing = none) (hloop : c.loopStation = none) :
    routineVerdict margin p b c = shortVerdict p b c := by
  rw [Chain.landing] at hland
  rw [Chain.loopStation] at hloop
  rw [routineVerdict]
  cases hend : c.ending with
  | stub | stopped => rfl
  | landing =>
    rw [hend] at hland
    cases hland
  | looped =>
    rw [hend] at hloop
    cases hloop

theorem tailVerdict_eq (b hops : List Hop) : tailVerdict margin b hops =
    if hops.map Hop.route = b.map Hop.route then (if degraded margin b hops then .degraded else .pass)
    else .rerouted := by
  rw [tailVerdict, sameRoute]
  simp only [beq_iff_eq, eq_comm (a := b.map Hop.route)]

/-- A reason of INCOMPLETE holds (R80). -/
theorem incompleteReason_isSome_iff (next : Option Nat) : (incompleteReason p next).isSome = true ↔
    next.any (fun n => stationIn p.blind n || stationIn p.absent n) = true ∨ p.poolShort = true ∨ p.loopLost = true := by
  have hany : next.any (fun n => stationIn p.blind n || stationIn p.absent n) =
      (next.any (stationIn p.blind) || next.any (stationIn p.absent)) := by
    cases next <;> rfl
  rw [hany, incompleteReason]
  repeat' split
  all_goals simp_all

theorem shortVerdict_cases (p : Probe) (b : List Hop) (c : Chain) :
    ((shortVerdict p b c).1 = .incomplete ∧ (incompleteReason p (nextExpected c b)).isSome = true) ∨
      ((shortVerdict p b c).1 = .broken ∧ (incompleteReason p (nextExpected c b)).isSome = false) := by
  rw [shortVerdict]
  cases incompleteReason p (nextExpected c b) <;> simp

/-! ### Levels (R79) -/

theorem degraded_eq (margin : Nat) (base hops : List Hop) : degraded margin base hops = (decide (1 ≤ margin) &&
    (List.range base.length).any fun k =>
      match (base[k]?).bind (·.ingressLevel), (hops[k]?).bind (·.ingressLevel) with
      | some x, some y => decide (y + margin ≤ x)
      | _, _ => false) := by
  rw [degraded]
  congr 1
  rw [Bool.eq_iff_iff, List.any_eq_true, List.any_eq_true]
  constructor
  · rintro ⟨⟨b, h⟩, hmem, hlost⟩
    obtain ⟨k, hk, hget⟩ := List.getElem_of_mem hmem
    obtain ⟨hkb, hkh⟩ : k < base.length ∧ k < hops.length := by simpa using hk
    rw [List.getElem_zip, Prod.mk.injEq] at hget
    obtain ⟨rfl, rfl⟩ := hget
    refine ⟨k, List.mem_range.2 hkb, ?_⟩
    rw [List.getElem?_eq_getElem hkb, List.getElem?_eq_getElem hkh]
    exact hlost
  · rintro ⟨k, hk, hlost⟩
    have hkb := List.mem_range.1 hk
    obtain hkh | hkh := Nat.lt_or_ge k hops.length
    · rw [List.getElem?_eq_getElem hkb, List.getElem?_eq_getElem hkh] at hlost
      refine ⟨(base[k], hops[k]), ?_, hlost⟩
      rw [← List.getElem_zip (h := by simp; omega)]
      exact List.getElem_mem _
    · rw [List.getElem?_eq_none hkh, Option.bind_none] at hlost
      split at hlost
      · rename_i hnone
        cases hnone
      · cases hlost

/-! ### Early completion (R53) -/

theorem verdict_of_completesEarly {b : List Hop} (hc : p.conflict = false)
    (h : completesEarly head p (some b) = true) :
    (judge head margin p (some b) o).record.verdict ∈ [.pass, .degraded] := by
  simp only [completesEarly, Bool.and_eq_true, bne_iff_ne] at h
  obtain ⟨⟨⟨hmode, hroute⟩, hland⟩, -⟩ := h
  rw [verdict_of_routine hc hmode]
  have hlanding : ∃ x, (assemble head p.pool).landing = some x ∧ tailOf b = some x := by
    rw [Chain.landsAt] at hland
    rw [Chain.landing]
    split at hland
    · exact ⟨_, rfl, by simpa using hland⟩
    all_goals cases hland
  obtain ⟨x, hx, htail⟩ := hlanding
  rw [routineVerdict_of_landing hx, Option.getD_some, if_pos htail, tailVerdict, if_pos hroute]
  split <;> simp

/-! ### The parts of the record (R76, R80 to R82, R84, R85) -/

theorem uses_eq (c : Chain) (r : PoolRecord) :
    c.uses r = (c.links.any (fun l => l.ingress == r || l.egress == r) || c.ending == .stub r) := rfl

theorem mismatches_eq (c : Chain) : c.mismatches = (c.links.map fun l =>
    [l.ingress, l.egress].countP fun r => r.kind == .unexpected || r.kind == .untracked).sum := by
  rw [Chain.mismatches]
  congr 1
  refine List.map_congr_left fun l _ => ?_
  rw [PoolRecord.mismatched, PoolRecord.mismatched, List.countP_cons, List.countP_cons, List.countP_nil]
  cases l.ingress.kind == .unexpected || l.ingress.kind == .untracked <;>
    cases l.egress.kind == .unexpected || l.egress.kind == .untracked <;> rfl

theorem short_iff (v : Verdict) : v.short = true ↔ v = .broken ∨ v = .incomplete := by
  cases v <;> simp [Verdict.short]

theorem onlyIf_short {α : Type} (v : Verdict) (x : Option α) :
    onlyIf v.short x = if v = .broken ∨ v = .incomplete then x else none := by
  simp only [onlyIf, short_iff]

theorem onlyIf_misrouted {α : Type} (v : Verdict) (x : Option α) :
    onlyIf (v == .misrouted) x = if v = .misrouted then x else none := by
  simp only [onlyIf, beq_iff_eq]

theorem landing_eq (c : Chain) : c.landing = match c.ending with
    | .landing x q => some (x, q)
    | _ => none := by
  rw [Chain.landing]
  cases c.ending <;> rfl

theorem loopStation_eq (c : Chain) : c.loopStation = match c.ending with
    | .looped x => some x
    | _ => none := by
  rw [Chain.loopStation]
  cases c.ending <;> rfl

theorem stubPoint_eq (c : Chain) : c.stubPoint = match c.ending with
    | .stub r => some (r.station, r.port)
    | _ => none := by
  rw [Chain.stubPoint]
  cases c.ending <;> rfl

theorem lastGood_assemble (head : Nat) (pool : List PoolRecord) : (assemble head pool).lastGood =
    (assemble head pool).links.getLast?.map fun l => (l.ingress.station, l.egress.port) := by
  obtain ⟨last, hf⟩ | ⟨hnone, -⟩ := assemble_cases head pool
  · have hformed := hf.grown.formed last (List.mem_of_getLast? hf.grown.ends)
    rw [Chain.lastGood, hf.grown.ends, Option.map_some, Option.map_some,
      (station_of_outRecords hformed.2).2]
  · rw [hnone]
    rfl

theorem nextExpected_eq (c : Chain) (b : List Hop) :
    nextExpected c b = c.links.getLast?.elim (b.head?.map (·.station)) (·.egress.far.map (·.1)) := by
  rw [nextExpected]
  cases c.links.getLast? <;> rfl

theorem incompleteReason_eq (p : Probe) (next : Option Nat) : incompleteReason p next =
    match next with
    | some x =>
      if stationIn p.blind x then some .blind
      else if stationIn p.absent x then some .absent
      else if p.poolShort then some .pool
      else if p.loopLost then some .loop
      else none
    | none => if p.poolShort then some .pool else if p.loopLost then some .loop else none := by
  cases next <;> rfl

/-- The reason stands beside INCOMPLETE only. -/
theorem classify_reason (margin : Nat) (p : Probe) (b : List Hop) (c : Chain) : (classify margin p b c).2 =
    if (classify margin p b c).1 = .incomplete then incompleteReason p (nextExpected c b) else none := by
  have hshort : (shortVerdict p b c).2 =
      if (shortVerdict p b c).1 = .incomplete then incompleteReason p (nextExpected c b) else none := by
    rw [shortVerdict]
    cases incompleteReason p (nextExpected c b) <;> rfl
  have htail : tailVerdict margin b c.hops ≠ .incomplete := by
    rw [tailVerdict]
    repeat' split
    all_goals simp
  rw [classify]
  split
  · rw [censusVerdict]
    cases c.ending <;> rfl
  · rw [routineVerdict]
    repeat' split
    all_goals simp_all

/-- The first parts: a routine judgement row by row. -/
theorem verdict_rows (head margin : Nat) (p : Probe) (base : List Hop) (o : Option Origin) (chain : Chain)
    (hchain : chain = assemble head p.pool) (hc : p.conflict = false) (hm : p.mode ≠ .census) :
    (chain.loopStation.isSome = true ∨
        (chain.landing.isSome = true ∧ chain.landing ≠ base.getLast?.map fun h => (h.station, h.egress)) →
      (judge head margin p (some base) o).record.verdict = .misrouted) ∧
    (∀ x, chain.landing = some x → base.getLast?.map (fun h => (h.station, h.egress)) = some x →
      (judge head margin p (some base) o).record.verdict =
        if chain.hops.map Hop.route = base.map Hop.route then
          (if degraded margin base chain.hops then .degraded else .pass) else .rerouted) ∧
    (chain.landing = none → chain.loopStation = none →
      ((judge head margin p (some base) o).record.verdict = .incomplete ∨
        (judge head margin p (some base) o).record.verdict = .broken) ∧
      ((judge head margin p (some base) o).record.verdict = .incomplete ↔
        (nextExpected chain base).any (fun n => stationIn p.blind n || stationIn p.absent n) = true ∨
          p.poolShort = true ∨ p.loopLost = true)) := by
  rw [verdict_of_routine hc hm, ← hchain, Option.getD_some, ← incompleteReason_isSome_iff]
  refine ⟨fun hwrong => ?_, fun x hland htail => ?_, fun hland hloop => ?_⟩
  · obtain hloop | ⟨hland, htail⟩ := hwrong
    · rw [routineVerdict_of_loop hloop]
    · obtain ⟨x, hx⟩ := Option.isSome_iff_exists.1 hland
      rw [routineVerdict_of_landing hx, if_neg fun h => htail (hx.trans h.symm)]
  · rw [routineVerdict_of_landing hland, if_pos (show tailOf base = some x from htail)]
    exact tailVerdict_eq base chain.hops
  · rw [routineVerdict_of_short hland hloop]
    obtain ⟨hv, hreason⟩ | ⟨hv, hreason⟩ := shortVerdict_cases p base chain
    · simp [hv, hreason]
    · simp [hv, hreason]

/-- The chain's parts, its links and its end (R73 to R75). -/
theorem assemble_spec (head : Nat) (pool : List PoolRecord) (chain : Chain) (hchain : chain = assemble head pool)
    (hok : ∀ r ∈ pool, stationOk r.station = true) :
    (∀ l ∈ chain.links, inRecords pool l.ingress.station = [l.ingress] ∧
      outRecords pool l.ingress.station = [l.egress]) ∧
    (chain.links = [] → chain.ending = .stopped ∧ ¬ ((inRecords pool head).length = 1 ∧
      (inRecords pool head).all (·.cls == .add) = true ∧ (outRecords pool head).length = 1)) ∧
    (∀ l, chain.links.head? = some l → l.ingress.station = head ∧ l.ingress.cls = .add) ∧
    (∀ k ∈ List.range 24, ∀ a, chain.links[k]? = some a → ∀ b, chain.links[k + 1]? = some b →
      a.egress.cls ≠ .drop ∧ a.egress.far = some (b.ingress.station, b.ingress.port)) ∧
    (∀ l, chain.links.getLast? = some l → Ends pool chain.links l chain.ending) := by
  obtain ⟨last, hf⟩ | ⟨hnone, hno⟩ := assemble_cases head pool
  · rw [← hchain] at hf
    have hne : chain.links ≠ [] := by
      intro hnil
      have hend := hf.grown.ends
      rw [hnil] at hend
      cases hend
    refine ⟨hf.grown.formed, fun h => absurd h hne, hf.grown.starts, fun k _ => hf.grown.joined k, fun l hl => ?_⟩
    cases hf.grown.ends.symm.trans hl
    exact hf.ends hok
  · rw [hchain, hnone]
    exact ⟨by simp, fun _ => ⟨rfl, hno⟩, by simp, by simp, by simp⟩

/-- Settles O57: the rows of R77, the chain, the level test and the parts of a record. -/
theorem verdictsFollowTheTable : Obligations.VerdictsFollowTheTable := by
  refine ⟨fun head margin p base o chain hchain => ⟨fun hc => ?_, fun hc hm => ?_, fun hc hm =>
      verdict_rows head margin p base o chain hchain hc hm⟩,
    fun head pool => ⟨assemble_stations_nodup head pool, assemble_length_le head⟩,
    fun head margin p base o hc h => verdict_of_completesEarly hc h,
    fun head margin p base o hc hm => ?_, fun head pool chain hchain hok => ?_, degraded_eq,
    fun head margin p base o chain leaks v hc hchain hleaks hv => ?_, fun head margin p base o hc => ?_,
    fun head margin p base o hc => ?_⟩
  · rw [judge_of_conflict hc]
    rfl
  · rw [verdict_of_census hc hm, hchain]
    exact ⟨censusVerdict_baselined_iff _, censusVerdict_broken_iff _⟩
  · rw [verdict_of_census hc hm]
    exact ⟨censusVerdict_baselined_iff _, censusVerdict_broken_iff _⟩
  · obtain ⟨hformed, hnil, hstarts, hjoined, hends⟩ := assemble_spec head pool chain hchain hok
    refine ⟨hformed, hnil, hstarts, hjoined, fun l hl => ?_, landing_eq chain, loopStation_eq chain, rfl⟩
    obtain ⟨hdrop, hdark, hlooped, hstub, hstopped, hwhole⟩ := hends l hl
    exact ⟨hdrop, hdark, fun hne f hf => ⟨hlooped hne f hf, fun hnew =>
      ⟨hstub hne f hf hnew, hstopped hne f hf hnew, hwhole hne f hf hnew⟩⟩⟩
  · have hleaks' : leaks = leaksOf chain p.pool := hleaks
    have hverdict : v.verdict = (classify margin p (base.getD []) chain).1 := by
      rw [hv, judge_of_chain hc, ← hchain]
      rfl
    have hreason : v.reason = (classify margin p (base.getD []) chain).2 := by
      rw [hv, judge_of_chain hc, ← hchain]
      rfl
    have hlast : chain.lastGood = chain.links.getLast?.map fun l => (l.ingress.station, l.egress.port) := by
      rw [hchain]
      exact lastGood_assemble head p.pool
    rw [classify_reason, ← hverdict, nextExpected_eq, incompleteReason_eq] at hreason
    rw [hreason]
    rw [judge_of_chain hc, ← hchain] at hv
    rw [← mismatches_eq, ← hlast, ← onlyIf_misrouted, ← onlyIf_misrouted, ← onlyIf_short, ← onlyIf_short]
    subst hv hleaks'
    refine ⟨rfl, rfl, rfl, rfl, rfl, rfl, rfl, rfl, rfl, rfl, rfl, rfl, rfl, ?_, rfl⟩
    rw [← onlyIf_short]
    exact congrArg (onlyIf _) (stubPoint_eq chain)
  · rw [judge_of_conflict hc]
    rfl
  · rw [judge_of_chain hc]
    rfl

end Sys2Proof.Machine
end

