-- ==== Sys2Proof/Proofs/Credits.lean ====
section
/-! The credits of an evaluation: every owed window counts the verdict, and a tally that is then due is recorded or
requested (R105, R106, R108, R110). -/

namespace Sys2Proof.Machine

variable {s : State} {ser : Serial} {w : Window} {c : Nat} {v : Verdict} {own : Nat}

/-! ### Posts beside the windows -/

theorem postReport_eq_setCtl (r : Report) (s : State) : postReport r s = s.setCtl (postReport r s).ctl := by
  unfold postReport keepReport discardReport
  dsimp only
  repeat' split
  all_goals rfl

theorem postReport_setWindows (r : Report) (x : WindowUnit) (s : State) :
    postReport r (s.setWindows x) = (postReport r s).setWindows x := by
  rw [postReport_eq_setCtl, postReport_ctl_congr r (s := s.setWindows x) (t := s) rfl rfl rfl, postReport_eq_setCtl r s]
  rfl

/-- Several reports posted, the first one first. -/
def postEach (l : List Report) (s : State) : State := l.foldl (fun u x => postReport x u) s

theorem postEach_setWindows (x : WindowUnit) (l : List Report) : ∀ s : State,
    postEach l (s.setWindows x) = (postEach l s).setWindows x := by
  induction l with
  | nil => exact fun _ => rfl
  | cons r l ih =>
    intro s
    change postEach l (postReport r (s.setWindows x)) = (postEach l (postReport r s)).setWindows x
    rw [postReport_setWindows, ih]

/-- Posts take their effect from the Control Port, the clock and the image. -/
theorem postEach_ctl_congr (l : List Report) : ∀ {s t : State}, s.now = t.now → s.image = t.image → s.ctl = t.ctl →
    (postEach l s).ctl = (postEach l t).ctl := by
  induction l with
  | nil => exact fun _ _ h => h
  | cons r l ih =>
    intro s t hnow himage hctl
    exact ih (by simpa using hnow) (by simpa using himage) (postReport_ctl_congr r hnow himage hctl)

/-! ### One window credited -/

/-- The credit brings the last tally that the opener awaits. -/
def Window.sumsUp (own c : Nat) (v : Verdict) (due : Bool) (w : Window) : Bool :=
  due && w.talliesHere own && w.state == .collecting && (w.credited own c v due).table.all (· != .awaited)

/-- A listed window after the serials `owed` were credited; one whose summary is posted is gone. -/
def creditStep (own c : Nat) (v : Verdict) (due : Serial → Bool) (owed : List Serial) (w : Window) : Option Window :=
  if owed.contains w.serial then
    if w.sumsUp own c v (due w.serial) then none else some (w.credited own c v (due w.serial))
  else some w

/-- The listed windows of some serials, in their order. -/
def listedOf (owed : List Serial) (l : List Window) : List Window :=
  owed.filterMap fun ser => l.find? (·.serial == ser)

/-- The Window Unit after the serials `owed` were credited. -/
def creditUnit (own c : Nat) (v : Verdict) (due : Serial → Bool) (owed : List Serial) (x : WindowUnit) : WindowUnit :=
  { x with
    list := x.list.filterMap (creditStep own c v due owed)
    requests := ((listedOf owed x.list).filter fun w => due w.serial && w.talliesAway own).foldl
      (fun l w => tallyAsked w.serial (countedIn c v w.counts) l) x.requests }

/-- The summaries that the credits bring. -/
def creditReports (own c : Nat) (v : Verdict) (due : Serial → Bool) (owed : List Serial) (x : WindowUnit) :
    List Report :=
  ((listedOf owed x.list).filter fun w => w.sumsUp own c v (due w.serial)).map fun w =>
    .windowSummary (w.credited own c v (due w.serial)).summary

theorem credited_serial (own c : Nat) (v : Verdict) (due : Bool) (w : Window) :
    (w.credited own c v due).serial = w.serial := rfl

/-- One window's credit in the list: it goes with its summary, or it is rewritten. -/
theorem filterMap_creditStep (due : Serial → Bool) (hnodup : (s.windows.list.map (·.serial)).Nodup)
    (hw : findWindow s ser = some w) : s.windows.list.filterMap (creditStep own c v due [ser]) =
      if w.sumsUp own c v (due ser) then s.windows.list.filter (·.serial != ser)
      else rewritten ser (fun _ => w.credited own c v (due ser)) s := by
  have hself {x : Window} (hx : x ∈ s.windows.list) (hser : x.serial = ser) : x = w := by
    have hfound := findWindow_of_mem hnodup hx
    rw [hser, hw] at hfound
    exact (Option.some.inj hfound).symm
  split
  · rename_i hsum
    rw [← List.filterMap_eq_filter]
    refine List.filterMap_congr fun x hx => ?_
    by_cases hser : x.serial = ser
    · obtain rfl := hself hx hser
      simp [creditStep, hser, hsum, Option.guard]
    · simp [creditStep, hser, Option.guard]
  · rename_i hsum
    rw [rewritten, ← List.filterMap_eq_map]
    refine List.filterMap_congr fun x hx => ?_
    by_cases hser : x.serial = ser
    · obtain rfl := hself hx hser
      simp [creditStep, hser, hsum]
    · simp [creditStep, hser]

/-- A window with its counts moved on. -/
def Window.counting (c : Nat) (v : Verdict) (w : Window) : Window := { w with counts := countedIn c v w.counts }

/-- The state in which the tally test of a credit runs. -/
def counted (c : Nat) (v : Verdict) (ser : Serial) (s : State) : State := modifyWindow ser (·.counting c v) s

theorem creditWindow_eq (c : Nat) (v : Verdict) (s : State) (ser : Serial) :
    creditWindow c v s ser = tallyTest ser (counted c v ser s) := by
  have hcount : (fun w : Window => { w with counts := w.counts.count c v }) = (·.counting c v) := by
    funext w
    rw [count_eq_countedIn, Window.counting]
  rw [creditWindow, hcount]
  rfl

theorem findWindow_counted (hw : findWindow s ser = some w) :
    findWindow (counted c v ser s) ser = some (w.counting c v) := by
  rw [counted, findWindow_modifyWindow ser ser (·.counting c v) (fun _ => rfl), hw, Option.map_some, if_pos rfl]

theorem creditWindow_of_unlisted (h : findWindow s ser = none) : creditWindow c v s ser = s := by
  have hfound : findWindow (counted c v ser s) ser = none := by
    rw [counted, findWindow_modifyWindow ser ser (·.counting c v) (fun _ => rfl), h]
    rfl
  have hsame : counted c v ser s = s := by
    have hlist : s.windows.list.map (fun w => if w.serial = ser then w.counting c v else w) = s.windows.list := by
      refine (List.map_congr_left fun x hx => ?_).trans (List.map_id _)
      exact if_neg (by simpa using List.find?_eq_none.1 h x hx)
    rw [counted, modifyWindow, hlist]
    rfl
  rw [creditWindow_eq, tallyTest, hfound, hsame]

theorem setTable_of_takes {w : Window} {n : Nat} (x : TallyEntry) (h : (w.tableAt n).takesCounts = true) :
    w.setTable n x = { w with table := w.table.set (n - 1) x } := by
  refine if_pos (Nat.pos_of_ne_zero ?_)
  rintro rfl
  cases h

theorem talliesHere_iff (hser : w.serial = ser) : w.talliesHere own = true ↔
    ser.opener = own ∧ (w.state = .closing ∨ w.state = .collecting) ∧ (w.tableAt own).takesCounts = true := by
  rw [takesCounts_iff, Window.talliesHere, hser]
  simp only [Bool.and_eq_true, Bool.or_eq_true, beq_iff_eq, List.mem_cons, List.not_mem_nil, or_false, and_assoc, or_assoc]

/-- A due tally is recorded at the opener, with the summary when it was the last one (R108, R110). -/
theorem creditWindow_of_here (hnodup : (s.windows.list.map (·.serial)).Nodup) (hw : findWindow s ser = some w)
    (hdue : owesSerial s ser = false) (hhere : w.talliesHere s.image.station = true) :
    creditWindow c v s ser =
      if w.sumsUp s.image.station c v true then
        (postReport (.windowSummary (w.credited s.image.station c v true).summary) s).setWindows { s.windows with
          list := s.windows.list.filter (·.serial != ser) }
      else s.setWindows { s.windows with list := rewritten ser (fun _ => w.credited s.image.station c v true) s } := by
  have hser := serial_of_findWindow hw
  obtain ⟨hown, hstate, htakes⟩ := (talliesHere_iff hser).1 hhere
  have haway : w.talliesAway s.image.station = false := talliesAway_of_talliesHere w _ hhere
  have hcounted := findWindow_counted (c := c) (v := v) hw
  have hset : (w.counting c v).setTable s.image.station (.received (w.counting c v).counts) =
      w.credited s.image.station c v true := by
    rw [setTable_of_takes (w := w.counting c v) _ htakes, Window.credited, hhere, haway]
    rfl
  have hfound : findWindow (modifyWindow ser (·.setTable s.image.station (.received (w.counting c v).counts))
      (counted c v ser s)) ser = some (w.credited s.image.station c v true) := by
    rw [findWindow_modifyWindow ser ser _ (fun x => serial_setTable x _ _), hcounted, Option.map_some, if_pos rfl, hset]
  have hlist : (modifyWindow ser (·.setTable s.image.station (.received (w.counting c v).counts))
      (counted c v ser s)) = s.setWindows { s.windows with
        list := rewritten ser (fun _ => w.credited s.image.station c v true) s } := by
    rw [← hset, ← rewritten_of_listed
        (f := fun x => (x.counting c v).setTable s.image.station (.received (w.counting c v).counts)) hnodup hw,
      ← rewritten_rewritten (s := s) (t := counted c v ser s) (f := (·.counting c v))
        (g := (·.setTable s.image.station (.received (w.counting c v).counts))) (fun _ => rfl) rfl]
    rfl
  have hcollects : (w.counting c v).collects = true := (collects_iff _).2 hstate
  have hsum : w.sumsUp s.image.station c v true = true ↔ (w.credited s.image.station c v true).state = .collecting ∧
      (w.credited s.image.station c v true).noneAwaited = true := by
    simp [Window.sumsUp, hhere, Window.noneAwaited, Window.credited]
  have hrecord : creditWindow c v s ser = summaryTest ser (s.setWindows { s.windows with
      list := rewritten ser (fun _ => w.credited s.image.station c v true) s }) := by
    rw [creditWindow_eq, tallyTest_here (s := counted c v ser s) hcounted hown hdue, if_pos hcollects]
    refine Eq.trans ?_ (congrArg (summaryTest ser) hlist)
    exact recordTally_of_expected hcounted hstate ((takesCounts_iff _).1 htakes)
  rw [hlist] at hfound
  rw [hrecord]
  split
  · rename_i h
    rw [summaryTest_of_due hfound (hsum.1 h), postReport_setWindows, dropWindow,
      ← rewritten_of_listed (f := (·.credited s.image.station c v true)) hnodup hw]
    exact congrArg (fun l => State.setWindows _ { s.windows with list := l })
      (filter_rewritten ser (·.credited s.image.station c v true) (fun _ => rfl) s)
  · rename_i h
    exact summaryTest_of_not_due hfound (mt hsum.2 h)

/-- A due tally goes to the opener (R106). -/
theorem creditWindow_of_away (hnodup : (s.windows.list.map (·.serial)).Nodup) (hw : findWindow s ser = some w)
    (hdue : owesSerial s ser = false) (haway : w.talliesAway s.image.station = true) :
    creditWindow c v s ser = s.setWindows { s.windows with
      list := rewritten ser (fun _ => w.credited s.image.station c v true) s
      requests := tallyAsked ser (countedIn c v w.counts) s.windows.requests } := by
  have hser := serial_of_findWindow hw
  have hhere : w.talliesHere s.image.station = false := by
    by_contra h
    exact absurd (talliesAway_of_talliesHere w _ (by simpa using h)) (by simp [haway])
  have hcredited : w.credited s.image.station c v true = { w.counting c v with tally := .pending } := by
    rw [Window.credited, hhere, haway]
    rfl
  simp only [Window.talliesAway, Bool.and_eq_true, bne_iff_ne, beq_iff_eq] at haway
  obtain ⟨⟨hother, hclosed⟩, hnot⟩ := haway
  have hcounted := findWindow_counted (c := c) (v := v) hw
  rw [creditWindow_eq, tallyTest_away (s := counted c v ser s) hcounted (hser ▸ hother) hdue, if_pos ⟨hclosed, hnot⟩,
    requestTally_eq hcounted, rewritten_rewritten (s := s) (f := (·.counting c v)) (fun _ => rfl) rfl, hcredited,
    rewritten_of_listed (f := fun x => { x.counting c v with tally := .pending }) hnodup hw]
  rfl

/-- A credit leaves the tally as it is where none is due. -/
theorem credited_of_not_due {due : Bool} (h : due = true → w.talliesHere own = false ∧ w.talliesAway own = false) :
    w.credited own c v due = w.counting c v := by
  cases due with
  | false => rfl
  | true =>
    obtain ⟨hhere, haway⟩ := h rfl
    rw [Window.credited, hhere, haway]
    rfl

theorem tallyTest_of_not_due (hw : findWindow s ser = some w) (h : owesSerial s ser = false →
    w.talliesHere s.image.station = false ∧ w.talliesAway s.image.station = false) : tallyTest ser s = s := by
  have hser := serial_of_findWindow hw
  cases howed : owesSerial s ser with
  | true => exact tallyTest_of_owed howed
  | false =>
    obtain ⟨hhere, haway⟩ := h howed
    by_cases hown : ser.opener = s.image.station
    · rw [tallyTest_here hw hown howed]
      split
      · rename_i hcollects
        refine recordTally_of_unexpected hw ?_
        by_contra hboth
        rw [not_or, not_not, not_not, ← takesCounts_iff] at hboth
        exact absurd ((talliesHere_iff hser).2 ⟨hown, hboth⟩) (by simp [hhere])
      · rfl
    · rw [tallyTest_away hw hown howed, if_neg]
      rintro ⟨hclosed, hnot⟩
      simp [Window.talliesAway, hser, hown, hclosed, hnot] at haway

/-- One window credited: its counts, the tally that falls due, and the summary that this may bring. -/
theorem creditWindow_of_listed {due : Bool} (hdue : due = !owesSerial s ser)
    (hnodup : (s.windows.list.map (·.serial)).Nodup) (hw : findWindow s ser = some w) : creditWindow c v s ser =
      (if w.sumsUp s.image.station c v due then
          postReport (.windowSummary (w.credited s.image.station c v due).summary) s else s).setWindows
        { s.windows with
          list := if w.sumsUp s.image.station c v due then s.windows.list.filter (·.serial != ser)
            else rewritten ser (fun _ => w.credited s.image.station c v due) s
          requests := if due && w.talliesAway s.image.station then
            tallyAsked ser (countedIn c v w.counts) s.windows.requests else s.windows.requests } := by
  have hidle (h : due = true → w.talliesHere s.image.station = false ∧ w.talliesAway s.image.station = false) :
      creditWindow c v s ser = s.setWindows { s.windows with
        list := rewritten ser (fun _ => w.credited s.image.station c v due) s } := by
    rw [creditWindow_eq, tallyTest_of_not_due (s := counted c v ser s) (findWindow_counted hw)
      (fun hfree => h (hdue.trans (congrArg not hfree))), credited_of_not_due h,
      ← rewritten_of_listed (f := (·.counting c v)) hnodup hw]
    rfl
  have hsum_of (h : due = true → w.talliesHere s.image.station = false) :
      w.sumsUp s.image.station c v due = false := by
    cases due with
    | false => rfl
    | true => simp [Window.sumsUp, h rfl]
  cases due with
  | false =>
    rw [hidle (fun h => by cases h), hsum_of (fun h => by cases h)]
    rfl
  | true =>
    have hfree : owesSerial s ser = false := by simpa using hdue.symm
    cases hhere : w.talliesHere s.image.station with
    | true =>
      rw [talliesAway_of_talliesHere w _ hhere, creditWindow_of_here hnodup hw hfree hhere]
      split <;> rfl
    | false =>
      rw [hsum_of fun _ => hhere]
      cases haway : w.talliesAway s.image.station with
      | true => exact creditWindow_of_away hnodup hw hfree haway
      | false => exact hidle fun _ => ⟨hhere, haway⟩

/-- One owed serial credited: nothing is listed, or one window counts the verdict. -/
theorem creditWindow_step (due : Serial → Bool) (hdue : due ser = !owesSerial s ser)
    (hnodup : (s.windows.list.map (·.serial)).Nodup) : creditWindow c v s ser =
      (postEach (creditReports s.image.station c v due [ser] s.windows) s).setWindows
        (creditUnit s.image.station c v due [ser] s.windows) := by
  cases hw : findWindow s ser with
  | none =>
    have hlisted : listedOf [ser] s.windows.list = [] := by
      have hfind : s.windows.list.find? (·.serial == ser) = none := hw
      rw [listedOf, List.filterMap_cons, hfind]
      rfl
    have hlist : s.windows.list.filterMap (creditStep s.image.station c v due [ser]) = s.windows.list := by
      refine (List.filterMap_congr fun x hx => ?_).trans List.filterMap_some
      have hne : x.serial ≠ ser := by simpa using List.find?_eq_none.1 hw x hx
      simp [creditStep, hne]
    rw [creditWindow_of_unlisted hw, creditReports, creditUnit, hlisted, hlist]
    rfl
  | some w =>
    have hser := serial_of_findWindow hw
    have hlisted : listedOf [ser] s.windows.list = [w] := by
      have hfind : s.windows.list.find? (·.serial == ser) = some w := hw
      rw [listedOf, List.filterMap_cons, hfind]
      rfl
    rw [creditReports, creditUnit, hlisted, filterMap_creditStep due hnodup hw, creditWindow_of_listed hdue hnodup hw]
    simp only [List.filter_singleton, hser]
    cases w.sumsUp s.image.station c v (due ser) <;> cases due ser && w.talliesAway s.image.station <;>
      simp [postEach, hser]

/-! ### All the owed serials credited -/

theorem find_creditStep {due : Serial → Bool} {x : Serial} (hne : x ≠ ser) (l : List Window) :
    (l.filterMap (creditStep own c v due [ser])).find? (·.serial == x) = l.find? (·.serial == x) := by
  induction l with
  | nil => rfl
  | cons a l ih =>
    by_cases ha : a.serial = ser
    · have hax : (a.serial == x) = false := by simpa [ha] using hne.symm
      rw [List.find?_cons_of_neg (by simp [hax]), ← ih, List.filterMap_cons]
      split
      · rfl
      · rename_i b hb
        have hbser : b.serial = a.serial := by
          rw [creditStep] at hb
          repeat' split at hb
          all_goals cases hb
          all_goals rfl
        rw [List.find?_cons_of_neg (by simp [hbser, hax])]
    · have hstep : creditStep own c v due [ser] a = some a := by simp [creditStep, ha]
      rw [List.filterMap_cons, hstep, List.find?_cons, List.find?_cons, ih]

theorem listedOf_creditStep {due : Serial → Bool} {owed : List Serial} (hfresh : ser ∉ owed) (l : List Window) :
    listedOf owed (l.filterMap (creditStep own c v due [ser])) = listedOf owed l :=
  List.filterMap_congr fun _ hx => find_creditStep (ne_of_mem_of_not_mem hx hfresh) l

theorem creditStep_bind {due : Serial → Bool} {owed : List Serial} (hfresh : ser ∉ owed) (w : Window) :
    (creditStep own c v due [ser] w).bind (creditStep own c v due owed) = creditStep own c v due (ser :: owed) w := by
  by_cases hser : w.serial = ser
  · have hnot : owed.contains w.serial = false := by simpa [hser] using hfresh
    cases hsum : w.sumsUp own c v (due ser) with
    | true => simp [creditStep, hser, hsum]
    | false => simp [creditStep, hser, hsum, credited_serial, hfresh]
  · simp [creditStep, hser]

theorem nodup_creditStep {due : Serial → Bool} {owed : List Serial} {l : List Window} (h : (l.map (·.serial)).Nodup) :
    ((l.filterMap (creditStep own c v due owed)).map (·.serial)).Nodup := by
  refine h.sublist ?_
  induction l with
  | nil => exact List.Sublist.slnil
  | cons a l ih =>
    rw [List.filterMap_cons]
    split
    · exact (ih (List.nodup_cons.1 h).2).cons _
    · rename_i b hb
      have hbser : b.serial = a.serial := by
        rw [creditStep] at hb
        repeat' split at hb
        all_goals cases hb
        all_goals rfl
      rw [List.map_cons, List.map_cons, hbser]
      exact (ih (List.nodup_cons.1 h).2).cons_cons _

/-- The credits of the owed serials, one after the other. -/
theorem foldl_creditWindow (own c : Nat) (v : Verdict) (due : Serial → Bool) (owed : List Serial) :
    ∀ s : State, s.image.station = own → (∀ ser, due ser = !owesSerial s ser) → owed.Nodup →
      (s.windows.list.map (·.serial)).Nodup → owed.foldl (creditWindow c v) s =
        (postEach (creditReports own c v due owed s.windows) s).setWindows (creditUnit own c v due owed s.windows) := by
  induction owed with
  | nil =>
    intro s _ _ _ _
    have hstep : creditStep own c v due [] = some := by
      funext w
      simp [creditStep]
    rw [creditUnit, hstep, List.filterMap_some]
    rfl
  | cons ser owed ih =>
    intro s hown hdue howed hnodup
    obtain ⟨hfresh, howed⟩ := List.nodup_cons.1 howed
    have hstep := creditWindow_step (c := c) (v := v) due (hdue ser) hnodup
    rw [hown] at hstep
    have himage : (creditWindow c v s ser).image.station = own := by simpa using hown
    have howes (x : Serial) : due x = !owesSerial (creditWindow c v s ser) x := by
      have hpaths : (creditWindow c v s ser).paths = s.paths := by simp
      rw [hdue, owesSerial, owesSerial, hpaths]
    have hlisted : ((creditWindow c v s ser).windows.list.map (·.serial)).Nodup := by
      rw [hstep]
      exact nodup_creditStep hnodup
    rw [List.foldl_cons, ih _ himage howes howed hlisted, hstep]
    have hhead (a : List Window) : listedOf (ser :: owed) a = listedOf [ser] a ++ listedOf owed a :=
      List.filterMap_append (l := [ser]) (l' := owed)
    have hunit : creditUnit own c v due owed (creditUnit own c v due [ser] s.windows) =
        creditUnit own c v due (ser :: owed) s.windows := by
      rw [creditUnit, creditUnit, creditUnit]
      dsimp only
      rw [listedOf_creditStep hfresh, hhead, List.filter_append, List.foldl_append, List.filterMap_filterMap,
        funext fun w => creditStep_bind hfresh w]
    have hreports : creditReports own c v due (ser :: owed) s.windows = creditReports own c v due [ser] s.windows ++
        creditReports own c v due owed (creditUnit own c v due [ser] s.windows) := by
      rw [creditReports, creditReports, creditReports, creditUnit]
      dsimp only
      rw [listedOf_creditStep hfresh, hhead, List.filter_append, List.map_append]
    rw [← hunit, hreports]
    change (postEach _ ((postEach _ s).setWindows _)).setWindows _ = _
    rw [postEach_setWindows, postEach, postEach, postEach, List.foldl_append]
    rfl

end Sys2Proof.Machine
end

