-- ==== Sys2Proof/Proofs/Evaluation.lean ====
section
/-! An evaluation of a slot: the record's move, the credits, the reports and the slot's end (R5, R20, R54, R55, R86,
R105). -/

namespace Sys2Proof.Machine

variable {s : State} {p : Probe} {r : PathRecord} {j : Judgement} {i due : Nat}

/-! ### The credits in the words of the obligations -/

theorem listedOf_eq (owed : List Serial) (s : State) : listedOf owed s.windows.list = owed.filterMap (findWindow s) :=
  rfl

theorem sumsUp_eq (p : Probe) (v : Verdict) (s : State) (w : Window) :
    w.sumsUp s.image.station p.circuit v (owedByNone s p.circuit w.serial) = summedUp p v s w := rfl

theorem creditUnit_eq (p : Probe) (r : PathRecord) (v : Verdict) (s : State) :
    creditUnit s.image.station p.circuit v (owedByNone s p.circuit) (creditedSerials p r) s.windows =
      windowsCredited p r v s := by
  have hlist : s.windows.list.filterMap (creditStep s.image.station p.circuit v (owedByNone s p.circuit)
      (creditedSerials p r)) = (windowsCredited p r v s).list := by
    rw [windowsCredited, ← List.filterMap_eq_map, List.filterMap_filter]
    refine List.filterMap_congr fun w _ => ?_
    rw [creditStep, sumsUp_eq, Function.comp_apply]
    cases (creditedSerials p r).contains w.serial <;> cases summedUp p v s w <;> rfl
  rw [creditUnit, hlist]
  rfl

theorem creditReports_eq (p : Probe) (r : PathRecord) (v : VerdictRecord) (s : State) :
    creditReports s.image.station p.circuit v.verdict (owedByNone s p.circuit) (creditedSerials p r) s.windows ++
      [.verdict v] = evaluationReports p r v s := rfl

theorem windowsCredited_of_none (v : Verdict) (h : creditedSerials p r = []) : windowsCredited p r v s = s.windows := by
  rw [← creditUnit_eq, h]
  have hstep : creditStep s.image.station p.circuit v (owedByNone s p.circuit) [] = some := by
    funext w
    simp [creditStep]
  rw [creditUnit, hstep, List.filterMap_some]
  rfl

theorem evaluationReports_of_none (v : VerdictRecord) (h : creditedSerials p r = []) :
    evaluationReports p r v s = [.verdict v] := by
  rw [← creditReports_eq, h]
  rfl

/-! ### The record's move (R20) -/

theorem judge_overlap (head margin : Nat) (p : Probe) (base : Option (List Hop)) (o : Option Origin) :
    (judge head margin p base o).record.flags.overlap = p.overlap := by
  unfold judge
  split <;> rfl

theorem movedByVerdict (hoverlap : j.record.flags.overlap = p.overlap) :
    MovedByVerdict p r (afterVerdict j r r) := by
  unfold MovedByVerdict afterVerdict
  rw [hoverlap]
  by_cases hhold : r.hold = []
  · cases hover : p.overlap with
    | false => simp [hhold, takeVerdict]
    | true =>
      cases howed : r.owed with
      | nil => simp [hhold, takeVerdict]
      | cons ser rest => simp [hhold, howed, takeVerdict]
  · simp [hhold, takeVerdict]

/-- A record's evidence after a verdict does not depend on its move (R86). -/
theorem afterVerdict_evidence (j : Judgement) (r x : PathRecord) :
    (afterVerdict j r x).lastVerdict = (takeVerdict j x).lastVerdict ∧
      (afterVerdict j r x).lastChain = (takeVerdict j x).lastChain ∧
      (afterVerdict j r x).baseline = (takeVerdict j x).baseline := by
  unfold afterVerdict
  repeat' split
  all_goals exact ⟨rfl, rfl, rfl⟩

theorem modifyPath_paths_congr {t u : State} (c : Nat) (f : PathRecord → PathRecord) (h : u.paths = t.paths) :
    (modifyPath c f u).paths = (modifyPath c f t).paths := by
  rw [modifyPath, modifyPath, h]
  rfl

/-- The state in which the credits are made: the record is moved and owes nothing. -/
def clearedFor (j : Judgement) (s : State) : State :=
  modifyPath j.record.circuit (fun x => { x with owed := [] }) (setRecordState j.record.circuit .idle
    (followHead j (modifyPath j.record.circuit (takeVerdict j) s)))

theorem clearedFor_paths (j : Judgement) (s : State) : (clearedFor j s).paths =
    (modifyPath j.record.circuit (fun x => { takeVerdict j x with state := .idle, owed := [] }) s).paths := by
  have hfollow : (followHead j (modifyPath j.record.circuit (takeVerdict j) s)).paths =
      (modifyPath j.record.circuit (takeVerdict j) s).paths := by simp
  rw [clearedFor, setRecordState, modifyPath_comp, modifyPath_paths_congr _ _ hfollow, modifyPath_comp]

theorem owesSerial_clearedFor (j : Judgement) (s : State) (ser : Serial) :
    owedByNone s j.record.circuit ser = !owesSerial (clearedFor j s) ser := by
  rw [owesSerial, clearedFor_paths, owedByNone]
  simp only [modifyPath, State.setPaths_fields, List.any_map, List.not_any_eq_all_not]
  refine congrArg _ (funext fun x => ?_)
  by_cases hc : x.circuit = j.record.circuit
  · simp [hc]
  · simp [hc]

/-! ### The windows and the reports of an evaluation -/

/-- The reports go to the Control Port one after the other. -/
theorem postEach_append (a b : List Report) (s : State) : postEach (a ++ b) s = postEach b (postEach a s) :=
  List.foldl_append

/-- The credits of the record that is moved. -/
theorem moveForVerdict_credits (hc : j.record.circuit = p.circuit) (hoverlap : j.record.flags.overlap = p.overlap)
    (hr : r.owed.Nodup) (hw : (s.windows.list.map (·.serial)).Nodup) :
    (moveForVerdict j r (followHead j (modifyPath j.record.circuit (takeVerdict j) s))).windows =
        windowsCredited p r j.record.verdict s ∧
      (moveForVerdict j r (followHead j (modifyPath j.record.circuit (takeVerdict j) s))).ctl =
        (postEach (creditReports s.image.station p.circuit j.record.verdict (owedByNone s p.circuit)
          (creditedSerials p r) s.windows) s).ctl := by
  by_cases hcredit : r.hold = [] ∧ p.overlap = false
  · obtain ⟨hhold, hclear⟩ := hcredit
    have hmove : moveForVerdict j r (followHead j (modifyPath j.record.circuit (takeVerdict j) s)) =
        r.owed.foldl (creditWindow p.circuit j.record.verdict) (clearedFor j s) := by
      rw [moveForVerdict, if_neg (by simp [hhold]), if_pos (by simp [hoverlap, hclear]), creditOwed, hc, clearedFor, hc]
    have howed : creditedSerials p r = r.owed := if_pos ⟨hhold, hclear⟩
    have himage : (clearedFor j s).image = s.image := by simp [clearedFor]
    have hwindows : (clearedFor j s).windows = s.windows := by simp [clearedFor]
    have hfold := foldl_creditWindow s.image.station p.circuit j.record.verdict (owedByNone s p.circuit) r.owed
      (clearedFor j s) (congrArg Image.station himage) (fun ser => hc ▸ owesSerial_clearedFor j s ser) hr
      (hwindows ▸ hw)
    rw [hmove, hfold, hwindows, ← howed, creditUnit_eq]
    exact ⟨rfl, postEach_ctl_congr _ (by simp [clearedFor]) himage (by simp [clearedFor])⟩
  · have hnone : creditedSerials p r = [] := if_neg hcredit
    rw [windowsCredited_of_none _ hnone, hnone]
    have hsame : (moveForVerdict j r (followHead j (modifyPath j.record.circuit (takeVerdict j) s))).windows = s.windows ∧
        (moveForVerdict j r (followHead j (modifyPath j.record.circuit (takeVerdict j) s))).ctl = s.ctl := by
      unfold moveForVerdict
      dsimp only
      split
      · exact ⟨by simp, by simp⟩
      · rename_i hhold
        have hset : j.record.flags.overlap = true := by
          rw [hoverlap]
          simpa [not_not.1 hhold] using hcredit
        rw [if_neg (by simp [hset])]
        split
        · exact ⟨by simp, by simp⟩
        · exact ⟨by simp, by simp⟩
    exact hsame

theorem posted_creditRun (p : Probe) (v : Verdict) (s : State) : s.ctl.Posted (creditRun p v s).ctl := by
  unfold creditRun
  repeat' split
  exacts [.refl _, posted_touchRun _ _ _ s, .refl _]

/-- What an evaluation records beside its record (R54, R105). -/
structure Recorded (p : Probe) (r : PathRecord) (v : VerdictRecord) (s t : State) : Prop where
  windows : t.windows = windowsCredited p r v.verdict s
  posted : (postedAll (evaluationReports p r v s) s).Posted t.ctl
  base : p.owner = .base → t.ctl = postedAll (evaluationReports p r v s) s

theorem recorded_recordVerdict (hc : j.record.circuit = p.circuit) (hoverlap : j.record.flags.overlap = p.overlap)
    (hr : r.owed.Nodup) (hw : (s.windows.list.map (·.serial)).Nodup) :
    Recorded p r j.record s (recordVerdict j p r s) := by
  obtain ⟨hwindows, hctl⟩ := moveForVerdict_credits (s := s) hc hoverlap hr hw
  have hpost : (postReport (.verdict j.record)
      (moveForVerdict j r (followHead j (modifyPath j.record.circuit (takeVerdict j) s)))).ctl =
        postedAll (evaluationReports p r j.record s) s := by
    have hreports := postEach_append (creditReports s.image.station p.circuit j.record.verdict
      (owedByNone s p.circuit) (creditedSerials p r) s.windows) [.verdict j.record] s
    have hall : postedAll (evaluationReports p r j.record s) s = (postEach (evaluationReports p r j.record s) s).ctl := rfl
    rw [hall, ← creditReports_eq, hreports]
    have hnow (l : List Report) : ∀ u : State, (postEach l u).now = u.now ∧ (postEach l u).image = u.image := by
      induction l with
      | nil => exact fun _ => ⟨rfl, rfl⟩
      | cons a l ih =>
        intro u
        obtain ⟨hn, hi⟩ := ih (postReport a u)
        exact ⟨hn.trans (by simp), hi.trans (by simp)⟩
    obtain ⟨hn, hi⟩ := hnow (creditReports s.image.station p.circuit j.record.verdict
      (owedByNone s p.circuit) (creditedSerials p r) s.windows) s
    exact postReport_ctl_congr _ (by rw [hn]; simp) (by rw [hi]; simp) hctl
  refine ⟨?_, ?_, fun hbase => ?_⟩
  · rw [recordVerdict, ← hwindows]
    simp
  · rw [recordVerdict, ← hpost]
    exact posted_creditRun _ _ _
  · rw [recordVerdict, creditRun, hbase]
    exact hpost

/-- With nothing owed the move of the record posts nothing. -/
theorem moveForVerdict_ctl (hnone : r.owed = []) (s : State) : (moveForVerdict j r s).ctl = s.ctl := by
  unfold moveForVerdict
  rw [hnone]
  dsimp only
  repeat' split
  · simp
  · rw [creditOwed, List.foldl_nil]
    simp
  · simp

/-- With nothing owed the verdict is the only report that precedes the summary of a run. -/
theorem queue_recordVerdict (hroom : s.ctl.queue.length < 32) (hnone : r.owed = []) :
    (recordVerdict j p r s).ctl.queue.take (s.ctl.queue.length + 1) =
      s.ctl.queue ++ [(s.ctl.reportNumber, .verdict j.record)] := by
  have hmove : (moveForVerdict j r (followHead j (modifyPath j.record.circuit (takeVerdict j) s))).ctl = s.ctl := by
    rw [moveForVerdict_ctl hnone]
    simp
  have hqueue : (postReport (.verdict j.record)
      (moveForVerdict j r (followHead j (modifyPath j.record.circuit (takeVerdict j) s)))).ctl.queue =
        s.ctl.queue ++ [(s.ctl.reportNumber, .verdict j.record)] := by
    rw [postReport_queue, hmove, if_pos hroom]
  have hposted : (postReport (.verdict j.record)
      (moveForVerdict j r (followHead j (modifyPath j.record.circuit (takeVerdict j) s)))).ctl.Posted
        (recordVerdict j p r s).ctl := posted_creditRun _ _ _
  have hprefix := List.prefix_iff_eq_take.1 hposted.queue
  rw [hqueue] at hprefix
  simpa using hprefix.symm

/-! ### The head entry (R5) -/

theorem followHead_of_positive {h : Hop} {hs : List Hop} (hhops : j.hops = h :: hs)
    (hv : j.record.verdict.positive = true) (s : State) : (followHead j s).hops = s.hops.map fun e =>
      if e.circuit = j.record.circuit then { e with
        ingress := h.ingress, egress := some h.egress, latch := false, missing := 0 } else e := by
  rw [followHead, hhops]
  dsimp only
  rw [if_pos hv]
  rfl

theorem followHead_of_not (h : j.hops = [] ∨ j.record.verdict.positive = false) (s : State) : followHead j s = s := by
  unfold followHead
  split
  · rename_i hcons
    obtain hnil | hneg := h
    · rw [hnil] at hcons
      cases hcons
    · exact if_neg (by simp [hneg])
  · rfl

theorem recordVerdict_hops (j : Judgement) (p : Probe) (r : PathRecord) (s : State) :
    (recordVerdict j p r s).hops = (followHead j s).hops := by
  have hhops : (recordVerdict j p r s).hops =
      (followHead j (modifyPath j.record.circuit (takeVerdict j) s)).hops := by simp [recordVerdict]
  rw [hhops]
  unfold followHead
  repeat' split
  all_goals rfl

/-! ### The slot's end (R54, R55) -/

/-- An evaluation, step by step. -/
theorem evaluate_eq (hp : probeAt s i = some p) (hr : findPath s p.circuit = some r) (hj : j = judgeProbe s p r) :
    evaluate i s = requestProbe (.probeEnd p.circuit p.epoch j.record.verdict j.record.flags)
      (idleMarking p.circuit (closeSlot i (recordVerdict j p r s))) := by
  rw [evaluate, hp]
  dsimp only
  rw [hr, hj]

theorem requestProbe_slots (x : Payload) (s : State) : (requestProbe x s).probes.slots = s.probes.slots := rfl

theorem idleMarking_probes (c : Nat) (s : State) : (idleMarking c s).probes = s.probes := by simp

theorem getD_set_of_probeAt (hp : probeAt s i = some p) (q : Option Probe) : (s.probes.slots.set i q).getD i none = q := by
  simp [List.getD_eq_getElem?_getD, lt_of_probeAt hp]

/-- What an evaluation leaves of its slot, record and line. -/
structure Evaluated (i : Nat) (p : Probe) (r : PathRecord) (j : Judgement) (s t : State) : Prop where
  slot : probeAt t i = some { p with phase := .closing, deadline := none, pool := [] }
  slots : t.probes.slots = s.probes.slots.set i (some { p with phase := .closing, deadline := none, pool := [] })
  requests : t.probes.requests = s.probes.requests ++
    [⟨.probeEnd p.circuit p.epoch j.record.verdict j.record.flags, .own⟩]
  lines : t.lines = s.lines.set r.line (some (p.circuit, 0))
  record : findPath t p.circuit = some (afterVerdict j r r)
  paths : t.paths = (modifyPath p.circuit (afterVerdict j r) s).paths
  windows : t.windows = (recordVerdict j p r s).windows
  ctl : t.ctl = (recordVerdict j p r s).ctl
  sched : t.sched = (recordVerdict j p r s).sched
  hops : t.hops = (followHead j s).hops

theorem evaluated (hp : probeAt s i = some p) (hr : findPath s p.circuit = some r) (hj : j = judgeProbe s p r) :
    Evaluated i p r j s (evaluate i s) := by
  have hpaths := evaluate_paths hp hr
  rw [← hj] at hpaths
  have hfound : findPath (evaluate i s) p.circuit = some (afterVerdict j r r) := by
    rw [findPath_of_paths hpaths, findPath_modifyPath _ _ _ (afterVerdict_circuit j r), hr, Option.map_some, if_pos rfl]
  have hslots : (closeSlot i (recordVerdict j p r s)).probes.slots =
      s.probes.slots.set i (some { p with phase := .closing, deadline := none, pool := [] }) := by
    have hat : probeAt (recordVerdict j p r s) i = some p := by
      rw [← hp, probeAt, probeAt]
      simp
    rw [closeSlot, modifySlot_eq_putSlot _ hat]
    simp [putSlot, setSlots]
  have hlines : (idleMarking p.circuit (closeSlot i (recordVerdict j p r s))).lines =
      s.lines.set r.line (some (p.circuit, 0)) := by
    have hrec : findPath (closeSlot i (recordVerdict j p r s)) p.circuit = some (afterVerdict j r r) := by
      rw [← hfound, evaluate_eq hp hr hj]
      exact findPath_of_paths (by simp) _
    have hline : (afterVerdict j r r).line = r.line := by
      unfold afterVerdict
      repeat' split
      all_goals rfl
    rw [idleMarking, hrec]
    dsimp only
    rw [hline]
    simp [drive]
  have heq := evaluate_eq hp hr hj
  refine ⟨?_, ?_, ?_, ?_, hfound, hpaths, ?_, ?_, ?_, ?_⟩
  all_goals rw [heq]
  · rw [probeAt, requestProbe_slots, idleMarking_probes, hslots]
    exact getD_set_of_probeAt hp _
  · rw [requestProbe_slots, idleMarking_probes, hslots]
  · simp [requestProbe, closeSlot, modifySlot, setSlots]
  · simpa using hlines
  · simp
  · simp
  · simp
  · simpa using recordVerdict_hops j p r s

/-! ### DEADLINE_EXPIRY (R52) -/

theorem exec_deadlineExpiry (hp : probeAt s i = some p) (hphase : p.phase = .driving) (hdue : p.deadline = some due) :
    exec (.deadlineExpiry i) s = .next (evaluate i (advanceTo due s)) := by
  have harm : exec (.deadlineExpiry i) s = execDeadlineExpiry i s := rfl
  rw [harm, execDeadlineExpiry, hp]
  dsimp only
  rw [hphase, hdue]

/-- Settles O56: the slot, the record, the reports, the credits and the head entry of an evaluation. -/
theorem deadlineExpiryEvaluates : Obligations.DeadlineExpiryEvaluates := by
  intro i due p r j s hp hphase hdue hr _ _ hj
  have hadv : advanceTo due s = s.setNow (max s.now due) := rfl
  have heval := evaluated (s := advanceTo due s) hp hr (j := j) hj
  have hcircuit : j.record.circuit = p.circuit := hj ▸ judgeProbe_circuit s p r
  have hoverlap : j.record.flags.overlap = p.overlap := hj ▸ judge_overlap _ _ _ _ _
  obtain ⟨hverdict, hchain, hbase⟩ := afterVerdict_evidence j r r
  refine ⟨_, exec_deadlineExpiry hp hphase hdue, by simp [hadv], heval.slot, heval.requests, heval.lines,
    fun hroom hnone => ?_, ⟨_, heval.record, hverdict, hchain, hbase, movedByVerdict hoverlap⟩, fun hrecords hwindows => ?_,
    fun h hs hhops hv => ?_, fun hno => ?_, by simp [hadv], by simp [hadv], by simp [hadv]⟩
  · rw [heval.ctl]
    exact queue_recordVerdict (s := advanceTo due s) hroom hnone
  · obtain ⟨-, -, -, -, -, howed⟩ := hrecords.2 r (List.mem_of_find?_eq_some hr)
    have hrecorded := recorded_recordVerdict (s := advanceTo due s) (r := r) hcircuit hoverlap
      howed hwindows.1
    refine ⟨heval.windows.trans hrecorded.windows, ?_⟩
    rintro c rfl
    rw [heval.ctl]
    exact ⟨(List.prefix_iff_eq_take.1 hrecorded.posted.queue).symm, hrecorded.base⟩
  · rw [heval.hops, followHead_of_positive hhops ((positive_iff _).2 hv), hcircuit]
    rfl
  · rw [heval.hops, followHead_of_not (hno.imp_right fun h => by simpa using mt (positive_iff _).1 h)]
    rfl

end Sys2Proof.Machine
end

