-- ==== Sys2Proof/Proofs/FlagsKept.lean ====
section
/-! Posts and evaluations set flags and clear none (R180, R182, R184). -/

namespace Sys2Proof.Machine

variable {s : State}

/-- Every flag set before is set after. -/
structure ControlPort.Flagged (c c' : ControlPort) : Prop where
  alerts : ∀ a, c.alertSet a = true → c'.alertSet a = true
  faults : ∀ f, c.faultSet f = true → c'.faultSet f = true

theorem ControlPort.Flagged.refl (c : ControlPort) : c.Flagged c := ⟨fun _ => id, fun _ => id⟩

theorem ControlPort.Flagged.of_eq {c c' : ControlPort} (h : c' = c) : c.Flagged c' := h ▸ .refl c

theorem ControlPort.Flagged.trans {a b c : ControlPort} (h : a.Flagged b) (h' : b.Flagged c) : a.Flagged c :=
  ⟨fun x hx => h'.alerts x (h.alerts x hx), fun x hx => h'.faults x (h.faults x hx)⟩

theorem flagged_raiseAlert (a : Alert) (s : State) : s.ctl.Flagged (raiseAlert a s).ctl :=
  ⟨fun b hb => by rw [alertSet_raiseAlert, hb]; simp, fun _ => id⟩

theorem flagged_setFault (f : FaultFlag) (s : State) : s.ctl.Flagged (setFault f s).ctl :=
  ⟨fun b hb => by rw [alertSet_setFault, hb]; simp, fun b hb => by rw [faultSet_setFault, hb]; simp⟩

theorem flagged_postReport (r : Report) (s : State) : s.ctl.Flagged (postReport r s).ctl := by
  unfold postReport keepReport discardReport
  dsimp only
  repeat' split
  · refine .trans (b := (s.setCtl _).ctl) ?_ (flagged_raiseAlert .report _)
    exact ⟨fun _ => id, fun _ => id⟩
  · exact ⟨fun _ => id, fun _ => id⟩
  · refine .trans (b := (s.setCtl _).ctl) ?_ (flagged_setFault .reportOverrun _)
    exact ⟨fun _ => id, fun _ => id⟩

theorem flagged_completeRun (id : Nat) (s : State) : s.ctl.Flagged (completeRun id s).ctl := by
  unfold completeRun
  split
  · exact .refl _
  rename_i r _
  have hpost := flagged_postReport (.sweepSummary r.summary) s
  repeat' split
  exacts [.refl _, hpost.trans (.of_eq (by simp)), hpost.trans (.of_eq (by simp))]

theorem flagged_creditRun (p : Probe) (v : Verdict) (s : State) : s.ctl.Flagged (creditRun p v s).ctl := by
  unfold creditRun
  repeat' split
  exacts [.refl _, flagged_completeRun _ (modifyRun _ _ s), .refl _]

theorem flagged_creditWindow (c : Nat) (v : Verdict) (s : State) (ser : Serial) :
    s.ctl.Flagged (creditWindow c v s ser).ctl := by
  have hsummary (u : State) : u.ctl.Flagged (summaryTest ser u).ctl := by
    unfold summaryTest
    split
    · exact .refl _
    rename_i w _
    split
    · exact (flagged_postReport (.windowSummary w.summary) u).trans (.of_eq (by simp))
    · exact .refl _
  have hrecord (n : Nat) (x : Tally) (u : State) : u.ctl.Flagged (recordTally ser n x u).ctl := by
    unfold recordTally
    repeat' split
    exacts [.refl _, hsummary (modifyWindow ser _ u), .refl _]
  have htest (u : State) : u.ctl.Flagged (tallyTest ser u).ctl := by
    unfold tallyTest
    repeat' split
    exacts [.refl _, .refl _, hrecord _ _ u, .refl _, .of_eq (by simp), .refl _]
  exact htest (modifyWindow ser _ s)

theorem flagged_moveForVerdict (j : Judgement) (r : PathRecord) (s : State) :
    s.ctl.Flagged (moveForVerdict j r s).ctl := by
  have hcredits (l : List Serial) : ∀ u : State,
      u.ctl.Flagged (l.foldl (creditWindow j.record.circuit j.record.verdict) u).ctl := by
    induction l with
    | nil => exact fun _ => .refl _
    | cons ser l ih => exact fun u => (flagged_creditWindow _ _ u ser).trans (ih _)
  unfold moveForVerdict creditOwed
  dsimp only
  repeat' split
  · exact .of_eq (by simp)
  · refine .trans (.of_eq ?_) (hcredits _ _)
    simp
  · exact .of_eq (by simp)
  · exact .of_eq (by simp)

theorem flagged_recordVerdict (j : Judgement) (p : Probe) (r : PathRecord) (s : State) :
    s.ctl.Flagged (recordVerdict j p r s).ctl := by
  have hfollow : (followHead j (modifyPath j.record.circuit (takeVerdict j) s)).ctl = s.ctl := by simp
  exact (ControlPort.Flagged.of_eq hfollow).trans ((flagged_moveForVerdict j r _).trans
    ((flagged_postReport _ _).trans (flagged_creditRun p _ _)))

theorem flagged_evaluate (i : Nat) (s : State) :
    s.ctl.Flagged (evaluate i s).ctl ∧ s.ctl.Flagged (evaluateWithdrawn i s).ctl := by
  unfold evaluate evaluateWithdrawn
  cases probeAt s i with
  | none => exact ⟨.refl _, .refl _⟩
  | some p =>
    dsimp only
    cases findPath s p.circuit with
    | none => exact ⟨.refl _, .refl _⟩
    | some r =>
      have hrecord := flagged_recordVerdict (judgeProbe s p r) p r s
      exact ⟨hrecord.trans (.of_eq (by simp)), hrecord.trans (.of_eq (by simp))⟩

end Sys2Proof.Machine
end

