-- ==== Sys2Proof/Proofs/ProbeStarts.lean ====
section
/-! A dispatched PROBE START: the watch entry, and the duplicate head that it may show (R32, R62, R63, R82). -/

namespace Sys2Proof.Machine

variable {s t u : State} {p : Probe} {r : PathRecord} {i c e : Nat}

/-! ### The verdict CONFLICT (R82) -/

/-- The slot with its conflict mark. -/
def Probe.marked (p : Probe) : Probe := { p with conflict := true }

/-- The judgement of a slot whose circuit another station heads. -/
def conflictJudgement (p : Probe) (r : PathRecord) : Judgement := judgeConflict p r.origin

theorem judgeProbe_marked (s : State) (p : Probe) (r : PathRecord) :
    judgeProbe s p.marked r = conflictJudgement p r := rfl

/-- A conflict leaves the hop entry of its head. -/
theorem followHead_conflict (p : Probe) (r : PathRecord) (s : State) : followHead (conflictJudgement p r) s = s :=
  followHead_of_not (.inl rfl) s

/-! ### What a duplicate head does to the slot (R62, R63) -/

/-- The same state but for its probes, its notices and its flags. -/
structure Alike (s t : State) : Prop where
  now : t.now = s.now
  image : t.image = s.image
  paths : t.paths = s.paths
  windows : t.windows = s.windows
  queue : t.ctl.queue = s.ctl.queue
  number : t.ctl.reportNumber = s.ctl.reportNumber

/-- What posts add to the queue depends on the queue and its numbers alone. -/
theorem postEach_queue_congr (l : List Report) : ∀ {s t : State}, s.ctl.queue = t.ctl.queue →
    s.ctl.reportNumber = t.ctl.reportNumber → (postEach l s).ctl.queue = (postEach l t).ctl.queue := by
  induction l with
  | nil => exact fun h _ => h
  | cons a l ih =>
    intro s t hqueue hnumber
    exact ih (by rw [postReport_queue, postReport_queue, hqueue, hnumber])
      (by rw [postReport_number, postReport_number, hnumber])

theorem windowsCredited_marked (h : Alike s u) (v : Verdict) : windowsCredited p.marked r v u = windowsCredited p r v s := by
  rw [← creditUnit_eq, ← creditUnit_eq, h.windows, h.image]
  have howed : owedByNone u p.marked.circuit = owedByNone s p.circuit := by
    funext ser
    rw [owedByNone, owedByNone, h.paths]
    rfl
  rw [howed]
  rfl

theorem evaluationReports_marked (h : Alike s u) (v : VerdictRecord) :
    evaluationReports p.marked r v u = evaluationReports p r v s := by
  rw [← creditReports_eq, ← creditReports_eq, h.windows, h.image]
  have howed : owedByNone u p.marked.circuit = owedByNone s p.circuit := by
    funext ser
    rw [owedByNone, owedByNone, h.paths]
    rfl
  rw [howed]
  rfl

/-- What a conflict verdict records, whatever becomes of its PROBE START. -/
structure ConflictRecorded (p : Probe) (r : PathRecord) (s t : State) : Prop where
  record : findPath t p.circuit = some (afterVerdict (conflictJudgement p r) r r)
  windows : r.owed.Nodup → (s.windows.list.map (·.serial)).Nodup → t.windows = windowsCredited p r .conflict s
  queue : r.owed.Nodup → (s.windows.list.map (·.serial)).Nodup →
    t.ctl.queue.take (postedAll (evaluationReports p r (conflictJudgement p r).record s) s).queue.length =
      (postedAll (evaluationReports p r (conflictJudgement p r).record s) s).queue
  unowed : s.ctl.queue.length < 32 → r.owed = [] → t.ctl.queue.take (s.ctl.queue.length + 1) =
    s.ctl.queue ++ [(s.ctl.reportNumber, .verdict (conflictJudgement p r).record)]

theorem conflictRecorded_of (h : Alike s u) (hrec : findPath t p.circuit = some (afterVerdict (conflictJudgement p r) r r))
    (hwindows : t.windows = (recordVerdict (conflictJudgement p r) p.marked r u).windows)
    (hctl : t.ctl = (recordVerdict (conflictJudgement p r) p.marked r u).ctl) : ConflictRecorded p r s t := by
  refine ⟨hrec, fun howed hnd => ?_, fun howed hnd => ?_, fun hroom hnone => ?_⟩
  · have hrecorded := recorded_recordVerdict (s := u) (p := p.marked) (j := conflictJudgement p r) rfl rfl howed
      (h.windows ▸ hnd)
    rw [hwindows, hrecorded.windows, windowsCredited_marked h]
    rfl
  · have hrecorded := recorded_recordVerdict (s := u) (p := p.marked) (j := conflictJudgement p r) rfl rfl howed
      (h.windows ▸ hnd)
    have hqueue : (postedAll (evaluationReports p r (conflictJudgement p r).record s) s).queue =
        (postedAll (evaluationReports p.marked r (conflictJudgement p r).record u) u).queue := by
      rw [evaluationReports_marked h]
      exact postEach_queue_congr _ h.queue.symm h.number.symm
    rw [hqueue, hctl]
    exact (List.prefix_iff_eq_take.1 hrecorded.posted.queue).symm
  · rw [hctl, ← h.queue, ← h.number]
    exact queue_recordVerdict (h.queue ▸ hroom) hnone

theorem Alike.refl (s : State) : Alike s s := ⟨rfl, rfl, rfl, rfl, rfl, rfl⟩

theorem Alike.trans (h : Alike s t) (h' : Alike t u) : Alike s u :=
  ⟨h'.now.trans h.now, h'.image.trans h.image, h'.paths.trans h.paths, h'.windows.trans h.windows,
    h'.queue.trans h.queue, h'.number.trans h.number⟩

theorem alike_markConflict (s : State) : Alike s (markConflict i s) := ⟨rfl, rfl, rfl, rfl, rfl, rfl⟩

theorem alike_withdrawn (s : State) : Alike s (markConflict i (withdrawStart c e s)) := ⟨rfl, rfl, rfl, rfl, rfl, rfl⟩

theorem probeAt_markConflict (hp : probeAt s i = some p) : probeAt (markConflict i s) i = some p.marked := by
  rw [markConflict, probeAt_modifySlot, if_pos rfl, hp]
  rfl

/-- The START is out: the slot evaluates and requests its PROBE END. -/
theorem conflict_evaluated (halike : Alike t s) (hp : probeAt s i = some p) (hr : findPath s p.circuit = some r) :
    ConflictRecorded p r t (evaluate i (markConflict i s)) ∧
      Evaluated i p.marked r (conflictJudgement p r) (markConflict i s) (evaluate i (markConflict i s)) := by
  have heval := evaluated (s := markConflict i s) (probeAt_markConflict hp) hr (judgeProbe_marked (markConflict i s) p r).symm
  exact ⟨conflictRecorded_of (halike.trans (alike_markConflict s)) heval.record heval.windows heval.ctl, heval⟩

/-- The START waits: it is withdrawn, and the slot goes idle with its verdict. -/
theorem conflict_withdrawn (hp : probeAt s i = some p) (hr : findPath s p.circuit = some r) :
    evaluateWithdrawn i (markConflict i (withdrawStart p.circuit p.epoch s)) =
      putSlot i none (recordVerdict (conflictJudgement p r) p.marked r
        (markConflict i (withdrawStart p.circuit p.epoch s))) := by
  have hmarked : probeAt (markConflict i (withdrawStart p.circuit p.epoch s)) i = some p.marked :=
    probeAt_markConflict (s := withdrawStart p.circuit p.epoch s) hp
  rw [evaluateWithdrawn, hmarked]
  dsimp only
  rw [show findPath (markConflict i (withdrawStart p.circuit p.epoch s)) p.marked.circuit = some r from hr]
  rfl

theorem conflictRecorded_withdrawn (halike : Alike t s) (hp : probeAt s i = some p) (hr : findPath s p.circuit = some r) :
    ConflictRecorded p r t (evaluateWithdrawn i (markConflict i (withdrawStart p.circuit p.epoch s))) := by
  have hmarked : probeAt (markConflict i (withdrawStart p.circuit p.epoch s)) i = some p.marked :=
    probeAt_markConflict (s := withdrawStart p.circuit p.epoch s) hp
  refine conflictRecorded_of (u := markConflict i (withdrawStart p.circuit p.epoch s))
    (halike.trans (alike_withdrawn s)) ?_ ?_ ?_
  · rw [findPath_of_paths (evaluateWithdrawn_paths hmarked (show findPath _ p.marked.circuit = some r from hr)),
      judgeProbe_marked, show p.marked.circuit = p.circuit from rfl,
      findPath_modifyPath _ _ _ (afterVerdict_circuit _ r), show findPath (markConflict i (withdrawStart p.circuit p.epoch s)) p.circuit = some r from hr, Option.map_some, if_pos rfl]
  · rw [conflict_withdrawn hp hr]
    simp
  · rw [conflict_withdrawn hp hr]
    simp

/-! ### PROBE_START_DISPATCH (R32) -/

theorem exec_probeStartDispatch {a : Received} {d : Nat} {m : Mode} {rest : List Received}
    (hs : s.loop.receive = a :: rest) (ha : a.payload = .probeStart c e m d) : exec .probeStartDispatch s =
      .next (duplicateHead c (writeWatch (watchOf c e a.originator m d a.receivedAt) (dispatched s))) := by
  have harm : exec .probeStartDispatch s = execProbeStartDispatch s := rfl
  rw [harm, execProbeStartDispatch, dispatchOldest_of_act hs
    (f := takeProbeStart c e a.originator m d a.receivedAt) (by simp only [ha])]
  rfl

theorem exists_of_slotOf (hi : slotOf s c = some i) : ∃ p, probeAt s i = some p := by
  obtain ⟨hlt, hany, -⟩ := List.findIdx?_eq_some_iff_getElem.1 hi
  cases hget : s.probes.slots[i] with
  | none =>
    rw [hget] at hany
    cases hany
  | some p => exact ⟨p, by simp [probeAt, hlt, hget]⟩

theorem circuit_of_slotOf (hi : slotOf s c = some i) (hp : probeAt s i = some p) : p.circuit = c := by
  have hmatch := List.findIdx?_eq_some_iff_getElem.1 hi
  obtain ⟨hlt, hany, -⟩ := hmatch
  have hget : s.probes.slots[i] = some p := by simpa [probeAt, hlt] using hp
  simpa [hget] using hany

theorem duplicateHead_of_none (h : findPath s c = none) : duplicateHead c s = s := by
  rw [duplicateHead, if_pos (by simp [h])]

theorem duplicateHead_of_slot (hr : findPath s c = some r) (hi : slotOf s c = some i) (hp : probeAt s i = some p) :
    duplicateHead c s = conflictSlot i p (setFault .dupHead s) := by
  rw [duplicateHead, if_neg (by simp [hr])]
  dsimp only
  rw [show slotOf (setFault .dupHead s) c = some i from hi]
  dsimp only
  rw [show probeAt (setFault .dupHead s) i = some p from hp]

theorem duplicateHead_of_no_slot (hr : findPath s c = some r) (hi : slotOf s c = none) :
    duplicateHead c s = setFault .dupHead s := by
  rw [duplicateHead, if_neg (by simp [hr])]
  dsimp only
  rw [show slotOf (setFault .dupHead s) c = none from hi]

theorem hops_conflictSlot (hp : probeAt s i = some p) : (conflictSlot i p s).hops = s.hops := by
  cases hr : findPath s p.circuit with
  | none =>
    have hnone (w : State) (hw : probeAt w i = some p.marked) (hpaths : w.paths = s.paths) :
        evaluate i w = w ∧ evaluateWithdrawn i w = w :=
      evaluate_of_no_record hw ((findPath_of_paths hpaths _).trans hr)
    unfold conflictSlot
    split
    · rfl
    · rw [(hnone _ (probeAt_markConflict hp) rfl).1]
      rfl
    · split
      · rw [(hnone _ (probeAt_markConflict (s := withdrawStart p.circuit p.epoch s) hp) rfl).2]
        rfl
      · rw [(hnone _ (probeAt_markConflict hp) rfl).1]
        rfl
  | some r =>
    have hout : (evaluate i (markConflict i s)).hops = s.hops := by
      rw [(conflict_evaluated (Alike.refl s) hp hr).2.hops, followHead_conflict]
      rfl
    unfold conflictSlot
    split
    · rfl
    · exact hout
    · split
      · rw [conflict_withdrawn hp hr]
        have hhops := recordVerdict_hops (conflictJudgement p r) p.marked r
          (markConflict i (withdrawStart p.circuit p.epoch s))
        rw [followHead_conflict] at hhops
        simpa using hhops
      · exact hout

theorem flagged_duplicateHead (hr : findPath s c = some r) : (duplicateHead c s).ctl.faultSet .dupHead = true ∧
    (duplicateHead c s).ctl.alertSet .fault = true := by
  have hset : (setFault .dupHead s).ctl.faultSet .dupHead = true ∧ (setFault .dupHead s).ctl.alertSet .fault = true := by
    rw [faultSet_setFault, alertSet_setFault]
    simp
  have hflagged : (setFault .dupHead s).ctl.Flagged (duplicateHead c s).ctl := by
    rw [duplicateHead, if_neg (by simp [hr])]
    dsimp only
    split
    · exact .refl _
    split
    · exact .refl _
    have heval (k : Nat) (w : State) (h : w.ctl = (setFault .dupHead s).ctl) :
        (setFault .dupHead s).ctl.Flagged (evaluate k w).ctl ∧
          (setFault .dupHead s).ctl.Flagged (evaluateWithdrawn k w).ctl := h ▸ flagged_evaluate k w
    unfold conflictSlot
    repeat' split
    exacts [.refl _, (heval _ (markConflict _ _) rfl).1, (heval _ (markConflict _ (withdrawStart _ _ _)) rfl).2,
      (heval _ (markConflict _ _) rfl).1]
  exact ⟨hflagged.faults _ hset.1, hflagged.alerts _ hset.2⟩

/-! ### The slot by its phase -/

theorem conflictSlot_of_closing (h : p.phase = .closing) : conflictSlot i p s = s := by
  rw [conflictSlot, h]

theorem startWaits_iff (s : State) (c e : Nat) :
    ((s.probes.requests ++ s.loop.newNotices).any fun q => q.isStartOf c e) = startWaits s c e := by
  rw [List.any_append]
  rfl

theorem conflictSlot_of_waiting (h : p.phase = .claiming) (hw : startWaits s p.circuit p.epoch = true) :
    conflictSlot i p s = evaluateWithdrawn i (markConflict i (withdrawStart p.circuit p.epoch s)) := by
  rw [conflictSlot, h]
  exact if_pos hw

theorem conflictSlot_of_out (h : p.phase ≠ .closing) (hout : p.phase = .driving ∨ startWaits s p.circuit p.epoch = false) :
    conflictSlot i p s = evaluate i (markConflict i s) := by
  unfold conflictSlot
  split
  · contradiction
  · rfl
  · rename_i hclaiming
    exact if_neg (by simpa [hclaiming] using hout)

theorem probeUnit_eq {x : ProbeUnit} {slots : List (Option Probe)} {requests : List Request} (h : x.slots = slots)
    (h' : x.requests = requests) : x = { slots := slots, requests := requests } := by
  subst h h'
  rfl

theorem slots_markConflict (hp : probeAt s i = some p) :
    (markConflict i s).probes.slots = s.probes.slots.set i (some p.marked) := by
  rw [markConflict, modifySlot_eq_putSlot _ hp]
  rfl

theorem conflictRecorded_conflictSlot (halike : Alike t s) (hp : probeAt s i = some p)
    (hr : findPath s p.circuit = some r) (h : p.phase ≠ .closing) : ConflictRecorded p r t (conflictSlot i p s) := by
  by_cases hout : p.phase = .driving ∨ startWaits s p.circuit p.epoch = false
  · rw [conflictSlot_of_out h hout]
    exact (conflict_evaluated halike hp hr).1
  · rw [not_or, Bool.not_eq_false] at hout
    have hclaiming : p.phase = .claiming := by
      cases hphase : p.phase with
      | claiming => rfl
      | driving => exact absurd hphase hout.1
      | closing => exact absurd hphase h
    rw [conflictSlot_of_waiting hclaiming hout.2]
    exact conflictRecorded_withdrawn halike hp hr

/-- A CLAIMING slot whose START waits: both are gone, and no PROBE END is requested. -/
theorem conflictSlot_waiting_fields (hp : probeAt s i = some p) (hr : findPath s p.circuit = some r)
    (h : p.phase = .claiming) (hw : startWaits s p.circuit p.epoch = true) :
    (conflictSlot i p s).probes = { slots := s.probes.slots.set i none
                                    requests := s.probes.requests.filter fun q => !q.isStartOf p.circuit p.epoch } ∧
      (conflictSlot i p s).loop.newNotices = (s.loop.newNotices.filter fun q => !q.isStartOf p.circuit p.epoch) ∧
      (conflictSlot i p s).lines = s.lines := by
  rw [conflictSlot_of_waiting h hw, conflict_withdrawn hp hr]
  refine ⟨?_, by simp [markConflict, withdrawStart, changeLoop], by simp [markConflict]⟩
  have hprobes : (recordVerdict (conflictJudgement p r) p.marked r
      (markConflict i (withdrawStart p.circuit p.epoch s))).probes =
        { slots := s.probes.slots.set i (some p.marked)
          requests := s.probes.requests.filter fun q => !q.isStartOf p.circuit p.epoch } := by
    have hkept : (recordVerdict (conflictJudgement p r) p.marked r
        (markConflict i (withdrawStart p.circuit p.epoch s))).probes =
          (markConflict i (withdrawStart p.circuit p.epoch s)).probes := by simp
    rw [hkept]
    exact probeUnit_eq (slots_markConflict (s := withdrawStart p.circuit p.epoch s) hp) rfl
  rw [putSlot, setSlots, hprobes]
  simp

/-- Any other slot that is not closing: it closes, its PROBE END is requested, and its line idles. -/
theorem conflictSlot_out_fields (hp : probeAt s i = some p) (hr : findPath s p.circuit = some r)
    (h : p.phase ≠ .closing) (hout : p.phase = .driving ∨ startWaits s p.circuit p.epoch = false) :
    (conflictSlot i p s).probes =
        { slots := s.probes.slots.set i (some { p with
            phase := .closing, deadline := none, pool := [], conflict := true })
          requests := s.probes.requests ++
            [⟨.probeEnd p.circuit p.epoch .conflict (conflictJudgement p r).record.flags, .own⟩] } ∧
      (conflictSlot i p s).loop.newNotices = s.loop.newNotices ∧
      (conflictSlot i p s).lines = s.lines.set r.line (some (p.circuit, 0)) := by
  have heval := (conflict_evaluated (Alike.refl s) hp hr).2
  have hslots := heval.slots
  rw [slots_markConflict hp, List.set_set] at hslots
  rw [conflictSlot_of_out h hout]
  exact ⟨probeUnit_eq hslots heval.requests, by simp [markConflict], heval.lines⟩

/-- The same state but for the loop, the watch list and the flags. -/
structure StartTaken (s t : State) : Prop where
  alike : Alike s t
  probes : t.probes = s.probes
  lines : t.lines = s.lines
  hops : t.hops = s.hops
  roster : t.roster = s.roster
  notices : t.loop.newNotices = s.loop.newNotices

theorem startTaken (w : WatchEntry) (s : State) : StartTaken s (writeWatch w (dispatched s)) :=
  ⟨⟨rfl, rfl, rfl, rfl, rfl, rfl⟩, rfl, rfl, rfl, rfl, rfl⟩

theorem StartTaken.setFault (h : StartTaken s t) : StartTaken s (setFault .dupHead t) :=
  ⟨⟨h.alike.now, h.alike.image, h.alike.paths, h.alike.windows, h.alike.queue, h.alike.number⟩, h.probes, h.lines,
    h.hops, h.roster, h.notices⟩

theorem slotOf_of_probes (h : t.probes = s.probes) (c : Nat) : slotOf t c = slotOf s c := by
  rw [slotOf, slotOf, h]

theorem probeAt_of_probes (h : t.probes = s.probes) (i : Nat) : probeAt t i = probeAt s i := by
  rw [probeAt, probeAt, h]

theorem startWaits_of_taken (h : StartTaken s t) (c e : Nat) :
    ((s.probes.requests ++ s.loop.newNotices).any fun q => q.isStartOf c e) = startWaits t c e := by
  rw [startWaits_iff, startWaits, startWaits, h.probes, h.notices]

/-- The evidence of a conflict in its record. -/
theorem conflict_evidence (p : Probe) (r : PathRecord) :
    (afterVerdict (conflictJudgement p r) r r).lastVerdict = some (conflictJudgement p r).record ∧
      (afterVerdict (conflictJudgement p r) r r).lastChain = none ∧
      (afterVerdict (conflictJudgement p r) r r).baseline = r.baseline :=
  afterVerdict_evidence _ _ _

/-- Settles O53: the watch entry, the alarm of a duplicate head, and its slot by the phase. -/
theorem probeStartDispatchWritesTheWatch : Obligations.ProbeStartDispatchWritesTheWatch := by
  intro a c e d m rest s hs ha
  have hexec := exec_probeStartDispatch hs ha
  have htaken := startTaken (watchOf c e a.originator m d a.receivedAt) s
  have hfind : (writeWatch (watchOf c e a.originator m d a.receivedAt) (dispatched s)).scanner.watch.find?
      (·.circuit == c) = some (watchOf c e a.originator m d a.receivedAt) :=
    (find_putWatch _ _ c).trans (if_pos rfl)
  refine ⟨fun hnone => ?_, fun r hr => ?_⟩
  · rw [hexec, duplicateHead_of_none (s := writeWatch (watchOf c e a.originator m d a.receivedAt) (dispatched s)) hnone]
    rfl
  generalize writeWatch (watchOf c e a.originator m d a.receivedAt) (dispatched s) = b at hexec htaken hfind
  have hrb : findPath b c = some r := (findPath_of_paths htaken.alike.paths c).trans hr
  obtain ⟨hfault, halert⟩ := flagged_duplicateHead hrb
  have hset := htaken.setFault
  have hslot {i : Nat} (hi : slotOf s c = some i) {p : Probe} (hp : probeAt s i = some p) :
      duplicateHead c b = conflictSlot i p (setFault .dupHead b) ∧ probeAt (setFault .dupHead b) i = some p ∧
        p.circuit = c := by
    rw [← slotOf_of_probes htaken.probes] at hi
    rw [← probeAt_of_probes htaken.probes] at hp
    exact ⟨duplicateHead_of_slot hrb hi hp, hp, circuit_of_slotOf hi hp⟩
  have hrecorded {i : Nat} (hi : slotOf s c = some i) {p : Probe} (hp : probeAt s i = some p) (h : p.phase ≠ .closing) :
      ConflictRecorded p r s (duplicateHead c b) := by
    obtain ⟨heq, hpb, rfl⟩ := hslot hi hp
    exact heq ▸ conflictRecorded_conflictSlot hset.alike hpb hrb h
  have hhops : (duplicateHead c b).hops = s.hops := by
    cases hi : slotOf s c with
    | none =>
      rw [duplicateHead_of_no_slot hrb ((slotOf_of_probes htaken.probes c).trans hi)]
      exact htaken.hops
    | some i =>
      obtain ⟨p, hp⟩ := exists_of_slotOf hi
      obtain ⟨heq, hpb, -⟩ := hslot hi hp
      rw [heq, hops_conflictSlot hpb]
      exact htaken.hops
  have hroster : (duplicateHead c b).roster = s.roster := (by simp : (duplicateHead c b).roster = b.roster).trans htaken.roster
  have hscanner : (duplicateHead c b).scanner = b.scanner := by simp
  refine ⟨_, hexec, hfault, halert, ?_, fun hi => ?_, fun i hi p hp hclosing => ?_, fun i hi p hp hdriving => ?_,
    fun i hi p hp hphase => ?_, hhops, hroster⟩
  · rw [hscanner, hfind]
    rfl
  · rw [duplicateHead_of_no_slot hrb ((slotOf_of_probes htaken.probes c).trans hi)]
    exact ⟨htaken.alike.paths, htaken.probes, htaken.lines⟩
  · obtain ⟨heq, -, -⟩ := hslot hi hp
    rw [heq, conflictSlot_of_closing hclosing]
    exact ⟨htaken.alike.paths, htaken.probes⟩
  · have hne : p.phase ≠ .closing := by simp [hdriving]
    obtain ⟨hverdict, -, hbaseline⟩ := conflict_evidence p r
    have hrecord := (hrecorded hi hp hne).record
    obtain ⟨heq, hpb, rfl⟩ := hslot hi hp
    have heval := (conflict_evaluated hset.alike hpb hrb).2
    rw [← conflictSlot_of_out hne (.inl hdriving), ← heq] at heval
    exact ⟨⟨_, heval.slot, rfl, rfl, rfl⟩, ⟨_, hrecord, _, hverdict, rfl, rfl, hbaseline⟩,
      heval.lines.trans (congrArg (fun l => l.set r.line (some (p.circuit, 0))) hset.lines)⟩
  · obtain ⟨hverdict, hchain, hbaseline⟩ := conflict_evidence p r
    have hrec := hrecorded hi hp hphase
    obtain ⟨heq, hpb, rfl⟩ := hslot hi hp
    refine ⟨_, hrec.record, _, hverdict, rfl, rfl, rfl, rfl, rfl, rfl, rfl, rfl, hchain, hbaseline,
      fun hrecords hwindows => ?_, hrec.unowed, fun hwait => ?_, fun hout => ?_⟩
    · obtain ⟨-, -, -, -, -, howed⟩ := hrecords.2 r (List.mem_of_find?_eq_some hr)
      exact ⟨movedByVerdict rfl, hrec.windows howed hwindows.1, hrec.queue howed hwindows.1⟩
    · rw [startWaits_of_taken hset] at hwait
      have hfields := conflictSlot_waiting_fields hpb hrb hwait.1 hwait.2
      rw [← heq, hset.probes, hset.notices, hset.lines] at hfields
      exact hfields
    · rw [startWaits_of_taken hset] at hout
      have hfields := conflictSlot_out_fields hpb hrb hphase hout
      rw [← heq, hset.probes, hset.notices, hset.lines] at hfields
      exact hfields

end Sys2Proof.Machine
end

