-- ==== Sys2Proof/Proofs/Sightings.lean ====
section
/-! A dispatched SIGHTING: its items at their slots, and the early completion (R53, R57, R58). -/

namespace Sys2Proof.Machine

variable {s : State} {p : Probe} {r : PathRecord} {i : Nat}

/-! ### The record of a verdict does not look at the slots -/

/-- The state with another Probe Unit and another Tag Scanner. -/
def beside (x : ProbeUnit) (y : TagScanner) (s : State) : State := (s.setProbes x).setScanner y

/-- The Probe Unit and the Tag Scanner are no part of what a function reads or changes. -/
def SideBlind (f : State → State) : Prop := ∀ x y s, f (beside x y s) = beside x y (f s)

theorem SideBlind.comp {f h : State → State} (hf : SideBlind f) (hh : SideBlind h) : SideBlind fun s => f (h s) :=
  fun x y s => (congrArg f (hh x y s)).trans (hf x y _)

theorem SideBlind.foldl {α : Type} {f : State → α → State} (hf : ∀ a, SideBlind fun s => f s a) (l : List α) :
    SideBlind fun s => l.foldl f s := by
  induction l with
  | nil => exact fun _ _ _ => rfl
  | cons a l ih =>
    intro x y s
    simp only [List.foldl_cons]
    rw [show f (beside x y s) a = beside x y (f s a) from hf a x y s]
    exact ih x y _

theorem sideBlind_postReport (r : Report) : SideBlind (postReport r) := by
  intro x y s
  rw [postReport_eq_setCtl, postReport_ctl_congr r (s := beside x y s) (t := s) rfl rfl rfl, postReport_eq_setCtl r s]
  rfl

theorem sideBlind_completeRun (id : Nat) : SideBlind (completeRun id) := by
  intro x y s
  have hpop (u : State) : popRun (beside x y u) = beside x y (popRun u) := by
    unfold popRun
    rw [show (beside x y u).sched = u.sched from rfl]
    repeat' split
    all_goals rfl
  unfold completeRun
  rw [show allRuns (beside x y s) = allRuns s from rfl]
  split
  · rfl
  dsimp only
  rw [sideBlind_postReport, hpop, show (beside x y s).sched = s.sched from rfl]
  repeat' split
  all_goals rfl

theorem sideBlind_creditRun (p : Probe) (v : Verdict) : SideBlind (creditRun p v) := by
  intro x y s
  unfold creditRun
  rw [show allRuns (beside x y s) = allRuns s from rfl]
  repeat' split
  · rfl
  · exact sideBlind_completeRun _ x y (modifyRun _ _ s)
  · rfl

theorem sideBlind_tallyTest (ser : Serial) : SideBlind (tallyTest ser) := by
  intro x y s
  have hfind (u : State) : findWindow (beside x y u) ser = findWindow u ser := rfl
  have hsummary (u : State) : summaryTest ser (beside x y u) = beside x y (summaryTest ser u) := by
    unfold summaryTest
    rw [hfind]
    repeat' split
    · rfl
    · rw [sideBlind_postReport]
      rfl
    · rfl
  have hrecord (n : Nat) (c : Tally) (u : State) :
      recordTally ser n c (beside x y u) = beside x y (recordTally ser n c u) := by
    unfold recordTally
    rw [hfind]
    repeat' split
    · rfl
    · exact hsummary (modifyWindow ser _ u)
    · rfl
  have hrequest (u : State) : requestTally ser (beside x y u) = beside x y (requestTally ser u) := by
    unfold requestTally
    rw [hfind]
    split <;> rfl
  unfold tallyTest
  rw [hfind, show owesSerial (beside x y s) ser = owesSerial s ser from rfl, show (beside x y s).own = s.own from rfl]
  repeat' split
  exacts [rfl, rfl, hrecord _ _ s, rfl, hrequest s, rfl]

theorem sideBlind_followHead (j : Judgement) : SideBlind (followHead j) := by
  intro x y s
  unfold followHead
  repeat' split
  all_goals rfl

theorem sideBlind_moveForVerdict (j : Judgement) (r : PathRecord) : SideBlind (moveForVerdict j r) := by
  intro x y s
  have hcredits (l : List Serial) : SideBlind fun u => l.foldl (creditWindow j.record.circuit j.record.verdict) u :=
    SideBlind.foldl (fun ser x y u => sideBlind_tallyTest ser x y (modifyWindow ser _ u)) l
  unfold moveForVerdict creditOwed
  dsimp only
  repeat' split
  exacts [rfl, hcredits _ x y (modifyPath _ _ (setRecordState _ _ s)), rfl, rfl]

theorem sideBlind_recordVerdict (j : Judgement) (p : Probe) (r : PathRecord) : SideBlind (recordVerdict j p r) :=
  (sideBlind_creditRun p j.record.verdict).comp ((sideBlind_postReport (.verdict j.record)).comp
    ((sideBlind_moveForVerdict j r).comp ((sideBlind_followHead j).comp fun _ _ _ => rfl)))

/-- An evaluation neither reads nor changes the Tag Scanner. -/
theorem evaluate_setScanner (i : Nat) (y : TagScanner) (s : State) :
    evaluate i (s.setScanner y) = (evaluate i s).setScanner y := by
  have hrecord (j : Judgement) (p : Probe) (r : PathRecord) :
      recordVerdict j p r (s.setScanner y) = (recordVerdict j p r s).setScanner y := by
    have hprobes : (recordVerdict j p r s).probes = s.probes := by simp
    have hblind := sideBlind_recordVerdict j p r s.probes y s
    rw [beside, beside] at hblind
    exact hblind.trans (by rw [← hprobes]; rfl)
  cases hp : probeAt s i with
  | none =>
    rw [evaluate, evaluate, hp, show probeAt (s.setScanner y) i = none from hp]
  | some p =>
    cases hr : findPath s p.circuit with
    | none =>
      rw [(evaluate_of_no_record hp hr).1,
        (evaluate_of_no_record (s := s.setScanner y) hp (show findPath (s.setScanner y) p.circuit = none from hr)).1]
    | some r =>
      rw [evaluate_eq hp hr rfl, evaluate_eq (s := s.setScanner y) hp hr rfl, hrecord]
      have hidle (u : State) : idleMarking p.circuit (u.setScanner y) = (idleMarking p.circuit u).setScanner y := by
        unfold idleMarking
        rw [show findPath (u.setScanner y) p.circuit = findPath u p.circuit from rfl]
        split <;> rfl
      exact congrArg (requestProbe _) (hidle (closeSlot i (recordVerdict _ p r s)))

/-- The deadline of a slot is no part of its verdict. -/
theorem recordVerdict_deadline (j : Judgement) (p : Probe) (r : PathRecord) (d : Option Nat) (s : State) :
    recordVerdict j { p with deadline := d } r s = recordVerdict j p r s := rfl

theorem closeSlot_deadline (d : Option Nat) (hp : probeAt s i = some p) :
    closeSlot i (putSlot i (some { p with deadline := d }) s) = closeSlot i s := by
  have hput : probeAt (putSlot i (some { p with deadline := d }) s) i = some { p with deadline := d } := by
    rw [probeAt_putSlot i i _ s (lt_of_probeAt hp), if_pos rfl]
  rw [closeSlot, closeSlot, modifySlot_eq_putSlot _ hput, modifySlot_eq_putSlot _ hp]
  simp [putSlot, setSlots, State.setProbes]

/-- A slot evaluates alike whenever its deadline comes. -/
theorem evaluate_deadline (d : Option Nat) (hp : probeAt s i = some p) (hr : findPath s p.circuit = some r) :
    evaluate i (putSlot i (some { p with deadline := d }) s) = evaluate i s := by
  have hlt := lt_of_probeAt hp
  have hput : probeAt (putSlot i (some { p with deadline := d }) s) i = some { p with deadline := d } := by
    rw [probeAt_putSlot i i _ s hlt, if_pos rfl]
  rw [evaluate_eq hp hr rfl, evaluate_eq hput (show findPath s p.circuit = some r from hr) rfl]
  have hjudge : judgeProbe (putSlot i (some { p with deadline := d }) s) { p with deadline := d } r =
      judgeProbe s p r := rfl
  have hprobes : (recordVerdict (judgeProbe s p r) p r s).probes = s.probes := by simp
  have hat : probeAt (recordVerdict (judgeProbe s p r) p r s) i = some p :=
    (probeAt_of_probes hprobes i).trans hp
  have hcommutes : recordVerdict (judgeProbe s p r) p r (putSlot i (some { p with deadline := d }) s) =
      putSlot i (some { p with deadline := d }) (recordVerdict (judgeProbe s p r) p r s) := by
    have hscanner : (recordVerdict (judgeProbe s p r) p r s).scanner = s.scanner := by simp
    have hblind := sideBlind_recordVerdict (judgeProbe s p r) p r
      { s.probes with slots := s.probes.slots.set i (some { p with deadline := d }) } s.scanner s
    rw [putSlot, setSlots, putSlot, setSlots, hprobes]
    exact hblind.trans (by rw [← hscanner]; rfl)
  rw [hjudge, recordVerdict_deadline, hcommutes, closeSlot_deadline d hat]

/-! ### One item (R57) -/

theorem exec_sightingDispatch {a : Received} {items : List Item} {rest : List Received}
    (hs : s.loop.receive = a :: rest) (ha : a.payload = .sighting items) :
    exec .sightingDispatch s = .next (takeSighting items (dispatched s)) := by
  have harm : exec .sightingDispatch s = execSightingDispatch s := rfl
  rw [harm, execSightingDispatch, dispatchOldest_of_act hs (f := takeSighting items) (by simp only [ha])]

theorem offerItem_of_none {x : Item} (h : drivingSlot s x.circuit x.epoch = none) : offerItem x s = s := by
  rw [offerItem, h]

theorem offerItem_of_slot {x : Item} (hi : drivingSlot s x.circuit x.epoch = some i) (hp : probeAt s i = some p) :
    offerItem x s = intake i p x.record s := by
  rw [offerItem, hi]
  dsimp only
  rw [hp]

theorem phase_of_drivingSlot {c e : Nat} (hi : drivingSlot s c e = some i) (hp : probeAt s i = some p) :
    p.phase = .driving := by
  obtain ⟨hlt, hany, -⟩ := List.findIdx?_eq_some_iff_getElem.1 hi
  have hget : s.probes.slots[i] = some p := by simpa [probeAt, hlt] using hp
  simp only [hget, Option.any_some, Bool.and_eq_true, beq_iff_eq] at hany
  exact hany.1.1

theorem intake_of_repeat {x : PoolRecord} (h : (p.pool.any fun r => r.station == x.station && r.port == x.port) = true) :
    intake i p x s = s := if_pos h

theorem intake_of_full {x : PoolRecord} (hp : probeAt s i = some p)
    (h : (p.pool.any fun r => r.station == x.station && r.port == x.port) = false) (hfull : freeRecords s = 0) :
    intake i p x s = setFault .pool (putSlot i (some { p with poolShort := true }) s) := by
  rw [intake, if_neg (by simp [h]), if_pos hfull, modifySlot_eq_putSlot _ hp]

/-- A record with room joins the pool, and the slot is tested for its early completion. -/
theorem intake_of_room {x : PoolRecord} (hp : probeAt s i = some p)
    (h : (p.pool.any fun r => r.station == x.station && r.port == x.port) = false) (hroom : 0 < freeRecords s) :
    intake i p x s = if completesEarly s.image.station { p with pool := p.pool ++ [x] }
        ((findPath s p.circuit).bind (·.baseline)) then
      evaluate i (putSlot i (some { p with pool := p.pool ++ [x] }) s)
    else putSlot i (some { p with pool := p.pool ++ [x] }) s := by
  have hput : probeAt (putSlot i (some { p with pool := p.pool ++ [x] }) s) i = some { p with pool := p.pool ++ [x] } := by
    rw [probeAt_putSlot i i _ s (lt_of_probeAt hp), if_pos rfl]
  rw [intake, if_neg (by simp [h]), if_neg (by omega), modifySlot_eq_putSlot _ hp, testEarly, hput]
  rfl

/-- The early completion test, in the words of R53. -/
theorem completesEarly_eq (head : Nat) (p : Probe) (base : Option (List Hop)) : completesEarly head p base =
    (p.mode != .census && base.any fun b =>
      (assemble head p.pool).hops.map Hop.route == b.map Hop.route && (assemble head p.pool).landing.isSome &&
        (assemble head p.pool).landing == b.getLast?.map (fun h => (h.station, h.egress)) &&
        b.all fun h => !stationIn p.blind h.station) := by
  cases base with
  | none => simp [completesEarly]
  | some b =>
    have hlands : (assemble head p.pool).landsAt (tailOf b) = ((assemble head p.pool).landing.isSome &&
        (assemble head p.pool).landing == b.getLast?.map (fun h => (h.station, h.egress))) := by
      rw [Chain.landsAt, Chain.landing]
      cases (assemble head p.pool).ending with
      | landing x q => exact Bool.beq_comm
      | looped | stub | stopped => rfl
    rw [completesEarly, Option.any_some, sameRoute, hlands, Bool.beq_comm (a := b.map Hop.route)]
    simp only [Bool.and_assoc]

theorem findPath_of_completesEarly {head : Nat} {q : Probe} {c : Nat}
    (h : completesEarly head q ((findPath s c).bind (·.baseline)) = true) : ∃ r, findPath s c = some r := by
  cases hr : findPath s c with
  | none =>
    rw [hr] at h
    cases h
  | some r => exact ⟨r, rfl⟩

/-- A slot put in evaluates as its deadline would have it evaluate now. -/
theorem exec_deadline_now {q : Probe} (hp : probeAt s i = some p) (hphase : q.phase = .driving)
    (hr : findPath s q.circuit = some r) : exec (.deadlineExpiry i) (putSlot i (some { q with deadline := some s.now }) s) =
      .next (evaluate i (putSlot i (some q) s)) := by
  have hlt := lt_of_probeAt hp
  have hput : probeAt (putSlot i (some q) s) i = some q := by
    rw [probeAt_putSlot i i _ s hlt, if_pos rfl]
  have htwice : putSlot i (some { q with deadline := some s.now }) s =
      putSlot i (some { q with deadline := some s.now }) (putSlot i (some q) s) := by
    simp [putSlot, setSlots, State.setProbes]
  have hnow : advanceTo s.now (putSlot i (some { q with deadline := some s.now }) s) =
      putSlot i (some { q with deadline := some s.now }) s := by
    rw [advanceTo, show (putSlot i _ s).now = s.now from rfl, Nat.max_self]
    rfl
  have hat : probeAt (putSlot i (some { q with deadline := some s.now }) s) i =
      some { q with deadline := some s.now } := by
    rw [probeAt_putSlot i i _ s hlt, if_pos rfl]
  rw [exec_deadlineExpiry hat hphase rfl, hnow, htwice,
    evaluate_deadline (some s.now) hput (show findPath s q.circuit = some r from hr)]

/-- Settles O54: an item by its slot and the room, the early completion, and several items one after the other. -/
theorem sightingItemsReachTheirSlot : Obligations.SightingItemsReachTheirSlot := by
  refine ⟨fun a x rest s hs ha => ⟨fun hnone => ?_, fun i hi p hp => ⟨fun hrepeat => ?_, fun hnew hfull => ?_⟩⟩,
    fun a x rest i p chain early s hs ha hi hp hnew hroom hchain hearly => ?_, fun a x items rest s t hs ha ht => ?_⟩
  · rw [exec_sightingDispatch hs ha, takeSighting, List.foldl_cons, List.foldl_nil,
      offerItem_of_none (s := dispatched s) hnone]
  · rw [exec_sightingDispatch hs ha, takeSighting, List.foldl_cons, List.foldl_nil,
      offerItem_of_slot (s := dispatched s) hi hp, intake_of_repeat hrepeat]
  · rw [exec_sightingDispatch hs ha, takeSighting, List.foldl_cons, List.foldl_nil,
      offerItem_of_slot (s := dispatched s) hi hp, intake_of_full (s := dispatched s) hp hnew hfull]
    rfl
  · have hoffer : exec .sightingDispatch s = .next (intake i p x.record (dispatched s)) := by
      rw [exec_sightingDispatch hs ha, takeSighting, List.foldl_cons, List.foldl_nil,
        offerItem_of_slot (s := dispatched s) hi hp]
    have htest : early = completesEarly (dispatched s).image.station { p with pool := p.pool ++ [x.record] }
        ((findPath (dispatched s) p.circuit).bind (·.baseline)) := by
      rw [completesEarly_eq, hearly, hchain]
      rfl
    rw [hoffer, intake_of_room (s := dispatched s) hp hnew hroom]
    refine ⟨fun hno => ?_, fun hyes => ?_⟩
    · rw [if_neg (by rw [← htest, hno]; simp)]
      rfl
    · have hdriving : p.phase = .driving := phase_of_drivingSlot hi hp
      obtain ⟨r, hr⟩ := findPath_of_completesEarly (s := dispatched s) (htest.symm.trans hyes)
      rw [if_pos (htest.symm.trans hyes)]
      exact (exec_deadline_now (s := dispatched s) (q := { p with pool := p.pool ++ [x.record] }) hp
        hdriving hr).symm
  · have hfirst : exec .sightingDispatch
        (s.setLoop { s.loop with receive := { a with payload := .sighting [x] } :: rest }) =
          .next (offerItem x (dispatched s)) := by
      rw [exec_sightingDispatch (s := s.setLoop _) rfl rfl, dispatched, dispatched, hs]
      rfl
    obtain rfl : offerItem x (dispatched s) = t := Host.Outcome.next.inj (hfirst.symm.trans ht)
    have hloop : (offerItem x (dispatched s)).loop = { s.loop with receive := rest } := by
      have hkept : (offerItem x (dispatched s)).loop = (dispatched s).loop := by simp
      rw [hkept, dispatched, hs]
      rfl
    have hsecond : dispatched ((offerItem x (dispatched s)).setLoop { (offerItem x (dispatched s)).loop with
        receive := { a with payload := .sighting items } :: rest }) = offerItem x (dispatched s) := by
      rw [dispatched, hloop]
      change (offerItem x (dispatched s)).setLoop { s.loop with receive := rest } = _
      rw [← hloop]
      rfl
    rw [exec_sightingDispatch hs ha, exec_sightingDispatch (s := State.setLoop _ _) rfl rfl, hsecond]
    rfl

end Sys2Proof.Machine
end

