-- ==== Sys2Proof/Proofs/Strays.lean ====
section
/-! Strays raised one after the other: the latches, the pending list, and the audits of this station's circuits
(R17, R42). -/

namespace Sys2Proof.Machine

variable {s t : State} {c p : Nat}

/-! ### Audits asked for strays (R17, R42) -/

/-- A record after stray audits were asked for circuits. -/
def strayQueued (cs : List Nat) (x : PathRecord) : PathRecord :=
  if cs.contains x.circuit = true ∧ x.state = .idle then
    { x with state := .queued (if x.baseline = none then .census else .routine), origin := some .stray }
  else x

/-- A stray audit of the circuit is taken: its record is idle, with or without a baseline. -/
def strayTaken (based : Bool) (s : State) (c : Nat) : Bool :=
  (findPath s c).any fun x => x.state == .idle && x.baseline.isSome == based

/-- Stray audits asked for different circuits. -/
def strayAudited (cs : List Nat) (s : State) : State :=
  (s.setPaths (s.paths.map (strayQueued cs))).setSched { s.sched with
    census := s.sched.census ++ cs.filter (strayTaken false s)
    routine := s.sched.routine ++ cs.filter (strayTaken true s) }

theorem strayQueued_circuit (cs : List Nat) (x : PathRecord) : (strayQueued cs x).circuit = x.circuit := by
  unfold strayQueued
  split <;> rfl

theorem strayQueued_of_not_mem {cs : List Nat} {x : PathRecord} (h : x.circuit ∉ cs) : strayQueued cs x = x :=
  if_neg (by simp [h])

theorem strayQueued_nil (s : State) : s.paths.map (strayQueued []) = s.paths :=
  (List.map_congr_left fun _ _ => strayQueued_of_not_mem List.not_mem_nil).trans (List.map_id _)

theorem strayAudited_of_not_idle (h : ∀ x ∈ s.paths, x.circuit = c → x.state ≠ .idle) : strayAudited [c] s = s := by
  have hpaths : s.paths.map (strayQueued [c]) = s.paths := by
    refine (List.map_congr_left fun x hx => ?_).trans (List.map_id _)
    exact if_neg fun hif => h x hx (by simpa using hif.1) hif.2
  have hno (b : Bool) : strayTaken b s c = false := by
    rw [strayTaken]
    cases hr : findPath s c with
    | none => rfl
    | some r => simp [h r (List.mem_of_find?_eq_some hr) (circuit_of_findPath hr)]
  rw [strayAudited, hpaths, List.filter_singleton, List.filter_singleton, hno, hno]
  simp [State.setSched, State.setPaths]

theorem requestAudit_stray (hnd : (pathOrder s).Nodup) : requestAudit c .routine .stray s = strayAudited [c] s := by
  cases hr : findPath s c with
  | none =>
    rw [strayAudited_of_not_idle, requestAudit, hr]
    exact fun x hx hc => absurd hc (by simpa using List.find?_eq_none.1 hr x hx)
  | some r =>
    have hcircuit := circuit_of_findPath hr
    have hself {x : PathRecord} (hx : x ∈ s.paths) (hc : x.circuit = c) : x = r :=
      List.inj_on_of_nodup_map hnd hx (List.mem_of_find?_eq_some hr) (hc.trans hcircuit.symm)
    rw [requestAudit, hr]
    dsimp only
    split
    · rename_i hidle
      have hpaths : (modifyPath c (fun x => { x with
          state := .queued (requestMode r .routine), origin := some .stray }) s).paths =
          s.paths.map (strayQueued [c]) := by
        refine List.map_congr_left fun x hx => ?_
        by_cases hc : x.circuit = c
        · obtain rfl := hself hx hc
          rw [if_pos hc, strayQueued, if_pos ⟨by simp [hc], hidle⟩]
          simp [requestMode]
        · rw [if_neg hc, strayQueued_of_not_mem (by simpa using hc)]
      rw [strayAudited, ← hpaths, List.filter_singleton, List.filter_singleton, strayTaken, strayTaken, hr, enqueue]
      cases hbase : r.baseline with
      | none => simp [requestMode, hbase, joinList, hidle, modifyPath, State.setSched, State.setPaths]
      | some b => simp [requestMode, hbase, joinList, hidle, modifyPath, State.setSched, State.setPaths]
    · rename_i hidle
      exact (strayAudited_of_not_idle fun x hx hc => by rwa [hself hx hc]).symm

theorem findPath_strayAudited {cs : List Nat} {d : Nat} (h : d ∉ cs) :
    findPath (strayAudited cs s) d = findPath s d := by
  have hpaths : (strayAudited cs s).paths = s.paths.map (strayQueued cs) := rfl
  have hkey : ((fun x : PathRecord => x.circuit == d) ∘ strayQueued cs) = fun x => x.circuit == d :=
    funext fun x => by rw [Function.comp_apply, strayQueued_circuit]
  rw [findPath, hpaths, List.find?_map, hkey, ← findPath]
  cases hr : findPath s d with
  | none => rfl
  | some r => exact congrArg some (strayQueued_of_not_mem (circuit_of_findPath hr ▸ h))

theorem pathOrder_strayAudited (cs : List Nat) (s : State) : pathOrder (strayAudited cs s) = pathOrder s := by
  have hpaths : (strayAudited cs s).paths = s.paths.map (strayQueued cs) := rfl
  rw [pathOrder, hpaths, List.map_map]
  exact List.map_congr_left fun x _ => strayQueued_circuit cs x

theorem strayAudited_cons {cs : List Nat} (h : c ∉ cs) :
    strayAudited cs (strayAudited [c] s) = strayAudited (c :: cs) s := by
  have hpaths : (s.paths.map (strayQueued [c])).map (strayQueued cs) = s.paths.map (strayQueued (c :: cs)) := by
    rw [List.map_map]
    refine List.map_congr_left fun x _ => ?_
    rw [Function.comp_apply]
    by_cases hc : x.circuit = c
    · rw [strayQueued_of_not_mem (cs := cs) (by rwa [strayQueued_circuit, hc])]
      simp [strayQueued, hc]
    · rw [strayQueued_of_not_mem (cs := [c]) (by simpa using hc)]
      simp [strayQueued, hc]
  have htaken (b : Bool) : cs.filter (strayTaken b (strayAudited [c] s)) = cs.filter (strayTaken b s) :=
    List.filter_congr fun d hd => by
      rw [strayTaken, findPath_strayAudited (by simpa using ne_of_mem_of_not_mem hd h)]
      rfl
  have hcons (b : Bool) : (c :: cs).filter (strayTaken b s) = [c].filter (strayTaken b s) ++ cs.filter (strayTaken b s) :=
    List.filter_append [c] cs
  rw [strayAudited, htaken, htaken, strayAudited, strayAudited, hcons, hcons, ← hpaths, ← List.append_assoc,
    ← List.append_assoc]
  rfl

/-- Stray audits asked one after the other. -/
theorem requestAudits_stray {cs : List Nat} : ∀ {s : State}, (pathOrder s).Nodup → cs.Nodup →
    requestAudits cs .routine .stray s = strayAudited cs s := by
  induction cs with
  | nil =>
    intro s _ _
    rw [strayAudited, strayQueued_nil]
    simp [requestAudits, State.setSched, State.setPaths]
  | cons c cs ih =>
    intro s hnd hcs
    obtain ⟨hfresh, hcs⟩ := List.nodup_cons.1 hcs
    have hstep : requestAudits (c :: cs) .routine .stray s =
        requestAudits cs .routine .stray (strayAudited [c] s) := by
      rw [← requestAudit_stray hnd]
      rfl
    rw [hstep, ← strayAudited_cons hfresh]
    exact ih (by rwa [pathOrder_strayAudited]) hcs

/-! ### Strays raised (R42) -/

/-- Strays raised on a port, one after the other. -/
def raiseStrays (p : Nat) (l : List (HopEntry × StrayKind)) (s : State) : State :=
  l.foldl (fun t x => raiseStray x.1 x.2 p t) s

theorem raiseStrays_append (p : Nat) (a b : List (HopEntry × StrayKind)) (s : State) :
    raiseStrays p (a ++ b) s = raiseStrays p b (raiseStrays p a s) := List.foldl_append

/-- The strays of other heads that join the pending list. -/
def listedStrays (own room : Nat) (l : List (HopEntry × StrayKind)) : List (HopEntry × StrayKind) :=
  (l.filter fun x => x.1.headStation != own).take room

/-- The circuits of this station among the strays. -/
def ownStrays (own : Nat) (l : List (HopEntry × StrayKind)) : List Nat :=
  (l.filter fun x => x.1.headStation == own).map (·.1.circuit)

/-- The entries with the latches of some circuits set. -/
def latched (cs : List Nat) (l : List HopEntry) : List HopEntry :=
  l.map fun e => { e with latch := e.latch || cs.contains e.circuit }

/-- The state after strays were listed and latched, before the audits. -/
def strayListed (p : Nat) (l : List (HopEntry × StrayKind)) (s : State) : State :=
  (s.setHops (latched (ownStrays s.image.station l ++
    (listedStrays s.image.station (8 - s.scanner.strays.length) l).map (·.1.circuit)) s.hops)).setScanner
      { s.scanner with
        strays := s.scanner.strays ++ (listedStrays s.image.station (8 - s.scanner.strays.length) l).map fun x =>
          ⟨x.1.circuit, x.1.headStation, x.2, p⟩ }

theorem latched_latched (a b : List Nat) (l : List HopEntry) : latched b (latched a l) = latched (a ++ b) l := by
  simp [latched, Bool.or_assoc]

theorem setLatch_eq (c : Nat) (s : State) : setLatch c s = s.setHops (latched [c] s.hops) := by
  rw [setLatch, modifyHop, latched]
  refine congrArg _ (List.map_congr_left fun e _ => ?_)
  by_cases hc : e.circuit = c
  · simp [hc]
  · simp [hc]

theorem latched_congr {a b : List Nat} (h : ∀ d, d ∈ a ↔ d ∈ b) (l : List HopEntry) : latched a l = latched b l := by
  refine List.map_congr_left fun e _ => ?_
  rw [Bool.eq_iff_iff.2 (by simpa using h e.circuit : (a.contains e.circuit = true) ↔ b.contains e.circuit = true)]

theorem latched_middle (c : Nat) (a b : List Nat) (l : List HopEntry) :
    latched (c :: (a ++ b)) l = latched (a ++ c :: b) l :=
  latched_congr (fun d => by simp [or_left_comm]) l

theorem latched_nil (l : List HopEntry) : latched [] l = l :=
  (List.map_congr_left fun e _ => by simp).trans (List.map_id l)

/-- The entries and the scanner are no part of an audit request. -/
theorem requestAudit_beside (c : Nat) (m : Mode) (o : Origin) (hops : List HopEntry) (y : TagScanner) (s : State) :
    requestAudit c m o ((s.setHops hops).setScanner y) = ((requestAudit c m o s).setHops hops).setScanner y := by
  unfold requestAudit
  rw [show findPath ((s.setHops hops).setScanner y) c = findPath s c from rfl]
  cases findPath s c with
  | none => rfl
  | some r =>
    dsimp only
    split
    · cases requestMode r m <;> rfl
    · rfl

theorem strayListed_requestAudit (p c : Nat) (m : Mode) (o : Origin) (l : List (HopEntry × StrayKind)) (s : State) :
    strayListed p l (requestAudit c m o s) = requestAudit c m o (strayListed p l s) := by
  have hhops : (requestAudit c m o s).hops = s.hops := by simp
  have hscanner : (requestAudit c m o s).scanner = s.scanner := by simp
  have himage : (requestAudit c m o s).image = s.image := by simp
  rw [strayListed, strayListed, requestAudit_beside, hhops, hscanner, himage]

theorem strayListed_own {x : HopEntry × StrayKind} (l : List (HopEntry × StrayKind))
    (h : x.1.headStation = s.image.station) :
    strayListed p l (setLatch x.1.circuit s) = strayListed p (x :: l) s := by
  have hown : ownStrays s.image.station (x :: l) = x.1.circuit :: ownStrays s.image.station l := by
    simp [ownStrays, h]
  have hlisted (n : Nat) : listedStrays s.image.station n (x :: l) = listedStrays s.image.station n l := by
    simp [listedStrays, h]
  rw [setLatch_eq, strayListed, strayListed, hown, hlisted]
  change State.setScanner (State.setHops _ (latched _ (latched _ s.hops))) _ = _
  rw [latched_latched]
  rfl

theorem strayListed_other {x : HopEntry × StrayKind} (l : List (HopEntry × StrayKind))
    (h : x.1.headStation ≠ s.image.station) (hroom : s.scanner.strays.length < 8) :
    strayListed p l (setLatch x.1.circuit (changeScanner (fun y => { y with
      strays := y.strays ++ [⟨x.1.circuit, x.1.headStation, x.2, p⟩] }) s)) = strayListed p (x :: l) s := by
  have hown : ownStrays s.image.station (x :: l) = ownStrays s.image.station l := by
    simp [ownStrays, h]
  have hlisted : listedStrays s.image.station (8 - s.scanner.strays.length) (x :: l) =
      x :: listedStrays s.image.station (8 - (s.scanner.strays.length + 1)) l := by
    obtain ⟨n, hn⟩ : ∃ n, 8 - s.scanner.strays.length = n + 1 := ⟨7 - s.scanner.strays.length, by omega⟩
    have hn' : 8 - (s.scanner.strays.length + 1) = n := by omega
    rw [hn, hn']
    simp [listedStrays, h]
  rw [setLatch_eq, strayListed, strayListed, hown, hlisted]
  simp only [changeScanner, State.setScanner_fields, State.setHops_fields, List.length_append, List.length_singleton,
    List.map_cons, List.append_assoc, List.singleton_append, latched_latched]
  rw [latched_middle]
  rfl

theorem strayListed_full {x : HopEntry × StrayKind} (l : List (HopEntry × StrayKind))
    (h : x.1.headStation ≠ s.image.station) (hfull : 8 ≤ s.scanner.strays.length) :
    strayListed p l s = strayListed p (x :: l) s := by
  have hown : ownStrays s.image.station (x :: l) = ownStrays s.image.station l := by
    simp [ownStrays, h]
  have hnone (k : List (HopEntry × StrayKind)) :
      listedStrays s.image.station (8 - s.scanner.strays.length) k = [] := by
    rw [listedStrays, Nat.sub_eq_zero_of_le hfull, List.take_zero]
  rw [strayListed, strayListed, hown, hnone, hnone]

/-- Strays raised: the list and the latches, then the audits. -/
theorem raiseStrays_eq (p : Nat) (l : List (HopEntry × StrayKind)) : ∀ s : State,
    raiseStrays p l s = requestAudits (ownStrays s.image.station l) .routine .stray (strayListed p l s) := by
  induction l with
  | nil =>
    intro s
    change s = strayListed p [] s
    simp [strayListed, listedStrays, ownStrays, latched_nil, State.setHops, State.setScanner]
  | cons x l ih =>
    intro s
    have hstep : raiseStrays p (x :: l) s = raiseStrays p l (raiseStray x.1 x.2 p s) := rfl
    have himage : (raiseStray x.1 x.2 p s).image = s.image := by simp
    rw [hstep, ih, himage]
    by_cases hown : x.1.headStation = s.image.station
    · have hraise : raiseStray x.1 x.2 p s = requestAudit x.1.circuit .routine .stray (setLatch x.1.circuit s) :=
        if_pos hown
      have hcircuits : ownStrays s.image.station (x :: l) = x.1.circuit :: ownStrays s.image.station l := by
        simp [ownStrays, hown]
      rw [hraise, strayListed_requestAudit, strayListed_own l hown, hcircuits]
      rfl
    · have hcircuits : ownStrays s.image.station (x :: l) = ownStrays s.image.station l := by
        simp [ownStrays, hown]
      rw [hcircuits]
      refine congrArg _ ?_
      by_cases hroom : s.scanner.strays.length < 8
      · have hraise : raiseStray x.1 x.2 p s = setLatch x.1.circuit (changeScanner (fun y => { y with
            strays := y.strays ++ [⟨x.1.circuit, x.1.headStation, x.2, p⟩] }) s) :=
          (if_neg hown).trans (if_pos hroom)
        rw [hraise, strayListed_other l hown hroom]
      · have hraise : raiseStray x.1 x.2 p s = s := (if_neg hown).trans (if_neg hroom)
        rw [hraise, strayListed_full l hown (Nat.not_lt.1 hroom)]

end Sys2Proof.Machine
end

