-- ==== Sys2Proof/Proofs/DwellStrays.lean ====
section
/-! The two passes of a dwell of idle markings: the strays that it shows and the missing runs that it counts (R27, R39
to R41). -/

namespace Sys2Proof.Machine

variable {s t : State} {r : DwellResult} {c p : Nat} {l : List (HopEntry × StrayKind)} {e : HopEntry} {g : Tag}

/-! ### What the stray checks read -/

/-- The watch list, the monitors, the windows and the image are the same. -/
structure SameChecks (s t : State) : Prop where
  watch : t.scanner.watch = s.scanner.watch
  monitors : t.scanner.monitors = s.scanner.monitors
  windows : t.windows = s.windows
  image : t.image = s.image

theorem straysChecked_of_same (h : SameChecks s t) (p : Nat) : straysChecked t p = straysChecked s p := by
  rw [straysChecked, straysChecked, inOwnWindow, inOwnWindow, State.own, State.own, h.monitors, h.windows, h.image]

theorem showsMisplaced_of_same (h : SameChecks s t) (p : Nat) (e : HopEntry) :
    showsMisplaced t p e = showsMisplaced s p e := by
  rw [showsMisplaced, showsMisplaced, straysChecked_of_same h, findWatch, findWatch, h.watch, h.image]

theorem straysSuspended_eq (s : State) (p : Nat) : straysSuspended s p = !straysChecked s p := by
  rw [straysSuspended, straysChecked, inLoss, Bool.not_and, Bool.not_not]
  rfl

/-! ### Entries under latches -/

theorem findHop_latched {cs : List Nat} (h : c ∉ cs) (hops : List HopEntry) :
    findHop (latched cs hops) c = findHop hops c := by
  have hkey : ((fun x : HopEntry => x.circuit == c) ∘ fun e : HopEntry =>
      { e with latch := e.latch || cs.contains e.circuit }) = fun x => x.circuit == c := rfl
  rw [findHop, latched, List.find?_map, hkey, ← findHop]
  cases hf : findHop hops c with
  | none => rfl
  | some e =>
    have hc : e.circuit = c := by simpa using List.find?_some hf
    have hno : cs.contains e.circuit = false := by simpa [hc] using h
    rw [Option.map_some, hno, Bool.or_false]

/-- The circuits that a row of strays latches. -/
def latchedBy (s : State) (l : List (HopEntry × StrayKind)) : List Nat :=
  ownStrays s.image.station l ++ (listedStrays s.image.station (8 - s.scanner.strays.length) l).map (·.1.circuit)

theorem latchedBy_subset (s : State) (l : List (HopEntry × StrayKind)) : latchedBy s l ⊆ l.map (·.1.circuit) := by
  refine List.append_subset.2 ⟨List.map_subset _ (List.filter_subset_self l), List.map_subset _ ?_⟩
  exact fun x hx => List.filter_subset_self l (List.mem_of_mem_take hx)

theorem raiseStrays_hops (p : Nat) (l : List (HopEntry × StrayKind)) (s : State) :
    (raiseStrays p l s).hops = latched (latchedBy s l) s.hops := by
  have hkept (cs : List Nat) (u : State) : (requestAudits cs .routine .stray u).hops = u.hops := by simp
  rw [raiseStrays_eq, hkept]
  rfl

theorem raiseStrays_scanner (p : Nat) (l : List (HopEntry × StrayKind)) (s : State) :
    (raiseStrays p l s).scanner = (strayListed p l s).scanner := by
  rw [raiseStrays_eq]
  simp

theorem sameChecks_raiseStrays (p : Nat) (l : List (HopEntry × StrayKind)) (s : State) :
    SameChecks s (raiseStrays p l s) := by
  have hrest : (raiseStrays p l s).windows = s.windows ∧ (raiseStrays p l s).image = s.image := by
    rw [raiseStrays_eq]
    simp [strayListed]
  exact ⟨by rw [raiseStrays_scanner]; rfl, by rw [raiseStrays_scanner]; rfl, hrest.1, hrest.2⟩

theorem findHop_raiseStrays (h : c ∉ l.map (·.1.circuit)) :
    findHop (raiseStrays p l s).hops c = findHop s.hops c := by
  rw [raiseStrays_hops]
  exact findHop_latched (fun hc => h (latchedBy_subset s l hc)) _

/-! ### The first pass: misplaced circuits (R39) -/

theorem checkIdle_of_entry (h : findHop s.hops g.circuit = some e) : checkIdle p g s =
    if showsMisplaced s p e then raiseStray e .misplaced p s else s := by
  have hc : e.circuit = g.circuit := by simpa using List.find?_some h
  have hcond : ((findWatch s g.circuit).isNone && !straysSuspended s p && misplacedAt s.image e p && !e.latch) =
      showsMisplaced s p e := by
    rw [straysSuspended_eq, Bool.not_not, showsMisplaced, misplacedAt, hc, bne_comm (a := p)]
    ac_rfl
  rw [checkIdle, h]
  dsimp only
  rw [hcond]

/-- The entries that a list of idle tags shows misplaced. -/
def misplacedIn (s : State) (p : Nat) (tags : List Tag) : List (HopEntry × StrayKind) :=
  ((tags.filterMap fun g => findHop s.hops g.circuit).filter (showsMisplaced s p)).map (·, .misplaced)

theorem circuits_misplacedIn (s : State) (p : Nat) (tags : List Tag) :
    (misplacedIn s p tags).map (·.1.circuit) ⊆ tags.map (·.circuit) := by
  intro c hc
  obtain ⟨x, hx, rfl⟩ := List.mem_map.1 hc
  obtain ⟨e, he, rfl⟩ := List.mem_map.1 hx
  obtain ⟨g, hg, hfind⟩ := List.mem_filterMap.1 (List.mem_of_mem_filter he)
  have hcircuit : e.circuit = g.circuit := by simpa using List.find?_some hfind
  exact hcircuit ▸ List.mem_map_of_mem hg

theorem foldl_classifyTag (p : Nat) (s : State) (tags : List Tag) : ∀ l : List (HopEntry × StrayKind),
    (∀ g ∈ tags, g.epoch = 0 ∧ g.circuit ∉ l.map (·.1.circuit)) → (tags.map (·.circuit)).Nodup →
      tags.foldl (classifyTag p) (raiseStrays p l s) = raiseStrays p (l ++ misplacedIn s p tags) s := by
  induction tags with
  | nil => exact fun l _ _ => by rw [misplacedIn]; simp
  | cons g tags ih =>
    intro l htags hnodup
    obtain ⟨hzero, hfresh⟩ := htags g List.mem_cons_self
    obtain ⟨hnew, hnodup⟩ := List.nodup_cons.1 hnodup
    have hclassify : classifyTag p (raiseStrays p l s) g = checkIdle p g (raiseStrays p l s) := if_pos hzero
    have hkept (h : misplacedIn s p (g :: tags) = misplacedIn s p tags)
        (hcheck : checkIdle p g (raiseStrays p l s) = raiseStrays p l s) :
        (g :: tags).foldl (classifyTag p) (raiseStrays p l s) = raiseStrays p (l ++ misplacedIn s p (g :: tags)) s := by
      rw [List.foldl_cons, hclassify, hcheck, h]
      exact ih l (fun x hx => htags x (List.mem_cons_of_mem _ hx)) hnodup
    have hfind := findHop_raiseStrays (s := s) (p := p) hfresh
    cases hf : findHop s.hops g.circuit with
    | none =>
      refine hkept ?_ ?_
      · rw [misplacedIn, List.filterMap_cons, hf, misplacedIn]
      · rw [checkIdle, hfind, hf]
    | some e =>
      have hentry := checkIdle_of_entry (p := p) (hfind.trans hf)
      rw [showsMisplaced_of_same (sameChecks_raiseStrays p l s)] at hentry
      cases hshow : showsMisplaced s p e with
      | false =>
        refine hkept ?_ ?_
        · rw [misplacedIn, List.filterMap_cons, hf, misplacedIn]
          simp [hshow]
        · rw [hentry, if_neg (by simp [hshow])]
      | true =>
        have hmis : misplacedIn s p (g :: tags) = (e, .misplaced) :: misplacedIn s p tags := by
          rw [misplacedIn, List.filterMap_cons, hf, misplacedIn]
          simp [hshow]
        have hcircuit : e.circuit = g.circuit := by simpa using List.find?_some hf
        have hraise : checkIdle p g (raiseStrays p l s) = raiseStrays p (l ++ [(e, .misplaced)]) s := by
          rw [hentry, if_pos hshow, raiseStrays_append p l [(e, StrayKind.misplaced)]]
          rfl
        rw [List.foldl_cons, hclassify, hraise, hmis, ih (l ++ [(e, StrayKind.misplaced)]) ?_ hnodup, List.append_assoc]
        · rfl
        · intro x hx
          refine ⟨(htags x (List.mem_cons_of_mem _ hx)).1, ?_⟩
          rw [List.map_append, List.mem_append, not_or]
          refine ⟨(htags x (List.mem_cons_of_mem _ hx)).2, ?_⟩
          simpa [hcircuit] using ne_of_mem_of_not_mem (List.mem_map_of_mem hx) hnew

/-! ### The second pass: missing circuits (R40, R41) -/

/-- The entries of some circuits with their missing runs moved on. -/
def missedHops (cs : List Nat) (r : DwellResult) (hops : List HopEntry) : List HopEntry :=
  hops.map fun e => if cs.contains e.circuit then { e with missing := missingAfter r e } else e

def missed (cs : List Nat) (r : DwellResult) (s : State) : State := s.setHops (missedHops cs r s.hops)

/-- A dwell shows an entry MISSING. -/
def showsMissing (r : DwellResult) (e : HopEntry) : Bool := !e.latch && notSeen r e.circuit && decide (2 ≤ e.missing)

/-- Its stray, where it shows one. -/
def missingStray (r : DwellResult) (e : HopEntry) : List (HopEntry × StrayKind) :=
  if showsMissing r e then [(e, .missing)] else []

theorem findHop_missed {cs : List Nat} (h : c ∉ cs) : findHop (missed cs r s).hops c = findHop s.hops c := by
  have hhops : (missed cs r s).hops = missedHops cs r s.hops := rfl
  have hkey : ((fun x : HopEntry => x.circuit == c) ∘ fun e : HopEntry =>
      if cs.contains e.circuit then { e with missing := missingAfter r e } else e) = fun x => x.circuit == c := by
    funext x
    rw [Function.comp_apply]
    split <;> rfl
  rw [findHop, hhops, missedHops, List.find?_map, hkey, ← findHop]
  cases hf : findHop s.hops c with
  | none => rfl
  | some e =>
    have hc : e.circuit = c := by simpa using List.find?_some hf
    exact congrArg some (if_neg (by simpa [hc] using h))

theorem requestAudits_setHops (cs : List Nat) (hops : List HopEntry) : ∀ s : State,
    requestAudits cs .routine .stray (s.setHops hops) = (requestAudits cs .routine .stray s).setHops hops := by
  have hone (c : Nat) (u : State) : requestAudit c .routine .stray (u.setHops hops) =
      (requestAudit c .routine .stray u).setHops hops := by
    have hscanner : (requestAudit c .routine .stray u).scanner = u.scanner := by simp
    have hbeside := requestAudit_beside c .routine .stray hops u.scanner u
    exact hbeside.trans (by rw [← hscanner]; rfl)
  induction cs with
  | nil => exact fun _ => rfl
  | cons c cs ih =>
    intro s
    change requestAudits cs .routine .stray (requestAudit c .routine .stray (s.setHops hops)) =
      (requestAudits cs .routine .stray (requestAudit c .routine .stray s)).setHops hops
    rw [hone, ih]

theorem setMissing_latched (cs : List Nat) (c n : Nat) (hops : List HopEntry) :
    (latched cs hops).map (fun e => if e.circuit = c then { e with missing := n } else e) =
      latched cs (hops.map fun e => if e.circuit = c then { e with missing := n } else e) := by
  rw [latched, latched, List.map_map, List.map_map]
  refine List.map_congr_left fun e _ => ?_
  rw [Function.comp_apply, Function.comp_apply]
  by_cases hc : e.circuit = c
  · rw [if_pos (show HopEntry.circuit { e with latch := _ } = c from hc), if_pos hc]
  · rw [if_neg (show ¬ HopEntry.circuit { e with latch := _ } = c from hc), if_neg hc]

/-- A missing run and the strays raised do not meet. -/
theorem setMissing_raiseStrays (n : Nat) :
    setMissing c n (raiseStrays p l s) = raiseStrays p l (setMissing c n s) := by
  have hhops := raiseStrays_hops p l s
  have hlisted : strayListed p l (setMissing c n s) = (strayListed p l s).setHops (latched (latchedBy s l)
      (s.hops.map fun e => if e.circuit = c then { e with missing := n } else e)) := rfl
  rw [raiseStrays_eq p l (setMissing c n s), hlisted, requestAudits_setHops, ← setMissing_latched, ← hhops]
  change _ = (requestAudits (ownStrays s.image.station l) .routine .stray (strayListed p l s)).setHops _
  rw [← raiseStrays_eq]
  rfl

/-- The entry of a circuit is one. -/
theorem eq_of_findHop (hnd : (s.hops.map (·.circuit)).Nodup) (hf : findHop s.hops c = some e) {x : HopEntry}
    (hx : x ∈ s.hops) (hc : x.circuit = c) : x = e := by
  have he : e.circuit = c := by simpa using List.find?_some hf
  exact List.inj_on_of_nodup_map hnd hx (List.mem_of_find?_eq_some hf) (hc.trans he.symm)

theorem setMissing_missed {cs : List Nat} (hnd : (s.hops.map (·.circuit)).Nodup) (hf : findHop s.hops c = some e)
    (hc : c ∉ cs) : setMissing c (missingAfter r e) (missed cs r s) = missed (cs ++ [c]) r s := by
  refine congrArg (State.setHops s) ?_
  change (missedHops cs r s.hops).map _ = missedHops (cs ++ [c]) r s.hops
  rw [missedHops, missedHops, List.map_map]
  refine List.map_congr_left fun x hx => ?_
  rw [Function.comp_apply]
  by_cases hxc : x.circuit = c
  · obtain rfl := eq_of_findHop hnd hf hx hxc
    have hno : cs.contains x.circuit = false := by simpa [hxc] using hc
    simp only [hno, Bool.false_eq_true, if_false, if_pos hxc]
    rw [if_pos (by simp [hxc])]
  · have hmem : (cs ++ [c]).contains x.circuit = cs.contains x.circuit := by simp [hxc]
    rw [hmem]
    split
    · rfl
    · rfl

/-- A missing run that stays as it is. -/
theorem missed_of_kept {cs : List Nat} (hnd : (s.hops.map (·.circuit)).Nodup) (hf : findHop s.hops c = some e)
    (hkept : missingAfter r e = e.missing) : missed (cs ++ [c]) r s = missed cs r s := by
  refine congrArg (State.setHops s) (List.map_congr_left fun x hx => ?_)
  by_cases hxc : x.circuit = c
  · obtain rfl := eq_of_findHop hnd hf hx hxc
    rw [hkept]
    simp
  · have hmem : (cs ++ [c]).contains x.circuit = cs.contains x.circuit := by simp [hxc]
    rw [hmem]

theorem sameChecks_missed (cs : List Nat) (r : DwellResult) (s : State) : SameChecks s (missed cs r s) :=
  ⟨rfl, rfl, rfl, rfl⟩

theorem SameChecks.trans {u : State} (h : SameChecks s t) (h' : SameChecks t u) : SameChecks s u :=
  ⟨h'.watch.trans h.watch, h'.monitors.trans h.monitors, h'.windows.trans h.windows, h'.image.trans h.image⟩

theorem countMissing_eq (e : HopEntry) (p : Nat) (s : State) : countMissing e p s =
    if 2 ≤ e.missing ∧ e.latch = false then raiseStray e .missing p (setMissing e.circuit (raisedRun e.missing) s)
    else setMissing e.circuit (raisedRun e.missing) s := by
  have hrun : raisedRun e.missing = 3 ↔ 2 ≤ e.missing := by
    rw [raisedRun]
    omega
  simp only [countMissing, hrun, Bool.not_eq_true']

/-- One entry of the second pass. -/
theorem updateMissing_step {cs : List Nat} (hnd : (s.hops.map (·.circuit)).Nodup) (hf : findHop s.hops c = some e)
    (hcheck : straysChecked s r.port = true) (hcs : c ∉ cs) (hl : c ∉ l.map (·.1.circuit)) :
    updateMissing r (raiseStrays r.port l (missed cs r s)) c =
      raiseStrays r.port (l ++ missingStray r e) (missed (cs ++ [c]) r s) := by
  have hc : e.circuit = c := by simpa using List.find?_some hf
  have hfound : findHop (raiseStrays r.port l (missed cs r s)).hops c = some e :=
    (findHop_raiseStrays hl).trans ((findHop_missed hcs).trans hf)
  have hopen : straysSuspended (raiseStrays r.port l (missed cs r s)) r.port = false := by
    rw [straysSuspended_eq, straysChecked_of_same
      ((sameChecks_missed cs r s).trans (sameChecks_raiseStrays r.port l (missed cs r s))), hcheck]
    rfl
  rw [updateMissing, hfound]
  dsimp only
  rw [if_neg (by simp [hopen])]
  have hsplit : raiseStrays r.port (l ++ missingStray r e) (missed (cs ++ [c]) r s) =
      raiseStrays r.port (missingStray r e) (raiseStrays r.port l (missed (cs ++ [c]) r s)) := raiseStrays_append ..
  rw [hsplit]
  cases hseen : r.tags.any (·.circuit == c) with
  | true =>
    have hafter : missingAfter r e = 0 := if_pos (by rw [hc, hseen])
    have hnone : missingStray r e = [] := by
      simp [missingStray, showsMissing, notSeen, hc, hseen]
    rw [if_pos rfl, setMissing_raiseStrays, ← hafter, setMissing_missed hnd hf hcs, hnone]
    rfl
  | false =>
    rw [if_neg (by simp)]
    cases hhidden : maybeHidden r c with
    | true =>
      have hnot : notSeen r e.circuit = false := by
        rw [notSeen, hc, show (r.overflow && r.tags.all (·.circuit < c)) = true from hhidden]
        simp
      have hafter : missingAfter r e = e.missing := by
        rw [missingAfter, hc, hseen, ← hc, hnot]
        rfl
      have hnone : missingStray r e = [] := by simp [missingStray, showsMissing, hnot]
      rw [if_pos rfl, missed_of_kept hnd hf hafter, hnone]
      rfl
    | false =>
      have hsaw : notSeen r e.circuit = true := by
        rw [notSeen, hc, hseen, show (r.overflow && r.tags.all (·.circuit < c)) = false from hhidden]
        rfl
      have hafter : raisedRun e.missing = missingAfter r e := by
        rw [missingAfter, hc, hseen, ← hc, hsaw]
        rfl
      rw [if_neg (by simp), countMissing_eq, hc, hafter, setMissing_raiseStrays, setMissing_missed hnd hf hcs,
        missingStray, showsMissing, hsaw, Bool.and_true]
      by_cases hshow : 2 ≤ e.missing ∧ e.latch = false
      · rw [if_pos hshow, if_pos (by simp [hshow])]
        rfl
      · rw [if_neg hshow, if_neg (by simpa [and_comm] using hshow)]
        rfl

/-- The second pass over the entries of a port. -/
theorem foldl_updateMissing (hnd : (s.hops.map (·.circuit)).Nodup) (hcheck : straysChecked s r.port = true)
    (entries : List HopEntry) : ∀ (cs : List Nat) (l : List (HopEntry × StrayKind)),
    (∀ e ∈ entries, findHop s.hops e.circuit = some e ∧ e.circuit ∉ cs ∧ e.circuit ∉ l.map (·.1.circuit)) →
      (entries.map (·.circuit)).Nodup →
        (entries.map (·.circuit)).foldl (updateMissing r) (raiseStrays r.port l (missed cs r s)) =
          raiseStrays r.port (l ++ entries.flatMap (missingStray r)) (missed (cs ++ entries.map (·.circuit)) r s) := by
  induction entries with
  | nil => exact fun cs l _ _ => by simp
  | cons e entries ih =>
    intro cs l hentries hnodup
    obtain ⟨hf, hcs, hl⟩ := hentries e List.mem_cons_self
    obtain ⟨hnew, hnodup⟩ := List.nodup_cons.1 hnodup
    rw [List.map_cons, List.foldl_cons, updateMissing_step hnd hf hcheck hcs hl, ih _ _ ?_ hnodup, List.flatMap_cons,
      List.append_assoc, List.append_assoc]
    · rfl
    · intro x hx
      obtain ⟨hfx, hcsx, hlx⟩ := hentries x (List.mem_cons_of_mem _ hx)
      have hne : x.circuit ≠ e.circuit := ne_of_mem_of_not_mem (List.mem_map_of_mem hx) hnew
      refine ⟨hfx, by simpa [hcsx] using hne, ?_⟩
      have hstray : x.circuit ∉ (missingStray r e).map (·.1.circuit) := by
        rw [missingStray]
        split
        · simpa using hne
        · simp
      rw [List.map_append, List.mem_append, not_or]
      exact ⟨hlx, hstray⟩

/-! ### A dwell of idle markings (R27) -/

theorem flatMap_missingStray (r : DwellResult) (l : List HopEntry) :
    l.flatMap (missingStray r) = (l.filter (showsMissing r)).map (·, .missing) := by
  induction l with
  | nil => rfl
  | cons e l ih =>
    rw [List.flatMap_cons, ih, List.filter_cons, missingStray]
    split <;> rfl

theorem straysShown_eq (s : State) (r : DwellResult) : straysShown s r = misplacedIn s r.port r.tags ++
    ((s.hops.filter fun e => e.ingress == r.port && straysChecked s r.port && !e.latch && notSeen r e.circuit &&
      decide (2 ≤ e.missing)).map (·, .missing)) := rfl

/-- The entries that enter at the dwell's port, where its checks stand. -/
def enteringHops (s : State) (p : Nat) : List HopEntry :=
  if straysChecked s p then s.hops.filter (·.ingress == p) else []

theorem straysShown_entering (s : State) (r : DwellResult) : straysShown s r = misplacedIn s r.port r.tags ++
    (enteringHops s r.port).flatMap (missingStray r) := by
  rw [straysShown_eq, flatMap_missingStray, enteringHops]
  refine congrArg (misplacedIn s r.port r.tags ++ ·) (congrArg (List.map _) ?_)
  cases hcheck : straysChecked s r.port with
  | false => simp
  | true =>
    rw [if_pos rfl, List.filter_filter]
    refine List.filter_congr fun e _ => ?_
    rw [showsMissing]
    ac_rfl

theorem ingress_misplacedIn {tags : List Tag} {x : HopEntry × StrayKind} (h : x ∈ misplacedIn s p tags) :
    x.1 ∈ s.hops ∧ x.1.ingress ≠ p := by
  obtain ⟨e, he, rfl⟩ := List.mem_map.1 h
  obtain ⟨hin, hshow⟩ := List.mem_filter.1 he
  obtain ⟨g, -, hfind⟩ := List.mem_filterMap.1 hin
  refine ⟨List.mem_of_find?_eq_some hfind, ?_⟩
  simp only [showsMisplaced, Bool.and_eq_true, bne_iff_ne] at hshow
  exact hshow.1.1.2

theorem enteringAt_raiseStrays (p q : Nat) (l : List (HopEntry × StrayKind)) (s : State) :
    enteringAt (raiseStrays p l s) q = (s.hops.filter (·.ingress == q)).map (·.circuit) := by
  rw [enteringAt, raiseStrays_hops, latched, List.filter_map, List.map_map]
  rfl

theorem findHop_of_mem (hnd : (s.hops.map (·.circuit)).Nodup) (he : e ∈ s.hops) : findHop s.hops e.circuit = some e := by
  cases hf : findHop s.hops e.circuit with
  | none => exact absurd (List.find?_eq_none.1 hf e he) (by simp)
  | some x => rw [eq_of_findHop hnd hf he rfl]

theorem missed_nil (r : DwellResult) (s : State) : missed [] r s = s := by
  have hhops : missedHops [] r s.hops = s.hops := (List.map_congr_left fun e _ => by simp).trans (List.map_id _)
  rw [missed, hhops]
  rfl

/-- A dwell of idle markings: the missing runs, then the strays in their order. -/
theorem handleDwell_idle (hnd : (s.hops.map (·.circuit)).Nodup) (hidle : ∀ g ∈ r.tags, g.epoch = 0)
    (htags : (r.tags.map (·.circuit)).Nodup) : handleDwell r s =
      raiseStrays r.port (straysShown s r) (missed ((enteringHops s r.port).map (·.circuit)) r s) := by
  have hfirst : r.tags.foldl (classifyTag r.port) s = raiseStrays r.port (misplacedIn s r.port r.tags) s :=
    foldl_classifyTag r.port s r.tags [] (fun g hg => ⟨hidle g hg, by simp⟩) htags
  have hfold : handleDwell r s = ((s.hops.filter (·.ingress == r.port)).map (·.circuit)).foldl (updateMissing r)
      (raiseStrays r.port (misplacedIn s r.port r.tags) s) := by
    rw [handleDwell, hfirst, enteringAt_raiseStrays]
  rw [hfold, straysShown_entering]
  cases hcheck : straysChecked s r.port with
  | false =>
    have hnone : enteringHops s r.port = [] := by
      rw [enteringHops, hcheck]
      rfl
    rw [hnone, List.flatMap_nil, List.append_nil, List.map_nil, missed_nil]
    have hsuspended : straysSuspended (raiseStrays r.port (misplacedIn s r.port r.tags) s) r.port = true := by
      rw [straysSuspended_eq, straysChecked_of_same (sameChecks_raiseStrays ..), hcheck]
      rfl
    generalize raiseStrays r.port (misplacedIn s r.port r.tags) s = u at hsuspended
    have hid (c : Nat) : updateMissing r u c = u := by
      unfold updateMissing
      split
      · rfl
      · exact if_pos hsuspended
    induction (s.hops.filter (·.ingress == r.port)).map (·.circuit) with
    | nil => rfl
    | cons c cs ih => rw [List.foldl_cons, hid, ih]
  | true =>
    have hall : enteringHops s r.port = s.hops.filter (·.ingress == r.port) := by
      rw [enteringHops, hcheck]
      rfl
    rw [hall]
    have hpass := foldl_updateMissing (r := r) hnd hcheck (s.hops.filter (·.ingress == r.port)) []
      (misplacedIn s r.port r.tags) (fun e he => ?_) (hnd.sublist (List.filter_sublist.map _))
    · rw [missed_nil, List.nil_append] at hpass
      exact hpass
    · obtain ⟨hin, hing⟩ := List.mem_filter.1 he
      refine ⟨findHop_of_mem hnd hin, List.not_mem_nil, fun hmem => ?_⟩
      obtain ⟨x, hx, hxc⟩ := List.mem_map.1 hmem
      obtain ⟨hxin, hxing⟩ := ingress_misplacedIn hx
      have heq : x.1 = e := List.inj_on_of_nodup_map hnd hxin hin hxc
      exact hxing (heq ▸ by simpa using hing)

end Sys2Proof.Machine
end

