-- ==== Sys2Proof/Proofs/Tags.lean ====
section
/-! What a dwell's tags form: strays, missing runs, items of the backlog and pool records (R27, R33 to R36, R39 to R42,
R57). -/

namespace Sys2Proof.Machine

variable {s t : State} {d : Dwell} {r : DwellResult} {g : Tag} {p : Probe} {i : Nat}

/-! ### The strays shown are of different circuits -/

theorem misplacedIn_nodup {q : Nat} {tags : List Tag} (h : (tags.map (·.circuit)).Nodup) :
    ((misplacedIn s q tags).map (·.1.circuit)).Nodup := by
  induction tags with
  | nil => exact List.nodup_nil
  | cons g tags ih =>
    obtain ⟨hnew, h⟩ := List.nodup_cons.1 h
    have hsplit : misplacedIn s q (g :: tags) = misplacedIn s q [g] ++ misplacedIn s q tags := by
      have hone : (g :: tags).filterMap (fun g => findHop s.hops g.circuit) =
          [g].filterMap (fun g => findHop s.hops g.circuit) ++ tags.filterMap fun g => findHop s.hops g.circuit :=
        List.filterMap_append (l := [g]) (l' := tags)
      rw [misplacedIn, hone, List.filter_append, List.map_append]
      rfl
    rw [hsplit, List.map_append]
    refine List.nodup_append.2 ⟨?_, ih h, fun a ha b hb hab => ?_⟩
    · rw [misplacedIn]
      cases hf : findHop s.hops g.circuit with
      | none => simp [hf]
      | some e =>
        rw [List.filterMap_cons, hf]
        dsimp only
        rw [List.filterMap_nil, List.filter_singleton]
        cases showsMisplaced s q e <;> simp
    · have hag : a = g.circuit := by simpa using circuits_misplacedIn s q [g] ha
      have hb' := circuits_misplacedIn s q tags hb
      rw [← hab, hag] at hb'
      exact hnew hb'

theorem straysShown_nodup (hnd : (s.hops.map (·.circuit)).Nodup) (htags : (r.tags.map (·.circuit)).Nodup) :
    ((straysShown s r).map (·.1.circuit)).Nodup := by
  rw [straysShown_eq, List.map_append, List.map_map]
  refine List.nodup_append.2 ⟨misplacedIn_nodup htags, hnd.sublist (List.filter_sublist.map _), fun a ha b hb hab => ?_⟩
  obtain ⟨x, hx, rfl⟩ := List.mem_map.1 ha
  obtain ⟨hxin, hxing⟩ := ingress_misplacedIn hx
  obtain ⟨e, he, rfl⟩ := List.mem_map.1 hb
  obtain ⟨hein, hcond⟩ := List.mem_filter.1 he
  have heq : x.1 = e := List.inj_on_of_nodup_map hnd hxin hein hab
  simp only [Bool.and_eq_true, beq_iff_eq] at hcond
  exact hxing (heq ▸ hcond.1.1.1.1)

theorem straysOwn_nodup (hnd : (s.hops.map (·.circuit)).Nodup) (htags : (r.tags.map (·.circuit)).Nodup) :
    (straysOwn s r).Nodup :=
  (straysShown_nodup hnd htags).sublist (List.filter_sublist.map _)

theorem circuits_nodup_of_idle {found : List Tag} (hidle : ∀ g ∈ found, g.epoch = 0) (hr : r = dwellResult d.port found) :
    (∀ g ∈ r.tags, g.epoch = 0) ∧ (r.tags.map (·.circuit)).Nodup := by
  obtain ⟨-, hordered, hmem, -⟩ := dwellResult_spec d.port found hr
  have hzero (g : Tag) (hg : g ∈ r.tags) : g.epoch = 0 := hidle g (hmem g hg).1
  refine ⟨hzero, List.pairwise_map.2 (hordered.imp_of_mem fun {x y} hx hy hxy heq => ?_)⟩
  obtain hlt | ⟨-, hlt⟩ := hxy
  · exact absurd heq (Nat.ne_of_lt hlt)
  · rw [hzero x hx, hzero y hy] at hlt
    exact absurd hlt (Nat.lt_irrefl 0)

/-! ### A dwell of idle markings -/

/-- The state after a dwell of idle markings, before its answer. -/
theorem handleDwell_strays {found : List Tag} (hnd : (s.hops.map (·.circuit)).Nodup) (horder : (pathOrder s).Nodup)
    (hidle : ∀ g ∈ found, g.epoch = 0) (hr : r = dwellResult d.port found) :
    handleDwell r s = strayAudited (straysOwn s r)
      (strayListed r.port (straysShown s r) (missed ((enteringHops s r.port).map (·.circuit)) r s)) := by
  obtain ⟨hzero, htags⟩ := circuits_nodup_of_idle hidle hr
  rw [handleDwell_idle hnd hzero htags, raiseStrays_eq]
  exact requestAudits_stray horder (straysOwn_nodup hnd htags)

theorem contains_entering (hnd : (s.hops.map (·.circuit)).Nodup) {e : HopEntry} (he : e ∈ s.hops) (q : Nat) :
    ((enteringHops s q).map (·.circuit)).contains e.circuit = true ↔ e.ingress = q ∧ straysChecked s q = true := by
  rw [List.contains_iff_mem, enteringHops]
  cases straysChecked s q with
  | false => simp
  | true =>
    rw [if_pos rfl]
    constructor
    · intro h
      obtain ⟨x, hx, hxc⟩ := List.mem_map.1 h
      obtain ⟨hxin, hxing⟩ := List.mem_filter.1 hx
      have heq : x = e := List.inj_on_of_nodup_map hnd hxin he hxc
      exact ⟨heq ▸ by simpa using hxing, rfl⟩
    · rintro ⟨hing, -⟩
      exact List.mem_map_of_mem (List.mem_filter.2 ⟨he, by simpa using hing⟩)

/-- The entries after a dwell of idle markings: their missing runs and their latches. -/
theorem hops_of_idle (hnd : (s.hops.map (·.circuit)).Nodup) :
    latched (straysOwn s r ++ (straysListed s r).map (·.1.circuit))
        (missedHops ((enteringHops s r.port).map (·.circuit)) r s.hops) =
      s.hops.map fun e => { e with
        missing := if e.ingress = r.port ∧ straysChecked s r.port = true then missingAfter r e else e.missing
        latch := e.latch || (straysOwn s r).contains e.circuit ||
          (straysListed s r).any fun x => x.1.circuit == e.circuit } := by
  rw [latched, missedHops, List.map_map]
  refine List.map_congr_left fun e he => ?_
  have hcontains (c : Nat) : (straysOwn s r ++ (straysListed s r).map (·.1.circuit)).contains c =
      ((straysOwn s r).contains c || (straysListed s r).any fun x => x.1.circuit == c) := by
    rw [List.contains_append, List.contains_map]
    refine congrArg _ (congrArg (List.any _) (funext fun x => ?_))
    exact Bool.beq_comm
  have hentering := contains_entering hnd he r.port
  rw [Function.comp_apply]
  by_cases hin : e.ingress = r.port ∧ straysChecked s r.port = true
  · rw [if_pos (hentering.2 hin), if_pos hin]
    dsimp only
    rw [hcontains, Bool.or_assoc]
  · rw [if_neg (mt hentering.1 hin), if_neg hin, hcontains, Bool.or_assoc]

/-! ### A dwell of one tag -/

theorem dwellResult_single (port : Nat) (h : g.circuit ≠ 0) : dwellResult port [g] = ⟨port, [g], false⟩ := by
  simp [dwellResult, orderedTags, insertTag, h, Config.tagCapacity]

/-- What the missing runs leave of the scanner and of the records' verdicts. -/
def tagView (s : State) : List WatchEntry × List Item × List (Option VerdictRecord) :=
  (s.scanner.watch, s.scanner.backlog, s.paths.map (·.lastVerdict))

theorem tagView_updateMissing (r : DwellResult) (s : State) (c : Nat) : tagView (updateMissing r s c) = tagView s := by
  have haudit (k : Nat) (m : Mode) (o : Origin) (u : State) : tagView (requestAudit k m o u) = tagView u := by
    have hscanner : (requestAudit k m o u).scanner = u.scanner := by simp
    have hpaths : (requestAudit k m o u).paths.map (·.lastVerdict) = u.paths.map (·.lastVerdict) := by
      unfold requestAudit
      split
      · rfl
      split
      · rw [enqueue_paths, modifyPath]
        simp only [State.setPaths_fields, List.map_map]
        refine List.map_congr_left fun x _ => ?_
        rw [Function.comp_apply]
        split <;> rfl
      · rfl
    rw [tagView, hscanner, hpaths]
    rfl
  have hraise (e : HopEntry) (k : StrayKind) (q : Nat) (u : State) : tagView (raiseStray e k q u) = tagView u := by
    unfold raiseStray
    split
    · exact haudit _ _ _ (setLatch _ u)
    · split <;> rfl
  have hcount (e : HopEntry) : tagView (countMissing e r.port s) = tagView s := by
    rw [countMissing_eq]
    split
    · exact hraise _ _ _ (setMissing _ _ s)
    · rfl
  unfold updateMissing
  repeat' split
  exacts [rfl, rfl, rfl, rfl, hcount _]

/-- The missing runs after one tag: what they leave as the tag left it. -/
structure TagHandled (u t : State) : Prop where
  watch : t.scanner.watch = u.scanner.watch
  backlog : t.scanner.backlog = u.scanner.backlog
  verdicts : t.paths.map (·.lastVerdict) = u.paths.map (·.lastVerdict)
  probes : t.probes = u.probes
  windows : t.windows = u.windows
  lines : t.lines = u.lines
  loop : t.loop = u.loop
  ctl : t.ctl = u.ctl

theorem tagHandled_handleDwell (port : Nat) (g : Tag) (s : State) :
    TagHandled (classifyTag port s g) (handleDwell ⟨port, [g], false⟩ s) := by
  have hfold : handleDwell ⟨port, [g], false⟩ s =
      (enteringAt (classifyTag port s g) port).foldl (updateMissing ⟨port, [g], false⟩) (classifyTag port s g) := rfl
  rw [hfold]
  have hview := foldl_keeps (updateMissing ⟨port, [g], false⟩) (enteringAt (classifyTag port s g) port)
    (classifyTag port s g) tagView (tagView_updateMissing _)
  simp only [tagView, Prod.mk.injEq] at hview
  obtain ⟨hwatch, hbacklog, hverdicts⟩ := hview
  exact ⟨hwatch, hbacklog, hverdicts, by simp, by simp, by simp, by simp, by simp⟩

/-- The next dwell touches no list of the scanner. -/
theorem beginDwell_lists (s : State) : (beginDwell s).scanner.watch = s.scanner.watch ∧
    (beginDwell s).scanner.backlog = s.scanner.backlog ∧ (beginDwell s).scanner.strays = s.scanner.strays ∧
    (beginDwell s).scanner.alarms = s.scanner.alarms := by
  unfold beginDwell startDwell changeScanner
  repeat' split
  all_goals exact ⟨rfl, rfl, rfl, rfl⟩

/-- A dwell of one tag ends: what stands is what its classification left. -/
theorem exec_dwellEnd_single (hd : s.scanner.dwell = some d) (hg : g.circuit ≠ 0) :
    ∃ t, exec (.dwellEnd [g]) s = .next t ∧
      TagHandled (classifyTag d.port (atDwellEnd d s) g) (t.setCtl (classifyTag d.port (atDwellEnd d s) g).ctl) ∧
      t.ctl.queue = (classifyTag d.port (atDwellEnd d s) g).ctl.queue ∧
      t.ctl.faults = (classifyTag d.port (atDwellEnd d s) g).ctl.faults ∧
      t.ctl.alerts = (classifyTag d.port (atDwellEnd d s) g).ctl.alerts := by
  refine ⟨_, exec_dwellEnd [g] hd, ?_⟩
  have hhandled := tagHandled_handleDwell d.port g (atDwellEnd d s)
  rw [dwellHandled, dwellResult_single d.port hg]
  generalize handleDwell ⟨d.port, [g], false⟩ (atDwellEnd d s) = h at hhandled
  have hanswer : (answerDwell d ⟨d.port, [g], false⟩ h).ctl.queue = h.ctl.queue ∧
      (answerDwell d ⟨d.port, [g], false⟩ h).ctl.faults = h.ctl.faults ∧
      (answerDwell d ⟨d.port, [g], false⟩ h).ctl.alerts = h.ctl.alerts := by
    unfold answerDwell
    split <;> exact ⟨rfl, rfl, rfl⟩
  have hctl : (beginDwell (answerDwell d ⟨d.port, [g], false⟩ h)).ctl = (answerDwell d ⟨d.port, [g], false⟩ h).ctl := by simp
  obtain ⟨hwatch, hbacklog, -⟩ := beginDwell_lists (answerDwell d ⟨d.port, [g], false⟩ h)
  refine ⟨⟨?_, ?_, ?_, ?_, ?_, ?_, ?_, rfl⟩, ?_, ?_, ?_⟩
  · exact hwatch.trans ((by simp : _ = h.scanner.watch).trans hhandled.watch)
  · exact hbacklog.trans ((by simp : _ = h.scanner.backlog).trans hhandled.backlog)
  · simpa using hhandled.verdicts
  · simpa using hhandled.probes
  · simpa using hhandled.windows
  · simpa using hhandled.lines
  · simpa using hhandled.loop
  · rw [hctl, hanswer.1, hhandled.ctl]
  · rw [hctl, hanswer.2.1, hhandled.ctl]
  · rw [hctl, hanswer.2.2, hhandled.ctl]

/-! ### A probe epoch (R34 to R36) -/

theorem classifyTag_watched (hg : g.epoch ≠ 0) (hnone : drivingSlot s g.circuit g.epoch = none) (port : Nat) :
    classifyTag port s g = watchTag port g s := by
  rw [classifyTag, if_neg hg, classifyProbe, hnone]
  rfl

theorem classifyTag_driven (hg : g.epoch ≠ 0) (hi : drivingSlot s g.circuit g.epoch = some i)
    (hp : probeAt s i = some p) (port : Nat) :
    classifyTag port s g = intake i p (formItem s p.mode port g).record s := by
  rw [classifyTag, if_neg hg, classifyProbe, hi, Option.bind_some, hp]
  exact offerItem_of_slot (x := formItem s p.mode port g) hi hp

theorem watchTag_of_match {w : WatchEntry} {port : Nat} (hw : findWatch s g.circuit = some w) (he : w.epoch = g.epoch)
    (hport : portIn w.reported port = false) (hroom : s.scanner.backlog.length < 32) : watchTag port g s =
      s.setScanner { s.scanner with
        backlog := s.scanner.backlog ++ [formItem s w.mode port g]
        watch := putWatch s.scanner.watch { w with reported := addPort w.reported port } } := by
  rw [watchTag, hw]
  dsimp only
  rw [if_pos ⟨he, by simp [hport]⟩, backlogItem, if_pos (show s.scanner.backlog.length < Config.backlogCapacity from hroom)]
  rfl

theorem watchTag_of_none {port : Nat} (h : 32 ≤ s.scanner.backlog.length ∨ (findWatch s g.circuit).all (fun w =>
    w.epoch != g.epoch || portIn w.reported port) = true) : watchTag port g s = s := by
  unfold watchTag
  split
  · rfl
  rename_i w hw
  split
  · rename_i hmatch
    obtain hfull | hno := h
    · exact if_neg (Nat.not_lt.2 hfull)
    · rw [hw] at hno
      simp [hmatch.1] at hno
      simp [hno] at hmatch
  · rfl

theorem itemKind_eq (m : Mode) (c q : Nat) (s : State) :
    (m = .census → itemKind s m c q = .census) ∧
    (m ≠ .census → findHop s.hops c = none → itemKind s m c q = .untracked) ∧
    (m ≠ .census → ∀ e, findHop s.hops c = some e →
      (q = e.ingress ∨ e.egress = some q ∨ (e.role = .head ∧ e.egress = none ∧
          (s.image.classAt q = .lineOut ∨ s.image.classAt q = .drop)) → itemKind s m c q = .expected) ∧
      (¬ (q = e.ingress ∨ e.egress = some q ∨ (e.role = .head ∧ e.egress = none ∧
          (s.image.classAt q = .lineOut ∨ s.image.classAt q = .drop))) → itemKind s m c q = .unexpected)) := by
  refine ⟨fun hm => if_pos hm, fun hm hnone => ?_, fun hm e he => ?_⟩
  · rw [itemKind, if_neg hm, hnone]
  · have hkind : itemKind s m c q = if misplacedAt s.image e q then .unexpected else .expected := by
      rw [itemKind, if_neg hm, he]
    have hplace : misplacedAt s.image e q = true ↔ ¬ (q = e.ingress ∨ e.egress = some q ∨
        (e.role = .head ∧ e.egress = none ∧ (s.image.classAt q = .lineOut ∨ s.image.classAt q = .drop))) := by
      simp only [misplacedAt, PortClass.isOut, Bool.and_eq_true, bne_iff_ne, Bool.not_eq_true', ne_eq, not_or,
        Bool.and_eq_false_iff, Bool.or_eq_false_iff, beq_eq_false_iff_ne, Option.isNone_eq_false_iff,
        Option.isSome_iff_ne_none, not_and]
      tauto
    rw [hkind]
    exact ⟨fun h => if_neg (mt hplace.1 (not_not.2 h)), fun h => if_pos (hplace.2 h)⟩

/-! ### The obligation -/

/-- A dwell of idle markings, with what it leaves unchanged. -/
theorem exec_dwellEnd_idle {found : List Tag} (hd : s.scanner.dwell = some d) (htable : CircuitTableOk s)
    (horder : (pathOrder s).Nodup) (hidle : ∀ g ∈ found, g.epoch = 0) (hr : r = dwellResult d.port found) :
    ∃ t, exec (.dwellEnd found) s = .next t ∧
      t.hops = (s.hops.map fun e => { e with
        missing := if e.ingress = d.port ∧ straysChecked s d.port = true then missingAfter r e else e.missing
        latch := e.latch || (straysOwn (atDwellEnd d s) r).contains e.circuit ||
          (straysListed (atDwellEnd d s) r).any fun x => x.1.circuit == e.circuit }) ∧
      t.scanner.strays = s.scanner.strays ++ ((straysListed (atDwellEnd d s) r).map fun x =>
        ⟨x.1.circuit, x.1.headStation, x.2, d.port⟩) ∧
      t.paths = s.paths.map (strayQueued (straysOwn (atDwellEnd d s) r)) ∧
      t.sched = { s.sched with
        census := s.sched.census ++ (straysOwn (atDwellEnd d s) r).filter (strayTaken false s)
        routine := s.sched.routine ++ (straysOwn (atDwellEnd d s) r).filter (strayTaken true s) } ∧
      t.scanner.backlog = s.scanner.backlog ∧ t.scanner.watch = (atDwellEnd d s).scanner.watch ∧
      t.scanner.alarms = s.scanner.alarms ∧ t.scanner.monitors = s.scanner.monitors ∧
      t.probes = s.probes ∧ t.windows = s.windows ∧ t.loop = s.loop ∧ t.roster = s.roster ∧
      t.lines = s.lines ∧ t.ctl.queue = s.ctl.queue := by
  have hnd : (s.hops.map (·.circuit)).Nodup := htable.1.imp (fun h => Nat.ne_of_lt h)
  have hport : r.port = d.port := (dwellResult_spec d.port found hr).1
  have hstrays := handleDwell_strays (s := atDwellEnd d s) hnd horder hidle hr
  have hhops := hops_of_idle (s := atDwellEnd d s) (r := r) hnd
  rw [hport] at hhops hstrays
  refine ⟨_, exec_dwellEnd found hd, ?_⟩
  rw [dwellHandled, ← hr, hstrays]
  have hlists := beginDwell_lists (answerDwell d r (strayAudited (straysOwn (atDwellEnd d s) r) (strayListed d.port
    (straysShown (atDwellEnd d s) r) (missed ((enteringHops (atDwellEnd d s) d.port).map (·.circuit)) r (atDwellEnd d s)))))
  have hmonitors := beginDwell_monitors (answerDwell d r (strayAudited (straysOwn (atDwellEnd d s) r) (strayListed d.port
    (straysShown (atDwellEnd d s) r) (missed ((enteringHops (atDwellEnd d s) d.port).map (·.circuit)) r (atDwellEnd d s)))))
  obtain ⟨hwatch, hbacklog, hstray, halarms⟩ := hlists
  have hqueue (u : State) : (answerDwell d r u).ctl.queue = u.ctl.queue := by
    unfold answerDwell
    split <;> rfl
  refine ⟨Eq.trans ?_ hhops, hstray.trans ?_, ?_, ?_, hbacklog.trans ?_, hwatch.trans ?_, halarms.trans ?_,
    hmonitors.trans ?_, ?_, ?_, ?_, ?_, ?_, ?_⟩
  all_goals simp only [beginDwell_frame, answerDwell_frame, hqueue]
  all_goals rfl

/-- Settles O59: a dwell of idle markings; one tag of a probe epoch by its watch entry or its slot; the kinds. -/
theorem tagsFormItemsAndStrays : Obligations.TagsFormItemsAndStrays := by
  refine ⟨fun found d r s hd htable _ horder hidle hr => ?_, fun g d s hd hg w hw hepoch hnone hcircuit he hport hroom hlt => ?_,
    fun g d s hd hg hepoch hnone hno => ?_,
    fun g d i p x chain early s hd hg hepoch hi hp hx hchain hearly => ?_, itemKind_eq⟩
  · obtain ⟨t, hexec, hhops, hstrays, hpaths, hsched, hrest⟩ := exec_dwellEnd_idle hd htable horder hidle hr
    refine ⟨t, hexec, hhops, hstrays, hpaths, ?_, hrest⟩
    have hfalse : strayTaken false s = fun c => (findPath s c).any fun x => x.state == .idle && x.baseline.isNone := by
      funext c
      simp [strayTaken]
    have htrue : strayTaken true s = fun c => (findPath s c).any fun x => x.state == .idle && x.baseline.isSome := by
      funext c
      simp [strayTaken]
    rw [hsched, hfalse, htrue]
  · obtain ⟨t, hexec, hhandled, -⟩ := exec_dwellEnd_single hd hg
    rw [classifyTag_watched (s := atDwellEnd d s) hepoch hnone, watchTag_of_match (s := atDwellEnd d s) hw he hport hroom]
      at hhandled
    refine ⟨t, hexec, hhandled.backlog, { w with reported := addPort w.reported d.port }, ?_, ?_⟩
    · have hwatch : t.scanner.watch = putWatch _ { w with reported := addPort w.reported d.port } := hhandled.watch
      rw [findWatch, hwatch, find_putWatch, if_pos hcircuit.symm]
    · rw [portIn_addPort]
      simp [hlt]
  · obtain ⟨t, hexec, hhandled, -⟩ := exec_dwellEnd_single hd hg
    rw [classifyTag_watched (s := atDwellEnd d s) hepoch hnone, watchTag_of_none (s := atDwellEnd d s) hno] at hhandled
    exact ⟨t, hexec, hhandled.backlog, hhandled.watch, hhandled.probes⟩
  · obtain ⟨t, hexec, hhandled, hqueue, hfaults, halerts⟩ := exec_dwellEnd_single hd hg
    have hform : (formItem (atDwellEnd d s) p.mode d.port g).record = x := hx.symm
    rw [classifyTag_driven (s := atDwellEnd d s) hepoch hi hp, hform] at hhandled hqueue hfaults halerts
    have hscanner : (intake i p x (atDwellEnd d s)).scanner = (atDwellEnd d s).scanner := by simp
    have hloop : (intake i p x (atDwellEnd d s)).loop = s.loop := (by simp : _ = (atDwellEnd d s).loop)
    refine ⟨t, hexec, hhandled.backlog.trans (congrArg (·.backlog) hscanner),
      hhandled.watch.trans (congrArg (·.watch) hscanner), hhandled.loop.trans hloop, fun hrepeat => ?_,
      fun hnew hfull => ?_, fun hnew hroom => ?_⟩
    · rw [intake_of_repeat hrepeat] at hhandled
      exact hhandled.probes
    · rw [intake_of_full (s := atDwellEnd d s) hp hnew hfull] at hhandled hfaults halerts
      refine ⟨hhandled.probes, ?_, ?_⟩
      · rw [ControlPort.faultSet, hfaults, ← ControlPort.faultSet, faultSet_setFault]
        simp
      · rw [ControlPort.alertSet, halerts, ← ControlPort.alertSet, alertSet_setFault]
        simp
    · have htest : early = completesEarly (atDwellEnd d s).image.station { p with pool := p.pool ++ [x] }
          ((findPath (atDwellEnd d s) p.circuit).bind (·.baseline)) := by
        rw [completesEarly_eq, hearly, hchain]
        rfl
      rw [intake_of_room (s := atDwellEnd d s) hp hnew hroom, ← htest] at hhandled hqueue
      refine ⟨fun hno => ?_, fun hyes => ?_⟩
      · rw [if_neg (by simp [hno])] at hhandled
        exact hhandled.probes
      · obtain ⟨r, hr⟩ := findPath_of_completesEarly (s := atDwellEnd d s) (htest.symm.trans hyes)
        have hdriving : p.phase = .driving := phase_of_drivingSlot hi hp
        have hnow := exec_deadline_now (s := s.setNow (max s.now d.ends)) (q := { p with pool := p.pool ++ [x] }) hp
          hdriving hr
        have hscan : putSlot i (some { p with pool := p.pool ++ [x] }) (atDwellEnd d s) =
            (putSlot i (some { p with pool := p.pool ++ [x] }) (s.setNow (max s.now d.ends))).setScanner
              (atDwellEnd d s).scanner := rfl
        rw [if_pos hyes, hscan, evaluate_setScanner] at hhandled hqueue
        exact ⟨_, hnow, hhandled.probes, hhandled.lines, hhandled.windows, hqueue, hhandled.verdicts⟩

end Sys2Proof.Machine
end

