-- ==== Sys2Proof/Proofs/TableLosses.lean ====
section
/-! Stations that leave the tally tables of this station's windows (R109), and the summaries this brings (R110). -/

namespace Sys2Proof.Machine

variable {s : State} {ser : Serial} {w : Window} {own x : Nat} {lost : Nat → Bool}

/-! ### One table -/

/-- A window of this station whose table can lose stations. -/
def Window.loses (own : Nat) (w : Window) : Prop :=
  w.serial.opener = own ∧ (w.state = .closing ∨ w.state = .collecting)

theorem losing_of_table {l : List TallyEntry} (h : (w.losing own lost).table = l) :
    w.losing own lost = { w with table := l } := by
  subst h
  rfl

theorem losing_of_not_loses (h : ¬ w.loses own) : w.losing own lost = w := by
  have hentry (k : Nat) (e : TallyEntry) : (if w.serial.opener = own ∧ (w.state = .closing ∨ w.state = .collecting) ∧
      e = .awaited ∧ lost (k + 1) = true then TallyEntry.missing else e) = e :=
    if_neg fun hboth => h ⟨hboth.1, hboth.2.1⟩
  have htable : (w.losing own lost).table = w.table := by
    simp only [Window.losing, hentry]
    exact List.mapIdx_eq_iff.2 fun i => by simp
  exact losing_of_table htable

theorem losing_table (h : w.loses own) : (w.losing own lost).table =
    w.table.mapIdx fun k e => if e = .awaited ∧ lost (k + 1) = true then .missing else e := by
  obtain ⟨hown, hstate⟩ := h
  simp only [Window.losing, hown, hstate, true_and]

theorem losing_eq_iff : w.losing own lost = w ↔ (w.losing own lost).table = w.table :=
  ⟨congrArg Window.table, losing_of_table⟩

/-- The entries of the table after stations were lost. -/
theorem tableAt_losing (h : w.loses own) {n : Nat} (hn : 1 ≤ n) : (w.losing own lost).tableAt n =
    if w.tableAt n = .awaited ∧ lost n = true then .missing else w.tableAt n := by
  obtain ⟨k, rfl⟩ : ∃ k, n = k + 1 := ⟨n - 1, by omega⟩
  simp only [Window.tableAt, if_pos hn, losing_table h, Nat.add_sub_cancel, List.getD_eq_getElem?_getD,
    List.getElem?_mapIdx]
  cases w.table[k]? <;> simp

/-- A table changes where it loses an awaited station. -/
theorem losing_eq_of_tableAt (h : ∀ n, 1 ≤ n → w.tableAt n = .awaited → lost n = false) : w.losing own lost = w := by
  by_cases hloses : w.loses own
  · rw [losing_eq_iff, losing_table hloses]
    refine List.mapIdx_eq_iff.2 fun k => ?_
    have hk := h (k + 1) (by omega)
    simp only [Window.tableAt, if_pos (show 1 ≤ k + 1 by omega), Nat.add_sub_cancel, List.getD_eq_getElem?_getD] at hk
    cases hentry : w.table[k]? with
    | none => rfl
    | some e =>
      rw [hentry] at hk
      by_cases hawaited : e = .awaited
      · simp [hawaited, hk hawaited]
      · simp [hawaited]
  · exact losing_of_not_loses hloses

/-- One station lost where it is awaited. -/
theorem losing_of_awaited (h : w.loses own) (hx : w.tableAt x = .awaited) :
    w.losing own (· == x) = w.setTable x .missing := by
  have hpos : 1 ≤ x := by
    by_contra hzero
    rw [Window.tableAt, if_neg hzero] at hx
    cases hx
  rw [Window.tableAt, if_pos hpos, List.getD_eq_getElem?_getD] at hx
  have htable : (w.losing own (· == x)).table = w.table.set (x - 1) .missing := by
    rw [losing_table h]
    refine List.ext_getElem? fun k => ?_
    rw [List.getElem?_mapIdx, List.getElem?_set]
    by_cases hk : x - 1 = k
    · subst hk
      have hlt : x - 1 < w.table.length := by
        by_contra hge
        rw [List.getElem?_eq_none (by omega)] at hx
        cases hx
      have hxs : x - 1 + 1 = x := by omega
      rw [List.getElem?_eq_getElem hlt] at hx ⊢
      simp only [Option.getD_some] at hx
      simp [hx, hxs, hlt]
    · have hne : k + 1 ≠ x := by omega
      simp [hk, hne]
  rw [Window.setTable, if_pos hpos, losing_of_table htable]

theorem losing_of_not_awaited (hx : w.tableAt x ≠ .awaited) : w.losing own (· == x) = w :=
  losing_eq_of_tableAt fun _ _ hn => beq_false_of_ne fun heq => hx (heq ▸ hn)

theorem losing_serial : (w.losing own lost).serial = w.serial := rfl

theorem losing_loses : (w.losing own lost).loses own ↔ w.loses own := Iff.rfl

/-! ### The summary that a loss brings -/

theorem lostLast_iff : w.lostLast own lost = true ↔ w.serial.opener = own ∧ w.state = .collecting ∧
    w.losing own lost ≠ w ∧ (w.losing own lost).noneAwaited = true := by
  simp only [Window.lostLast, Bool.and_eq_true, beq_iff_eq, bne_iff_ne, Window.noneAwaited, and_assoc]

theorem lostLast_of_same (h : w.losing own lost = w) : w.lostLast own lost = false := by
  rw [Bool.eq_false_iff]
  intro hlast
  exact (lostLast_iff.1 hlast).2.2.1 h

/-- A window after stations were lost, unless its summary takes it from the list. -/
def Window.lossStep (own : Nat) (lost : Nat → Bool) (w : Window) : Option Window :=
  if w.lostLast own lost then none else some (w.losing own lost)

theorem windowsLosing_eq (l : List Window) : windowsLosing own lost l = l.filterMap (·.lossStep own lost) := by
  rw [windowsLosing, ← List.filterMap_eq_filter, ← List.filterMap_eq_map, List.filterMap_filterMap]
  refine List.filterMap_congr fun w _ => ?_
  cases hlast : w.lostLast own lost <;> simp [Window.lossStep, Option.guard, hlast]

/-! ### R109 in one window -/

theorem missingInTable_of_unlisted (h : findWindow s ser = none) : missingInTable x s ser = s := by
  simp only [missingInTable, h]

theorem missingInTable_of_listed (hnodup : (s.windows.list.map (·.serial)).Nodup) (hw : findWindow s ser = some w)
    (hown : ser.opener = own) : missingInTable x s ser =
      if w.lostLast own (· == x) then
        (postReport (.windowSummary (w.losing own (· == x)).summary) s).setWindows { s.windows with
          list := s.windows.list.filter (·.serial != ser) }
      else s.setWindows { s.windows with list := rewritten ser (fun _ => w.losing own (· == x)) s } := by
  have hser := serial_of_findWindow hw
  have hopener : w.serial.opener = own := by rw [hser, hown]
  by_cases hdue : w.collects = true ∧ w.tableAt x = .awaited
  · obtain ⟨hcollects, hx⟩ := hdue
    have hloses : w.loses own := ⟨hopener, (collects_iff w).1 hcollects⟩
    have hset := losing_of_awaited hloses hx
    have hfound : findWindow (modifyWindow ser (·.setTable x .missing) s) ser = some (w.losing own (· == x)) := by
      rw [findWindow_modifyWindow ser ser _ (fun v => serial_setTable v _ _), hw, Option.map_some, if_pos rfl, hset]
    have hlist : modifyWindow ser (·.setTable x .missing) s = s.setWindows { s.windows with
        list := rewritten ser (fun _ => w.losing own (· == x)) s } := by
      rw [hset, ← rewritten_of_listed (f := (·.setTable x .missing)) hnodup hw]
      rfl
    have hmoved : w.losing own (· == x) ≠ w := by
      intro hsame
      have hentry := tableAt_losing (lost := (· == x)) hloses (n := x) (by
        by_contra hzero
        rw [Window.tableAt, if_neg hzero] at hx
        cases hx)
      rw [hsame, hx] at hentry
      simp at hentry
    have hlast : w.lostLast own (· == x) = true ↔
        (w.losing own (· == x)).state = .collecting ∧ (w.losing own (· == x)).noneAwaited = true := by
      rw [lostLast_iff]
      exact ⟨fun ⟨_, hstate, _, hnone⟩ => ⟨hstate, hnone⟩, fun ⟨hstate, hnone⟩ => ⟨hopener, hstate, hmoved, hnone⟩⟩
    have hstep : missingInTable x s ser = summaryTest ser (modifyWindow ser (·.setTable x .missing) s) := by
      simp only [missingInTable, hw, if_pos (And.intro hcollects hx)]
    rw [hstep]
    rw [hlist] at hfound ⊢
    split
    · rename_i h
      rw [summaryTest_of_due hfound (hlast.1 h), postReport_setWindows, dropWindow]
      exact congrArg (fun l => State.setWindows _ { s.windows with list := l })
        ((congrArg _ (rewritten_of_listed (f := (·.losing own (· == x))) hnodup hw).symm).trans
          (filter_rewritten ser (·.losing own (· == x)) (fun _ => rfl) s))
    · rename_i h
      exact summaryTest_of_not_due hfound (mt hlast.2 h)
  · have hsame : w.losing own (· == x) = w := by
      by_cases hcollects : w.collects = true
      · exact losing_of_not_awaited fun hx => hdue ⟨hcollects, hx⟩
      · exact losing_of_not_loses fun h => hcollects ((collects_iff w).2 h.2)
    have hlist : rewritten ser (fun _ => w) s = s.windows.list := by
      rw [← rewritten_of_listed (f := fun v => v) hnodup hw, rewritten]
      simp
    have hstep : missingInTable x s ser = s := by
      simp only [missingInTable, hw, if_neg hdue]
    rw [hstep, lostLast_of_same hsame, hsame, hlist]
    rfl

/-! ### R109 in every window -/

/-- The losses of the windows of some serials. -/
def lossStepIn (own : Nat) (lost : Nat → Bool) (sers : List Serial) (w : Window) : Option Window :=
  if w.serial ∈ sers then w.lossStep own lost else some w

theorem serial_of_lossStepIn {sers : List Serial} {v : Window} (h : lossStepIn own lost sers w = some v) :
    v.serial = w.serial := by
  rw [lossStepIn, Window.lossStep] at h
  repeat' split at h
  all_goals cases h
  all_goals rfl

theorem nodup_filterMap_lossStepIn {sers : List Serial} {l : List Window} (h : (l.map (·.serial)).Nodup) :
    ((l.filterMap (lossStepIn own lost sers)).map (·.serial)).Nodup := by
  induction l with
  | nil => exact List.nodup_nil
  | cons w l ih =>
    obtain ⟨hnew, hrest⟩ := List.nodup_cons.1 (List.map_cons ▸ h)
    rw [List.filterMap_cons]
    split
    · exact ih hrest
    · rename_i v hv
      refine List.nodup_cons.2 ⟨fun hin => hnew ?_, ih hrest⟩
      obtain ⟨u, hu, huser⟩ := List.mem_map.1 hin
      obtain ⟨a, ha, hau⟩ := List.mem_filterMap.1 hu
      exact List.mem_map.2 ⟨a, ha, (serial_of_lossStepIn hau).symm.trans (huser.trans (serial_of_lossStepIn hv))⟩

theorem filterMap_lossStepIn_one (hnodup : (s.windows.list.map (·.serial)).Nodup)
    (hw : findWindow s ser = some w) : s.windows.list.filterMap (lossStepIn own lost [ser]) =
      if w.lostLast own lost then s.windows.list.filter (·.serial != ser)
      else rewritten ser (fun _ => w.losing own lost) s := by
  have hself {v : Window} (hv : v ∈ s.windows.list) (hser : v.serial = ser) : v = w := by
    have hfound := findWindow_of_mem hnodup hv
    rw [hser, hw] at hfound
    exact (Option.some.inj hfound).symm
  split
  · rename_i hlast
    rw [← List.filterMap_eq_filter]
    refine List.filterMap_congr fun v hv => ?_
    by_cases hser : v.serial = ser
    · obtain rfl := hself hv hser
      simp [lossStepIn, Window.lossStep, hser, hlast, Option.guard]
    · simp [lossStepIn, hser, Option.guard]
  · rename_i hlast
    rw [rewritten, ← List.filterMap_eq_map]
    refine List.filterMap_congr fun v hv => ?_
    by_cases hser : v.serial = ser
    · obtain rfl := hself hv hser
      simp [lossStepIn, Window.lossStep, hser, hlast]
    · simp [lossStepIn, hser]

theorem lossStepIn_bind {sers : List Serial} (hfresh : ser ∉ sers) (v : Window) :
    (lossStepIn own lost [ser] v).bind (lossStepIn own lost sers) = lossStepIn own lost (ser :: sers) v := by
  by_cases hser : v.serial = ser
  · have hnot : v.serial ∉ sers := hser ▸ hfresh
    simp only [lossStepIn, Window.lossStep, hser, List.mem_cons, true_or, if_true]
    split
    · rfl
    · rw [Option.bind_some, lossStepIn, if_neg (show (v.losing own lost).serial ∉ sers from hnot)]
  · simp [lossStepIn, hser]

/-- R109 window after window. -/
theorem foldl_missingInTable (own : Nat) (l : List Window) : ∀ s : State, s.image.station = own →
    (s.windows.list.map (·.serial)).Nodup → (∀ w ∈ l, findWindow s w.serial = some w ∧ w.serial.opener = own) →
    (l.map (·.serial)).Nodup → (l.map (·.serial)).foldl (missingInTable x) s =
      (postEach (summariesLosing own (· == x) l) s).setWindows { s.windows with
        list := s.windows.list.filterMap (lossStepIn own (· == x) (l.map (·.serial))) } := by
  induction l with
  | nil =>
    intro s _ _ _ _
    have hnone : s.windows.list.filterMap (lossStepIn own (· == x) []) = s.windows.list :=
      (List.filterMap_congr fun v _ => by simp [lossStepIn]).trans List.filterMap_some
    rw [List.map_nil, hnone]
    rfl
  | cons w l ih =>
    intro s hstation hnodup hlisted hsers
    obtain ⟨hfresh, hsers⟩ := List.nodup_cons.1 (List.map_cons ▸ hsers)
    obtain ⟨hw, hown⟩ := hlisted w List.mem_cons_self
    have hone : missingInTable x s w.serial = (postEach (summariesLosing own (· == x) [w]) s).setWindows
        { s.windows with list := s.windows.list.filterMap (lossStepIn own (· == x) [w.serial]) } := by
      rw [missingInTable_of_listed hnodup hw hown, filterMap_lossStepIn_one hnodup hw]
      cases hlast : w.lostLast own (· == x) <;> simp [summariesLosing, hlast, postEach]
    have hwindows : (missingInTable x s w.serial).windows =
        { s.windows with list := s.windows.list.filterMap (lossStepIn own (· == x) [w.serial]) } := by
      rw [hone]
      rfl
    have hrest : ∀ v ∈ l, findWindow (missingInTable x s w.serial) v.serial = some v ∧ v.serial.opener = own := by
      intro v hv
      obtain ⟨hfound, hvown⟩ := hlisted v (List.mem_cons_of_mem _ hv)
      have hne : v.serial ≠ w.serial := fun heq => hfresh (heq ▸ List.mem_map_of_mem hv)
      have hmem : v ∈ (missingInTable x s w.serial).windows.list := by
        rw [hwindows]
        exact List.mem_filterMap.2 ⟨v, List.mem_of_find?_eq_some hfound, by simp [lossStepIn, hne]⟩
      refine ⟨findWindow_of_mem ?_ hmem, hvown⟩
      rw [hwindows]
      exact nodup_filterMap_lossStepIn hnodup
    have hreports : summariesLosing own (· == x) (w :: l) =
        summariesLosing own (· == x) [w] ++ summariesLosing own (· == x) l := by
      simp only [summariesLosing, ← List.map_append, ← List.filter_append, List.singleton_append]
    rw [List.map_cons, List.foldl_cons, ih _ (by simpa using hstation) (by rw [hwindows]; exact nodup_filterMap_lossStepIn hnodup)
      hrest hsers, hwindows, hone, postEach_setWindows, hreports, postEach_append]
    have hbind : (s.windows.list.filterMap (lossStepIn own (· == x) [w.serial])).filterMap
        (lossStepIn own (· == x) (l.map (·.serial))) =
          s.windows.list.filterMap (lossStepIn own (· == x) (w.serial :: l.map (·.serial))) := by
      rw [List.filterMap_filterMap]
      exact List.filterMap_congr fun v _ => lossStepIn_bind hfresh v
    rw [hbind]
    rfl

theorem lossStep_of_other (h : w.serial.opener ≠ own) : w.lossStep own lost = some w := by
  have hsame : w.losing own lost = w := losing_of_not_loses fun hloses => h hloses.1
  rw [Window.lossStep, lostLast_of_same hsame, hsame]
  rfl

theorem summariesLosing_own (l : List Window) : summariesLosing own lost (l.filter (·.serial.opener == own)) =
    summariesLosing own lost l := by
  rw [summariesLosing, summariesLosing, List.filter_filter]
  congr 1
  refine List.filter_congr fun w _ => ?_
  cases hlast : w.lostLast own lost with
  | false => rfl
  | true => simp [(lostLast_iff.1 hlast).1]

/-- R109 for every window opened here. -/
theorem missingInTables_eq (hnodup : (s.windows.list.map (·.serial)).Nodup) : missingInTables x s =
    (postEach (summariesLosing s.image.station (· == x) s.windows.list) s).setWindows { s.windows with
      list := windowsLosing s.image.station (· == x) s.windows.list } := by
  have hsub : (s.windows.list.filter (·.serial.opener == s.own)).Sublist s.windows.list := List.filter_sublist
  have hlist : s.windows.list.filterMap (lossStepIn s.image.station (· == x)
      ((s.windows.list.filter (·.serial.opener == s.own)).map (·.serial))) =
        windowsLosing s.image.station (· == x) s.windows.list := by
    rw [windowsLosing_eq]
    refine List.filterMap_congr fun w hw => ?_
    rw [lossStepIn]
    split
    · rfl
    · rename_i hnot
      refine (lossStep_of_other fun hown => hnot ?_).symm
      exact List.mem_map.2 ⟨w, List.mem_filter.2 ⟨hw, by simpa [State.own] using hown⟩, rfl⟩
  rw [missingInTables, serialsWhere, foldl_missingInTable s.image.station _ s rfl hnodup
    (fun w hw => ⟨findWindow_of_mem hnodup (hsub.subset hw), by simpa [State.own] using (List.mem_filter.1 hw).2⟩)
    (hnodup.sublist (hsub.map _)), hlist]
  exact congrArg (fun l => State.setWindows (postEach l s) _) (summariesLosing_own s.windows.list)

end Sys2Proof.Machine
end

