-- ==== Sys2Proof/Proofs/Absences.lean ====
section
/-! Losses one after the other: what they do together to the tally tables and to the summaries (R109, R110). -/

namespace Sys2Proof.Machine

variable {s : State} {w : Window} {own : Nat} {a b lost : Nat → Bool}

/-! ### One window -/

theorem losing_congr (h : ∀ n, 1 ≤ n → a n = b n) : w.losing own a = w.losing own b := by
  have hsame (k : Nat) : a (k + 1) = b (k + 1) := h _ (Nat.le_add_left 1 k)
  simp only [Window.losing, hsame]

theorem losing_losing : (w.losing own a).losing own b = w.losing own fun n => a n || b n := by
  by_cases h : w.loses own
  · have h' : (w.losing own a).loses own := h
    have htable : ((w.losing own a).losing own b).table = (w.losing own fun n => a n || b n).table := by
      rw [losing_table h', losing_table h, losing_table h, List.mapIdx_mapIdx]
      refine congrArg (fun f => List.mapIdx f w.table) (funext₂ fun k e => ?_)
      by_cases he : e = .awaited
      · subst he
        cases a (k + 1) <;> simp
      · simp [he]
    rw [losing_of_table htable, losing_of_table rfl]
    rfl
  · rw [losing_of_not_loses h, losing_of_not_loses h, losing_of_not_loses h]

theorem losing_of_noneAwaited (h : w.noneAwaited = true) : w.losing own lost = w := by
  refine losing_eq_of_tableAt fun n hn hawaited => ?_
  rw [Window.tableAt, if_pos hn, List.getD_eq_getElem?_getD] at hawaited
  rw [Window.noneAwaited, List.all_eq_true] at h
  cases hentry : w.table[n - 1]? with
  | none => rw [hentry] at hawaited; cases hawaited
  | some e =>
    rw [hentry] at hawaited
    have hne := h e (List.mem_of_getElem? hentry)
    simp [show e = .awaited from hawaited] at hne

theorem lostLast_iff_awaited : w.lostLast own lost = true ↔ w.serial.opener = own ∧ w.state = .collecting ∧
    w.noneAwaited = false ∧ (w.losing own lost).noneAwaited = true := by
  rw [lostLast_iff]
  refine and_congr_right fun _ => and_congr_right fun _ => and_congr_left fun hnone => ?_
  rw [← Bool.not_eq_true]
  exact ⟨fun hne h => hne (losing_of_noneAwaited h), fun h hsame => h (hsame ▸ hnone)⟩

/-- After a loss that was not the last one, a further one brings the summary when both together do. -/
theorem lostLast_losing (h : w.lostLast own a = false) :
    (w.losing own a).lostLast own b = w.lostLast own fun n => a n || b n := by
  rw [Bool.eq_iff_iff, lostLast_iff_awaited, lostLast_iff_awaited, losing_losing]
  refine and_congr_right fun hown => and_congr_right fun hstate => and_congr_left fun _ => ?_
  constructor
  · intro hawaited
    by_contra hnone
    rw [Bool.not_eq_false] at hnone
    rw [losing_of_noneAwaited hnone, hnone] at hawaited
    cases hawaited
  · intro hawaited
    by_contra hnone
    rw [Bool.not_eq_false] at hnone
    have hlast : w.lostLast own a = true := lostLast_iff_awaited.2 ⟨hown, hstate, hawaited, hnone⟩
    rw [h] at hlast
    cases hlast

/-- A loss that brought the summary leaves nothing for a further one. -/
theorem losing_of_lostLast (h : w.lostLast own a = true) : (w.losing own fun n => a n || b n) = w.losing own a := by
  rw [← losing_losing, losing_of_noneAwaited (lostLast_iff_awaited.1 h).2.2.2]

theorem lostLast_of_lostLast (h : w.lostLast own a = true) : (w.lostLast own fun n => a n || b n) = true := by
  obtain ⟨hown, hstate, hawaited, hnone⟩ := lostLast_iff_awaited.1 h
  exact lostLast_iff_awaited.2 ⟨hown, hstate, hawaited, by rw [losing_of_lostLast h, hnone]⟩

/-! ### The list and the summaries -/

theorem windowsLosing_cons (l : List Window) : windowsLosing own lost (w :: l) =
    if w.lostLast own lost then windowsLosing own lost l else w.losing own lost :: windowsLosing own lost l := by
  cases hlast : w.lostLast own lost <;> simp [windowsLosing, hlast]

theorem summariesLosing_cons (l : List Window) : summariesLosing own lost (w :: l) =
    if w.lostLast own lost then .windowSummary (w.losing own lost).summary :: summariesLosing own lost l
    else summariesLosing own lost l := by
  cases hlast : w.lostLast own lost <;> simp [summariesLosing, hlast]

theorem windowsLosing_windowsLosing (l : List Window) : windowsLosing own b (windowsLosing own a l) =
    windowsLosing own (fun n => a n || b n) l := by
  induction l with
  | nil => rfl
  | cons w l ih =>
    rw [windowsLosing_cons, windowsLosing_cons]
    cases hlast : w.lostLast own a with
    | true => rw [if_pos rfl, ih, if_pos (lostLast_of_lostLast hlast)]
    | false => rw [if_neg Bool.false_ne_true, windowsLosing_cons, ih, lostLast_losing hlast, losing_losing]

theorem perm_summariesLosing (l : List Window) :
    (summariesLosing own a l ++ summariesLosing own b (windowsLosing own a l)).Perm
      (summariesLosing own (fun n => a n || b n) l) := by
  induction l with
  | nil => exact .refl _
  | cons w l ih =>
    rw [windowsLosing_cons, summariesLosing_cons, summariesLosing_cons]
    cases hlast : w.lostLast own a with
    | true =>
      rw [if_pos rfl, if_pos rfl, if_pos (lostLast_of_lostLast hlast), losing_of_lostLast hlast]
      exact ih.cons _
    | false =>
      rw [if_neg Bool.false_ne_true, if_neg Bool.false_ne_true, summariesLosing_cons, lostLast_losing hlast, losing_losing]
      split
      · exact List.perm_middle.trans (ih.cons _)
      · exact ih

theorem windowsLosing_congr (h : ∀ n, 1 ≤ n → a n = b n) (l : List Window) :
    windowsLosing own a l = windowsLosing own b l := by
  have hlosing : Window.losing own a = Window.losing own b := funext fun w => losing_congr h
  have hlast : Window.lostLast own a = Window.lostLast own b := by
    funext w
    rw [Window.lostLast, hlosing, Window.lostLast]
  rw [windowsLosing, windowsLosing, hlosing, hlast]

theorem summariesLosing_congr (h : ∀ n, 1 ≤ n → a n = b n) (l : List Window) :
    summariesLosing own a l = summariesLosing own b l := by
  have hlosing : Window.losing own a = Window.losing own b := funext fun w => losing_congr h
  have hlast : Window.lostLast own a = Window.lostLast own b := by
    funext w
    rw [Window.lostLast, hlosing, Window.lostLast]
  rw [summariesLosing, summariesLosing, hlosing, hlast]

theorem losing_none : w.losing own (fun _ => false) = w := losing_eq_of_tableAt fun _ _ _ => rfl

theorem windowsLosing_none (l : List Window) : windowsLosing own (fun _ => false) l = l := by
  induction l with
  | nil => rfl
  | cons w l ih => rw [windowsLosing_cons, lostLast_of_same losing_none, losing_none, ih]; rfl

theorem summariesLosing_none (l : List Window) : summariesLosing own (fun _ => false) l = [] := by
  induction l with
  | nil => rfl
  | cons w l ih => rw [summariesLosing_cons, lostLast_of_same losing_none, ih]; rfl

theorem length_summariesLosing_le (l : List Window) : (summariesLosing own lost l).length ≤ l.length := by
  rw [summariesLosing, List.length_map]
  exact List.length_filter_le _ _

theorem serials_windowsLosing (l : List Window) :
    ((windowsLosing own lost l).map (·.serial)).Sublist (l.map (·.serial)) := by
  have hmap : (windowsLosing own lost l).map (·.serial) = (l.filter fun w => !w.lostLast own lost).map (·.serial) := by
    rw [windowsLosing, List.map_map]
    rfl
  rw [hmap]
  exact List.filter_sublist.map _

/-- No window of this station awaits a station that was lost. -/
theorem tableAt_of_mem_windowsLosing {l : List Window} {v : Window} (hv : v ∈ windowsLosing own lost l)
    (hloses : v.loses own) {n : Nat} (hn : 1 ≤ n) (hlost : lost n = true) : v.tableAt n ≠ .awaited := by
  obtain ⟨w, -, rfl⟩ := List.mem_map.1 hv
  rw [tableAt_losing (w := w) hloses hn, hlost]
  split
  · simp
  · rename_i h
    simpa using h

/-! ### Posts -/

/-- The posts that find room, in their order. -/
theorem postEach_queue (l : List Report) : ∀ s : State, s.ctl.queue.length + l.length ≤ 32 →
    (postEach l s).ctl.queue.map (·.2) = s.ctl.queue.map (·.2) ++ l := by
  induction l with
  | nil => intro s _; simp [postEach]
  | cons r l ih =>
    intro s hroom
    rw [List.length_cons] at hroom
    have hqueue : (postReport r s).ctl.queue = s.ctl.queue ++ [(s.ctl.reportNumber, r)] := by
      rw [postReport_queue, if_pos (by omega)]
    have hrest := ih (postReport r s) (by rw [hqueue, List.length_append, List.length_singleton]; omega)
    rw [hqueue] at hrest
    exact hrest.trans (by simp)

theorem posted_postEach (l : List Report) : ∀ s : State, s.ctl.Posted (postEach l s).ctl := by
  induction l with
  | nil => exact fun s => .refl _
  | cons r l ih => exact fun s => (posted_postReport r s).trans (ih _)

theorem flagged_postEach (l : List Report) : ∀ s : State, s.ctl.Flagged (postEach l s).ctl := by
  induction l with
  | nil => exact fun s => .refl _
  | cons r l ih => exact fun s => (flagged_postReport r s).trans (ih _)

end Sys2Proof.Machine
end

