-- ==== Sys2Proof/Proofs/Losses.lean ====
section
/-! Stations set ABSENT: the slots in DRIVING, the tally tables, the grade and the alerts (R64, R66, R109, R110, R167). -/

namespace Sys2Proof.Machine

variable {s t u : State} {own x : Nat} {gone : List Nat}

/-! ### The grade of a roster that a station leaves (R168) -/

theorem foldl_min_gradeOf (l : List (Option Advertisement)) : ∀ g : Nat,
    l.foldl (fun g a => min g (gradeOf a)) g ≤ g ∧ (∀ a ∈ l, l.foldl (fun g a => min g (gradeOf a)) g ≤ gradeOf a) ∧
      (l.foldl (fun g a => min g (gradeOf a)) g = g ∨
        ∃ a ∈ l, l.foldl (fun g a => min g (gradeOf a)) g = gradeOf a) := by
  induction l with
  | nil => exact fun g => ⟨le_rfl, fun _ h => absurd h List.not_mem_nil, .inl rfl⟩
  | cons a l ih =>
    intro g
    obtain ⟨hle, hall, hattained⟩ := ih (min g (gradeOf a))
    refine ⟨hle.trans (min_le_left _ _), fun x hx => ?_, ?_⟩
    · rcases List.mem_cons.1 hx with rfl | hx
      · exact hle.trans (min_le_right _ _)
      · exact hall x hx
    · rw [List.foldl_cons]
      rcases hattained with h | ⟨x, hx, h⟩
      · rcases min_choice g (gradeOf a) with hmin | hmin
        · exact .inl (h.trans hmin)
        · exact .inr ⟨a, List.mem_cons_self, h.trans hmin⟩
      · exact .inr ⟨x, List.mem_cons_of_mem _ hx, h⟩

/-- The loop grade is the least grade of the PRESENT entries. -/
theorem loopGradeOf_least {es : List RosterEntry} (h : presentAdverts es ≠ []) :
    (∀ a ∈ presentAdverts es, loopGradeOf es ≤ gradeOf a) ∧ ∃ a ∈ presentAdverts es, loopGradeOf es = gradeOf a := by
  rw [loopGradeOf]
  cases hadverts : presentAdverts es with
  | nil => exact absurd hadverts h
  | cons a l =>
    obtain ⟨hle, hall, hattained⟩ := foldl_min_gradeOf l (gradeOf a)
    refine ⟨fun x hx => ?_, ?_⟩
    · rcases List.mem_cons.1 hx with rfl | hx
      · exact hle
      · exact hall x hx
    · rcases hattained with hsame | ⟨x, hx, hsame⟩
      · exact ⟨a, List.mem_cons_self, hsame⟩
      · exact ⟨x, List.mem_cons_of_mem _ hx, hsame⟩

/-- Fewer PRESENT entries, one at least: the grade does not fall. -/
theorem loopGradeOf_le_of_subset {es es' : List RosterEntry} (hsub : presentAdverts es' ⊆ presentAdverts es)
    (hne : presentAdverts es' ≠ []) : loopGradeOf es ≤ loopGradeOf es' := by
  obtain ⟨-, a, ha, hgrade⟩ := loopGradeOf_least hne
  have hsome : presentAdverts es ≠ [] := List.ne_nil_of_mem (hsub ha)
  rw [hgrade]
  exact (loopGradeOf_least hsome).1 a (hsub ha)

theorem mem_presentAdverts {es : List RosterEntry} {a : Option Advertisement} :
    a ∈ presentAdverts es ↔ ∃ e ∈ es, e.present = true ∧ e.advert = a := by
  simp only [presentAdverts, List.mem_map, List.mem_filter, and_assoc]

theorem mem_entries_of_isPresent (h : isPresent s x = true) : rosterAt s x ∈ s.roster.entries := by
  rw [isPresent] at h
  rw [rosterAt] at h ⊢
  split
  · rename_i hx
    rw [if_pos hx, List.getD_eq_getElem?_getD] at h
    rw [List.getD_eq_getElem?_getD]
    cases hentry : s.roster.entries[x - 1]? with
    | none => rw [hentry] at h; cases h
    | some e => exact List.mem_of_getElem? hentry
  · rename_i hx
    rw [if_neg hx] at h
    cases h

theorem rosterAt_modifyRoster_ne {n k : Nat} {f : RosterEntry → RosterEntry} (hne : k ≠ n) :
    rosterAt (modifyRoster n f s) k = rosterAt s k := by
  rcases Nat.eq_zero_or_pos k with rfl | hk
  · rfl
  · exact rosterAt_modifyRoster_other hk hne

theorem modifyRoster_entries (n : Nat) (f : RosterEntry → RosterEntry) (s : State) :
    (modifyRoster n f s).roster.entries = if 1 ≤ n then s.roster.entries.modify (n - 1) f else s.roster.entries := by
  unfold modifyRoster
  split <;> rfl

theorem presentAdverts_modifyRoster {f : RosterEntry → RosterEntry}
    (hf : ∀ e, ((f e).present, (f e).advert) = (e.present, e.advert)) :
    presentAdverts (modifyRoster x f s).roster.entries = presentAdverts s.roster.entries := by
  rw [modifyRoster_entries]
  split
  · exact presentAdverts_congr (map_modify_of_eq _ _ _ _ hf)
  · rfl

/-- The roster's grade and batching permission are those of its entries (R168). -/
def Graded (s : State) : Prop :=
  s.roster.grade = loopGradeOf s.roster.entries ∧ s.roster.batching = batchingOf s.roster.entries

theorem graded_of_rosterOk (h : RosterOk s) : Graded s := ⟨h.2.1, h.2.2.1⟩

theorem graded_recompute (s : State) : Graded (recompute s) := by
  rw [Graded, recompute_roster]
  exact ⟨rfl, rfl⟩

theorem graded_of_roster (h : t.roster = s.roster) : Graded t ↔ Graded s := by
  rw [Graded, Graded, h]

/-- A station other than this one leaves the roster of a PRESENT station: the grade does not fall. -/
theorem grade_le_of_absent (hgraded : Graded s) (hown : isPresent s own = true) (hne : own ≠ x) :
    s.roster.grade ≤ loopGradeOf (modifyRoster x (fun e => { e with present := false }) s).roster.entries := by
  have hstays : isPresent (modifyRoster x (fun e => { e with present := false }) s) own = true := by
    rw [isPresent, rosterAt_modifyRoster_ne hne]
    exact hown
  rw [hgraded.1]
  refine loopGradeOf_le_of_subset (fun a ha => ?_) ?_
  · obtain ⟨e, he, hpresent, hadvert⟩ := mem_presentAdverts.1 ha
    rw [modifyRoster_entries] at he
    split at he
    · rcases mem_modify he with he | ⟨e', -, rfl⟩
      · exact mem_presentAdverts.2 ⟨e, he, hpresent, hadvert⟩
      · cases hpresent
    · exact mem_presentAdverts.2 ⟨e, he, hpresent, hadvert⟩
  · exact List.ne_nil_of_mem (mem_presentAdverts.2 ⟨_, mem_entries_of_isPresent hstays, hstays, rfl⟩)

/-! ### A slot after losses (R64, R66) -/

/-- A slot after stations were set ABSENT: in DRIVING those on its baseline join the absent list, and a fall of the
grade sets LOW-GRADE. -/
def Probe.losing (crosses : Nat → Bool) (fell : Bool) (gone : List Nat) (p : Probe) : Probe :=
  if p.phase = .driving then
    { p with
      absent := gone.foldl (fun a n => if crosses n then addStation a n else a) p.absent
      absentLost := p.absentLost || gone.any crosses
      lowGrade := p.lowGrade || fell }
  else p

theorem probe_losing_core (crosses : Nat → Bool) (fell : Bool) (gone : List Nat) (p : Probe) :
    (p.losing crosses fell gone).phase = p.phase ∧ (p.losing crosses fell gone).circuit = p.circuit := by
  unfold Probe.losing
  split <;> exact ⟨rfl, rfl⟩

theorem probe_losing_none (crosses : Nat → Bool) (p : Probe) : p.losing crosses false [] = p := by
  unfold Probe.losing
  split
  · simp
  · rfl

theorem probe_losing_append (crosses : Nat → Bool) (f f' : Bool) (gone gone' : List Nat) (p : Probe) :
    (p.losing crosses f gone).losing crosses f' gone' = p.losing crosses (f || f') (gone ++ gone') := by
  by_cases h : p.phase = .driving
  · simp only [Probe.losing, if_pos h, List.foldl_append, List.any_append, Bool.or_assoc]
  · simp only [Probe.losing, if_neg h]

/-- The slots after losses. -/
def slotsLosing (fell : Bool) (gone : List Nat) (s : State) : List (Option Probe) :=
  s.probes.slots.map fun o => o.map fun p => p.losing (baselineCrosses s p) fell gone

/-! ### What losses do together -/

/-- The stations `gone` were set ABSENT one after the other, this one not among them. -/
structure Lost (gone : List Nat) (s t : State) : Prop where
  place    : t.image = s.image ∧ t.paths = s.paths ∧ rosterAt t s.image.station = rosterAt s s.image.station
  graded   : Graded s → Graded t
  probes   : ∃ fell : Bool, (Graded s → isPresent s s.image.station = true → fell = false) ∧
    t.probes = { s.probes with slots := slotsLosing fell gone s }
  kept     : t.windows.requests = s.windows.requests ∧ t.windows.seq = s.windows.seq
  unlisted : ∀ ser, findWindow s ser = none → findWindow t ser = none
  tables   : (s.windows.list.map (·.serial)).Nodup →
    t.windows.list = windowsLosing s.image.station gone.contains s.windows.list
  reports  : (s.windows.list.map (·.serial)).Nodup →
    ∃ l : List Report, l.Perm (summariesLosing s.image.station gone.contains s.windows.list) ∧
      (s.ctl.queue.length + l.length ≤ 32 → t.ctl.queue.map (·.2) = s.ctl.queue.map (·.2) ++ l)
  posted   : s.ctl.Posted t.ctl
  flagged  : s.ctl.Flagged t.ctl

/-- No station was lost: at most roster entries changed, none of them this station's. -/
theorem lost_of_roster (hplace : t.image = s.image ∧ t.paths = s.paths ∧
      rosterAt t s.image.station = rosterAt s s.image.station)
    (hgraded : Graded s → Graded t) (hprobes : t.probes = s.probes) (hwindows : t.windows = s.windows)
    (hctl : t.ctl = s.ctl) : Lost [] s t := by
  have hnone : (fun n => ([] : List Nat).contains n) = fun _ => false := rfl
  refine ⟨hplace, hgraded, ⟨false, fun _ _ => rfl, ?_⟩, ⟨by rw [hwindows], by rw [hwindows]⟩, fun ser h => ?_,
    fun _ => ?_, fun _ => ⟨[], ?_, fun _ => ?_⟩, .of_eq hctl, .of_eq hctl⟩
  · simp only [slotsLosing, probe_losing_none, Option.map_id', List.map_id', hprobes]
  · rw [findWindow, hwindows]
    exact h
  · exact (congrArg (·.list) hwindows).trans (windowsLosing_none _).symm
  · exact .of_eq (summariesLosing_none _).symm
  · rw [hctl, List.append_nil]

theorem Lost.refl (s : State) : Lost [] s s := lost_of_roster ⟨rfl, rfl, rfl⟩ id rfl rfl rfl

theorem contains_append_fun (a b : List Nat) : (a ++ b).contains = fun n => a.contains n || b.contains n := by
  funext n
  exact List.contains_append ..

theorem Lost.trans {gone' : List Nat} (h : Lost gone s t) (h' : Lost gone' t u) : Lost (gone ++ gone') s u := by
  obtain ⟨himage, hpaths, hown⟩ := h.place
  obtain ⟨himage', hpaths', hown'⟩ := h'.place
  rw [himage] at hown'
  obtain ⟨fell, hfell, hprobes⟩ := h.probes
  obtain ⟨fell', hfell', hprobes'⟩ := h'.probes
  have hpresent : isPresent t t.image.station = isPresent s s.image.station := by
    rw [isPresent, isPresent, himage, hown]
  have hcrosses (p : Probe) (q : Probe) (hq : q.circuit = p.circuit) : baselineCrosses t q = baselineCrosses s p := by
    funext n
    rw [baselineCrosses, baselineCrosses, findPath, findPath, hpaths, hq]
  have hnodup (hn : (s.windows.list.map (·.serial)).Nodup) : (t.windows.list.map (·.serial)).Nodup := by
    rw [h.tables hn]
    exact hn.sublist (serials_windowsLosing _)
  refine ⟨⟨himage'.trans himage, hpaths'.trans hpaths, hown'.trans hown⟩, h'.graded ∘ h.graded,
    ⟨fell || fell', fun hgraded hin => ?_, ?_⟩, ⟨h'.kept.1.trans h.kept.1, h'.kept.2.trans h.kept.2⟩,
    fun ser hnone => h'.unlisted ser (h.unlisted ser hnone), fun hn => ?_, fun hn => ?_,
    h.posted.trans h'.posted, h.flagged.trans h'.flagged⟩
  · rw [hfell hgraded hin, hfell' (h.graded hgraded) (hpresent.trans hin)]
    rfl
  · rw [hprobes', slotsLosing, hprobes]
    simp only [slotsLosing, List.map_map]
    congr 1
    refine List.map_congr_left fun o _ => ?_
    cases o with
    | none => rfl
    | some p =>
      have hcore := (probe_losing_core (baselineCrosses s p) fell gone p).2
      simp only [Function.comp, Option.map_some, hcrosses p _ hcore, probe_losing_append]
  · rw [h'.tables (hnodup hn), h.tables hn, himage, windowsLosing_windowsLosing, contains_append_fun]
  · obtain ⟨l, hperm, hqueue⟩ := h.reports hn
    obtain ⟨l', hperm', hqueue'⟩ := h'.reports (hnodup hn)
    rw [h.tables hn, himage] at hperm'
    refine ⟨l ++ l', ?_, fun hroom => ?_⟩
    · rw [contains_append_fun]
      exact (hperm.append hperm').trans (perm_summariesLosing _)
    · rw [List.length_append] at hroom
      have hfirst := hqueue (by omega)
      have hlen : t.ctl.queue.length = s.ctl.queue.length + l.length := by
        have := congrArg List.length hfirst
        simpa using this
      rw [hqueue' (by omega), hfirst, List.append_assoc]

/-! ### R109 without any order of the list -/

theorem missingInTable_kept (x : Nat) (s : State) (ser : Serial) :
    ((missingInTable x s ser).windows.requests = s.windows.requests ∧
      (missingInTable x s ser).windows.seq = s.windows.seq) ∧
    (∀ a, findWindow s a = none → findWindow (missingInTable x s ser) a = none) ∧
    s.ctl.Posted (missingInTable x s ser).ctl ∧ s.ctl.Flagged (missingInTable x s ser).ctl := by
  have hmodify (a : Serial) (h : findWindow s a = none) :
      findWindow (modifyWindow ser (·.setTable x .missing) s) a = none := by
    rw [findWindow_modifyWindow ser a _ (fun v => serial_setTable v _ _), h]
    rfl
  have hwindows (r : Report) (v : State) : (postReport r v).windows = v.windows := by simp
  unfold missingInTable summaryTest
  repeat' split
  · exact ⟨⟨rfl, rfl⟩, fun _ => id, .refl _, .refl _⟩
  · exact ⟨⟨rfl, rfl⟩, hmodify, .refl _, .refl _⟩
  · rename_i v _ _
    refine ⟨?_, fun a h => ?_, posted_postReport _ (modifyWindow ser (·.setTable x .missing) s),
      flagged_postReport _ (modifyWindow ser (·.setTable x .missing) s)⟩
    · rw [dropWindow]
      simp only [State.setWindows_fields, hwindows]
      exact ⟨rfl, rfl⟩
    · rw [findWindow_dropWindow]
      split
      · rfl
      · have hsame : findWindow (postReport (.windowSummary v.summary) (modifyWindow ser (·.setTable x .missing) s)) a =
            findWindow (modifyWindow ser (·.setTable x .missing) s) a := by
          rw [findWindow, hwindows, findWindow]
        exact hsame.trans (hmodify a h)
  · exact ⟨⟨rfl, rfl⟩, hmodify, .refl _, .refl _⟩
  · exact ⟨⟨rfl, rfl⟩, fun _ => id, .refl _, .refl _⟩

theorem foldl_missingInTable_kept (x : Nat) (l : List Serial) : ∀ s : State,
    ((l.foldl (missingInTable x) s).windows.requests = s.windows.requests ∧
      (l.foldl (missingInTable x) s).windows.seq = s.windows.seq) ∧
    (∀ a, findWindow s a = none → findWindow (l.foldl (missingInTable x) s) a = none) ∧
    s.ctl.Posted (l.foldl (missingInTable x) s).ctl ∧ s.ctl.Flagged (l.foldl (missingInTable x) s).ctl := by
  induction l with
  | nil => exact fun s => ⟨⟨rfl, rfl⟩, fun _ => id, .refl _, .refl _⟩
  | cons ser l ih =>
    intro s
    obtain ⟨⟨hreq, hseq⟩, hnone, hposted, hflagged⟩ := missingInTable_kept x s ser
    obtain ⟨⟨hreq', hseq'⟩, hnone', hposted', hflagged'⟩ := ih (missingInTable x s ser)
    exact ⟨⟨hreq'.trans hreq, hseq'.trans hseq⟩, fun a h => hnone' a (hnone a h), hposted.trans hposted',
      hflagged.trans hflagged'⟩

/-! ### A station set ABSENT (R64, R109, R167) -/

theorem becomeAbsent_roster (x : Nat) (s : State) : (becomeAbsent x s).roster =
    (recompute (modifyRoster x (fun e => { e with present := false }) s)).roster := by
  simp [becomeAbsent]

theorem absentStation_probes (x : Nat) (s : State) : (absentStation x s).probes = { s.probes with
    slots := slotsLosing false [x] s } := by
  have hslot (p : Probe) : (if p.phase = .driving then
      (if baselineCrosses s p x then { p with absent := addStation p.absent x, absentLost := true } else p) else p) =
        p.losing (baselineCrosses s p) false [x] := by
    unfold Probe.losing
    by_cases h : p.phase = .driving
    · rw [if_pos h, if_pos h]
      by_cases hx : baselineCrosses s p x = true
      · simp [hx]
      · simp [hx]
    · rw [if_neg h, if_neg h]
  simp only [absentStation, modifyDriving, setSlots, State.setProbes_fields, slotsLosing, ← hslot]

/-- The slots after the loss of one station. -/
theorem becomeAbsent_probes (x : Nat) (s : State) : (becomeAbsent x s).probes = { s.probes with
    slots := slotsLosing (decide (loopGradeOf
      (modifyRoster x (fun e => { e with present := false }) s).roster.entries < s.roster.grade)) [x] s } := by
  have hgrade : (modifyRoster x (fun e => { e with present := false }) s).roster.grade = s.roster.grade := by
    rw [modifyRoster_grade]
  have hbefore : (raiseAlert .roster (recompute (modifyRoster x (fun e => { e with present := false }) s))).probes =
      (recompute (modifyRoster x (fun e => { e with present := false }) s)).probes := by simp
  have hcrosses (p : Probe) : baselineCrosses (raiseAlert .roster
      (recompute (modifyRoster x (fun e => { e with present := false }) s))) p = baselineCrosses s p := by
    funext n
    simp [baselineCrosses, findPath]
  have hmissing (v : State) : (missingInTables x v).probes = v.probes := by simp
  rw [becomeAbsent, hmissing, absentStation_probes]
  simp only [slotsLosing, hbefore, recompute_probes, hgrade, modifyRoster_frame, List.map_map, hcrosses]
  congr 1
  refine List.map_congr_left fun o _ => ?_
  cases o with
  | none => rfl
  | some p =>
    simp only [Function.comp, Option.map_some]
    have hstep : (if p.phase = .driving ∧
        loopGradeOf (modifyRoster x (fun e => { e with present := false }) s).roster.entries < s.roster.grade then
          { p with lowGrade := true } else p) = p.losing (baselineCrosses s p) (decide
            (loopGradeOf (modifyRoster x (fun e => { e with present := false }) s).roster.entries < s.roster.grade)) [] := by
      unfold Probe.losing
      by_cases h : p.phase = .driving
      · rw [if_pos h]
        by_cases hfall : loopGradeOf (modifyRoster x (fun e => { e with present := false }) s).roster.entries <
            s.roster.grade
        · rw [if_pos ⟨h, hfall⟩]
          simp [hfall]
        · rw [if_neg fun hboth => hfall hboth.2]
          simp [hfall]
      · rw [if_neg h, if_neg fun hboth => h hboth.1]
    rw [hstep]
    have hcore := (probe_losing_core (baselineCrosses s p) (decide
      (loopGradeOf (modifyRoster x (fun e => { e with present := false }) s).roster.entries < s.roster.grade)) [] p).2
    have hsame : baselineCrosses s (p.losing (baselineCrosses s p) (decide (loopGradeOf
        (modifyRoster x (fun e => { e with present := false }) s).roster.entries < s.roster.grade)) []) =
          baselineCrosses s p := by
      funext n
      rw [baselineCrosses, hcore, baselineCrosses]
    rw [hsame, probe_losing_append, Bool.or_false]
    rfl

/-- The station has left the roster and the slots; the tally tables still await it. -/
def departed (x : Nat) (s : State) : State :=
  absentStation x (raiseAlert .roster (recompute (modifyRoster x (fun e => { e with present := false }) s)))

theorem becomeAbsent_eq (x : Nat) (s : State) : becomeAbsent x s = missingInTables x (departed x s) := rfl

theorem departed_windows (x : Nat) (s : State) :
    (departed x s).windows = s.windows ∧ (departed x s).image = s.image := by
  unfold departed
  simp

theorem departed_ctl (x : Nat) (s : State) : (departed x s).ctl =
    (raiseAlert .roster (recompute (modifyRoster x (fun e => { e with present := false }) s))).ctl := by
  unfold departed
  simp

theorem departed_told (x : Nat) (s : State) : (departed x s).ctl.queue = s.ctl.queue ∧
    s.ctl.Posted (departed x s).ctl ∧ s.ctl.Flagged (departed x s).ctl := by
  rw [departed_ctl]
  refine ⟨?_, ((ControlPort.Posted.of_eq (by simp)).trans (posted_recompute _)).trans (posted_raiseAlert _ _),
    .trans ⟨fun a ha => ?_, fun f hf => ?_⟩ (flagged_raiseAlert _ _)⟩
  · rw [raiseAlert]
    simp only [State.setCtl_fields]
    rw [recompute_ctl_alerts]
    simp
  · rw [alertSet_recompute]
    simp [ha]
  · rw [ControlPort.faultSet, recompute_ctl_alerts]
    simpa [ControlPort.faultSet] using hf

theorem alertSet_becomeAbsent (x : Nat) (s : State) : (becomeAbsent x s).ctl.alertSet .roster = true := by
  obtain ⟨-, -, -, hflagged⟩ := foldl_missingInTable_kept x (serialsWhere (departed x s) (·.serial.opener == (departed x s).own))
    (departed x s)
  refine hflagged.alerts _ ?_
  rw [departed_ctl, alertSet_raiseAlert]
  simp

theorem alertSet_grade_becomeAbsent (x : Nat) (s : State) (h : (becomeAbsent x s).roster.grade ≠ s.roster.grade) :
    (becomeAbsent x s).ctl.alertSet .grade = true := by
  obtain ⟨-, -, -, hflagged⟩ := foldl_missingInTable_kept x (serialsWhere (departed x s) (·.serial.opener == (departed x s).own))
    (departed x s)
  refine hflagged.alerts _ ?_
  rw [becomeAbsent_roster, recompute_roster] at h
  rw [departed_ctl, alertSet_raiseAlert, alertSet_recompute, modifyRoster_grade]
  simpa using .inr h

theorem lost_becomeAbsent (hne : x ≠ s.image.station) : Lost [x] s (becomeAbsent x s) := by
  have hroster := becomeAbsent_roster x s
  obtain ⟨hwindows, himage⟩ := departed_windows x s
  obtain ⟨hqueue, hposted, hflagged⟩ := departed_told x s
  obtain ⟨⟨hreq, hseq⟩, hnone, hposted', hflagged'⟩ := foldl_missingInTable_kept x
    (serialsWhere (departed x s) (·.serial.opener == (departed x s).own)) (departed x s)
  have hcontains : (fun n => n == x) = [x].contains := by
    funext n
    simp [Bool.beq_eq_decide_eq]
  have hmissing (hn : (s.windows.list.map (·.serial)).Nodup) : becomeAbsent x s =
      (postEach (summariesLosing s.image.station [x].contains s.windows.list) (departed x s)).setWindows { s.windows with
        list := windowsLosing s.image.station [x].contains s.windows.list } := by
    rw [becomeAbsent_eq, missingInTables_eq (by rw [hwindows]; exact hn), himage, hwindows, hcontains]
  refine ⟨⟨by simp, by simp, ?_⟩, fun _ => (graded_of_roster hroster).2 (graded_recompute _),
    ⟨_, fun hgraded hown => ?_, becomeAbsent_probes x s⟩, ⟨hreq.trans (by rw [hwindows]), hseq.trans (by rw [hwindows])⟩,
    fun ser h => hnone ser (by rw [findWindow, hwindows]; exact h), fun hn => ?_,
    fun hn => ⟨_, List.Perm.refl _, fun hroom => ?_⟩, hposted.trans hposted', hflagged.trans hflagged'⟩
  · rw [rosterAt_of_entries (s := modifyRoster x (fun e => { e with present := false }) s)
      (by rw [hroster, recompute_roster]), rosterAt_modifyRoster_ne (Ne.symm hne)]
  · exact decide_eq_false (Nat.not_lt.2 (grade_le_of_absent hgraded hown (Ne.symm hne)))
  · rw [hmissing hn]
    rfl
  · rw [hmissing hn, ← hqueue]
    exact postEach_queue _ _ (by rw [hqueue]; exact hroom)

end Sys2Proof.Machine
end

