-- ==== Sys2Proof/Proofs/Misses.lean ====
section
/-! The miss runs after a delivery (R166): each station's entry, and the stations that this sets ABSENT. -/

namespace Sys2Proof.Machine

variable {s t u : State} {x : Nat} {b : BestMarks} {attempts : Nat}

/-! ### One entry -/

/-- The entry of another station after a delivery of so many attempts with best marks b (R166). -/
def fedEntry (b : BestMarks) (attempts x : Nat) (e : RosterEntry) : RosterEntry :=
  if e.present = false then e
  else if b.marked x then { e with missRun := 0 }
  else if attempts = 4 then { e with missRun := e.missRun + 1, present := decide (e.missRun + 1 < 3) }
  else e

/-- The delivery sets the station ABSENT. -/
def missesOut (b : BestMarks) (attempts : Nat) (s : State) (x : Nat) : Bool :=
  x != s.image.station && isPresent s x && !b.marked x && attempts == 4 && decide (3 ≤ (rosterAt s x).missRun + 1)

theorem missesOut_iff : missesOut b attempts s x = true ↔ x ≠ s.image.station ∧ isPresent s x = true ∧
    b.marked x = false ∧ attempts = 4 ∧ 3 ≤ (rosterAt s x).missRun + 1 := by
  simp [missesOut, and_assoc]

/-- What the miss runs at the stations `l` make of a state. -/
structure Fed (b : BestMarks) (attempts : Nat) (l : List Nat) (s t : State) : Prop where
  lost    : Lost (l.filter (missesOut b attempts s)) s t
  entries : ∀ x, stationOk x = true → rosterAt t x =
    if x ∈ l ∧ x ≠ s.image.station then fedEntry b attempts x (rosterAt s x) else rosterAt s x
  length  : t.roster.entries.length = s.roster.entries.length
  rest    : t.roster = { s.roster with
    entries := t.roster.entries, grade := t.roster.grade, batching := t.roster.batching }
  grade   : t.roster.grade ≠ s.roster.grade → t.ctl.alertSet .grade = true
  alert   : (∃ x ∈ l, missesOut b attempts s x = true) → t.ctl.alertSet .roster = true

theorem Fed.refl (s : State) : Fed b attempts [] s s :=
  ⟨.refl s, fun x _ => by simp, rfl, rfl, fun h => absurd rfl h, fun ⟨_, h, _⟩ => absurd h List.not_mem_nil⟩

theorem Fed.cons {l : List Nat} (h : Fed b attempts [x] s t) (h' : Fed b attempts l t u) (hnew : x ∉ l)
    (hok : ∀ y ∈ l, stationOk y = true) : Fed b attempts (x :: l) s u := by
  have himage := h.lost.place.1
  have hsame : l.filter (missesOut b attempts t) = l.filter (missesOut b attempts s) := by
    refine List.filter_congr fun y hy => ?_
    have hne : y ≠ x := fun heq => hnew (heq ▸ hy)
    have hentry : rosterAt t y = rosterAt s y := by
      rw [h.entries y (hok y hy), if_neg fun hin => hne (List.mem_singleton.1 hin.1)]
    rw [missesOut, missesOut, isPresent, isPresent, hentry, himage]
  have hone : [x].filter (missesOut b attempts s) ++ l.filter (missesOut b attempts s) =
      (x :: l).filter (missesOut b attempts s) := by rw [← List.filter_append]; rfl
  refine ⟨hone ▸ h.lost.trans (hsame ▸ h'.lost), fun y hy => ?_, h'.length.trans h.length, ?_, fun hgrade => ?_,
    fun ⟨y, hy, hout⟩ => ?_⟩
  · rw [h'.entries y hy, h.entries y hy, himage]
    by_cases hyx : y = x
    · subst hyx
      simp [hnew]
    · simp [hyx]
  · rw [h'.rest, h.rest]
  · by_cases hmid : t.roster.grade = s.roster.grade
    · exact h'.grade (hmid ▸ hgrade)
    · exact h'.lost.flagged.alerts _ (h.grade hmid)
  · rcases List.mem_cons.1 hy with rfl | hy
    · exact h'.lost.flagged.alerts _ (h.alert ⟨y, List.mem_singleton_self y, hout⟩)
    · refine h'.alert ⟨y, hy, ?_⟩
      exact (List.mem_filter.1 (hsame ▸ List.mem_filter.2 ⟨hy, hout⟩)).2

/-! ### One station -/

theorem rosterAt_modifyRoster_self_of_ok {f : RosterEntry → RosterEntry} (hlen : s.roster.entries.length = 24)
    (hx : stationOk x = true) : rosterAt (modifyRoster x f s) x = f (rosterAt s x) := by
  rw [rosterAt_modifyRoster x x f s hlen hx, if_pos rfl]

/-- An entry of another station whose presence stays loses no station. -/
theorem lost_modifyRoster {f : RosterEntry → RosterEntry} (hne : x ≠ s.image.station)
    (hf : ∀ e, ((f e).present, (f e).advert) = (e.present, e.advert)) : Lost [] s (modifyRoster x f s) := by
  refine lost_of_roster ⟨by simp, by simp, rosterAt_modifyRoster_ne (Ne.symm hne)⟩ (fun hgraded => ?_) (by simp)
    (by simp) (by simp)
  obtain ⟨hgrade, hbatching⟩ := hgraded
  have hadverts := presentAdverts_modifyRoster (s := s) (x := x) hf
  have hroster := modifyRoster_grade x f s
  constructor
  · rw [loopGradeOf, hadverts, hroster]
    exact hgrade
  · rw [batchingOf, hadverts, hroster]
    exact hbatching

/-- An entry whose presence stays. -/
theorem fed_modifyRoster {f : RosterEntry → RosterEntry} (hlen : s.roster.entries.length = 24)
    (hx : stationOk x = true) (hne : x ≠ s.image.station)
    (hf : ∀ e, ((f e).present, (f e).advert) = (e.present, e.advert))
    (hfed : f (rosterAt s x) = fedEntry b attempts x (rosterAt s x)) (hout : missesOut b attempts s x = false) :
    Fed b attempts [x] s (modifyRoster x f s) := by
  have hnone : [x].filter (missesOut b attempts s) = [] := by simp [hout]
  have hroster := modifyRoster_grade x f s
  refine ⟨?_, fun y hy => ?_, by simp, ?_, fun hgrade => ?_, fun ⟨y, hy, hyout⟩ => ?_⟩
  · rw [hnone]
    exact lost_modifyRoster hne hf
  · by_cases hyx : y = x
    · subst hyx
      rw [rosterAt_modifyRoster_self_of_ok hlen hx, hfed]
      simp [hne]
    · rw [rosterAt_modifyRoster_ne hyx]
      simp [hyx]
  · rw [hroster]
  · rw [hroster] at hgrade
    exact absurd rfl hgrade
  · rw [List.mem_singleton.1 hy, hout] at hyout
    cases hyout

/-- An entry that its miss run sets ABSENT. -/
theorem fed_becomeAbsent (hlen : s.roster.entries.length = 24) (hx : stationOk x = true)
    (hout : missesOut b attempts s x = true) :
    Fed b attempts [x] s (becomeAbsent x (modifyRoster x (fun e => { e with missRun := e.missRun + 1 }) s)) := by
  obtain ⟨hne, hpresent, hmarked, hattempts, hrun⟩ := missesOut_iff.1 hout
  have hself : [x].filter (missesOut b attempts s) = [] ++ [x] := by simp [hout]
  have hfirst : Lost [] s (modifyRoster x (fun e => { e with missRun := e.missRun + 1 }) s) :=
    lost_modifyRoster hne fun _ => rfl
  have hentries : (becomeAbsent x (modifyRoster x (fun e => { e with missRun := e.missRun + 1 }) s)).roster.entries =
      (modifyRoster x (fun e => { e with missRun := e.missRun + 1, present := false }) s).roster.entries := by
    rw [becomeAbsent_roster, recompute_roster, modifyRoster_modifyRoster]
    rfl
  have hgrade := modifyRoster_grade x (fun e => { e with missRun := e.missRun + 1 }) s
  refine ⟨hself ▸ hfirst.trans (lost_becomeAbsent (by simpa using hne)), fun y hy => ?_, ?_, ?_, fun h => ?_,
    fun _ => alertSet_becomeAbsent _ _⟩
  · rw [rosterAt_of_entries hentries]
    by_cases hyx : y = x
    · subst hyx
      rw [rosterAt_modifyRoster_self_of_ok hlen hx, if_pos ⟨List.mem_singleton_self _, hne⟩, fedEntry, if_neg, if_neg, if_pos hattempts,
        decide_eq_false (by omega)]
      · simp [hmarked]
      · simpa [isPresent] using hpresent
    · rw [rosterAt_modifyRoster_ne hyx]
      simp [hyx]
  · rw [hentries, length_modifyRoster]
  · rw [becomeAbsent_roster, recompute_roster, modifyRoster_grade, modifyRoster_grade]
  · refine alertSet_grade_becomeAbsent _ _ ?_
    rw [hgrade]
    exact h

theorem fed_feedMiss (hlen : s.roster.entries.length = 24) (hx : stationOk x = true) :
    Fed b attempts [x] s (feedMiss b attempts s x) := by
  have hkeep (hout : missesOut b attempts s x = false)
      (hentry : x ≠ s.image.station → rosterAt s x = fedEntry b attempts x (rosterAt s x)) : Fed b attempts [x] s s := by
    have hnone : [x].filter (missesOut b attempts s) = [] := by simp [hout]
    refine ⟨by rw [hnone]; exact .refl s, fun y _ => ?_, rfl, rfl, fun h => absurd rfl h, fun ⟨y, hy, hyout⟩ => ?_⟩
    · split
      · rename_i h
        obtain rfl := List.mem_singleton.1 h.1
        exact hentry h.2
      · rfl
    · rw [List.mem_singleton.1 hy, hout] at hyout
      cases hyout
  have hmax : Config.maxAttempts = 4 := rfl
  unfold feedMiss
  split
  · rename_i h
    refine hkeep ?_ fun hne => ?_
    · rcases h with h | h
      · simp [missesOut, h, State.own]
      · simp [missesOut, (by simpa using h : isPresent s x = false)]
    · rcases h with h | h
      · exact absurd h hne
      · rw [fedEntry, if_pos (by simpa [isPresent] using h)]
  · rename_i h
    obtain ⟨hne, hpresent⟩ := not_or.1 h
    have hpresent : isPresent s x = true := by simpa using hpresent
    have hin : (rosterAt s x).present ≠ false := by simpa [isPresent] using hpresent
    split
    · rename_i hmarked
      refine fed_modifyRoster hlen hx hne (fun _ => rfl) ?_ (by simp [missesOut, hmarked])
      rw [fedEntry, if_neg hin, if_pos hmarked]
    · rename_i hmarked
      split
      · rename_i hattempts
        rw [hmax] at hattempts
        rw [raiseMisses, rosterAt_modifyRoster_self_of_ok hlen hx]
        split
        · rename_i hrun
          exact fed_becomeAbsent hlen hx (missesOut_iff.2 ⟨hne, hpresent, by simpa using hmarked, hattempts, hrun⟩)
        · rename_i hrun
          have hbelow : (rosterAt s x).missRun + 1 < 3 := Nat.lt_of_not_le hrun
          have htrue : (rosterAt s x).present = true := by simpa using hin
          refine fed_modifyRoster hlen hx hne (fun _ => rfl) ?_ (by simp [missesOut, hrun])
          rw [fedEntry, if_neg hin, if_neg hmarked, if_pos hattempts, decide_eq_true hbelow, ← htrue]
      · rename_i hattempts
        rw [hmax] at hattempts
        refine hkeep (by simp [missesOut, hattempts]) fun _ => ?_
        rw [fedEntry, if_neg hin, if_neg hmarked, if_neg hattempts]

/-! ### Every station -/

theorem fed_foldl (l : List Nat) : ∀ s : State, s.roster.entries.length = 24 → l.Nodup →
    (∀ x ∈ l, stationOk x = true) → Fed b attempts l s (l.foldl (feedMiss b attempts) s) := by
  induction l with
  | nil => exact fun s _ _ _ => .refl s
  | cons x l ih =>
    intro s hlen hnodup hok
    obtain ⟨hnew, hnodup⟩ := List.nodup_cons.1 hnodup
    have hfirst : Fed b attempts [x] s (feedMiss b attempts s x) := fed_feedMiss hlen (hok x List.mem_cons_self)
    have hrest : ∀ y ∈ l, stationOk y = true := fun y hy => hok y (List.mem_cons_of_mem _ hy)
    exact hfirst.cons (ih _ (hfirst.length.trans hlen) hnodup hrest) hnew hrest

theorem nodup_stationNumbers : stationNumbers.Nodup := by decide

theorem fed_feedMisses (hlen : s.roster.entries.length = 24) :
    Fed b attempts stationNumbers s (feedMisses b attempts s) :=
  fed_foldl _ s hlen nodup_stationNumbers fun x => (mem_stationNumbers x).1

end Sys2Proof.Machine
end

