-- ==== Sys2Proof/Proofs/WindowOutcomes.lean ====
section
/-! The outcomes of WINDOW OPEN, WINDOW CLOSE and TALLY at the Window Unit, and of the JOIN at the roster (R96, R101,
R102, R107, R110, R162). -/

namespace Sys2Proof.Machine

variable {s t : State} {ser : Serial} {w : Window} {b : BestMarks}

/-! ### Steps of R101 that read the windows, the owed lists and the Control Port alone -/

theorem owed_modifyPath (c : Nat) {f : PathRecord → PathRecord} (hf : ∀ r, (f r).owed = r.owed) (s : State) :
    (modifyPath c f s).paths.map (·.owed) = s.paths.map (·.owed) := by
  simp only [modifyPath, State.setPaths_fields, List.map_map]
  refine List.map_congr_left fun r _ => ?_
  simp only [Function.comp]
  split
  · exact hf r
  · rfl

/-- The release of a hold owes the verdicts as before. -/
theorem owed_releaseHolds (ser : Serial) (s : State) :
    (releaseHolds ser s).paths.map (·.owed) = s.paths.map (·.owed) := by
  refine foldl_keeps _ _ _ (fun u : State => u.paths.map (·.owed)) fun u c => ?_
  have hjoin (m : Mode) (v : State) : (joinList m c v).paths = v.paths := by simp
  unfold removeHold enqueue
  dsimp only
  repeat' split
  · rfl
  · rfl
  · rw [hjoin]
    refine (owed_modifyPath c ?_ _).trans (owed_modifyPath c ?_ u)
    all_goals exact fun r => rfl
  · refine owed_modifyPath c ?_ u
    exact fun r => rfl

theorem owesSerial_congr (h : t.paths.map (·.owed) = s.paths.map (·.owed)) (x : Serial) :
    owesSerial t x = owesSerial s x := by
  have hproject (u : State) : owesSerial u x = (u.paths.map (·.owed)).any fun l => l.contains x := by
    rw [owesSerial, List.any_map]
    rfl
  rw [hproject, hproject, h]

/-- The tally test reads no more than these blocks. -/
theorem tallyTest_congr (hwindows : t.windows = s.windows) (himage : t.image = s.image) (hnow : t.now = s.now)
    (hctl : t.ctl = s.ctl) (howes : owesSerial t ser = owesSerial s ser) :
    (tallyTest ser t).windows = (tallyTest ser s).windows ∧ (tallyTest ser t).ctl = (tallyTest ser s).ctl := by
  have hfound : findWindow t ser = findWindow s ser := by rw [findWindow, hwindows, findWindow]
  have hset (f : Window → Window) : (modifyWindow ser f t).windows = (modifyWindow ser f s).windows ∧
      (modifyWindow ser f t).ctl = (modifyWindow ser f s).ctl := by
    simp only [modifyWindow, State.setWindows_fields, hwindows, hctl, and_self]
  have hsummary (f : Window → Window) :
      (summaryTest ser (modifyWindow ser f t)).windows = (summaryTest ser (modifyWindow ser f s)).windows ∧
      (summaryTest ser (modifyWindow ser f t)).ctl = (summaryTest ser (modifyWindow ser f s)).ctl := by
    have hfind : findWindow (modifyWindow ser f t) ser = findWindow (modifyWindow ser f s) ser := by
      rw [findWindow, (hset f).1, findWindow]
    have hpost (r : Report) : (postReport r (modifyWindow ser f t)).ctl = (postReport r (modifyWindow ser f s)).ctl :=
      postReport_ctl_congr r hnow himage (hset f).2
    have hwin (r : Report) (u : State) : (postReport r u).windows = u.windows := by simp
    unfold summaryTest
    rw [hfind]
    split
    · exact hset f
    · split
      · simp only [dropWindow, State.setWindows_fields, hwin, hpost, (hset f).1, and_self]
      · exact hset f
  have hrecord (y : Nat) (c : Tally) : (recordTally ser y c t).windows = (recordTally ser y c s).windows ∧
      (recordTally ser y c t).ctl = (recordTally ser y c s).ctl := by
    unfold recordTally
    rw [hfound]
    split
    · exact ⟨hwindows, hctl⟩
    · split
      · exact hsummary _
      · exact ⟨hwindows, hctl⟩
  have hrequest : (requestTally ser t).windows = (requestTally ser s).windows ∧
      (requestTally ser t).ctl = (requestTally ser s).ctl := by
    unfold requestTally requestWindow
    rw [hfound]
    split
    · exact ⟨hwindows, hctl⟩
    · simp only [State.setWindows_fields, modifyWindow, hwindows, hctl, and_self]
  unfold tallyTest
  rw [hfound, howes, State.own, State.own, himage]
  repeat' split
  · exact ⟨hwindows, hctl⟩
  · exact ⟨hwindows, hctl⟩
  · exact hrecord _ _
  · exact ⟨hwindows, hctl⟩
  · exact hrequest
  · exact ⟨hwindows, hctl⟩

/-- R101 at the Window Unit and the Control Port, whatever the order of the records. -/
theorem closeOwn_windows (hw : findWindow s ser = some w) :
    (closeOwn ser s).windows = (settled ser w s).windows ∧ (closeOwn ser s).ctl = s.ctl := by
  have hlist : rewritten ser (fun v => { v with state := .closing, settle := .stopped })
      (modifyWindow ser (fun w => { w with table := expectedTable s }) s) = rewritten ser (·.expecting s) s :=
    rewritten_rewritten (f := fun w => { w with table := expectedTable s }) (fun _ => rfl) rfl
  have hbefore : closeOwn ser s = tallyTest ser (releaseHolds ser (s.setWindows { s.windows with
      list := rewritten ser (·.expecting s) s
      requests := noticeAsked (.windowClose ser) s.windows.requests })) := by
    rw [closeOwn, requestWindow_own_eq, ← hlist]
    rfl
  have hafter := tallyTest_closing hw
  have hsame : (settled ser w s).ctl = s.ctl := rfl
  rw [hbefore, ← hsame, ← hafter]
  refine tallyTest_congr (by simp [closing]) (by simp [closing, afterRelease]) (by simp [closing, afterRelease])
    (by simp [closing, afterRelease]) (owesSerial_congr ?_ ser)
  rw [owed_releaseHolds]
  simp only [closing, afterRelease, State.setWindows_fields, State.setSched_fields, State.setPaths_fields, List.map_map]
  rfl

/-! ### A WINDOW OPEN delivered (R96, R97, R101) -/

/-- The window with its outcome received. -/
def openReceived (ser : Serial) (s : State) : State := modifyWindow ser (fun w => { w with openReceived := true }) s

theorem findWindow_openReceived (hw : findWindow s ser = some w) :
    findWindow (openReceived ser s) ser = some { w with openReceived := true } := by
  rw [openReceived, findWindow_modifyWindow ser ser _ (fun _ => by rfl), hw]
  simp

theorem openOutcome_of_unlisted (h : findWindow s ser = none) : openOutcome ser b s = s := by
  simp [openOutcome, h]

/-- The state that a confirmed window may leave SETTLING from. -/
def confirmed (ser : Serial) (b : BestMarks) (s : State) : State :=
  postReport (.openConfirmed ser (unmarkedPresent s b)) (openReceived ser s)

theorem openOutcome_of_confirmed (hw : findWindow s ser = some w) (h : b.refused &&& ~~~b.taken = 0) :
    openOutcome ser b s = leaveSettling ser (confirmed ser b s) := by
  have hnot : (findWindow s ser).isNone ≠ true := by simp [hw]
  rw [openOutcome, if_neg hnot]
  exact if_pos h

theorem openOutcome_of_refused (hw : findWindow s ser = some w) (h : b.refused &&& ~~~b.taken ≠ 0) :
    openOutcome ser b s = refuseOpen ser b (openReceived ser s) := by
  have hnot : (findWindow s ser).isNone ≠ true := by simp [hw]
  rw [openOutcome, if_neg hnot]
  exact if_neg h

theorem confirmed_frame (ser : Serial) (b : BestMarks) (s : State) : (confirmed ser b s).windows =
    { s.windows with list := rewritten ser (fun w => { w with openReceived := true }) s } ∧
    (confirmed ser b s).paths = s.paths ∧ (confirmed ser b s).sched = s.sched ∧
    (confirmed ser b s).image = s.image ∧ (confirmed ser b s).roster = s.roster := by
  unfold confirmed
  simp [openReceived, modifyWindow, rewritten]

theorem findWindow_confirmed (hw : findWindow s ser = some w) :
    findWindow (confirmed ser b s) ser = some { w with openReceived := true } := by
  rw [findWindow, (confirmed_frame ser b s).1]
  exact findWindow_openReceived hw

theorem rewritten_openReceived (hnodup : (s.windows.list.map (·.serial)).Nodup) (hw : findWindow s ser = some w) :
    rewritten ser (fun w => { w with openReceived := true }) s = rewritten ser (fun _ => { w with openReceived := true }) s :=
  rewritten_of_listed (f := fun w => { w with openReceived := true }) hnodup hw

theorem leaving_congr (himage : t.image = s.image) (hpaths : t.paths = s.paths) (hroster : t.roster = s.roster)
    (w : Window) : ({ w with openReceived := true } : Window).leaving t = { w.leaving s with openReceived := true } := by
  have hpresent : isPresent t = isPresent s := by
    funext n
    rw [isPresent, rosterAt, hroster, isPresent, rosterAt]
  simp only [Window.leaving, himage, hpaths, hpresent]

/-- The window that leaves SETTLING at its outcome. -/
theorem settled_confirmed_windows (hnodup : (s.windows.list.map (·.serial)).Nodup) (hw : findWindow s ser = some w) :
    (settled ser { w with openReceived := true } (confirmed ser b s)).windows = { s.windows with
      list := rewritten ser (fun _ => { w.leaving s with openReceived := true }) s
      requests := noticeAsked (.windowClose ser) s.windows.requests } := by
  obtain ⟨hwindows, hpaths, -, himage, hroster⟩ := confirmed_frame ser b s
  have hleaving := leaving_congr himage hpaths hroster w
  have hlist : rewritten ser (fun v => { v with
        state := .closing, settle := .stopped
        table := (({ w with openReceived := true } : Window).leaving (confirmed ser b s)).table }) (confirmed ser b s) =
      rewritten ser (fun _ => { w.leaving s with openReceived := true }) s := by
    rw [rewritten_rewritten (s := s) (f := fun w => { w with openReceived := true }) (fun _ => rfl)
      (congrArg (·.list) hwindows), rewritten_of_listed (f := fun v => { v with
        openReceived := true, state := .closing, settle := .stopped
        table := (({ w with openReceived := true } : Window).leaving (confirmed ser b s)).table }) hnodup hw, hleaving]
    rfl
  simp only [settled, State.setWindows_fields, hlist]
  rw [hwindows]

theorem settled_confirmed_records : (settled ser { w with openReceived := true } (confirmed ser b s)).paths =
      (afterRelease ser s).paths ∧
    (settled ser { w with openReceived := true } (confirmed ser b s)).sched = (afterRelease ser s).sched := by
  obtain ⟨-, hpaths, hsched, -⟩ := confirmed_frame ser b s
  simp only [settled, afterRelease, State.setWindows_fields, State.setSched_fields, State.setPaths_fields, hpaths, hsched,
    and_self]

theorem afterOpenOutcome_of_unlisted (h : findWindow s ser = none) : afterOpenOutcome ser b s = s := by
  rw [afterOpenOutcome, h]

theorem afterOpenOutcome_of_refused (hw : findWindow s ser = some w) (h : b.refused &&& ~~~b.taken ≠ 0) :
    afterOpenOutcome ser b s = (afterCancel ser s).setWindows { s.windows with
      list := s.windows.list.filter fun x => x.serial != ser
      requests := noticeAsked (.windowCancel ser) (s.windows.requests.filter fun q =>
        q.payload.windowSerial != some ser || q.payload.kind == 4) } := by
  rw [afterOpenOutcome, hw]
  exact if_pos h

theorem afterOpenOutcome_of_ready (hw : findWindow s ser = some w) (h : b.refused &&& ~~~b.taken = 0)
    (hready : w.state = .settling ∧ w.settle = .expired) :
    afterOpenOutcome ser b s = (afterRelease ser s).setWindows { s.windows with
      list := rewritten ser (fun _ => { w.leaving s with openReceived := true }) s
      requests := noticeAsked (.windowClose ser) s.windows.requests } := by
  rw [afterOpenOutcome, hw]
  exact (if_neg (not_not.2 h)).trans (if_pos hready)

theorem afterOpenOutcome_of_received (hw : findWindow s ser = some w) (h : b.refused &&& ~~~b.taken = 0)
    (hready : ¬ (w.state = .settling ∧ w.settle = .expired)) :
    afterOpenOutcome ser b s =
      s.setWindows { s.windows with list := rewritten ser (fun _ => { w with openReceived := true }) s } := by
  rw [afterOpenOutcome, hw]
  exact (if_neg (not_not.2 h)).trans (if_neg hready)

theorem leaveSettling_of_not_ready (hw : findWindow s ser = some w)
    (h : ¬ (w.state = .settling ∧ w.settle = .expired)) : leaveSettling ser s = s := by
  rw [leaveSettling, hw]
  exact if_neg fun hall => h ⟨hall.1, hall.2.1⟩

theorem openOutcome_windows_of_refused (hw : findWindow s ser = some w) (hrefused : b.refused &&& ~~~b.taken ≠ 0) :
    (openOutcome ser b s).windows = (afterOpenOutcome ser b s).windows := by
  have hcancel (u : State) : (cancelWindowEntry ser u).windows = u.windows.without ser := by
    simp [cancelWindowEntry, dropOwed, dropWindowRequests, dropWindow, WindowUnit.without, State.setPaths,
      State.setWindows, bne]
  have hwin (r : Report) (u : State) : (postReport r u).windows = u.windows := by simp
  have hlist := filter_rewritten ser (fun w => { w with openReceived := true }) (fun _ => rfl) s
  rw [openOutcome_of_refused hw hrefused, afterOpenOutcome_of_refused hw hrefused, refuseOpen, hwin,
    requestWindow_own_eq]
  simp only [State.setWindows_fields, hcancel, WindowUnit.without, openReceived, modifyWindow]
  exact congrArg (fun l => ({ s.windows with list := l, requests := _ } : WindowUnit)) hlist

/-- The outcome of a WINDOW OPEN at the Window Unit. -/
theorem openOutcome_windows (hnodup : (s.windows.list.map (·.serial)).Nodup) :
    (openOutcome ser b s).windows = (afterOpenOutcome ser b s).windows := by
  cases hw : findWindow s ser with
  | none => rw [openOutcome_of_unlisted hw, afterOpenOutcome_of_unlisted hw]
  | some w =>
    by_cases hrefused : b.refused &&& ~~~b.taken = 0
    · rw [openOutcome_of_confirmed hw hrefused]
      have hfound := findWindow_confirmed (b := b) hw
      by_cases hready : w.state = .settling ∧ w.settle = .expired
      · obtain ⟨hstate, hsettle⟩ := hready
        rw [afterOpenOutcome_of_ready hw hrefused ⟨hstate, hsettle⟩,
          leaveSettling_of_ready hfound hstate hsettle rfl, (closeOwn_windows hfound).1, settled_confirmed_windows hnodup hw]
        rfl
      · rw [afterOpenOutcome_of_received hw hrefused hready, leaveSettling_of_not_ready hfound hready,
          (confirmed_frame ser b s).1, rewritten_openReceived hnodup hw]
        rfl
    · exact openOutcome_windows_of_refused hw hrefused

/-- The same at the records and the lists. -/
theorem openOutcome_records (hnd : (pathOrder s).Nodup) :
    (openOutcome ser b s).paths = (afterOpenOutcome ser b s).paths ∧
      (openOutcome ser b s).sched = (afterOpenOutcome ser b s).sched := by
  cases hw : findWindow s ser with
  | none =>
    rw [openOutcome_of_unlisted hw, afterOpenOutcome_of_unlisted hw]
    exact ⟨rfl, rfl⟩
  | some w =>
    by_cases hrefused : b.refused &&& ~~~b.taken = 0
    · rw [openOutcome_of_confirmed hw hrefused]
      have hfound := findWindow_confirmed (b := b) hw
      obtain ⟨-, hpaths, hsched, -⟩ := confirmed_frame ser b s
      by_cases hready : w.state = .settling ∧ w.settle = .expired
      · obtain ⟨hstate, hsettle⟩ := hready
        have hnd' : (pathOrder (confirmed ser b s)).Nodup := by rwa [pathOrder, hpaths]
        rw [afterOpenOutcome_of_ready hw hrefused ⟨hstate, hsettle⟩,
          leaveSettling_of_ready hfound hstate hsettle rfl, closeOwn_eq hnd' hfound]
        exact settled_confirmed_records
      · rw [afterOpenOutcome_of_received hw hrefused hready, leaveSettling_of_not_ready hfound hready]
        exact ⟨hpaths, hsched⟩
    · rw [openOutcome_of_refused hw hrefused, afterOpenOutcome_of_refused hw hrefused, refuseOpen,
        cancelWindowEntry_eq ser (openReceived ser s) hnd, requestWindow_own_eq]
      simp [afterCancel, afterRelease, openReceived, modifyWindow, released]

/-- The report it brings. -/
theorem openOutcome_ctl (hw : findWindow s ser = some w) : (openOutcome ser b s).ctl =
    (postReport (if b.refused &&& ~~~b.taken ≠ 0 then .openRefused ser (b.refused &&& ~~~b.taken)
      else .openConfirmed ser (unmarkedPresent s b)) s).ctl := by
  by_cases hrefused : b.refused &&& ~~~b.taken = 0
  · have hfound := findWindow_confirmed (b := b) hw
    have hctl : (confirmed ser b s).ctl = (postReport (.openConfirmed ser (unmarkedPresent s b)) s).ctl :=
      postReport_ctl_congr _ rfl rfl rfl
    rw [openOutcome_of_confirmed hw hrefused, if_neg (not_not.2 hrefused), ← hctl]
    by_cases hready : w.state = .settling ∧ w.settle = .expired
    · rw [leaveSettling_of_ready hfound hready.1 hready.2 rfl, (closeOwn_windows hfound).2]
    · rw [leaveSettling_of_not_ready hfound hready]
  · rw [openOutcome_of_refused hw hrefused, if_pos hrefused, refuseOpen]
    exact postReport_ctl_congr _ (by simp [openReceived, modifyWindow]) (by simp [openReceived, modifyWindow])
      (by simp [openReceived, modifyWindow])

/-! ### A WINDOW CLOSE delivered (R102, R110) -/

theorem markUnreached_eq (own : Nat) (b : BestMarks) (w : Window) : w.markUnreached own b = w.delivered own b := by
  have htable : (fun n => if w.tableAt n = .awaited ∧ n ≠ own ∧ (!stationIn b.taken n) = true then
      TallyEntry.unreached else w.tableAt n) =
      fun n => if n ≠ own ∧ w.tableAt n = .awaited ∧ stationIn b.taken n = false then
        TallyEntry.unreached else w.tableAt n := by
    funext n
    refine if_congr ?_ rfl rfl
    rw [Bool.not_eq_true', and_left_comm]
  rw [Window.markUnreached, Window.delivered, htable]

theorem closeOutcome_of_unlisted (h : findWindow s ser = none) : closeOutcome ser b s = s := by
  rw [closeOutcome, h]

theorem closeOutcome_of_other (hw : findWindow s ser = some w) (h : w.state ≠ .closing) : closeOutcome ser b s = s := by
  rw [closeOutcome, hw]
  exact if_neg h

/-- The window of a delivered WINDOW CLOSE, before the summary test. -/
theorem modifyWindow_delivered (hnodup : (s.windows.list.map (·.serial)).Nodup) (hw : findWindow s ser = some w) :
    modifyWindow ser (·.markUnreached s.own b) s = s.setWindows { s.windows with
      list := rewritten ser (fun _ => w.delivered s.image.station b) s } := by
  rw [← markUnreached_eq, ← rewritten_of_listed (f := (·.markUnreached s.image.station b)) hnodup hw]
  rfl

theorem findWindow_modifyWindow_delivered (hw : findWindow s ser = some w) :
    findWindow (modifyWindow ser (·.markUnreached s.own b) s) ser = some (w.delivered s.image.station b) := by
  rw [findWindow_modifyWindow ser ser _ (fun _ => by rfl), hw, Option.map_some, if_pos rfl, markUnreached_eq]
  rfl

theorem closeOutcome_eq (hw : findWindow s ser = some w) (hstate : w.state = .closing) : closeOutcome ser b s =
    if (w.delivered s.image.station b).table.all (· != .awaited) then
      dropWindow ser (postReport (.windowSummary (w.delivered s.image.station b).summary)
        (modifyWindow ser (·.markUnreached s.own b) s))
    else modifyWindow ser (·.markUnreached s.own b) s := by
  have hfound := findWindow_modifyWindow_delivered (b := b) hw
  have hstep : closeOutcome ser b s = summaryTest ser (modifyWindow ser (·.markUnreached s.own b) s) := by
    rw [closeOutcome, hw]
    exact if_pos hstate
  rw [hstep]
  split
  · rename_i hnone
    exact summaryTest_of_due hfound ⟨rfl, hnone⟩
  · rename_i hsome
    exact summaryTest_of_not_due hfound fun h => hsome h.2

theorem closeOutcome_windows (hnodup : (s.windows.list.map (·.serial)).Nodup) :
    (closeOutcome ser b s).windows = (afterCloseOutcome ser b s).windows := by
  cases hw : findWindow s ser with
  | none => rw [closeOutcome_of_unlisted hw, afterCloseOutcome, hw]
  | some w =>
    have hwin (r : Report) (u : State) : (postReport r u).windows = u.windows := by simp
    by_cases hstate : w.state = .closing
    · have hspec : afterCloseOutcome ser b s = s.setWindows { s.windows with
          list := if (w.delivered s.image.station b).table.all (· != .awaited) then
              s.windows.list.filter fun x => x.serial != ser
            else rewritten ser (fun _ => w.delivered s.image.station b) s } := by
        rw [afterCloseOutcome, hw]
        exact if_neg (not_not.2 hstate)
      have hlist := filter_rewritten ser (fun v => { w.delivered s.image.station b with serial := v.serial })
        (fun _ => rfl) s
      rw [closeOutcome_eq hw hstate, hspec, modifyWindow_delivered hnodup hw]
      split
      · rw [dropWindow]
        simp only [State.setWindows_fields, hwin]
        exact congrArg (fun l => ({ s.windows with list := l } : WindowUnit))
          ((congrArg _ (rewritten_of_listed (f := (·.delivered s.image.station b)) hnodup hw).symm).trans
            (filter_rewritten ser (·.delivered s.image.station b) (fun _ => rfl) s))
      · rfl
    · have hspec : afterCloseOutcome ser b s = s := by
        rw [afterCloseOutcome, hw]
        exact if_pos hstate
      rw [closeOutcome_of_other hw hstate, hspec]

theorem closeOutcome_ctl (hw : findWindow s ser = some w) (hstate : w.state = .closing) : (closeOutcome ser b s).ctl =
    if (w.delivered s.image.station b).table.all (· != .awaited) then
      (postReport (.windowSummary (w.delivered s.image.station b).summary) s).ctl
    else s.ctl := by
  rw [closeOutcome_eq hw hstate]
  split
  · exact postReport_ctl_congr _ rfl rfl rfl
  · rfl

/-! ### A TALLY delivered (R107) -/

theorem tallyOutcome_of_sent (hw : findWindow s ser = some w) (hsent : w.state = .closed ∧ w.tally = .sent) :
    tallyOutcome ser b s = if stationIn b.taken ser.opener then dropWindow ser s
      else if isPresent s ser.opener then requestTally ser s
      else modifyWindow ser (fun w => { w with tally := .unsent }) s := by
  rw [tallyOutcome, hw]
  exact if_pos hsent

theorem afterTallyOutcome_of_sent (hw : findWindow s ser = some w) (hsent : w.state = .closed ∧ w.tally = .sent) :
    afterTallyOutcome ser b s =
      if stationIn b.taken ser.opener = true then
        s.setWindows { s.windows with list := s.windows.list.filter fun x => x.serial != ser }
      else if isPresent s ser.opener = true then
        s.setWindows { s.windows with
          list := rewritten ser (fun _ => { w with tally := .pending }) s
          requests := tallyAsked ser w.counts s.windows.requests }
      else s.setWindows { s.windows with list := rewritten ser (fun _ => { w with tally := .unsent }) s } := by
  have hnot : ¬ (w.state ≠ .closed ∨ w.tally ≠ .sent) := fun h => h.elim (· hsent.1) (· hsent.2)
  rw [afterTallyOutcome, hw]
  exact if_neg hnot

/-- Only a CLOSED window whose TALLY was sent reads its outcome. -/
theorem tallyOutcome_of_other (h : ∀ w, findWindow s ser = some w → ¬ (w.state = .closed ∧ w.tally = .sent)) :
    tallyOutcome ser b s = s ∧ afterTallyOutcome ser b s = s := by
  rw [tallyOutcome, afterTallyOutcome]
  cases hw : findWindow s ser with
  | none => exact ⟨rfl, rfl⟩
  | some w => exact ⟨if_neg (h w hw), if_pos (not_and_or.1 (h w hw))⟩

theorem tallyOutcome_windows (hnodup : (s.windows.list.map (·.serial)).Nodup) :
    (tallyOutcome ser b s).windows = (afterTallyOutcome ser b s).windows := by
  by_cases hsent : ∃ w, findWindow s ser = some w ∧ w.state = .closed ∧ w.tally = .sent
  · obtain ⟨w, hw, hsent⟩ := hsent
    rw [tallyOutcome_of_sent hw hsent, afterTallyOutcome_of_sent hw hsent,
      ← rewritten_of_listed (f := fun w => { w with tally := .unsent }) hnodup hw,
      ← rewritten_of_listed (f := fun w => { w with tally := .pending }) hnodup hw, requestTally_eq hw]
    repeat' split
    all_goals rfl
  · obtain ⟨hmodel, hspec⟩ := tallyOutcome_of_other (b := b) fun w hw h => hsent ⟨w, hw, h⟩
    rw [hmodel, hspec]

/-! ### The JOIN delivered (R161, R162, R168) -/

theorem joinedEntries_entries (s : State) : (joinedEntries s).roster.entries = s.roster.entries.mapIdx fun k e =>
    if k + 1 = s.image.station then
      { e with
        present := true, missRun := 0
        advert := some (if s.image.gradeLimit = 2 then ⟨2, true⟩ else ⟨1, false⟩) }
    else e := by
  rw [joinedEntries, modifyRoster_entries]
  refine List.ext_getElem? fun k => ?_
  rw [List.getElem?_mapIdx]
  split
  · rename_i hpos
    rw [List.getElem?_modify]
    by_cases hk : s.own - 1 = k
    · have hown : k + 1 = s.image.station := by rw [State.own] at *; omega
      simp only [hk, hown, if_true]
      rfl
    · have hown : k + 1 ≠ s.image.station := by rw [State.own] at *; omega
      simp [hk, hown]
  · rename_i hzero
    have hown : k + 1 ≠ s.image.station := by rw [State.own] at *; omega
    simp [hown]

theorem joinOutcome_roster (s : State) : (joinOutcome s).roster = (afterJoinOutcome s).roster := by
  have hrecomputed : (recompute (joinedEntries s)).roster = (afterJoinOutcome s).roster := by
    rw [recompute_roster, joinedEntries_roster, joinedEntries_entries]
    rfl
  rw [joinOutcome_eq]
  split
  · exact hrecomputed
  · exact hrecomputed

end Sys2Proof.Machine
end

