-- ==== Sys2Proof/Proofs/Outcomes.lean ====
section
/-! The outcome of a notice at the block that asked for it (R50, R51, R55, R96, R101, R102, R107, R152, R156, R162). -/

namespace Sys2Proof.Machine

variable {s t : State} {ser : Serial} {w : Window} {b : BestMarks} {r : Request} {e : Ending}

/-! ### What an outcome reads -/

/-- The blocks that an outcome reads are the same. -/
structure Agree (s t : State) : Prop where
  image   : t.image = s.image
  windows : t.windows = s.windows
  roster  : t.roster = s.roster
  paths   : t.paths = s.paths
  sched   : t.sched = s.sched

theorem Agree.refl (s : State) : Agree s s := ⟨rfl, rfl, rfl, rfl, rfl⟩

theorem Agree.findWindow (h : Agree s t) (ser : Serial) : findWindow t ser = findWindow s ser := by
  rw [Machine.findWindow, h.windows, Machine.findWindow]

theorem Agree.isPresent (h : Agree s t) : isPresent t = isPresent s := by
  funext n
  rw [Machine.isPresent, rosterAt, h.roster, Machine.isPresent, rosterAt]

theorem Agree.rewritten (h : Agree s t) (ser : Serial) (f : Window → Window) :
    rewritten ser f t = rewritten ser f s := by
  rw [Machine.rewritten, h.windows, Machine.rewritten]

theorem Agree.leaving (h : Agree s t) (w : Window) : w.leaving t = w.leaving s := by
  simp only [Window.leaving, h.isPresent, h.image, h.paths]

theorem Agree.afterRelease (h : Agree s t) (ser : Serial) : Agree (afterRelease ser s) (afterRelease ser t) := by
  obtain ⟨himage, hwindows, hroster, hpaths, hsched⟩ := h
  constructor <;> simp [Machine.afterRelease, himage, hwindows, hroster, hpaths, hsched]

theorem Agree.afterCancel (h : Agree s t) (ser : Serial) : Agree (afterCancel ser s) (afterCancel ser t) := by
  obtain ⟨himage, hwindows, hroster, hpaths, hsched⟩ := h.afterRelease ser
  constructor <;> simp [Machine.afterCancel, himage, hwindows, hroster, hpaths, hsched]

theorem Agree.setWindows (h : Agree s t) (x : WindowUnit) : Agree (s.setWindows x) (t.setWindows x) := by
  obtain ⟨himage, hwindows, hroster, hpaths, hsched⟩ := h
  constructor <;> simp [himage, hroster, hpaths, hsched]

theorem Agree.afterOpenOutcome (h : Agree s t) : Agree (afterOpenOutcome ser b s) (afterOpenOutcome ser b t) := by
  cases hw : Machine.findWindow s ser with
  | none => rwa [afterOpenOutcome_of_unlisted hw, afterOpenOutcome_of_unlisted ((h.findWindow ser).trans hw)]
  | some w =>
    have hw' := (h.findWindow ser).trans hw
    by_cases hrefused : b.refused &&& ~~~b.taken = 0
    · by_cases hready : w.state = .settling ∧ w.settle = .expired
      · rw [afterOpenOutcome_of_ready hw hrefused hready, afterOpenOutcome_of_ready hw' hrefused hready, h.leaving,
          h.rewritten, h.windows]
        exact (h.afterRelease ser).setWindows _
      · rw [afterOpenOutcome_of_received hw hrefused hready, afterOpenOutcome_of_received hw' hrefused hready,
          h.rewritten, h.windows]
        exact h.setWindows _
    · rw [afterOpenOutcome_of_refused hw hrefused, afterOpenOutcome_of_refused hw' hrefused, h.windows]
      exact (h.afterCancel ser).setWindows _

theorem afterCloseOutcome_of_other (h : ∀ w, findWindow s ser = some w → w.state ≠ .closing) :
    afterCloseOutcome ser b s = s := by
  rw [afterCloseOutcome]
  cases hw : findWindow s ser with
  | none => rfl
  | some w => exact if_pos (h w hw)

theorem afterCloseOutcome_of_closing (hw : findWindow s ser = some w) (hstate : w.state = .closing) :
    afterCloseOutcome ser b s = s.setWindows { s.windows with
      list := if (w.delivered s.image.station b).table.all (· != .awaited) then
          s.windows.list.filter fun x => x.serial != ser
        else rewritten ser (fun _ => w.delivered s.image.station b) s } := by
  rw [afterCloseOutcome, hw]
  exact if_neg (not_not.2 hstate)

theorem Agree.afterCloseOutcome (h : Agree s t) : Agree (afterCloseOutcome ser b s) (afterCloseOutcome ser b t) := by
  by_cases hclosing : ∃ w, Machine.findWindow s ser = some w ∧ w.state = .closing
  · obtain ⟨w, hw, hstate⟩ := hclosing
    rw [afterCloseOutcome_of_closing hw hstate, afterCloseOutcome_of_closing ((h.findWindow ser).trans hw) hstate,
      h.rewritten, h.windows, h.image]
    exact h.setWindows _
  · have hnot (w : Window) (hw : Machine.findWindow s ser = some w) : w.state ≠ .closing :=
      fun hstate => hclosing ⟨w, hw, hstate⟩
    rwa [afterCloseOutcome_of_other hnot, afterCloseOutcome_of_other fun w hw => hnot w ((h.findWindow ser) ▸ hw)]

theorem Agree.afterTallyOutcome (h : Agree s t) : Agree (afterTallyOutcome ser b s) (afterTallyOutcome ser b t) := by
  by_cases hsent : ∃ w, Machine.findWindow s ser = some w ∧ w.state = .closed ∧ w.tally = .sent
  · obtain ⟨w, hw, hsent⟩ := hsent
    rw [afterTallyOutcome_of_sent hw hsent, afterTallyOutcome_of_sent ((h.findWindow ser).trans hw) hsent,
      h.rewritten, h.rewritten, h.windows, h.isPresent]
    split
    · exact h.setWindows _
    · split
      · exact h.setWindows _
      · exact h.setWindows _
  · have hnot (w : Window) (hw : Machine.findWindow s ser = some w) : ¬ (w.state = .closed ∧ w.tally = .sent) :=
      fun hboth => hsent ⟨w, hw, hboth⟩
    rwa [(tallyOutcome_of_other (b := b) hnot).2,
      (tallyOutcome_of_other (b := b) fun w hw => hnot w ((h.findWindow ser) ▸ hw)).2]

theorem Agree.afterJoinOutcome (h : Agree s t) : Agree (afterJoinOutcome s) (afterJoinOutcome t) := by
  obtain ⟨himage, hwindows, hroster, hpaths, hsched⟩ := h
  constructor <;> simp [Machine.afterJoinOutcome, himage, hwindows, hroster, hpaths, hsched]

theorem Agree.afterOutcome (h : Agree s t) : Agree (afterOutcome r b s) (afterOutcome r b t) := by
  unfold Machine.afterOutcome
  cases r.payload with
  | windowOpen ser scope =>
    dsimp only
    split
    · exact h.afterOpenOutcome
    · exact h
  | windowClose ser => exact h.afterCloseOutcome
  | tally ser x =>
    dsimp only
    split
    · exact h.afterTallyOutcome
    · exact h
  | join g batch => exact h.afterJoinOutcome
  | probeStart | probeEnd | windowCancel | present | sighting | stray | spanAlarm | loopReset => exact h

theorem Agree.outcomeReports (h : Agree s t) : outcomeReports r b t = outcomeReports r b s := by
  simp only [Machine.outcomeReports, h.findWindow, h.image, unmarkedPresent, State.own, h.isPresent]

/-! ### What an outcome writes -/

theorem afterOpenOutcome_frame : (afterOpenOutcome ser b s).roster = s.roster ∧
    (afterOpenOutcome ser b s).image = s.image := by
  unfold afterOpenOutcome
  repeat' split
  all_goals exact ⟨rfl, rfl⟩

theorem afterCloseOutcome_frame : (afterCloseOutcome ser b s).roster = s.roster ∧
    (afterCloseOutcome ser b s).image = s.image ∧ (afterCloseOutcome ser b s).paths = s.paths ∧
    (afterCloseOutcome ser b s).sched = s.sched := by
  unfold afterCloseOutcome
  repeat' split
  all_goals exact ⟨rfl, rfl, rfl, rfl⟩

theorem afterTallyOutcome_frame : (afterTallyOutcome ser b s).roster = s.roster ∧
    (afterTallyOutcome ser b s).image = s.image ∧ (afterTallyOutcome ser b s).paths = s.paths ∧
    (afterTallyOutcome ser b s).sched = s.sched := by
  unfold afterTallyOutcome
  repeat' split
  all_goals exact ⟨rfl, rfl, rfl, rfl⟩

/-- Only a JOIN's outcome writes the roster. -/
theorem afterOutcome_roster (h : r.payload.kind ≠ 1) : (afterOutcome r b s).roster = s.roster := by
  unfold afterOutcome
  cases hp : r.payload with
  | windowOpen ser scope =>
    dsimp only
    split
    · exact afterOpenOutcome_frame.1
    · rfl
  | windowClose ser => exact afterCloseOutcome_frame.1
  | tally ser x =>
    dsimp only
    split
    · exact afterTallyOutcome_frame.1
    · rfl
  | join g batch => exact absurd (by rw [hp]; rfl) h
  | probeStart | probeEnd | windowCancel | present | sighting | stray | spanAlarm | loopReset => rfl

theorem afterOutcome_image : (afterOutcome r b s).image = s.image := by
  unfold afterOutcome
  repeat' split
  exacts [afterOpenOutcome_frame.2, rfl, afterCloseOutcome_frame.2.1, afterTallyOutcome_frame.2.1, rfl, rfl, rfl]

/-- Only a first WINDOW OPEN's outcome writes the records. -/
theorem afterOutcome_records (h : r.payload.kind ≠ 3) : (afterOutcome r b s).paths = s.paths ∧
    (afterOutcome r b s).sched = s.sched := by
  unfold afterOutcome
  cases hp : r.payload with
  | windowOpen ser scope => exact absurd (by rw [hp]; rfl) h
  | windowClose ser => exact afterCloseOutcome_frame.2.2
  | tally ser x =>
    dsimp only
    split
    · exact afterTallyOutcome_frame.2.2
    · exact ⟨rfl, rfl⟩
  | join g batch => exact ⟨rfl, rfl⟩
  | probeStart | probeEnd | windowCancel | present | sighting | stray | spanAlarm | loopReset => exact ⟨rfl, rfl⟩

/-! ### The model's outcome against it -/

theorem handOutcome_windows (hnodup : (s.windows.list.map (·.serial)).Nodup) :
    (handOutcome r e b s).windows = (afterOutcome r b s).windows := by
  unfold handOutcome afterOutcome
  cases r.payload with
  | windowOpen ser scope =>
    dsimp only
    split
    · exact openOutcome_windows hnodup
    · rfl
  | windowClose ser => exact closeOutcome_windows hnodup
  | tally ser x =>
    dsimp only
    split
    · exact tallyOutcome_windows hnodup
    · rfl
  | join g batch => exact (by simp : (joinOutcome s).windows = s.windows)
  | probeStart c ep m d => exact (by simp : (startOutcome c ep b (e == .failed) s).windows = s.windows)
  | probeEnd c ep v f => exact (by simp : (endOutcome c ep s).windows = s.windows)
  | windowCancel | present | sighting | stray | spanAlarm | loopReset => rfl

theorem handOutcome_roster : (handOutcome r e b s).roster = (afterOutcome r b s).roster := by
  unfold handOutcome afterOutcome
  cases r.payload with
  | windowOpen ser scope =>
    dsimp only
    split
    · exact (by simp : (openOutcome ser b s).roster = s.roster).trans afterOpenOutcome_frame.1.symm
    · rfl
  | windowClose ser => exact (by simp : (closeOutcome ser b s).roster = s.roster).trans afterCloseOutcome_frame.1.symm
  | tally ser x =>
    dsimp only
    split
    · exact (by simp : (tallyOutcome ser b s).roster = s.roster).trans afterTallyOutcome_frame.1.symm
    · rfl
  | join g batch => exact joinOutcome_roster s
  | probeStart c ep m d => exact (by simp : (startOutcome c ep b (e == .failed) s).roster = s.roster)
  | probeEnd c ep v f => exact (by simp : (endOutcome c ep s).roster = s.roster)
  | windowCancel | present | sighting | stray | spanAlarm | loopReset => rfl

theorem handOutcome_records_of_kind (h : r.payload.kind ≠ 3) : (handOutcome r e b s).paths = s.paths ∧
    (handOutcome r e b s).sched = s.sched := by
  unfold handOutcome
  cases hp : r.payload with
  | windowOpen ser scope => exact absurd (by rw [hp]; rfl) h
  | windowClose ser => simp
  | tally ser x =>
    dsimp only
    split
    · simp
    · exact ⟨rfl, rfl⟩
  | join g batch => simp
  | probeStart c ep m d => simp
  | probeEnd c ep v f => simp
  | windowCancel | present | sighting | stray | spanAlarm | loopReset => exact ⟨rfl, rfl⟩

theorem handOutcome_records (hnd : (pathOrder s).Nodup) :
    (handOutcome r e b s).paths = (afterOutcome r b s).paths ∧ (handOutcome r e b s).sched = (afterOutcome r b s).sched := by
  by_cases h : r.payload.kind = 3
  · unfold handOutcome afterOutcome
    cases hp : r.payload with
    | windowOpen ser scope =>
      dsimp only
      split
      · exact openOutcome_records hnd
      · exact ⟨rfl, rfl⟩
    | _ => rw [hp] at h; cases h
  · obtain ⟨hpaths, hsched⟩ := handOutcome_records_of_kind (e := e) (b := b) (s := s) h
    obtain ⟨hpaths', hsched'⟩ := afterOutcome_records (b := b) (s := s) h
    exact ⟨hpaths.trans hpaths'.symm, hsched.trans hsched'.symm⟩

theorem handOutcome_loop : (handOutcome r e b s).loop =
    if r.payload.kind = 12 then { s.loop with quarantine := false } else s.loop := by
  unfold handOutcome
  cases hp : r.payload with
  | loopReset => rfl
  | windowOpen ser scope =>
    dsimp only
    split
    · exact (by simp : (openOutcome ser b s).loop = s.loop)
    · rfl
  | tally ser x =>
    dsimp only
    split
    · exact (by simp : (tallyOutcome ser b s).loop = s.loop)
    · rfl
  | windowClose ser => exact (by simp : (closeOutcome ser b s).loop = s.loop)
  | join g batch => exact (by simp : (joinOutcome s).loop = s.loop)
  | probeStart c ep m d => exact (by simp : (startOutcome c ep b (e == .failed) s).loop = s.loop)
  | probeEnd c ep v f => exact (by simp : (endOutcome c ep s).loop = s.loop)
  | windowCancel | present | sighting | stray | spanAlarm => rfl

theorem handOutcome_lines (h : r.payload.kind ≠ 7) : (handOutcome r e b s).lines = s.lines := by
  unfold handOutcome
  cases hp : r.payload with
  | probeStart c ep m d => exact absurd (by rw [hp]; rfl) h
  | windowOpen ser scope =>
    dsimp only
    split
    · simp
    · rfl
  | tally ser x =>
    dsimp only
    split
    · simp
    · rfl
  | windowClose ser => simp
  | join g batch => simp
  | probeEnd c ep v f => simp
  | windowCancel | present | sighting | stray | spanAlarm | loopReset => rfl

/-! ### The slots -/

theorem joinOutcome_probes (s : State) : (joinOutcome s).probes = { s.probes with
    slots := s.probes.slots.map fun o => o.map fun p =>
      if p.phase = .driving ∧ (joinOutcome s).roster.grade < s.roster.grade then { p with lowGrade := true } else p } := by
  have hrecomputed : (joinOutcome s).probes = (recompute (joinedEntries s)).probes := by
    rw [joinOutcome_eq]
    split
    · rfl
    · simp
  have hgrade : (joinOutcome s).roster.grade = loopGradeOf (joinedEntries s).roster.entries := by
    rw [joinOutcome_roster, afterJoinOutcome, joinedEntries_entries]
    rfl
  have hbefore : (joinedEntries s).probes = s.probes := by rw [joinedEntries_eq]; rfl
  have hgrade' : (joinedEntries s).roster.grade = s.roster.grade := by rw [joinedEntries_roster]
  rw [hrecomputed, recompute_probes, hbefore, hgrade, hgrade']

/-- Every outcome but those of PROBE START, PROBE END and JOIN leaves the slots. -/
theorem handOutcome_probes (hstart : r.payload.kind ≠ 7) (hend : r.payload.kind ≠ 9) (hjoin : r.payload.kind ≠ 1) :
    (handOutcome r e b s).probes = s.probes := by
  unfold handOutcome
  cases hp : r.payload with
  | probeStart c ep m d => exact absurd (by rw [hp]; rfl) hstart
  | probeEnd c ep v f => exact absurd (by rw [hp]; rfl) hend
  | join g batch => exact absurd (by rw [hp]; rfl) hjoin
  | windowOpen ser scope =>
    dsimp only
    split
    · simp
    · rfl
  | tally ser x =>
    dsimp only
    split
    · simp
    · rfl
  | windowClose ser => simp
  | windowCancel | present | sighting | stray | spanAlarm | loopReset => rfl

theorem slotIn_some {ph : Phase} {c ep i : Nat} (h : slotIn s ph c ep = some i) :
    ∃ p, probeAt s i = some p ∧ p.phase = ph ∧ p.circuit = c ∧ p.epoch = ep ∧ i < s.probes.slots.length := by
  obtain ⟨hlt, hcond, -⟩ := List.findIdx?_eq_some_iff_getElem.1 h
  obtain ⟨p, hp, hmatch⟩ := (Option.any_eq_true _ _).1 hcond
  simp only [Bool.and_eq_true, beq_iff_eq] at hmatch
  obtain ⟨⟨hphase, hcircuit⟩, hepoch⟩ := hmatch
  refine ⟨p, ?_, hphase, hcircuit, hepoch, hlt⟩
  rw [probeAt, List.getD_eq_getElem?_getD, List.getElem?_eq_getElem hlt, hp]
  rfl

theorem slotIn_of_probeAt {ph : Phase} {i : Nat} {p : Probe} (hok : ((probesOf s).map (·.circuit)).Nodup)
    (hp : probeAt s i = some p) (hphase : p.phase = ph) : slotIn s ph p.circuit p.epoch = some i := by
  cases hslot : slotIn s ph p.circuit p.epoch with
  | none =>
    rw [slotIn, List.findIdx?_eq_none_iff] at hslot
    have hlt := lt_of_probeAt hp
    have hmem : some p ∈ s.probes.slots := by
      rw [probeAt, List.getD_eq_getElem?_getD, List.getElem?_eq_getElem hlt] at hp
      exact (show s.probes.slots[i] = some p from hp) ▸ List.getElem_mem hlt
    have hno := hslot _ hmem
    simp [hphase] at hno
  | some j =>
    obtain ⟨q, hq, -, hcircuit, -, -⟩ := slotIn_some hslot
    rw [circuits_nodup_iff.1 hok j i q p hq hp hcircuit]

/-- A start's or an end's outcome concerns a slot that is in no DRIVING. -/
theorem probeAt_startOutcome {c ep i : Nat} {failed : Bool} {p : Probe} (hp : probeAt s i = some p)
    (hphase : p.phase ≠ .claiming) : probeAt (startOutcome c ep b failed s) i = some p := by
  unfold startOutcome enterDriving
  split
  · rename_i j hj
    obtain ⟨q, hq, hclaiming, -, -, hlt⟩ := slotIn_some hj
    split
    · exact hp
    · split
      · exact hp
      · have hne : j ≠ i := by
          rintro rfl
          rw [hq] at hp
          exact hphase (Option.some.inj hp ▸ hclaiming)
        have hput (x : Option Probe) : probeAt (putSlot j x s) i = some p := by
          rw [probeAt_putSlot j i x s hlt, if_neg hne, hp]
        exact hput _
  · exact hp

theorem probeAt_endOutcome {c ep i : Nat} {p : Probe} (hp : probeAt s i = some p) (hphase : p.phase ≠ .closing) :
    probeAt (endOutcome c ep s) i = some p := by
  unfold endOutcome
  split
  · rename_i j hj
    obtain ⟨q, hq, hclosing, -, -, hlt⟩ := slotIn_some hj
    have hne : j ≠ i := by
      rintro rfl
      rw [hq] at hp
      exact hphase (Option.some.inj hp ▸ hclosing)
    rw [probeAt_putSlot j i none s hlt, if_neg hne, hp]
  · exact hp

/-- A slot in DRIVING takes from an outcome no more than LOW-GRADE, at a JOIN that lets the grade fall. -/
theorem handOutcome_driving {i : Nat} {p : Probe} (hp : probeAt s i = some p) (hphase : p.phase = .driving) :
    probeAt (handOutcome r e b s) i = some { p with
      lowGrade := p.lowGrade || decide ((afterOutcome r b s).roster.grade < s.roster.grade) } := by
  by_cases hjoin : r.payload.kind = 1
  · obtain ⟨g, batch, hpay⟩ : ∃ g batch, r.payload = .join g batch := by
      cases hpay : r.payload with
      | join g batch => exact ⟨g, batch, rfl⟩
      | _ => rw [hpay] at hjoin; cases hjoin
    have hhand : handOutcome r e b s = joinOutcome s := by rw [handOutcome, hpay]
    have hafter : (afterOutcome r b s).roster = (joinOutcome s).roster := by
      rw [joinOutcome_roster, afterOutcome, hpay]
    rw [hhand, hafter, probeAt, joinOutcome_probes, List.getD_eq_getElem?_getD, List.getElem?_map]
    rw [probeAt, List.getD_eq_getElem?_getD] at hp
    cases hslot : s.probes.slots[i]? with
    | none => rw [hslot] at hp; cases hp
    | some o =>
      rw [hslot] at hp
      obtain rfl : o = some p := hp
      by_cases hfall : (joinOutcome s).roster.grade < s.roster.grade
      · simp [hphase, hfall]
      · simp [hfall]
  · have hgrade : (afterOutcome r b s).roster.grade = s.roster.grade := by rw [afterOutcome_roster hjoin]
    have hsame : some { p with lowGrade := p.lowGrade || decide ((afterOutcome r b s).roster.grade < s.roster.grade) } =
        some p := by simp [hgrade]
    rw [hsame]
    by_cases hstart : r.payload.kind = 7
    · unfold handOutcome
      cases hpay : r.payload with
      | probeStart c ep m d => exact probeAt_startOutcome hp (by rw [hphase]; decide)
      | _ => rw [hpay] at hstart; cases hstart
    · by_cases hend : r.payload.kind = 9
      · unfold handOutcome
        cases hpay : r.payload with
        | probeEnd c ep v f => exact probeAt_endOutcome hp (by rw [hphase]; decide)
        | _ => rw [hpay] at hend; cases hend
      · rw [probeAt, handOutcome_probes hstart hend hjoin]
        exact hp

/-- Any other slot waits for the outcome of its own notice. -/
theorem handOutcome_waiting {i : Nat} {p : Probe} (hp : probeAt s i = some p) (hphase : p.phase ≠ .driving)
    (hstart : r.payload.kind ≠ 7) (hend : r.payload.kind ≠ 9) : probeAt (handOutcome r e b s) i = some p := by
  by_cases hjoin : r.payload.kind = 1
  · obtain ⟨g, batch, hpay⟩ : ∃ g batch, r.payload = .join g batch := by
      cases hpay : r.payload with
      | join g batch => exact ⟨g, batch, rfl⟩
      | _ => rw [hpay] at hjoin; cases hjoin
    have hhand : handOutcome r e b s = joinOutcome s := by rw [handOutcome, hpay]
    rw [hhand, probeAt, joinOutcome_probes, List.getD_eq_getElem?_getD, List.getElem?_map]
    rw [probeAt, List.getD_eq_getElem?_getD] at hp
    cases hslot : s.probes.slots[i]? with
    | none => rw [hslot] at hp; cases hp
    | some o =>
      rw [hslot] at hp
      obtain rfl : o = some p := hp
      simp [hphase]
  · rw [probeAt, handOutcome_probes hstart hend hjoin]
    exact hp

/-- The outcome of a PROBE START drives its slot (R50). -/
theorem handOutcome_start {c ep d i : Nat} {m : Mode} {p : Probe} {x : PathRecord} (hpay : r.payload = .probeStart c ep m d)
    (hok : ((probesOf s).map (·.circuit)).Nodup) (hp : probeAt s i = some p) (hphase : p.phase = .claiming)
    (hc : p.circuit = c) (hep : p.epoch = ep) (hx : findPath s c = some x) :
    handOutcome r e b s = drive x.line c ep (putSlot i (some (drivingProbe s p x b (e == .failed))) s) := by
  subst hc hep
  rw [handOutcome, hpay]
  simp only [startOutcome, slotIn_of_probeAt hok hp hphase, enterDriving, hp, hx]

/-- The outcome of a PROBE END frees its slot (R55). -/
theorem handOutcome_end {c ep i : Nat} {v : Verdict} {f : VerdictFlags} {p : Probe} (hpay : r.payload = .probeEnd c ep v f)
    (hok : ((probesOf s).map (·.circuit)).Nodup) (hp : probeAt s i = some p) (hphase : p.phase = .closing)
    (hc : p.circuit = c) (hep : p.epoch = ep) : handOutcome r e b s = putSlot i none s := by
  subst hc hep
  rw [handOutcome, hpay]
  simp only [endOutcome, slotIn_of_probeAt hok hp hphase]

/-! ### The reports and the alerts -/

theorem joinOutcome_ctl (s : State) : (joinOutcome s).ctl.queue = s.ctl.queue ∧
    s.ctl.Posted (joinOutcome s).ctl ∧ s.ctl.Flagged (joinOutcome s).ctl ∧
    ((joinOutcome s).roster.grade ≠ s.roster.grade → (joinOutcome s).ctl.alertSet .grade = true) := by
  have hbefore : (joinedEntries s).ctl = s.ctl := by rw [joinedEntries_eq]; rfl
  have hgrade' : (joinedEntries s).roster.grade = s.roster.grade := by rw [joinedEntries_roster]
  have hqueue : (recompute (joinedEntries s)).ctl.queue = s.ctl.queue := by rw [recompute_ctl_alerts, hbefore]
  have hposted : s.ctl.Posted (recompute (joinedEntries s)).ctl := hbefore ▸ posted_recompute _
  have hflagged : s.ctl.Flagged (recompute (joinedEntries s)).ctl := by
    refine ⟨fun a ha => ?_, fun f hf => ?_⟩
    · rw [alertSet_recompute, hbefore, ha, Bool.true_or]
    · rw [ControlPort.faultSet, recompute_ctl_alerts, hbefore]
      exact hf
  have hroster : (joinOutcome s).roster = (recompute (joinedEntries s)).roster := by
    rw [joinOutcome_eq]
    split <;> rfl
  have halert (h : (joinOutcome s).roster.grade ≠ s.roster.grade) :
      (recompute (joinedEntries s)).ctl.alertSet .grade = true := by
    rw [hroster, recompute_roster] at h
    rw [alertSet_recompute, hgrade']
    simpa using .inr h
  rw [hroster] at halert ⊢
  rw [joinOutcome_eq]
  split
  · exact ⟨hqueue, hposted, hflagged, halert⟩
  · refine ⟨hqueue, hposted.trans (posted_raiseAlert _ _), hflagged.trans (flagged_raiseAlert _ _), fun h => ?_⟩
    rw [alertSet_raiseAlert, halert h]
    rfl

/-- What an outcome tells at the Control Port: its report (R96, R110), and GRADE (R169). -/
structure Told (l : List Report) (s t : State) : Prop where
  queue   : t.ctl.queue = (postEach l s).ctl.queue
  posted  : s.ctl.Posted t.ctl
  flagged : s.ctl.Flagged t.ctl
  grade   : t.roster.grade ≠ s.roster.grade → t.ctl.alertSet .grade = true

theorem told_of_ctl {l : List Report} (hctl : t.ctl = (postEach l s).ctl) (hroster : t.roster = s.roster) : Told l s t :=
  ⟨congrArg _ hctl, hctl ▸ posted_postEach l s, hctl ▸ flagged_postEach l s,
    fun h => absurd (congrArg (·.grade) hroster) h⟩

theorem told_openOutcome : Told (if (findWindow s ser).isSome = true then
      if b.refused &&& ~~~b.taken ≠ 0 then [.openRefused ser (b.refused &&& ~~~b.taken)]
      else [.openConfirmed ser (unmarkedPresent s b)]
    else []) s (openOutcome ser b s) := by
  refine told_of_ctl ?_ (by simp)
  cases hw : findWindow s ser with
  | none => rw [openOutcome_of_unlisted hw]; rfl
  | some w =>
    rw [openOutcome_ctl hw, Option.isSome_some, if_pos rfl]
    split <;> rfl

theorem told_closeOutcome (h : r.payload = .windowClose ser) :
    Told (outcomeReports r b s) s (closeOutcome ser b s) := by
  refine told_of_ctl ?_ (by simp)
  rw [outcomeReports, h]
  dsimp only
  cases hw : findWindow s ser with
  | none => rw [closeOutcome_of_unlisted hw]; rfl
  | some w =>
    by_cases hstate : w.state = .closing
    · rw [closeOutcome_ctl hw hstate]
      dsimp only
      split
      · rename_i hnone
        rw [if_pos ⟨hstate, hnone⟩]
        rfl
      · rename_i hsome
        rw [if_neg fun h => hsome h.2]
        rfl
    · rw [closeOutcome_of_other hw hstate]
      dsimp only
      rw [if_neg fun h => hstate h.1]
      rfl

theorem told_handOutcome : Told (outcomeReports r b s) s (handOutcome r e b s) := by
  have hself : Told [] s s := told_of_ctl rfl rfl
  cases hp : r.payload with
  | windowOpen ser scope =>
    rw [handOutcome, outcomeReports, hp]
    dsimp only
    by_cases hown : r.purpose = .own
    · have hreports : (if r.purpose = .own ∧ (findWindow s ser).isSome = true then
          if b.refused &&& ~~~b.taken ≠ 0 then [Report.openRefused ser (b.refused &&& ~~~b.taken)]
          else [.openConfirmed ser (unmarkedPresent s b)] else []) =
          if (findWindow s ser).isSome = true then
            if b.refused &&& ~~~b.taken ≠ 0 then [.openRefused ser (b.refused &&& ~~~b.taken)]
            else [.openConfirmed ser (unmarkedPresent s b)] else [] := if_congr (and_iff_right hown) rfl rfl
      rw [if_pos hown, hreports]
      exact told_openOutcome
    · rw [if_neg hown, if_neg fun h => hown h.1]
      exact hself
  | windowClose ser =>
    have hhand : handOutcome r e b s = closeOutcome ser b s := by rw [handOutcome, hp]
    rw [hhand]
    exact told_closeOutcome hp
  | tally ser x =>
    rw [handOutcome, outcomeReports, hp]
    dsimp only
    split
    · exact told_of_ctl (by simp [postEach]) (by simp)
    · exact hself
  | join g batch =>
    obtain ⟨hqueue, hposted, hflagged, hgrade⟩ := joinOutcome_ctl s
    rw [handOutcome, outcomeReports, hp]
    exact ⟨hqueue, hposted, hflagged, hgrade⟩
  | probeStart c ep m d =>
    rw [handOutcome, outcomeReports, hp]
    exact told_of_ctl (by simp [postEach]) (by simp)
  | probeEnd c ep v f =>
    rw [handOutcome, outcomeReports, hp]
    exact told_of_ctl (by simp [postEach]) (by simp)
  | windowCancel | present | sighting | stray | spanAlarm | loopReset =>
    rw [handOutcome, outcomeReports, hp]
    exact told_of_ctl rfl rfl

end Sys2Proof.Machine
end

