-- ==== Sys2Proof/Proofs/Deliveries.lean ====
section
/-! A delivery: the block reads the outcome, then the miss runs do (R152, R166; log 9). What they tell together. -/

namespace Sys2Proof.Machine

variable {s t u v : State} {ser : Serial} {w : Window} {b : BestMarks} {r : Request} {attempts x : Nat}

/-! ### The roster after an outcome -/

theorem afterOutcome_of_join (h : r.payload.kind = 1) : afterOutcome r b s = afterJoinOutcome s := by
  unfold afterOutcome
  cases hp : r.payload with
  | join g batch => rfl
  | _ => rw [hp] at h; cases h

theorem joinedEntries_eq_modifyRoster (s : State) : joinedEntries s =
    modifyRoster s.image.station (joinedEntry s.image) (s.setRoster { s.roster with joined := true }) := rfl

theorem rosterAt_afterJoinOutcome_other (hne : x ≠ s.image.station) : rosterAt (afterJoinOutcome s) x = rosterAt s x := by
  rw [rosterAt_of_entries (s := joinedEntries s) (by rw [joinedEntries_entries]; rfl), joinedEntries_eq_modifyRoster,
    rosterAt_modifyRoster_ne hne]
  rfl

theorem rosterAt_afterJoinOutcome_own (hlen : s.roster.entries.length = 24) (hok : stationOk s.image.station = true) :
    rosterAt (afterJoinOutcome s) s.image.station = { rosterAt s s.image.station with
      present := true, missRun := 0
      advert := some (if s.image.gradeLimit = 2 then ⟨2, true⟩ else ⟨1, false⟩) } := by
  rw [rosterAt_of_entries (s := joinedEntries s) (by rw [joinedEntries_entries]; rfl), joinedEntries_eq_modifyRoster,
    rosterAt_modifyRoster_self_of_ok (s := s.setRoster { s.roster with joined := true }) hlen hok]
  rfl

theorem rosterAt_afterOutcome_other (hne : x ≠ s.image.station) : rosterAt (afterOutcome r b s) x = rosterAt s x := by
  by_cases h : r.payload.kind = 1
  · rw [afterOutcome_of_join h, rosterAt_afterJoinOutcome_other hne]
  · rw [rosterAt, afterOutcome_roster h, rosterAt]

theorem length_afterOutcome : (afterOutcome r b s).roster.entries.length = s.roster.entries.length := by
  by_cases h : r.payload.kind = 1
  · rw [afterOutcome_of_join h]
    exact List.length_mapIdx
  · rw [afterOutcome_roster h]

theorem graded_afterOutcome (h : Graded s) : Graded (afterOutcome r b s) := by
  by_cases hkind : r.payload.kind = 1
  · rw [afterOutcome_of_join hkind]
    exact ⟨rfl, rfl⟩
  · exact (graded_of_roster (afterOutcome_roster hkind)).2 h

theorem joined_afterOutcome : (afterOutcome r b s).roster.joined = (s.roster.joined || r.payload.kind == 1) := by
  by_cases h : r.payload.kind = 1
  · rw [afterOutcome_of_join h, h]
    simp [afterJoinOutcome]
  · rw [afterOutcome_roster h, beq_false_of_ne h, Bool.or_false]

/-! ### The list after an outcome -/

theorem serials_rewritten (f : Window → Window) (hf : (f w).serial = ser) :
    (rewritten ser (fun _ => f w) s).map (·.serial) = s.windows.list.map (·.serial) := by
  rw [rewritten, List.map_map]
  refine List.map_congr_left fun v _ => ?_
  simp only [Function.comp]
  split
  · rename_i hv
    rw [hf, hv]
  · rfl

theorem sublist_rewritten (f : Window → Window) (hf : (f w).serial = ser) :
    ((rewritten ser (fun _ => f w) s).map (·.serial)).Sublist (s.windows.list.map (·.serial)) := by
  rw [serials_rewritten f hf]

/-- An outcome lists no window. -/
theorem serials_afterOutcome : ((afterOutcome r b s).windows.list.map (·.serial)).Sublist
    (s.windows.list.map (·.serial)) := by
  have hfilter (a : Serial) : ((s.windows.list.filter fun v => v.serial != a).map (·.serial)).Sublist
      (s.windows.list.map (·.serial)) := List.filter_sublist.map _
  unfold afterOutcome
  cases r.payload with
  | windowOpen a scope =>
    dsimp only
    split
    · cases hw : findWindow s a with
      | none => rw [afterOpenOutcome_of_unlisted hw]
      | some w =>
        have hser := serial_of_findWindow hw
        by_cases hrefused : b.refused &&& ~~~b.taken = 0
        · by_cases hready : w.state = .settling ∧ w.settle = .expired
          · rw [afterOpenOutcome_of_ready hw hrefused hready]
            exact sublist_rewritten (fun w => { w.leaving s with openReceived := true }) hser
          · rw [afterOpenOutcome_of_received hw hrefused hready]
            exact sublist_rewritten (fun w => { w with openReceived := true }) hser
        · rw [afterOpenOutcome_of_refused hw hrefused]
          exact hfilter a
    · exact .refl _
  | windowClose a =>
    dsimp only
    by_cases hclosing : ∃ w, findWindow s a = some w ∧ w.state = .closing
    · obtain ⟨w, hw, hstate⟩ := hclosing
      have hser := serial_of_findWindow hw
      rw [afterCloseOutcome_of_closing hw hstate]
      simp only [State.setWindows_fields]
      split
      · exact hfilter a
      · exact sublist_rewritten (fun w => w.delivered s.image.station b) hser
    · rw [afterCloseOutcome_of_other fun w hw hstate => hclosing ⟨w, hw, hstate⟩]
  | tally a n =>
    dsimp only
    split
    · by_cases hsent : ∃ w, findWindow s a = some w ∧ w.state = .closed ∧ w.tally = .sent
      · obtain ⟨w, hw, hsent⟩ := hsent
        have hser := serial_of_findWindow hw
        rw [afterTallyOutcome_of_sent hw hsent]
        split
        · exact hfilter a
        · split
          · exact sublist_rewritten (fun w => { w with tally := .pending }) hser
          · exact sublist_rewritten (fun w => { w with tally := .unsent }) hser
      · rw [(tallyOutcome_of_other fun w hw h => hsent ⟨w, hw, h⟩).2]
    · exact .refl _
  | join | probeStart | probeEnd | windowCancel | present | sighting | stray | spanAlarm | loopReset => exact .refl _

theorem length_outcomeReports_le : (outcomeReports r b s).length ≤ 1 := by
  unfold outcomeReports
  repeat' split
  all_goals exact Nat.le_add_left _ _

theorem length_list_le (h : WindowsOk s) : s.windows.list.length ≤ 8 := by
  obtain ⟨hnodup, hcard, -⟩ := h
  have hsub : (s.windows.list.map (·.serial)).toFinset ⊆ (s.windows.list.map (·.serial) ++ waitingSerials s).toFinset := by
    intro x hx
    rw [List.mem_toFinset] at hx ⊢
    exact List.mem_append_left _ hx
  have hle := (Finset.card_le_card hsub).trans hcard
  rwa [List.toFinset_card_of_nodup hnodup, List.length_map] at hle

/-! ### The baselines after an outcome -/

theorem map_modifyPath {α : Type} (key : PathRecord → α) (c : Nat) {f : PathRecord → PathRecord}
    (hf : ∀ r, key (f r) = key r) (s : State) : (modifyPath c f s).paths.map key = s.paths.map key := by
  simp only [modifyPath, State.setPaths_fields, List.map_map]
  refine List.map_congr_left fun r _ => ?_
  simp only [Function.comp]
  split
  · exact hf r
  · rfl

/-- The circuits with their lines and baselines. -/
def PathRecord.based (r : PathRecord) : Nat × Nat × Option (List Hop) := (r.circuit, r.line, r.baseline)

theorem based_releaseHolds (ser : Serial) (s : State) :
    (releaseHolds ser s).paths.map PathRecord.based = s.paths.map PathRecord.based := by
  refine foldl_keeps _ _ _ (fun u : State => u.paths.map PathRecord.based) fun u c => ?_
  have hjoin (m : Mode) (v : State) : (joinList m c v).paths = v.paths := by simp
  unfold removeHold enqueue
  dsimp only
  repeat' split
  · rfl
  · rfl
  · rw [hjoin]
    refine (map_modifyPath _ c ?_ _).trans (map_modifyPath _ c ?_ u)
    all_goals exact fun r => rfl
  · refine map_modifyPath _ c ?_ u
    exact fun r => rfl

theorem based_closeOwn (ser : Serial) (s : State) :
    (closeOwn ser s).paths.map PathRecord.based = s.paths.map PathRecord.based := by
  have htally (v : State) : (tallyTest ser v).paths = v.paths := by simp
  rw [closeOwn, htally, based_releaseHolds]
  simp

theorem based_openOutcome (ser : Serial) (b : BestMarks) (s : State) :
    (openOutcome ser b s).paths.map PathRecord.based = s.paths.map PathRecord.based := by
  have hpost (a : Report) (v : State) : (postReport a v).paths = v.paths := by simp
  have hrequest (q : Request) (v : State) : (requestWindow q v).paths = v.paths := by simp
  have hcancel (v : State) : (cancelWindowEntry ser v).paths.map PathRecord.based = v.paths.map PathRecord.based := by
    have hdrop (z : State) : (dropWindow ser (dropWindowRequests ser z)).paths = z.paths := by simp
    rw [cancelWindowEntry, hdrop, dropOwed]
    simp only [State.setPaths_fields, List.map_map]
    exact based_releaseHolds ser v
  have hmodify (v : State) : (modifyWindow ser (fun w => { w with openReceived := true }) v).paths = v.paths := by simp
  unfold openOutcome confirmOpen refuseOpen leaveSettling
  dsimp only
  repeat' split
  · rfl
  · rw [hpost, hmodify]
  · rw [based_closeOwn, hpost, hmodify]
  · rw [hpost, hmodify]
  · rw [hpost, hrequest, hcancel, hmodify]

theorem windowOpen_of_kind {p : Payload} (h : p.kind = 3) : ∃ ser scope, p = .windowOpen ser scope := by
  cases p with
  | windowOpen ser scope => exact ⟨ser, scope, rfl⟩
  | _ => cases h

theorem based_handOutcome {e : Ending} :
    (handOutcome r e b s).paths.map PathRecord.based = s.paths.map PathRecord.based := by
  by_cases h : r.payload.kind = 3
  · obtain ⟨ser, scope, hp⟩ := windowOpen_of_kind h
    rw [handOutcome, hp]
    dsimp only
    split
    · exact based_openOutcome ser b s
    · rfl
  · rw [(handOutcome_records_of_kind h).1]

theorem baselineCrosses_congr (h : t.paths.map PathRecord.based = s.paths.map PathRecord.based) {p q : Probe}
    (hpq : q.circuit = p.circuit) : baselineCrosses t q = baselineCrosses s p := by
  have hproject (v : State) (p : Probe) (n : Nat) : baselineCrosses v p n =
      ((v.paths.map PathRecord.based).find? (·.1 == p.circuit)).any fun x => (x.2.2.getD []).any (·.station == n) := by
    rw [baselineCrosses, findPath, List.find?_map, Option.any_map]
    rfl
  funext n
  rw [hproject, hproject, h, hpq]

theorem baselineCrosses_of_findPath {p : Probe} {a : PathRecord} (h : findPath s p.circuit = some a) (n : Nat) :
    baselineCrosses s p n = (a.baseline.getD []).any fun y => y.station == n := by
  rw [baselineCrosses, h]
  rfl

/-! ### The stations that miss a delivery -/

theorem stationIn_unmarkedPresent (hx : stationOk x = true) : stationIn (unmarkedPresent s b) x =
    (x != s.image.station && isPresent s x && !b.marked x) := stationIn_stationsWith _ x hx

theorem marked_of_none_unmarked (h : unmarkedPresent s b = 0) (hx : stationOk x = true) (hne : x ≠ s.image.station)
    (hp : isPresent s x = true) : b.marked x = true := by
  have hin := stationIn_unmarkedPresent (s := s) (b := b) hx
  have hzero : stationIn (0 : StationSet) x = false := by simp [stationIn]
  rw [h, hzero, bne_iff_ne.2 hne, hp] at hin
  simpa using hin.symm

/-- A state beside s that differs in the Loop Port alone, and there in its own entries and timers. -/
structure Beside (s u : State) : Prop where
  blocks : u = s.setLoop u.loop
  loop   : u.loop.newNotices = s.loop.newNotices ∧ u.loop.forward = s.loop.forward ∧
    u.loop.receive = s.loop.receive ∧ u.loop.quarantine = s.loop.quarantine ∧ u.loop.up = s.loop.up

theorem Beside.agree (h : Beside s u) : Agree s u := by
  rw [h.blocks]
  exact ⟨rfl, rfl, rfl, rfl, rfl⟩

theorem Beside.rosterAt (h : Beside s u) : rosterAt u = rosterAt s := by
  rw [h.blocks]
  rfl

theorem Beside.isPresent (h : Beside s u) : isPresent u = isPresent s := h.agree.isPresent

theorem Beside.fields (h : Beside s u) : u.now = s.now ∧ u.hops = s.hops ∧ u.lines = s.lines ∧ u.scanner = s.scanner ∧
    u.probes = s.probes ∧ u.ctl = s.ctl := by
  rw [h.blocks]
  exact ⟨rfl, rfl, rfl, rfl, rfl, rfl⟩

/-- The block has read the outcome. -/
def handed (r : Request) (b : BestMarks) (u : State) : State := handOutcome r .delivered b u

/-- The miss runs have read it as well. -/
def fedAfter (r : Request) (b : BestMarks) (attempts : Nat) (u : State) : State :=
  feedMisses b attempts (handed r b u)

section Delivery

variable (hu : Beside s u)

include hu

theorem agree_after : Agree (afterOutcome r b s) (afterOutcome r b u) := hu.agree.afterOutcome

theorem handed_image : (handed r b u).image = s.image := by
  rw [handed, (handOutcome_frame r .delivered b u).2.2.2.2.1, hu.agree.image]

theorem handed_roster : (handed r b u).roster = (afterOutcome r b s).roster :=
  handOutcome_roster.trans (agree_after hu).roster

theorem rosterAt_handed_other (hne : x ≠ s.image.station) : rosterAt (handed r b u) x = rosterAt s x := by
  rw [rosterAt, handed_roster hu]
  exact rosterAt_afterOutcome_other hne

theorem length_handed (hlen : s.roster.entries.length = 24) : (handed r b u).roster.entries.length = 24 := by
  rw [handed_roster hu, length_afterOutcome, hlen]

theorem handed_windows (hnodup : (s.windows.list.map (·.serial)).Nodup) :
    (handed r b u).windows = (afterOutcome r b s).windows := by
  rw [handed, handOutcome_windows (by rw [hu.agree.windows]; exact hnodup), (agree_after hu).windows]

theorem nodup_handed (hnodup : (s.windows.list.map (·.serial)).Nodup) :
    ((handed r b u).windows.list.map (·.serial)).Nodup := by
  rw [handed_windows hu hnodup]
  exact hnodup.sublist serials_afterOutcome

theorem handed_crosses {p q : Probe} {a : PathRecord} (hpq : q.circuit = p.circuit)
    (ha : findPath s p.circuit = some a) (n : Nat) :
    baselineCrosses (handed r b u) q n = (a.baseline.getD []).any fun y => y.station == n := by
  have hbased : (handed r b u).paths.map PathRecord.based = s.paths.map PathRecord.based := by
    rw [handed, based_handOutcome, hu.agree.paths]
  rw [baselineCrosses_congr hbased hpq, baselineCrosses_of_findPath ha]

theorem fed (hlen : s.roster.entries.length = 24) :
    Fed b attempts stationNumbers (handed r b u) (fedAfter r b attempts u) :=
  fed_feedMisses (length_handed hu hlen)

theorem missesOut_handed (hne : x ≠ s.image.station) : missesOut b attempts (handed r b u) x =
    missesOut b attempts s x := by
  rw [missesOut, missesOut, isPresent, isPresent, rosterAt_handed_other hu hne, handed_image hu]

theorem filter_missesOut_handed : stationNumbers.filter (missesOut b attempts (handed r b u)) =
    stationNumbers.filter (missesOut b attempts s) := by
  refine List.filter_congr fun n _ => ?_
  by_cases hne : n = s.image.station
  · rw [missesOut, missesOut, handed_image hu, hne]
    simp
  · exact missesOut_handed hu hne

/-- The entry of another station after the delivery. -/
theorem rosterAt_fedAfter (hlen : s.roster.entries.length = 24) (hx : stationOk x = true) (hne : x ≠ s.image.station) :
    rosterAt (fedAfter r b attempts u) x = fedEntry b attempts x (rosterAt s x) := by
  rw [(fed hu hlen).entries x hx, handed_image hu, if_pos ⟨(mem_stationNumbers x).2 hx, hne⟩, rosterAt_handed_other hu hne]

omit hu in
theorem isPresent_of_not_ok (hlen : s.roster.entries.length = 24) (hx : stationOk x = false) : isPresent s x = false := by
  rw [isPresent, rosterAt]
  split
  · rename_i hpos
    have hge : s.roster.entries.length ≤ x - 1 := by
      have hnot : ¬ (1 ≤ x ∧ x ≤ 24) := fun h => by simp [(stationOk_iff x).2 h] at hx
      omega
    rw [List.getD_eq_getElem?_getD, List.getElem?_eq_none hge]
    rfl
  · rfl

theorem turnedAbsent_fedAfter (hlen : s.roster.entries.length = 24) :
    turnedAbsent s (fedAfter r b attempts u) = (stationNumbers.filter (missesOut b attempts s)).contains := by
  funext n
  rw [List.contains_eq_mem, turnedAbsent]
  cases hok : stationOk n with
  | false =>
    have hnot : n ∉ stationNumbers := fun h => by rw [(mem_stationNumbers n).1 h] at hok; cases hok
    rw [isPresent_of_not_ok hlen hok]
    simp [List.mem_filter, hnot]
  | true =>
    by_cases hne : n = s.image.station
    · simp [missesOut, hne]
    · have hmem : n ∈ stationNumbers := (mem_stationNumbers n).2 hok
      have hafter : isPresent (fedAfter r b attempts u) n = (fedEntry b attempts n (rosterAt s n)).present := by
        rw [isPresent, rosterAt_fedAfter hu hlen hok hne]
      rw [hafter, Bool.eq_iff_iff]
      simp only [List.mem_filter, hmem, true_and, decide_eq_true_eq, missesOut_iff, Bool.and_eq_true, bne_iff_ne,
        Bool.not_eq_true', isPresent]
      unfold fedEntry
      cases hp : (rosterAt s n).present with
      | false => simp [hp]
      | true =>
        cases hm : b.marked n with
        | true => simp
        | false =>
          by_cases ha : attempts = 4
          · simp [ha]
          · simp [hp, ha]

theorem lost_fedAfter (hlen : s.roster.entries.length = 24) :
    Lost (stationNumbers.filter (missesOut b attempts s)) (handed r b u) (fedAfter r b attempts u) := by
  rw [← filter_missesOut_handed hu]
  exact (fed hu hlen).lost

/-! ### Miss runs (R166) -/

theorem missesFed_fedAfter (hlen : s.roster.entries.length = 24) (hmarks : unmarkedPresent s b = 0 ∨ attempts = 4) :
    MissesFed b s (fedAfter r b attempts u) := by
  intro x hx hne
  have hok := (mem_stationNumbers x).1 hx
  have hentry := rosterAt_fedAfter (r := r) (b := b) (attempts := attempts) hu hlen hok hne
  refine ⟨fun hp => ?_, fun hp hm => ?_, fun hp htaken hrefused => ?_⟩
  · rw [hentry, fedEntry, if_pos (show (rosterAt s x).present = false from hp)]
  · have hmarked : b.marked x = true := by simpa [BestMarks.marked] using hm
    rw [hentry, fedEntry, if_neg (by rw [show (rosterAt s x).present = true from hp]; decide), if_pos hmarked]
  · have hmarked : b.marked x = false := by rw [BestMarks.marked, htaken, hrefused]; rfl
    have hattempts : attempts = 4 := by
      refine hmarks.resolve_left fun hnone => ?_
      rw [marked_of_none_unmarked hnone hok hne hp] at hmarked
      cases hmarked
    refine ⟨?_, fun hrun => ?_⟩
    · rw [hentry, fedEntry, if_neg (by rw [show (rosterAt s x).present = true from hp]; decide),
        if_neg (by simp [hmarked]), if_pos hattempts]
    · refine (fed hu hlen).alert ⟨x, hx, ?_⟩
      rw [missesOut_handed hu hne]
      exact missesOut_iff.2 ⟨hne, hp, hmarked, hattempts, hrun⟩

theorem rosterAt_of_all_marked (hlen : s.roster.entries.length = 24) (hnone : unmarkedPresent s b = 0)
    (hok : stationOk x = true) (hne : x ≠ s.image.station) : rosterAt (fedAfter r b attempts u) x =
      if isPresent s x then { rosterAt s x with missRun := 0 } else rosterAt s x := by
  rw [rosterAt_fedAfter hu hlen hok hne, fedEntry]
  cases hp : isPresent s x with
  | false => rw [if_pos (show (rosterAt s x).present = false from hp)]; rfl
  | true =>
    have hmarked := marked_of_none_unmarked hnone hok hne hp
    rw [if_neg (by rw [show (rosterAt s x).present = true from hp]; decide), if_pos hmarked, if_pos rfl]

/-! ### Absences (R64, R109, R110) -/

theorem graded_handed (h : Graded s) : Graded (handed r b u) :=
  (graded_of_roster (handed_roster hu)).2 (graded_afterOutcome h)

/-- A slot of the state that the block left, after the miss runs. -/
theorem probeAt_fedAfter (hlen : s.roster.entries.length = 24) : ∃ fell : Bool,
    (Graded s → isPresent (afterOutcome r b s) s.image.station = true → fell = false) ∧
    ∀ {i : Nat} {p : Probe}, probeAt (handed r b u) i = some p → probeAt (fedAfter r b attempts u) i =
      some (p.losing (baselineCrosses (handed r b u) p) fell (stationNumbers.filter (missesOut b attempts s))) := by
  obtain ⟨fell, hfell, hprobes⟩ := (lost_fedAfter (r := r) (b := b) (attempts := attempts) hu hlen).probes
  refine ⟨fell, fun hgraded hown => hfell (graded_handed hu hgraded) ?_, fun {i p} hp => ?_⟩
  · rw [isPresent, rosterAt, handed_roster hu, handed_image hu]
    exact hown
  · rw [probeAt, List.getD_eq_getElem?_getD] at hp
    rw [probeAt, hprobes, List.getD_eq_getElem?_getD, slotsLosing, List.getElem?_map]
    cases hslot : (handed r b u).probes.slots[i]? with
    | none => rw [hslot] at hp; cases hp
    | some o =>
      rw [hslot] at hp
      obtain rfl : o = some p := hp
      rfl

theorem handed_driving {i : Nat} {p : Probe} (hp : probeAt s i = some p) (hphase : p.phase = .driving) :
    probeAt (handed r b u) i = some { p with
      lowGrade := p.lowGrade || decide ((afterOutcome r b s).roster.grade < s.roster.grade) } := by
  rw [← (agree_after hu).roster, ← hu.agree.roster]
  exact handOutcome_driving (by rw [probeAt, hu.fields.2.2.2.2.1]; exact hp) hphase

theorem any_missesOut (hlen : s.roster.entries.length = 24) (f : Nat → Bool) :
    (stationNumbers.filter (missesOut b attempts s)).any f =
      stationNumbers.any fun n => turnedAbsent s (fedAfter r b attempts u) n && f n := by
  rw [turnedAbsent_fedAfter hu hlen, List.any_filter]
  have hcontains (n : Nat) (hn : n ∈ stationNumbers) :
      (stationNumbers.filter (missesOut b attempts s)).contains n = missesOut b attempts s n := by
    rw [Bool.eq_iff_iff, List.contains_iff_mem, List.mem_filter, and_iff_right hn]
  rw [Bool.eq_iff_iff, List.any_eq_true, List.any_eq_true]
  refine exists_congr fun n => and_congr_right fun hn => ?_
  rw [hcontains n hn]

theorem stationIn_losing (hlen : s.roster.entries.length = 24) {n : Nat} (hn : n ∈ stationNumbers) (f : Nat → Bool)
    (z : StationSet) : stationIn ((stationNumbers.filter (missesOut b attempts s)).foldl
        (fun a n => if f n then addStation a n else a) z) n =
      (stationIn z n || (turnedAbsent s (fedAfter r b attempts u) n && f n)) := by
  rw [stationIn_foldl f _ z n ((mem_stationNumbers n).1 hn), turnedAbsent_fedAfter hu hlen, List.contains_eq_mem,
    Bool.and_comm]

theorem losesStations_fedAfter (hlen : s.roster.entries.length = 24) {i : Nat} {p : Probe} (hp : probeAt s i = some p)
    (hphase : p.phase = .driving) {a : PathRecord} (ha : findPath s p.circuit = some a) :
    ∃ q, probeAt (fedAfter r b attempts u) i = some q ∧
      LosesStations p q a (afterOutcome r b s) s (fedAfter r b attempts u) := by
  obtain ⟨fell, hfell, hslots⟩ := probeAt_fedAfter (r := r) (b := b) (attempts := attempts) hu hlen
  have hcrosses : baselineCrosses (handed r b u) { p with
      lowGrade := p.lowGrade || decide ((afterOutcome r b s).roster.grade < s.roster.grade) } =
        fun n => (a.baseline.getD []).any fun y => y.station == n := funext fun n => handed_crosses hu (p := p) rfl ha n
  have hslot := hslots (handed_driving hu hp hphase)
  rw [hcrosses, Probe.losing, if_pos hphase] at hslot
  refine ⟨_, hslot, ?_, fun n hn => stationIn_losing hu hlen hn _ _, fun hok hown => ?_⟩
  · rw [any_missesOut (r := r) hu hlen]
  · rw [hfell (graded_of_rosterOk hok) hown]
    exact Bool.or_false _

theorem handed_queue : (handed r b u).ctl.queue = (postEach (outcomeReports r b s) s).ctl.queue := by
  obtain ⟨hnow, -, -, -, -, hctl⟩ := hu.fields
  rw [handed, told_handOutcome.queue, hu.agree.outcomeReports, postEach_ctl_congr _ hnow hu.agree.image hctl]

omit hu in
theorem windows_of_parts {x y : WindowUnit} {l : List Window} (hlist : x.list = l) (hseq : x.seq = y.seq)
    (hrequests : x.requests = y.requests) : x = { y with list := l } := by
  cases x
  cases hlist
  cases hseq
  cases hrequests
  rfl

theorem fedAfter_windows (hlen : s.roster.entries.length = 24) (hok : (s.windows.list.map (·.serial)).Nodup) :
    (fedAfter r b attempts u).windows = { (afterOutcome r b s).windows with
      list := windowsLosing s.image.station (turnedAbsent s (fedAfter r b attempts u)) (afterOutcome r b s).windows.list } := by
  have hlost := lost_fedAfter (r := r) (b := b) (attempts := attempts) hu hlen
  obtain ⟨hrequests, hseq⟩ := hlost.kept
  have hlist := hlost.tables (nodup_handed hu hok)
  rw [handed_image hu] at hlist
  rw [turnedAbsent_fedAfter hu hlen, ← handed_windows hu hok]
  exact windows_of_parts hlist hseq hrequests

/-- The reports of the outcome, then the summaries that the absences bring. -/
theorem fedAfter_queue (hlen : s.roster.entries.length = 24) (hok : WindowsOk s) (hroom : s.ctl.queue.length ≤ 20) :
    ∃ l : List Report, l.Perm (summariesLosing s.image.station (turnedAbsent s (fedAfter r b attempts u))
        (afterOutcome r b s).windows.list) ∧
      (fedAfter r b attempts u).ctl.queue.map (·.2) = s.ctl.queue.map (·.2) ++ outcomeReports r b s ++ l := by
  have hlost := lost_fedAfter (r := r) (b := b) (attempts := attempts) hu hlen
  obtain ⟨l, hperm, hqueue⟩ := hlost.reports (nodup_handed hu hok.1)
  rw [handed_image hu, handed_windows hu hok.1, ← turnedAbsent_fedAfter (r := r) hu hlen] at hperm
  have hone := length_outcomeReports_le (r := r) (b := b) (s := s)
  have hfirst : (handed r b u).ctl.queue.map (·.2) = s.ctl.queue.map (·.2) ++ outcomeReports r b s := by
    rw [handed_queue hu, postEach_queue _ s (by omega)]
  have hlength := congrArg List.length hfirst
  simp only [List.length_map, List.length_append] at hlength
  have hfew : l.length ≤ 8 := by
    rw [hperm.length_eq]
    refine (length_summariesLosing_le _).trans ?_
    have hsub := (serials_afterOutcome (r := r) (b := b) (s := s)).length_le
    rw [List.length_map, List.length_map] at hsub
    exact hsub.trans (length_list_le hok)
  exact ⟨l, hperm, by rw [hqueue (by omega), hfirst]⟩

theorem absencesTold_fedAfter (hlen : s.roster.entries.length = 24) :
    AbsencesTold (afterOutcome r b s) (outcomeReports r b s) s (fedAfter r b attempts u) := by
  refine ⟨fun _ i _ p hp hphase a ha => losesStations_fedAfter hu hlen hp hphase ha, fun hok =>
    ⟨fedAfter_windows hu hlen hok.1, fun hroom => ?_, fun w hw hown hstate n hn hturned => ?_⟩⟩
  · obtain ⟨l, hperm, hqueue⟩ := fedAfter_queue (r := r) (b := b) (attempts := attempts) hu hlen hok hroom
    have hlength : s.ctl.queue.length + (outcomeReports r b s).length =
        (s.ctl.queue.map (·.2) ++ outcomeReports r b s).length := by simp
    rw [hqueue, hlength, List.take_left, List.drop_left]
    exact ⟨rfl, hperm⟩
  · rw [fedAfter_windows hu hlen hok.1] at hw
    exact tableAt_of_mem_windowsLosing hw ⟨hown, hstate⟩ ((stationOk_iff n).1 ((mem_stationNumbers n).1 hn)).1 hturned

end Delivery

end Sys2Proof.Machine
end

