-- ==== Sys2Proof/Proofs/OutcomeReads.lean ====
section
/-! What a delivery leaves at the blocks, clause by clause (R50, R51, R55, R64, R96, R101, R102, R107, R109, R110, R152,
R156, R162, R166). -/

namespace Sys2Proof.Machine

variable {s t u : State} {ser : Serial} {w : Window} {b : BestMarks} {r : Request} {attempts x i : Nat} {p : Probe}

/-! ### A window in a list that lost stations -/

theorem find_windowsLosing {own : Nat} {lost : Nat → Bool} {l : List Window} (hnodup : (l.map (·.serial)).Nodup)
    (hw : l.find? (·.serial == ser) = some w) : (windowsLosing own lost l).find? (·.serial == ser) =
      if w.lostLast own lost then none else some (w.losing own lost) := by
  induction l with
  | nil => cases hw
  | cons a l ih =>
    obtain ⟨hnew, hrest⟩ := List.nodup_cons.1 (List.map_cons ▸ hnodup)
    rw [windowsLosing_cons]
    by_cases hser : a.serial = ser
    · rw [List.find?_cons_of_pos (by simp [hser])] at hw
      obtain rfl := Option.some.inj hw
      have hnone : (windowsLosing own lost l).find? (·.serial == ser) = none := by
        refine List.find?_eq_none.2 fun v hv hvser => hnew ?_
        have hmem := (serials_windowsLosing (own := own) (lost := lost) l).subset (List.mem_map_of_mem hv)
        rwa [show v.serial = ser by simpa using hvser, ← hser] at hmem
      split
      · exact hnone
      · exact List.find?_cons_of_pos (by simp [losing_serial, hser])
    · rw [List.find?_cons_of_neg (by simp [hser])] at hw
      have hind := ih hrest hw
      split
      · exact hind
      · rw [List.find?_cons_of_neg (by simp [losing_serial, hser])]
        exact hind

theorem find_windowsLosing_none {own : Nat} {lost : Nat → Bool} {l : List Window}
    (h : l.find? (·.serial == ser) = none) : (windowsLosing own lost l).find? (·.serial == ser) = none := by
  refine List.find?_eq_none.2 fun v hv hvser => ?_
  obtain ⟨a, ha, haser⟩ := List.mem_map.1 ((serials_windowsLosing l).subset (List.mem_map_of_mem hv))
  exact List.find?_eq_none.1 h a ha (haser.symm ▸ hvser)

/-! ### The absent list at entry to DRIVING -/

theorem stationIn_zero (n : Nat) : stationIn (0 : StationSet) n = false := by simp [stationIn]

theorem stationSet_ne_zero {z : StationSet} {n : Nat} (h : stationIn z n = true) : z ≠ 0 := by
  rintro rfl
  rw [stationIn_zero] at h
  cases h

/-- Stations added to a set leave it empty when none is added. -/
theorem foldl_addStation_ne_zero {gone : List Nat} (hok : ∀ n ∈ gone, stationOk n = true) (f : Nat → Bool)
    (z : StationSet) : (gone.foldl (fun a n => if f n then addStation a n else a) z != 0) = (z != 0 || gone.any f) := by
  cases hany : gone.any f with
  | false =>
    have hsame : gone.foldl (fun a n => if f n then addStation a n else a) z = z := by
      clear hok
      induction gone with
      | nil => rfl
      | cons n l ih =>
        obtain ⟨hn, hl⟩ := Bool.or_eq_false_iff.1 (List.any_cons ▸ hany)
        rw [List.foldl_cons, hn]
        exact ih hl
    rw [hsame, Bool.or_false]
  | true =>
    obtain ⟨n, hn, hfn⟩ := List.any_eq_true.1 hany
    rw [Bool.or_true, bne_iff_ne]
    refine stationSet_ne_zero (n := n) ?_
    rw [stationIn_foldl f _ z n (hok n hn), hfn]
    simp [hn]

theorem stationOk_of_missesOut {n : Nat} (h : n ∈ stationNumbers.filter (missesOut b attempts s)) : stationOk n = true :=
  (mem_stationNumbers n).1 (List.mem_filter.1 h).1

section Delivery

variable (hu : Beside s u)

include hu

/-! ### Blocks that a delivery leaves -/

omit hu in
theorem fedAfter_loop : (fedAfter r b attempts u).loop =
    if r.payload.kind = 12 then { u.loop with quarantine := false } else u.loop := by
  rw [fedAfter, (feedMisses_frame b attempts (handed r b u)).2.2.2.2.2.2.2.2.2.2.2.2]
  exact handOutcome_loop

theorem fedAfter_frame : (fedAfter r b attempts u).now = s.now ∧ (fedAfter r b attempts u).hops = s.hops ∧
    (fedAfter r b attempts u).scanner = s.scanner ∧ (fedAfter r b attempts u).image = s.image := by
  obtain ⟨hnow, hhops, -, hscanner, -⟩ := hu.fields
  have himage := hu.agree.image
  simp [fedAfter, handed, hnow, hhops, hscanner, himage]

theorem fedAfter_lines (h : r.payload.kind ≠ 7) : (fedAfter r b attempts u).lines = s.lines := by
  have hlines : (fedAfter r b attempts u).lines = (handed r b u).lines := by simp [fedAfter]
  rw [hlines, handed, handOutcome_lines h, hu.fields.2.2.1]

theorem fedAfter_records (hnd : (pathOrder s).Nodup) : (fedAfter r b attempts u).paths = (afterOutcome r b s).paths ∧
    (fedAfter r b attempts u).sched = (afterOutcome r b s).sched := by
  have hnd' : (pathOrder u).Nodup := by rwa [pathOrder, hu.agree.paths]
  obtain ⟨hpaths, hsched⟩ := handOutcome_records (r := r) (e := .delivered) (b := b) hnd'
  have hagree := agree_after (r := r) (b := b) hu
  simp [fedAfter, handed, hpaths, hsched, hagree.paths, hagree.sched]

theorem fedAfter_records_of_kind (h : r.payload.kind ≠ 3) : (fedAfter r b attempts u).paths = s.paths ∧
    (fedAfter r b attempts u).sched = s.sched := by
  obtain ⟨hpaths, hsched⟩ := handOutcome_records_of_kind (e := .delivered) (b := b) (s := u) h
  have hagree := hu.agree
  simp [fedAfter, handed, hpaths, hsched, hagree.paths, hagree.sched]

/-! ### The roster -/

theorem fedAfter_roster (hlen : s.roster.entries.length = 24) : (fedAfter r b attempts u).roster =
    { (afterOutcome r b s).roster with
      entries := (fedAfter r b attempts u).roster.entries, grade := (fedAfter r b attempts u).roster.grade
      batching := (fedAfter r b attempts u).roster.batching } := by
  rw [← handed_roster hu]
  exact (fed hu hlen).rest

theorem fedAfter_joined (hlen : s.roster.entries.length = 24) : (fedAfter r b attempts u).roster.joined =
    (s.roster.joined || r.payload.kind == 1) := by
  rw [fedAfter_roster hu hlen, ← joined_afterOutcome (r := r) (b := b)]

theorem fedAfter_graded (hlen : s.roster.entries.length = 24) (h : Graded s) : Graded (fedAfter r b attempts u) :=
  (lost_fedAfter hu hlen).graded (graded_handed hu h)

omit hu in
theorem told_handed : Told (outcomeReports r b u) u (handed r b u) := told_handOutcome

theorem fedAfter_grade (hlen : s.roster.entries.length = 24)
    (h : (fedAfter r b attempts u).roster.grade ≠ s.roster.grade) :
    (fedAfter r b attempts u).ctl.alertSet .grade = true := by
  by_cases hsame : (handed r b u).roster.grade = s.roster.grade
  · refine (fed hu hlen).grade ?_
    rw [hsame]
    exact h
  · refine (lost_fedAfter hu hlen).flagged.alerts _ (told_handed.grade ?_)
    rwa [hu.agree.roster]

theorem rosterAt_fedAfter_own (hlen : s.roster.entries.length = 24) :
    rosterAt (fedAfter r b attempts u) s.image.station = rosterAt (afterOutcome r b s) s.image.station := by
  have hown := (lost_fedAfter (r := r) (b := b) (attempts := attempts) hu hlen).place.2.2
  rw [handed_image hu] at hown
  rw [hown, rosterAt, handed_roster hu, rosterAt]

/-! ### The slots -/

theorem fedAfter_waiting (hlen : s.roster.entries.length = 24) (hstart : r.payload.kind ≠ 7) (hend : r.payload.kind ≠ 9)
    (hp : probeAt s i = some p) (hphase : p.phase ≠ .driving) : probeAt (fedAfter r b attempts u) i = some p := by
  obtain ⟨fell, -, hslots⟩ := probeAt_fedAfter (r := r) (b := b) (attempts := attempts) hu hlen
  have hp' : probeAt u i = some p := by rw [probeAt, hu.fields.2.2.2.2.1]; exact hp
  have hslot := hslots (handOutcome_waiting hp' hphase hstart hend)
  rwa [Probe.losing, if_neg hphase] at hslot

theorem fedAfter_start {c ep d : Nat} {m : Mode} {a : PathRecord} (hlen : s.roster.entries.length = 24)
    (hpay : r.payload = .probeStart c ep m d) (hok : ((probesOf s).map (·.circuit)).Nodup) (hp : probeAt s i = some p)
    (hphase : p.phase = .claiming) (hc : p.circuit = c) (hep : p.epoch = ep) (ha : findPath s c = some a) :
    (∃ q, probeAt (fedAfter r b attempts u) i = some q ∧
      Driven b (!s.loop.up) p q a s (fedAfter r b attempts u)) ∧
    (fedAfter r b attempts u).lines = s.lines.set a.line (some (c, ep)) := by
  obtain ⟨fell, hfell, hslots⟩ := probeAt_fedAfter (r := r) (b := b) (attempts := attempts) hu hlen
  obtain ⟨hnow, -, hlines, -, hprobes, -⟩ := hu.fields
  have hp' : probeAt u i = some p := by rw [probeAt, hprobes]; exact hp
  have hok' : ((probesOf u).map (·.circuit)).Nodup := by rwa [probesOf, hprobes]
  have ha' : findPath u c = some a := by rw [findPath, hu.agree.paths]; exact ha
  have hhanded : handed r b u = drive a.line c ep (putSlot i (some (drivingProbe u p a b false)) u) :=
    handOutcome_start (e := .delivered) hpay hok' hp' hphase hc hep ha'
  have hdriven : probeAt (handed r b u) i = some (drivingProbe u p a b false) := by
    rw [hhanded]
    exact (probeAt_putSlot i i _ u (lt_of_probeAt hp')).trans (if_pos rfl)
  have hcrosses : baselineCrosses (handed r b u) (drivingProbe u p a b false) =
      fun n => (a.baseline.getD []).any fun y => y.station == n :=
    funext fun n => handed_crosses hu (p := p) (q := drivingProbe u p a b false) rfl (hc.symm ▸ ha) n
  have hslot := hslots hdriven
  rw [hcrosses, Probe.losing, if_pos (show (drivingProbe u p a b false).phase = .driving from rfl)] at hslot
  refine ⟨⟨_, hslot, ?_, fun n hn => ?_, fun n hn => ?_, fun hrok hown => ?_⟩, ?_⟩
  · obtain ⟨hnow', -⟩ := fedAfter_frame (r := r) (b := b) (attempts := attempts) hu
    rw [foldl_addStation_ne_zero fun n => stationOk_of_missesOut]
    simp only [drivingProbe, hnow, hnow', hu.agree.image, hu.loop.2.2.2.2, Bool.false_or]
  · have hokn := (mem_stationNumbers n).1 hn
    have hblind : stationIn (blindAt u p b) n = (n != s.image.station &&
        ((isPresent s n && !stationIn b.taken n) || stationIn p.joiners n)) := by
      rw [blindAt, stationIn_stationsWith _ n hokn, State.own, hu.agree.image, hu.isPresent]
    exact hblind
  · have hokn := (mem_stationNumbers n).1 hn
    have hstart : stationIn (drivingProbe u p a b false).absent n =
        (n != s.image.station && a.crosses n && !isPresent s n) := by
      rw [drivingProbe]
      simp only
      rw [absentAt, stationIn_stationsWith _ n hokn, State.own, hu.agree.image, hu.isPresent]
    dsimp only
    rw [stationIn_losing (r := r) hu hlen hn, hstart, turnedAbsent, PathRecord.crosses]
    by_cases hne : n = s.image.station
    · simp [hne]
    · have hpresent : isPresent s n = false → isPresent (fedAfter r b attempts u) n = false := by
        intro hnot
        rw [isPresent, rosterAt_fedAfter hu hlen hokn hne, fedEntry, if_pos (show (rosterAt s n).present = false from hnot)]
        exact hnot
      rw [bne_iff_ne.2 hne]
      cases hs : isPresent s n with
      | false => simp [hpresent hs]
      | true => simp
  · have hown' : isPresent (afterOutcome r b s) s.image.station = true := by
      rw [isPresent, rosterAt, afterOutcome_roster (by rw [hpay]; exact (by decide : (7 : Nat) ≠ 1))]
      exact hown
    dsimp only
    rw [hfell (graded_of_rosterOk hrok) hown', Bool.or_false, drivingProbe_lowGrade]
  · have hfed : (fedAfter r b attempts u).lines = (handed r b u).lines := by simp [fedAfter]
    rw [hfed, hhanded, ← hlines]
    rfl

theorem fedAfter_end {c ep : Nat} {v : Verdict} {f : VerdictFlags} (hlen : s.roster.entries.length = 24)
    (hpay : r.payload = .probeEnd c ep v f) (hok : ((probesOf s).map (·.circuit)).Nodup) (hp : probeAt s i = some p)
    (hphase : p.phase = .closing) (hc : p.circuit = c) (hep : p.epoch = ep) :
    probeAt (fedAfter r b attempts u) i = none := by
  have hprobes := hu.fields.2.2.2.2.1
  have hp' : probeAt u i = some p := by rw [probeAt, hprobes]; exact hp
  have hok' : ((probesOf u).map (·.circuit)).Nodup := by rwa [probesOf, hprobes]
  have hhanded : handed r b u = putSlot i none u := handOutcome_end (e := .delivered) hpay hok' hp' hphase hc hep
  have hfreed : probeAt (handed r b u) i = none := by
    rw [hhanded]
    exact (probeAt_putSlot i i _ u (lt_of_probeAt hp')).trans (if_pos rfl)
  obtain ⟨fell, -, hslots⟩ := (lost_fedAfter (r := r) (b := b) (attempts := attempts) hu hlen).probes
  rw [probeAt, List.getD_eq_getElem?_getD] at hfreed
  rw [probeAt, hslots, List.getD_eq_getElem?_getD, slotsLosing, List.getElem?_map]
  cases hslot : (handed r b u).probes.slots[i]? with
  | none => rfl
  | some o =>
    rw [hslot] at hfreed
    obtain rfl : o = none := hfreed
    rfl

/-! ### The windows -/

theorem find_fedAfter (hlen : s.roster.entries.length = 24) (hok : (s.windows.list.map (·.serial)).Nodup)
    (hw : findWindow (afterOutcome r b s) ser = some w) : findWindow (fedAfter r b attempts u) ser =
      if w.lostLast s.image.station (turnedAbsent s (fedAfter r b attempts u)) then none
      else some (w.losing s.image.station (turnedAbsent s (fedAfter r b attempts u))) := by
  rw [findWindow, fedAfter_windows hu hlen hok]
  exact find_windowsLosing (hok.sublist serials_afterOutcome) hw

/-- A window that awaits none of the stations lost stays as the outcome left it. -/
theorem find_fedAfter_of_same (hlen : s.roster.entries.length = 24) (hok : (s.windows.list.map (·.serial)).Nodup)
    (hw : findWindow (afterOutcome r b s) ser = some w)
    (hsame : w.losing s.image.station (turnedAbsent s (fedAfter r b attempts u)) = w) :
    findWindow (fedAfter r b attempts u) ser = some w := by
  rw [find_fedAfter hu hlen hok hw, lostLast_of_same hsame, hsame]
  rfl

theorem find_fedAfter_none (hlen : s.roster.entries.length = 24) (hok : (s.windows.list.map (·.serial)).Nodup)
    (hw : findWindow (afterOutcome r b s) ser = none) : findWindow (fedAfter r b attempts u) ser = none := by
  rw [findWindow, fedAfter_windows hu hlen hok]
  exact find_windowsLosing_none hw

theorem fedAfter_requests (hlen : s.roster.entries.length = 24) (hok : (s.windows.list.map (·.serial)).Nodup) :
    (fedAfter r b attempts u).windows.requests = (afterOutcome r b s).windows.requests := by
  rw [fedAfter_windows hu hlen hok]

/-- The report of the outcome stands behind those before it. -/
theorem fedAfter_report (hlen : s.roster.entries.length = 24) {a : Report} (ha : outcomeReports r b s = [a])
    (hroom : s.ctl.queue.length < 32) : (fedAfter r b attempts u).ctl.queue[s.ctl.queue.length]? =
      some (s.ctl.reportNumber, a) := by
  have hqueue := handed_queue (r := r) (b := b) hu
  have hone : (postEach [a] s).ctl.queue = s.ctl.queue ++ [(s.ctl.reportNumber, a)] :=
    (postReport_queue a s).trans (if_pos hroom)
  rw [ha, hone] at hqueue
  have hprefix := (lost_fedAfter (r := r) (b := b) (attempts := attempts) hu hlen).posted.queue
  rw [hqueue] at hprefix
  obtain ⟨rest, hrest⟩ := hprefix
  rw [← hrest, List.append_assoc, List.getElem?_append_right le_rfl, Nat.sub_self]
  rfl

/-! ### The outcome of a first WINDOW OPEN -/

theorem fedAfter_open {scope : PortSet} (hlen : s.roster.entries.length = 24) (hpay : r.payload = .windowOpen ser scope)
    (hown : r.purpose = .own) (hlisted : (findWindow s ser).isSome = true) (hroom : s.ctl.queue.length < 32) :
    (b.refused &&& ~~~b.taken = 0 → (fedAfter r b attempts u).ctl.queue[s.ctl.queue.length]? =
      some (s.ctl.reportNumber, .openConfirmed ser (unmarkedPresent s b))) ∧
    (b.refused &&& ~~~b.taken ≠ 0 → findWindow (fedAfter r b attempts u) ser = none ∧
      ((fedAfter r b attempts u).windows.requests.any fun q => q.payload == .windowCancel ser) = true ∧
      (fedAfter r b attempts u).ctl.queue[s.ctl.queue.length]? = some (s.ctl.reportNumber,
        .openRefused ser (b.refused &&& ~~~b.taken))) := by
  have hreports : outcomeReports r b s = if b.refused &&& ~~~b.taken ≠ 0 then
      [.openRefused ser (b.refused &&& ~~~b.taken)] else [.openConfirmed ser (unmarkedPresent s b)] := by
    rw [outcomeReports, hpay]
    exact if_pos ⟨hown, hlisted⟩
  refine ⟨fun hzero => ?_, fun hrefused => ?_⟩
  · exact fedAfter_report hu hlen (hreports.trans (if_neg (not_not.2 hzero))) hroom
  · obtain ⟨w, hw⟩ := Option.isSome_iff_exists.1 hlisted
    have hw' : findWindow u ser = some w := (hu.agree.findWindow ser).trans hw
    have hwindows : (handed r b u).windows = (afterOpenOutcome ser b u).windows := by
      rw [handed, handOutcome, hpay]
      dsimp only
      rw [if_pos hown]
      exact openOutcome_windows_of_refused hw' hrefused
    rw [afterOpenOutcome_of_refused hw' hrefused] at hwindows
    have hlost := lost_fedAfter (r := r) (b := b) (attempts := attempts) hu hlen
    refine ⟨hlost.unlisted ser ?_, ?_, fedAfter_report hu hlen (hreports.trans (if_pos hrefused)) hroom⟩
    · rw [findWindow, hwindows]
      refine List.find?_eq_none.2 fun v hv => ?_
      simpa using (List.mem_filter.1 hv).2
    · rw [hlost.kept.1, hwindows]
      exact any_noticeAsked_windowCancel _ _

omit hu in
theorem afterOutcome_open {scope : PortSet} (hpay : r.payload = .windowOpen ser scope) (hown : r.purpose = .own) :
    afterOutcome r b s = afterOpenOutcome ser b s := by
  rw [afterOutcome, hpay]
  exact if_pos hown

omit hu in
theorem findWindow_of_rewritten {z : WindowUnit} (hlist : z.list = rewritten ser (fun _ => w) s) (hser : w.serial = ser)
    {v : Window} (hv : findWindow s ser = some v) : z.list.find? (·.serial == ser) = some w := by
  have hfind := find_map_key Window.serial (fun x => { w with serial := x.serial }) (fun _ => rfl) ser ser s.windows.list
  have hsame : rewritten ser (fun _ => w) s =
      s.windows.list.map fun x => if x.serial = ser then { w with serial := x.serial } else x := by
    refine List.map_congr_left fun x _ => ?_
    split
    · rename_i hx
      rw [hx, ← hser]
    · rfl
  have hv' : (s.windows.list.find? fun x => x.serial == ser) = some v := hv
  rw [hlist, hsame]
  rw [hv', Option.map_some, if_pos rfl, serial_of_findWindow hv, ← hser] at hfind
  rw [← hser] at *
  exact hfind

theorem fedAfter_received {scope : PortSet} (hlen : s.roster.entries.length = 24)
    (hpay : r.payload = .windowOpen ser scope) (hown : r.purpose = .own) (hok : WindowsOk s)
    (hzero : b.refused &&& ~~~b.taken = 0) (hw : findWindow s ser = some w) :
    (w.state = .opened ∨ (w.state = .settling ∧ w.settle ≠ .expired) →
      findWindow (fedAfter r b attempts u) ser = some { w with openReceived := true } ∧
      (fedAfter r b attempts u).windows.requests = s.windows.requests) ∧
    (w.state = .settling → w.settle = .expired →
      ∃ v, findWindow (fedAfter r b attempts u) ser = some v ∧ v.openReceived = true ∧ v.state = .closing ∧
        v.settle = .stopped ∧ v.counts = w.counts ∧
        ((fedAfter r b attempts u).windows.requests.any fun q => q.payload == .windowClose ser) = true) := by
  have hser := serial_of_findWindow hw
  have hafter : afterOutcome r b s = afterOpenOutcome ser b s := afterOutcome_open hpay hown
  have hrequests := fedAfter_requests (r := r) (b := b) (attempts := attempts) hu hlen hok.1
  rw [hafter] at hrequests
  refine ⟨fun hstate => ?_, fun hstate hsettle => ?_⟩
  · have hready : ¬ (w.state = .settling ∧ w.settle = .expired) := by
      rintro ⟨h, hexpired⟩
      rcases hstate with hopened | ⟨-, hnot⟩
      · rw [h] at hopened
        cases hopened
      · exact hnot hexpired
    have hspec := afterOpenOutcome_of_received hw hzero hready
    have hfound : findWindow (afterOutcome r b s) ser = some { w with openReceived := true } := by
      rw [hafter, hspec]
      exact findWindow_of_rewritten (w := { w with openReceived := true }) rfl hser hw
    rw [hspec] at hrequests
    refine ⟨find_fedAfter_of_same hu hlen hok.1 hfound (losing_of_not_loses ?_), hrequests⟩
    rintro ⟨-, hloses⟩
    rcases hstate with h | ⟨h, -⟩
    · rw [h] at hloses
      simp at hloses
    · rw [h] at hloses
      simp at hloses
  · have hspec := afterOpenOutcome_of_ready hw hzero ⟨hstate, hsettle⟩
    have hfound : findWindow (afterOutcome r b s) ser = some { w.leaving s with openReceived := true } := by
      rw [hafter, hspec]
      exact findWindow_of_rewritten (w := { w.leaving s with openReceived := true }) rfl hser hw
    have hlast : ({ w.leaving s with openReceived := true } : Window).lostLast s.image.station
        (turnedAbsent s (fedAfter r b attempts u)) = false := by
      rw [Bool.eq_false_iff]
      intro h
      exact WindowState.noConfusion (lostLast_iff.1 h).2.1
    rw [hspec] at hrequests
    refine ⟨_, (find_fedAfter hu hlen hok.1 hfound).trans (if_neg (by simp [hlast])), rfl, rfl, rfl, rfl, ?_⟩
    rw [hrequests]
    exact any_noticeAsked_windowClose _ _

/-! ### The outcome of a WINDOW CLOSE -/

omit hu in
theorem any_awaited (l : List TallyEntry) : l.any (· == .awaited) = !(l.all (· != .awaited)) := by
  rw [List.all_eq_not_any_not, Bool.not_not]
  simp [bne]

theorem fedAfter_close (hlen : s.roster.entries.length = 24) (hpay : r.payload = .windowClose ser) (hok : WindowsOk s)
    (hw : findWindow s ser = some w) (hstate : w.state = .closing) :
    ((w.delivered s.image.station b).table.any (· == .awaited) = true →
      findWindow (fedAfter r b attempts u) ser = some (w.delivered s.image.station b)) ∧
    ((w.delivered s.image.station b).table.any (· == .awaited) = false →
      findWindow (fedAfter r b attempts u) ser = none ∧
      (s.ctl.queue.length < 32 → (fedAfter r b attempts u).ctl.queue[s.ctl.queue.length]? =
        some (s.ctl.reportNumber, .windowSummary (w.delivered s.image.station b).summary))) := by
  have hser := serial_of_findWindow hw
  have hafter : afterOutcome r b s = afterCloseOutcome ser b s := by rw [afterOutcome, hpay]
  have hspec := afterCloseOutcome_of_closing (b := b) hw hstate
  rw [any_awaited]
  refine ⟨fun hsome => ?_, fun hnone => ?_⟩
  · have hnot : ¬ (w.delivered s.image.station b).table.all (· != .awaited) = true := by simpa using hsome
    have hfound : findWindow (afterOutcome r b s) ser = some (w.delivered s.image.station b) := by
      rw [hafter, hspec, if_neg hnot]
      exact findWindow_of_rewritten (w := w.delivered s.image.station b) rfl hser hw
    refine find_fedAfter_of_same hu hlen hok.1 hfound (losing_eq_of_tableAt fun n _ hawaited => ?_)
    rw [turnedAbsent_fedAfter hu hlen, List.contains_eq_mem, decide_eq_false_iff_not]
    intro hmem
    obtain ⟨hin, hmissed⟩ := List.mem_filter.1 hmem
    obtain ⟨hne, -, hmarked, -⟩ := missesOut_iff.1 hmissed
    have htaken : stationIn b.taken n = false := (Bool.or_eq_false_iff.1 hmarked).1
    have htable := tableAt_map (w := w.delivered s.image.station b) (f := fun n =>
      if n ≠ s.image.station ∧ w.tableAt n = .awaited ∧ stationIn b.taken n = false then .unreached else w.tableAt n)
      rfl ((mem_stationNumbers n).1 hin)
    rw [hawaited] at htable
    split at htable
    · cases htable
    · rename_i h
      exact h ⟨hne, htable.symm, htaken⟩
  · have hall : (w.delivered s.image.station b).table.all (· != .awaited) = true := by simpa using hnone
    refine ⟨find_fedAfter_none hu hlen hok.1 ?_, fun hroom => fedAfter_report hu hlen ?_ hroom⟩
    · rw [hafter, hspec, if_pos hall]
      refine List.find?_eq_none.2 fun v hv => ?_
      simpa using (List.mem_filter.1 hv).2
    · rw [outcomeReports, hpay]
      dsimp only
      rw [hw]
      exact if_pos ⟨hstate, hall⟩

/-! ### The outcome of a TALLY -/

theorem fedAfter_tally {counts : Tally} (hlen : s.roster.entries.length = 24) (hpay : r.payload = .tally ser counts)
    (hown : r.purpose = .own) (hother : ser.opener ≠ s.image.station) (hok : WindowsOk s)
    (hw : findWindow s ser = some w) (hstate : w.state = .closed) (hsent : w.tally = .sent) :
    (stationIn b.taken ser.opener = true → findWindow (fedAfter r b attempts u) ser = none) ∧
    (stationIn b.taken ser.opener = false → isPresent s ser.opener = true →
      findWindow (fedAfter r b attempts u) ser = some { w with tally := .pending } ∧
      (fedAfter r b attempts u).windows.requests = tallyAsked ser w.counts s.windows.requests) ∧
    (stationIn b.taken ser.opener = false → isPresent s ser.opener = false →
      findWindow (fedAfter r b attempts u) ser = some { w with tally := .unsent }) := by
  have hser := serial_of_findWindow hw
  have hafter : afterOutcome r b s = afterTallyOutcome ser b s := by
    rw [afterOutcome, hpay]
    exact if_pos hown
  have hspec := afterTallyOutcome_of_sent (b := b) hw ⟨hstate, hsent⟩
  have hrequests := fedAfter_requests (r := r) (b := b) (attempts := attempts) hu hlen hok.1
  have hkept (v : Window) (hv : v.serial = ser) :
      v.losing s.image.station (turnedAbsent s (fedAfter r b attempts u)) = v :=
    losing_of_not_loses fun h => hother (hv ▸ h.1)
  rw [hafter, hspec] at hrequests
  refine ⟨fun htaken => find_fedAfter_none hu hlen hok.1 ?_, fun htaken hpresent => ?_, fun htaken habsent => ?_⟩
  · rw [hafter, hspec, if_pos htaken]
    refine List.find?_eq_none.2 fun v hv => ?_
    simpa using (List.mem_filter.1 hv).2
  · rw [if_neg (by simp [htaken]), if_pos hpresent] at hrequests
    refine ⟨find_fedAfter_of_same hu hlen hok.1 ?_ (hkept _ hser), hrequests⟩
    rw [hafter, hspec, if_neg (by simp [htaken]), if_pos hpresent]
    exact findWindow_of_rewritten (w := { w with tally := .pending }) rfl hser hw
  · refine find_fedAfter_of_same hu hlen hok.1 ?_ (hkept _ hser)
    rw [hafter, hspec, if_neg (by simp [htaken]), if_neg (by simp [habsent])]
    exact findWindow_of_rewritten (w := { w with tally := .unsent }) rfl hser hw

end Delivery

end Sys2Proof.Machine
end

