-- ==== Sys2Proof/Proofs/ReturnTimeouts.lean ====
section
/-! The end of the last attempt on a notice: RETURN_TIMEOUT, and the outcome that a delivery gives (R150 to R152, R166). -/

namespace Sys2Proof.Machine

variable {s t u : State} {o : Outstanding} {b : BestMarks} {n : Nat}

/-! ### The outcome of a delivery -/

/-- What is read of an outcome does not stand in the outstanding list. -/
theorem outcomeTaken_leaveOutstanding (h : OutcomeTaken o b s t) : OutcomeTaken o b s (leaveOutstanding n t) := by
  obtain ⟨hmisses, hall, habsences, hrecords, hroster, hgraded, hgrade, hwaiting, hown, hnew, hforward, hreceive, hhops,
    hscanner, hkept, hlines, hquarantine, hreset, hjoined, hjoin, hstart, hend, hopen, hreceived, hclose, htally⟩ := h
  have hfair (l : LoopPort) : l.fair.newNotices = l.newNotices ∧ l.fair.forward = l.forward ∧
      l.fair.receive = l.receive ∧ l.fair.quarantine = l.quarantine := by rw [fair_eq]; exact ⟨rfl, rfl, rfl, rfl⟩
  have hloop : (leaveOutstanding n t).loop.newNotices = t.loop.newNotices ∧
      (leaveOutstanding n t).loop.forward = t.loop.forward ∧ (leaveOutstanding n t).loop.receive = t.loop.receive ∧
      (leaveOutstanding n t).loop.quarantine = t.loop.quarantine := hfair _
  obtain ⟨hnew', hforward', hreceive', hquarantine'⟩ := hloop
  exact ⟨hmisses, hall, habsences, hrecords, hroster, hgraded, hgrade, hwaiting, hown, hnew'.trans hnew,
    hforward'.trans hforward, hreceive'.trans hreceive, hhops, hscanner, hkept, hlines,
    fun h => hquarantine'.trans (hquarantine h), fun h => hquarantine'.trans (hreset h), hjoined, hjoin, hstart, hend,
    hopen, hreceived, hclose, htally⟩

/-- The Loop Port and the blocks after a delivery, from a state beside s. -/
theorem outcomeTaken_fedAfter (hu : Beside s u) (hlen : s.roster.entries.length = 24)
    (hmarks : unmarkedPresent s b = 0 ∨ o.attempts = 4) :
    OutcomeTaken o b s (fedAfter o.request b o.attempts u) := by
  have hloop : (fedAfter o.request b o.attempts u).loop = _ := fedAfter_loop
  obtain ⟨hnew, hforward, hreceive, hquarantine, -⟩ := hu.loop
  obtain ⟨-, hhops, hscanner, -⟩ := fedAfter_frame (r := o.request) (b := b) (attempts := o.attempts) hu
  have hmisses := missesFed_fedAfter (r := o.request) hu hlen hmarks
  have hall (hnone : unmarkedPresent s b = 0) (x : Nat) (hx : x ∈ stationNumbers) (hne : x ≠ s.image.station) :=
    rosterAt_of_all_marked (r := o.request) (attempts := o.attempts) hu hlen hnone ((mem_stationNumbers x).1 hx) hne
  have habsences := absencesTold_fedAfter (r := o.request) (b := b) (attempts := o.attempts) hu hlen
  have hrecords (hnd : (pathOrder s).Nodup) := fedAfter_records (r := o.request) (b := b) (attempts := o.attempts) hu hnd
  have hroster := fedAfter_roster (r := o.request) (b := b) (attempts := o.attempts) hu hlen
  have hgraded (hok : RosterOk s) :=
    fedAfter_graded (r := o.request) (b := b) (attempts := o.attempts) hu hlen (graded_of_rosterOk hok)
  have hgrade := fedAfter_grade (r := o.request) (b := b) (attempts := o.attempts) hu hlen
  have hwaiting {i : Nat} {p : Probe} (hs : o.request.payload.kind ≠ 7) (he : o.request.payload.kind ≠ 9) :=
    fedAfter_waiting (i := i) (p := p) (b := b) (attempts := o.attempts) hu hlen hs he
  have hown := rosterAt_fedAfter_own (r := o.request) (b := b) (attempts := o.attempts) hu hlen
  have hkept (h : o.request.payload.kind ≠ 3) := fedAfter_records_of_kind (b := b) (attempts := o.attempts) hu h
  have hlines (h : o.request.payload.kind ≠ 7) := fedAfter_lines (b := b) (attempts := o.attempts) hu h
  have hjoined := fedAfter_joined (r := o.request) (b := b) (attempts := o.attempts) hu hlen
  have hstart {i : Nat} {p : Probe} {c e d : Nat} {m : Mode} {a : PathRecord} :=
    fedAfter_start (r := o.request) (b := b) (attempts := o.attempts) (i := i) (p := p) (c := c) (ep := e) (d := d)
      (m := m) (a := a) hu hlen
  have hend {i : Nat} {p : Probe} {c e : Nat} {v : Verdict} {f : VerdictFlags} :=
    fedAfter_end (r := o.request) (b := b) (attempts := o.attempts) (i := i) (p := p) (c := c) (ep := e) (v := v)
      (f := f) hu hlen
  have hopen {ser : Serial} {scope : PortSet} :=
    fedAfter_open (r := o.request) (b := b) (attempts := o.attempts) (ser := ser) (scope := scope) hu hlen
  have hreceived {ser : Serial} {scope : PortSet} {w : Window} :=
    fedAfter_received (r := o.request) (b := b) (attempts := o.attempts) (ser := ser) (scope := scope) (w := w) hu hlen
  have hclose {ser : Serial} {w : Window} :=
    fedAfter_close (r := o.request) (b := b) (attempts := o.attempts) (ser := ser) (w := w) hu hlen
  have htally {ser : Serial} {counts : Tally} {w : Window} :=
    fedAfter_tally (r := o.request) (b := b) (attempts := o.attempts) (ser := ser) (counts := counts) (w := w) hu hlen
  generalize fedAfter o.request b o.attempts u = f at *
  refine ⟨hmisses, hall, habsences, fun _ hnd => hrecords hnd, hroster, hgraded, hgrade,
    fun hs he i _ p hp hphase => hwaiting hs he hp hphase, fun hkind => ?_, ?_, ?_, ?_, hhops, hscanner, hkept, hlines,
    fun hkind => ?_, fun hkind => ?_, fun hkind => ?_, fun hkind => ⟨?_, fun hok => ?_⟩,
    fun c e d m hpay hok i _ p hp hc he hphase a ha => hstart hpay hok.2.1 hp hphase hc he ha,
    fun c e v f hpay hok i _ p hp hc he hphase => hend hpay hok.2.1 hp hphase hc he,
    fun ser scope hpay hown hlisted hroom => hopen hpay hown hlisted hroom,
    fun ser scope hpay hown hok hzero w hw => hreceived hpay hown hok hzero hw,
    fun ser hpay hok w hw hstate => hclose hpay hok hw hstate,
    fun ser counts hpay hown hother hok w hw hstate hsent => htally hpay hown hother hok hw hstate hsent⟩
  · rw [hown, rosterAt, afterOutcome_roster hkind, rosterAt]
  · rw [hloop, ← hnew]
    split <;> rfl
  · rw [hloop, ← hforward]
    split <;> rfl
  · rw [hloop, ← hreceive]
    split <;> rfl
  · rw [hloop, if_neg hkind, hquarantine]
  · rw [hloop, if_pos hkind]
  · rw [hjoined, beq_false_of_ne hkind, Bool.or_false]
  · rw [hjoined, hkind]
    simp
  · rw [hown, afterOutcome_of_join hkind, rosterAt_afterJoinOutcome_own hlen hok]

theorem giveOutcome_delivered (o : Outstanding) (u : State) : giveOutcome o .delivered u =
    leaveOutstanding o.number (fedAfter o.request o.best o.attempts (linger o.number u)) := rfl

/-- A change of the entries and retries of the outstanding list. -/
theorem beside_linger (h : Beside s u) (n : Nat) : Beside s (linger n u) := by
  obtain ⟨hblocks, hloop⟩ := h
  have hfair (l : LoopPort) : l.fair.newNotices = l.newNotices ∧ l.fair.forward = l.forward ∧
      l.fair.receive = l.receive ∧ l.fair.quarantine = l.quarantine ∧ l.fair.up = l.up := by
    rw [fair_eq]
    exact ⟨rfl, rfl, rfl, rfl, rfl⟩
  have hsame : (linger n u).loop.newNotices = u.loop.newNotices ∧ (linger n u).loop.forward = u.loop.forward ∧
      (linger n u).loop.receive = u.loop.receive ∧ (linger n u).loop.quarantine = u.loop.quarantine ∧
      (linger n u).loop.up = u.loop.up := hfair _
  obtain ⟨hnew, hforward, hreceive, hquarantine, hup⟩ := hsame
  obtain ⟨hnew', hforward', hreceive', hquarantine', hup'⟩ := hloop
  refine ⟨?_, hnew.trans hnew', hforward.trans hforward', hreceive.trans hreceive', hquarantine.trans hquarantine',
    hup.trans hup'⟩
  rw [linger, changeLoop, hblocks]
  rfl

theorem outcomeTaken_giveOutcome (hu : Beside s u) (hlen : s.roster.entries.length = 24)
    (hmarks : unmarkedPresent s o.best = 0 ∨ o.attempts = 4) : OutcomeTaken o o.best s (giveOutcome o .delivered u) := by
  rw [giveOutcome_delivered]
  exact outcomeTaken_leaveOutstanding (outcomeTaken_fedAfter (beside_linger hu o.number) hlen hmarks)

/-! ### The Loop Port -/

/-- The Loop Port after an outcome. -/
theorem giveOutcome_delivered_loop (o : Outstanding) (u : State) : (giveOutcome o .delivered u).loop = { u.loop with
    retries := u.loop.retries.erase o.number
    outstanding := (u.loop.outstanding.map fun x =>
      if x.number = o.number then { x with standing := .lingering } else x).filter fun x =>
        !(x.number == o.number && x.over u.now)
    quarantine := (giveOutcome o .delivered u).loop.quarantine
    fairness := (giveOutcome o .delivered u).loop.fairness } := by
  have hnow : (fedAfter o.request o.best o.attempts (linger o.number u)).now = u.now := by
    simp [fedAfter, handed]
  have hloop : (fedAfter o.request o.best o.attempts (linger o.number u)).loop = _ := fedAfter_loop
  rw [giveOutcome_delivered, leaveOutstanding, changeLoop]
  simp only [State.setLoop_fields, hnow]
  rw [fair_eq, hloop, linger, changeLoop]
  simp only [State.setLoop_fields]
  rw [fair_eq]
  split <;> rfl

/-! ### RETURN_TIMEOUT (R150, R151) -/

theorem exec_returnTimeout (ho : findEntry s n = some o) (hflight : o.standing = .inFlight) :
    exec (.returnTimeout n) s = .next (endAttempt o (advanceTo (o.lastSent + 20) s)) := by
  have harm : exec (.returnTimeout n) s = execReturnTimeout n s := rfl
  rw [harm, execReturnTimeout, ho]
  exact if_pos hflight

theorem endAttempt_of_last (h : unmarkedPresent s o.best = 0 ∨ 4 ≤ o.attempts) :
    endAttempt o s = giveOutcome o .delivered s := if_pos h

theorem endAttempt_of_open (hmarks : unmarkedPresent s o.best ≠ 0) (hattempts : o.attempts < 4) :
    endAttempt o s = waitRetry o.number s := by
  refine if_neg ?_
  rintro (h | h)
  · exact hmarks h
  · exact absurd h (Nat.not_le.2 hattempts)

theorem number_of_findEntry (ho : findEntry s n = some o) : o.number = n := by
  simpa using List.find?_some ho

/-- No entry of an ended number stands open. -/
theorem lingering_of_giveOutcome {x : Outstanding} (hx : x ∈ (giveOutcome o .delivered u).loop.outstanding)
    (hn : x.number = o.number) : x.standing = .lingering := by
  rw [giveOutcome_delivered_loop] at hx
  obtain ⟨y, -, rfl⟩ := List.mem_map.1 (List.mem_filter.1 hx).1
  split at hn
  · rename_i h
    rw [if_pos h]
  · rename_i h
    exact absurd hn h

/-- What absences tell reads of the state that the outcome left these blocks alone. -/
theorem absencesTold_of_agree {mid mid' : State} {l : List Report} (hwindows : mid'.windows = mid.windows)
    (hroster : mid'.roster = mid.roster) (h : AbsencesTold mid l s t) : AbsencesTold mid' l s t := by
  obtain ⟨hslots, htables⟩ := h
  have hpresent (x : Nat) : isPresent mid' x = isPresent mid x := by
    rw [isPresent, rosterAt, hroster, isPresent, rosterAt]
  refine ⟨fun hok i hi p hp hphase r hr => ?_, fun hok => ?_⟩
  · obtain ⟨q, hq, hsame, habsent, hlow⟩ := hslots hok i hi p hp hphase r hr
    refine ⟨q, hq, hsame, habsent, fun hrok hown => ?_⟩
    rw [hroster]
    exact hlow hrok ((hpresent _).symm.trans hown)
  · rw [hwindows]
    exact htables hok

/-- The clock is no part of what an outcome reads. -/
theorem outcomeTaken_setNow {m : Nat} (h : OutcomeTaken o b (s.setNow m) t) : OutcomeTaken o b s t := by
  obtain ⟨hmisses, hall, habsences, hrecords, hroster, hgraded, hgrade, hwaiting, hown, hnew, hforward, hreceive, hhops,
    hscanner, hkept, hlines, hquarantine, hreset, hjoined, hjoin, hstart, hend, hopen, hreceived, hclose, htally⟩ := h
  have hsame : Agree s (s.setNow m) := ⟨rfl, rfl, rfl, rfl, rfl⟩
  obtain ⟨-, hwindows', hroster', hpaths', hsched'⟩ := hsame.afterOutcome (r := o.request) (b := b)
  rw [hsame.outcomeReports] at habsences
  refine ⟨hmisses, hall, absencesTold_of_agree (s := s) hwindows'.symm hroster'.symm habsences, fun hok hnd => ?_, ?_,
    hgraded, hgrade, hwaiting, hown, hnew, hforward, hreceive, hhops, hscanner, hkept, hlines, hquarantine, hreset,
    hjoined, hjoin, hstart, hend, hopen, hreceived, hclose, htally⟩
  · rw [← hpaths', ← hsched']
    exact hrecords hok hnd
  · rw [← hroster']
    exact hroster

/-- Settles O47: the retry, by what `endAttempt` does; the outcome, by what a delivery gives. -/
theorem returnTimeoutsRetryThenFeedMissRuns : Obligations.ReturnTimeoutsRetryThenFeedMissRuns := by
  intro n o s ho hflight
  have hnumber := number_of_findEntry ho
  have hexec := exec_returnTimeout ho hflight
  refine ⟨fun hmarks hattempts => ⟨_, hexec, ?_⟩, fun hlast hlen => ⟨_, hexec, ?_⟩⟩
  · rw [endAttempt_of_open (s := advanceTo (o.lastSent + 20) s) hmarks hattempts, waitRetry, changeLoop, fair_eq, hnumber]
    exact ⟨rfl, rfl, rfl, rfl⟩
  · have hlast' : unmarkedPresent s o.best = 0 ∨ 4 ≤ o.attempts := hlast.imp id fun h => h.ge
    have htaken := outcomeTaken_giveOutcome (s := advanceTo (o.lastSent + 20) s) ⟨rfl, rfl, rfl, rfl, rfl, rfl⟩ hlen hlast
    have hloop := giveOutcome_delivered_loop o (advanceTo (o.lastSent + 20) s)
    have hlingering {x : Outstanding} (hx : x ∈ (giveOutcome o .delivered (advanceTo (o.lastSent + 20) s)).loop.outstanding) :=
      lingering_of_giveOutcome hx
    have hnow : (giveOutcome o .delivered (advanceTo (o.lastSent + 20) s)).now = max s.now (o.lastSent + 20) := by
      simp [giveOutcome, advanceTo]
    rw [endAttempt_of_last (s := advanceTo (o.lastSent + 20) s) hlast', ← hnumber]
    generalize giveOutcome o .delivered (advanceTo (o.lastSent + 20) s) = v at *
    refine ⟨hnow, outcomeTaken_setNow htaken, fun x hx hn => hlingering hx hn, ?_⟩
    rw [hloop]
    rfl

end Sys2Proof.Machine
end

