-- ==== Sys2Proof/Proofs/OwnCopies.lean ====
section
/-! Returning copies of this station's own notices (R140, R150 to R152, R197). -/

namespace Sys2Proof.Machine

variable {s t u : State} {o x : Outstanding} {b m : BestMarks} {n : Nat} {c : Copy} {l l' : LoopPort}

/-! ### The fairness count (R146) -/

theorem fair_of_sendable (h : l.headSendable = true) : l.fair = l := if_pos h

theorem fairness_of_fair (h : l.fair = l) (hnot : l.headSendable = false) : l.fairness = 0 := by
  rw [fair_eq, hnot] at h
  exact (congrArg (·.fairness) h).symm

/-- A change that takes no head away keeps a count that is in order. -/
theorem fair_of_kept (hfair : l.fair = l) (hfairness : l'.fairness = l.fairness)
    (hsendable : l.headSendable = true → l'.headSendable = true) : l'.fair = l' := by
  cases h : l'.headSendable with
  | true => exact fair_of_sendable h
  | false =>
    refine fair_of_zero (hfairness.trans (fairness_of_fair hfair ?_))
    by_contra hnot
    rw [hsendable (by simpa using hnot)] at h
    cases h

theorem headSendable_congr (hup : l'.up = l.up) (hretries : l'.retries = l.retries)
    (hnew : l'.newNotices = l.newNotices) (hnumber : l'.number = l.number)
    (hnumbers : l'.outstanding.map (·.number) = l.outstanding.map (·.number)) :
    l'.headSendable = l.headSendable := by
  have hhead (k : LoopPort) : (k.outstanding.head?.all fun o => (k.number + 256 - o.number) % 256 ≤ 31) =
      ((k.outstanding.map (·.number)).head?.all fun a => (k.number + 256 - a) % 256 ≤ 31) := by
    rw [List.head?_map, Option.all_map]
  have hlength : l'.outstanding.length = l.outstanding.length := by
    simpa using congrArg List.length hnumbers
  rw [headSendable_eq, headSendable_eq, hhead, hhead, hup, hretries, hnew, hnumber, hnumbers, hlength]

theorem fair_fair (l : LoopPort) : l.fair.fair = l.fair := by
  cases h : l.headSendable with
  | true => rw [fair_of_sendable h, fair_of_sendable h]
  | false =>
    refine fair_of_zero ?_
    rw [fair_eq, h]
    rfl

theorem heard_fair (s : State) : (heard s).loop.fair = (heard s).loop := by
  have hloop : (heard s).loop = ({ s.loop with up := true, silence := some (s.now + 50) } : LoopPort).fair := by
    unfold heard
    dsimp only
    rw [fair_eq]
    split <;> rfl
  rw [hloop, fair_fair]

/-! ### A copy that is stripped (R140) -/

theorem findEntry_heard : findEntry (heard s) n = findEntry s n := by simp [findEntry]

theorem exec_ownCopy (hrun : s.runState = .running) (hlen : c.payload.length < 256) (hkind : c.kind ≠ 0)
    (hown : c.originator.toNat = s.image.station) :
    exec (.noticeReceived c.bytes) s = .next (stripOwn c (heard s)) := by
  have himage : (heard s).own = s.image.station := by simp [State.own]
  rw [exec_noticeReceived_of_running hrun hlen hkind, takeCopy, if_pos (hown.trans himage.symm)]

theorem setFault_idClash (s : State) : setFault .idClash s = s.setCtl { s.ctl with
    faults := s.ctl.faults ||| 0b000100#6, alerts := s.ctl.alerts ||| 0b0000010#7 } := by
  have hfault : BitVec.twoPow 6 FaultFlag.idClash.bit = 0b000100#6 := by decide
  have halert : BitVec.twoPow 7 Alert.fault.bit = 0b0000010#7 := by decide
  rw [setFault, raiseAlert, hfault, halert]
  rfl

theorem stripOwn_of_unknown (h : ∀ o, findEntry s c.number.toNat = some o → c.carries o.request.payload = false) :
    stripOwn c s = setFault .idClash s := by
  rw [stripOwn]
  cases ho : findEntry s c.number.toNat with
  | none => rfl
  | some o => exact if_neg (by simp [h o ho])

theorem stripOwn_of_carried (ho : findEntry s c.number.toNat = some o) (h : c.carries o.request.payload = true) :
    stripOwn c s = returnCopy o (copyMarks s.image.station c.accept) s := by
  rw [stripOwn, ho]
  exact if_pos h

theorem heard_faults (s : State) : (heard s).ctl.faults = s.ctl.faults := by
  unfold heard
  dsimp only
  split <;> rfl

theorem exec_ownCopy_unknown (hrun : s.runState = .running) (hlen : c.payload.length < 256) (hkind : c.kind ≠ 0)
    (hown : c.originator.toNat = s.image.station)
    (h : ∀ o, findEntry s c.number.toNat = some o → c.notice ≠ some o.request.payload ∧
      ¬ (c.kind = byte o.request.payload.kind ∧ c.payload = o.request.payload.bytes)) :
    exec (.noticeReceived c.bytes) s = .next ((heard s).setCtl { (heard s).ctl with
      faults := s.ctl.faults ||| 0b000100#6
      alerts := (heard s).ctl.alerts ||| 0b0000010#7 }) := by
  rw [exec_ownCopy hrun hlen hkind hown, stripOwn_of_unknown fun o ho => ?_, setFault_idClash, heard_faults]
  rw [findEntry_heard] at ho
  obtain ⟨hnotice, hbytes⟩ := h o ho
  rw [Bool.eq_false_iff]
  exact fun hcarries => ((carries_iff c _).1 hcarries).elim hnotice hbytes

/-! ### The entry with its returned copy (R150) -/

/-- The entries with one returned copy of a number. -/
def returnedEntries (n : Nat) (m : BestMarks) (l : List Outstanding) : List Outstanding :=
  l.map fun x => if x.number = n then x.returning m else x

theorem numbers_returnedEntries (n : Nat) (m : BestMarks) (l : List Outstanding) :
    (returnedEntries n m l).map (·.number) = l.map (·.number) := by
  rw [returnedEntries, List.map_map]
  refine List.map_congr_left fun x _ => ?_
  simp only [Function.comp]
  split <;> rfl

/-- The state with the returned copy counted. -/
def returned (n : Nat) (m : BestMarks) (s : State) : State :=
  s.setLoop { s.loop with outstanding := returnedEntries n m s.loop.outstanding }

theorem modifyEntry_eq_returned (hfair : s.loop.fair = s.loop) :
    modifyEntry n (·.returning m) s = returned n m s := by
  have hkept : ({ s.loop with outstanding := returnedEntries n m s.loop.outstanding } : LoopPort).fair =
      { s.loop with outstanding := returnedEntries n m s.loop.outstanding } := by
    refine fair_of_kept hfair rfl fun h => ?_
    rw [← h]
    exact headSendable_congr rfl rfl rfl rfl (numbers_returnedEntries n m _)
  exact congrArg s.setLoop hkept

theorem exec_ownCopy_carried (hrun : s.runState = .running) (hlen : c.payload.length < 256) (hkind : c.kind ≠ 0)
    (hown : c.originator.toNat = s.image.station) (ho : findEntry s c.number.toNat = some o)
    (h : c.carries o.request.payload = true) : exec (.noticeReceived c.bytes) s =
      .next (afterReturn (o.returning (copyMarks s.image.station c.accept))
        (returned c.number.toNat (copyMarks s.image.station c.accept) (heard s))) := by
  have himage : (heard s).image.station = s.image.station := by simp
  have hnumber := number_of_findEntry ho
  rw [exec_ownCopy hrun hlen hkind hown, stripOwn_of_carried (findEntry_heard.trans ho) h, returnCopy, himage, hnumber,
    modifyEntry_eq_returned (heard_fair s)]

theorem unmarkedPresent_returned : unmarkedPresent (returned n m (heard s)) b = unmarkedPresent s b := by
  have hpresent (k : Nat) : isPresent (returned n m (heard s)) k = isPresent s k :=
    (rfl : _ = isPresent (heard s) k).trans (by simp [isPresent, rosterAt])
  have himage : (returned n m (heard s)).own = s.own := (rfl : _ = (heard s).own).trans (by simp [State.own])
  simp only [unmarkedPresent, hpresent, himage]

/-! ### A retry (R151) -/

theorem waitRetry_returned (hup : s.loop.up = true) : waitRetry n (returned n m s) = s.setLoop { s.loop with
    retries := s.loop.retries ++ [n]
    outstanding := s.loop.outstanding.map fun x =>
      if x.number = n then
        { x with best := x.best.merge m, returned := x.returned + 1, standing := .retryWaiting }
      else x } := by
  have hentries : ((returnedEntries n m s.loop.outstanding).map fun x =>
      if x.number = n then { x with standing := .retryWaiting } else x) = s.loop.outstanding.map fun x =>
        if x.number = n then
          { x with best := x.best.merge m, returned := x.returned + 1, standing := .retryWaiting }
        else x := by
    rw [returnedEntries, List.map_map]
    refine List.map_congr_left fun x _ => ?_
    simp only [Function.comp]
    by_cases hx : x.number = n
    · rw [if_pos hx, if_pos hx]
      exact if_pos hx
    · rw [if_neg hx, if_neg hx, if_neg hx]
  rw [waitRetry, changeLoop, fair_of_sendable, ← hentries]
  · rfl
  · rw [headSendable_eq]
    simp [returned, hup]

/-! ### A lingering entry (R152) -/

theorem age_le_head (hpairs : (s.loop.outstanding.map s.loop.age).Pairwise (· > ·)) {a y : Outstanding}
    (ha : s.loop.outstanding.head? = some a) (hy : y ∈ s.loop.outstanding) : s.loop.age y ≤ s.loop.age a := by
  cases hl : s.loop.outstanding with
  | nil => rw [hl] at hy; cases hy
  | cons z rest =>
    rw [hl] at ha hy hpairs
    obtain rfl : z = a := by simpa using ha
    rcases List.mem_cons.1 hy with rfl | hy
    · exact le_rfl
    · rw [List.map_cons, List.pairwise_cons] at hpairs
      exact (hpairs.1 _ (List.mem_map_of_mem hy)).le

/-- Entries that leave the list do not bar its head. -/
theorem headSendable_filter (hok : NumbersOk s) (p : Outstanding → Bool) (hsendable : s.loop.headSendable = true) :
    ({ s.loop with outstanding := (returnedEntries n m s.loop.outstanding).filter p } : LoopPort).headSendable = true := by
  obtain ⟨-, hpairs, -⟩ := hok
  rw [headSendable_eq] at hsendable ⊢
  simp only [Bool.and_eq_true, Bool.or_eq_true, decide_eq_true_eq] at hsendable ⊢
  obtain ⟨hup, hhead⟩ := hsendable
  refine ⟨hup, hhead.imp id fun ⟨⟨hnew, hlength⟩, hfirst⟩ => ⟨⟨hnew, ?_⟩, ?_⟩⟩
  · have hle := List.length_filter_le p (returnedEntries n m s.loop.outstanding)
    rw [returnedEntries, List.length_map] at hle
    exact lt_of_le_of_lt hle hlength
  · rw [Option.all_eq_true]
    intro y hy
    have hmem : y ∈ returnedEntries n m s.loop.outstanding :=
      (List.mem_filter.1 (List.mem_of_mem_head? hy)).1
    have hnumber : y.number ∈ s.loop.outstanding.map (·.number) := by
      rw [← numbers_returnedEntries n m]
      exact List.mem_map_of_mem hmem
    obtain ⟨z, hz, hznumber⟩ := List.mem_map.1 hnumber
    cases ha : s.loop.outstanding.head? with
    | none => rw [List.head?_eq_none_iff.1 ha] at hz; cases hz
    | some a =>
      rw [ha] at hfirst
      have hle := age_le_head hpairs ha hz
      have hlimit : s.loop.age a ≤ 31 := by simpa [LoopPort.age] using hfirst
      have hage : s.loop.age z = (s.loop.number + 256 - y.number) % 256 := by rw [LoopPort.age, hznumber]
      simpa [← hage] using hle.trans hlimit

theorem nodup_numbers (hok : NumbersOk s) : (s.loop.outstanding.map (·.number)).Nodup := by
  obtain ⟨-, hpairs, -⟩ := hok
  have hnodup : (s.loop.outstanding.map s.loop.age).Nodup := hpairs.imp fun h => (Nat.ne_of_lt h).symm
  have hkey : s.loop.outstanding.map s.loop.age =
      (s.loop.outstanding.map (·.number)).map fun a => (s.loop.number + 256 - a) % 256 := by
    rw [List.map_map]
    rfl
  rw [hkey] at hnodup
  exact hnodup.of_map

theorem leaveOutstanding_returned (hok : NumbersOk s) (hfair : s.loop.fair = s.loop) (ho : findEntry s n = some o)
    (hlingers : o.standing = .lingering) : leaveOutstanding n (returned n m s) = s.setLoop { s.loop with
      outstanding := (s.loop.outstanding.map fun x =>
        if x.number = n then { x with best := x.best.merge m, returned := x.returned + 1 } else x).filter fun x =>
          !(x.number == n && (x.transmitted ≤ x.returned || x.lastSent + 20 ≤ s.now)) } := by
  have hentries : (returnedEntries n m s.loop.outstanding).filter (fun x => !(x.number == n && x.over s.now)) =
      (returnedEntries n m s.loop.outstanding).filter fun x =>
        !(x.number == n && (x.transmitted ≤ x.returned || x.lastSent + 20 ≤ s.now)) := by
    refine List.filter_congr fun x hx => ?_
    cases hxn : x.number == n with
    | false => rfl
    | true =>
      obtain ⟨y, hy, rfl⟩ := List.mem_map.1 hx
      have hyn : y.number = n := by
        rw [beq_iff_eq] at hxn
        split at hxn
        · assumption
        · exact hxn
      obtain rfl := eq_of_findEntry (nodup_numbers hok) ho hy hyn
      rw [if_pos hyn]
      simp [Outstanding.over, Outstanding.returning, hlingers, Config.returnMs]
  have hkept := fair_of_kept hfair (l' := { s.loop with
    outstanding := (returnedEntries n m s.loop.outstanding).filter fun x => !(x.number == n && x.over s.now) }) rfl
    (headSendable_filter hok _)
  have hleave : leaveOutstanding n (returned n m s) = s.setLoop ({ s.loop with
    outstanding := (returnedEntries n m s.loop.outstanding).filter fun x => !(x.number == n && x.over s.now) }
      : LoopPort).fair := rfl
  rw [hleave, hkept, hentries]
  rfl

theorem numbersOk_heard (hok : NumbersOk s) : NumbersOk (heard s) := by
  obtain ⟨hnumber, hpairs, hall, hnodup, hretries, hwaiting⟩ := hok
  have hage : (heard s).loop.age = s.loop.age := by
    funext y
    simp [LoopPort.age]
  unfold NumbersOk
  rw [hage]
  simp only [heard_loop]
  exact ⟨hnumber, hpairs, hall, hnodup, hretries, hwaiting⟩

/-! ### The outcome (R151, R152) -/

theorem beside_returned (n : Nat) (m : BestMarks) (s : State) : Beside s (returned n m s) :=
  ⟨rfl, rfl, rfl, rfl, rfl, rfl⟩

/-- The Loop Port after the outcome that a returning copy brings. -/
theorem giveOutcome_returned_loop {m : BestMarks} (hn : o.number = n) :
    (giveOutcome (o.returning m) .delivered (returned n m s)).loop = { s.loop with
      retries := s.loop.retries.erase n
      outstanding := (s.loop.outstanding.map fun x =>
        if x.number = n then
          { x with best := x.best.merge m, returned := x.returned + 1, standing := .lingering }
        else x).filter fun x => !(x.number == n && (x.transmitted ≤ x.returned || x.lastSent + 20 ≤ s.now))
      quarantine := (giveOutcome (o.returning m) .delivered (returned n m s)).loop.quarantine
      fairness := (giveOutcome (o.returning m) .delivered (returned n m s)).loop.fairness } := by
  have hnumber : (o.returning m).number = n := hn
  have hentries : ((returnedEntries n m s.loop.outstanding).map fun x =>
      if x.number = n then { x with standing := .lingering } else x) = s.loop.outstanding.map fun x =>
        if x.number = n then
          { x with best := x.best.merge m, returned := x.returned + 1, standing := .lingering }
        else x := by
    rw [returnedEntries, List.map_map]
    refine List.map_congr_left fun x _ => ?_
    simp only [Function.comp]
    by_cases hx : x.number = n
    · rw [if_pos hx, if_pos hx]
      exact if_pos hx
    · rw [if_neg hx, if_neg hx, if_neg hx]
  have hover : ((s.loop.outstanding.map fun x =>
      if x.number = n then
        { x with best := x.best.merge m, returned := x.returned + 1, standing := .lingering }
      else x).filter fun x => !(x.number == n && x.over s.now)) = (s.loop.outstanding.map fun x =>
      if x.number = n then
        { x with best := x.best.merge m, returned := x.returned + 1, standing := .lingering }
      else x).filter fun x => !(x.number == n && (x.transmitted ≤ x.returned || x.lastSent + 20 ≤ s.now)) := by
    refine List.filter_congr fun x hx => ?_
    cases hxn : x.number == n with
    | false => rfl
    | true =>
      obtain ⟨y, -, rfl⟩ := List.mem_map.1 hx
      have hyn : y.number = n := by
        rw [beq_iff_eq] at hxn
        split at hxn
        · assumption
        · exact hxn
      rw [if_pos hyn]
      rfl
  have hloop := giveOutcome_delivered_loop (o.returning m) (returned n m s)
  rw [hnumber] at hloop
  generalize giveOutcome (o.returning m) .delivered (returned n m s) = v at *
  rw [hloop, ← hover, ← hentries]
  rfl

theorem afterReturn_of_outcome (hflight : o.standing ≠ .lingering)
    (h : unmarkedPresent s o.best = 0 ∨ (o.standing = .inFlight ∧ 4 ≤ o.attempts)) :
    afterReturn o s = giveOutcome o .delivered s := by
  rw [afterReturn]
  cases hstanding : o.standing with
  | inFlight => exact endAttempt_of_last (h.imp id And.right)
  | retryWaiting =>
    refine if_pos (h.resolve_right fun hboth => ?_)
    rw [hstanding] at hboth
    cases hboth.1
  | lingering => exact absurd hstanding hflight

/-! ### A waiting retry copy that is not needed any more -/

/-- The entry stands IN FLIGHT again and its retry copy is gone. -/
def unretried (n : Nat) (s : State) : State :=
  s.setLoop { s.loop with
    retries := s.loop.retries.erase n
    outstanding := s.loop.outstanding.map fun x => if x.number = n then { x with standing := .inFlight } else x }

/-- The count after two changes of the Loop Port. -/
theorem fair_of_fair (l : LoopPort) (retries : List Nat) (entries : List Outstanding) :
    ({ l.fair with retries := retries, outstanding := entries } : LoopPort).fair = { l with
      retries := retries, outstanding := entries
      fairness := if ({ l with retries := retries, outstanding := entries } : LoopPort).headSendable then
        if l.headSendable then l.fairness else 0 else 0 } := by
  rw [fair_eq, fair_eq l]
  rfl

theorem heard_loop_eq (s : State) : (heard s).loop =
    ({ s.loop with up := true, silence := some (s.now + 50) } : LoopPort).fair := by
  unfold heard
  dsimp only
  rw [fair_eq]
  split <;> rfl

/-- The entries with one returned copy of a number that lingers. -/
def endedEntries (n : Nat) (m : BestMarks) (l : List Outstanding) : List Outstanding :=
  (returnedEntries n m l).map fun x => if x.number = n then { x with standing := .lingering } else x

theorem numbers_endedEntries (n : Nat) (m : BestMarks) (l : List Outstanding) :
    (endedEntries n m l).map (·.number) = l.map (·.number) := by
  rw [endedEntries, List.map_map, ← numbers_returnedEntries n m l]
  refine List.map_congr_left fun x _ => ?_
  simp only [Function.comp]
  split <;> rfl

theorem linger_returned_heard (n : Nat) (m : BestMarks) (s : State) :
    linger n (returned n m (heard s)) = (heard s).setLoop { s.loop with
      up := true, silence := some (s.now + 50), retries := s.loop.retries.erase n
      outstanding := endedEntries n m s.loop.outstanding
      fairness := if ({ s.loop with
          up := true, silence := some (s.now + 50), retries := s.loop.retries.erase n
          outstanding := endedEntries n m s.loop.outstanding } : LoopPort).headSendable then
        if ({ s.loop with up := true, silence := some (s.now + 50) } : LoopPort).headSendable then s.loop.fairness
        else 0 else 0 } := by
  have hlinger : linger n (returned n m (heard s)) = (heard s).setLoop ({ (heard s).loop with
      retries := (heard s).loop.retries.erase n
      outstanding := endedEntries n m (heard s).loop.outstanding } : LoopPort).fair := rfl
  have hretries : (heard s).loop.retries = s.loop.retries := by simp
  have hentries : (heard s).loop.outstanding = s.loop.outstanding := by simp
  rw [hlinger, hretries, hentries, heard_loop_eq]
  exact congrArg _ (fair_of_fair _ _ _)

/-- Whether a retry copy waited makes no difference to the entries once the outcome is given. -/
theorem linger_returned_unretried (hok : NumbersOk s) (hn : n ∈ s.loop.retries) :
    linger n (returned n m (heard s)) = linger n (returned n m (heard (unretried n s))) := by
  obtain ⟨-, -, -, hnodup, -⟩ := hok
  have hblocks (x : LoopPort) : (heard (unretried n s)).setLoop x = (heard s).setLoop x := by
    unfold heard
    dsimp only
    rw [show (unretried n s).loop.up = s.loop.up from rfl]
    split <;> rfl
  have herase : (s.loop.retries.erase n).erase n = s.loop.retries.erase n :=
    List.erase_of_not_mem (hnodup.not_mem_erase)
  have hentries : endedEntries n m (unretried n s).loop.outstanding = endedEntries n m s.loop.outstanding := by
    simp only [endedEntries, returnedEntries, unretried, State.setLoop_fields, List.map_map]
    refine List.map_congr_left fun x _ => ?_
    simp only [Function.comp]
    by_cases hx : x.number = n
    · simp [hx, Outstanding.returning]
    · simp [hx]
  have hnumbers : (endedEntries n m s.loop.outstanding).map (·.number) =
      (unretried n s).loop.outstanding.map (·.number) := by
    rw [← hentries, numbers_endedEntries]
  have hsendable : ({ s.loop with up := true, silence := some (s.now + 50) } : LoopPort).headSendable = true := by
    have hne : s.loop.retries ≠ [] := List.ne_nil_of_mem hn
    rw [headSendable_eq]
    simp [hne]
  have hsame : ({ (unretried n s).loop with up := true, silence := some ((unretried n s).now + 50) } :
      LoopPort).headSendable = ({ s.loop with
        up := true, silence := some (s.now + 50), retries := s.loop.retries.erase n
        outstanding := endedEntries n m s.loop.outstanding } : LoopPort).headSendable :=
    headSendable_congr rfl rfl rfl rfl hnumbers.symm
  have hretries : (unretried n s).loop.retries.erase n = s.loop.retries.erase n := herase
  have hended : ({ (unretried n s).loop with
      up := true, silence := some ((unretried n s).now + 50), retries := (unretried n s).loop.retries.erase n
      outstanding := endedEntries n m (unretried n s).loop.outstanding } : LoopPort).headSendable = ({ s.loop with
        up := true, silence := some (s.now + 50), retries := s.loop.retries.erase n
        outstanding := endedEntries n m s.loop.outstanding } : LoopPort).headSendable :=
    headSendable_congr rfl hretries rfl rfl (congrArg _ hentries)
  rw [linger_returned_heard, linger_returned_heard, hblocks, hsendable, hsame, hended, hentries, hretries, if_pos rfl]
  refine congrArg (heard s).setLoop ?_
  cases ({ s.loop with
    up := true, silence := some (s.now + 50), retries := s.loop.retries.erase n
    outstanding := endedEntries n m s.loop.outstanding } : LoopPort).headSendable <;> rfl

theorem findEntry_unretried (ho : findEntry s n = some o) :
    findEntry (unretried n s) n = some { o with standing := .inFlight } := by
  have hfind := find_map_key Outstanding.number (fun x => { x with standing := .inFlight }) (fun _ => rfl) n n
    s.loop.outstanding
  have ho' : s.loop.outstanding.find? (fun x => x.number == n) = some o := ho
  rw [ho', Option.map_some, if_pos rfl] at hfind
  exact hfind

theorem exec_ownCopy_unretried (hrun : s.runState = .running) (hlen : c.payload.length < 256) (hkind : c.kind ≠ 0)
    (hown : c.originator.toNat = s.image.station) (ho : findEntry s c.number.toNat = some o)
    (h : c.carries o.request.payload = true) (hwaits : o.standing = .retryWaiting) (hok : NumbersOk s)
    (hmarks : unmarkedPresent s (o.best.merge (copyMarks s.image.station c.accept)) = 0) :
    exec (.noticeReceived c.bytes) s = exec (.noticeReceived c.bytes) (unretried c.number.toNat s) := by
  have hnumber := number_of_findEntry ho
  have hretry : c.number.toNat ∈ s.loop.retries := by
    obtain ⟨-, -, -, -, -, hwaiting⟩ := hok
    exact hnumber ▸ hwaiting o (List.mem_of_find?_eq_some ho) hwaits
  have hleft := afterReturn_of_outcome (s := returned c.number.toNat (copyMarks s.image.station c.accept) (heard s))
    (o := o.returning (copyMarks s.image.station c.accept)) (by
      rw [show (o.returning (copyMarks s.image.station c.accept)).standing = .retryWaiting from hwaits]
      decide) (.inl (unmarkedPresent_returned.trans hmarks))
  have hright := afterReturn_of_outcome (o := ({ o with standing := .inFlight } : Outstanding).returning
      (copyMarks s.image.station c.accept))
    (s := returned c.number.toNat (copyMarks s.image.station c.accept) (heard (unretried c.number.toNat s)))
    (show Standing.inFlight ≠ .lingering by decide) (.inl ((unmarkedPresent_returned (s := unretried c.number.toNat s)).trans hmarks))
  have hright' := exec_ownCopy_carried (s := unretried c.number.toNat s) hrun hlen hkind hown (findEntry_unretried ho) h
  have hlinger := linger_returned_unretried (m := copyMarks s.image.station c.accept) hok hretry
  rw [exec_ownCopy_carried hrun hlen hkind hown ho h, hleft, hright']
  refine congrArg Host.Outcome.next (Eq.trans ?_ hright.symm)
  rw [giveOutcome_delivered, giveOutcome_delivered,
    show (o.returning (copyMarks s.image.station c.accept)).number = c.number.toNat from hnumber, hlinger,
    show (({ o with standing := .inFlight } : Outstanding).returning (copyMarks s.image.station c.accept)).number =
      c.number.toNat from hnumber]
  rfl

/-- A returning copy that brings the outcome. -/
theorem ownCopy_outcome (hrun : s.runState = .running) (hlen : c.payload.length < 256) (hkind : c.kind ≠ 0)
    (hown : c.originator.toNat = s.image.station) (ho : findEntry s c.number.toNat = some o)
    (h : c.carries o.request.payload = true) (hopen : o.standing ≠ .lingering)
    (hlast : unmarkedPresent s (o.best.merge (copyMarks s.image.station c.accept)) = 0 ∨
      (o.standing = .inFlight ∧ 4 ≤ o.attempts)) :
    exec (.noticeReceived c.bytes) s = .next (giveOutcome (o.returning (copyMarks s.image.station c.accept)) .delivered
      (returned c.number.toNat (copyMarks s.image.station c.accept) (heard s))) := by
  rw [exec_ownCopy_carried hrun hlen hkind hown ho h]
  refine congrArg Host.Outcome.next (afterReturn_of_outcome hopen (hlast.imp (fun hmarks => ?_) id))
  exact unmarkedPresent_returned.trans hmarks

/-- Settles O43: an unknown copy; then the rows of R150 by the standing of the entry. -/
theorem ownCopiesAreStripped : Obligations.OwnCopiesAreStripped := by
  intro c s hrun hlen hkind hown
  refine ⟨exec_ownCopy_unknown hrun hlen hkind hown, fun o ho hcopy => ?_⟩
  have hcarries := (carries_iff c o.request.payload).2 hcopy
  have hexec := exec_ownCopy_carried hrun hlen hkind hown ho hcarries
  have hfound := findEntry_heard.trans ho
  have hnumber := number_of_findEntry ho
  refine ⟨fun hstanding hattempts hmarks => ?_, fun hstanding hmarks => ?_, fun hstanding hok => ?_,
    fun hstanding hlast => ⟨_, ownCopy_outcome hrun hlen hkind hown ho hcarries hstanding hlast, ?_⟩,
    fun hstanding hok _ hmarks => exec_ownCopy_unretried hrun hlen hkind hown ho hcarries hstanding hok hmarks⟩
  · have hstays : afterReturn (o.returning (copyMarks s.image.station c.accept))
        (returned c.number.toNat (copyMarks s.image.station c.accept) (heard s)) =
          waitRetry c.number.toNat (returned c.number.toNat (copyMarks s.image.station c.accept) (heard s)) := by
      rw [afterReturn, show (o.returning (copyMarks s.image.station c.accept)).standing = .inFlight from hstanding]
      rw [← hnumber]
      exact endAttempt_of_open (fun h => hmarks (unmarkedPresent_returned.symm.trans h)) hattempts
    rw [hexec, hstays, waitRetry_returned (by simp)]
    simp only [heard_loop]
  · have hstays : afterReturn (o.returning (copyMarks s.image.station c.accept))
        (returned c.number.toNat (copyMarks s.image.station c.accept) (heard s)) =
          returned c.number.toNat (copyMarks s.image.station c.accept) (heard s) := by
      rw [afterReturn, show (o.returning (copyMarks s.image.station c.accept)).standing = .retryWaiting from hstanding]
      exact if_neg fun h => hmarks (unmarkedPresent_returned.symm.trans h)
    have hentries : (heard s).loop.outstanding = s.loop.outstanding := by simp
    rw [hexec, hstays, returned, hentries]
    rfl
  · have hstays : afterReturn (o.returning (copyMarks s.image.station c.accept))
        (returned c.number.toNat (copyMarks s.image.station c.accept) (heard s)) =
          leaveOutstanding c.number.toNat (returned c.number.toNat (copyMarks s.image.station c.accept) (heard s)) := by
      rw [afterReturn, show (o.returning (copyMarks s.image.station c.accept)).standing = .lingering from hstanding,
        ← hnumber]
      rfl
    have hentries : (heard s).loop.outstanding = s.loop.outstanding := by simp
    have hnow : (heard s).now = s.now := by simp
    rw [hexec, hstays, leaveOutstanding_returned (numbersOk_heard hok) (heard_fair s) hfound hstanding, hentries, hnow]
  · have hloop := giveOutcome_returned_loop (s := heard s) (m := copyMarks s.image.station c.accept) hnumber
    have hmarks (hattempts : o.attempts ≤ 4) :
        unmarkedPresent (heard s) (o.returning (copyMarks s.image.station c.accept)).best = 0 ∨
          (o.returning (copyMarks s.image.station c.accept)).attempts = 4 := by
      refine hlast.imp (fun h => ?_) fun h => le_antisymm hattempts h.2
      exact (unmarkedPresent_returned (n := c.number.toNat) (m := copyMarks s.image.station c.accept)).trans h
    have htaken (hroster : s.roster.entries.length = 24) (hattempts : o.attempts ≤ 4) :=
      outcomeTaken_giveOutcome (beside_returned c.number.toNat (copyMarks s.image.station c.accept) (heard s))
        (by simpa using hroster) (hmarks hattempts)
    have hretries : (heard s).loop.retries = s.loop.retries := by simp
    have hentries : (heard s).loop.outstanding = s.loop.outstanding := by simp
    have hnow : (heard s).now = s.now := by simp
    rw [hretries, hentries, hnow] at hloop
    generalize giveOutcome (o.returning (copyMarks s.image.station c.accept)) .delivered
      (returned c.number.toNat (copyMarks s.image.station c.accept) (heard s)) = t at *
    refine ⟨?_, ?_, ?_, fun hroster hattempts => htaken hroster hattempts⟩
    · rw [hloop]
    · rw [hloop]
    · rw [hloop]

end Sys2Proof.Machine
end

