-- ==== Sys2Proof/Proofs/StartOutcomes.lean ====
section
/-! The outcome of a PROBE START (R24, R50, R52, R64, R166). -/

namespace Sys2Proof.Machine

variable {s t u : State} {o : Outstanding} {b : BestMarks} {c : Copy} {attempts n : Nat} {m : BestMarks}

/-! ### A delivery that every PRESENT station marked -/

theorem feedMiss_of_marked {x : Nat} (h : x ≠ s.image.station → isPresent s x = true → b.marked x = true) :
    (feedMiss b attempts s x).probes = s.probes ∧ (feedMiss b attempts s x).windows = s.windows ∧
      (feedMiss b attempts s x).ctl = s.ctl ∧ (feedMiss b attempts s x).image = s.image ∧
      isPresent (feedMiss b attempts s x) = isPresent s := by
  rw [feedMiss]
  split
  · exact ⟨rfl, rfl, rfl, rfl, rfl⟩
  · rename_i hopen
    obtain ⟨hne, hpresent⟩ := not_or.1 hopen
    rw [if_pos (h hne (by simpa using hpresent))]
    refine ⟨by simp, by simp, by simp, by simp, ?_⟩
    funext k
    rw [isPresent, clearMisses]
    by_cases hk : k = x
    · subst hk
      rcases rosterAt_modifyRoster_self k (fun e => { e with missRun := 0 }) s with hself | ⟨hblank, hself⟩
      · rw [hself, isPresent]
      · rw [hself, isPresent, hblank]
    · rw [rosterAt_modifyRoster_ne hk, isPresent]

/-- Then no station is lost. -/
theorem feedMisses_of_marked (h : ∀ x ∈ stationNumbers, x ≠ s.image.station → isPresent s x = true → b.marked x = true) :
    (feedMisses b attempts s).probes = s.probes ∧ (feedMisses b attempts s).windows = s.windows ∧
      (feedMisses b attempts s).ctl = s.ctl := by
  have hfold (l : List Nat) : ∀ v : State,
      (∀ x ∈ l, x ≠ v.image.station → isPresent v x = true → b.marked x = true) →
        (l.foldl (feedMiss b attempts) v).probes = v.probes ∧ (l.foldl (feedMiss b attempts) v).windows = v.windows ∧
          (l.foldl (feedMiss b attempts) v).ctl = v.ctl := by
    induction l with
    | nil => exact fun v _ => ⟨rfl, rfl, rfl⟩
    | cons x l ih =>
      intro v hv
      obtain ⟨hprobes, hwindows, hctl, himage, hpresent⟩ := feedMiss_of_marked (attempts := attempts) (hv x List.mem_cons_self)
      obtain ⟨hprobes', hwindows', hctl'⟩ := ih (feedMiss b attempts v x) fun y hy hne hp =>
        hv y (List.mem_cons_of_mem _ hy) (himage ▸ hne) (hpresent ▸ hp)
      exact ⟨hprobes'.trans hprobes, hwindows'.trans hwindows, hctl'.trans hctl⟩
  exact hfold _ s h

/-! ### What a reception leaves (R153) -/

theorem rosterAt_heard_fun (s : State) : rosterAt (heard s) = rosterAt s := by
  funext x
  simp [rosterAt]

theorem isPresent_heard_fun (s : State) : isPresent (heard s) = isPresent s := by
  funext x
  simp [isPresent]

theorem turnedAbsent_heard (s t : State) : turnedAbsent (heard s) t = turnedAbsent s t := by
  funext x
  rw [turnedAbsent, turnedAbsent, isPresent_heard_fun]
  simp

theorem missesFed_of_heard (h : MissesFed b (heard s) t) : MissesFed b s t := by
  have himage : (heard s).image = s.image := by simp
  unfold MissesFed at h ⊢
  rwa [rosterAt_heard_fun, isPresent_heard_fun, himage] at h

theorem heard_queue (s : State) : (heard s).ctl.queue = s.ctl.queue := by
  unfold heard
  dsimp only
  split <;> rfl

theorem rosterOk_heard : RosterOk (heard s) ↔ RosterOk s := by simp [RosterOk]

theorem slotsOk_heard : SlotsOk (heard s) ↔ SlotsOk s := by simp [SlotsOk, probesOf, recordsHeld]

theorem windowsOk_heard : WindowsOk (heard s) ↔ WindowsOk s := by simp [WindowsOk, waitingSerials]

theorem probeAt_heard (i : Nat) : probeAt (heard s) i = probeAt s i := by
  have hprobes : (heard s).probes = s.probes := by simp
  rw [probeAt, hprobes, probeAt]

theorem findPath_heard (circuit : Nat) : findPath (heard s) circuit = findPath s circuit := by
  have hpaths : (heard s).paths = s.paths := by simp
  rw [findPath, hpaths, findPath]

theorem absencesTold_of_heard {mid : State} {l : List Report} (h : AbsencesTold mid l (heard s) t) :
    AbsencesTold mid l s t := by
  have himage : (heard s).image = s.image := by simp
  have hgrade : (heard s).roster = s.roster := by simp
  obtain ⟨hslots, htables⟩ := h
  refine ⟨fun hok i hi p hp hphase r hr => ?_, fun hok => ?_⟩
  · have hp' : probeAt (heard s) i = some p := (probeAt_heard i).trans hp
    have hr' : findPath (heard s) p.circuit = some r := (findPath_heard _).trans hr
    obtain ⟨q, hq, hsame, habsent, hlow⟩ := hslots (slotsOk_heard.2 hok) i hi p hp' hphase r hr'
    rw [turnedAbsent_heard] at hsame habsent
    rw [himage, hgrade] at hlow
    exact ⟨q, hq, hsame, habsent, fun hrok hown => hlow (rosterOk_heard.2 hrok) hown⟩
  · have hall := htables (windowsOk_heard.2 hok)
    rwa [turnedAbsent_heard, himage, heard_queue] at hall

theorem driven_of_heard {lost : Bool} {p q : Probe} {r : PathRecord} (h : Driven b lost p q r (heard s) t) :
    Driven b lost p q r s t := by
  have himage : (heard s).image = s.image := by simp
  obtain ⟨hsame, hblind, habsent, hlow⟩ := h
  rw [himage, isPresent_heard_fun] at hblind
  rw [himage] at hsame habsent hlow
  rw [isPresent_heard_fun] at hlow
  exact ⟨hsame, hblind, habsent, fun hrok hown => hlow (rosterOk_heard.2 hrok) hown⟩

/-! ### The PROBE START that every PRESENT station marked -/

/-- The state with the returned copy counted and the entry lingering. -/
def ending (n : Nat) (m : BestMarks) (s : State) : State := linger n (returned n m (heard s))

theorem beside_ending (n : Nat) (m : BestMarks) (s : State) : Beside (heard s) (ending n m s) :=
  beside_linger (beside_returned n m (heard s)) n

theorem unmarkedPresent_heard : unmarkedPresent (heard s) b = unmarkedPresent s b := by
  have himage : (heard s).image = s.image := by simp
  simp only [unmarkedPresent, isPresent_heard_fun, State.own, himage]

theorem giveOutcome_returned (hn : o.number = n) :
    giveOutcome (o.returning m) .delivered (returned n m (heard s)) =
      leaveOutstanding n (fedAfter o.request (o.best.merge m) o.attempts (ending n m s)) := by
  rw [giveOutcome_delivered, show (o.returning m).number = n from hn]
  rfl

theorem carries_start {circuit e d : Nat} {m : Mode} (hpay : o.request.payload = .probeStart circuit e m d)
    (hkind : c.kind = 7) (hbytes : c.payload = o.request.payload.bytes) : c.carries o.request.payload = true :=
  carries_of_bytes c _ (by rw [hkind, hpay]; rfl) hbytes

/-- The outcome of a PROBE START, once the block has read it. -/
theorem handed_start {r : Request} {a : PathRecord} {p : Probe} {i circuit e d : Nat} {m : Mode} (hu : Beside s u)
    (hpay : r.payload = .probeStart circuit e m d) (hok : ((probesOf s).map (·.circuit)).Nodup)
    (hp : probeAt s i = some p) (hphase : p.phase = .claiming) (hc : p.circuit = circuit) (he : p.epoch = e)
    (ha : findPath s circuit = some a) :
    handed r b u = drive a.line circuit e (putSlot i (some (drivingProbe u p a b false)) u) := by
  have hprobes := hu.fields.2.2.2.2.1
  have hp' : probeAt u i = some p := by rw [probeAt, hprobes]; exact hp
  have hok' : ((probesOf u).map (·.circuit)).Nodup := by rwa [probesOf, hprobes]
  have ha' : findPath u circuit = some a := by rw [findPath, hu.agree.paths]; exact ha
  exact handOutcome_start (e := .delivered) hpay hok' hp' hphase hc he ha'

/-- When all marked it, no miss run follows. -/
theorem fedAfter_start_of_marked {r : Request} {a : PathRecord} {p : Probe} {i circuit e d : Nat} {m : Mode}
    (hu : Beside s u) (hnone : unmarkedPresent s b = 0) (hpay : r.payload = .probeStart circuit e m d)
    (hok : ((probesOf s).map (·.circuit)).Nodup) (hp : probeAt s i = some p) (hphase : p.phase = .claiming)
    (hc : p.circuit = circuit) (he : p.epoch = e) (ha : findPath s circuit = some a) :
    probeAt (fedAfter r b attempts u) i = some (drivingProbe u p a b false) ∧
      (fedAfter r b attempts u).lines = s.lines.set a.line (some (circuit, e)) ∧
      (fedAfter r b attempts u).windows = s.windows ∧ (fedAfter r b attempts u).ctl = s.ctl := by
  obtain ⟨-, -, hlines, -, hprobes, hctl⟩ := hu.fields
  have hhanded := handed_start (b := b) hu hpay hok hp hphase hc he ha
  have hlt : i < u.probes.slots.length := by rw [hprobes]; exact lt_of_probeAt hp
  have hmarked : ∀ x ∈ stationNumbers, x ≠ (handed r b u).image.station → isPresent (handed r b u) x = true →
      b.marked x = true := by
    rw [hhanded]
    intro x hx hne hpresent
    exact marked_of_none_unmarked hnone ((mem_stationNumbers x).1 hx) (hu.agree.image ▸ hne) (hu.isPresent ▸ hpresent)
  obtain ⟨hprobes', hwindows', hctl'⟩ := feedMisses_of_marked (attempts := attempts) hmarked
  have hlines' : (fedAfter r b attempts u).lines = (handed r b u).lines := by simp [fedAfter]
  refine ⟨?_, ?_, ?_, ?_⟩
  · rw [probeAt, fedAfter, hprobes', hhanded]
    exact (probeAt_putSlot i i _ u hlt).trans (if_pos rfl)
  · rw [hlines', hhanded, ← hlines]
    rfl
  · rw [fedAfter, hwindows', hhanded]
    exact hu.agree.windows
  · rw [fedAfter, hctl', hhanded]
    exact hctl

theorem circuits_nodup_heard (hok : SlotsOk s) : ((probesOf (heard s)).map (·.circuit)).Nodup :=
  (slotsOk_heard.2 hok).2.1

/-- The slot that drives, beside the state that heard the copy. -/
theorem drivingProbe_of_beside_heard {p : Probe} {a : PathRecord} (hu : Beside (heard s) u) :
    drivingProbe u p a b false = { p with
      phase := .driving
      blind := (drivingProbe u p a b false).blind
      absent := (drivingProbe u p a b false).absent
      absentLost := (drivingProbe u p a b false).absent != 0
      loopLost := false
      deadline := some (s.now + deadlineMs s.image.deadlineCode) } ∧
    (∀ n ∈ stationNumbers, stationIn (drivingProbe u p a b false).blind n = (n != s.image.station &&
      ((isPresent s n && !stationIn b.taken n) || stationIn p.joiners n))) ∧
    (∀ n ∈ stationNumbers, stationIn (drivingProbe u p a b false).absent n = (n != s.image.station &&
      !isPresent s n && (a.baseline.getD []).any fun h => h.station == n)) := by
  have hup : u.loop.up = true := hu.loop.2.2.2.2.trans (by simp)
  have hnow : u.now = s.now := hu.fields.1.trans (by simp)
  have himage : u.image = s.image := hu.agree.image.trans (by simp)
  have hpresent : isPresent u = isPresent s := hu.isPresent.trans (isPresent_heard_fun s)
  refine ⟨?_, fun n hn => ?_, fun n hn => ?_⟩
  · rw [← hnow, ← himage]
    simp [drivingProbe, hup]
  · have hblind : stationIn (blindAt u p b) n = _ := stationIn_stationsWith _ n ((mem_stationNumbers n).1 hn)
    rwa [State.own, himage, hpresent] at hblind
  · have habsent : stationIn (absentAt u a) n = _ := stationIn_stationsWith _ n ((mem_stationNumbers n).1 hn)
    rw [State.own, himage, hpresent, Bool.and_right_comm] at habsent
    exact habsent

/-- The blocks that the outcome of a PROBE START leaves. -/
theorem fedAfter_start_kept {r : Request} {circuit e d : Nat} {m : Mode} (hu : Beside (heard s) u)
    (hpay : r.payload = .probeStart circuit e m d) : (fedAfter r b attempts u).paths = s.paths ∧
      (fedAfter r b attempts u).hops = s.hops ∧ (fedAfter r b attempts u).sched = s.sched ∧
      (fedAfter r b attempts u).scanner = s.scanner := by
  obtain ⟨-, hhops, hscanner, -⟩ := fedAfter_frame (r := r) (b := b) (attempts := attempts) hu
  obtain ⟨hpaths, hsched⟩ := fedAfter_records_of_kind (r := r) (b := b) (attempts := attempts) hu
    (by rw [hpay]; exact (by decide : (7 : Nat) ≠ 3))
  exact ⟨hpaths.trans (by simp), hhops.trans (by simp), hsched.trans (by simp), hscanner.trans (by simp)⟩

/-- Settles O44: the slot as the outcome leaves it; the miss runs after a delivery that all marked, and after one that
some did not. -/
theorem startOutcomeBeginsDriving : Obligations.StartOutcomeBeginsDriving := by
  refine ⟨fun c o i circuit e d m p r s hrun hlen hkind hown ho hpay hseven hbytes hflight hmarks hok hp hphase hc he
    hr hline => ?_, fun c o i circuit e d m p r best s hrun hlen hseven hown ho hpay hbytes hflight hattempts hbest hmarks
    hroster hok hp hphase hc he hr hline => ?_⟩
  · have hcarries := carries_start hpay hseven hbytes
    have hnumber := number_of_findEntry ho
    have hu := beside_ending c.number.toNat (copyMarks s.image.station c.accept) s
    have hopen : o.standing ≠ .lingering := by rw [hflight]; decide
    have hnone : unmarkedPresent (heard s) (o.best.merge (copyMarks s.image.station c.accept)) = 0 :=
      unmarkedPresent_heard.trans hmarks
    obtain ⟨hslot, hlines, hwindows, hctl⟩ := fedAfter_start_of_marked (attempts := o.attempts) hu hnone hpay
      (circuits_nodup_heard hok) ((probeAt_heard i).trans hp) hphase hc he ((findPath_heard _).trans hr)
    obtain ⟨hpaths, hhops, hsched, hscanner⟩ := fedAfter_start_kept (attempts := o.attempts)
      (b := o.best.merge (copyMarks s.image.station c.accept)) hu hpay
    obtain ⟨hq, hblind, habsent⟩ := drivingProbe_of_beside_heard (p := p) (a := r)
      (b := o.best.merge (copyMarks s.image.station c.accept)) hu
    refine ⟨_, ownCopy_outcome hrun hlen hkind hown ho hcarries hopen (.inl hmarks), ?_⟩
    rw [giveOutcome_returned hnumber]
    generalize fedAfter o.request (o.best.merge (copyMarks s.image.station c.accept)) o.attempts _ = f at *
    exact ⟨_, hslot, hq, hblind, habsent, hlines.trans (by simp), hpaths, hhops, hsched, hwindows.trans (by simp),
      hscanner, hctl⟩
  · have hcarries := carries_start hpay hseven hbytes
    have hnumber := number_of_findEntry ho
    have hu := beside_ending c.number.toNat (copyMarks s.image.station c.accept) s
    have hopen : o.standing ≠ .lingering := by rw [hflight]; decide
    have hkind : c.kind ≠ 0 := by rw [hseven]; decide
    have hlen' : (heard s).roster.entries.length = 24 := by simpa using hroster
    have hmisses := missesFed_fedAfter (r := o.request) (b := best) hu hlen' (.inr hattempts)
    obtain ⟨⟨q, hq, hdriven⟩, hlines⟩ := fedAfter_start (b := best) (attempts := o.attempts) hu hlen' hpay
      (circuits_nodup_heard hok) ((probeAt_heard i).trans hp) hphase hc he ((findPath_heard _).trans hr)
    obtain ⟨hpaths, hhops, hsched, hscanner⟩ := fedAfter_start_kept (b := best) (attempts := o.attempts) hu hpay
    have habsences := absencesTold_fedAfter (r := o.request) (b := best) (attempts := o.attempts) hu hlen'
    have hsame : afterOutcome o.request best (heard s) = heard s := by rw [afterOutcome, hpay]
    have hreports : outcomeReports o.request best (heard s) = [] := by rw [outcomeReports, hpay]
    rw [hsame, hreports] at habsences
    have hup : (!(heard s).loop.up) = false := by simp
    rw [hup] at hdriven
    refine ⟨_, ownCopy_outcome hrun hlen hkind hown ho hcarries hopen (.inr ⟨hflight, hattempts.ge⟩), ?_⟩
    rw [giveOutcome_returned hnumber, ← hbest]
    generalize fedAfter o.request best o.attempts _ = f at *
    exact ⟨missesFed_of_heard hmisses, ⟨q, hq, driven_of_heard hdriven⟩,
      absencesTold_of_agree (by simp) (by simp) (absencesTold_of_heard habsences), hlines.trans (by simp), hpaths, hhops,
      hsched, hscanner⟩

end Sys2Proof.Machine
end

