-- ==== Sys2Proof/Proofs/Failures.lean ====
section
/-! A LOOP DOWN ends every open entry FAILED, oldest first (R152, R153; log 27): what one such end does, and all of them
in order. -/

namespace Sys2Proof.Machine

variable {s t u v : State} {o : Outstanding} {os : List Outstanding}

/-- The block has read that its notice FAILED: no station marked it. -/
def failed (o : Outstanding) (u : State) : State := handOutcome o.request .failed noMarks u

theorem giveOutcome_failed (o : Outstanding) (u : State) :
    giveOutcome o .failed u = leaveOutstanding o.number (failed o (linger o.number u)) := rfl

/-- The ends of the entries in order. -/
def failAll (os : List Outstanding) (s : State) : State := os.foldl (fun t o => giveOutcome o .failed t) s

theorem failAll_cons : failAll (o :: os) s = failAll os (giveOutcome o .failed s) := rfl

/-- What no end breaks, and the Loop Port has no part in, holds after all of them. -/
theorem failAll_keeps {P : State → Prop} (hloop : ∀ u l, P u → P (u.setLoop l)) :
    ∀ {os : List Outstanding} {s : State}, (∀ o ∈ os, ∀ u, P u → P (failed o u)) → P s → P (failAll os s) := by
  intro os
  induction os with
  | nil => exact fun _ h => h
  | cons o os ih =>
    intro s hstep h
    exact ih (fun x hx => hstep x (List.mem_cons_of_mem _ hx))
      (hloop _ _ (hstep o List.mem_cons_self _ (hloop _ _ h)))

/-! ### The Loop Port -/

theorem giveOutcome_failed_loop (o : Outstanding) (u : State) : (giveOutcome o .failed u).loop = { u.loop with
    retries := u.loop.retries.erase o.number
    outstanding := (giveOutcome o .failed u).loop.outstanding
    quarantine := u.loop.quarantine && o.request.payload.kind != 12
    fairness := (giveOutcome o .failed u).loop.fairness } := by
  have hhand : (failed o (linger o.number u)).loop = _ := handOutcome_loop
  rw [giveOutcome_failed, leaveOutstanding, changeLoop]
  simp only [State.setLoop_fields]
  rw [fair_eq, hhand, linger, changeLoop]
  simp only [State.setLoop_fields]
  rw [fair_eq]
  by_cases hkind : o.request.payload.kind = 12
  · simp [hkind]
  · simp [hkind]

theorem failAll_loop (os : List Outstanding) : ∀ u : State, (failAll os u).loop = { u.loop with
    retries := u.loop.retries.diff (os.map (·.number))
    outstanding := (failAll os u).loop.outstanding
    quarantine := u.loop.quarantine && !(os.any fun o => o.request.payload.kind == 12)
    fairness := (failAll os u).loop.fairness } := by
  induction os with
  | nil =>
    intro u
    simp [failAll]
  | cons o os ih =>
    intro u
    have hstep := giveOutcome_failed_loop o u
    have hrest : (failAll (o :: os) u).loop = _ := ih (giveOutcome o .failed u)
    rw [hrest, hstep, List.map_cons, List.diff_cons, List.any_cons]
    simp only [Bool.not_or, Bool.and_assoc]
    rfl

/-! ### Alerts and the other blocks -/

theorem told_failed (o : Outstanding) (u : State) : Told (outcomeReports o.request noMarks u) u (failed o u) :=
  told_handOutcome

theorem flagged_failAll (os : List Outstanding) (s : State) : s.ctl.Flagged (failAll os s).ctl :=
  failAll_keeps (P := fun u => s.ctl.Flagged u.ctl) (fun _ _ h => h) (fun o _ u h => h.trans (told_failed o u).flagged)
    (.refl _)

theorem failAll_frame (os : List Outstanding) (s : State) : (failAll os s).now = s.now ∧
    (failAll os s).image = s.image ∧ (failAll os s).hops = s.hops ∧ (failAll os s).scanner = s.scanner := by
  refine failAll_keeps (P := fun u => u.now = s.now ∧ u.image = s.image ∧ u.hops = s.hops ∧ u.scanner = s.scanner)
    (fun _ _ h => h) (fun o _ u ⟨hnow, himage, hhops, hscanner⟩ => ?_) ⟨rfl, rfl, rfl, rfl⟩
  simp [failed, hnow, himage, hhops, hscanner]

/-! ### The roster -/

theorem failed_roster (o : Outstanding) (u : State) :
    (failed o u).roster = (afterOutcome o.request noMarks u).roster := handOutcome_roster

theorem failed_image (o : Outstanding) (u : State) : (failed o u).image = u.image := by simp [failed]

theorem rosterAt_failAll_other (os : List Outstanding) (s : State) {x : Nat} (hne : x ≠ s.image.station) :
    rosterAt (failAll os s) x = rosterAt s x := by
  refine (failAll_keeps (P := fun u => u.image = s.image ∧ rosterAt u x = rosterAt s x) (fun _ _ h => h)
    (fun o _ u ⟨himage, hx⟩ => ⟨(failed_image o u).trans himage, ?_⟩) ⟨rfl, rfl⟩).2
  rw [rosterAt, failed_roster, ← rosterAt, rosterAt_afterOutcome_other (himage ▸ hne), hx]

theorem joined_failAll (os : List Outstanding) : ∀ s : State, (failAll os s).roster.joined =
    (s.roster.joined || os.any fun o => o.request.payload.kind == 1) := by
  induction os with
  | nil => exact fun s => (Bool.or_false _).symm
  | cons o os ih =>
    intro s
    have hstep : (giveOutcome o .failed s).roster.joined = (s.roster.joined || o.request.payload.kind == 1) := by
      have hleave : (giveOutcome o .failed s).roster = (failed o (linger o.number s)).roster := by
        rw [giveOutcome_failed]
        simp
      have hlinger : (linger o.number s).roster = s.roster := by simp
      rw [hleave, failed_roster, joined_afterOutcome, hlinger]
    have hrest : (failAll (o :: os) s).roster.joined = _ := ih (giveOutcome o .failed s)
    rw [hrest, hstep, List.any_cons, Bool.or_assoc]

/-- The own entry is written by the end of a JOIN alone. -/
theorem rosterAt_failed_own (hlen : u.roster.entries.length = 24) (hok : stationOk u.image.station = true) :
    rosterAt (failed o u) u.image.station = if o.request.payload.kind = 1 then
      joinedEntry u.image (rosterAt u u.image.station) else rosterAt u u.image.station := by
  rw [rosterAt, failed_roster, ← rosterAt]
  split
  · rename_i hkind
    rw [afterOutcome_of_join hkind, rosterAt_afterJoinOutcome_own hlen hok]
    rfl
  · rename_i hkind
    rw [rosterAt, afterOutcome_roster hkind, rosterAt]

theorem rosterAt_failAll_own (hok : stationOk s.image.station = true) (os : List Outstanding) :
    ∀ u : State, u.image = s.image → u.roster.entries.length = 24 →
      rosterAt (failAll os u) s.image.station =
        if (os.any fun o => o.request.payload.kind == 1) = true then
          joinedEntry s.image (rosterAt u s.image.station) else rosterAt u s.image.station := by
  induction os with
  | nil => exact fun u _ _ => rfl
  | cons o os ih =>
    intro u himage hlen
    have himage' : (linger o.number u).image = s.image := by simpa using himage
    have hlen' : (linger o.number u).roster.entries.length = 24 := by simpa using hlen
    have hlinger : rosterAt (linger o.number u) = rosterAt u := by
      funext x
      simp [rosterAt]
    have hstep := rosterAt_failed_own (o := o) hlen' (himage'.symm ▸ hok)
    rw [himage', hlinger] at hstep
    have hgiven : rosterAt (giveOutcome o .failed u) = rosterAt (failed o (linger o.number u)) := by
      funext x
      rw [giveOutcome_failed]
      simp [rosterAt]
    have hrest : rosterAt (failAll (o :: os) u) s.image.station = _ := ih (giveOutcome o .failed u)
      (by rw [giveOutcome_failed]; simp [failed, himage])
      (by
        rw [giveOutcome_failed, (leaveOutstanding_frame _ _).2.2.2.2.2.2.2.2.2.2.2.2.2.2.1, failed_roster,
          length_afterOutcome]
        exact hlen')
    rw [hrest, hgiven, hstep, List.any_cons]
    by_cases hkind : o.request.payload.kind = 1
    · simp only [hkind, beq_self_eq_true, Bool.true_or, if_true]
      split
      · rfl
      · rfl
    · simp [hkind]

/-! ### The blocks as they read the outcomes in turn -/

theorem pathOrder_of_based (h : t.paths.map PathRecord.based = s.paths.map PathRecord.based) :
    pathOrder t = pathOrder s := by
  have hproject (u : State) : pathOrder u = (u.paths.map PathRecord.based).map (·.1) := by
    rw [pathOrder, List.map_map]
    rfl
  rw [hproject, hproject, h]

theorem agree_failed (h : Agree v u) (hwindows : (v.windows.list.map (·.serial)).Nodup) (hpaths : (pathOrder v).Nodup) :
    Agree (afterOutcome o.request noMarks v) (failed o u) := by
  have hread := h.afterOutcome (r := o.request) (b := noMarks)
  have hpaths' : (pathOrder u).Nodup := by rwa [pathOrder, h.paths]
  obtain ⟨hrecords, hsched⟩ := handOutcome_records (r := o.request) (e := .failed) (b := noMarks) hpaths'
  exact ⟨by rw [failed_image, h.image, afterOutcome_image],
    (handOutcome_windows (by rwa [h.windows])).trans hread.windows, handOutcome_roster.trans hread.roster,
    hrecords.trans hread.paths, hsched.trans hread.sched⟩

theorem pathOrder_afterOutcome {r : Request} {b : BestMarks} (hpaths : (pathOrder v).Nodup) :
    pathOrder (afterOutcome r b v) = pathOrder v := by
  rw [pathOrder, ← (handOutcome_records (e := .delivered) hpaths).1, ← pathOrder]
  exact pathOrder_of_based based_handOutcome

theorem agree_failAll (os : List Outstanding) : ∀ {v u : State}, Agree v u →
    (v.windows.list.map (·.serial)).Nodup → (pathOrder v).Nodup →
    Agree (os.foldl (fun z o => afterOutcome o.request noMarks z) v) (failAll os u) := by
  induction os with
  | nil => exact fun h _ _ => h
  | cons o os ih =>
    intro v u h hwindows hpaths
    have hlinger : Agree v (linger o.number u) := by
      obtain ⟨himage, hwin, hroster, hrec, hsched⟩ := h
      exact ⟨himage, hwin, hroster, hrec, hsched⟩
    obtain ⟨himage, hwin, hroster, hrec, hsched⟩ := agree_failed (o := o) hlinger hwindows hpaths
    exact ih ⟨himage, hwin, hroster, hrec, hsched⟩ (hwindows.sublist serials_afterOutcome)
      (by rwa [pathOrder_afterOutcome hpaths])

end Sys2Proof.Machine
end

