-- ==== Sys2Proof/Proofs/FailedStarts.lean ====
section
/-! The probe slots at a LOOP DOWN (R50, R52, R55, R67). -/

namespace Sys2Proof.Machine

variable {s u : State} {o : Outstanding} {os : List Outstanding} {b : BestMarks} {p q : Probe} {a r : PathRecord}
  {c e i j : Nat} {fails : Bool}

/-! ### The three things an outcome can do to the slots -/

theorem startOutcome_cases (c e : Nat) (b : BestMarks) (fails : Bool) (u : State) : startOutcome c e b fails u = u ∨
    ∃ i p a, probeAt u i = some p ∧ p.phase = .claiming ∧ p.circuit = c ∧ p.epoch = e ∧ findPath u c = some a ∧
      startOutcome c e b fails u = drive a.line c e (putSlot i (some (drivingProbe u p a b fails)) u) := by
  rw [startOutcome]
  cases hslot : slotIn u .claiming c e with
  | none => exact .inl rfl
  | some i =>
    obtain ⟨p, hp, hphase, rfl, rfl, -⟩ := slotIn_some hslot
    cases ha : findPath u p.circuit with
    | none => exact .inl (by simp only [enterDriving, hp, ha])
    | some a => exact .inr ⟨i, p, a, hp, hphase, rfl, rfl, rfl, by simp only [enterDriving, hp, ha]⟩

theorem endOutcome_cases (c e : Nat) (u : State) : endOutcome c e u = u ∨
    ∃ i p, probeAt u i = some p ∧ p.phase = .closing ∧ endOutcome c e u = putSlot i none u := by
  rw [endOutcome]
  cases hslot : slotIn u .closing c e with
  | none => exact .inl rfl
  | some i =>
    obtain ⟨p, hp, hphase, -, -, -⟩ := slotIn_some hslot
    exact .inr ⟨i, p, hp, hphase, rfl⟩

theorem isStartOf_iff (q : Request) : q.isStartOf c e = true ↔ ∃ m d, q.payload = .probeStart c e m d := by
  unfold Request.isStartOf
  cases q.payload with
  | probeStart x y m d => simp
  | _ => simp

/-- An outcome that is no JOIN's leaves the slots and the lines, or drives the slot of its PROBE START, or frees that of
its PROBE END. -/
theorem failed_slots (hjoin : o.request.payload.kind ≠ 1) (u : State) :
    ((failed o u).probes = u.probes ∧ (failed o u).lines = u.lines) ∨
    (∃ i p a, probeAt u i = some p ∧ p.phase = .claiming ∧ o.request.isStartOf p.circuit p.epoch = true ∧
      findPath u p.circuit = some a ∧
      failed o u = drive a.line p.circuit p.epoch (putSlot i (some (drivingProbe u p a noMarks true)) u)) ∨
    ∃ i p, probeAt u i = some p ∧ p.phase = .closing ∧ failed o u = putSlot i none u := by
  by_cases hstart : o.request.payload.kind = 7
  · obtain ⟨c, e, m, d, hpay⟩ : ∃ c e m d, o.request.payload = .probeStart c e m d := by
      cases hpay : o.request.payload with
      | probeStart c e m d => exact ⟨c, e, m, d, rfl⟩
      | _ => rw [hpay] at hstart; cases hstart
    have hhand : failed o u = startOutcome c e noMarks true u := by rw [failed, handOutcome, hpay]; rfl
    rw [hhand]
    rcases startOutcome_cases c e noMarks true u with hsame | ⟨i, p, a, hp, hphase, rfl, rfl, ha, hdrive⟩
    · rw [hsame]
      exact .inl ⟨rfl, rfl⟩
    · exact .inr (.inl ⟨i, p, a, hp, hphase, (isStartOf_iff _).2 ⟨m, d, hpay⟩, ha, hdrive⟩)
  · by_cases hend : o.request.payload.kind = 9
    · obtain ⟨c, e, v, f, hpay⟩ : ∃ c e v f, o.request.payload = .probeEnd c e v f := by
        cases hpay : o.request.payload with
        | probeEnd c e v f => exact ⟨c, e, v, f, rfl⟩
        | _ => rw [hpay] at hend; cases hend
      have hhand : failed o u = endOutcome c e u := by rw [failed, handOutcome, hpay]
      rw [hhand]
      rcases endOutcome_cases c e u with hsame | ⟨i, p, hp, hphase, hfree⟩
      · rw [hsame]
        exact .inl ⟨rfl, rfl⟩
      · exact .inr (.inr ⟨i, p, hp, hphase, hfree⟩)
    · exact .inl ⟨handOutcome_probes hstart hend hjoin, handOutcome_lines hstart⟩

/-! ### One end -/

/-- A slot that the outcome does not concern. -/
theorem probeAt_failed_of_other (hjoin : o.request.payload.kind ≠ 1) (hp : probeAt u i = some p)
    (hclosing : p.phase ≠ .closing)
    (hclaiming : p.phase = .claiming → o.request.isStartOf p.circuit p.epoch = false) :
    probeAt (failed o u) i = some p := by
  rcases failed_slots hjoin u with ⟨hprobes, -⟩ | ⟨j, x, a, hx, hphase, hstart, -, hdrive⟩ | ⟨j, x, hx, hphase, hfree⟩
  · rw [probeAt, hprobes]
    exact hp
  · have hne : j ≠ i := by
      rintro rfl
      obtain rfl := Option.some.inj (hp.symm.trans hx)
      rw [hclaiming hphase] at hstart
      cases hstart
    rw [hdrive]
    exact (probeAt_putSlot j i _ u (lt_of_probeAt hx)).trans ((if_neg hne).trans hp)
  · have hne : j ≠ i := by
      rintro rfl
      exact hclosing (Option.some.inj (hp.symm.trans hx) ▸ hphase)
    rw [hfree, probeAt_putSlot j i _ u (lt_of_probeAt hx), if_neg hne, hp]

/-- No slot is taken, and none changes its circuit. -/
theorem probeAt_of_failed (hjoin : o.request.payload.kind ≠ 1) (hq : probeAt (failed o u) i = some q) :
    ∃ p, probeAt u i = some p ∧ p.circuit = q.circuit := by
  rcases failed_slots hjoin u with ⟨hprobes, -⟩ | ⟨j, x, a, hx, -, -, -, hdrive⟩ | ⟨j, x, hx, -, hfree⟩
  · rw [probeAt, hprobes] at hq
    exact ⟨q, hq, rfl⟩
  · have hput : probeAt (failed o u) i = if j = i then some (drivingProbe u x a noMarks true) else probeAt u i := by
      rw [hdrive]
      exact probeAt_putSlot j i _ u (lt_of_probeAt hx)
    rw [hput] at hq
    split at hq
    · rename_i hji
      obtain rfl := Option.some.inj hq
      exact ⟨x, hji ▸ hx, rfl⟩
    · exact ⟨q, hq, rfl⟩
  · rw [hfree, probeAt_putSlot j i _ u (lt_of_probeAt hx)] at hq
    split at hq
    · cases hq
    · exact ⟨q, hq, rfl⟩

/-! ### What the ends leave as it was -/

/-- What an entry to DRIVING reads stays while no JOIN ends. -/
structure Steady (s u : State) : Prop where
  now      : u.now = s.now
  image    : u.image = s.image
  roster   : u.roster = s.roster
  based    : u.paths.map PathRecord.based = s.paths.map PathRecord.based
  circuits : ∀ j q, probeAt u j = some q → ∃ p, probeAt s j = some p ∧ p.circuit = q.circuit

theorem Steady.refl (s : State) : Steady s s := ⟨rfl, rfl, rfl, rfl, fun _ q h => ⟨q, h, rfl⟩⟩

theorem steady_setLoop (l : LoopPort) (h : Steady s u) : Steady s (u.setLoop l) := by
  obtain ⟨hnow, himage, hroster, hbased, hcircuits⟩ := h
  exact ⟨hnow, himage, hroster, hbased, hcircuits⟩

theorem steady_failed (hjoin : o.request.payload.kind ≠ 1) (h : Steady s u) : Steady s (failed o u) := by
  obtain ⟨hnow, himage, hroster, hbased, hcircuits⟩ := h
  refine ⟨by simp [failed, hnow], by simp [failed, himage], ?_, based_handOutcome.trans hbased, fun j q hq => ?_⟩
  · rw [failed_roster, afterOutcome_roster hjoin, hroster]
  · obtain ⟨x, hx, hxq⟩ := probeAt_of_failed hjoin hq
    obtain ⟨p, hp, hpx⟩ := hcircuits j x hx
    exact ⟨p, hp, hpx.trans hxq⟩

theorem Steady.isPresent (h : Steady s u) : isPresent u = isPresent s := by
  funext n
  rw [Machine.isPresent, rosterAt, h.roster, Machine.isPresent, rosterAt]

theorem Steady.nodup (h : Steady s u) (hok : ((probesOf s).map (·.circuit)).Nodup) :
    ((probesOf u).map (·.circuit)).Nodup := by
  refine circuits_nodup_iff.2 fun i j x y hx hy hxy => ?_
  obtain ⟨p, hp, hpx⟩ := h.circuits i x hx
  obtain ⟨q, hq, hqy⟩ := h.circuits j y hy
  exact circuits_nodup_iff.1 hok i j p q hp hq (hpx.trans (hxy.trans hqy.symm))

theorem findPath_based (s : State) (c : Nat) : (findPath s c).map PathRecord.based =
    (s.paths.map PathRecord.based).find? (·.1 == c) := by
  rw [findPath, List.find?_map]
  rfl

theorem Steady.findPath (h : Steady s u) (c : Nat) :
    (Machine.findPath u c).map PathRecord.based = (Machine.findPath s c).map PathRecord.based := by
  rw [findPath_based, findPath_based, h.based]

/-- The record of a circuit keeps its line and its baseline. -/
theorem Steady.record (h : Steady s u) (ha : Machine.findPath u c = some a) :
    ∃ r, Machine.findPath s c = some r ∧ r.line = a.line ∧ r.baseline = a.baseline := by
  have hsame := h.findPath c
  rw [ha] at hsame
  cases hr : Machine.findPath s c with
  | none => rw [hr] at hsame; cases hsame
  | some r =>
    rw [hr] at hsame
    have hboth := Option.some.inj hsame
    exact ⟨r, rfl, (congrArg (·.2.1) hboth).symm, (congrArg (·.2.2) hboth).symm⟩

theorem Steady.found (h : Steady s u) (hr : Machine.findPath s c = some r) :
    ∃ a, Machine.findPath u c = some a ∧ a.line = r.line ∧ a.baseline = r.baseline := by
  have hsame := h.findPath c
  cases ha : Machine.findPath u c with
  | none => rw [ha, hr] at hsame; cases hsame
  | some a =>
    obtain ⟨x, hx, hline, hbase⟩ := h.record ha
    obtain rfl := Option.some.inj (hr.symm.trans hx)
    exact ⟨a, rfl, hline.symm, hbase.symm⟩

theorem Steady.drivingProbe (h : Steady s u) (hbase : a.baseline = r.baseline) (p : Probe) :
    drivingProbe u p a b true = drivingProbe s p r b true := by
  have hcrosses (n : Nat) : a.crosses n = r.crosses n := by rw [PathRecord.crosses, hbase, PathRecord.crosses]
  simp only [Machine.drivingProbe, blindAt, absentAt, State.own, h.image, h.now, h.isPresent, hcrosses, Bool.true_or]

/-! ### The marker line of a circuit that drives -/

theorem line_ne (hlines : (s.paths.map (·.line)).Nodup) {d : Nat} (hr : findPath s c = some r)
    (ha : findPath s d = some a) (hne : d ≠ c) : a.line ≠ r.line := by
  intro hsame
  have hra := List.inj_on_of_nodup_map hlines (List.mem_of_find?_eq_some ha) (List.mem_of_find?_eq_some hr) hsame
  have hcircuit : r.circuit = c := by simpa using List.find?_some hr
  have hcircuit' : a.circuit = d := by simpa using List.find?_some ha
  exact hne (by rw [← hcircuit, ← hcircuit', hra])

/-- A slot that drives, and its line with it. -/
structure Drives (i : Nat) (q : Probe) (n : Nat) (u : State) : Prop where
  slot : probeAt u i = some q
  line : u.lines.getD n none = some (q.circuit, q.epoch)

theorem drives_failed (hjoin : o.request.payload.kind ≠ 1) (hsteady : Steady s u)
    (hok : ((probesOf s).map (·.circuit)).Nodup) (hlines : (s.paths.map (·.line)).Nodup)
    (hr : findPath s q.circuit = some r) (hphase : q.phase = .driving) (h : Drives i q r.line u) :
    Drives i q r.line (failed o u) := by
  obtain ⟨hslot, hline⟩ := h
  refine ⟨probeAt_failed_of_other hjoin hslot (by rw [hphase]; decide) (fun hc => ?_), ?_⟩
  · rw [hphase] at hc
    cases hc
  · rcases failed_slots hjoin u with ⟨-, hsame⟩ | ⟨j, x, a, hx, hclaiming, -, ha, hdrive⟩ | ⟨j, x, hx, -, hfree⟩
    · rw [hsame, hline]
    · obtain ⟨z, hz, hzline, -⟩ := hsteady.record ha
      have hne : x.circuit ≠ q.circuit := by
        intro hsame
        obtain rfl := circuits_nodup_iff.1 (hsteady.nodup hok) j i x q hx hslot hsame
        rw [Option.some.inj (hx.symm.trans hslot), hphase] at hclaiming
        cases hclaiming
      have hdiff : a.line ≠ r.line := hzline ▸ line_ne hlines hr hz hne
      have hset : (failed o u).lines = u.lines.set a.line (some (x.circuit, x.epoch)) := by rw [hdrive]; rfl
      rw [hset, List.getD_eq_getElem?_getD, List.getElem?_set_ne hdiff, ← List.getD_eq_getElem?_getD, hline]
    · rw [hfree]
      exact hline

/-! ### All the ends -/

section All

variable (hjoin : ∀ o ∈ os, o.request.payload.kind ≠ 1)

include hjoin

theorem steady_failAll (h : Steady s u) : Steady s (failAll os u) :=
  failAll_keeps (fun _ l h => steady_setLoop l h) (fun o ho _ h => steady_failed (hjoin o ho) h) h

/-- A slot that no end concerns stays as it is. -/
theorem probeAt_failAll_of_other (hp : probeAt u i = some p) (hclosing : p.phase ≠ .closing)
    (hclaiming : p.phase = .claiming → ∀ o ∈ os, o.request.isStartOf p.circuit p.epoch = false) :
    probeAt (failAll os u) i = some p :=
  failAll_keeps (P := fun v => probeAt v i = some p) (fun _ _ h => h) (fun o ho _ h =>
    probeAt_failed_of_other (hjoin o ho) h hclosing fun hphase => hclaiming hphase o ho) hp

theorem probeAt_failAll_none (hp : probeAt u i = none) : probeAt (failAll os u) i = none := by
  refine failAll_keeps (P := fun v => probeAt v i = none) (fun _ _ h => h) (fun o ho v h => ?_) hp
  cases hq : probeAt (failed o v) i with
  | none => rfl
  | some q =>
    obtain ⟨p, hp, -⟩ := probeAt_of_failed (hjoin o ho) hq
    rw [h] at hp
    cases hp

theorem drives_failAll (hsteady : Steady s u) (hok : ((probesOf s).map (·.circuit)).Nodup)
    (hlines : (s.paths.map (·.line)).Nodup) (hr : findPath s q.circuit = some r) (hphase : q.phase = .driving)
    (h : Drives i q r.line u) : Drives i q r.line (failAll os u) := by
  refine (failAll_keeps (P := fun v => Steady s v ∧ Drives i q r.line v) (fun _ l ⟨hst, hslot, hline⟩ =>
    ⟨steady_setLoop l hst, hslot, hline⟩) (fun o ho v ⟨hst, hd⟩ => ?_) ⟨hsteady, h⟩).2
  exact ⟨steady_failed (hjoin o ho) hst, drives_failed (hjoin o ho) hst hok hlines hr hphase hd⟩

end All

/-- The slot whose PROBE START ends FAILED drives, with every PRESENT station blind (R50, R52). -/
theorem probeAt_failAll_start (hok : ((probesOf s).map (·.circuit)).Nodup) (hphase : p.phase = .claiming)
    (hr : findPath s p.circuit = some r) : ∀ {os : List Outstanding} {u : State},
    (∀ o ∈ os, o.request.payload.kind ≠ 1) → Steady s u → u.lines.length = s.lines.length → probeAt u i = some p →
    (os.any fun o => o.request.isStartOf p.circuit p.epoch) = true →
    probeAt (failAll os u) i = some (drivingProbe s p r noMarks true) ∧
      (r.line < s.lines.length → (s.paths.map (·.line)).Nodup →
        (failAll os u).lines.getD r.line none = some (p.circuit, p.epoch)) := by
  intro os
  induction os with
  | nil => exact fun _ _ _ _ h => absurd h (by simp)
  | cons o os ih =>
    intro u hjoin hsteady hlength hp hany
    have hjoin' : ∀ x ∈ os, x.request.payload.kind ≠ 1 := fun x hx => hjoin x (List.mem_cons_of_mem _ hx)
    have hkind := hjoin o List.mem_cons_self
    have hsteady' : Steady s (linger o.number u) := steady_setLoop _ hsteady
    have hp' : probeAt (linger o.number u) i = some p := hp
    have hnext : Steady s (giveOutcome o .failed u) := steady_setLoop _ (steady_failed hkind hsteady')
    by_cases hstart : o.request.isStartOf p.circuit p.epoch = true
    · obtain ⟨m, d, hpay⟩ := (isStartOf_iff _).1 hstart
      obtain ⟨a, ha, haline, hbase⟩ := hsteady'.found hr
      have hdrive : failed o (linger o.number u) = drive a.line p.circuit p.epoch
          (putSlot i (some (drivingProbe s p r noMarks true)) (linger o.number u)) := by
        rw [← hsteady'.drivingProbe (b := noMarks) hbase p]
        exact handOutcome_start (e := .failed) hpay (hsteady'.nodup hok) hp' hphase rfl rfl ha
      have hslot : probeAt (giveOutcome o .failed u) i = some (drivingProbe s p r noMarks true) := by
        rw [giveOutcome_failed, hdrive]
        exact (probeAt_putSlot i i _ u (lt_of_probeAt hp)).trans (if_pos rfl)
      rw [failAll_cons]
      refine ⟨probeAt_failAll_of_other hjoin' hslot (fun hc => Phase.noConfusion hc) (fun hc => Phase.noConfusion hc),
        fun hlt hlines => ?_⟩
      refine (drives_failAll hjoin' hnext hok hlines (q := drivingProbe s p r noMarks true) hr rfl ⟨hslot, ?_⟩).line
      have hset : (giveOutcome o .failed u).lines = u.lines.set r.line (some (p.circuit, p.epoch)) := by
        rw [giveOutcome_failed, hdrive, ← haline]
        rfl
      rw [hset, List.getD_eq_getElem?_getD, List.getElem?_set_self (by omega)]
      rfl
    · have hno : o.request.isStartOf p.circuit p.epoch = false := by simpa using hstart
      have hslot : probeAt (giveOutcome o .failed u) i = some p := by
        rw [giveOutcome_failed]
        exact probeAt_failed_of_other hkind hp' (by rw [hphase]; decide) fun _ => hno
      have hlength' : (giveOutcome o .failed u).lines.length = s.lines.length := by
        rw [← hlength, giveOutcome_failed]
        rcases failed_slots hkind (linger o.number u) with ⟨-, hsame⟩ | ⟨j, x, a, -, -, -, -, hdrive⟩ | ⟨j, x, -, -, hfree⟩
        · exact congrArg List.length hsame
        · rw [hdrive]
          exact List.length_set
        · rw [hfree]
          rfl
      rw [List.any_cons, hno, Bool.false_or] at hany
      rw [failAll_cons]
      exact ih hjoin' hnext hlength' hslot hany

/-- The slot whose PROBE END ends FAILED is IDLE (R55). -/
theorem probeAt_failAll_end (hok : ((probesOf s).map (·.circuit)).Nodup) (hphase : p.phase = .closing) :
    ∀ {os : List Outstanding} {u : State}, (∀ o ∈ os, o.request.payload.kind ≠ 1) → Steady s u →
    probeAt u i = some p ∨ probeAt u i = none →
    (∃ o ∈ os, ∃ v f, o.request.payload = .probeEnd p.circuit p.epoch v f) → probeAt (failAll os u) i = none := by
  intro os
  induction os with
  | nil => exact fun _ _ _ h => absurd h (by simp)
  | cons o os ih =>
    intro u hjoin hsteady hp hsome
    have hjoin' : ∀ x ∈ os, x.request.payload.kind ≠ 1 := fun x hx => hjoin x (List.mem_cons_of_mem _ hx)
    have hkind := hjoin o List.mem_cons_self
    have hsteady' : Steady s (linger o.number u) := steady_setLoop _ hsteady
    rcases hp with hp | hp
    · have hp' : probeAt (linger o.number u) i = some p := hp
      by_cases hend : ∃ v f, o.request.payload = .probeEnd p.circuit p.epoch v f
      · obtain ⟨v, f, hpay⟩ := hend
        have hfree : failed o (linger o.number u) = putSlot i none (linger o.number u) :=
          handOutcome_end (e := .failed) hpay (hsteady'.nodup hok) hp' hphase rfl rfl
        refine probeAt_failAll_none (u := giveOutcome o .failed u) hjoin' ?_
        rw [giveOutcome_failed, hfree]
        exact (probeAt_putSlot i i _ u (lt_of_probeAt hp)).trans (if_pos rfl)
      · have hnext : Steady s (giveOutcome o .failed u) := steady_setLoop _ (steady_failed hkind hsteady')
        rw [failAll_cons]
        refine ih hjoin' hnext ?_ ?_
        · rw [giveOutcome_failed]
          rcases failed_slots hkind (linger o.number u) with ⟨hsame, -⟩ | ⟨j, x, a, hx, hclaiming, -, -, hdrive⟩ |
            ⟨j, x, hx, -, hfree⟩
          · exact .inl ((congrArg (fun x : ProbeUnit => x.slots.getD i none) hsame).trans hp')
          · have hne : j ≠ i := by
              rintro rfl
              rw [Option.some.inj (hx.symm.trans hp'), hphase] at hclaiming
              cases hclaiming
            rw [hdrive]
            exact .inl ((probeAt_putSlot j i _ u (lt_of_probeAt hx)).trans ((if_neg hne).trans hp))
          · rw [hfree]
            have hput := probeAt_putSlot j i none u (lt_of_probeAt (s := u) hx)
            by_cases hji : j = i
            · exact .inr (hput.trans (if_pos hji))
            · exact .inl (hput.trans ((if_neg hji).trans hp))
        · obtain ⟨x, hx, hxend⟩ := hsome
          rcases List.mem_cons.1 hx with rfl | hx
          · exact absurd hxend hend
          · exact ⟨x, hx, hxend⟩
    · refine probeAt_failAll_none (os := o :: os) hjoin hp

end Sys2Proof.Machine
end

