-- ==== Sys2Proof/Proofs/FailedWindows.lean ====
section
/-! The windows at a LOOP DOWN: each reads the outcome of its own notice, and no other (R96, R101, R102, R107). -/

namespace Sys2Proof.Machine

variable {s u v : State} {ser : Serial} {w : Window} {o x : Outstanding} {os pre post : List Outstanding} {r : Request}
  {b : BestMarks} {p : Payload} {l : List Request}

/-! ### Requests -/

theorem own_mem_noticeAsked_of_mem {q : Request} (hq : q ∈ l) (hown : q.purpose = .own) : q ∈ noticeAsked p l := by
  unfold noticeAsked
  split
  · refine List.mem_map.2 ⟨q, hq, ?_⟩
    split
    · rw [← hown]
    · rfl
  · exact List.mem_append_left _ hq

/-- A notice that is the only one of its kind and serial is requested as the block's own. -/
theorem own_mem_noticeAsked (honly : ∀ q ∈ l, q.payload.kind = p.kind → q.payload.windowSerial = p.windowSerial →
    q.payload = p) : ⟨p, .own⟩ ∈ noticeAsked p l := by
  unfold noticeAsked
  split
  · rename_i hany
    obtain ⟨q, hq, hsame⟩ := List.any_eq_true.1 hany
    rw [Bool.and_eq_true, beq_iff_eq, beq_iff_eq] at hsame
    refine List.mem_map.2 ⟨q, hq, ?_⟩
    rw [if_pos hsame, honly q hq hsame.1 hsame.2]
  · exact List.mem_append_right _ (List.mem_singleton.2 rfl)

/-! ### Outcomes that do not concern a window -/

/-- What an outcome leaves of a window that it does not concern: its entry, the requests that are the unit's own, and no
new notice of its serial. -/
structure WindowUnit.Spares (ser : Serial) (x y : WindowUnit) : Prop where
  found : y.list.find? (·.serial == ser) = x.list.find? (·.serial == ser)
  kept  : ∀ q ∈ x.requests, q.purpose = .own → q ∈ y.requests
  fresh : ∀ q ∈ y.requests, q.payload.windowSerial = some ser → ∃ z ∈ x.requests, z.payload = q.payload

theorem WindowUnit.Spares.refl (x : WindowUnit) : x.Spares ser x := ⟨rfl, fun _ h _ => h, fun q h _ => ⟨q, h, rfl⟩⟩

theorem WindowUnit.Spares.trans {x y z : WindowUnit} (h : x.Spares ser y) (h' : y.Spares ser z) : x.Spares ser z := by
  refine ⟨h'.found.trans h.found, fun q hq hown => h'.kept q (h.kept q hq hown) hown, fun q hq hser => ?_⟩
  obtain ⟨a, ha, haq⟩ := h'.fresh q hq hser
  obtain ⟨c, hc, hca⟩ := h.fresh a ha (haq ▸ hser)
  exact ⟨c, hc, hca.trans haq⟩

theorem spares_of_list {x : WindowUnit} {y : List Window}
    (hfound : y.find? (·.serial == ser) = x.list.find? (·.serial == ser)) : x.Spares ser { x with list := y } :=
  ⟨hfound, fun _ h _ => h, fun q h _ => ⟨q, h, rfl⟩⟩

theorem spares_of_asked {x : WindowUnit} {y : List Window} (hser : p.windowSerial ≠ some ser)
    (hfound : y.find? (·.serial == ser) = x.list.find? (·.serial == ser)) :
    x.Spares ser { x with list := y, requests := noticeAsked p x.requests } := by
  refine ⟨hfound, fun q hq hown => own_mem_noticeAsked_of_mem hq hown, fun q hq hqser => ?_⟩
  rcases mem_noticeAsked hq with hp | ⟨z, hz, hzq⟩
  · exact absurd (hp ▸ hqser) hser
  · exact ⟨z, hz, hzq⟩

theorem find_rewritten_other {a : Serial} (hw : w.serial = a) (hne : a ≠ ser) (u : State) :
    (rewritten a (fun _ => w) u).find? (·.serial == ser) = u.windows.list.find? (·.serial == ser) := by
  rw [rewritten]
  induction u.windows.list with
  | nil => rfl
  | cons z rest ih =>
    rw [List.map_cons, List.find?_cons, List.find?_cons, ih]
    by_cases hz : z.serial = a
    · rw [if_pos hz, hw, hz, beq_false_of_ne hne]
    · rw [if_neg hz]

theorem find_filter_other {a : Serial} (hne : a ≠ ser) (u : State) :
    (u.windows.list.filter fun z => z.serial != a).find? (·.serial == ser) =
      u.windows.list.find? (·.serial == ser) := by
  rw [List.find?_filter]
  congr 1
  funext z
  by_cases hz : z.serial = ser
  · simp [hz, hne.symm]
  · simp [hz]

/-- The notice concerns a window no outcome reads, or another one. -/
def Request.Apart (ser : Serial) (r : Request) : Prop :=
  r.payload.windowSerial = some ser → r.payload.kind = 4 ∨ (r.purpose ≠ .own ∧ r.payload.kind ≠ 5)

theorem clear_noMarks : noMarks.refused &&& ~~~noMarks.taken = 0 := by decide

theorem spares_afterOutcome (h : r.Apart ser) (u : State) :
    u.windows.Spares ser (afterOutcome r noMarks u).windows := by
  unfold afterOutcome
  cases hpay : r.payload with
  | windowOpen a scope =>
    dsimp only
    split
    · rename_i hown
      have hne : a ≠ ser := by
        rintro rfl
        rcases h (by rw [hpay]; rfl) with hkind | ⟨hnot, -⟩
        · rw [hpay] at hkind
          cases hkind
        · exact hnot hown
      cases hw : findWindow u a with
      | none =>
        rw [afterOpenOutcome_of_unlisted hw]
        exact .refl _
      | some w =>
        have hser := serial_of_findWindow hw
        by_cases hready : w.state = .settling ∧ w.settle = .expired
        · rw [afterOpenOutcome_of_ready hw clear_noMarks hready]
          exact spares_of_asked (fun hsame => hne (Option.some.inj hsame))
            (find_rewritten_other (w := { w.leaving u with openReceived := true }) hser hne u)
        · rw [afterOpenOutcome_of_received hw clear_noMarks hready]
          exact spares_of_list (find_rewritten_other (w := { w with openReceived := true }) hser hne u)
    · exact .refl _
  | windowClose a =>
    have hne : a ≠ ser := by
      rintro rfl
      rcases h (by rw [hpay]; rfl) with hkind | ⟨-, hnot⟩
      · rw [hpay] at hkind
        cases hkind
      · exact hnot (by rw [hpay]; rfl)
    by_cases hclosing : ∃ w, findWindow u a = some w ∧ w.state = .closing
    · obtain ⟨w, hw, hstate⟩ := hclosing
      have hser := serial_of_findWindow hw
      dsimp only
      rw [afterCloseOutcome_of_closing hw hstate]
      refine spares_of_list ?_
      split
      · exact find_filter_other hne u
      · exact find_rewritten_other (w := w.delivered u.image.station noMarks) hser hne u
    · dsimp only
      rw [afterCloseOutcome_of_other fun w hw hstate => hclosing ⟨w, hw, hstate⟩]
      exact .refl _
  | tally a n =>
    dsimp only
    split
    · rename_i hown
      have hne : a ≠ ser := by
        rintro rfl
        rcases h (by rw [hpay]; rfl) with hkind | ⟨hnot, -⟩
        · rw [hpay] at hkind
          cases hkind
        · exact hnot hown
      by_cases hsent : ∃ w, findWindow u a = some w ∧ w.state = .closed ∧ w.tally = .sent
      · obtain ⟨w, hw, hsent⟩ := hsent
        have hser := serial_of_findWindow hw
        rw [afterTallyOutcome_of_sent hw hsent]
        split
        · exact spares_of_list (find_filter_other hne u)
        · split
          · exact spares_of_asked (fun hsame => hne (Option.some.inj hsame))
              (find_rewritten_other (w := { w with tally := .pending }) hser hne u)
          · exact spares_of_list (find_rewritten_other (w := { w with tally := .unsent }) hser hne u)
      · rw [(tallyOutcome_of_other fun w hw h => hsent ⟨w, hw, h⟩).2]
        exact .refl _
    · exact .refl _
  | join g batch => exact .refl _
  | probeStart | probeEnd | windowCancel | present | sighting | stray | spanAlarm | loopReset => exact .refl _

/-! ### What the ends leave as it was -/

/-- What a window's outcome reads beside its entry: the image, the other stations' entries, and serials that differ. -/
structure Watched (s u : State) : Prop where
  image   : u.image = s.image
  present : ∀ n, n ≠ s.image.station → isPresent u n = isPresent s n
  nodup   : (u.windows.list.map (·.serial)).Nodup

theorem failed_windows (h : (u.windows.list.map (·.serial)).Nodup) (o : Outstanding) :
    (failed o u).windows = (afterOutcome o.request noMarks u).windows := handOutcome_windows h

theorem watched_failed (h : Watched s u) (o : Outstanding) : Watched s (failed o u) := by
  obtain ⟨himage, hpresent, hnodup⟩ := h
  refine ⟨(failed_image o u).trans himage, fun n hn => ?_, ?_⟩
  · rw [← hpresent n hn, isPresent, rosterAt, failed_roster, ← rosterAt, rosterAt_afterOutcome_other (himage ▸ hn), isPresent]
  · rw [failed_windows hnodup]
    exact hnodup.sublist serials_afterOutcome

theorem watched_setLoop (h : Watched s u) (y : LoopPort) : Watched s (u.setLoop y) := by
  obtain ⟨himage, hpresent, hnodup⟩ := h
  exact ⟨himage, hpresent, hnodup⟩

theorem watched_failAll (h : Watched s u) (os : List Outstanding) : Watched s (failAll os u) :=
  failAll_keeps (P := Watched s) (fun _ l h => watched_setLoop h l) (fun o _ _ h => watched_failed h o) h

/-- Ends of other notices spare a window. -/
theorem spares_failAll (h : Watched s u) (hapart : ∀ x ∈ os, x.request.Apart ser) :
    u.windows.Spares ser (failAll os u).windows := by
  refine (failAll_keeps (P := fun z => Watched s z ∧ u.windows.Spares ser z.windows)
    (fun _ l ⟨hz, hs⟩ => ⟨watched_setLoop hz l, hs⟩) (fun o ho z ⟨hz, hs⟩ => ⟨watched_failed hz o, hs.trans ?_⟩)
    ⟨h, .refl _⟩).2
  rw [failed_windows hz.nodup]
  exact spares_afterOutcome (hapart o ho) z

/-- The queue grows by one report at an end, at most. -/
theorem length_queue_failAll (os : List Outstanding) : ∀ u : State,
    (failAll os u).ctl.queue.length ≤ u.ctl.queue.length + os.length := by
  induction os with
  | nil => exact fun u => le_rfl
  | cons o os ih =>
    intro u
    have hstep : (giveOutcome o .failed u).ctl.queue.length ≤ u.ctl.queue.length + 1 := by
      have hqueue : (giveOutcome o .failed u).ctl.queue = _ := (told_failed o (linger o.number u)).queue
      have hone := length_outcomeReports_le (r := o.request) (b := noMarks) (s := linger o.number u)
      rw [hqueue]
      generalize outcomeReports o.request noMarks (linger o.number u) = reports at hone ⊢
      have hposts : ∀ (m : List Report) (z : State), (postEach m z).ctl.queue.length ≤ z.ctl.queue.length + m.length := by
        intro m
        induction m with
        | nil => exact fun z => le_rfl
        | cons a m ihm =>
          intro z
          have ha : (postReport a z).ctl.queue.length ≤ z.ctl.queue.length + 1 := by
            rw [postReport_queue]
            split <;> simp
          have hrest := ihm (postReport a z)
          have hcons : postEach (a :: m) z = postEach m (postReport a z) := rfl
          rw [hcons, List.length_cons]
          omega
      have hall := hposts reports (linger o.number u)
      have hlinger : (linger o.number u).ctl = u.ctl := by simp
      rw [hlinger] at hall
      omega
    have hrest := ih (giveOutcome o .failed u)
    rw [failAll_cons, List.length_cons]
    omega

/-! ### The end of a window's own notice -/

/-- The state that a window's notice ends in, when the ends before it, of n at most, concern other windows. -/
structure Turn (s u : State) (ser : Serial) (n : Nat) : Prop where
  watched : Watched s u
  spared  : s.windows.Spares ser u.windows
  queue   : u.ctl.queue.length + 1 ≤ s.ctl.queue.length + n

theorem Turn.found {n : Nat} (h : Turn s u ser n) : findWindow u ser = findWindow s ser := h.spared.found

theorem failAll_append : failAll (pre ++ o :: post) s =
    failAll post (leaveOutstanding o.number (failed o (linger o.number (failAll pre s)))) := by
  rw [failAll, List.foldl_append]
  rfl

/-- What the first end of a notice brings, and no end takes away, stands after all of them. -/
theorem failAll_turns {R : State → Prop} (hwatched : Watched s s) (ho : o ∈ os)
    (hloop : ∀ z l, R z → R (z.setLoop l)) (hapart : ∀ x ∈ os, x ≠ o → x.request.Apart ser)
    (hturn : ∀ u, Turn s u ser os.length → R (failed o u)) (hstay : ∀ x ∈ os, ∀ u, R u → R (failed x u)) :
    R (failAll os s) := by
  obtain ⟨pre, post, rfl, hnew⟩ := List.eq_append_cons_of_mem ho
  have hpre : ∀ x ∈ pre, x.request.Apart ser := fun x hx =>
    hapart x (List.mem_append_left _ hx) fun hsame => hnew (hsame ▸ hx)
  have hends : Turn s (linger o.number (failAll pre s)) ser (pre ++ o :: post).length := by
    refine ⟨watched_setLoop (watched_failAll hwatched pre) _, spares_failAll hwatched hpre, ?_⟩
    have hqueue := length_queue_failAll pre s
    have hlinger : (linger o.number (failAll pre s)).ctl = (failAll pre s).ctl := by simp
    rw [List.length_append, List.length_cons, hlinger]
    omega
  rw [failAll_append]
  exact failAll_keeps hloop (fun x hx => hstay x (List.mem_append_right _ (List.mem_cons_of_mem _ hx)))
    (hloop _ _ (hturn _ hends))

section Own

variable (hwatched : Watched s s) (ho : o ∈ os) (hapart : ∀ x ∈ os, x ≠ o → x.request.Apart ser)

include hwatched ho hapart

/-- A fact about the entry of the window and the requests of its serial that its own notice brings, and brings again. -/
theorem failAll_window {R : Option Window → List Request → Prop}
    (hmono : ∀ f l l', (∀ q ∈ l, q.purpose = .own → q ∈ l') → R f l → R f l')
    (hturn : ∀ u, Turn s u ser os.length →
      R (findWindow (afterOutcome o.request noMarks u) ser) (afterOutcome o.request noMarks u).windows.requests)
    (hagain : ∀ u, Watched s u → R (findWindow u ser) u.windows.requests →
      R (findWindow (afterOutcome o.request noMarks u) ser) (afterOutcome o.request noMarks u).windows.requests) :
    R (findWindow (failAll os s) ser) (failAll os s).windows.requests := by
  have hsame {u : State} (hu : Watched s u) (x : Outstanding) : findWindow (failed x u) ser =
      findWindow (afterOutcome x.request noMarks u) ser := by
    rw [findWindow, failed_windows hu.nodup, findWindow]
  refine (failAll_turns (R := fun u => Watched s u ∧ R (findWindow u ser) u.windows.requests) hwatched ho
    (fun z l ⟨hz, hr⟩ => ⟨watched_setLoop hz l, hr⟩) hapart (fun u hu => ⟨watched_failed hu.watched o, ?_⟩)
    fun x hx u ⟨hu, hr⟩ => ⟨watched_failed hu x, ?_⟩).2
  · rw [hsame hu.watched, failed_windows hu.watched.nodup]
    exact hturn u hu
  · rw [hsame hu, failed_windows hu.nodup]
    by_cases hxo : x = o
    · rw [hxo]
      exact hagain u hu hr
    · have hspares := spares_afterOutcome (hapart x hx hxo) u
      rw [show findWindow (afterOutcome x.request noMarks u) ser = findWindow u ser from hspares.found]
      exact hmono _ _ _ hspares.kept hr

end Own

end Sys2Proof.Machine
end

