-- ==== Sys2Proof/Proofs/FailedOutcomes.lean ====
section
/-! What FAILED tells a window: its WINDOW OPEN, its WINDOW CLOSE and its TALLY (R96, R101, R102, R107, R110). -/

namespace Sys2Proof.Machine

variable {s u : State} {ser : Serial} {w : Window} {o : Outstanding} {os : List Outstanding} {scope : PortSet} {a : Tally}

/-- A report that a notice's end brings stays in the queue. -/
theorem failAll_reports {f : Nat × Report → Bool} (hwatched : Watched s s) (ho : o ∈ os)
    (hapart : ∀ x ∈ os, x ≠ o → x.request.Apart ser)
    (hturn : ∀ u, Turn s u ser os.length → (failed o u).ctl.queue.any f = true) :
    (failAll os s).ctl.queue.any f = true := by
  refine failAll_turns (R := fun u => u.ctl.queue.any f = true) hwatched ho (fun _ _ h => h) hapart hturn
    fun x _ u hu => ?_
  obtain ⟨q, hq, hfq⟩ := List.any_eq_true.1 hu
  exact List.any_eq_true.2 ⟨q, (told_failed x u).posted.queue.subset hq, hfq⟩

theorem any_queue_failed {f : Nat × Report → Bool} {r : Report} (hreports : outcomeReports o.request noMarks u = [r])
    (hroom : u.ctl.queue.length < 32) (hf : ∀ n, f (n, r) = true) : (failed o u).ctl.queue.any f = true := by
  have hqueue := (told_failed o u).queue
  have hone : (postEach [r] u).ctl.queue = u.ctl.queue ++ [(u.ctl.reportNumber, r)] :=
    (postReport_queue r u).trans (if_pos hroom)
  rw [hqueue, hreports, hone, List.any_append, List.any_cons, hf, Bool.true_or, Bool.or_true]

section Own

variable (hwatched : Watched s s) (ho : o ∈ os) (hapart : ∀ x ∈ os, x ≠ o → x.request.Apart ser)
  (hw : findWindow s ser = some w)

include hwatched ho hapart hw

/-! ### A WINDOW OPEN: every PRESENT station is unreached, and none refused -/

omit ho hapart hwatched in
theorem confirms (hpay : o.request.payload = .windowOpen ser scope) (hown : o.request.purpose = .own)
    {n : Nat} (hu : Turn s u ser n) : outcomeReports o.request noMarks u =
      [.openConfirmed ser (unmarkedPresent u noMarks)] := by
  have hlisted : (findWindow u ser).isSome = true := by rw [hu.found, hw]; rfl
  rw [outcomeReports, hpay]
  exact (if_pos ⟨hown, hlisted⟩).trans (if_neg (not_not.2 clear_noMarks))

omit hw ho hapart hwatched in
theorem stationIn_unreached (hu : Watched s u) {n : Nat} (hn : n ∈ stationNumbers) :
    stationIn (unmarkedPresent u noMarks) n = (n != s.image.station && isPresent s n) := by
  have hmarked : noMarks.marked n = false := by simp [BestMarks.marked, noMarks, stationIn]
  rw [stationIn_unmarkedPresent ((mem_stationNumbers n).1 hn), hmarked, hu.image]
  by_cases hne : n = s.image.station
  · simp [hne]
  · rw [hu.present n hne]
    simp

theorem failAll_confirms (hpay : o.request.payload = .windowOpen ser scope) (hown : o.request.purpose = .own)
    {f : Nat × Report → Bool} (hroom : s.ctl.queue.length + os.length ≤ 32)
    (hf : ∀ n z, (∀ k ∈ stationNumbers, stationIn z k = (k != s.image.station && isPresent s k)) →
      f (n, .openConfirmed ser z) = true) : (failAll os s).ctl.queue.any f = true := by
  refine failAll_reports hwatched ho hapart fun u hu => any_queue_failed (confirms hw hpay hown hu) ?_ fun n =>
    hf n _ fun k hk => stationIn_unreached hu.watched hk
  have hqueue := hu.queue
  omega

/-- A window that does not wait to leave SETTLING. -/
theorem failAll_received (hpay : o.request.payload = .windowOpen ser scope) (hown : o.request.purpose = .own)
    (hready : ¬ (w.state = .settling ∧ w.settle = .expired)) :
    findWindow (failAll os s) ser = some { w with openReceived := true } := by
  have hser := serial_of_findWindow hw
  refine failAll_window (R := fun f _ => f = some { w with openReceived := true }) hwatched ho hapart
    (fun _ _ _ _ h => h) (fun u hu => ?_) fun u _ hu => ?_
  · rw [afterOutcome_open hpay hown, afterOpenOutcome_of_received (hu.found.trans hw) clear_noMarks hready]
    exact findWindow_of_rewritten (w := { w with openReceived := true }) rfl hser (hu.found.trans hw)
  · rw [afterOutcome_open hpay hown, afterOpenOutcome_of_received hu clear_noMarks hready]
    exact findWindow_of_rewritten (w := { w with openReceived := true }) rfl hser hu

/-- What the end of a settle time leaves of a window, and its WINDOW CLOSE. -/
def LeftSettling (ser : Serial) (w : Window) (f : Option Window) (l : List Request) : Prop :=
  (∃ v, f = some v ∧ v.state = .closing ∧ v.openReceived = true ∧ v.settle = .stopped ∧ v.counts = w.counts) ∧
    ⟨.windowClose ser, .own⟩ ∈ l

theorem failAll_leaves (hpay : o.request.payload = .windowOpen ser scope) (hown : o.request.purpose = .own)
    (hready : w.state = .settling ∧ w.settle = .expired) :
    LeftSettling ser w (findWindow (failAll os s) ser) (failAll os s).windows.requests := by
  have hser := serial_of_findWindow hw
  refine failAll_window (R := LeftSettling ser w) hwatched ho hapart (fun f l l' hl ⟨hv, hasked⟩ => ⟨hv, hl _ hasked rfl⟩)
    (fun u hu => ?_) fun u _ hu => ?_
  · rw [afterOutcome_open hpay hown, afterOpenOutcome_of_ready (hu.found.trans hw) clear_noMarks hready]
    refine ⟨⟨_, findWindow_of_rewritten (w := { w.leaving u with openReceived := true }) rfl hser (hu.found.trans hw),
      rfl, rfl, rfl, rfl⟩, ?_⟩
    exact own_mem_noticeAsked fun q _ hkind hq => windowClose_of_kind hkind hq
  · obtain ⟨⟨v, hv, hstate, hreceived, hsettle, hcounts⟩, hasked⟩ := hu
    have hnot : ¬ (v.state = .settling ∧ v.settle = .expired) := by
      rw [hstate]
      rintro ⟨h, -⟩
      cases h
    have hvser : v.serial = ser := serial_of_findWindow hv
    rw [afterOutcome_open hpay hown, afterOpenOutcome_of_received hv clear_noMarks hnot]
    exact ⟨⟨_, findWindow_of_rewritten (w := { v with openReceived := true }) rfl hvser hv, hstate,
      rfl, hsettle, hcounts⟩, hasked⟩

/-! ### A WINDOW CLOSE: the AWAITED stations are UNREACHED -/

omit hwatched ho hapart hw in
theorem tableAt_delivered (own n : Nat) (hn : n ∈ stationNumbers) : (w.delivered own noMarks).tableAt n =
    if n ≠ own ∧ w.tableAt n = .awaited then .unreached else w.tableAt n := by
  have htaken : stationIn noMarks.taken n = false := by simp [noMarks, stationIn]
  have htable := tableAt_map (w := w.delivered own noMarks) (f := fun n =>
    if n ≠ own ∧ w.tableAt n = .awaited ∧ stationIn noMarks.taken n = false then .unreached else w.tableAt n) rfl
    ((mem_stationNumbers n).1 hn)
  rw [htable]
  simp [htaken]

omit hwatched ho hapart hw in
/-- Only the own station can be AWAITED still. -/
theorem all_delivered (own : Nat) (hown : w.tableAt own ≠ .awaited) :
    (w.delivered own noMarks).table.all (· != .awaited) = true := by
  refine List.all_eq_true.2 fun x hx => ?_
  obtain ⟨n, -, rfl⟩ := List.mem_map.1 hx
  have htaken : stationIn noMarks.taken n = false := by simp [noMarks, stationIn]
  rw [bne_iff_ne]
  by_cases hn : n = own
  · rw [if_neg fun h => h.1 hn, hn]
    exact hown
  · split
    · decide
    · rename_i hnot
      exact fun h => hnot ⟨hn, h, htaken⟩

omit hwatched ho hapart hw in
theorem not_all_delivered (own : Nat) (hlen : w.table.length = 24) (hown : w.tableAt own = .awaited) :
    ¬ (w.delivered own noMarks).table.all (· != .awaited) = true := by
  intro hall
  have hrange : 1 ≤ own ∧ own ≤ 24 := by
    unfold Window.tableAt at hown
    split at hown
    · rename_i hpos
      refine ⟨hpos, ?_⟩
      by_contra hgt
      rw [List.getD_eq_getElem?_getD, List.getElem?_eq_none (by omega)] at hown
      cases hown
    · cases hown
  have hmem : own ∈ stationNumbers := (mem_stationNumbers own).2 ((stationOk_iff own).2 hrange)
  have hin : TallyEntry.awaited ∈ (w.delivered own noMarks).table :=
    List.mem_map.2 ⟨own, hmem, (if_neg fun h => h.1 rfl).trans hown⟩
  have hne := List.all_eq_true.1 hall _ hin
  simp at hne

theorem failAll_closes (hpay : o.request.payload = .windowClose ser) (hstate : w.state = .closing)
    (hnone : w.tableAt s.image.station ≠ .awaited) : findWindow (failAll os s) ser = none := by
  refine failAll_window (R := fun f _ => f = none) hwatched ho hapart (fun _ _ _ _ h => h) (fun u hu => ?_)
    fun u _ hu => ?_
  · have hall := all_delivered u.image.station (w := w) (hu.watched.image ▸ hnone)
    rw [afterOutcome, hpay]
    dsimp only
    rw [afterCloseOutcome_of_closing (hu.found.trans hw) hstate, if_pos hall, findWindow]
    refine List.find?_eq_none.2 fun v hv => ?_
    simpa using (List.mem_filter.1 hv).2
  · rw [afterOutcome, hpay]
    dsimp only
    rw [afterCloseOutcome_of_other fun v hv => by rw [hu] at hv; cases hv]
    exact hu

theorem failAll_summary (hpay : o.request.payload = .windowClose ser) (hstate : w.state = .closing)
    (hnone : w.tableAt s.image.station ≠ .awaited) {f : Nat × Report → Bool}
    (hroom : s.ctl.queue.length + os.length ≤ 32)
    (hf : ∀ n z, z.serial = ser → f (n, .windowSummary z) = true) : (failAll os s).ctl.queue.any f = true := by
  have hser := serial_of_findWindow hw
  refine failAll_reports hwatched ho hapart fun u hu => any_queue_failed
    (r := .windowSummary (w.delivered u.image.station noMarks).summary) ?_ ?_ fun n => hf n _ hser
  · have hall := all_delivered u.image.station (w := w) (hu.watched.image ▸ hnone)
    rw [outcomeReports, hpay]
    dsimp only
    rw [hu.found, hw]
    exact if_pos ⟨hstate, hall⟩
  · have hqueue := hu.queue
    omega

/-- What FAILED leaves of a CLOSING window that awaits the own tally. -/
def AwaitsOwn (s : State) (w : Window) (f : Option Window) : Prop :=
  ∃ v, f = some v ∧ v.state = .collecting ∧ v.counts = w.counts ∧ ∀ n ∈ stationNumbers, v.tableAt n =
    if n ≠ s.image.station ∧ w.tableAt n = .awaited then .unreached else w.tableAt n

theorem failAll_collects (hpay : o.request.payload = .windowClose ser) (hstate : w.state = .closing)
    (hlen : w.table.length = 24) (hawaited : w.tableAt s.image.station = .awaited) :
    AwaitsOwn s w (findWindow (failAll os s) ser) := by
  have hser := serial_of_findWindow hw
  refine failAll_window (R := fun f _ => AwaitsOwn s w f) hwatched ho hapart (fun _ _ _ _ h => h) (fun u hu => ?_)
    fun u _ hu => ?_
  · have hnot := not_all_delivered u.image.station hlen (hu.watched.image.symm ▸ hawaited)
    rw [afterOutcome, hpay]
    dsimp only
    rw [afterCloseOutcome_of_closing (hu.found.trans hw) hstate, if_neg hnot]
    exact ⟨_, findWindow_of_rewritten (w := w.delivered u.image.station noMarks) rfl hser (hu.found.trans hw), rfl, rfl,
      fun n hn => by rw [tableAt_delivered u.image.station n hn, hu.watched.image]⟩
  · obtain ⟨v, hv, hcollecting, hrest⟩ := hu
    have hother : ∀ z, findWindow u ser = some z → z.state ≠ .closing := by
      intro z hz
      rw [← Option.some.inj (hv.symm.trans hz), hcollecting]
      decide
    rw [afterOutcome, hpay]
    dsimp only
    rw [afterCloseOutcome_of_other hother]
    exact ⟨v, hv, hcollecting, hrest⟩

/-! ### A TALLY: PENDING again, or UNSENT -/

/-- What FAILED leaves of a window whose TALLY was sent. -/
def Retallied (s : State) (ser : Serial) (w : Window) (f : Option Window) (l : List Request) : Prop :=
  (∃ v, f = some v ∧ v.state = .closed ∧ v.counts = w.counts ∧
    v.tally = if isPresent s ser.opener then .pending else .unsent) ∧
  (isPresent s ser.opener = true → (∀ q ∈ s.windows.requests, q.payload.kind = 6 →
    q.payload.windowSerial ≠ some ser) → ⟨.tally ser w.counts, .own⟩ ∈ l)

theorem failAll_tallies (hpay : o.request.payload = .tally ser a) (hown : o.request.purpose = .own)
    (hopener : ser.opener ≠ s.image.station) (hstate : w.state = .closed) (hsent : w.tally = .sent) :
    Retallied s ser w (findWindow (failAll os s) ser) (failAll os s).windows.requests := by
  have hser := serial_of_findWindow hw
  have hread (u : State) : afterOutcome o.request noMarks u = afterTallyOutcome ser noMarks u := by
    rw [afterOutcome, hpay]
    exact if_pos hown
  have htaken : ¬ stationIn noMarks.taken ser.opener = true := by simp [noMarks, stationIn]
  refine failAll_window (R := Retallied s ser w) hwatched ho hapart
    (fun f l l' hl ⟨hv, hasked⟩ => ⟨hv, fun hp hn => hl _ (hasked hp hn) rfl⟩) (fun u hu => ?_) fun u _ hu => ?_
  · have hfound := hu.found.trans hw
    rw [hread, afterTallyOutcome_of_sent hfound ⟨hstate, hsent⟩, if_neg htaken, hu.watched.present _ hopener]
    by_cases hpresent : isPresent s ser.opener = true
    · rw [if_pos hpresent]
      refine ⟨⟨_, findWindow_of_rewritten (w := { w with tally := .pending }) rfl hser hfound, hstate, rfl,
        (if_pos hpresent).symm⟩, fun _ hnew => own_mem_noticeAsked fun q hq hkind hqser => ?_⟩
      obtain ⟨z, hz, hzq⟩ := hu.spared.fresh q hq hqser
      exact absurd (hzq ▸ hqser) (hnew z hz (hzq ▸ hkind))
    · rw [if_neg hpresent]
      exact ⟨⟨_, findWindow_of_rewritten (w := { w with tally := .unsent }) rfl hser hfound, hstate, rfl,
        (if_neg hpresent).symm⟩, fun hp => absurd hp hpresent⟩
  · obtain ⟨⟨v, hv, hclosed, hcounts, htally⟩, hasked⟩ := hu
    have hother : ∀ z, findWindow u ser = some z → ¬ (z.state = .closed ∧ z.tally = .sent) := by
      intro z hz hboth
      rw [← Option.some.inj (hv.symm.trans hz), htally] at hboth
      split at hboth
      · cases hboth.2
      · cases hboth.2
    rw [hread, (tallyOutcome_of_other hother).2]
    exact ⟨⟨v, hv, hclosed, hcounts, htally⟩, hasked⟩

end Own

end Sys2Proof.Machine
end

