-- ==== Sys2Proof/Proofs/FailedRecords.lean ====
section
/-! The path records at a LOOP DOWN: only a window that leaves SETTLING releases its holds (R16, R101). -/

namespace Sys2Proof.Machine

variable {s t u v y z : State} {ser a : Serial} {w : Window} {o : Outstanding} {os : List Outstanding} {r : Request}

/-! ### Windows whose settle time is over -/

/-- The window waits for the outcome of its WINDOW OPEN to leave SETTLING. -/
def Ready (s : State) (ser : Serial) : Prop :=
  ∃ w, findWindow s ser = some w ∧ w.state = .settling ∧ w.settle = .expired

theorem ready_iff_of_find (h : findWindow t ser = findWindow s ser) : Ready t ser ↔ Ready s ser := by
  rw [Ready, h, Ready]

theorem ready_of_windows (h : t.windows = s.windows) : Ready t ser ↔ Ready s ser :=
  ready_iff_of_find (by rw [findWindow, h, findWindow])

theorem not_ready_of_none (h : findWindow s ser = none) : ¬ Ready s ser := by
  rintro ⟨w, hw, -⟩
  rw [h] at hw
  cases hw

theorem not_ready_of_find (hw : findWindow s ser = some w) (h : ¬ (w.state = .settling ∧ w.settle = .expired)) :
    ¬ Ready s ser := by
  rintro ⟨x, hx, hready⟩
  exact h (Option.some.inj (hw.symm.trans hx) ▸ hready)

/-- A change of windows that lets none wait that did not. -/
theorem ready_of_modifyWindow {f : Window → Window} (hf : ∀ w, (f w).serial = w.serial)
    (hready : ∀ w, (f w).state = .settling ∧ (f w).settle = .expired → w.state = .settling ∧ w.settle = .expired)
    (h : Ready (modifyWindow a f s) ser) : Ready s ser := by
  obtain ⟨w, hw, hstate⟩ := h
  rw [findWindow_modifyWindow a ser f hf, Option.map_eq_some_iff] at hw
  obtain ⟨x, hx, rfl⟩ := hw
  refine ⟨x, hx, ?_⟩
  split at hstate
  · exact hready x hstate
  · exact hstate

theorem ready_of_dropWindow (h : Ready (dropWindow a s) ser) : Ready s ser := by
  obtain ⟨w, hw, hstate⟩ := h
  rw [findWindow_dropWindow] at hw
  split at hw
  · cases hw
  · exact ⟨w, hw, hstate⟩

/-! ### No window leaves SETTLING -/

/-- The records and lists are as before, and no more windows wait to leave SETTLING. -/
structure Unreleased (s u : State) : Prop where
  paths : u.paths = s.paths
  sched : u.sched = s.sched
  ready : ∀ ser, Ready u ser → Ready s ser

theorem unreleased_closeOutcome (h : Unreleased s u) (b : BestMarks) : Unreleased s (closeOutcome a b u) := by
  obtain ⟨hpaths, hsched, hready⟩ := h
  refine ⟨by simp [hpaths], by simp [hsched], fun ser hser => hready ser ?_⟩
  cases hw : findWindow u a with
  | none => rwa [closeOutcome_of_unlisted hw] at hser
  | some w =>
    by_cases hstate : w.state = .closing
    · have hmodified {x : Serial} : Ready (modifyWindow a (·.markUnreached u.own b) u) x → Ready u x :=
        ready_of_modifyWindow (fun _ => rfl) fun x hx => absurd hx.1 (by simp [Window.markUnreached])
      rw [closeOutcome_eq hw hstate] at hser
      split at hser
      · exact hmodified ((ready_of_windows (by simp)).1 (ready_of_dropWindow hser))
      · exact hmodified hser
    · rwa [closeOutcome_of_other hw hstate] at hser

theorem unreleased_tallyOutcome (h : Unreleased s u) (b : BestMarks) : Unreleased s (tallyOutcome a b u) := by
  obtain ⟨hpaths, hsched, hready⟩ := h
  refine ⟨by simp [hpaths], by simp [hsched], fun ser hser => hready ser ?_⟩
  by_cases hsent : ∃ w, findWindow u a = some w ∧ w.state = .closed ∧ w.tally = .sent
  · obtain ⟨w, hw, hsent⟩ := hsent
    rw [tallyOutcome_of_sent hw hsent] at hser
    split at hser
    · exact ready_of_dropWindow hser
    · split at hser
      · rw [requestTally_eq hw] at hser
        exact ready_of_modifyWindow (a := a) (f := fun w => { w with tally := .pending }) (fun _ => rfl) (fun _ h => h)
          ((ready_iff_of_find rfl).1 hser)
      · exact ready_of_modifyWindow (a := a) (f := fun w => { w with tally := .unsent }) (fun _ => rfl) (fun _ h => h) hser
  · rwa [(tallyOutcome_of_other fun w hw h => hsent ⟨w, hw, h⟩).1] at hser

/-- The outcome of a WINDOW OPEN whose window does not wait. -/
theorem unreleased_openOutcome (h : Unreleased s u) (hnot : ¬ Ready s a) : Unreleased s (openOutcome a noMarks u) := by
  obtain ⟨hpaths, hsched, hready⟩ := h
  cases hw : findWindow u a with
  | none =>
    rw [openOutcome_of_unlisted hw]
    exact ⟨hpaths, hsched, hready⟩
  | some w =>
    have hwait : ¬ (w.state = .settling ∧ w.settle = .expired) := fun hboth => hnot (hready a ⟨w, hw, hboth⟩)
    obtain ⟨hwindows, hpaths', hsched', -⟩ := confirmed_frame a noMarks u
    rw [openOutcome_of_confirmed hw clear_noMarks, leaveSettling_of_not_ready (findWindow_confirmed hw) hwait]
    refine ⟨hpaths'.trans hpaths, hsched'.trans hsched, fun ser hser => hready ser ?_⟩
    exact ready_of_modifyWindow (a := a) (f := fun w => { w with openReceived := true }) (fun _ => rfl) (fun _ h => h)
      ((ready_of_windows (hwindows.trans rfl)).1 hser)

/-- The own WINDOW OPEN of a window that waits. -/
def Request.Releases (s : State) (r : Request) : Prop :=
  ∃ ser scope, r.payload = .windowOpen ser scope ∧ r.purpose = .own ∧ Ready s ser

theorem unreleased_failed (h : Unreleased s u) (hnot : ¬ o.request.Releases s) : Unreleased s (failed o u) := by
  have hkept {v : State} (hpaths : v.paths = u.paths) (hsched : v.sched = u.sched) (hwindows : v.windows = u.windows) :
      Unreleased s v :=
    ⟨hpaths.trans h.paths, hsched.trans h.sched, fun ser hser => h.ready ser ((ready_of_windows hwindows).1 hser)⟩
  unfold failed handOutcome
  cases hpay : o.request.payload with
  | windowOpen a scope =>
    dsimp only
    split
    · rename_i hown
      exact unreleased_openOutcome h fun hready => hnot ⟨a, scope, hpay, hown, hready⟩
    · exact h
  | windowClose a => exact unreleased_closeOutcome h noMarks
  | tally a n =>
    dsimp only
    split
    · exact unreleased_tallyOutcome h noMarks
    · exact h
  | join g batch => exact hkept (by simp) (by simp) (by simp)
  | probeStart c e m d => exact hkept (by simp) (by simp) (by simp)
  | probeEnd c e x f => exact hkept (by simp) (by simp) (by simp)
  | loopReset => exact hkept rfl rfl rfl
  | windowCancel | present | sighting | stray | spanAlarm => exact h

theorem unreleased_failAll (h : Unreleased s u) (hnot : ∀ o ∈ os, ¬ o.request.Releases s) :
    Unreleased s (failAll os u) :=
  failAll_keeps (P := Unreleased s) (fun _ _ h => ⟨h.paths, h.sched, h.ready⟩)
    (fun o ho _ h => unreleased_failed h (hnot o ho)) h

/-! ### Windows that leave SETTLING, each once -/

/-- Whether a window waits changes at the outcome of its own WINDOW OPEN alone. -/
theorem ready_afterOutcome (h : ∀ scope, r.payload = .windowOpen ser scope → r.purpose = .own → ¬ Ready z ser) :
    Ready (afterOutcome r noMarks z) ser ↔ Ready z ser := by
  by_cases hapart : r.Apart ser
  · exact ready_iff_of_find (spares_afterOutcome hapart z).found
  · have hboth {v : State} (hv : ¬ Ready v ser) (hz : ¬ Ready z ser) : Ready v ser ↔ Ready z ser :=
      ⟨fun h => absurd h hv, fun h => absurd h hz⟩
    obtain ⟨hser, hkind, hpurpose⟩ : r.payload.windowSerial = some ser ∧ r.payload.kind ≠ 4 ∧
        (r.payload.kind = 5 ∨ r.purpose = .own) := by
      unfold Request.Apart at hapart
      push Not at hapart
      obtain ⟨hser, hkind, hrest⟩ := hapart
      refine ⟨hser, hkind, ?_⟩
      by_cases hown : r.purpose = .own
      · exact .inr hown
      · exact .inl (hrest hown)
    unfold afterOutcome
    cases hpay : r.payload with
    | windowOpen a scope =>
      rw [hpay] at hser hpurpose
      obtain rfl := Option.some.inj hser
      have hown := hpurpose.resolve_left (by decide : ¬ (3 : Nat) = 5)
      have hnot := h scope hpay hown
      dsimp only
      rw [if_pos hown]
      refine hboth ?_ hnot
      cases hw : findWindow z a with
      | none =>
        rw [afterOpenOutcome_of_unlisted hw]
        exact hnot
      | some w =>
        have hwait : ¬ (w.state = .settling ∧ w.settle = .expired) := fun hready => hnot ⟨w, hw, hready⟩
        rw [afterOpenOutcome_of_received hw clear_noMarks hwait]
        exact not_ready_of_find (findWindow_of_rewritten (w := { w with openReceived := true }) rfl
          (serial_of_findWindow hw : w.serial = a) hw) hwait
    | windowClose a =>
      rw [hpay] at hser
      obtain rfl := Option.some.inj hser
      dsimp only
      by_cases hclosing : ∃ w, findWindow z a = some w ∧ w.state = .closing
      · obtain ⟨w, hw, hstate⟩ := hclosing
        refine hboth ?_ (not_ready_of_find hw fun hready => by rw [hstate] at hready; cases hready.1)
        rw [afterCloseOutcome_of_closing hw hstate]
        by_cases hall : (w.delivered z.image.station noMarks).table.all (· != .awaited) = true
        · rw [if_pos hall]
          refine not_ready_of_none (List.find?_eq_none.2 fun v hv => ?_)
          simpa using (List.mem_filter.1 hv).2
        · rw [if_neg hall]
          exact not_ready_of_find (findWindow_of_rewritten (w := w.delivered z.image.station noMarks) rfl
            (serial_of_findWindow hw : w.serial = a) hw) fun hready => WindowState.noConfusion hready.1
      · rw [afterCloseOutcome_of_other fun w hw hstate => hclosing ⟨w, hw, hstate⟩]
    | tally a n =>
      rw [hpay] at hser hpurpose
      obtain rfl := Option.some.inj hser
      have hown := hpurpose.resolve_left (by decide : ¬ (6 : Nat) = 5)
      dsimp only
      rw [if_pos hown]
      by_cases hsent : ∃ w, findWindow z a = some w ∧ w.state = .closed ∧ w.tally = .sent
      · obtain ⟨w, hw, hsent⟩ := hsent
        have hwait : ¬ (w.state = .settling ∧ w.settle = .expired) := fun hready => by
          rw [hsent.1] at hready
          cases hready.1
        have hwser : w.serial = a := serial_of_findWindow hw
        have htaken : ¬ stationIn noMarks.taken a.opener = true := by simp [noMarks, stationIn]
        refine hboth ?_ (not_ready_of_find hw hwait)
        rw [afterTallyOutcome_of_sent hw hsent, if_neg htaken]
        split
        · exact not_ready_of_find (findWindow_of_rewritten (w := { w with tally := .pending }) rfl hwser hw) hwait
        · exact not_ready_of_find (findWindow_of_rewritten (w := { w with tally := .unsent }) rfl hwser hw) hwait
      · rw [(tallyOutcome_of_other fun w hw h => hsent ⟨w, hw, h⟩).2]
    | windowCancel a => exact absurd (by rw [hpay]; rfl) hkind
    | join g batch => exact ready_of_windows rfl
    | probeStart | probeEnd | present | sighting | stray | spanAlarm | loopReset => exact Iff.rfl

/-- A serial that no record holds is released as it stands. -/
theorem afterRelease_of_not_held (h : ∀ x ∈ y.paths, ser ∉ x.hold) :
    (afterRelease ser y).paths = y.paths ∧ (afterRelease ser y).sched = y.sched := by
  have hmap : y.paths.map (released ser) = y.paths :=
    (List.map_congr_left fun x hx => released_of_not_mem (h x hx)).trans (List.map_id _)
  have hfilter : y.paths.filter (freed ser) = [] := List.filter_eq_nil_iff.2 fun x hx hfreed =>
    h x hx ((freed_iff ser x).1 hfreed).1
  simp [afterRelease, hmap, hfilter]

theorem afterRelease_congr (hpaths : z.paths = y.paths) (hsched : z.sched = y.sched) :
    (afterRelease ser z).paths = (afterRelease ser y).paths ∧ (afterRelease ser z).sched = (afterRelease ser y).sched := by
  simp [afterRelease, hpaths, hsched]

/-- What the outcomes of a part of the notices have left, against the releases of their windows. -/
structure Releasing (s z y : State) : Prop where
  paths : z.paths = y.paths
  sched : z.sched = y.sched
  holds : ∀ x ∈ z.paths, x.hold.Nodup
  ready : ∀ ser, (Ready z ser ↔ Ready s ser) ∨ (¬ Ready z ser ∧ ∀ x ∈ z.paths, ser ∉ x.hold)

/-- The release of the window whose WINDOW OPEN this is. -/
def releaseAsked (o : Outstanding) (y : State) : State :=
  o.request.payload.windowSerial.elim y fun ser => afterRelease ser y

theorem releasing_step (h : Releasing s z y) (hdecide : endsSettling s o = true ↔ o.request.Releases s) :
    Releasing s (afterOutcome o.request noMarks z) (if endsSettling s o = true then releaseAsked o y else y) := by
  obtain ⟨hpaths, hsched, hholds, hready⟩ := h
  by_cases hends : endsSettling s o = true
  · obtain ⟨a, scope, hpay, hown, hra⟩ := hdecide.1 hends
    have hasked : releaseAsked o y = afterRelease a y := by rw [releaseAsked, hpay]; rfl
    rw [if_pos hends, hasked]
    have hread : afterOutcome o.request noMarks z = afterOpenOutcome a noMarks z := afterOutcome_open hpay hown
    by_cases hza : Ready z a
    · obtain ⟨w, hw, hboth⟩ := hza
      obtain ⟨hpaths', hsched'⟩ := afterRelease_congr (ser := a) hpaths hsched
      have hspec := afterOpenOutcome_of_ready hw clear_noMarks hboth
      have hzpaths : (afterOutcome o.request noMarks z).paths = z.paths.map (released a) := by
        rw [hread, hspec]
        rfl
      have hshrinks : ∀ x ∈ (afterOutcome o.request noMarks z).paths, ∃ x' ∈ z.paths, x.hold = x'.hold.erase a := by
        rw [hzpaths]
        intro x hx
        obtain ⟨x', hx', rfl⟩ := List.mem_map.1 hx
        exact ⟨x', hx', rfl⟩
      refine ⟨?_, ?_, fun x hx => ?_, fun ser => ?_⟩
      · rw [hread, hspec]
        exact hpaths'
      · rw [hread, hspec]
        exact hsched'
      · obtain ⟨x', hx', hhold⟩ := hshrinks x hx
        rw [hhold]
        exact (hholds x' hx').erase a
      · by_cases hser : ser = a
        · subst hser
          refine .inr ⟨?_, fun x hx => ?_⟩
          · rw [hread, hspec]
            exact not_ready_of_find (findWindow_of_rewritten (w := { w.leaving z with openReceived := true }) rfl
              (serial_of_findWindow hw : w.serial = ser) hw) fun hready => WindowState.noConfusion hready.1
          · obtain ⟨x', hx', hhold⟩ := hshrinks x hx
            rw [hhold]
            exact (hholds x' hx').not_mem_erase
        · have hsame : Ready (afterOutcome o.request noMarks z) ser ↔ Ready z ser :=
            ready_afterOutcome fun scope' hpay' _ => by
              rw [hpay] at hpay'
              cases hpay'
              exact absurd rfl hser
          rcases hready ser with hiff | ⟨hnot, hheld⟩
          · exact .inl (hsame.trans hiff)
          · refine .inr ⟨fun h => hnot (hsame.1 h), fun x hx => ?_⟩
            obtain ⟨x', hx', hhold⟩ := hshrinks x hx
            rw [hhold]
            exact fun hmem => hheld x' hx' (List.mem_of_mem_erase hmem)
    · obtain ⟨-, hheld⟩ := (hready a).resolve_left fun hiff => hza (hiff.2 hra)
      have hsame : (afterOutcome o.request noMarks z).paths = z.paths ∧
          (afterOutcome o.request noMarks z).sched = z.sched := by
        rw [hread]
        cases hw : findWindow z a with
        | none =>
          rw [afterOpenOutcome_of_unlisted hw]
          exact ⟨rfl, rfl⟩
        | some w =>
          rw [afterOpenOutcome_of_received hw clear_noMarks fun hboth => hza ⟨w, hw, hboth⟩]
          exact ⟨rfl, rfl⟩
      obtain ⟨hypaths, hysched⟩ := afterRelease_of_not_held (ser := a) (y := y) (hpaths ▸ hheld)
      rw [← hypaths] at hpaths
      rw [← hysched] at hsched
      refine ⟨hsame.1.trans hpaths, hsame.2.trans hsched, hsame.1 ▸ hholds, fun ser => ?_⟩
      have hiff : Ready (afterOutcome o.request noMarks z) ser ↔ Ready z ser :=
        ready_afterOutcome fun scope' hpay' _ => by
          rw [hpay] at hpay'
          cases hpay'
          exact hza
      rw [hsame.1, hiff]
      exact hready ser
  · have hnot : ∀ ser scope, o.request.payload = .windowOpen ser scope → o.request.purpose = .own → ¬ Ready z ser := by
      intro ser scope hpay hown hz
      rcases hready ser with hiff | ⟨hz', -⟩
      · exact hends (hdecide.2 ⟨ser, scope, hpay, hown, hiff.1 hz⟩)
      · exact hz' hz
    have hsame : (afterOutcome o.request noMarks z).paths = z.paths ∧
        (afterOutcome o.request noMarks z).sched = z.sched := by
      by_cases hkind : o.request.payload.kind = 3
      · obtain ⟨ser, scope, hpay⟩ := windowOpen_of_kind hkind
        by_cases hown : o.request.purpose = .own
        · rw [afterOutcome_open hpay hown]
          cases hw : findWindow z ser with
          | none =>
            rw [afterOpenOutcome_of_unlisted hw]
            exact ⟨rfl, rfl⟩
          | some w =>
            rw [afterOpenOutcome_of_received hw clear_noMarks fun hboth => hnot ser scope hpay hown ⟨w, hw, hboth⟩]
            exact ⟨rfl, rfl⟩
        · have hself : afterOutcome o.request noMarks z = z := by
            rw [afterOutcome, hpay]
            exact if_neg hown
          rw [hself]
          exact ⟨rfl, rfl⟩
      · exact afterOutcome_records hkind
    rw [if_neg hends]
    refine ⟨hsame.1.trans hpaths, hsame.2.trans hsched, hsame.1 ▸ hholds, fun ser => ?_⟩
    rw [hsame.1, ready_afterOutcome fun scope hpay hown => hnot ser scope hpay hown]
    exact hready ser

theorem releasing_fold (hdecide : ∀ o ∈ os, endsSettling s o = true ↔ o.request.Releases s) :
    ∀ {z y : State}, Releasing s z y → Releasing s (os.foldl (fun v o => afterOutcome o.request noMarks v) z)
      (os.foldl (fun v o => if endsSettling s o = true then releaseAsked o v else v) y) := by
  induction os with
  | nil => exact fun h => h
  | cons o os ih =>
    intro z y h
    exact ih (fun x hx => hdecide x (List.mem_cons_of_mem _ hx)) (releasing_step h (hdecide o List.mem_cons_self))

/-- A notice that is still open releases a window as the statement counts it. -/
theorem endsSettling_iff (hopen : o.standing ≠ .lingering) : endsSettling s o = true ↔ o.request.Releases s := by
  unfold endsSettling
  cases hpay : o.request.payload with
  | windowOpen a scope =>
    have hready : ((Payload.windowOpen a scope).windowSerial.bind (findWindow s)).any
        (fun w => w.state == .settling && w.settle == .expired) = true ↔ Ready s a := by
      rw [Option.any_eq_true]
      simp [Payload.windowSerial, Ready]
    simp only [Bool.and_eq_true, bne_iff_ne, beq_iff_eq, hready]
    constructor
    · rintro ⟨⟨⟨-, hown⟩, -⟩, hra⟩
      exact ⟨a, scope, hpay, hown, hra⟩
    · rintro ⟨a', scope', hpay', hown, hra⟩
      rw [hpay] at hpay'
      cases hpay'
      exact ⟨⟨⟨hopen, hown⟩, rfl⟩, hra⟩
  | _ =>
    refine ⟨fun h => ?_, ?_⟩
    · simp [Payload.kind] at h
    · rintro ⟨a', scope', hpay', -⟩
      rw [hpay] at hpay'
      cases hpay'

end Sys2Proof.Machine
end

