-- ==== Sys2Proof/Proofs/LoopDowns.lean ====
section
/-! SILENCE_TIMEOUT: the loop goes DOWN (R67, R153). -/

namespace Sys2Proof.Machine

variable {s : State} {due i : Nat} {p : Probe} {r : PathRecord} {o : Outstanding} {ser : Serial} {w : Window}

/-- The entries that a LOOP DOWN ends. -/
def openEntries (s : State) : List Outstanding := s.loop.outstanding.filter (·.standing != .lingering)

/-- The state before their ends. -/
def fallen (due : Nat) (s : State) : State :=
  raiseAlert .loop (loseLoop (changeLoop (fun l => { l with up := false, silence := none }) (advanceTo due s)))

/-- The state after SILENCE_TIMEOUT. -/
def down (due : Nat) (s : State) : State := failAll (openEntries s) (fallen due s)

/-! ### Before the ends -/

theorem fallen_frame (due : Nat) (s : State) : (fallen due s).now = max s.now due ∧ (fallen due s).image = s.image ∧
    (fallen due s).hops = s.hops ∧ (fallen due s).scanner = s.scanner ∧ (fallen due s).paths = s.paths ∧
    (fallen due s).sched = s.sched ∧ (fallen due s).lines = s.lines ∧ (fallen due s).windows = s.windows ∧
    (fallen due s).roster = s.roster ∧ (fallen due s).ctl.queue = s.ctl.queue :=
  ⟨rfl, rfl, rfl, rfl, rfl, rfl, rfl, rfl, rfl, rfl⟩

theorem fallen_loop (due : Nat) (s : State) : (fallen due s).loop =
    { s.loop with up := false, silence := none, fairness := (fallen due s).loop.fairness } := by
  have hfair : (fallen due s).loop = ({ s.loop with up := false, silence := none } : LoopPort).fair := rfl
  rw [hfair, fair_eq]

theorem fallen_entries (due : Nat) (s : State) : (fallen due s).loop.outstanding = s.loop.outstanding := by
  rw [fallen_loop]

theorem exec_silenceTimeout (hup : s.loop.up = true) (hsilence : s.loop.silence = some due) :
    exec .silenceTimeout s = .next (down due s) := by
  have harm : exec .silenceTimeout s = execSilenceTimeout s := rfl
  have hloop : loopDown (advanceTo due s) = endEntries .failed (fun _ => true) (fallen due s) := rfl
  rw [harm, execSilenceTimeout, hsilence]
  dsimp only
  rw [if_pos hup, hloop, endEntries, fallen_entries]
  simp only [Bool.and_true]
  rfl

theorem probeAt_fallen (due i : Nat) (s : State) : probeAt (fallen due s) i =
    (probeAt s i).map fun p => if p.phase = .driving then { p with loopLost := true } else p :=
  probeAt_modifyDriving i _ _

theorem isPresent_fallen (due : Nat) (s : State) : isPresent (fallen due s) = isPresent s := rfl

theorem agree_fallen (due : Nat) (s : State) : Agree s (fallen due s) := ⟨rfl, rfl, rfl, rfl, rfl⟩

theorem circuits_fallen (hok : ((probesOf s).map (·.circuit)).Nodup) :
    ((probesOf (fallen due s)).map (·.circuit)).Nodup := by
  have hback {j : Nat} {q : Probe} (hq : probeAt (fallen due s) j = some q) :
      ∃ p, probeAt s j = some p ∧ p.circuit = q.circuit := by
    rw [probeAt_fallen, Option.map_eq_some_iff] at hq
    obtain ⟨p, hp, rfl⟩ := hq
    refine ⟨p, hp, ?_⟩
    split <;> rfl
  refine circuits_nodup_iff.2 fun i j x y hx hy hxy => ?_
  obtain ⟨p, hp, hpx⟩ := hback hx
  obtain ⟨q, hq, hqy⟩ := hback hy
  exact circuits_nodup_iff.1 hok i j p q hp hq (hpx.trans (hxy.trans hqy.symm))

/-! ### The Loop Port -/

theorem any_openEntries (f : Outstanding → Bool) : (openEntries s).any f =
    s.loop.outstanding.any fun o => o.standing != .lingering && f o := List.any_filter

theorem mem_openEntries : o ∈ openEntries s ↔ o ∈ s.loop.outstanding ∧ o.standing ≠ .lingering := by
  rw [openEntries, List.mem_filter, bne_iff_ne]

theorem down_loop (due : Nat) (s : State) : (down due s).loop = { s.loop with
    up := false, silence := none, retries := s.loop.retries.diff ((openEntries s).map (·.number))
    outstanding := (down due s).loop.outstanding
    quarantine := s.loop.quarantine && !(s.loop.outstanding.any fun o => o.failsWith 12)
    fairness := (down due s).loop.fairness } := by
  have hfall := fallen_loop due s
  have hends := failAll_loop (openEntries s) (fallen due s)
  rw [any_openEntries] at hends
  rw [down, hends, hfall]
  rfl

theorem lingering_of_down {x : Outstanding} (hx : x ∈ (down due s).loop.outstanding) : x.standing = .lingering := by
  have hsame : endEntries .failed (fun _ => true) (fallen due s) = down due s := by
    rw [endEntries, fallen_entries]
    simp only [Bool.and_true]
    rfl
  exact lingering_of_endEntries .failed (hsame.symm ▸ hx)

/-- Every entry with a waiting retry copy is open. -/
theorem retries_down (hok : NumbersOk s) : s.loop.retries.diff ((openEntries s).map (·.number)) = [] := by
  obtain ⟨-, -, -, hnodup, hwaiting, -⟩ := hok
  refine List.eq_nil_iff_forall_not_mem.2 fun n hn => ?_
  obtain ⟨hin, hout⟩ := (hnodup.mem_sdiff_iff).1 hn
  obtain ⟨o, ho, rfl, hst⟩ := hwaiting n hin
  exact hout (List.mem_map_of_mem (mem_openEntries.2 ⟨ho, by rw [hst]; decide⟩))

/-! ### The slots -/

/-- While a slot is taken no JOIN is under way. -/
theorem no_open_join (hok : JoiningOk s) (hp : probeAt s i = some p) : ∀ o ∈ openEntries s, o.request.payload.kind ≠ 1 := by
  obtain ⟨hjoins, -, hslots, -⟩ := hok
  have hjoined : s.roster.joined = true := by
    by_contra hnot
    have hmem : p ∈ probesOf s := mem_probesOf.2 ⟨i, hp⟩
    rw [hslots (by simpa using hnot)] at hmem
    cases hmem
  intro o ho hkind
  obtain ⟨hin, hopen⟩ := mem_openEntries.1 ho
  have hnone : openJoins s = 0 := by simpa [hjoined] using hjoins
  have hcount : (s.loop.outstanding.countP fun o => o.standing != .lingering && o.request.payload.kind == 1) = 0 := by
    unfold openJoins at hnone
    omega
  have hno := List.countP_eq_zero.1 hcount o hin
  simp [hopen, hkind] at hno

theorem probeAt_down_driving (hok : JoiningOk s) (hp : probeAt s i = some p) (hphase : p.phase = .driving) :
    probeAt (down due s) i = some { p with loopLost := true } := by
  have hfall : probeAt (fallen due s) i = some { p with loopLost := true } := by
    rw [probeAt_fallen, hp, Option.map_some, if_pos hphase]
  refine probeAt_failAll_of_other (no_open_join hok hp) hfall (fun hc => ?_) fun hc => ?_
  · exact Phase.noConfusion (hphase.symm.trans hc)
  · exact Phase.noConfusion (hphase.symm.trans hc)

theorem probeAt_fallen_of_other (hp : probeAt s i = some p) (hphase : p.phase ≠ .driving) :
    probeAt (fallen due s) i = some p := by
  rw [probeAt_fallen, hp, Option.map_some, if_neg hphase]

theorem probeAt_down_waiting (hok : JoiningOk s) (hp : probeAt s i = some p) (hphase : p.phase = .claiming)
    (hnone : (s.loop.outstanding.any fun o => o.standing != .lingering &&
      o.request.isStartOf p.circuit p.epoch) = false) : probeAt (down due s) i = some p := by
  rw [← any_openEntries fun o => o.request.isStartOf p.circuit p.epoch] at hnone
  refine probeAt_failAll_of_other (no_open_join hok hp)
    (probeAt_fallen_of_other hp (by rw [hphase]; decide)) (by rw [hphase]; decide) fun _ o ho => ?_
  rw [Bool.eq_false_iff]
  exact fun hstart => by simp [List.any_eq_false.1 hnone o ho] at hstart

/-- The slot that a FAILED PROBE START drives. -/
def lostStart (due : Nat) (s : State) (p : Probe) (r : PathRecord) : Probe :=
  drivingProbe (fallen due s) p r noMarks true

theorem probeAt_down_start (hslots : SlotsOk s) (hok : JoiningOk s) (hp : probeAt s i = some p)
    (hphase : p.phase = .claiming) (hsome : (s.loop.outstanding.any fun o => o.standing != .lingering &&
      o.request.isStartOf p.circuit p.epoch) = true) (hr : findPath s p.circuit = some r) :
    probeAt (down due s) i = some (lostStart due s p r) ∧ (r.line < s.lines.length → (s.paths.map (·.line)).Nodup →
      (down due s).lines.getD r.line none = some (p.circuit, p.epoch)) := by
  rw [← any_openEntries fun o => o.request.isStartOf p.circuit p.epoch] at hsome
  exact probeAt_failAll_start (s := fallen due s) (circuits_fallen hslots.2.1) hphase hr (no_open_join hok hp) (.refl _)
    rfl (probeAt_fallen_of_other hp (by rw [hphase]; decide)) hsome

theorem lostStart_spec (due : Nat) (s : State) (p : Probe) (r : PathRecord) :
    lostStart due s p r = { p with
      phase := .driving, blind := (lostStart due s p r).blind, absent := (lostStart due s p r).absent
      absentLost := (lostStart due s p r).absent != 0, loopLost := true
      deadline := some (max s.now due + deadlineMs s.image.deadlineCode) } ∧
    (∀ n ∈ stationNumbers, stationIn (lostStart due s p r).blind n = (n != s.image.station &&
      (isPresent s n || stationIn p.joiners n))) ∧
    (∀ n ∈ stationNumbers, stationIn (lostStart due s p r).absent n = (n != s.image.station && !isPresent s n &&
      (r.baseline.getD []).any fun h => h.station == n)) := by
  refine ⟨rfl, fun n hn => ?_, fun n hn => ?_⟩
  · have hblind : stationIn (blindAt (fallen due s) p noMarks) n = _ :=
      stationIn_stationsWith _ n ((mem_stationNumbers n).1 hn)
    have hnone : stationIn noMarks.taken n = false := by simp [noMarks, stationIn]
    rw [hnone, Bool.not_false, Bool.and_true] at hblind
    exact hblind
  · have habsent : stationIn (absentAt (fallen due s) r) n = _ :=
      stationIn_stationsWith _ n ((mem_stationNumbers n).1 hn)
    rw [Bool.and_right_comm] at habsent
    exact habsent

theorem probeAt_down_end (hslots : SlotsOk s) (hok : JoiningOk s) (hp : probeAt s i = some p)
    (hphase : p.phase = .closing)
    (hsome : ∃ o ∈ openEntries s, ∃ v f, o.request.payload = .probeEnd p.circuit p.epoch v f) :
    probeAt (down due s) i = none :=
  probeAt_failAll_end (s := fallen due s) (circuits_fallen hslots.2.1) hphase (no_open_join hok hp) (.refl _)
    (.inl (probeAt_fallen_of_other hp (by rw [hphase]; decide))) hsome

/-! ### The roster -/

theorem rosterAt_down_own (hstation : stationOk s.image.station = true) (hlen : s.roster.entries.length = 24) :
    rosterAt (down due s) s.image.station =
      if (s.loop.outstanding.any fun o => o.failsWith 1) = true then joinedEntry s.image (rosterAt s s.image.station)
      else rosterAt s s.image.station := by
  have hentry := rosterAt_failAll_own (s := s) hstation (openEntries s) (fallen due s) rfl hlen
  rw [any_openEntries] at hentry
  exact hentry

theorem joined_down : (down due s).roster.joined =
    (s.roster.joined || s.loop.outstanding.any fun o => o.failsWith 1) := by
  have hjoined := joined_failAll (openEntries s) (fallen due s)
  rw [any_openEntries] at hjoined
  exact hjoined

/-! ### The windows -/

theorem watched_fallen (hok : WindowsOk s) : Watched (fallen due s) (fallen due s) := ⟨rfl, fun _ _ => rfl, hok.1⟩

/-- The other notices that are open concern other windows. -/
theorem apart_of_actsAlone (hser : o.request.payload.windowSerial = some ser) (halone : actsAlone s o = true) :
    ∀ x ∈ openEntries s, x ≠ o → x.request.Apart ser := by
  intro x hx hne hxser
  obtain ⟨hin, hopen⟩ := mem_openEntries.1 hx
  have hother := List.all_eq_true.1 halone x hin
  simp only [Bool.or_eq_true, Bool.and_eq_true, beq_iff_eq, bne_iff_ne] at hother
  rcases hother with (((hsame | hlingers) | hkind) | hserial) | hboth
  · exact absurd hsame hne
  · exact absurd hlingers hopen
  · exact .inl hkind
  · exact absurd (hxser.trans hser.symm) hserial
  · exact .inr hboth

theorem length_openEntries_le : (openEntries s).length ≤ s.loop.outstanding.length := List.length_filter_le _ _

theorem windowOpen_of_serial {p : Payload} (hkind : p.kind = 3) (hser : p.windowSerial = some ser) :
    ∃ scope, p = .windowOpen ser scope := by
  obtain ⟨a, scope, rfl⟩ := windowOpen_of_kind hkind
  obtain rfl := Option.some.inj hser
  exact ⟨scope, rfl⟩

theorem tally_of_serial {p : Payload} (hkind : p.kind = 6) (hser : p.windowSerial = some ser) :
    ∃ n, p = .tally ser n := by
  cases p with
  | tally a n =>
    obtain rfl := Option.some.inj hser
    exact ⟨n, rfl⟩
  | _ => cases hkind

/-! ### The records -/

theorem endsSettling_of_open (s : State) : s.loop.outstanding.filter (endsSettling s) =
    (openEntries s).filter (endsSettling s) := by
  rw [openEntries, List.filter_filter]
  refine List.filter_congr fun o _ => ?_
  unfold endsSettling
  cases o.standing <;> simp

theorem records_down_unreleased (hnone : s.loop.outstanding.filter (endsSettling s) = []) :
    (down due s).paths = s.paths ∧ (down due s).sched = s.sched := by
  have hnot : ∀ o ∈ openEntries s, ¬ o.request.Releases (fallen due s) := by
    intro o ho hreleases
    obtain ⟨-, hopen⟩ := mem_openEntries.1 ho
    rw [endsSettling_of_open, List.filter_eq_nil_iff] at hnone
    exact hnone o ho ((endsSettling_iff hopen).2 hreleases)
  obtain ⟨hpaths, hsched, -⟩ := unreleased_failAll (s := fallen due s) ⟨rfl, rfl, fun _ h => h⟩ hnot
  exact ⟨hpaths, hsched⟩

theorem agree_down (hwindows : WindowsOk s) (hrecords : RecordsOk s) :
    Agree ((openEntries s).foldl (fun v o => afterOutcome o.request noMarks v) s) (down due s) :=
  agree_failAll _ (agree_fallen due s) hwindows.1 hrecords.1

theorem releasing_down (hrecords : RecordsOk s) :
    Releasing s ((openEntries s).foldl (fun v o => afterOutcome o.request noMarks v) s)
      ((s.loop.outstanding.filter (endsSettling s)).foldl (fun v o => releaseAsked o v) s) := by
  obtain ⟨-, hall⟩ := hrecords
  have hstart : Releasing s s s := by
    refine ⟨rfl, rfl, fun x hx => ?_, fun _ => .inl Iff.rfl⟩
    obtain ⟨-, -, -, -, hhold, -⟩ := hall x hx
    exact hhold
  rw [endsSettling_of_open, List.foldl_filter]
  exact releasing_fold (fun o ho => endsSettling_iff (mem_openEntries.1 ho).2) hstart

/-! ### SILENCE_TIMEOUT -/

/-- Settles O49: the port; the slots; the roster; the windows; the records. -/
theorem silenceTakesTheLoopDown : Obligations.SilenceTakesTheLoopDown := by
  intro due s hup hsilence hslots hjoining
  have hloop := down_loop due s
  obtain ⟨hnow, himage, hhops, hscanner⟩ := failAll_frame (openEntries s) (fallen due s)
  have hstart {i : Nat} {p : Probe} {r : PathRecord} := probeAt_down_start (due := due) (i := i) (p := p) (r := r) hslots hjoining
  have hnow' : (down due s).now = max s.now due := hnow
  refine ⟨down due s, exec_silenceTimeout hup hsilence, by rw [hloop], by rw [hloop], hnow', ?_,
    fun o ho => lingering_of_down ho, by rw [hloop], by rw [hloop], by rw [hloop], by rw [hloop],
    fun hok => by rw [hloop]; exact retries_down hok, fun i _ p hp => ⟨?_, ?_, ?_, ?_⟩, fun n _ hne => ?_, joined_down,
    fun hstation hlen => rosterAt_down_own hstation hlen, by rw [hloop], fun hok => ⟨fun w hw hnone => ?_,
      fun o ho hopen hown halone ser hser w hw => ?_⟩, records_down_unreleased, fun hwindows hrecords u hu => ?_,
    fun hwindows hrecords u hu => ?_, hhops, hscanner⟩
  · refine (flagged_failAll _ _).alerts .loop ?_
    rw [fallen, alertSet_raiseAlert, beq_self_eq_true, Bool.or_true]
  · exact probeAt_down_driving hjoining hp
  · intro hphase hsome r hr
    obtain ⟨hslot, hline⟩ := hstart hp hphase hsome hr
    obtain ⟨hfields, hblind, habsent⟩ := lostStart_spec due s p r
    rw [hnow']
    refine ⟨_, hslot, hfields, hblind, habsent, fun hlt hmarkers => hline hlt ?_⟩
    obtain ⟨-, -, hlines, -⟩ := hmarkers
    exact hlines
  · exact probeAt_down_waiting hjoining hp
  · intro hphase hsome
    refine probeAt_down_end hslots hjoining hp hphase ?_
    obtain ⟨o, ho, hend⟩ := List.any_eq_true.1 hsome
    rw [Bool.and_eq_true, bne_iff_ne] at hend
    obtain ⟨hopen, hend⟩ := hend
    refine ⟨o, mem_openEntries.2 ⟨ho, hopen⟩, ?_⟩
    cases hpay : o.request.payload with
    | probeEnd c e v f =>
      rw [hpay] at hend
      obtain ⟨rfl, rfl⟩ : c = p.circuit ∧ e = p.epoch := by simpa using hend
      exact ⟨v, f, rfl⟩
    | _ => rw [hpay] at hend; cases hend
  · exact rosterAt_failAll_other _ _ hne
  · have hspared := spares_failAll (os := openEntries s) (watched_fallen (due := due) hok) (ser := w.serial) fun x hx hser =>
      absurd hser (hnone x (mem_openEntries.1 hx).1 (mem_openEntries.1 hx).2)
    exact hspared.found.trans (findWindow_of_mem hok.1 hw)
  · have hin := mem_openEntries.2 ⟨ho, hopen⟩
    have hapart := apart_of_actsAlone hser halone
    have hwatched := watched_fallen (due := due) hok
    have hroom {a b : Nat} (ha : a ≤ 24) (hb : b ≤ 8) : a + b ≤ 32 := by omega
    have hlength := length_openEntries_le (s := s)
    refine ⟨fun hkind hqueue hfew => ?_, fun hkind hstate => ?_, fun hkind hstate hsettle => ?_,
      fun hkind hstate hlen => ⟨fun hnone => ⟨?_, fun hqueue hfew => ?_⟩, fun hawaited => ?_⟩,
      fun hkind hopener hstate hsent => ?_⟩
    · obtain ⟨scope, hpay⟩ := windowOpen_of_serial hkind hser
      refine failAll_confirms hwatched hin hapart hw hpay hown (hroom hqueue (hlength.trans hfew)) fun n z hz => ?_
      simp only [beq_self_eq_true, Bool.true_and, List.all_eq_true, beq_iff_eq]
      exact hz
    · obtain ⟨scope, hpay⟩ := windowOpen_of_serial hkind hser
      refine failAll_received hwatched hin hapart hw hpay hown ?_
      rintro ⟨hsettling, hexpired⟩
      rcases hstate with hopened | ⟨-, hnot⟩
      · rw [hsettling] at hopened
        cases hopened
      · exact hnot hexpired
    · obtain ⟨scope, hpay⟩ := windowOpen_of_serial hkind hser
      obtain ⟨⟨v, hv, hclosing, hreceived, hstopped, hcounts⟩, hasked⟩ :=
        failAll_leaves hwatched hin hapart hw hpay hown ⟨hstate, hsettle⟩
      exact ⟨⟨v, hv, hclosing, hreceived, hstopped, hcounts⟩, List.any_eq_true.2 ⟨_, hasked, beq_self_eq_true _⟩⟩
    · exact failAll_closes hwatched hin hapart hw (windowClose_of_kind hkind hser) hstate hnone
    · refine failAll_summary hwatched hin hapart hw (windowClose_of_kind hkind hser) hstate hnone
        (hroom hqueue (hlength.trans hfew)) fun n z hz => ?_
      simp only [hz, beq_self_eq_true]
    · exact failAll_collects hwatched hin hapart hw (windowClose_of_kind hkind hser) hstate hlen hawaited
    · obtain ⟨n, hpay⟩ := tally_of_serial hkind hser
      exact failAll_tallies hwatched hin hapart hw hpay hown hopener hstate hsent
  · have hagree := agree_down (due := due) hwindows hrecords
    have hreleasing := releasing_down hrecords
    rw [hu]
    exact ⟨hagree.paths.trans hreleasing.paths, hagree.sched.trans hreleasing.sched⟩
  · have hagree := agree_down (due := due) hwindows hrecords
    rw [hu]
    exact ⟨hagree.windows, hagree.roster, hagree.paths, hagree.sched⟩

end Sys2Proof.Machine
end

