-- ==== Sys2Proof/Proofs/JoinWindows.lean ====
section
/-! What the Window Unit and the Path Store do at a JOIN: the joiner's windows go, the tables of this station's lose it,
and this station's windows in force are announced again (R109 to R112, R163). -/

namespace Sys2Proof.Machine

variable {s t u v : State} {x : Nat} {ser : Serial} {w : Window} {l : List Request} {p : Payload}

/-! ### The joiner's windows (R97, R111) -/

theorem cancelWindowEntry_windows (ser : Serial) (s : State) :
    (cancelWindowEntry ser s).windows = s.windows.without ser := by
  simp [cancelWindowEntry, dropOwed, dropWindowRequests, dropWindow, WindowUnit.without, State.setPaths,
    State.setWindows, bne]

/-- The Window Unit after the cancel of several serials. -/
def WindowUnit.withoutAll (sers : List Serial) (y : WindowUnit) : WindowUnit :=
  { y with
    list := y.list.filter fun w => !(sers.contains w.serial)
    requests := y.requests.filter fun q => q.payload.kind == 4 || sers.all fun a => q.payload.windowSerial != some a }

theorem foldl_cancel_windows (sers : List Serial) : ∀ s : State,
    (sers.foldl (fun t ser => cancelWindowEntry ser t) s).windows = s.windows.withoutAll sers := by
  induction sers with
  | nil =>
    intro s
    simp [WindowUnit.withoutAll]
  | cons ser sers ih =>
    intro s
    rw [List.foldl_cons, ih, cancelWindowEntry_windows]
    simp only [WindowUnit.withoutAll, WindowUnit.without, List.filter_filter]
    congr 1
    · refine List.filter_congr fun w _ => ?_
      rw [List.contains_cons, Bool.not_or, Bool.and_comm, bne]
    · refine List.filter_congr fun q _ => ?_
      rw [List.all_cons]
      cases q.payload.kind == 4 <;> simp [Bool.and_comm]

/-- The serials that an opener's windows leave. -/
def serialsOf (x : Nat) (l : List Window) : List Serial := (l.filter (·.serial.opener == x)).map (·.serial)

theorem filter_serialsOf (x : Nat) (l : List Window) : (l.filter fun w => !((serialsOf x l).contains w.serial)) =
    l.filter fun w => w.serial.opener != x := by
  refine List.filter_congr fun w hw => ?_
  have hiff : w.serial ∈ serialsOf x l ↔ w.serial.opener = x := by
    rw [serialsOf, List.mem_map]
    constructor
    · rintro ⟨a, ha, haw⟩
      rw [← haw]
      simpa using (List.mem_filter.1 ha).2
    · exact fun h => ⟨w, List.mem_filter.2 ⟨hw, by simpa using h⟩, rfl⟩
  rw [List.contains_eq_mem]
  by_cases h : w.serial.opener = x
  · simp [hiff, h]
  · simp [hiff, h]

theorem removeJoinerWindows_windows (x : Nat) (s : State) : (removeJoinerWindows x s).windows = { s.windows with
    list := s.windows.list.filter fun w => w.serial.opener != x
    requests := s.windows.requests.filter fun q => q.payload.kind == 4 ||
      (serialsOf x s.windows.list).all fun a => q.payload.windowSerial != some a } := by
  have hfold : (removeJoinerWindows x s).windows = s.windows.withoutAll (serialsOf x s.windows.list) :=
    foldl_cancel_windows _ s
  rw [hfold, WindowUnit.withoutAll, filter_serialsOf]

/-- A notice that a condition on payloads drops leaves no trace where it was requested. -/
theorem filter_noticeAsked_of {f : Request → Bool}
    (hf : ∀ q : Request, q.payload.kind = p.kind → q.payload.windowSerial = p.windowSerial → f q = false) :
    (noticeAsked p l).filter f = l.filter f := by
  unfold noticeAsked
  split
  · rename_i hany
    clear hany
    induction l with
    | nil => rfl
    | cons q l ih =>
      rw [List.map_cons, List.filter_cons, List.filter_cons, ih]
      by_cases hq : q.payload.kind = p.kind ∧ q.payload.windowSerial = p.windowSerial
      · rw [if_pos hq, hf _ hq.1 hq.2, hf { q with purpose := .own } hq.1 hq.2]
        rfl
      · rw [if_neg hq]
  · rw [List.filter_append, List.filter_cons, hf _ rfl rfl]
    simp

theorem filter_foldl_tallyAsked {f : Request → Bool} (m : List Window)
    (hf : ∀ w ∈ m, ∀ q : Request, q.payload.kind = 6 → q.payload.windowSerial = some w.serial → f q = false) :
    ∀ l : List Request, (m.foldl (fun q w => tallyAsked w.serial w.counts q) l).filter f = l.filter f := by
  induction m with
  | nil => exact fun _ => rfl
  | cons w m ih =>
    intro l
    rw [List.foldl_cons, ih fun a ha => hf a (List.mem_cons_of_mem _ ha)]
    exact filter_noticeAsked_of fun q hkind hser => hf w List.mem_cons_self q hkind hser

theorem retryUnsent_list (hnodup : (s.windows.list.map (·.serial)).Nodup) : (retryUnsent x s).windows.list =
    s.windows.list.map fun w =>
      if w.serial.opener = x ∧ w.tally = .unsent then { w with tally := .pending } else w := by
  rw [retryUnsent_eq hnodup]
  rfl

theorem serial_retallied (w : Window) :
    (if w.serial.opener = x ∧ w.tally = .unsent then { w with tally := .pending } else w).serial = w.serial := by
  split <;> rfl

theorem serialsOf_retryUnsent (hnodup : (s.windows.list.map (·.serial)).Nodup) :
    serialsOf x (retryUnsent x s).windows.list = serialsOf x s.windows.list := by
  rw [serialsOf, serialsOf, retryUnsent_list hnodup, List.filter_map, List.map_map]
  have hfilter : (s.windows.list.filter ((fun w : Window => w.serial.opener == x) ∘ fun w =>
      if w.serial.opener = x ∧ w.tally = .unsent then { w with tally := .pending } else w)) =
      s.windows.list.filter (·.serial.opener == x) :=
    List.filter_congr fun w _ => by rw [Function.comp_apply, serial_retallied]
  rw [hfilter]
  exact List.map_congr_left fun w _ => serial_retallied w

/-- Whether the joiner's UNSENT tallies were requested again makes no difference once its windows are gone. -/
theorem removeJoinerWindows_retryUnsent (hnodup : (s.windows.list.map (·.serial)).Nodup) :
    (removeJoinerWindows x (retryUnsent x s)).windows = (removeJoinerWindows x s).windows := by
  have hretry := congrArg State.windows (retryUnsent_eq (x := x) hnodup)
  have hsers := serialsOf_retryUnsent (x := x) hnodup
  have hothers : ((retryUnsent x s).windows.list.filter fun w => w.serial.opener != x) =
      s.windows.list.filter fun w => w.serial.opener != x := by
    rw [retryUnsent_list hnodup, List.filter_map]
    have hfilter : (s.windows.list.filter ((fun w : Window => w.serial.opener != x) ∘ fun w =>
        if w.serial.opener = x ∧ w.tally = .unsent then { w with tally := .pending } else w)) =
        s.windows.list.filter fun w => w.serial.opener != x :=
      List.filter_congr fun w _ => by rw [Function.comp_apply, serial_retallied]
    rw [hfilter]
    refine (List.map_congr_left fun w hw => ?_).trans (List.map_id _)
    have hne : w.serial.opener ≠ x := by simpa using (List.mem_filter.1 hw).2
    exact if_neg fun h => hne h.1
  have hrequests : ((retryUnsent x s).windows.requests.filter fun q => q.payload.kind == 4 ||
      (serialsOf x s.windows.list).all fun a => q.payload.windowSerial != some a) =
      s.windows.requests.filter fun q => q.payload.kind == 4 ||
        (serialsOf x s.windows.list).all fun a => q.payload.windowSerial != some a := by
    rw [hretry]
    refine filter_foldl_tallyAsked _ (fun w hw q hkind hser => ?_) _
    obtain ⟨hin, hcond⟩ := List.mem_filter.1 hw
    rw [Bool.and_eq_true] at hcond
    have hmem : w.serial ∈ serialsOf x s.windows.list := List.mem_map_of_mem (List.mem_filter.2 ⟨hin, hcond.1⟩)
    rw [hkind, Bool.or_eq_false_iff]
    refine ⟨rfl, ?_⟩
    rw [Bool.eq_false_iff]
    intro hall
    have hne := List.all_eq_true.1 hall _ hmem
    simp [hser] at hne
  have hseq : (retryUnsent x s).windows.seq = s.windows.seq := by rw [hretry]; rfl
  rw [removeJoinerWindows_windows, removeJoinerWindows_windows, hsers, hothers, hrequests]
  exact congrArg (fun n => ({ s.windows with list := _, seq := n, requests := _ } : WindowUnit)) hseq

/-! ### The records and the routine list -/

theorem foldl_cancel_records (sers : List Serial) : ∀ {u v : State}, u.paths = v.paths → u.sched = v.sched →
    (pathOrder v).Nodup →
    (sers.foldl (fun t ser => cancelWindowEntry ser t) u).paths = (sers.foldl (fun t ser => afterCancel ser t) v).paths ∧
    (sers.foldl (fun t ser => cancelWindowEntry ser t) u).sched = (sers.foldl (fun t ser => afterCancel ser t) v).sched ∧
    (pathOrder (sers.foldl (fun t ser => afterCancel ser t) v)).Nodup ∧
    ∃ l, (sers.foldl (fun t ser => afterCancel ser t) v).sched = { v.sched with routine := l } := by
  induction sers with
  | nil => exact fun hpaths hsched hnd => ⟨hpaths, hsched, hnd, _, rfl⟩
  | cons ser sers ih =>
    intro u v hpaths hsched hnd
    have hnd' : (pathOrder u).Nodup := by rwa [pathOrder, hpaths]
    have hstep : (cancelWindowEntry ser u).paths = (afterCancel ser v).paths ∧
        (cancelWindowEntry ser u).sched = (afterCancel ser v).sched := by
      rw [cancelWindowEntry_eq ser u hnd']
      simp [afterCancel, afterRelease, hpaths, hsched, released]
    have horder : pathOrder (afterCancel ser v) = pathOrder v := by
      simp [pathOrder, afterCancel, afterRelease, released]
    obtain ⟨hrecords, hlists, hnodup, routine, hroutine⟩ := ih hstep.1 hstep.2 (horder.symm ▸ hnd)
    exact ⟨hrecords, hlists, hnodup, routine, hroutine⟩

/-! ### The tables (R109, R110) -/

/-- The windows of other openers have no summaries here. -/
theorem summariesLosing_others {own : Nat} {lost : Nat → Bool} (hne : x ≠ own) (l : List Window) :
    summariesLosing own lost (l.filter fun w => w.serial.opener != x) = summariesLosing own lost l := by
  rw [summariesLosing, summariesLosing, List.filter_filter]
  congr 1
  refine List.filter_congr fun w _ => ?_
  cases hlast : w.lostLast own lost with
  | false => rfl
  | true => simp [(lostLast_iff.1 hlast).1, hne.symm]

/-! ### The announcements (R112) -/

/-- The re-announcement of a window. -/
def reannouncement (w : Window) : Request := ⟨.windowOpen w.serial w.scope, .reannounce⟩

/-- A WINDOW OPEN of the serial is among the pending notices. -/
def Window.announcedIn (l : List Request) (w : Window) : Bool :=
  l.any fun q => q.payload.kind == 3 && q.payload.windowSerial == some w.serial

/-- A re-announcement joins the notices when no WINDOW OPEN of the window waits. -/
theorem requestWindow_reannouncement (w : Window) (s : State) : requestWindow (reannouncement w) s =
    s.setWindows { s.windows with
      requests := if w.announcedIn s.windows.requests then s.windows.requests
        else s.windows.requests ++ [reannouncement w] } := by
  have hsame (q : Request) : (reannouncement w).sameNotice q =
      (q.payload.kind == 3 && q.payload.windowSerial == some w.serial) := by
    rw [Request.sameNotice, Bool.beq_comm, Bool.beq_comm (a := (reannouncement w).payload.windowSerial)]
    rfl
  have hpurpose (q : Request) : ({ q with purpose := q.purpose.join (reannouncement w).purpose } : Request) = q := by
    have hjoin : q.purpose.join .reannounce = q.purpose := if_neg (by decide)
    exact congrArg (fun y => ({ q with purpose := y } : Request)) hjoin
  have hmap : (s.windows.requests.map fun q => if (reannouncement w).sameNotice q then
      { q with purpose := q.purpose.join (reannouncement w).purpose } else q) = s.windows.requests := by
    refine (List.map_congr_left fun q _ => ?_).trans (List.map_id _)
    rw [hpurpose, ite_self]
    rfl
  rw [requestWindow, hmap]
  simp only [hsame]
  rfl

theorem announcedIn_append {m : List Window} (hw : ∀ a ∈ m, a.serial ≠ w.serial) (l : List Request) :
    w.announcedIn (l ++ m.map reannouncement) = w.announcedIn l := by
  have hnone : w.announcedIn (m.map reannouncement) = false := by
    rw [Window.announcedIn, List.any_map]
    refine List.any_eq_false.2 fun a ha h => hw a ha ?_
    simpa [reannouncement, Payload.kind, Payload.windowSerial] using h
  rw [Window.announcedIn, List.any_append]
  exact (congrArg _ hnone).trans (Bool.or_false _)

theorem foldl_reannouncement (m : List Window) : ∀ s : State, (m.map (·.serial)).Nodup →
    m.foldl (fun t w => requestWindow (reannouncement w) t) s = s.setWindows { s.windows with
      requests := s.windows.requests ++ (m.filter fun w => !w.announcedIn s.windows.requests).map reannouncement } := by
  induction m with
  | nil =>
    intro s _
    simp only [List.foldl_nil, List.filter_nil, List.map_nil, List.append_nil]
    rfl
  | cons w m ih =>
    intro s hnodup
    obtain ⟨hnew, hrest⟩ := List.nodup_cons.1 (List.map_cons ▸ hnodup)
    have hne : ∀ a ∈ m, w.serial ≠ a.serial := fun a ha h => hnew (h ▸ List.mem_map_of_mem ha)
    rw [List.foldl_cons, ih _ hrest, requestWindow_reannouncement]
    simp only [State.setWindows_fields, List.filter_cons]
    cases hasked : w.announcedIn s.windows.requests with
    | true => rfl
    | false =>
      have hfilter : (m.filter fun a => !a.announcedIn (s.windows.requests ++ [reannouncement w])) =
          m.filter fun a => !a.announcedIn s.windows.requests := by
        refine List.filter_congr fun a ha => ?_
        have hsame := announcedIn_append (w := a) (m := [w]) (by simpa using hne a ha) s.windows.requests
        rw [← hsame]
        rfl
      simp only [Bool.false_eq_true, if_false, Bool.not_false, if_true, hfilter, List.map_cons, List.append_assoc,
        List.singleton_append]
      rfl

theorem reannounce_eq (hnodup : (s.windows.list.map (·.serial)).Nodup) : reannounce s = s.setWindows { s.windows with
    requests := s.windows.requests ++ (s.windows.list.filter fun w => w.serial.opener == s.image.station &&
      (w.state == .opened || w.state == .settling) && !w.announcedIn s.windows.requests).map reannouncement } := by
  have hfold : reannounce s = (s.windows.list.filter fun w => w.serial.opener == s.own && w.inForce).foldl
      (fun t w => requestWindow (reannouncement w) t) s := rfl
  have hsub : (s.windows.list.filter fun w => w.serial.opener == s.own && w.inForce).Sublist s.windows.list :=
    List.filter_sublist
  rw [hfold, foldl_reannouncement _ s (hnodup.sublist (hsub.map _)), List.filter_filter]
  have hfilter : (s.windows.list.filter fun w => !w.announcedIn s.windows.requests &&
      (w.serial.opener == s.own && w.inForce)) = s.windows.list.filter fun w => w.serial.opener == s.image.station &&
      (w.state == .opened || w.state == .settling) && !w.announcedIn s.windows.requests :=
    List.filter_congr fun w _ => Bool.and_comm _ _
  rw [hfilter]

end Sys2Proof.Machine
end

