-- ==== Sys2Proof/Proofs/JoinDispatches.lean ====
section
/-! JOIN_DISPATCH, block by block (R65, R66, R109 to R112, R119, R163, R168). -/

namespace Sys2Proof.Machine

variable {s t u : State} {x c i : Nat} {a : Advertisement} {r : PathRecord} {p : Probe} {w : Window}

/-! ### The Roster Unit (R163) -/

theorem exec_joinDispatch {y : Received} {g : Nat} {b : Bool} {rest : List Received}
    (hs : s.loop.receive = y :: rest) (hy : y.payload = .join g b) :
    exec .joinDispatch s = .next (takeJoin y.originator (recordedAdvert g b) (dispatched s)) := by
  have harm : exec .joinDispatch s = execJoinDispatch s := rfl
  rw [harm, execJoinDispatch,
    dispatchOldest_of_act hs (f := takeJoin y.originator (recordedAdvert g b)) (by simp only [hy])]

theorem answerJoin_roster (s : State) : (answerJoin s).roster = { s.roster with
    presentRequest := s.roster.presentRequest || (s.roster.joined && !presentQueued s) } := by
  have hset {y : Bool} (h : y = s.roster.presentRequest) : s.roster = { s.roster with presentRequest := y } := by rw [h]
  rw [answerJoin, presentWaits]
  split
  · rename_i hanswers
    rw [Bool.and_eq_true, Bool.not_eq_true', Bool.or_eq_false_iff] at hanswers
    obtain ⟨hjoined, hrequest, hqueued⟩ := hanswers
    rw [hjoined, hqueued]
    simp
  · rename_i hsilent
    refine hset ?_
    cases hrequest : s.roster.presentRequest with
    | true => exact Bool.true_or _
    | false =>
      rw [hrequest, Bool.false_or] at hsilent
      rw [Bool.false_or, Bool.eq_false_iff]
      exact hsilent

/-- The joiner's entry with the grade and the batching permission that follow. -/
def joinerRecorded (x : Nat) (a : Advertisement) (s : State) : State :=
  raiseAlert .roster (recompute (recordAdvert x a s))

theorem joinRoster_fields (x : Nat) (a : Advertisement) (s : State) :
    (joinRoster x a s).roster = (answerJoin (joinerRecorded x a s)).roster ∧
    (joinRoster x a s).ctl = (joinerRecorded x a s).ctl ∧
    (joinRoster x a s).probes = (recompute (recordAdvert x a s)).probes := by
  unfold joinRoster
  dsimp only
  split
  · exact ⟨rfl, by simp [joinerRecorded], by simp [raiseAlert]⟩
  · exact ⟨by simp [joinerRecorded], by simp [joinerRecorded], by simp [raiseAlert]⟩

theorem joinRoster_roster (x : Nat) (a : Advertisement) (s : State) : (joinRoster x a s).roster = { s.roster with
    entries := (recordAdvert x a s).roster.entries
    grade := loopGradeOf (recordAdvert x a s).roster.entries
    batching := batchingOf (recordAdvert x a s).roster.entries
    presentRequest := s.roster.presentRequest || (s.roster.joined && !presentQueued s) } := by
  have hqueued : presentQueued (joinerRecorded x a s) = presentQueued s := by
    simp [presentQueued, joinerRecorded, raiseAlert]
  have hrecorded : (joinerRecorded x a s).roster = (recompute (recordAdvert x a s)).roster := rfl
  rw [(joinRoster_fields x a s).1, answerJoin_roster, hqueued, hrecorded, recompute_roster, recordAdvert_roster]

theorem alertSet_joinRoster (k : Alert) : (joinRoster x a s).ctl.alertSet k = (s.ctl.alertSet k ||
    (k == .grade && (joinRoster x a s).roster.grade != s.roster.grade) || k == .roster) := by
  rw [(joinRoster_fields x a s).2.1, joinerRecorded, alertSet_raiseAlert, alertSet_recompute, joinRoster_roster,
    recordAdvert_ctl, recordAdvert_roster]

theorem joinRoster_queue (x : Nat) (a : Advertisement) (s : State) :
    (joinRoster x a s).ctl.queue = s.ctl.queue ∧ (joinRoster x a s).ctl.reportNumber = s.ctl.reportNumber := by
  rw [(joinRoster_fields x a s).2.1, joinerRecorded, raiseAlert]
  simp only [State.setCtl_fields]
  rw [recompute_ctl_alerts, recordAdvert_ctl]
  exact ⟨rfl, rfl⟩

theorem joinRoster_probes (x : Nat) (a : Advertisement) (s : State) : (joinRoster x a s).probes = { s.probes with
    slots := s.probes.slots.map fun o => o.map fun p =>
      if p.phase = .driving ∧ (joinRoster x a s).roster.grade < s.roster.grade then { p with lowGrade := true }
      else p } := by
  rw [(joinRoster_fields x a s).2.2, recompute_probes, joinRoster_roster, recordAdvert_probes, recordAdvert_roster]

/-! ### The Window Unit (R109 to R112) -/

/-- The Window Unit once it has taken a JOIN of another station. -/
def WindowUnit.joinedBy (own x : Nat) (y : WindowUnit) : WindowUnit :=
  { y with
    list := windowsLosing own (· == x) (y.list.filter fun w => w.serial.opener != x)
    requests := (y.requests.filter fun q => q.payload.kind == 4 ||
        (serialsOf x y.list).all fun a => q.payload.windowSerial != some a) ++
      (y.list.filter fun w => w.serial.opener == own && (w.state == .opened || w.state == .settling) &&
        !w.announcedIn y.requests).map reannouncement }

/-- The notices of a window of this station stay when the joiner's go. -/
theorem announcedIn_without {own : Nat} (hne : x ≠ own) (hown : w.serial.opener = own) (y : WindowUnit) :
    w.announcedIn (y.requests.filter fun q => q.payload.kind == 4 ||
      (serialsOf x y.list).all fun a => q.payload.windowSerial != some a) = w.announcedIn y.requests := by
  rw [Window.announcedIn, List.any_filter, Window.announcedIn]
  congr 1
  funext q
  by_cases hq : q.payload.windowSerial = some w.serial
  · have hkept : ((serialsOf x y.list).all fun a => q.payload.windowSerial != some a) = true := by
      refine List.all_eq_true.2 fun b hb => ?_
      obtain ⟨v, hv, rfl⟩ := List.mem_map.1 hb
      have hvx : v.serial.opener = x := by simpa using (List.mem_filter.1 hv).2
      rw [hq, bne_iff_ne]
      intro hsame
      rw [Option.some.inj hsame, hvx] at hown
      exact hne hown
    rw [hkept, Bool.or_true, Bool.true_and]
  · have hother : (q.payload.windowSerial == some w.serial) = false := beq_false_of_ne hq
    rw [hother, Bool.and_false, Bool.and_false]

/-- The windows in force that are announced: the losses and the joiner's windows are none of them. -/
theorem announced_after {own : Nat} (hne : x ≠ own) (y : WindowUnit) :
    ((windowsLosing own (· == x) (y.list.filter fun w => w.serial.opener != x)).filter fun w =>
      w.serial.opener == own && (w.state == .opened || w.state == .settling) && !w.announcedIn (y.requests.filter fun q =>
        q.payload.kind == 4 || (serialsOf x y.list).all fun a => q.payload.windowSerial != some a)).map reannouncement =
    (y.list.filter fun w => w.serial.opener == own && (w.state == .opened || w.state == .settling) &&
      !w.announcedIn y.requests).map reannouncement := by
  have hlosing : reannouncement ∘ Window.losing own (· == x) = reannouncement := rfl
  rw [windowsLosing, List.filter_map, List.map_map, hlosing, List.filter_filter, List.filter_filter]
  congr 1
  refine List.filter_congr fun w _ => ?_
  have hserial : (w.losing own (· == x)).serial = w.serial := rfl
  have hstate : (w.losing own (· == x)).state = w.state := rfl
  have hasked (l : List Request) : (w.losing own (· == x)).announcedIn l = w.announcedIn l := rfl
  rw [Function.comp_apply, hserial, hstate, hasked]
  by_cases hown : w.serial.opener = own
  · rw [announcedIn_without hne hown]
    have hother : (w.serial.opener != x) = true := by rw [hown]; exact bne_iff_ne.2 hne.symm
    rw [hother, Bool.and_true]
    by_cases hforce : w.state = .collecting
    · simp [hforce]
    · have hlast : w.lostLast own (· == x) = false := by
        rw [Bool.eq_false_iff]
        exact fun h => hforce (lostLast_iff.1 h).2.1
      rw [hlast, Bool.not_false, Bool.and_true]
  · have hno : (w.serial.opener == own) = false := beq_false_of_ne hown
    rw [hno]
    simp

theorem nodup_removeJoinerWindows (hnodup : (s.windows.list.map (·.serial)).Nodup) :
    ((removeJoinerWindows x s).windows.list.map (·.serial)).Nodup := by
  rw [removeJoinerWindows_windows]
  exact hnodup.sublist (List.filter_sublist.map _)

/-- The Window Unit at a JOIN, once the joiner's windows are gone. -/
theorem joinWindows_of_removed (hnodup : ((removeJoinerWindows x s).windows.list.map (·.serial)).Nodup) :
    (joinWindows x s).windows = { (removeJoinerWindows x s).windows with
      list := windowsLosing s.image.station (· == x) (removeJoinerWindows x s).windows.list
      requests := (removeJoinerWindows x s).windows.requests ++
        ((windowsLosing s.image.station (· == x) (removeJoinerWindows x s).windows.list).filter fun w =>
          w.serial.opener == s.image.station && (w.state == .opened || w.state == .settling) &&
            !w.announcedIn (removeJoinerWindows x s).windows.requests).map reannouncement } ∧
    (joinWindows x s).ctl = (postEach (summariesLosing s.image.station (· == x) (removeJoinerWindows x s).windows.list)
      (removeJoinerWindows x s)).ctl := by
  have hlost := missingInTables_eq (x := x) hnodup
  have himage : (removeJoinerWindows x s).image = s.image := by simp
  have himage' : (missingInTables x (removeJoinerWindows x s)).image = s.image := by simp
  have hannounce (v : State) : (reannounce v).ctl = v.ctl := by simp
  rw [himage] at hlost
  have hwindows := congrArg State.windows hlost
  simp only [State.setWindows_fields] at hwindows
  have hnodup' : ((missingInTables x (removeJoinerWindows x s)).windows.list.map (·.serial)).Nodup := by
    rw [hwindows]
    exact hnodup.sublist (serials_windowsLosing _)
  refine ⟨?_, ?_⟩
  · rw [joinWindows, reannounce_eq hnodup', himage', hwindows]
    rfl
  · rw [joinWindows, hannounce, hlost]
    rfl

/-- Whether the joiner was PRESENT before makes no difference to the windows. -/
theorem removeJoinerWindows_joinRoster (hnodup : (s.windows.list.map (·.serial)).Nodup) :
    (removeJoinerWindows x (joinRoster x a s)).windows = (removeJoinerWindows x s).windows := by
  have hsame {u : State} (hu : u.windows = s.windows) :
      (removeJoinerWindows x u).windows = (removeJoinerWindows x s).windows := by
    rw [removeJoinerWindows_windows, hu, removeJoinerWindows_windows]
  have hrecorded : (answerJoin (joinerRecorded x a s)).windows = s.windows := by
    simp [joinerRecorded, raiseAlert, recordAdvert]
  rw [joinRoster]
  split
  · exact hsame hrecorded
  · refine (removeJoinerWindows_retryUnsent ?_).trans (hsame hrecorded)
    exact hrecorded.symm ▸ hnodup

theorem serialsOf_joinRoster (hnodup : (s.windows.list.map (·.serial)).Nodup) :
    serialsOf x (joinRoster x a s).windows.list = serialsOf x s.windows.list := by
  have hrecorded : (answerJoin (joinerRecorded x a s)).windows = s.windows := by
    simp [joinerRecorded, raiseAlert, recordAdvert]
  rw [joinRoster]
  split
  · exact congrArg (fun y : WindowUnit => serialsOf x y.list) hrecorded
  · refine (serialsOf_retryUnsent ?_).trans (congrArg (fun y : WindowUnit => serialsOf x y.list) hrecorded)
    exact hrecorded.symm ▸ hnodup

theorem takeJoin_windows (hne : x ≠ s.image.station) (hnodup : (s.windows.list.map (·.serial)).Nodup) :
    (takeJoin x a s).windows = s.windows.joinedBy s.image.station x ∧
    (takeJoin x a s).ctl.queue =
      (postEach (summariesLosing s.image.station (· == x) s.windows.list) s).ctl.queue ∧
    (joinRoster x a s).ctl.Flagged (takeJoin x a s).ctl := by
  have hremoved := removeJoinerWindows_joinRoster (x := x) (a := a) hnodup
  have hlist : (removeJoinerWindows x s).windows.list = s.windows.list.filter fun w => w.serial.opener != x := by
    rw [removeJoinerWindows_windows]
  have hnodup' : ((removeJoinerWindows x (joinRoster x a s)).windows.list.map (·.serial)).Nodup := by
    rw [hremoved, hlist]
    exact hnodup.sublist (List.filter_sublist.map _)
  obtain ⟨hwindows, hctl⟩ := joinWindows_of_removed hnodup'
  have himage : (joinRoster x a s).image = s.image := by simp
  have htaken : (takeJoin x a s).windows = (joinWindows x (joinRoster x a s)).windows ∧
      (takeJoin x a s).ctl = (joinWindows x (joinRoster x a s)).ctl := by simp [takeJoin]
  have hbefore : (removeJoinerWindows x (joinRoster x a s)).ctl = (joinRoster x a s).ctl := by simp
  rw [himage, hremoved] at hwindows hctl
  rw [hlist, summariesLosing_others hne] at hctl
  refine ⟨?_, ?_, ?_⟩
  · rw [htaken.1, hwindows, removeJoinerWindows_windows]
    dsimp only
    rw [announced_after hne]
    rfl
  · obtain ⟨hqueue, hnumber⟩ := joinRoster_queue x a s
    rw [htaken.2, hctl]
    exact postEach_queue_congr _ (by rw [hbefore, hqueue]) (by rw [hbefore, hnumber])
  · rw [htaken.2, hctl, ← hbefore]
    exact flagged_postEach _ _

/-! ### The Probe Unit (R65, R66) -/

theorem probeAt_joinProbes (x i : Nat) (s : State) : probeAt (joinProbes x s) i = (probeAt s i).map (joinSlot s x) := by
  simp only [probeAt, joinProbes, setSlots, State.setProbes_fields, List.getD_eq_getElem?_getD, List.getElem?_map]
  cases s.probes.slots[i]? <;> rfl

/-- A slot once the grade is applied. -/
def Probe.graded (fell : Bool) (p : Probe) : Probe :=
  if p.phase = .driving then { p with lowGrade := p.lowGrade || fell } else p

theorem probeAt_joinRoster (x : Nat) (a : Advertisement) (s : State) (i : Nat) : probeAt (joinRoster x a s) i =
    (probeAt s i).map (·.graded (decide ((joinRoster x a s).roster.grade < s.roster.grade))) := by
  have hslots := joinRoster_probes x a s
  have hgraded (p : Probe) : (if p.phase = .driving ∧ (joinRoster x a s).roster.grade < s.roster.grade then
      { p with lowGrade := true } else p) =
      p.graded (decide ((joinRoster x a s).roster.grade < s.roster.grade)) := by
    unfold Probe.graded
    by_cases hphase : p.phase = .driving
    · by_cases hfall : (joinRoster x a s).roster.grade < s.roster.grade
      · simp [hphase, hfall]
      · simp [hfall]
    · simp [hphase]
  simp only [hgraded] at hslots
  rw [probeAt, hslots, probeAt]
  simp only [List.getD_eq_getElem?_getD, List.getElem?_map]
  cases s.probes.slots[i]? <;> rfl

theorem probeAt_takeJoin (x : Nat) (a : Advertisement) (s : State) (i : Nat) : probeAt (takeJoin x a s) i =
    (probeAt s i).map fun p => joinSlot (joinWindows x (joinRoster x a s)) x
      (p.graded (decide ((joinRoster x a s).roster.grade < s.roster.grade))) := by
  have haudits (v : State) : probeAt (rejoinAudits x v) i = probeAt v i := by simp [probeAt]
  have hwindows : probeAt (joinWindows x (joinRoster x a s)) i = probeAt (joinRoster x a s) i := by simp [probeAt]
  rw [takeJoin, haudits, probeAt_joinProbes, hwindows, probeAt_joinRoster, Option.map_map]
  rfl

/-- Whether a PROBE START waits is read of requests that a JOIN leaves alone. -/
theorem startWaits_joinWindows (x : Nat) (a : Advertisement) (s : State) (c e : Nat) :
    startWaits (joinWindows x (joinRoster x a s)) c e =
      (s.probes.requests ++ s.loop.newNotices).any fun q => q.isStartOf c e := by
  have hprobes : (joinWindows x (joinRoster x a s)).probes = (joinRoster x a s).probes := by simp
  have hrequests : (joinRoster x a s).probes.requests = s.probes.requests := by rw [joinRoster_probes]
  have hloop : (joinWindows x (joinRoster x a s)).loop = s.loop := by simp
  rw [startWaits, hprobes, hrequests, hloop, List.any_append]

/-! ### The Path Store (R119) -/

/-- A record whose state and baseline stand. -/
def Idles (c : Nat) (base : Option (List Hop)) (s : State) : Prop :=
  ∃ r, findPath s c = some r ∧ r.state = .idle ∧ r.baseline = base

/-- A record that a REJOIN audit queued. -/
def Rejoins (c : Nat) (s : State) : Prop :=
  ∃ r, findPath s c = some r ∧ r.state = .queued .routine ∧ r.origin = some .rejoin

theorem idles_removeHold {ser : Serial} {d : Nat} {base : Option (List Hop)} (h : Idles c base s) :
    Idles c base (removeHold ser d s) := by
  obtain ⟨r, hr, hidle, hbase⟩ := h
  unfold removeHold
  cases hd : findPath s d with
  | none => exact ⟨r, hr, hidle, hbase⟩
  | some y =>
    dsimp only
    have hmodified : Idles c base (modifyPath d (fun r => { r with hold := r.hold.erase ser }) s) := by
      refine ⟨_, (findPath_modifyPath d c (fun r => { r with hold := r.hold.erase ser }) (fun _ => rfl) s).trans
        (by rw [hr, Option.map_some]), ?_⟩
      split
      · exact ⟨hidle, hbase⟩
      · exact ⟨hidle, hbase⟩
    split
    · exact ⟨r, hr, hidle, hbase⟩
    · split
      · rename_i hheld
        have hne : c ≠ d := by
          rintro rfl
          obtain rfl := Option.some.inj (hr.symm.trans hd)
          rw [hidle] at hheld
          cases hheld.1
        obtain ⟨z, hz, hzidle, hzbase⟩ := hmodified
        have hlist (m : Mode) (v : State) : (joinList m d v).paths = v.paths := by simp
        refine ⟨z, ?_, hzidle, hzbase⟩
        rw [enqueue, findPath_of_paths (hlist _ _), findPath_modifyPath _ _ _ (fun _ => by rfl), hz, Option.map_some,
          if_neg hne]
      · exact hmodified

theorem idles_cancelWindowEntry {ser : Serial} {base : Option (List Hop)} (h : Idles c base s) :
    Idles c base (cancelWindowEntry ser s) := by
  have hreleased : Idles c base (releaseHolds ser s) := by
    refine List.foldlRecOn (pathOrder s) (fun t c => removeHold ser c t) h fun v hv d _ => idles_removeHold hv
  obtain ⟨r, hr, hidle, hbase⟩ := hreleased
  refine ⟨{ r with owed := r.owed.erase ser }, ?_, hidle, hbase⟩
  have hpaths : (cancelWindowEntry ser s).paths = (dropOwed ser (releaseHolds ser s)).paths := by
    simp [cancelWindowEntry, dropWindow, dropWindowRequests]
  rw [findPath, hpaths, dropOwed]
  simp only [State.setPaths_fields, List.find?_map]
  have hkey : ((fun y : PathRecord => y.circuit == c) ∘ fun r : PathRecord => { r with owed := r.owed.erase ser }) =
      fun y => y.circuit == c := rfl
  have hr' : ((releaseHolds ser s).paths.find? fun y => y.circuit == c) = some r := hr
  rw [hkey, hr', Option.map_some]

theorem rejoins_requestAudit {d : Nat} (h : Rejoins c s) : Rejoins c (requestAudit d .routine .rejoin s) := by
  obtain ⟨r, hr, hqueued, horigin⟩ := h
  unfold requestAudit
  cases hd : findPath s d with
  | none => exact ⟨r, hr, hqueued, horigin⟩
  | some y =>
    dsimp only
    split
    · rename_i hidle
      have hne : c ≠ d := by
        rintro rfl
        obtain rfl := Option.some.inj (hr.symm.trans hd)
        rw [hqueued] at hidle
        cases hidle
      have hlist (m : Mode) (v : State) : (joinList m d v).paths = v.paths := by simp
      refine ⟨r, ?_, hqueued, horigin⟩
      rw [enqueue, findPath_of_paths (hlist _ _), findPath_modifyPath _ _ _ (fun _ => by rfl), hr, Option.map_some,
        if_neg hne]
    · exact ⟨r, hr, hqueued, horigin⟩

theorem idles_requestAudit_other {d : Nat} {base : Option (List Hop)} (hne : c ≠ d) (h : Idles c base s) :
    Idles c base (requestAudit d .routine .rejoin s) := by
  obtain ⟨r, hr, hidle, hbase⟩ := h
  unfold requestAudit
  cases hd : findPath s d with
  | none => exact ⟨r, hr, hidle, hbase⟩
  | some y =>
    dsimp only
    split
    · have hlist (m : Mode) (v : State) : (joinList m d v).paths = v.paths := by simp
      refine ⟨r, ?_, hidle, hbase⟩
      rw [enqueue, findPath_of_paths (hlist _ _), findPath_modifyPath _ _ _ (fun _ => by rfl), hr, Option.map_some,
        if_neg hne]
    · exact ⟨r, hr, hidle, hbase⟩

theorem rejoins_of_idles {base : List Hop} (h : Idles c (some base) s) :
    Rejoins c (requestAudit c .routine .rejoin s) := by
  obtain ⟨r, hr, hidle, hbase⟩ := h
  refine ⟨_, findPath_requestAudit c .routine .rejoin s r hr hidle, ?_, rfl⟩
  simp [requestMode, hbase]

/-- A record among those asked for is queued. -/
theorem rejoins_requestAudits {base : List Hop} {cs : List Nat} : ∀ {s : State}, c ∈ cs → Idles c (some base) s →
    Rejoins c (requestAudits cs .routine .rejoin s) := by
  induction cs with
  | nil => exact fun h _ => absurd h List.not_mem_nil
  | cons d cs ih =>
    intro s hc h
    by_cases hd : c = d
    · subst hd
      exact List.foldlRecOn cs (fun t c => requestAudit c .routine .rejoin t) (rejoins_of_idles h)
        fun v hv d _ => rejoins_requestAudit hv
    · exact ih ((List.mem_cons.1 hc).resolve_left hd) (idles_requestAudit_other hd h)

/-- The state that the REJOIN audits are requested in. -/
theorem takeJoin_before (x : Nat) (a : Advertisement) (s : State) : takeJoin x a s =
    rejoinAudits x (joinProbes x (joinWindows x (joinRoster x a s))) := rfl

theorem joinWindows_paths (x : Nat) (s : State) : (joinWindows x s).paths = (removeJoinerWindows x s).paths ∧
    (joinWindows x s).sched = (removeJoinerWindows x s).sched := by
  simp [joinWindows]

theorem removeJoinerWindows_joinRoster_eq (hnodup : (s.windows.list.map (·.serial)).Nodup) :
    removeJoinerWindows x (joinRoster x a s) =
      (serialsOf x s.windows.list).foldl (fun t ser => cancelWindowEntry ser t) (joinRoster x a s) := by
  rw [← serialsOf_joinRoster (x := x) (a := a) hnodup]
  rfl

theorem isSome_of_crosses (h : r.crosses x = true) : r.baseline.isSome = true := by
  unfold PathRecord.crosses at h
  cases hb : r.baseline with
  | none => rw [hb] at h; cases h
  | some b => rfl

/-- The records that cross the joiner, requested again (R119). -/
theorem rejoinAudits_records (hnd : (pathOrder s).Nodup) :
    (rejoinAudits x s).paths = (s.paths.map fun r => if r.state = .idle ∧ r.crosses x = true then
        { r with state := .queued .routine, origin := some .rejoin } else r) ∧
    (rejoinAudits x s).sched = { s.sched with
      routine := s.sched.routine ++ (s.paths.filter fun r => r.state == .idle && r.crosses x).map (·.circuit) } := by
  have hmode {r : PathRecord} (h : r.crosses x = true) : ¬ (True ∧ r.baseline = none) := by
    rintro ⟨-, hnone⟩
    have hsome := isSome_of_crosses h
    rw [hnone] at hsome
    cases hsome
  have hcensus : (s.paths.filter fun r => r.crosses x && r.state == .idle &&
      (Mode.routine == .census || Mode.routine == .routine && r.baseline.isNone)) = [] := by
    refine List.filter_eq_nil_iff.2 fun r _ hr => ?_
    simp only [Bool.and_eq_true, Bool.or_eq_true] at hr
    obtain ⟨⟨hcross, -⟩, hcase⟩ := hr
    rcases hcase with h | ⟨-, hnone⟩
    · cases h
    · have hsome := isSome_of_crosses hcross
      rw [Option.isNone_iff_eq_none.1 hnone] at hsome
      cases hsome
  have hroutine : (s.paths.filter fun r => r.crosses x && r.state == .idle &&
      (Mode.routine == .routine && r.baseline.isSome)) = s.paths.filter fun r => r.state == .idle && r.crosses x := by
    refine List.filter_congr fun r _ => ?_
    cases hcross : r.crosses x with
    | false => simp
    | true => simp [isSome_of_crosses hcross]
  rw [rejoinAudits, requestAudits_eq_afterRequests _ _ _ s hnd, afterRequests]
  simp only [State.setSched_fields, State.setPaths_fields]
  refine ⟨List.map_congr_left fun r _ => ?_, ?_⟩
  · by_cases hr : r.state = .idle ∧ r.crosses x = true
    · rw [if_pos hr, if_pos (by simp [hr.1, hr.2]), if_neg (hmode hr.2)]
    · rw [if_neg hr, if_neg (by simpa [and_comm] using hr)]
  · rw [hcensus, hroutine, List.map_nil, List.append_nil]

theorem takeJoin_records (hnodup : (s.windows.list.map (·.serial)).Nodup) (hpaths : s.paths = t.paths)
    (hsched : s.sched = t.sched) (hnd : (pathOrder t).Nodup)
    (hu : u = (serialsOf x s.windows.list).foldl (fun v ser => afterCancel ser v) t) :
    (takeJoin x a s).paths = (u.paths.map fun r => if r.state = .idle ∧ r.crosses x = true then
        { r with state := .queued .routine, origin := some .rejoin } else r) ∧
    (takeJoin x a s).sched = { t.sched with
      routine := u.sched.routine ++ (u.paths.filter fun r => r.state == .idle && r.crosses x).map (·.circuit) } := by
  have hrpaths : (joinRoster x a s).paths = t.paths := by rw [← hpaths]; simp
  have hrsched : (joinRoster x a s).sched = t.sched := by rw [← hsched]; simp
  obtain ⟨hrecords, hlists, hnd', l, hl⟩ := foldl_cancel_records (serialsOf x s.windows.list) hrpaths hrsched hnd
  have hbefore : (joinProbes x (joinWindows x (joinRoster x a s))).paths = u.paths ∧
      (joinProbes x (joinWindows x (joinRoster x a s))).sched = u.sched := by
    obtain ⟨hwpaths, hwsched⟩ := joinWindows_paths x (joinRoster x a s)
    have hprobes (v : State) : (joinProbes x v).paths = v.paths ∧ (joinProbes x v).sched = v.sched := by simp
    rw [(hprobes _).1, (hprobes _).2, hwpaths, hwsched, removeJoinerWindows_joinRoster_eq hnodup, hrecords, hlists, hu]
    exact ⟨rfl, rfl⟩
  obtain ⟨hpaths', hsched'⟩ := rejoinAudits_records (x := x)
    (s := joinProbes x (joinWindows x (joinRoster x a s))) (by rw [pathOrder, hbefore.1, hu]; exact hnd')
  rw [takeJoin_before, hpaths', hsched', hbefore.1, hbefore.2]
  refine ⟨rfl, ?_⟩
  rw [hu, hl]

theorem takeJoin_rejoins (hnodup : (s.windows.list.map (·.serial)).Nodup) (hr : findPath s c = some r)
    (hidle : r.state = .idle) (hcross : r.crosses x = true) : Rejoins c (takeJoin x a s) := by
  obtain ⟨base, hbase⟩ := Option.isSome_iff_exists.1 (isSome_of_crosses hcross)
  have hpaths : (joinRoster x a s).paths = s.paths := by simp
  have hstart : Idles c (some base) (joinRoster x a s) := ⟨r, (findPath_of_paths hpaths c).trans hr, hidle, hbase⟩
  have hremoved : Idles c (some base) (removeJoinerWindows x (joinRoster x a s)) := by
    rw [removeJoinerWindows_joinRoster_eq hnodup]
    exact List.foldlRecOn _ (fun t ser => cancelWindowEntry ser t) hstart fun v hv d _ => idles_cancelWindowEntry hv
  have hsame : (joinProbes x (joinWindows x (joinRoster x a s))).paths =
      (removeJoinerWindows x (joinRoster x a s)).paths := by
    rw [← (joinWindows_paths x (joinRoster x a s)).1]
    simp
  obtain ⟨y, hy, hyidle, hybase⟩ := hremoved
  have hy' : findPath (joinProbes x (joinWindows x (joinRoster x a s))) c = some y :=
    (findPath_of_paths hsame c).trans hy
  have hycross : y.crosses x = true := by
    rw [PathRecord.crosses, hybase, ← hbase]
    exact hcross
  have hcircuit : y.circuit = c := by simpa using List.find?_some hy'
  refine rejoins_requestAudits ?_ ⟨y, hy', hyidle, hybase⟩
  exact List.mem_map.2 ⟨y, List.mem_filter.2 ⟨List.mem_of_find?_eq_some hy', hycross⟩, hcircuit⟩

/-! ### The slots and the windows as the statement reads them -/

theorem graded_of_driving {fell : Bool} (h : p.phase = .driving) :
    p.graded fell = { p with lowGrade := p.lowGrade || fell } := if_pos h

theorem graded_of_not_driving {fell : Bool} (h : p.phase ≠ .driving) : p.graded fell = p := if_neg h

theorem joinSlot_of_driving (h : p.phase = .driving) : joinSlot s x p = { p with blind := addStation p.blind x } := by
  rw [joinSlot, h]

theorem joinSlot_of_out (h : p.phase = .claiming) (hout : startWaits s p.circuit p.epoch = false) :
    joinSlot s x p = { p with joiners := addStation p.joiners x } := by
  rw [joinSlot, h]
  exact if_neg (by simp [hout])

theorem joinSlot_of_waiting (h : p.phase = .closing ∨ (p.phase = .claiming ∧ startWaits s p.circuit p.epoch = true)) :
    joinSlot s x p = p := by
  rw [joinSlot]
  rcases h with hclosing | ⟨hclaiming, hwaits⟩
  · rw [hclosing]
  · rw [hclaiming]
    exact if_pos hwaits

theorem not_announcedIn (l : List Request) (w : Window) : (!w.announcedIn l) =
    l.all fun q => q.payload.kind != 3 || q.payload.windowSerial != some w.serial := by
  rw [Window.announcedIn, List.not_any_eq_all_not]
  simp only [Bool.not_and, bne]

theorem joinedBy_eq (own x : Nat) (y : WindowUnit) : y.joinedBy own x = { y with
    list := windowsLosing own (· == x) (y.list.filter fun w => w.serial.opener != x)
    requests := (y.requests.filter fun q => q.payload.kind == 4 ||
        (serialsOf x y.list).all fun a => q.payload.windowSerial != some a) ++
      (y.list.filter fun w => w.serial.opener == own && (w.state == .opened || w.state == .settling) &&
        y.requests.all fun q => q.payload.kind != 3 || q.payload.windowSerial != some w.serial).map
          fun w => ⟨.windowOpen w.serial w.scope, .reannounce⟩ } := by
  simp only [← not_announcedIn]
  rfl

/-- A window of this station in force has its WINDOW OPEN among the notices. -/
theorem announced_joinedBy {own : Nat} (hne : x ≠ own) (y : WindowUnit) (hw : w ∈ y.list)
    (hown : w.serial.opener = own) (hstate : w.state = .opened ∨ w.state = .settling) :
    w.announcedIn (y.joinedBy own x).requests = true := by
  have hsplit (l m : List Request) : w.announcedIn (l ++ m) = (w.announcedIn l || w.announcedIn m) := List.any_append
  rw [WindowUnit.joinedBy]
  dsimp only
  rw [hsplit, announcedIn_without hne hown]
  cases hasked : w.announcedIn y.requests with
  | true => rfl
  | false =>
    rw [Bool.false_or]
    refine List.any_eq_true.2 ⟨reannouncement w, List.mem_map_of_mem (List.mem_filter.2 ⟨hw, ?_⟩), ?_⟩
    · rcases hstate with h | h
      · simp [hown, hasked, h]
      · simp [hown, hasked, h]
    · simp [reannouncement, Payload.kind, Payload.windowSerial]

/-! ### JOIN_DISPATCH -/

/-- Settles O50: the roster; the windows; the records; the slots. -/
theorem joinDispatchTakesTheJoiner : Obligations.JoinDispatchTakesTheJoiner := by
  intro y g b rest s hs hy hok hne hlen hwin
  refine ⟨_, exec_joinDispatch hs hy, ?_⟩
  have hloop : (dispatched s).loop = { s.loop with receive := rest } := by
    rw [dispatched, hs]
    rfl
  have hlen' : (dispatched s).roster.entries.length = 24 := hlen
  have hnodup : ((dispatched s).windows.list.map (·.serial)).Nodup := hwin.1
  have hroster : (takeJoin y.originator (recordedAdvert g b) (dispatched s)).roster =
      (joinRoster y.originator (recordedAdvert g b) (dispatched s)).roster := by simp [takeJoin]
  have hfields := hroster.trans (joinRoster_roster y.originator (recordedAdvert g b) (dispatched s))
  have hentries : (takeJoin y.originator (recordedAdvert g b) (dispatched s)).roster.entries =
      (recordAdvert y.originator (recordedAdvert g b) (dispatched s)).roster.entries := by rw [hfields]
  obtain ⟨hwindows, hqueue, hflags⟩ := takeJoin_windows (x := y.originator) (a := recordedAdvert g b) (s := dispatched s)
    hne hnodup
  have halerts := fun k => alertSet_joinRoster (s := dispatched s) (x := y.originator) (a := recordedAdvert g b) k
  have hslots := probeAt_takeJoin y.originator (recordedAdvert g b) (dispatched s)
  have hwaits := startWaits_joinWindows y.originator (recordedAdvert g b) (dispatched s)
  have hrecords {u : State} := takeJoin_records (u := u) (t := s) (x := y.originator) (a := recordedAdvert g b) hnodup rfl rfl
  have hrejoins {c : Nat} {r : PathRecord} := takeJoin_rejoins (c := c) (r := r) (x := y.originator)
    (a := recordedAdvert g b) (s := dispatched s) hnodup
  have hframe : (takeJoin y.originator (recordedAdvert g b) (dispatched s)).loop = (dispatched s).loop ∧
      (takeJoin y.originator (recordedAdvert g b) (dispatched s)).hops = s.hops ∧
      (takeJoin y.originator (recordedAdvert g b) (dispatched s)).lines = s.lines ∧
      (takeJoin y.originator (recordedAdvert g b) (dispatched s)).scanner = s.scanner := by simp [dispatched]
  rw [← hroster] at halerts
  generalize joinWindows y.originator (joinRoster y.originator (recordedAdvert g b) (dispatched s)) = z at hslots hwaits
  rw [← hroster] at hslots
  have hrecorded := fun n => rosterAt_recordAdvert (x := y.originator) (a := recordedAdvert g b) (n := n) hlen'
  have hrosterAt := fun n => rosterAt_of_entries hentries n
  generalize takeJoin y.originator (recordedAdvert g b) (dispatched s) = t at *
  obtain ⟨hkept, hhops, hlines, hscanner⟩ := hframe
  have hlist : t.windows.list = windowsLosing s.image.station (· == y.originator)
      (s.windows.list.filter fun w => w.serial.opener != y.originator) := by rw [hwindows]; rfl
  have hgrade : t.roster.grade = loopGradeOf t.roster.entries := by rw [hfields]
  refine ⟨hkept.trans hloop, ?_, fun n hn hnn => ?_, hgrade, by rw [hfields], fun hgr => ?_, ?_, ?_,
    fun w hw => ?_, fun w hw hown _ hstate => ?_, fun gone hgone u hu hnd => ⟨?_, ?_, ?_, ?_⟩, fun w hw hown hstate => ?_,
    fun i _ p hp => ⟨fun hphase => ?_, fun hphase hout => ?_, fun hstays => ?_⟩, fun r _ hr hidle hcross =>
      hrejoins hr hidle hcross, hhops, hlines, hscanner⟩
  · rw [hrosterAt, hrecorded _ hok, if_pos rfl]
    rfl
  · rw [hrosterAt, hrecorded n ((mem_stationNumbers n).1 hn), if_neg hnn]
    rfl
  · refine hflags.alerts .grade ?_
    rw [halerts, bne_iff_ne.2 (show t.roster.grade ≠ (dispatched s).roster.grade from hgr)]
    simp
  · refine hflags.alerts .roster ?_
    rw [halerts]
    simp
  · have hrequest := congrArg (·.presentRequest) hfields
    dsimp only at hrequest
    rw [presentQueued, Bool.not_or, ← Bool.and_assoc] at hrequest
    exact hrequest
  · rw [hlist, windowsLosing] at hw
    obtain ⟨v, hv, rfl⟩ := List.mem_map.1 hw
    have hother : v.serial.opener ≠ y.originator := by simpa using (List.mem_filter.1 (List.mem_filter.1 hv).1).2
    exact hother
  · rw [hlist] at hw
    exact tableAt_of_mem_windowsLosing hw ⟨hown, hstate⟩ ((stationOk_iff _).1 hok).1 (beq_self_eq_true _)
  · exact (hrecords hnd (by rw [hu, hgone]; rfl)).1
  · exact (hrecords hnd (by rw [hu, hgone]; rfl)).2
  · rw [hwindows, joinedBy_eq, hgone]
    rfl
  · exact hqueue.trans (postEach_queue_congr (s := dispatched s) (t := s) _ rfl rfl)
  · rw [hwindows]
    exact announced_joinedBy hne s.windows hw hown hstate
  · have hdriving : (p.graded (decide (t.roster.grade < (dispatched s).roster.grade))).phase = .driving := by
      rw [graded_of_driving hphase]
      exact hphase
    rw [hslots, show probeAt (dispatched s) i = some p from hp, Option.map_some, joinSlot_of_driving hdriving,
      graded_of_driving hphase]
    exact ⟨_, rfl, rfl, fun n hn => stationIn_addStation _ _ n ((mem_stationNumbers n).1 hn)⟩
  · rw [hslots, show probeAt (dispatched s) i = some p from hp, Option.map_some,
      graded_of_not_driving (by rw [hphase]; decide), joinSlot_of_out hphase ((hwaits _ _).trans hout)]
    exact ⟨_, rfl, rfl, fun n hn => stationIn_addStation _ _ n ((mem_stationNumbers n).1 hn)⟩
  · have hnot : p.phase ≠ .driving := by
      rcases hstays with h | ⟨h, -⟩
      · rw [h]
        decide
      · rw [h]
        decide
    rw [hslots, show probeAt (dispatched s) i = some p from hp, Option.map_some, graded_of_not_driving hnot,
      joinSlot_of_waiting (hstays.imp id fun ⟨hclaiming, hwait⟩ => ⟨hclaiming, (hwaits _ _).trans hwait⟩)]

end Sys2Proof.Machine
end

