-- ==== Sys2Proof/Proofs/Overtakings.lean ====
section
/-! Circuits that a newer alarm takes, one by one: the older runs hand them on, the current run opens their entries,
the routine list, the records and the slots follow (R18, R61, R124, R125, R130). -/

namespace Sys2Proof.Machine

variable {s t u : State} {c : Nat} {taken done : List Nat} {r first : Run} {x y : RunStanding}

/-! ### A run's entries -/

/-- A circuit's entry is found by its circuit, whatever its standing becomes. -/
theorem find_entry_map (f : RunEntry → RunEntry) (hkey : ∀ e, (f e).circuit = e.circuit)
    (hsame : ∀ e, e.circuit = c → (f e).standing = e.standing) (l : List RunEntry) :
    (((l.map f).find? (·.circuit == c)).map (·.standing)) = (l.find? (·.circuit == c)).map (·.standing) := by
  have hcomp : ((fun e : RunEntry => e.circuit == c) ∘ f) = (·.circuit == c) := funext fun e => by simp [hkey]
  rw [List.find?_map, hcomp, Option.map_map]
  cases hfound : l.find? (·.circuit == c) with
  | none => rfl
  | some e =>
    have he : e.circuit = c := beq_iff_eq.1 (List.find?_some (p := fun e : RunEntry => e.circuit == c) hfound)
    exact congrArg some (hsame e he)

theorem standingOf_eq_none_iff : r.standingOf c = none ↔ ∀ e ∈ r.entries, e.circuit ≠ c := by
  simp [Run.standingOf]

theorem setStanding_of_no_entry (h : r.standingOf c = none) : r.setStanding c x = r := by
  have hentries : (r.entries.map fun e => if e.circuit = c then { e with standing := x } else e) = r.entries :=
    (List.map_congr_left fun e he => if_neg (standingOf_eq_none_iff.1 h e he)).trans (List.map_id _)
  rw [Run.setStanding, hentries]

theorem standingOf_setStanding_eq_none_iff : (r.setStanding c x).standingOf c = none ↔ r.standingOf c = none := by
  rw [standingOf_eq_none_iff, standingOf_eq_none_iff, Run.setStanding, List.forall_mem_map]
  refine forall₂_congr fun e _ => ?_
  split <;> rfl

theorem setStanding_setStanding : (r.setStanding c x).setStanding c y = r.setStanding c y := by
  simp only [Run.setStanding, List.map_map]
  congr 1
  refine List.map_congr_left fun e _ => ?_
  by_cases he : e.circuit = c <;> simp [he]

theorem openEntry_of_none (h : r.standingOf c = none) :
    r.openEntry c x = { r with entries := r.entries ++ [⟨c, x⟩] } := by
  rw [Run.openEntry, h]

theorem openEntry_of_entry (h : r.standingOf c ≠ none) : r.openEntry c x = r.setStanding c x := by
  obtain ⟨z, hz⟩ := Option.ne_none_iff_exists'.1 h
  rw [Run.openEntry, hz]

/-- What the entry was set to before it is opened does not matter. -/
theorem openEntry_setStanding : (r.setStanding c x).openEntry c y = r.openEntry c y := by
  by_cases h : r.standingOf c = none
  · rw [setStanding_of_no_entry h]
  · rw [openEntry_of_entry (standingOf_setStanding_eq_none_iff.not.2 h), setStanding_setStanding, openEntry_of_entry h]

/-! ### The current run (R125) -/

/-- The current run after it took circuits: their entries reopened in their places, or appended. -/
def reopened (s : State) (taken : List Nat) (r : Run) : Run :=
  { r with
    entries := (r.entries.map fun e =>
        if taken.contains e.circuit then { e with standing := takenStanding s e.circuit } else e) ++
      (taken.filter fun d => !(r.entries.any (·.circuit == d))).map fun d => ⟨d, takenStanding s d⟩ }

theorem reopened_nil (s : State) (r : Run) : reopened s [] r = r := by simp [reopened]

theorem reopened_of_empty (h : r.entries = []) :
    reopened s taken r = { r with entries := taken.map fun d => ⟨d, takenStanding s d⟩ } := by
  have hall : taken.filter (fun _ => true) = taken := List.filter_eq_self.2 fun _ _ => rfl
  simp [reopened, h, hall]

/-- A circuit that was not taken stands as before. -/
theorem standingOf_reopened (hc : c ∉ taken) : (reopened s taken r).standingOf c = r.standingOf c := by
  have hadded : ((taken.filter fun d => !(r.entries.any (·.circuit == d))).map fun d =>
      (⟨d, takenStanding s d⟩ : RunEntry)).find? (·.circuit == c) = none := by
    rw [List.find?_eq_none, List.forall_mem_map]
    intro d hd
    have hne : d ≠ c := fun he => hc (he ▸ (List.mem_filter.1 hd).1)
    simpa using hne
  rw [Run.standingOf, reopened, List.find?_append, hadded, Option.or_none]
  refine find_entry_map _ (fun e => by split <;> rfl) (fun e he => ?_) _
  rw [he, if_neg (by simpa using hc)]

theorem openEntry_reopened (hc : c ∉ taken) :
    (reopened s taken r).openEntry c (takenStanding s c) = reopened s (taken ++ [c]) r := by
  by_cases hnone : r.standingOf c = none
  · have hno : ∀ e ∈ r.entries, e.circuit ≠ c := standingOf_eq_none_iff.1 hnone
    have hany : (r.entries.any (·.circuit == c)) = false := by simpa using hno
    rw [openEntry_of_none ((standingOf_reopened hc).trans hnone)]
    simp only [reopened, List.filter_append, List.map_append, List.append_assoc]
    congr 2
    · refine List.map_congr_left fun e he => ?_
      simp [hno e he]
    · simp [hany]
  · have hany : (r.entries.any (·.circuit == c)) = true := by
      rw [standingOf_eq_none_iff] at hnone
      simpa using hnone
    rw [openEntry_of_entry ((standingOf_reopened hc).trans_ne hnone)]
    simp only [reopened, Run.setStanding, List.filter_append, List.map_append, List.map_map]
    congr 2
    · refine List.map_congr_left fun e _ => ?_
      rw [Function.comp_apply]
      by_cases he : e.circuit = c
      · simp [he, hc]
      · by_cases hin : e.circuit ∈ taken <;> simp [he, hin]
    · have hlast : [c].filter (fun d => !(r.entries.any (·.circuit == d))) = [] := by simp [hany]
      rw [hlast, List.map_nil, List.append_nil]
      refine List.map_congr_left fun d hd => ?_
      have hne : d ≠ c := fun he => hc (he ▸ (List.mem_filter.1 hd).1)
      simp [hne]

/-! ### The older runs (R130) -/

theorem overtaken_id (s : State) (taken : List Nat) (r : Run) : (overtaken s taken r).id = r.id := rfl

theorem overtaken_nil (s : State) (r : Run) : overtaken s [] r = r := by simp [overtaken]

theorem standingOf_overtaken (hc : c ∉ taken) : (overtaken s taken r).standingOf c = r.standingOf c := by
  refine find_entry_map _ (fun e => by split <;> rfl) (fun e he => ?_) _
  rw [he, if_neg (by simp [hc])]

theorem overtaken_concat_of_holder (h : holderOf s c = some r.id) :
    overtaken s (taken ++ [c]) r = (overtaken s taken r).setStanding c .handedOn := by
  simp only [overtaken, Run.setStanding, List.map_map]
  congr 1
  refine List.map_congr_left fun e _ => ?_
  rw [Function.comp_apply]
  by_cases he : e.circuit = c
  · by_cases hin : c ∈ taken <;> simp [he, h, hin]
  · by_cases hin : e.circuit ∈ taken ∧ holderOf s e.circuit = some r.id <;> simp [he, hin]

theorem overtaken_concat_of_other (h : holderOf s c ≠ some r.id) :
    overtaken s (taken ++ [c]) r = overtaken s taken r := by
  simp only [overtaken]
  congr 1
  refine List.map_congr_left fun e _ => ?_
  by_cases he : e.circuit = c
  · simp [he, h]
  · simp [he]

/-- The runs after circuits were taken: the current one, and the older ones below it. -/
def runsTaken (s : State) (taken : List Nat) (first : Run) (rest : List Run) : List Run :=
  reopened s taken first :: rest.map (overtaken s taken)

/-- The run in which a circuit that was not taken waits is the same. -/
theorem find_waiting_runsTaken {rest : List Run} (hc : c ∉ taken) :
    ((runsTaken s taken first rest).find? (fun r => r.standingOf c == some .waiting)).map (·.id) =
      ((first :: rest).find? (fun r => r.standingOf c == some .waiting)).map (·.id) := by
  have hcomp : ((fun r : Run => r.standingOf c == some .waiting) ∘ overtaken s taken) =
      (fun r => r.standingOf c == some .waiting) := funext fun r => by simp [standingOf_overtaken hc]
  rw [runsTaken, List.find?_cons, List.find?_cons, standingOf_reopened hc]
  split
  · rfl
  · rw [List.find?_map, hcomp, Option.map_map]
    rfl

/-- The runs with a circuit handed on by its holder, if it has one. -/
def runsHandingOn (holder : Option Nat) (c : Nat) (runs : List Run) : List Run :=
  holder.elim runs fun id => runsChanged id (·.setStanding c .handedOn) runs

/-- One more circuit taken: its holder hands it on, and the current run opens its entry. -/
theorem runsTaken_concat {rest : List Run} (hfirst : ∀ r ∈ rest, r.id ≠ first.id) (hc : c ∉ taken) :
    runsChanged first.id (·.openEntry c (takenStanding s c))
        (runsHandingOn (holderOf s c) c (runsTaken s taken first rest)) =
      runsTaken s (taken ++ [c]) first rest := by
  have hopen : ∀ z : Run, z.id = first.id →
      (z = reopened s taken first ∨ z = (reopened s taken first).setStanding c .handedOn) →
      z.openEntry c (takenStanding s c) = reopened s (taken ++ [c]) first := by
    rintro z - (rfl | rfl)
    · exact openEntry_reopened hc
    · rw [openEntry_setStanding, openEntry_reopened hc]
  have hid : (reopened s taken first).id = first.id := rfl
  cases hholder : holderOf s c with
  | none =>
    simp only [runsHandingOn, Option.elim_none, runsTaken, runsChanged, List.map_cons, hid, if_true,
      openEntry_reopened hc, List.map_map]
    congr 1
    refine List.map_congr_left fun r hr => ?_
    rw [Function.comp_apply, overtaken_id, if_neg (hfirst r hr), overtaken_concat_of_other (by simp [hholder])]
  | some id =>
    simp only [runsHandingOn, Option.elim_some, runsTaken, runsChanged, List.map_cons, hid, List.map_map]
    congr 1
    · by_cases hsame : first.id = id
      · rw [if_pos hsame]
        exact (if_pos rfl).trans (hopen _ rfl (.inr rfl))
      · rw [if_neg hsame]
        exact (if_pos rfl).trans (hopen _ rfl (.inl rfl))
    · refine List.map_congr_left fun r hr => ?_
      rw [Function.comp_apply, Function.comp_apply, overtaken_id]
      by_cases hsame : r.id = id
      · rw [if_pos hsame, overtaken_concat_of_holder (by rw [hholder, hsame])]
        exact if_neg (hfirst r hr)
      · rw [if_neg hsame, overtaken_concat_of_other (by simp [hholder, Ne.symm hsame])]
        exact if_neg (hfirst r hr)

/-! ### The routine list and the slots (R18, R61) -/

theorem routineTaken_nil (s : State) : routineTaken s [] = s.sched.routine := by simp [routineTaken]

theorem routineTaken_concat_of_queued (hnd : s.sched.routine.Nodup) (hstate : stateOf s c = some (.queued .routine)) :
    routineTaken s (taken ++ [c]) = (routineTaken s taken).erase c := by
  rw [routineTaken, routineTaken, (hnd.filter _).erase_eq_filter, List.filter_filter]
  refine List.filter_congr fun d _ => ?_
  by_cases hd : d = c
  · simp [hd, hstate]
  · simp [hd]

theorem routineTaken_concat_of_other (hstate : stateOf s c ≠ some (.queued .routine)) :
    routineTaken s (taken ++ [c]) = routineTaken s taken := by
  refine List.filter_congr fun d _ => ?_
  by_cases hd : d = c
  · simp [hd, hstate]
  · simp [hd]

theorem slotsTaken_nil (s : State) (id : Nat) : slotsTaken s id [] = s.probes.slots := by
  simp [slotsTaken, Option.map_id']

theorem slotsTaken_concat_of_probing {id : Nat} (hc : c ∉ taken) (hstate : stateOf s c = some .probing) :
    slotsTaken s id (taken ++ [c]) = (slotsTaken s id taken).map (Option.map fun p =>
      if p.circuit = c ∧ p.phase ≠ .closing then { p with mode := .sweep, owner := .run id } else p) := by
  rw [slotsTaken, slotsTaken, List.map_map]
  refine List.map_congr_left fun o _ => ?_
  cases o with
  | none => rfl
  | some p =>
    refine congrArg some ?_
    by_cases hp : p.circuit = c
    · by_cases hphase : p.phase = .closing <;> simp [hp, hc, hstate, hphase]
    · by_cases hin : p.phase ≠ .closing ∧ p.circuit ∈ taken ∧ stateOf s p.circuit = some .probing
      · simp [hp, hin]
      · simp [hp, hin]

theorem slotsTaken_concat_of_other {id : Nat} (hstate : stateOf s c ≠ some .probing) :
    slotsTaken s id (taken ++ [c]) = slotsTaken s id taken := by
  refine List.map_congr_left fun o _ => ?_
  cases o with
  | none => rfl
  | some p =>
    refine congrArg some ?_
    by_cases hp : p.circuit = c
    · simp [hp, hstate]
    · simp [hp]

/-- The probe of a circuit that was not taken is the same. -/
theorem probeOf_slotsTaken {id : Nat} (ht : t.probes.slots = slotsTaken s id taken) (hc : c ∉ taken) :
    probeOf t c = probeOf s c := by
  have hslot : slotOf t c = slotOf s c := by
    rw [slotOf, slotOf, ht, slotsTaken, List.findIdx?_map]
    congr 1
    funext o
    cases o with
    | none => rfl
    | some p =>
      simp only [Function.comp, Option.map_some, Option.any_some]
      split <;> rfl
  rw [probeOf, probeOf, hslot]
  cases hfound : slotOf s c with
  | none => rfl
  | some i =>
    obtain ⟨hlt, hat, -⟩ := List.findIdx?_eq_some_iff_getElem.1 hfound
    obtain ⟨p, hp, hpc⟩ := (Option.any_eq_true _ _).1 hat
    rw [beq_iff_eq] at hpc
    simp [probeAt, ht, slotsTaken, hlt, hp, hpc, hc]

end Sys2Proof.Machine
end

