-- ==== Sys2Proof/Proofs/Takings.lean ====
section
/-! A selection taken into the current run, circuit after circuit (R18, R61, R123 to R125, R130). -/

namespace Sys2Proof.Machine

variable {s t u : State} {c id : Nat} {sp : Span} {taken done sel : List Nat} {r first : Run} {rest : List Run}
  {p : PathRecord} {st : RecordState}

/-! ### Which circuits the run takes (R125) -/

/-- The circuits that a run takes of a selection: it has no WAITING or LAUNCHED entry for them. -/
def tookBy (r : Run) (sel : List Nat) : List Nat :=
  sel.filter fun c => !(r.entries.any fun e => e.circuit == c && (e.standing == .waiting || e.standing == .launched))

theorem not_closed_eq (x : RunStanding) : (!x.closed) = (x == .waiting || x == .launched) := by
  cases x <;> rfl

theorem standingOf_open (hnd : (r.entries.map (·.circuit)).Nodup) :
    (r.standingOf c).any (!·.closed) =
      r.entries.any fun e => e.circuit == c && (e.standing == .waiting || e.standing == .launched) := by
  simp only [← not_closed_eq]
  cases hfound : r.entries.find? (·.circuit == c) with
  | none =>
    have hno : ∀ e ∈ r.entries, (e.circuit == c) = false := by simpa using hfound
    rw [Run.standingOf, hfound, Option.map_none, Option.any_none, eq_comm, List.any_eq_false]
    intro e he
    simp [hno e he]
  | some e =>
    have hmem := List.mem_of_find?_eq_some hfound
    have hkey : e.circuit = c := beq_iff_eq.1 (List.find?_some (p := fun e : RunEntry => e.circuit == c) hfound)
    rw [Run.standingOf, hfound, Option.map_some, Option.any_some, Bool.eq_iff_iff, List.any_eq_true]
    constructor
    · exact fun hopen => ⟨e, hmem, by simp [hkey, hopen]⟩
    · rintro ⟨d, hd, hboth⟩
      rw [Bool.and_eq_true, beq_iff_eq] at hboth
      obtain ⟨hcircuit, hopen⟩ := hboth
      obtain rfl : d = e := List.inj_on_of_nodup_map hnd hd hmem (hcircuit.trans hkey.symm)
      exact hopen

theorem tookBy_of_empty (h : r.entries = []) : tookBy r sel = sel := by simp [tookBy, h]

theorem tookBy_concat (hnd : (r.entries.map (·.circuit)).Nodup) : tookBy r (sel ++ [c]) =
    if (r.standingOf c).any (!·.closed) then tookBy r sel else tookBy r sel ++ [c] := by
  rw [standingOf_open hnd, tookBy, tookBy, List.filter_append]
  split
  · rename_i hopen
    simp [hopen]
  · rename_i hclosed
    rw [Bool.not_eq_true] at hclosed
    simp [hclosed]

theorem mem_of_mem_tookBy (h : c ∈ tookBy r sel) : c ∈ sel := (List.mem_filter.1 h).1

/-! ### The path records (R18) -/

theorem pathsTaken_nil (s : State) (sp : Span) : pathsTaken s sp [] [] = s.paths := by simp [pathsTaken]

theorem findPath_pathsTaken (ht : t.paths = pathsTaken s sp done taken) (hdone : c ∉ done) (htaken : c ∉ taken)
    (hp : findPath s c = some p) : findPath t c = some p := by
  have hcomp : ((fun r : PathRecord => r.circuit == c) ∘ fun r : PathRecord => { r with
      origin := if done.contains r.circuit then some (.sweep sp) else r.origin
      state := if taken.contains r.circuit = true ∧ r.state ≠ .probing then .queued .sweep else r.state }) =
      (·.circuit == c) := rfl
  obtain rfl : p.circuit = c := beq_iff_eq.1 (List.find?_some (p := fun r : PathRecord => r.circuit == c) hp)
  rw [findPath] at hp
  rw [findPath, ht, pathsTaken, List.find?_map, hcomp, hp]
  simp [hdone, htaken]

theorem pathsTaken_select : pathsTaken s sp (done ++ [c]) taken = (pathsTaken s sp done taken).map fun x =>
    if x.circuit = c then { x with origin := some (.sweep sp) } else x := by
  rw [pathsTaken, pathsTaken, List.map_map]
  refine List.map_congr_left fun x _ => ?_
  by_cases hx : x.circuit = c <;> simp [hx]

theorem pathsTaken_take (hother : ∀ x ∈ s.paths, x.circuit = c → x.state ≠ .probing) :
    pathsTaken s sp done (taken ++ [c]) = (pathsTaken s sp done taken).map fun x =>
      if x.circuit = c then { x with state := .queued .sweep } else x := by
  rw [pathsTaken, pathsTaken, List.map_map]
  refine List.map_congr_left fun x hmem => ?_
  by_cases hx : x.circuit = c
  · have hstate := hother x hmem hx
    simp [hx, hstate]
  · simp [hx]

theorem pathsTaken_take_of_same
    (hsame : ∀ x ∈ s.paths, x.circuit = c → x.state = .probing ∨ x.state = .queued .sweep) :
    pathsTaken s sp done (taken ++ [c]) = pathsTaken s sp done taken := by
  refine List.map_congr_left fun x hmem => ?_
  by_cases hx : x.circuit = c
  · rcases hsame x hmem hx with hstate | hstate <;> simp [hstate]
  · simp [hx]

theorem state_of_stateOf (hnd : (pathOrder s).Nodup) (hstate : stateOf s c = some st) :
    ∀ x ∈ s.paths, x.circuit = c → x.state = st := by
  obtain ⟨q, hq, hqst⟩ := Option.map_eq_some_iff.1 hstate
  have hkey : q.circuit = c := beq_iff_eq.1 (List.find?_some (p := fun r : PathRecord => r.circuit == c) hq)
  intro x hx hxc
  obtain rfl : x = q := List.inj_on_of_nodup_map hnd hx (List.mem_of_find?_eq_some hq) (hxc.trans hkey.symm)
  exact hqst

/-! ### One circuit after the other -/

/-- The state after the current run claimed some circuits and took some of them, from state s with these runs. -/
structure Taking (s : State) (sp : Span) (first : Run) (rest : List Run) (done taken : List Nat) (t : State) :
    Prop where
  paths : t.paths = pathsTaken s sp done taken
  slots : t.probes.slots = slotsTaken s first.id taken
  runs  : RunsAre t { s.sched with routine := routineTaken s taken } (runsTaken s taken first rest)

theorem taking_nil (hruns : RunsAre s s.sched (first :: rest)) : Taking s sp first rest [] [] s where
  paths := (pathsTaken_nil s sp).symm
  slots := (slotsTaken_nil s first.id).symm
  runs := by
    have hrest : rest.map (overtaken s []) = rest :=
      (List.map_congr_left fun r _ => overtaken_nil s r).trans (List.map_id _)
    rw [routineTaken_nil, runsTaken, reopened_nil, hrest]
    exact hruns

/-- Runs are runs of the state, whatever of it is not its scheduler. -/
theorem RunsAre.congr {x : Scheduler} {runs : List Run} (h : RunsAre t x runs) (hsched : u.sched = t.sched) :
    RunsAre u x runs := ⟨hsched.trans h.sched, h.none_at_base, h.distinct⟩

theorem RunsAre.leaveRoutine {x : Scheduler} {runs : List Run} (h : RunsAre t x runs)
    (hsched : u.sched = { t.sched with routine := t.sched.routine.erase c }) :
    RunsAre u { x with routine := x.routine.erase c } runs :=
  ⟨by rw [hsched, h.sched]; rfl, h.none_at_base, h.distinct⟩

theorem openEntry_id (r : Run) (c : Nat) (x : RunStanding) : (r.openEntry c x).id = r.id := by
  unfold Run.openEntry
  split <;> rfl

/-- The record's origin names the alarm. -/
theorem Taking.select (h : Taking s sp first rest done taken t) :
    Taking s sp first rest (done ++ [c]) taken (setOrigin c (.sweep sp) t) where
  paths := by
    rw [pathsTaken_select, ← h.paths]
    rfl
  slots := h.slots
  runs := h.runs.congr rfl

section

variable (h : Taking s sp first rest done taken t) (hc : c ∉ taken)
include h hc

/-- The circuit's holder is the one it had before the alarm. -/
theorem Taking.waitingRun_id (hallruns : allRuns s = first :: rest) :
    (waitingRun t c).map (·.id) = (waitingRun s c).map (·.id) := by
  rw [waitingRun, waitingRun, allRuns_of_runsAre h.runs, hallruns]
  exact find_waiting_runsTaken hc

/-- A circuit that waits in a run is handed on by it. -/
theorem Taking.handOn_waiting (hallruns : allRuns s = first :: rest) (hstate : stateOf s c = some (.queued .sweep)) :
    RunsAre (moveIntoRun first.id c (.queued .sweep) t) { s.sched with routine := routineTaken s taken }
      (runsHandingOn (holderOf s c) c (runsTaken s taken first rest)) := by
  have hholder : holderOf s c = (waitingRun t c).map (·.id) := by
    rw [h.waitingRun_id hc hallruns]
    simp [holderOf, hstate]
  rw [hholder, moveIntoRun]
  cases waitingRun t c with
  | none => exact h.runs
  | some r => exact runsAre_modifyRun r.id (·.setStanding c .handedOn) (fun _ => rfl) h.runs

/-- A circuit that is probing is handed on by the owner of its slot. -/
theorem Taking.handOn_owner (hstate : stateOf s c = some .probing) :
    RunsAre (handOnOwner c t) { s.sched with routine := routineTaken s taken }
      (runsHandingOn (holderOf s c) c (runsTaken s taken first rest)) := by
  simp only [holderOf, hstate, handOnOwner, probeOf_slotsTaken h.slots hc]
  cases hprobe : probeOf s c with
  | none => exact h.runs
  | some p =>
    cases howner : p.owner with
    | base => simpa [howner, runsHandingOn] using h.runs
    | run old =>
      simpa [howner, runsHandingOn, handOn] using
        runsAre_modifyRun old (·.setStanding c .handedOn) (fun _ => rfl) h.runs

end

/-- The current run opens the circuit's entry, after its holder handed it on. -/
theorem runsAre_openEntry {x : Scheduler} (hdistinct : ((first :: rest).map (·.id)).Nodup) (hc : c ∉ taken)
    (h : RunsAre t x (runsHandingOn (holderOf s c) c (runsTaken s taken first rest))) :
    RunsAre (modifyRun first.id (·.openEntry c (takenStanding s c)) t) x (runsTaken s (taken ++ [c]) first rest) := by
  have hfirst : ∀ r ∈ rest, r.id ≠ first.id := fun r hr he =>
    (List.nodup_cons.1 hdistinct).1 (List.mem_map.2 ⟨r, hr, he⟩)
  rw [← runsTaken_concat hfirst hc]
  exact runsAre_modifyRun first.id (·.openEntry c (takenStanding s c)) (fun r => openEntry_id r c _) h

/-- A record that an alarm may take is neither HELD nor QUEUED CENSUS. -/
def RecordState.takeable (st : RecordState) : Prop :=
  st = .idle ∨ st = .queued .routine ∨ st = .queued .sweep ∨ st = .probing

/-- One circuit moves into the current run (R18, R61, R130). -/
theorem Taking.take (h : Taking s sp first rest done taken t) (hruns : RunsAre s s.sched (first :: rest))
    (hnd : (pathOrder s).Nodup) (hroutine : s.sched.routine.Nodup) (hc : c ∉ taken) (hstate : stateOf s c = some st)
    (hst : st.takeable) :
    Taking s sp first rest done (taken ++ [c])
      (modifyRun first.id (·.openEntry c (standingFor st)) (moveIntoRun first.id c st t)) := by
  have hrecord := state_of_stateOf hnd hstate
  have hstanding : standingFor st = takenStanding s c := by
    rw [takenStanding, hstate, standingFor]
    simp only [Option.some.injEq]
  have hopen {x : Scheduler} {u : State} :=
    runsAre_openEntry (s := s) (t := u) (taken := taken) (x := x) hruns.distinct hc
  have hqueued (u : State) (hu : u.paths = t.paths) (hnot : st ≠ .probing) :
      (setRecordState c (.queued .sweep) u).paths = pathsTaken s sp done (taken ++ [c]) := by
    rw [pathsTaken_take fun x hx hxc => (hrecord x hx hxc).trans_ne hnot, ← h.paths, ← hu]
    rfl
  rw [hstanding]
  rcases hst with rfl | rfl | rfl | rfl
  · have hnone : holderOf s c = none := by simp [holderOf, hstate]
    refine ⟨hqueued t rfl (by simp), ?_, hopen ?_⟩
    · rw [slotsTaken_concat_of_other (by simp [hstate])]
      exact h.slots
    · rw [hnone, routineTaken_concat_of_other (by simp [hstate])]
      exact h.runs.congr rfl
  · have hnone : holderOf s c = none := by simp [holderOf, hstate]
    refine ⟨hqueued (leaveList .routine c t) rfl (by simp), ?_, hopen ?_⟩
    · rw [slotsTaken_concat_of_other (by simp [hstate])]
      exact h.slots
    · rw [hnone, routineTaken_concat_of_queued hroutine hstate]
      exact h.runs.leaveRoutine rfl
  · refine ⟨?_, ?_, hopen ?_⟩
    · rw [pathsTaken_take_of_same fun x hx hxc => .inr (hrecord x hx hxc), ← h.paths, moveIntoRun]
      split <;> simp
    · rw [slotsTaken_concat_of_other (by simp [hstate]), ← h.slots, moveIntoRun]
      split <;> simp
    · rw [routineTaken_concat_of_other (by simp [hstate])]
      exact h.handOn_waiting hc (allRuns_of_runsAre hruns) hstate
  · refine ⟨?_, ?_, hopen ?_⟩
    · rw [pathsTaken_take_of_same fun x hx hxc => .inl (hrecord x hx hxc), ← h.paths, moveIntoRun]
      simp
    · have hprobes : (handOnOwner c t).probes.slots = t.probes.slots := by simp
      rw [slotsTaken_concat_of_probing hc hstate, ← h.slots, ← hprobes]
      rfl
    · rw [routineTaken_concat_of_other (by simp [hstate])]
      exact (h.handOn_owner hc hstate).congr rfl

/-- One selected record (R18, R124, R125). -/
theorem Taking.selected (h : Taking s sp first rest done (tookBy first done) t)
    (hruns : RunsAre s s.sched (first :: rest)) (hnd : (pathOrder s).Nodup) (hroutine : s.sched.routine.Nodup)
    (hentries : (first.entries.map (·.circuit)).Nodup) (hc : c ∉ done) (hp : findPath s c = some p)
    (hst : p.state.takeable) :
    Taking s sp first rest (done ++ [c]) (tookBy first (done ++ [c])) (takeSelected first.id sp t c) := by
  have htaken : c ∉ tookBy first done := fun hin => hc (mem_of_mem_tookBy hin)
  have hfound := findPath_pathsTaken h.paths hc htaken hp
  have hcurrent : t.sched.current = some (reopened s (tookBy first done) first) := by
    rw [h.runs.sched]
    rfl
  have hstanding := standingOf_reopened (s := s) (r := first) htaken
  rw [tookBy_concat hentries, takeSelected, hfound, hcurrent]
  simp only [hstanding]
  split
  · exact h.select
  · exact h.select.take hruns hnd hroutine htaken (by rw [stateOf, hp]; rfl) hst

/-- A whole selection. -/
theorem taking_all (hruns : RunsAre s s.sched (first :: rest)) (hnd : (pathOrder s).Nodup)
    (hroutine : s.sched.routine.Nodup) (hentries : (first.entries.map (·.circuit)).Nodup) (hsel : sel.Nodup)
    (hrecords : ∀ c ∈ sel, ∃ p, findPath s c = some p ∧ p.state.takeable) :
    Taking s sp first rest sel (tookBy first sel) (sel.foldl (takeSelected first.id sp) s) := by
  induction sel using List.reverseRecOn with
  | nil => exact taking_nil hruns
  | append_singleton sel c ih =>
    rw [List.nodup_append_comm, List.singleton_append, List.nodup_cons] at hsel
    obtain ⟨hc, hsel⟩ := hsel
    obtain ⟨p, hp, hst⟩ := hrecords c (by simp)
    rw [List.foldl_concat]
    exact (ih hsel fun d hd => hrecords d (List.mem_append_left _ hd)).selected hruns hnd hroutine hentries hc hp hst

/-! ### The selection (R123) -/

theorem selection_nodup (sp : Span) (hnd : (pathOrder s).Nodup) : (selection s sp).Nodup :=
  hnd.sublist (List.filter_sublist.map _)

theorem takeable_of_selectable (h : selectable s sp p = true) : p.state.takeable := by
  rw [selectable, Bool.and_eq_true] at h
  obtain ⟨-, hstate⟩ := h
  unfold RecordState.takeable
  rcases hst : p.state with _ | _ | m | _
  · simp
  · simp [hst] at hstate
  · cases m
    · simp [hst] at hstate
    · simp
    · simp
  · simp

theorem findPath_of_mem_nodup (hnd : (pathOrder s).Nodup) (hp : p ∈ s.paths) : findPath s p.circuit = some p := by
  obtain ⟨before, after, hsplit⟩ := List.append_of_mem hp
  exact findPath_of_split hsplit hnd

theorem selection_takeable (hnd : (pathOrder s).Nodup) (hc : c ∈ selection s sp) :
    ∃ p, findPath s c = some p ∧ p.state.takeable := by
  obtain ⟨p, hp, rfl⟩ := List.mem_map.1 hc
  obtain ⟨hmem, hselectable⟩ := List.mem_filter.1 hp
  exact ⟨p, findPath_of_mem_nodup hnd hmem, takeable_of_selectable hselectable⟩

end Sys2Proof.Machine
end

