-- ==== Sys2Proof/Proofs/AlarmRuns.lean ====
section
/-! What an alarm leaves of the runs (R123 to R125, R131): a new run over the suspended ones, or a merge into the
current one; the suspended runs that it closed are summed up and leave. -/

namespace Sys2Proof.Machine

variable {s t u : State} {sp : Span} {cause : Cause} {sel : List Nat} {r first run : Run}
  {rest runs : List Run} {taken : List Nat} {x : Scheduler}

/-! ### Suspended runs that are closed (R124, R131) -/

theorem suspended_of_runsAre (h : RunsAre t x (first :: rest)) : suspended t = rest := by
  rw [suspended, h.sched]
  exact filterMap_run_overBase rest

theorem runsWithout_of_distinct {before after : List Run} (hdistinct : ((before ++ r :: after).map (·.id)).Nodup) :
    runsWithout r.id (before ++ r :: after) = before ++ after := by
  rw [List.map_append, List.map_cons, List.nodup_middle, List.nodup_cons, ← List.map_append] at hdistinct
  obtain ⟨hother, -⟩ := hdistinct
  have hstays : ∀ l : List Run, l ⊆ before ++ after → runsWithout r.id l = l := fun l hl =>
    List.filter_eq_self.2 fun y hy => by
      simpa using fun he : y.id = r.id => hother (he ▸ List.mem_map_of_mem (hl hy))
  have hself : runsWithout r.id (r :: after) = runsWithout r.id after := List.filter_cons_of_neg (by simp)
  rw [runsWithout, List.filter_append, ← runsWithout, ← runsWithout, hself, hstays before (by simp),
    hstays after (by simp)]

/-- The suspended runs, one after the other. -/
theorem foldl_completeRun (l : List Run) : ∀ {kept : List Run} {t : State}, RunsAre t x (kept ++ l) →
    RunsAre (l.foldl (fun u r => completeRun r.id u) t) x (kept ++ l.filter (!·.complete)) ∧
      (l.foldl (fun u r => completeRun r.id u) t).ctl = summariesPosted (l.filter (·.complete)) t := by
  induction l with
  | nil => exact fun h => ⟨h, rfl⟩
  | cons r l ih =>
    intro kept t h
    have hr : r ∈ kept ++ r :: l := by simp
    cases hcomplete : r.complete with
    | false =>
      have hnext := ih (kept := kept ++ [r]) (t := t) (by simpa using h)
      simpa [hcomplete, completeRun_of_open h hr hcomplete] using hnext
    | true =>
      obtain ⟨hsched, hctl⟩ := completeRun_of_complete h hr hcomplete
      rw [runsWithout_of_distinct h.distinct] at hsched
      have hruns : RunsAre (completeRun r.id t) x (kept ++ l) :=
        ⟨hsched, fun hx => absurd (h.none_at_base hx) (by simp),
          h.distinct.sublist (((List.sublist_cons_self r l).append_left kept).map _)⟩
      obtain ⟨hafter, hposted⟩ := ih hruns
      have hkept : (r :: l).filter (!·.complete) = l.filter (!·.complete) := by simp [hcomplete]
      have hgone : (r :: l).filter (·.complete) = r :: l.filter (·.complete) := by simp [hcomplete]
      rw [List.foldl_cons, hkept, hgone]
      exact ⟨hafter, hposted.trans (summariesPosted_congr _ (by simp) (by simp) hctl)⟩

theorem completeSuspended_of_runsAre (h : RunsAre t x (first :: rest)) :
    (completeSuspended t).sched = x.withRuns (first :: rest.filter (!·.complete)) ∧
      (completeSuspended t).ctl = summariesPosted (rest.filter (·.complete)) t := by
  obtain ⟨hruns, hctl⟩ := foldl_completeRun rest (kept := [first]) h
  rw [completeSuspended, suspended_of_runsAre h]
  exact ⟨hruns.sched, hctl⟩

/-! ### The stack as the runs over BASE -/

theorem completeIn_overBase (runs : List Run) :
    completeIn (runs.map .sweep ++ [.base]) = runs.filter (·.complete) := by
  have hrun : (fun e : StackEntry => e.run.filter (·.complete)) ∘ StackEntry.sweep =
      Option.guard (·.complete) := by
    funext r
    rfl
  rw [completeIn, List.filterMap_append, List.filterMap_map, hrun, List.filterMap_eq_filter]
  exact List.append_nil _

theorem openIn_overBase (runs : List Run) :
    openIn (runs.map .sweep ++ [.base]) = (runs.filter (!·.complete)).map .sweep ++ [.base] := by
  rw [openIn, List.filter_append, List.filter_map]
  rfl

theorem map_overtaken_overBase (taken : List Nat) (runs : List Run) :
    (runs.map StackEntry.sweep ++ [StackEntry.base]).map (StackEntry.overtaken s taken) =
      (runs.map (overtaken s taken)).map .sweep ++ [.base] := by
  rw [List.map_append, List.map_map, List.map_map]
  rfl

/-! ### A new run and a merge -/

/-- What an alarm leaves that took circuits into a current run. -/
structure AlarmTook (s : State) (sp : Span) (sel taken : List Nat) (stack : List StackEntry) (run : Run)
    (x : Scheduler) (t : State) : Prop where
  sched : t.sched = { x with routine := routineTaken s taken, current := some run, stack := openIn stack }
  ctl   : t.ctl = summariesPosted (completeIn stack) s
  paths : t.paths = pathsTaken s sp sel taken
  slots : t.probes.slots = slotsTaken s run.id taken

/-- The circuits taken, the suspended runs that this closed leave. -/
theorem alarmTook_completeSuspended (hruns : RunsAre t { x with routine := routineTaken s taken }
      (run :: rest.map (overtaken s taken))) (hnow : t.now = s.now) (himage : t.image = s.image)
    (hctl : t.ctl = s.ctl) (hpaths : t.paths = pathsTaken s sp sel taken)
    (hslots : t.probes.slots = slotsTaken s run.id taken) :
    AlarmTook s sp sel taken ((rest.map StackEntry.sweep ++ [StackEntry.base]).map (StackEntry.overtaken s taken))
      run x (completeSuspended t) := by
  obtain ⟨hsched, hposted⟩ := completeSuspended_of_runsAre hruns
  rw [map_overtaken_overBase]
  refine ⟨?_, ?_, by simpa using hpaths, by simpa using hslots⟩
  · rw [hsched, openIn_overBase]
    simp [Scheduler.withRuns]
  · rw [hposted, completeIn_overBase]
    exact summariesPosted_congr _ hnow himage hctl

/-! ### A merge (R125) -/

theorem addMerged_eq (r : Run) (sp : Span) : r.addMerged sp = { r with
    merged := if sp = r.span ∨ sp ∈ r.merged ∨ 8 ≤ r.merged.length then r.merged else r.merged ++ [sp]
    overflow := if sp = r.span ∨ sp ∈ r.merged ∨ r.merged.length < 8 then r.overflow
      else min 255 (r.overflow + 1) } := by
  unfold Run.addMerged
  by_cases hknown : sp = r.span ∨ sp ∈ r.merged
  · have hmerged : sp = r.span ∨ sp ∈ r.merged ∨ 8 ≤ r.merged.length := hknown.imp_right .inl
    have hoverflow : sp = r.span ∨ sp ∈ r.merged ∨ r.merged.length < 8 := hknown.imp_right .inl
    rw [if_pos hknown, if_pos hmerged, if_pos hoverflow]
  · obtain ⟨hspan, hnew⟩ := not_or.1 hknown
    by_cases hroom : r.merged.length < Config.mergedCapacity
    · have hlt : r.merged.length < 8 := hroom
      simp [hspan, hnew, hroom, hlt]
    · have hge : 8 ≤ r.merged.length := Nat.le_of_not_lt hroom
      simp [hspan, hnew, hroom, hge]

theorem addMerged_id (r : Run) (sp : Span) : (r.addMerged sp).id = r.id := by rw [addMerged_eq]

theorem runsAre_allRuns (hok : SchedulerOk s) (hcurrent : s.sched.current ≠ none) : RunsAre s s.sched (allRuns s) where
  sched := (withRuns_allRuns hok).symm
  none_at_base h := absurd h hcurrent
  distinct := by
    obtain ⟨_, _, _, _, _, hids, _⟩ := hok
    exact hids

/-- The selection taken into the current run, and the span with it. -/
theorem mergeRun_took (hok : SchedulerOk s) (hcurrent : s.sched.current = some run) (hnd : (pathOrder s).Nodup)
    (hroutine : s.sched.routine.Nodup) : AlarmTook s sp (selection s sp) (tookBy run (selection s sp))
      (s.sched.stack.map (StackEntry.overtaken s (tookBy run (selection s sp))))
      ((reopened s (tookBy run (selection s sp)) run).addMerged sp) s.sched
      (mergeRun sp (selection s sp) s) := by
  have hne : s.sched.current ≠ none := by simp [hcurrent]
  have hall : allRuns s = run :: suspended s := by simp [allRuns, hcurrent]
  have hruns := hall ▸ runsAre_allRuns hok hne
  have hentries : (run.entries.map (·.circuit)).Nodup := by
    obtain ⟨_, _, _, _, hrunsOk, _⟩ := hok
    exact (hrunsOk run (by simp [hall])).1.1
  have htaking := taking_all (sp := sp) hruns hnd hroutine hentries (selection_nodup sp hnd)
    fun c hc => selection_takeable hnd hc
  rw [stack_eq_suspended hok hne, mergeRun, hcurrent]
  refine alarmTook_completeSuspended ?_ (by simp) (by simp) (by simp) (by simpa using htaking.paths) ?_
  · have hmerged := runsAre_modifyRun run.id (·.addMerged sp) (addMerged_id · sp) htaking.runs
    have hothers : ∀ r ∈ suspended s, r.id ≠ run.id := fun r hr he =>
      (List.nodup_cons.1 hruns.distinct).1 (List.mem_map.2 ⟨r, hr, he⟩)
    have hchanged : runsChanged run.id (·.addMerged sp) (runsTaken s (tookBy run (selection s sp)) run (suspended s)) =
        (reopened s (tookBy run (selection s sp)) run).addMerged sp ::
          (suspended s).map (overtaken s (tookBy run (selection s sp))) := by
      rw [runsTaken, runsChanged, List.map_cons, List.map_map]
      congr 1
      · exact if_pos rfl
      · exact List.map_congr_left fun r hr => if_neg (hothers r hr)
    exact hchanged ▸ hmerged
  · have hid : (reopened s (tookBy run (selection s sp)) run).id = run.id := rfl
    rw [addMerged_id, hid]
    simpa using htaking.slots

/-! ### A new run (R124) -/

/-- A state with the same records, slots, lists and waiting circuits has the same circuits taken. -/
structure SameWork (s u : State) : Prop where
  paths   : u.paths = s.paths
  slots   : u.probes = s.probes
  routine : u.sched.routine = s.sched.routine
  waiting : ∀ c, waitingRun u c = waitingRun s c
  now     : u.now = s.now
  image   : u.image = s.image
  ctl     : u.ctl = s.ctl

theorem SameWork.overtaken (h : SameWork s u) (taken : List Nat) :
    StackEntry.overtaken u taken = StackEntry.overtaken s taken := by
  have hholder : holderOf u = holderOf s := funext fun c => by
    have hat : probeAt u = probeAt s := funext fun i => by rw [probeAt, probeAt, h.slots]
    have hprobe : probeOf u c = probeOf s c := by simp only [probeOf, slotOf, hat, h.slots]
    simp only [holderOf, stateOf, findPath, hprobe, h.paths, h.waiting]
  funext e
  cases e with
  | base => rfl
  | sweep r => simp only [StackEntry.overtaken, Machine.overtaken, hholder]

theorem AlarmTook.of_sameWork {stack : List StackEntry} (h : AlarmTook u sp sel taken stack run x t)
    (hsame : SameWork s u) : AlarmTook s sp sel taken stack run x t where
  sched := by
    rw [h.sched]
    simp only [routineTaken, stateOf, findPath, hsame.paths, hsame.routine]
  ctl := h.ctl.trans (summariesPosted_congr _ hsame.now hsame.image hsame.ctl)
  paths := by
    rw [h.paths]
    simp only [pathsTaken, hsame.paths]
  slots := by
    rw [h.slots]
    simp only [slotsTaken, stateOf, findPath, hsame.paths, hsame.slots]
    rfl

/-- The run of an alarm before it takes a circuit. -/
def emptyRun (s : State) (sp : Span) (cause : Cause) : Run :=
  { id := s.sched.nextRun, span := sp, cause := cause, entries := [], merged := [], overflow := 0 }

/-- The run of an alarm with its circuits. -/
def alarmRun (s : State) (sp : Span) (cause : Cause) (sel : List Nat) : Run :=
  { emptyRun s sp cause with entries := sel.map fun c => ⟨c, takenStanding s c⟩ }

/-- A new run is current, and the runs before it are suspended over BASE. -/
theorem runsAre_startRun (hok : SchedulerOk s) (sp : Span) (cause : Cause) :
    RunsAre (startRun sp cause (suspendCurrent s)) (startRun sp cause (suspendCurrent s)).sched
      (emptyRun s sp cause :: allRuns s) where
  sched := by
    cases hcurrent : s.sched.current with
    | none =>
      have hstack : s.sched.stack = [] := by
        obtain ⟨_, hempty, _⟩ := hok
        exact hempty.1 hcurrent
      simp [startRun, suspendCurrent, hcurrent, Scheduler.withRuns, allRuns_of_base hok hcurrent, hstack, emptyRun]
    | some r =>
      have hstack := stack_eq_suspended hok (by simp [hcurrent])
      simp [startRun, suspendCurrent, hcurrent, Scheduler.withRuns, allRuns, hstack, emptyRun]
  none_at_base h := by simp [startRun] at h
  distinct := by
    obtain ⟨_, _, _, _, hruns, hids, _⟩ := hok
    refine List.nodup_cons.2 ⟨fun hin => ?_, hids⟩
    obtain ⟨r, hr, hid⟩ := List.mem_map.1 hin
    exact (hruns r hr).2.ne hid

theorem sameWork_startRun (hok : SchedulerOk s) (sp : Span) (cause : Cause) :
    SameWork s (startRun sp cause (suspendCurrent s)) := by
  refine ⟨by simp, by simp, ?_, fun c => ?_, by simp, by simp, by simp⟩
  · rw [startRun, suspendCurrent]
    split <;> rfl
  · rw [waitingRun, waitingRun, allRuns_of_runsAre (runsAre_startRun hok sp cause)]
    rfl

/-- The selection taken as a new run. -/
theorem newRun_took (hok : SchedulerOk s) (hnd : (pathOrder s).Nodup) (hroutine : s.sched.routine.Nodup) :
    AlarmTook s sp (selection s sp) (selection s sp)
      (((allRuns s).map StackEntry.sweep ++ [StackEntry.base]).map (StackEntry.overtaken s (selection s sp)))
      (alarmRun s sp cause (selection s sp)) (startRun sp cause (suspendCurrent s)).sched
      (newRun sp cause (selection s sp) s) := by
  have hruns := runsAre_startRun hok sp cause
  have hsame := sameWork_startRun hok sp cause
  have hstart : newRun sp cause (selection s sp) s = completeSuspended ((selection s sp).foldl
    (takeSelected (emptyRun s sp cause).id sp) (startRun sp cause (suspendCurrent s))) := rfl
  rw [hstart]
  generalize startRun sp cause (suspendCurrent s) = u at *
  have hstate (c : Nat) : findPath u c = findPath s c := by rw [findPath, findPath, hsame.paths]
  have htaking := taking_all (sp := sp) (sel := selection s sp) hruns (by rwa [pathOrder, hsame.paths])
    (hsame.routine ▸ hroutine) List.nodup_nil (selection_nodup sp hnd)
    fun c hc => by rw [hstate]; exact selection_takeable hnd hc
  have hrun : reopened u (selection s sp) (emptyRun s sp cause) = alarmRun s sp cause (selection s sp) := by
    rw [reopened_of_empty rfl, alarmRun]
    simp only [takenStanding, stateOf, hstate]
    rfl
  rw [tookBy_of_empty rfl] at htaking
  rw [← hsame.overtaken]
  refine AlarmTook.of_sameWork (u := u) ?_ hsame
  exact alarmTook_completeSuspended (hrun ▸ htaking.runs) (by simp) (by simp) (by simp) htaking.paths htaking.slots

end Sys2Proof.Machine
end

