-- ==== Sys2Proof/Proofs/SweepCredits.lean ====
section
/-! A verdict credited to a sweep run: the entry closes, and a run whose last entry closes is summed up and leaves
(R88, R129, R131). -/

namespace Sys2Proof.Machine

variable {s t u : State} {j : Judgement} {p : Probe} {r : PathRecord} {run : Run} {v : Verdict} {c : Nat}

/-! ### The record's move and the scheduler -/

theorem enqueue_routine_sched (c : Nat) (o : Origin) (s : State) :
    (enqueue c .routine o s).sched = { s.sched with routine := s.sched.routine ++ [c] } := rfl

/-- The move of the record changes the routine list alone. -/
theorem moveForVerdict_sched (j : Judgement) (r : PathRecord) (s : State) :
    ∃ routine, (moveForVerdict j r s).sched = { s.sched with routine := routine } := by
  unfold moveForVerdict
  dsimp only
  split
  · exact ⟨s.sched.routine, by simp⟩
  · split
    · exact ⟨s.sched.routine, by simp⟩
    · split
      · exact ⟨_, enqueue_routine_sched _ _ s⟩
      · exact ⟨s.sched.routine, by simp⟩

/-- The state in which a verdict is credited: the record is moved, and the verdict is posted. -/
def verdictPosted (j : Judgement) (r : PathRecord) (s : State) : State :=
  postReport (.verdict j.record) (moveForVerdict j r (followHead j (modifyPath j.record.circuit (takeVerdict j) s)))

theorem recordVerdict_eq (j : Judgement) (p : Probe) (r : PathRecord) (s : State) :
    recordVerdict j p r s = creditRun p j.record.verdict (verdictPosted j r s) := rfl

theorem verdictPosted_sched (j : Judgement) (r : PathRecord) (s : State) :
    ∃ routine, (verdictPosted j r s).sched = { s.sched with routine := routine } := by
  obtain ⟨routine, h⟩ := moveForVerdict_sched j r (followHead j (modifyPath j.record.circuit (takeVerdict j) s))
  exact ⟨routine, by simp [verdictPosted, h]⟩

theorem verdictPosted_queue (hroom : s.ctl.queue.length < 32) (hnone : r.owed = []) :
    (verdictPosted j r s).ctl.queue = s.ctl.queue ++ [(s.ctl.reportNumber, .verdict j.record)] ∧
      (verdictPosted j r s).ctl.reportNumber = (s.ctl.reportNumber + 1) % 256 := by
  rw [verdictPosted, postReport_queue, postReport_number, moveForVerdict_ctl hnone]
  simp [hroom]

/-! ### The credit to the owner of the slot (R129) -/

theorem runsAre_routine (hok : SchedulerOk s) (hcurrent : s.sched.current ≠ none) {routine : List Nat}
    (hu : u.sched = { s.sched with routine := routine }) :
    RunsAre u { s.sched with routine := routine } (allRuns s) where
  sched := by
    rw [hu]
    nth_rw 1 [(runsAre_allRuns hok hcurrent).sched]
    rfl
  none_at_base h := absurd h hcurrent
  distinct := (runsAre_allRuns hok hcurrent).distinct

theorem standingOf_of_mem {e : RunEntry} (hnd : (run.entries.map (·.circuit)).Nodup) (he : e ∈ run.entries)
    (hc : e.circuit = c) : run.standingOf c = some e.standing := by
  cases hfound : run.entries.find? (·.circuit == c) with
  | none => exact absurd hc (by simpa using List.find?_eq_none.1 hfound e he)
  | some y =>
    have hy : y.circuit = c := beq_iff_eq.1 (List.find?_some (p := fun x : RunEntry => x.circuit == c) hfound)
    obtain rfl : e = y := List.inj_on_of_nodup_map hnd he (List.mem_of_find?_eq_some hfound) (hc.trans hy.symm)
    rw [Run.standingOf, hfound, Option.map_some]

theorem creditRun_of_launched (howner : p.owner = .run run.id) (hrun : run ∈ allRuns u)
    (hstanding : run.standingOf p.circuit = some .launched) :
    creditRun p v u = touchRun run.id p.circuit (.credited v) u := by
  have hany : ((allRuns u).any fun x => x.id == run.id && x.standingOf p.circuit == some .launched) = true :=
    List.any_eq_true.2 ⟨run, hrun, by simp [hstanding]⟩
  rw [creditRun, howner]
  exact if_pos hany

/-- What the completion test after a credit leaves of the runs. -/
structure RunCredited (run credited : Run) (s t : State) : Prop where
  stays : credited.complete = false →
    t.sched.current = s.sched.current.map (fun x => if x.id = run.id then credited else x) ∧
      t.sched.stack = (s.sched.stack.map fun e => if e.run.any (·.id == run.id) then .sweep credited else e) ∧
      t.sched.admission = s.sched.admission
  leavesStack : credited.complete = true → s.sched.current ≠ some run →
    t.sched.current = s.sched.current ∧
      t.sched.stack = (s.sched.stack.filter fun e => !e.run.any (·.id == run.id)) ∧
      t.sched.admission = s.sched.admission
  uncovers : credited.complete = true → s.sched.current = some run →
    (∀ (x : Run) (below : List StackEntry), s.sched.stack = .sweep x :: below →
      t.sched.current = some x ∧ t.sched.stack = below ∧ t.sched.admission = s.sched.admission) ∧
    (s.sched.stack = [.base] → t.sched.current = none ∧ t.sched.stack = [] ∧ t.sched.admission = s.sched.shadow)
  shadow : t.sched.shadow = s.sched.shadow
  census : t.sched.census = s.sched.census

theorem filter_overBase (id : Nat) (runs : List Run) :
    (runs.map StackEntry.sweep ++ [StackEntry.base]).filter (fun e => !e.run.any (·.id == id)) =
      (runsWithout id runs).map .sweep ++ [.base] := by
  rw [List.filter_append, List.filter_map]
  rfl

section

variable {first : Run} {rest : List Run} {credited : Run} {routine : List Nat}
  (hruns : RunsAre s s.sched (first :: rest))
  (hu : RunsAre u { s.sched with routine := routine } (first :: rest)) (hrun : run ∈ first :: rest)
  (hcredited : credited = run.setStanding c (.credited v))
include hruns hu hrun hcredited

/-- The entry is closed, the run stays open. -/
theorem runCredited_of_open (hopen : credited.complete = false) :
    RunCredited run credited s (touchRun run.id c (.credited v) u) := by
  have hchanged := runsAre_modifyRun run.id (·.setStanding c (.credited v)) (fun _ => rfl) hu
  have hmem : run.setStanding c (.credited v) ∈ runsChanged run.id (·.setStanding c (.credited v)) (first :: rest) :=
    List.mem_map.2 ⟨run, hrun, if_pos rfl⟩
  have htouch : touchRun run.id c (.credited v) u = modifyRun run.id (·.setStanding c (.credited v)) u :=
    completeRun_of_open (r := run.setStanding c (.credited v)) hchanged hmem (hcredited ▸ hopen)
  have hsame : ∀ x ∈ first :: rest, (if x.id = run.id then x.setStanding c (.credited v) else x) =
      if x.id = run.id then credited else x := by
    intro x hx
    split
    · rename_i hid
      rw [hcredited, List.inj_on_of_nodup_map hruns.distinct hx hrun hid]
    · rfl
  have hstack : s.sched.stack = rest.map .sweep ++ [.base] := by
    rw [hruns.sched]
    rfl
  have hfirst : s.sched.current = some first := by
    rw [hruns.sched]
    rfl
  rw [htouch]
  refine ⟨fun _ => ⟨?_, ?_, ?_⟩, fun h => absurd (hopen.symm.trans h) (by simp),
    fun h => absurd (hopen.symm.trans h) (by simp), ?_, ?_⟩
  all_goals rw [hchanged.sched]
  · rw [hfirst, Option.map_some, ← hsame first (by simp)]
    rfl
  · rw [hstack, List.map_append, List.map_map]
    simp only [Scheduler.withRuns, runsChanged, List.map_cons, List.tail_cons, List.map_map, reduceCtorEq, if_false]
    congr 1
    refine List.map_congr_left fun x hx => ?_
    rw [Function.comp_apply, Function.comp_apply, hsame x (List.mem_cons_of_mem _ hx)]
    by_cases hid : x.id = run.id <;> simp [StackEntry.run, hid]
  · simp [Scheduler.withRuns, runsChanged]
  · rfl
  · rfl

omit hruns in
/-- The credit closes the last entry of the run. -/
theorem sched_of_complete (hcomplete : credited.complete = true) :
    (touchRun run.id c (.credited v) u).sched =
        ({ s.sched with routine := routine } : Scheduler).withRuns (runsWithout run.id (first :: rest)) ∧
      (touchRun run.id c (.credited v) u).ctl = (postReport (.sweepSummary credited.summary) u).ctl := by
  have hchanged := runsAre_modifyRun run.id (·.setStanding c (.credited v)) (fun _ => rfl) hu
  have hmem : run.setStanding c (.credited v) ∈ runsChanged run.id (·.setStanding c (.credited v)) (first :: rest) :=
    List.mem_map.2 ⟨run, hrun, if_pos rfl⟩
  obtain ⟨hsched, hctl⟩ := completeRun_of_complete hchanged hmem (hcredited ▸ hcomplete)
  have hothers : runsWithout run.id (runsChanged run.id (·.setStanding c (.credited v)) (first :: rest)) =
      runsWithout run.id (first :: rest) := by
    rw [runsWithout, runsWithout, runsChanged, List.filter_map]
    refine (List.map_congr_left fun x hx => ?_).trans ((List.map_id _).trans (List.filter_congr fun x _ => ?_))
    · have hne := (List.mem_filter.1 hx).2
      by_cases hid : x.id = run.id
      · simp [hid, Run.setStanding] at hne
      · exact if_neg hid
    · by_cases hid : x.id = run.id <;> simp [hid, Run.setStanding]
  refine ⟨hothers ▸ hsched, hctl.trans ?_⟩
  rw [hcredited]
  exact postReport_ctl_congr _ (by simp) (by simp) (by simp)

theorem runCredited_of_complete (hcomplete : credited.complete = true) :
    RunCredited run credited s (touchRun run.id c (.credited v) u) := by
  obtain ⟨hsched, -⟩ := sched_of_complete hu hrun hcredited hcomplete
  have hstack : s.sched.stack = rest.map .sweep ++ [.base] := by
    rw [hruns.sched]
    rfl
  have hfirst : s.sched.current = some first := by
    rw [hruns.sched]
    rfl
  refine ⟨fun h => absurd (h.symm.trans hcomplete) (by simp), fun _ hne => ?_, fun _ heq => ?_, ?_, ?_⟩
  · have hid : first.id ≠ run.id := fun hid =>
      hne (hfirst.trans (congrArg some (List.inj_on_of_nodup_map hruns.distinct (by simp) hrun hid)))
    have hothers : runsWithout run.id (first :: rest) = first :: runsWithout run.id rest :=
      List.filter_cons_of_pos (by simpa using hid)
    rw [hsched, hothers, hstack, filter_overBase]
    exact ⟨hfirst.symm, rfl, by simp [Scheduler.withRuns]⟩
  · obtain rfl : first = run := Option.some.inj (hfirst.symm.trans heq)
    have hothers : runsWithout first.id (first :: rest) = rest :=
      runsWithout_of_distinct (before := []) hruns.distinct
    rw [hsched, hothers, hstack]
    refine ⟨fun x below hbelow => ?_, fun hbase => ?_⟩
    · cases rest with
      | nil => simp at hbelow
      | cons y rest =>
        rw [List.map_cons, List.cons_append, List.cons.injEq, StackEntry.sweep.injEq] at hbelow
        obtain ⟨rfl, rfl⟩ := hbelow
        exact ⟨rfl, rfl, by simp [Scheduler.withRuns]⟩
    · cases rest with
      | nil => exact ⟨rfl, rfl, by simp [Scheduler.withRuns, hfirst]⟩
      | cons y rest => simp at hbase
  · rw [hsched]
    rfl
  · rw [hsched]
    rfl

end

/-- An evaluation whose slot a run owns that launched the circuit. -/
theorem recordVerdict_credits {credited : Run} (hok : SchedulerOk s) (howner : p.owner = .run run.id)
    (hrun : run ∈ allRuns s) (hentry : ∃ e ∈ run.entries, e.circuit = p.circuit ∧ e.standing = .launched)
    (hcredited : credited = run.setStanding p.circuit (.credited j.record.verdict)) :
    RunCredited run credited s (recordVerdict j p r s) ∧
      (credited.complete = true → r.owed = [] → s.ctl.queue.length < 31 →
        (recordVerdict j p r s).ctl.queue = s.ctl.queue ++ [(s.ctl.reportNumber, .verdict j.record),
          ((s.ctl.reportNumber + 1) % 256, .sweepSummary credited.summary)]) := by
  have hne : s.sched.current ≠ none := fun hnone => by simp [allRuns_of_base hok hnone] at hrun
  obtain ⟨routine, hsched⟩ := verdictPosted_sched j r s
  have hruns := runsAre_allRuns hok hne
  have hu := runsAre_routine hok hne hsched
  have hstanding : run.standingOf p.circuit = some .launched := by
    obtain ⟨e, he, hc, hlaunched⟩ := hentry
    obtain ⟨_, _, _, _, hrunsOk, _⟩ := hok
    rw [standingOf_of_mem (hrunsOk run hrun).1.1 he hc, hlaunched]
  have hcredit : recordVerdict j p r s =
      touchRun run.id p.circuit (.credited j.record.verdict) (verdictPosted j r s) := by
    rw [recordVerdict_eq]
    exact creditRun_of_launched howner (by rwa [allRuns_of_runsAre hu]) hstanding
  rw [hcredit]
  generalize allRuns s = all at hruns hu hrun
  cases all with
  | nil => simp at hrun
  | cons first rest =>
    refine ⟨?_, fun hcomplete hnone hroom => ?_⟩
    · cases hcomplete : credited.complete with
      | false => exact runCredited_of_open hruns hu hrun hcredited hcomplete
      | true => exact runCredited_of_complete hruns hu hrun hcredited hcomplete
    · obtain ⟨-, hctl⟩ := sched_of_complete hu hrun hcredited hcomplete
      obtain ⟨hqueue, hnumber⟩ := verdictPosted_queue (j := j) (s := s) (by omega) hnone
      rw [hctl, postReport_queue, hqueue, hnumber, if_pos (by simp; omega)]
      simp

end Sys2Proof.Machine
end

