-- ==== Sys2Proof/Proofs/SpanAlarms.lean ====
section
/-! SPAN_ALARM_DISPATCH (R18, R61, R122 to R125, R129 to R132). -/

namespace Sys2Proof.Machine

variable {s t : State} {sp : Span} {cause : Cause} {k : AlarmKind} {a : Received} {rest : List Received} {run : Run}
  {c : Nat}

/-! ### The summary of a run (R132) -/

theorem complete_iff (r : Run) :
    r.complete = true ↔ ∀ e ∈ r.entries, e.standing ≠ .waiting ∧ e.standing ≠ .launched := by
  rw [Run.complete, List.all_eq_true]
  refine forall₂_congr fun e _ => ?_
  cases e.standing <;> simp [RunStanding.closed]

theorem countsSurvived_eq (x : RunStanding) : x.verdict.any Verdict.survived =
    (x == .credited .pass || x == .credited .degraded || x == .credited .rerouted) := by
  cases x with
  | credited v => cases v <;> rfl
  | waiting | launched | handedOn | deferred => rfl

theorem countsBroken_eq (x : RunStanding) : x.verdict.any Verdict.countsBroken =
    (x == .credited .broken || x == .credited .misrouted || x == .credited .conflict) := by
  cases x with
  | credited v => cases v <;> rfl
  | waiting | launched | handedOn | deferred => rfl

theorem countsIncomplete_eq (x : RunStanding) : x.verdict.any (· == .incomplete) = (x == .credited .incomplete) := by
  cases x with
  | credited v => cases v <;> rfl
  | waiting | launched | handedOn | deferred => rfl

theorem summary_eq (r : Run) : r.summary =
    { span := r.span, cause := r.cause, merged := r.merged, overflow := r.overflow
      circuits := r.entries.length
      survived := r.entries.countP fun e => e.standing == .credited .pass ||
        e.standing == .credited .degraded || e.standing == .credited .rerouted
      broken := r.entries.countP fun e => e.standing == .credited .broken ||
        e.standing == .credited .misrouted || e.standing == .credited .conflict
      incomplete := r.entries.countP (·.standing == .credited .incomplete)
      handedOn := r.entries.countP (·.standing == .handedOn)
      deferred := r.entries.countP (·.standing == .deferred)
      firstBroken := (r.entries.find? fun e => e.standing == .credited .broken ||
        e.standing == .credited .misrouted || e.standing == .credited .conflict).map (·.circuit)
      firstIncomplete := (r.entries.find? (·.standing == .credited .incomplete)).map (·.circuit) } := by
  simp only [Run.summary, Run.countVerdicts, Run.countStanding, Run.firstWith, countsSurvived_eq, countsBroken_eq,
    countsIncomplete_eq]

/-! ### The selection (R123) -/

/-- The probe of a circuit is the first one that holds it. -/
theorem probeOf_eq_find (s : State) (c : Nat) : probeOf s c = (probesOf s).find? (·.circuit == c) := by
  have hlist : ∀ l : List (Option Probe), (l.findIdx? fun o => o.any (·.circuit == c)).bind (fun i => l.getD i none) =
      (l.filterMap id).find? (·.circuit == c) := by
    intro l
    induction l with
    | nil => rfl
    | cons o l ih =>
      have htail : ((l.findIdx? fun o => o.any (·.circuit == c)).map (· + 1)).bind (fun i => (o :: l).getD i none) =
          (l.filterMap id).find? (·.circuit == c) := by
        rw [Option.bind_map, ← ih]
        rfl
      cases o with
      | none => simpa [List.findIdx?_cons] using htail
      | some p =>
        by_cases hp : p.circuit = c
        · simp [List.findIdx?_cons, hp]
        · simpa [List.findIdx?_cons, hp] using htail
  exact hlist s.probes.slots

/-- A circuit is probed in no census. -/
theorem all_probeOf (hnd : ((probesOf s).map (·.circuit)).Nodup) (c : Nat) :
    (probeOf s c).all (·.mode != .census) = !((probesOf s).any fun p => p.circuit == c && p.mode == .census) := by
  rw [probeOf_eq_find]
  cases hfound : (probesOf s).find? (·.circuit == c) with
  | none =>
    have hno : ∀ p ∈ probesOf s, p.circuit ≠ c := by simpa using hfound
    rw [Option.all_none, eq_comm, Bool.not_eq_true', List.any_eq_false]
    intro p hp
    simp [hno p hp]
  | some q =>
    have hq := List.mem_of_find?_eq_some hfound
    have hkey : q.circuit = c := beq_iff_eq.1 (List.find?_some (p := fun p : Probe => p.circuit == c) hfound)
    rw [Option.all_some, Bool.eq_iff_iff, Bool.not_eq_true', List.any_eq_false]
    constructor
    · intro hmode p hp
      by_cases hpc : p.circuit = c
      · obtain rfl : p = q := List.inj_on_of_nodup_map hnd hp hq (hpc.trans hkey.symm)
        simpa [hpc] using hmode
      · simp [hpc]
    · intro h
      simpa [hkey] using h q hq

theorem selectable_eq (hnd : ((probesOf s).map (·.circuit)).Nodup) (sp : Span) (r : PathRecord) :
    selectable s sp r = (((r.baseline.getD []).any fun h => h.station == sp.station && h.ingress == sp.port) &&
      (r.state == .idle || r.state == .queued .routine || r.state == .queued .sweep ||
        (r.state == .probing && !((probesOf s).any fun p => p.circuit == r.circuit && p.mode == .census)))) := by
  rw [selectable, PathRecord.entersAt, ← all_probeOf hnd]
  congr 1
  rcases r.state with _ | _ | m | _
  · rfl
  · rfl
  · cases m <;> rfl
  · simp

/-! ### An alarm taken (R123) -/

/-- The cause of the run that an alarm starts. -/
def causeOf (k : AlarmKind) : Cause := if k = .loss then .loss else .test

theorem exec_spanAlarmDispatch (hs : s.loop.receive = a :: rest) (ha : a.payload = .spanAlarm k sp)
    (hk : k ≠ .restore) : exec .spanAlarmDispatch s = .next (applyAlarm sp (causeOf k) (dispatched s)) := by
  have harm : exec .spanAlarmDispatch s = execSpanAlarmDispatch s := rfl
  rw [harm, execSpanAlarmDispatch]
  cases k with
  | restore => exact absurd rfl hk
  | loss => rw [dispatchOldest_of_act hs (f := applyAlarm sp .loss) (by simp only [ha])]; rfl
  | test => rw [dispatchOldest_of_act hs (f := applyAlarm sp .test) (by simp only [ha])]; rfl

theorem applyAlarm_of_none (h : selection s sp = []) : applyAlarm sp cause s = s := by
  rw [applyAlarm, sweepResult, if_pos h]

theorem applyAlarm_of_room (hsel : selection s sp ≠ []) (hroom : s.sched.stack.length < 4) :
    applyAlarm sp cause s = newRun sp cause (selection s sp) s := by
  have hcap : s.sched.stack.length < Config.stackCapacity := hroom
  rw [applyAlarm, sweepResult, if_neg hsel, if_pos hcap]

theorem applyAlarm_of_full (hsel : selection s sp ≠ []) (hfull : s.sched.stack.length = 4) :
    applyAlarm sp cause s = mergeRun sp (selection s sp) s := by
  have hcap : ¬ s.sched.stack.length < Config.stackCapacity := by simp [hfull, Config.stackCapacity]
  rw [applyAlarm, sweepResult, if_neg hsel, if_neg hcap]

theorem schedulerOk_dispatched (h : SchedulerOk s) : SchedulerOk (dispatched s) := by
  obtain ⟨hdepth, hempty, hadmission, hbase, hruns, hids, howners, hquiet⟩ := h
  refine ⟨hdepth, hempty, hadmission, hbase, hruns, hids, howners, fun hrun => ?_⟩
  obtain ⟨hstack, hreceive⟩ := hquiet hrun
  exact ⟨hstack, congrArg List.tail hreceive⟩

theorem dispatched_loop (hs : s.loop.receive = a :: rest) : (dispatched s).loop = { s.loop with receive := rest } := by
  simp only [dispatched, State.setLoop_fields, hs, List.tail_cons]

theorem sameWork_dispatched (s : State) : SameWork s (dispatched s) := ⟨rfl, rfl, rfl, fun _ => rfl, rfl, rfl, rfl⟩

/-- The blocks that an alarm leaves alone. -/
structure AlarmSpared (s t : State) (rest : List Received) : Prop where
  loop    : t.loop = { s.loop with receive := rest }
  hops    : t.hops = s.hops
  lines   : t.lines = s.lines
  scanner : t.scanner = s.scanner
  windows : t.windows = s.windows
  roster  : t.roster = s.roster

theorem alarmSpared (hs : s.loop.receive = a :: rest) (sp : Span) (cause : Cause) :
    AlarmSpared s (applyAlarm sp cause (dispatched s)) rest :=
  ⟨by simpa using dispatched_loop hs, by simp [dispatched], by simp [dispatched], by simp [dispatched],
    by simp [dispatched], by simp [dispatched]⟩

/-! ### The state of O36, case by case -/

section

variable (hok : SchedulerOk s) (hnd : (pathOrder s).Nodup) (hroutine : s.sched.routine.Nodup)
  (hsel : selection s sp ≠ [])
include hok hnd hroutine hsel

/-- Under BASE the selected records form a new run, and base work waits behind it. -/
theorem applyAlarm_at_base (hcurrent : s.sched.current = none) (hstack : s.sched.stack = []) :
    AlarmTook s sp (selection s sp) (selection s sp) [.base] (alarmRun s sp cause (selection s sp))
      { s.sched with shadow := s.sched.admission, admission := false, nextRun := s.sched.nextRun + 1 }
      (applyAlarm sp cause (dispatched s)) := by
  have htook := newRun_took (sp := sp) (cause := cause) (schedulerOk_dispatched hok) hnd hroutine
  have hruns : allRuns (dispatched s) = [] := allRuns_of_base (schedulerOk_dispatched hok) hcurrent
  have hstart : (startRun sp cause (suspendCurrent (dispatched s))).sched = { s.sched with
      current := some (emptyRun s sp cause), stack := [.base], shadow := s.sched.admission, admission := false
      nextRun := s.sched.nextRun + 1 } := by
    have hdispatched : (dispatched s).sched = s.sched := rfl
    rw [startRun, suspendCurrent, hdispatched, hcurrent]
    simp [hstack, emptyRun]
  rw [hruns, hstart] at htook
  rw [applyAlarm_of_room (s := dispatched s) hsel (by simp [dispatched, hstack])]
  exact ⟨htook.sched, htook.ctl, htook.paths, htook.slots⟩

/-- A current sweep run is suspended in the same way. -/
theorem applyAlarm_over_run (hcurrent : s.sched.current = some run) (hroom : s.sched.stack.length < 4) :
    AlarmTook s sp (selection s sp) (selection s sp)
      ((.sweep run :: s.sched.stack).map (StackEntry.overtaken s (selection s sp)))
      (alarmRun s sp cause (selection s sp)) { s.sched with nextRun := s.sched.nextRun + 1 }
      (applyAlarm sp cause (dispatched s)) := by
  have htook := newRun_took (sp := sp) (cause := cause) (schedulerOk_dispatched hok) hnd hroutine
  have hall : (allRuns (dispatched s)).map StackEntry.sweep ++ [.base] = .sweep run :: s.sched.stack := by
    have hruns : allRuns (dispatched s) = run :: suspended s := by
      have hsame : allRuns (dispatched s) = allRuns s := rfl
      rw [hsame, allRuns, hcurrent]
      rfl
    rw [hruns, stack_eq_suspended hok (by simp [hcurrent])]
    rfl
  have hstart : (startRun sp cause (suspendCurrent (dispatched s))).sched = { s.sched with
      current := some (emptyRun s sp cause), stack := .sweep run :: s.sched.stack
      nextRun := s.sched.nextRun + 1 } := by
    have hdispatched : (dispatched s).sched = s.sched := rfl
    rw [startRun, suspendCurrent, hdispatched, hcurrent]
    simp [emptyRun]
  rw [hall, hstart, (sameWork_dispatched s).overtaken] at htook
  rw [applyAlarm_of_room (s := dispatched s) hsel hroom]
  have hfinal := htook.of_sameWork (sameWork_dispatched s)
  exact ⟨hfinal.sched, hfinal.ctl, hfinal.paths, hfinal.slots⟩

/-- At a full stack the selection is merged into the current run. -/
theorem applyAlarm_at_full (hcurrent : s.sched.current = some run) (hfull : s.sched.stack.length = 4) :
    AlarmTook s sp (selection s sp) (tookBy run (selection s sp))
      (s.sched.stack.map (StackEntry.overtaken s (tookBy run (selection s sp))))
      ((reopened s (tookBy run (selection s sp)) run).addMerged sp) s.sched
      (applyAlarm sp cause (dispatched s)) := by
  have htook := mergeRun_took (sp := sp) (schedulerOk_dispatched hok) hcurrent hnd hroutine
  rw [(sameWork_dispatched s).overtaken] at htook
  rw [applyAlarm_of_full (s := dispatched s) hsel hfull]
  exact htook.of_sameWork (sameWork_dispatched s)

end

/-! ### The clauses of O36 -/

/-- At BASE: the records as O36 states them. -/
theorem pathsTaken_self (s : State) (sp : Span) (sel : List Nat) : pathsTaken s sp sel sel = s.paths.map fun r =>
    if sel.contains r.circuit then
      { r with origin := some (.sweep sp), state := if r.state = .probing then .probing else .queued .sweep }
    else r := by
  refine List.map_congr_left fun r _ => ?_
  by_cases hin : r.circuit ∈ sel
  · by_cases hst : r.state = .probing <;> simp [hin, hst]
  · simp [hin]

theorem evaluation_credits {i due : Nat} {p : Probe} {r : PathRecord} {j : Judgement} {credited : Run}
    (hp : probeAt s i = some p) (hr : findPath s p.circuit = some r) (hok : SchedulerOk s)
    (hj : j = judge s.image.station s.image.degradeMargin p r.baseline r.origin) (howner : p.owner = .run run.id)
    (hrun : run ∈ allRuns s) (hentry : ∃ e ∈ run.entries, e.circuit = p.circuit ∧ e.standing = .launched)
    (hcredited : credited = run.setStanding p.circuit (.credited j.record.verdict)) :
    RunCredited run credited s (evaluate i (advanceTo due s)) ∧
      (credited.complete = true → r.owed = [] → s.ctl.queue.length < 31 →
        (evaluate i (advanceTo due s)).ctl.queue = s.ctl.queue ++ [(s.ctl.reportNumber, .verdict j.record),
          ((s.ctl.reportNumber + 1) % 256, .sweepSummary credited.summary)]) := by
  have hadvanced : SchedulerOk (advanceTo due s) := hok
  have heval := evaluated (s := advanceTo due s) hp hr (j := j) hj
  obtain ⟨hcredits, hqueue⟩ := recordVerdict_credits (s := advanceTo due s) (j := j) (r := r) hadvanced howner hrun
    hentry hcredited
  have hsched := heval.sched
  have hctl := heval.ctl
  generalize evaluate i (advanceTo due s) = t at *
  rw [hctl]
  refine ⟨?_, hqueue⟩
  constructor
  all_goals rw [hsched]
  exacts [hcredits.stays, hcredits.leavesStack, hcredits.uncovers, hcredits.shadow, hcredits.census]

/-- Settles O36: the selection, the runs it starts, suspends, merges into and closes, and the credited verdict. -/
theorem spanAlarmStartsASweepRun : Obligations.SpanAlarmStartsASweepRun := by
  refine ⟨fun a k sp rest s hs ha hk hnd hroutine hok hcurrent hstack => ⟨fun hsel => ?_, fun hsel => ?_⟩,
    fun a k sp rest s hs ha hk hsel => ?_,
    fun a k sp rest sel run stack s hs ha hk hnd hroutine hok hcurrent hroom hsel hne hover => ?_,
    fun a k sp rest sel taken run stack s hs ha hk hnd hroutine hok hcurrent hfull hsel hne htaken hover => ?_,
    fun i due p r j run credited s hp hphase hdue hr _ hok hj howner hrun hentry hcredited => ?_,
    fun r => ⟨complete_iff r, summary_eq r⟩, fun sp s hslots => ?_⟩
  · rw [exec_spanAlarmDispatch hs ha hk, applyAlarm_of_none (s := dispatched s) hsel]
  · have htook := applyAlarm_at_base (cause := causeOf k) hok hnd hroutine hsel hcurrent hstack
    have hspared := alarmSpared hs sp (causeOf k)
    refine ⟨_, exec_spanAlarmDispatch hs ha hk, ?_⟩
    generalize applyAlarm sp (causeOf k) (dispatched s) = t at *
    exact ⟨hspared.loop, htook.sched, htook.paths.trans (pathsTaken_self s sp _), htook.slots, hspared.hops,
      hspared.lines, hspared.scanner, hspared.windows, hspared.roster, htook.ctl⟩
  · rw [exec_spanAlarmDispatch hs ha hk, applyAlarm_of_none (s := dispatched s) hsel]
  · subst hsel hover
    have htook := applyAlarm_over_run (cause := causeOf k) hok hnd hroutine hne hcurrent hroom
    have hspared := alarmSpared hs sp (causeOf k)
    refine ⟨_, exec_spanAlarmDispatch hs ha hk, ?_⟩
    generalize applyAlarm sp (causeOf k) (dispatched s) = t at *
    exact ⟨hspared.loop, htook.sched, htook.ctl, htook.paths, htook.slots, hspared.hops,
      hspared.lines, hspared.scanner, hspared.windows, hspared.roster⟩
  · subst hsel hover htaken
    have htook := applyAlarm_at_full (cause := causeOf k) hok hnd hroutine hne hcurrent hfull
    have hspared := alarmSpared hs sp (causeOf k)
    refine ⟨_, exec_spanAlarmDispatch hs ha hk, ?_⟩
    generalize applyAlarm sp (causeOf k) (dispatched s) = t at *
    rw [addMerged_eq] at htook
    exact ⟨hspared.loop, htook.sched, htook.ctl, htook.paths, htook.slots, hspared.hops,
      hspared.lines, hspared.scanner, hspared.windows, hspared.roster⟩
  · obtain ⟨hcredits, hqueue⟩ := evaluation_credits (due := due) hp hr hok hj howner hrun hentry hcredited
    refine ⟨_, exec_deadlineExpiry hp hphase hdue, ?_⟩
    generalize evaluate i (advanceTo due s) = t at *
    exact ⟨hcredits.stays, hcredits.leavesStack, hcredits.uncovers, hqueue, hcredits.shadow, hcredits.census⟩
  · obtain ⟨_, hdistinct, _⟩ := hslots
    rw [selection, funext (selectable_eq hdistinct sp)]

end Sys2Proof.Machine
end

