-- ==== Sys2Proof/Proofs/Sweeps.lean ====
section
/-! SWEEP: the TEST is requested, and the own records are selected as a dispatched TEST alarm selects them (R45, R126,
R178). -/

namespace Sys2Proof.Machine

variable {s t u : State} {c d id : Nat} {sp : Span} {cause : Cause} {st p : Byte} {run : Run}

/-! ### The origins of selected records (R18) -/

/-- The records of a circuit name the sweep of the span as their origin. -/
def OriginIs (sp : Span) (c : Nat) (s : State) : Prop := ∀ x ∈ s.paths, x.circuit = c → x.origin = some (.sweep sp)

theorem OriginIs.of_paths (h : OriginIs sp c s) (hpaths : t.paths = s.paths) : OriginIs sp c t := by
  rw [OriginIs, hpaths]
  exact h

theorem originIs_modifyPath {f : PathRecord → PathRecord} (hcircuit : ∀ x, (f x).circuit = x.circuit)
    (horigin : ∀ x, x.origin = some (.sweep sp) → (f x).origin = some (.sweep sp)) (h : OriginIs sp c s) :
    OriginIs sp c (modifyPath d f s) := by
  refine List.forall_mem_map.2 fun x hx hxc => ?_
  by_cases hd : x.circuit = d
  · rw [if_pos hd, hcircuit] at hxc
    rw [if_pos hd]
    exact horigin x (h x hx hxc)
  · rw [if_neg hd] at hxc ⊢
    exact h x hx hxc

theorem originIs_setOrigin (h : OriginIs sp c s) : OriginIs sp c (setOrigin d (.sweep sp) s) :=
  originIs_modifyPath (fun _ => rfl) (fun _ _ => rfl) h

theorem originIs_setOrigin_self (sp : Span) (c : Nat) (s : State) : OriginIs sp c (setOrigin c (.sweep sp) s) := by
  refine List.forall_mem_map.2 fun x _ hxc => ?_
  by_cases hc : x.circuit = c
  · rw [if_pos hc]
  · rw [if_neg hc] at hxc
    exact absurd hxc hc

theorem originIs_setRecordState (y : RecordState) (h : OriginIs sp c s) : OriginIs sp c (setRecordState d y s) :=
  originIs_modifyPath (fun _ => rfl) (fun _ h => h) h

theorem originIs_modifyRun (f : Run → Run) (h : OriginIs sp c s) : OriginIs sp c (modifyRun id f s) :=
  h.of_paths (by simp)

theorem originIs_moveIntoRun (y : RecordState) (h : OriginIs sp c s) : OriginIs sp c (moveIntoRun id d y s) := by
  unfold moveIntoRun
  split
  · split
    · exact h.of_paths (by simp)
    · exact h
  · exact h.of_paths (by simp)
  · exact originIs_setRecordState _ (h.of_paths (by simp))
  · exact originIs_setRecordState _ h
  · exact h

theorem originIs_takeSelected (h : OriginIs sp c s) : OriginIs sp c (takeSelected id sp s d) := by
  unfold takeSelected
  split
  · dsimp only
    split
    · exact originIs_setOrigin h
    · exact originIs_modifyRun _ (originIs_moveIntoRun _ (originIs_setOrigin h))
  · exact h

theorem originIs_takeSelected_self (hcurrent : s.sched.current ≠ none) : OriginIs sp c (takeSelected id sp s c) := by
  obtain ⟨run, hrun⟩ := Option.ne_none_iff_exists'.1 hcurrent
  cases hfound : findPath s c with
  | none =>
    have hno : ∀ x ∈ s.paths, x.circuit ≠ c := by simpa [findPath] using hfound
    have hsame : takeSelected id sp s c = s := by rw [takeSelected, hfound]
    rw [hsame]
    exact fun x hx hxc => absurd hxc (hno x hx)
  | some r =>
    rw [takeSelected, hfound, hrun]
    dsimp only
    split
    · exact originIs_setOrigin_self sp c s
    · exact originIs_modifyRun _ (originIs_moveIntoRun _ (originIs_setOrigin_self sp c s))

/-! ### A run stays current -/

theorem current_modifyRun (f : Run → Run) (h : s.sched.current ≠ none) :
    (modifyRun id f s).sched.current ≠ none := by
  simpa [modifyRun] using h

theorem current_takeSelected (h : s.sched.current ≠ none) : (takeSelected id sp s c).sched.current ≠ none := by
  have hmove (y : RecordState) (u : State) (hu : u.sched.current ≠ none) :
      (moveIntoRun id c y u).sched.current ≠ none := by
    unfold moveIntoRun
    split
    · split
      · exact current_modifyRun _ hu
      · exact hu
    · have howner : (handOnOwner c u).sched.current ≠ none := by
        unfold handOnOwner
        repeat' split
        exacts [current_modifyRun _ hu, hu, hu]
      simpa [adoptSlot] using howner
    · rename_i m _
      cases m <;> exact hu
    · exact hu
    · exact hu
  unfold takeSelected
  split
  · dsimp only
    split
    · exact h
    · exact current_modifyRun _ (hmove _ _ h)
  · exact h

theorem originIs_foldl_takeSelected (sel : List Nat) : ∀ {s : State}, s.sched.current ≠ none →
    ∀ c ∈ sel, OriginIs sp c (sel.foldl (takeSelected id sp) s) := by
  have hkeeps (l : List Nat) : ∀ {u : State} {c : Nat}, OriginIs sp c u →
      OriginIs sp c (l.foldl (takeSelected id sp) u) := by
    induction l with
    | nil => exact fun h => h
    | cons d l ih => exact fun h => ih (originIs_takeSelected h)
  induction sel with
  | nil => exact fun _ _ hc => absurd hc (by simp)
  | cons d sel ih =>
    intro s hcurrent c hc
    rcases List.mem_cons.1 hc with rfl | hc
    · exact hkeeps sel (originIs_takeSelected_self hcurrent)
    · exact ih (current_takeSelected hcurrent) c hc

theorem originIs_applyAlarm (hempty : s.sched.current = none → s.sched.stack = []) (hc : c ∈ selection s sp) :
    OriginIs sp c (applyAlarm sp cause s) := by
  have hsel : selection s sp ≠ [] := List.ne_nil_of_mem hc
  by_cases hroom : s.sched.stack.length < 4
  · rw [applyAlarm_of_room hsel hroom]
    have hstarted : (startRun sp cause (suspendCurrent s)).sched.current ≠ none := by simp [startRun]
    exact (originIs_foldl_takeSelected (id := s.sched.nextRun) _ hstarted c hc).of_paths (by simp [newRun])
  · have hcap : ¬ s.sched.stack.length < Config.stackCapacity := hroom
    have hcurrent : s.sched.current ≠ none := fun hnone => hroom (by simp [hempty hnone])
    obtain ⟨run, hrun⟩ := Option.ne_none_iff_exists'.1 hcurrent
    rw [applyAlarm, sweepResult, if_neg hsel, if_neg hcap]
    dsimp only
    rw [mergeRun, hrun]
    exact (originIs_foldl_takeSelected (id := run.id) _ hcurrent c hc).of_paths (by simp)

/-! ### The command (R126, R178) -/

/-- The station and the port of a SWEEP as a span. -/
def sweptSpan (st p : Byte) : Span := ⟨st.toNat, p.toNat⟩

theorem exec_sweep (hrun : s.runState = .running) : exec (.sweep st p) s =
    .next (answer (.sweep st p) (serveSweep (sweptSpan st p) (heldCommand (.sweep st p) s))) := by
  have harm : exec (.sweep st p) s = execSweep st p s := rfl
  rw [harm, execSweep, gateSweep, gate_of_running hrun]
  rfl

theorem badSpan_iff (s : State) (sp : Span) : badSpan s sp = true ↔ stationOk sp.station = false ∨ 15 < sp.port ∨
    (sp.station = s.image.station ∧ s.image.classAt sp.port ≠ .lineIn) := by
  have hown : s.own = s.image.station := rfl
  simp [badSpan, hown, or_assoc, Nat.succ_le_iff]

theorem pendTest_eq (sp : Span) (s : State) : pendAlarm ⟨.test, sp⟩ s = s.setScanner { s.scanner with
    alarms := if s.scanner.alarms.any (·.kind == .test) then
        s.scanner.alarms.map fun a => if a.kind = .test then ⟨.test, sp⟩ else a
      else s.scanner.alarms ++ [⟨.test, sp⟩] } := by
  simp [pendAlarm, changeScanner, Alarm.replacedBy]

/-- The command is pending, and so is the TEST. -/
def testPended (st p : Byte) (s : State) : State :=
  pendAlarm ⟨.test, sweptSpan st p⟩ (heldCommand (.sweep st p) s)

/-- The state that SWEEP leaves before its response. -/
def swept (st p : Byte) (s : State) : State := applyAlarm (sweptSpan st p) .test (testPended st p s)

theorem serveSweep_of_good (hgood : ¬ badSpan (heldCommand (.sweep st p) s) (sweptSpan st p) = true) :
    serveSweep (sweptSpan st p) (heldCommand (.sweep st p) s) =
      ⟨.done, .swept (selection s (sweptSpan st p)).length (sweepResult s (selection s (sweptSpan st p)))
        (s.scanner.alarms.any (·.kind == .test)), swept st p s⟩ := by
  rw [serveSweep, if_neg hgood]
  rfl

theorem swept_scanner (st p : Byte) (s : State) : (swept st p s).scanner = { (requestEnded s).scanner with
    alarms := if s.scanner.alarms.any (·.kind == .test) then
        s.scanner.alarms.map fun a => if a.kind = .test then ⟨.test, sweptSpan st p⟩ else a
      else s.scanner.alarms ++ [⟨.test, sweptSpan st p⟩] } := by
  have hscanner : (swept st p s).scanner = (testPended st p s).scanner := by simp [swept]
  rw [hscanner, testPended, pendTest_eq]
  rfl

theorem swept_of_none (hsel : selection s (sweptSpan st p) = []) : (swept st p s).paths = s.paths ∧
    (swept st p s).sched = s.sched ∧ (swept st p s).probes = s.probes := by
  rw [swept, applyAlarm_of_none (s := testPended st p s) hsel]
  exact ⟨rfl, rfl, rfl⟩

theorem originIs_swept (hok : SchedulerOk s) (hc : c ∈ selection s (sweptSpan st p)) :
    OriginIs (sweptSpan st p) c (swept st p s) := by
  obtain ⟨_, hempty, _⟩ := hok
  exact originIs_applyAlarm (s := testPended st p s) hempty.1 hc

/-- The state is the one that the dispatch of a TEST alarm of the span leaves. -/
theorem exec_testDispatch {a : Received} (ha : a.payload = .spanAlarm .test (sweptSpan st p)) :
    exec .spanAlarmDispatch (((heldCommand (.sweep st p) s).setScanner
      { (requestEnded s).scanner with alarms := (swept st p s).scanner.alarms }).setLoop
      { s.loop with receive := a :: s.loop.receive }) = .next (swept st p s) := by
  rw [exec_spanAlarmDispatch (rest := s.loop.receive) rfl ha (by decide), swept_scanner, swept, testPended, pendTest_eq]
  rfl

/-- Settles O35: a bad span is refused; else the TEST pends, and the selection is taken as at its dispatch. -/
theorem sweepRequestsTheTestAndSelects : Obligations.SweepRequestsTheTestAndSelects := by
  refine fun st p s hrun => ⟨fun hbad => ?_, fun hstation hport hline hok => ?_⟩
  · have hrefused : badSpan (heldCommand (.sweep st p) s) (sweptSpan st p) = true := (badSpan_iff _ _).2 hbad
    rw [exec_sweep hrun, serveSweep, if_pos hrefused]
    rfl
  · have hgood : ¬ badSpan (heldCommand (.sweep st p) s) (sweptSpan st p) = true := by
      rw [badSpan_iff]
      rintro (hbad | hbad | ⟨hown, hclass⟩)
      · exact absurd (hbad.symm.trans hstation) (by simp)
      · exact absurd hport (Nat.not_le_of_lt hbad)
      · exact hclass (hline hown)
    refine ⟨_, exec_sweep hrun, ?_⟩
    rw [serveSweep_of_good hgood]
    have hframe : (swept st p s).hops = s.hops ∧ (swept st p s).lines = s.lines ∧ (swept st p s).windows = s.windows ∧
        (swept st p s).loop = s.loop ∧ (swept st p s).roster = s.roster := by
      simp [swept, testPended, heldCommand_eq]
    exact ⟨rfl, congrArg TagScanner.alarms (swept_scanner st p s),
      fun c hc r hr => originIs_swept hok hc r (List.mem_of_find?_eq_some hr)
        (beq_iff_eq.1 (List.find?_some (p := fun x : PathRecord => x.circuit == c) hr)),
      fun a ha => ⟨_, exec_testDispatch ha, rfl⟩, swept_of_none, hframe⟩

end Sys2Proof.Machine
end
